-- ==== Sys2Proof/Word.lean ====
section
/-! DEFINITION. The words of the YV4 and their plainest arithmetic. -/

namespace Sys2Proof

/-- Integer view of a general register (R53). -/
abbrev Word := BitVec 64
/-- One byte of memory. -/
abbrev Byte := BitVec 8
/-- An address of the 48-bit space of a context (R62). -/
abbrev Addr := BitVec 48
/-- A 16-bit parcel of the code stream (R21). -/
abbrev Parcel := BitVec 16
/-- A value of architected time (R208). -/
abbrev Tick := BitVec 64
/-- The contents of a vector register (R52). -/
abbrev VReg := BitVec 2048
/-- The contents of a predicate register (R52). -/
abbrev PReg := BitVec 256

end Sys2Proof
end

