-- ==== Sys2Proof/Syntax.lean ====
section
/-! DEFINITION. The instructions and the device steps of the opcode table, one constructor per row. -/

namespace Sys2Proof

/-- Number of a general or vector register, A4 ++ A and the like (R29). -/
abbrev RegNum := BitVec 5
/-- Number of a predicate register. -/
abbrev PredNum := BitVec 4

/-- What the prefixes of an instruction give apart from its operands: how many PFX.X it carries, which of
PFX.R, PFX.P and PFX.M are present, and the predicate of PFX.P (R22 to R28). -/
structure Pfx where
  nx   : BitVec 3
  r    : Bool
  p    : Bool
  m    : Bool
  pred : PredNum
  neg  : Bool
  zero : Bool
  deriving DecidableEq, Repr

/-- Length of the instruction in parcels: its prefixes and its base parcel (R22). -/
def Pfx.parcels (x : Pfx) : Nat :=
  x.nx.toNat + x.r.toNat + x.p.toNat + x.m.toNat + 1

/-- Fields of PFX.M (R27). -/
structure Ordering where
  ord   : BitVec 2
  scope : BitVec 3
  timed : Bool
  hint  : BitVec 2
  deriving DecidableEq, Repr

/-- Floating types (R33, R150). -/
inductive FTy where
  | f32 | bf16 | f16 | e4m3 | e5m2 | f64
  deriving DecidableEq, Repr

/-- Integer types (R33, R158); they also name the widths of page 3. -/
inductive ITy where
  | s32 | s16 | s8 | s64 | z32 | z16 | z8 | z64
  deriving DecidableEq, Repr

/-- Element type of a page 2 instruction: TY read in the class that CLS selects (R32, R33). -/
inductive ETy where
  | fp (t : FTy)
  | int (t : ITy)
  deriving DecidableEq, Repr

/-- A core of the module, by die and core number (R2). -/
structure CoreId where
  die  : BitVec 2
  core : BitVec 10
  deriving DecidableEq, Repr

/-- A culvert: die, cluster and culvert index (R292). -/
structure CulvertId where
  die     : BitVec 2
  cluster : BitVec 7
  index   : BitVec 1
  deriving DecidableEq, Repr

/-- The agents of the module (R120): those that execute instructions (R48, R218, R292, R392), the cistern of a stack and
the matrix unit of a cluster. -/
inductive AgentId where
  | core (c : CoreId)
  | culvert (c : CulvertId)
  | scheduler (die : BitVec 2)
  | archivist (die : BitVec 2)
  | security
  | cistern (stack : BitVec 4)
  | matrix (die : BitVec 2) (cluster : BitVec 7)
  deriving DecidableEq, Repr

/-- How a host request ends (R93, R347). -/
inductive Completion where
  | data (v : BitVec 128)
  | unsupported
  | abort
  | poisoned
  | importRefused
  | lost
  deriving DecidableEq, Repr

/-- Request carried by a Nuwin flit (R348). -/
inductive FlitKind where
  | load
  | store (bytes : List Byte)
  | atomic (op : BitVec 3) (wide : Bool) (operand : Word) (expected : Word)
  | timedStore (bytes : List Byte) (t : Tick) (die : BitVec 2) (agent order element : Nat)
  | ack (request : Nat)
  | refused (request : Nat)
  deriving DecidableEq, Repr

/-- A Nuwin flit (R348): header, request, and whether its CRC-64 holds. -/
structure Flit where
  dest    : BitVec 19
  source  : BitVec 19
  context : BitVec 8
  seq     : Nat
  addr    : BitVec 44
  size    : Nat
  kind    : FlitKind
  crcOk   : Bool
  deriving DecidableEq, Repr

/-- What discovery reports when a port comes up (R349): the peer, its fabric domain, its feed and the measured minimum
one-way latency (R213). -/
structure PortReport where
  device  : BitVec 19
  domain  : BitVec 9
  feed    : BitVec 16
  latency : Nat
  deriving DecidableEq, Repr

/-- What the pipeline reports of a marked instruction: its six cycle counts and what it missed (R406). -/
structure SampleBody where
  cycles  : List (BitVec 32)
  miss    : BitVec 8
  deriving DecidableEq, Repr

/-- A firmware image measured at boot (R392): the bytes whose digest a block takes. -/
abbrev Image := List Byte

/-- A state of a TDI under TDISP (R401). -/
inductive TdiState where
  | unlocked | locked | run
  deriving DecidableEq, Repr

/-- How a vendor command reaches the security core (R394, R397): the function that it is for, the mailbox that it came through,
and the record that carries it, sealed under the session of the mailbox. -/
structure Session where
  fn     : BitVec 6
  box    : BitVec 6
  record : List Byte
  deriving DecidableEq, Repr

/-- A GET_CAPABILITIES at the mailbox of a function: the requester's flags and the other bytes of the request (R394, R396). -/
structure CapsRequest where
  fn    : BitVec 6
  flags : BitVec 32
  more  : List Byte
  deriving DecidableEq, Repr

/-- A NEGOTIATE_ALGORITHMS at the mailbox of a function and what it offers (R394): the masks of BaseAsymAlgo, BaseHashAlgo, DHE
and AEAD, and the other bytes of the request. -/
structure AlgOffer where
  fn   : BitVec 6
  asym : BitVec 32
  hash : BitVec 32
  dhe  : BitVec 16
  aead : BitVec 16
  more : List Byte
  deriving DecidableEq, Repr

/-- A request that comes to the mailbox of a function as a record of its session (R394). -/
structure SealedRequest where
  fn     : BitVec 6
  record : List Byte
  deriving DecidableEq, Repr

/-- How a confirmation of a migration ends (R402): it is delivered, or it is not, and the source had committed or not. -/
inductive Confirmation where
  | delivered
  | failed (committed : Bool)
  deriving DecidableEq, Repr

/-- The instruction set: pages 0 to 7 as decoded words, then the steps of the opcode table that no word encodes. -/
inductive Instr where
  -- Page 0, form RR (R75, R78).
  | add (x : Pfx) (a b c : RegNum)
  | sub (x : Pfx) (a b c : RegNum)
  | and (x : Pfx) (a b c : RegNum)
  | or (x : Pfx) (a b c : RegNum)
  | xor (x : Pfx) (a b c : RegNum)
  | shl (x : Pfx) (a b c : RegNum)
  | shr (x : Pfx) (a b c : RegNum)
  | sar (x : Pfx) (a b c : RegNum)
  | min (x : Pfx) (a b c : RegNum)
  | max (x : Pfx) (a b c : RegNum)
  | minz (x : Pfx) (a b c : RegNum)
  | maxz (x : Pfx) (a b c : RegNum)
  | slt (x : Pfx) (a b c : RegNum)
  | sltz (x : Pfx) (a b c : RegNum)
  | seq (x : Pfx) (a b c : RegNum)
  -- Form MV.
  | mov (x : Pfx) (a b : RegNum)
  -- Form RI (R79).
  | addi (x : Pfx) (a c : RegNum) (imm : Word)
  | andi (x : Pfx) (a c : RegNum) (imm : Word)
  | ori (x : Pfx) (a c : RegNum) (imm : Word)
  | xori (x : Pfx) (a c : RegNum) (imm : Word)
  | shli (x : Pfx) (a c : RegNum) (imm : Word)
  | shri (x : Pfx) (a c : RegNum) (imm : Word)
  | sari (x : Pfx) (a c : RegNum) (imm : Word)
  | slti (x : Pfx) (a c : RegNum) (imm : Word)
  -- Form LI (R80).
  | li (x : Pfx) (a : RegNum) (imm : Word)
  -- Form LA (R81).
  | lea (x : Pfx) (a b : RegNum) (off : Word)
  -- Form BI (R82, R83).
  | br (x : Pfx) (off : Word)
  | call (x : Pfx) (off : Word)
  -- Form BC (R82).
  | beq (x : Pfx) (a b : RegNum) (off : Word)
  | bne (x : Pfx) (a b : RegNum) (off : Word)
  | blt (x : Pfx) (a b : RegNum) (off : Word)
  | bge (x : Pfx) (a b : RegNum) (off : Word)
  | blo (x : Pfx) (a b : RegNum) (off : Word)
  | bhs (x : Pfx) (a b : RegNum) (off : Word)
  -- Form JR (R83).
  | callr (x : Pfx) (a : RegNum)
  | jmpr (x : Pfx) (a : RegNum)
  -- Form LP (R84).
  | loop (x : Pfx) (a : RegNum) (off : Word)
  -- Form MS (R85); size is M.
  | ld (x : Pfx) (o : Ordering) (size : BitVec 2) (a b : RegNum) (off : Word)
  | ldz (x : Pfx) (o : Ordering) (size : BitVec 2) (a b : RegNum) (off : Word)
  | st (x : Pfx) (o : Ordering) (size : BitVec 2) (a b : RegNum) (off : Word)
  -- Form MK (R86).
  | ldk (x : Pfx) (o : Ordering) (a b : RegNum) (off : Word)
  | stk (x : Pfx) (o : Ordering) (a b : RegNum) (off : Word)
  -- Form MX (R87).
  | ldx (x : Pfx) (o : Ordering) (size : BitVec 2) (a b c : RegNum) (off : Word)
  | stx (x : Pfx) (o : Ordering) (size : BitVec 2) (a b c : RegNum) (off : Word)
  -- Form MA (R90); wide is the low bit of M.
  | aadd (x : Pfx) (o : Ordering) (wide : Bool) (a b c : RegNum) (off : Word)
  | aand (x : Pfx) (o : Ordering) (wide : Bool) (a b c : RegNum) (off : Word)
  | aor (x : Pfx) (o : Ordering) (wide : Bool) (a b c : RegNum) (off : Word)
  | axor (x : Pfx) (o : Ordering) (wide : Bool) (a b c : RegNum) (off : Word)
  | amin (x : Pfx) (o : Ordering) (wide : Bool) (a b c : RegNum) (off : Word)
  | amax (x : Pfx) (o : Ordering) (wide : Bool) (a b c : RegNum) (off : Word)
  | aswp (x : Pfx) (o : Ordering) (wide : Bool) (a b c : RegNum) (off : Word)
  | acas (x : Pfx) (o : Ordering) (wide : Bool) (a b c : RegNum) (off : Word)
  -- Form MT (R89); size is TY, 0b000 to 0b100.
  | stat (x : Pfx) (o : Ordering) (size : BitVec 3) (a b c : RegNum) (off : Word)
  | ldnb (x : Pfx) (o : Ordering) (size : BitVec 3) (a b c : RegNum) (off : Word)
  -- Forms PP, TR, ID, TN (R94 to R97).
  | pushs (x : Pfx) (f l : RegNum)
  | pops (x : Pfx) (f l : RegNum)
  | trap (x : Pfx) (code : BitVec 8)
  | rdid (x : Pfx) (a : RegNum) (sel : BitVec 4)
  | tnow (x : Pfx) (a : RegNum)
  -- FENCE and FENCE.I (R134).
  | fence (x : Pfx) (o : Ordering)
  | fenceI (x : Pfx)
  -- Page 1, integer multiply, divide and bits (R100, R101).
  | mul (x : Pfx) (a b c : RegNum)
  | mulh (x : Pfx) (a b c : RegNum)
  | mulhz (x : Pfx) (a b c : RegNum)
  | div (x : Pfx) (a b c : RegNum)
  | divz (x : Pfx) (a b c : RegNum)
  | rem (x : Pfx) (a b c : RegNum)
  | remz (x : Pfx) (a b c : RegNum)
  | clz (x : Pfx) (a b : RegNum)
  | ctz (x : Pfx) (a b : RegNum)
  | popc (x : Pfx) (a b : RegNum)
  | brev (x : Pfx) (a b : RegNum)
  | bswp (x : Pfx) (a b : RegNum)
  | bext (x : Pfx) (a b c : RegNum)
  | bins (x : Pfx) (a b c : RegNum)
  | rotl (x : Pfx) (a b c : RegNum)
  | rotr (x : Pfx) (a b c : RegNum)
  | sel (x : Pfx) (a b c : RegNum)
  -- Capability instructions (R102 to R110).
  | kinc (x : Pfx) (a b c : RegNum)
  | kinci (x : Pfx) (a c : RegNum) (imm : Word)
  | kbnd (x : Pfx) (a b c : RegNum)
  | kprm (x : Pfx) (a b c : RegNum)
  | kcol (x : Pfx) (a b c : RegNum)
  | kget (x : Pfx) (a c : RegNum) (sel : BitVec 4)
  | ktst (x : Pfx) (a b c : RegNum)
  | kseal (x : Pfx) (a b : RegNum)
  | kuns (x : Pfx) (a b c : RegNum)
  | kclr (x : Pfx) (a b : RegNum)
  | kcur (x : Pfx) (a b c : RegNum)
  | stg (x : Pfx) (a b : RegNum)
  | ldg (x : Pfx) (a b : RegNum)
  -- Scalar floating point (R112 to R116).
  | fadd (x : Pfx) (t : FTy) (a b c : RegNum)
  | fsub (x : Pfx) (t : FTy) (a b c : RegNum)
  | fmul (x : Pfx) (t : FTy) (a b c : RegNum)
  | ffma (x : Pfx) (t : FTy) (a b c : RegNum)
  | fdiv (x : Pfx) (t : FTy) (a b c : RegNum)
  | fsqrt (x : Pfx) (t : FTy) (a b : RegNum)
  | fmin (x : Pfx) (t : FTy) (a b c : RegNum)
  | fmax (x : Pfx) (t : FTy) (a b c : RegNum)
  | feq (x : Pfx) (t : FTy) (a b c : RegNum)
  | flt (x : Pfx) (t : FTy) (a b c : RegNum)
  | fle (x : Pfx) (t : FTy) (a b c : RegNum)
  | fcvti (x : Pfx) (src : FTy) (dst : ITy) (rtz : Bool) (a b : RegNum)
  | fcvtf (x : Pfx) (dst : FTy) (src : ITy) (a b : RegNum)
  | fcvtw (x : Pfx) (dst src : FTy) (a b : RegNum)
  -- CSR access and random numbers (R117, R119).
  | csrr (x : Pfx) (a : RegNum) (csr : Word)
  | csrw (x : Pfx) (a c : RegNum) (csr : Word)
  | csrs (x : Pfx) (a c : RegNum) (csr : Word)
  | csrc (x : Pfx) (a c : RegNum) (csr : Word)
  | srnd (x : Pfx) (a b c : RegNum)
  -- Page 2 (R168 to R190).
  | vadd (x : Pfx) (t : ETy) (a b c : RegNum)
  | vsub (x : Pfx) (t : ETy) (a b c : RegNum)
  | vmul (x : Pfx) (t : ETy) (a b c : RegNum)
  | vfma (x : Pfx) (t : ETy) (a b c : RegNum)
  | vfms (x : Pfx) (t : ETy) (a b c : RegNum)
  | vfnma (x : Pfx) (t : ETy) (a b c : RegNum)
  | vmin (x : Pfx) (t : ETy) (a b c : RegNum)
  | vmax (x : Pfx) (t : ETy) (a b c : RegNum)
  | vabs (x : Pfx) (t : ETy) (a b : RegNum)
  | vneg (x : Pfx) (t : ETy) (a b : RegNum)
  | vdiv (x : Pfx) (t : FTy) (a b c : RegNum)
  | vsqrt (x : Pfx) (t : FTy) (a b : RegNum)
  | vrcp (x : Pfx) (t : FTy) (a b : RegNum)
  | vrsq (x : Pfx) (t : FTy) (a b : RegNum)
  | vexp2 (x : Pfx) (t : FTy) (a b : RegNum)
  | vlog2 (x : Pfx) (t : FTy) (a b : RegNum)
  | vand (x : Pfx) (t : ITy) (a b c : RegNum)
  | vor (x : Pfx) (t : ITy) (a b c : RegNum)
  | vxor (x : Pfx) (t : ITy) (a b c : RegNum)
  | vnot (x : Pfx) (t : ITy) (a b : RegNum)
  | vshl (x : Pfx) (t : ITy) (a b c : RegNum)
  | vshr (x : Pfx) (t : ITy) (a b c : RegNum)
  | vsar (x : Pfx) (t : ITy) (a b c : RegNum)
  | vceq (x : Pfx) (t : ETy) (a : PredNum) (b c : RegNum)
  | vclt (x : Pfx) (t : ETy) (a : PredNum) (b c : RegNum)
  | vcle (x : Pfx) (t : ETy) (a : PredNum) (b c : RegNum)
  | vsel (x : Pfx) (t : ETy) (a b c : RegNum)
  | vcvt (x : Pfx) (dst src : ETy) (rtz : Bool) (a b : RegNum)
  | vsatn (x : Pfx) (dst src : ETy) (a b : RegNum)
  | vmov (x : Pfx) (t : ETy) (a b : RegNum)
  | vbc (x : Pfx) (t : ETy) (a b : RegNum)
  | vrand (x : Pfx) (a b c : RegNum)
  | vradd (x : Pfx) (t : ETy) (a b : RegNum)
  | vrmin (x : Pfx) (t : ETy) (a b : RegNum)
  | vrmax (x : Pfx) (t : ETy) (a b : RegNum)
  | vscan (x : Pfx) (t : ETy) (a b : RegNum)
  | vaddi (x : Pfx) (t : ITy) (a c : RegNum) (imm : Word)
  | vmuli (x : Pfx) (t : ITy) (a c : RegNum) (imm : Word)
  | vdot4 (x : Pfx) (t : ETy) (a b c : RegNum)
  | pand (x : Pfx) (a b c : PredNum)
  | por (x : Pfx) (a b c : PredNum)
  | pxor (x : Pfx) (a b c : PredNum)
  | pnot (x : Pfx) (a b : PredNum)
  | pset (x : Pfx) (t : ETy) (a : PredNum) (b : RegNum)
  | pcnt (x : Pfx) (t : ETy) (a : RegNum) (b : PredNum)
  | pfst (x : Pfx) (t : ETy) (a : RegNum) (b : PredNum)
  | pmov (x : Pfx) (a b : PredNum)
  -- Page 3 (R191 to R207).
  | vld (x : Pfx) (o : Ordering) (w : ITy) (a b : RegNum) (off : Word)
  | vst (x : Pfx) (o : Ordering) (w : ITy) (a b : RegNum) (off : Word)
  | vlds (x : Pfx) (o : Ordering) (w : ITy) (a b c : RegNum) (off : Word)
  | vsts (x : Pfx) (o : Ordering) (w : ITy) (a b c : RegNum) (off : Word)
  | vgth (x : Pfx) (o : Ordering) (w : ITy) (a b c : RegNum)
  | vsct (x : Pfx) (o : Ordering) (w : ITy) (a b c : RegNum)
  | vldx (x : Pfx) (o : Ordering) (w : ITy) (a b c : RegNum)
  | vstx (x : Pfx) (o : Ordering) (w : ITy) (a b c : RegNum)
  | vstat (x : Pfx) (o : Ordering) (w : ITy) (a b c : RegNum) (off : Word)
  | vldnb (x : Pfx) (o : Ordering) (w : ITy) (a b c : RegNum) (off : Word)
  | vperm (x : Pfx) (w : ITy) (a b c : RegNum)
  | vzip (x : Pfx) (w : ITy) (a b c : RegNum)
  | vuzp (x : Pfx) (w : ITy) (a b c : RegNum)
  | vrot (x : Pfx) (w : ITy) (a b c : RegNum)
  | vslid (x : Pfx) (w : ITy) (a b c : RegNum)
  | vext (x : Pfx) (w : ITy) (a b c : RegNum)
  | vins (x : Pfx) (w : ITy) (a b c : RegNum)
  | vcmpr (x : Pfx) (w : ITy) (a b : RegNum)
  | vexpn (x : Pfx) (w : ITy) (a b : RegNum)
  | vtrn (x : Pfx) (w : ITy) (a b c : RegNum)
  | vqnt (x : Pfx) (unsignedTy : Bool) (m : BitVec 4) (a b : RegNum)
  | vdeq (x : Pfx) (unsignedTy : Bool) (m : BitVec 4) (a b : RegNum)
  | vsprs (x : Pfx) (w : ITy) (a b : RegNum) (c : PredNum)
  -- Page 4: the matrix unit (R315).
  | mfmt (x : Pfx) (a : RegNum)
  | mring (x : Pfx) (q : BitVec 2) (a c : RegNum)
  | mprod (x : Pfx) (q : BitVec 2) (a : RegNum)
  | mma (x : Pfx) (o : Ordering) (acc ringA ringB : BitVec 2) (keepA keepB transA transB : Bool) (c : RegNum)
  | mmas (x : Pfx) (o : Ordering) (acc ringA ringB ringM : BitVec 2) (keepA keepB : Bool) (c : RegNum)
  | mzero (x : Pfx) (acc : BitVec 2)
  | mdrain (x : Pfx) (fmt : BitVec 3) (a : RegNum) (acc : BitVec 2)
  | mflag (x : Pfx) (a : RegNum) (acc : BitVec 2) (clr : Bool)
  | mwait (x : Pfx)
  | mrst (x : Pfx) (a : RegNum)
  | mrq (x : Pfx) (a : RegNum) (q : BitVec 2) (sel : BitVec 3)
  -- Page 4: culverts, cisterns, flumes (R288, R294 to R312).
  | cpy (x : Pfx) (o : Ordering) (a b c : RegNum)
  | cpyw (x : Pfx) (a b : RegNum)
  | cpyq (x : Pfx) (a b : RegNum)
  | xgth (x : Pfx) (o : Ordering) (a b c : RegNum)
  | xred (x : Pfx) (o : Ordering) (a b c : RegNum)
  | xcvt (x : Pfx) (o : Ordering) (a b c : RegNum)
  | flume (x : Pfx) (a b : RegNum)
  | flumw (x : Pfx) (a b c : RegNum)
  -- Page 5: weirs, time, items (R221 to R281).
  | arrive (x : Pfx) (a b : RegNum)
  | waitb (x : Pfx) (b : RegNum)
  | barq (x : Pfx) (a b : RegNum)
  | gauge (x : Pfx) (a b : RegNum)
  | twait (x : Pfx) (a : RegNum)
  | tdead (x : Pfx) (a : RegNum) (sel : BitVec 4)
  | latq (x : Pfx) (a b : RegNum)
  | freeze (x : Pfx) (a b c : RegNum)
  | retire (x : Pfx)
  | retireValue (x : Pfx) (a : RegNum)
  | yield (x : Pfx)
  | launch (x : Pfx) (a b : RegNum)
  | signal (x : Pfx) (a b : RegNum)
  | waitc (x : Pfx) (a b : RegNum)
  | exq (x : Pfx) (a : RegNum) (sel : BitVec 4)
  -- Page 6: system and corpses (R145, R149, R226, R260, R375, R398, R412).
  | eret (x : Pfx)
  | wfi (x : Pfx)
  | halt (x : Pfx)
  | trinv (x : Pfx) (a b c : RegNum)
  | kill (x : Pfx) (a b : RegNum)
  | mount (x : Pfx) (a b c : RegNum)
  | clbl (x : Pfx) (a b c : RegNum)
  | crd (x : Pfx) (a b c : RegNum)
  | revive (x : Pfx) (a b c : RegNum)
  | umnt (x : Pfx) (b : RegNum)
  | jrnl (x : Pfx) (a b c : RegNum)
  | tsync (x : Pfx) (a b : RegNum)
  | ownr (x : Pfx) (a b c : RegNum)
  | smpc (x : Pfx) (a b c : RegNum)
  | dbgb (x : Pfx) (a b : RegNum)
  -- Page 7: the security core (R403).
  | keccak (x : Pfx) (a : RegNum)
  | aese (x : Pfx) (last : Bool) (a b : RegNum)
  | aesd (x : Pfx) (last : Bool) (a b : RegNum)
  | aesk (x : Pfx) (rc : BitVec 3) (a b : RegNum)
  | gfmul (x : Pfx) (a b c : RegNum)
  | clmul (x : Pfx) (a b c : RegNum)
  -- Steps of the cores' surroundings.
  | impreciseFaultTake (c : AgentId)
  | pageWalk (c : CoreId) (context : BitVec 8) (va : Addr)
  | homeAccessPerform (k : Nat)
  | scratchpadRmwSlot (die : BitVec 2) (cluster : BitVec 7) (slot : BitVec 4)
  | timedStoreArrival (k : Nat)
  | timedStoreApply (die : BitVec 2)
  | deadlineMissReport (k : Nat)
  | notBeforeLoadPerform (c : AgentId)
  | timedEngineStart (c : AgentId)
  | twaitExpiry (c : AgentId)
  | waitcSatisfied (c : AgentId)
  | cpywSatisfied (c : AgentId)
  | wfiWake (c : AgentId)
  | weirReleaseBroadcast (c : CoreId)
  | flumwReturn (c : CoreId)
  | itemStart (c : CoreId)
  -- Steps of culverts, cisterns and matrix units.
  | culvertBeat (u : CulvertId)
  | culvertCompletion (u : CulvertId)
  | culvertFault (u : CulvertId)
  | cisternPiece (stack : BitVec 4)
  | cisternCompletion (stack : BitVec 4)
  | mmaExecute (die : BitVec 2) (cluster : BitVec 7)
  | mzeroExecute (die : BitVec 2) (cluster : BitVec 7)
  | mdrainExecute (die : BitVec 2) (cluster : BitVec 7)
  | matrixTileError (c : CoreId)
  -- Host writes to BAR0 (R344).
  | qtail (f : BitVec 6) (v : Word)
  | chead (f : BitVec 6) (v : Word)
  | ehead (f : BitVec 6) (v : Word)
  | ringConfigurationWrite (f : BitVec 6) (offset : BitVec 12) (v : Word)
  | barRegisterWrite (f : BitVec 6) (offset : BitVec 12) (v : Word)
  -- Intake, scheduling and freezing.
  | intakeLaunch (q : BitVec 6)
  | intakeKill (q : BitVec 6)
  | intakeSignal (q : BitVec 6)
  | resync (q : BitVec 6)
  | intakeNop (q : BitVec 6)
  | internalQueueLaunch (context : BitVec 8)
  | headgateHandover (q : Nat)
  | taskPlacement (context : BitVec 8) (task : BitVec 32) (clusters : List (BitVec 2 × BitVec 7))
  | classRaise (context : BitVec 8) (task : BitVec 32)
  | preemption (context : BitVec 8) (task : BitVec 32)
  | taskResume (context : BitVec 8) (task : BitVec 32) (clusters : List (BitVec 2 × BitVec 7))
  | freezeInstant (corpse : BitVec 32)
  | dieLinkLoss (dieA dieB : BitVec 2)
  -- Fabric and host.
  | flitReceive (port : BitVec 4) (f : Flit)
  | portDown (port : BitVec 4)
  | portUp (port : BitVec 4) (r : PortReport)
  | peerUnreachable (device : BitVec 19)
  | hostCompletion (c : AgentId) (r : Completion)
  | hostCompletionTimeout (c : AgentId)
  | disciplineLoss (out : Bool)
  | throttleEnter (die : BitVec 2)
  | throttleLeave (die : BitVec 2)
  | coolantOutOfRange
  | feedWrite (v : BitVec 16)
  | powerCapWrite (watts : Nat)
  | sramSplitSet (die : BitVec 2) (mib : Nat)
  | moduleReset (images : List Image)
  | dieReset (die : BitVec 2)
  | functionReset (f : BitVec 6)
  | powerLoss
  | taggedSample (c : CoreId) (b : SampleBody)
  | monitorSample (die channel : BitVec 2) (cycle : Nat)
  -- SPDM and vendor commands (R394 to R397).
  | getVersion (f : BitVec 6)
  | getCapabilities (request : CapsRequest)
  | negotiateAlgorithms (offer : AlgOffer)
  | getCertificate (f : BitVec 6) (slot : BitVec 4) (offset length : Nat)
  | challenge (f : BitVec 6) (slot : BitVec 4) (nonce : BitVec 256)
  | getMeasurements (f : BitVec 6) (index : BitVec 8) (signed : Bool) (nonce : BitVec 256)
  | keyExchange (f : BitVec 6) (slot : BitVec 4) (exchange : BitVec 768) (guest : Bool)
  | finish (f : BitVec 6) (verify : BitVec 384)
  | endSession (request : SealedRequest)
  | spdmUnsupportedRequest (f : BitVec 6) (code : BitVec 8)
  | doeAbort (f : BitVec 6)
  | rekeyQueue (s : Session) (q : BitVec 6) (key : BitVec 256)
  | bindChannel (s : Session) (channel : BitVec 10) (context : BitVec 8) (key : BitVec 256) (n : Word)
  | grantCorpse (s : Session) (corpse : BitVec 32) (context : BitVec 8) (add : Bool)
  | discardCorpse (s : Session) (corpse : BitVec 32)
  | setQuota (s : Session) (context : BitVec 8) (bytes : Nat)
  | extend (s : Session) (block : BitVec 4) (digest : BitVec 384)
  | migrate (s : Session) (context : BitVec 8) (device : BitVec 19)
  | assign (s : Session) (target : Word) (owner : BitVec 8)
  | migrationInstall (source : BitVec 19) (context : BitVec 8) (sealedState : List Byte)
  | migrationReceipt (context : BitVec 8) (signature : List Byte)
  | migrationConfirm (context : BitVec 8) (c : Confirmation)
  | contextCreate (context : BitVec 8) (f : BitVec 6) (root : BitVec 44) (area : Addr) (areaPa : BitVec 44)
      (trace : Addr) (tracePa : BitVec 44) (traceLog : Nat)
  | contextDestroy (context : BitVec 8)
  -- Time, link and power conditions.
  | timingPortMessage (fabricTime : Tick)
  | packageTimeStep (delta : BitVec 64)
  | pcieLinkTraining (flit : Bool)
  | busMasteringChange (f : BitVec 6) (enabled : Bool)
  | vfEnableChange (enabled : Nat)
  | tdiStateChange (f : BitVec 6) (t : TdiState)
  | intakeBadOpcode (q : BitVec 6)
  | dieFailure (die : BitVec 2) (failed stopsCount : Bool)
  deriving DecidableEq, Repr

end Sys2Proof
end

