-- ==== Sys2Proof/WellFormed.lean ====
section
/-! DEFINITION. Which instructions the encoding can hold: one check per encoding form. -/

namespace Sys2Proof

/-- A register number that needs no PFX.R (R29). -/
def RegNum.low (a : RegNum) : Bool := a.toNat < 16

/-- A sign-extended immediate of `bits` bits (R30, R31). -/
def immFits (bits : Nat) (imm : Word) : Bool := (imm.setWidth bits).signExtend 64 == imm

/-- Width of an I6 immediate with the prefixes of `x` (R30). -/
def Pfx.i6 (x : Pfx) : Nat := 6 + 10 * x.nx.toNat
/-- Width of an I2 immediate (R31). -/
def Pfx.i2 (x : Pfx) : Nat := 2 + 10 * x.nx.toNat
/-- Width of a size-M offset (R31). -/
def Pfx.i0 (x : Pfx) : Nat := 10 * x.nx.toNat

/-- The chain has at most four prefixes, a page other than 0 has its PFX.P, and the predicate is one that
R26 and R36 allow. -/
def Pfx.ok (page : BitVec 3) (x : Pfx) : Bool :=
  x.nx.toNat + x.r.toNat + x.p.toNat + x.m.toNat ≤ 4 && (x.p || (page == 0 && x.pred == 0 && !x.neg && !x.zero))
    && !(x.pred == 0 && x.neg)

/-- A scalar instruction without PFX.X and PFX.M (R35). -/
def Pfx.plain (page : BitVec 3) (x : Pfx) : Bool := x.ok page && x.nx == 0 && !x.m && !x.zero
/-- A vector instruction without PFX.X and PFX.M. -/
def Pfx.vec (page : BitVec 3) (x : Pfx) : Bool := x.ok page && x.nx == 0 && !x.m

/-- PFX.M fields of an instruction that carries none (R27). -/
def Ordering.none : Ordering := ⟨0, 0, false, 0⟩

/-- The rows of R37. -/
inductive OrdGroup where
  | load | store | atomic | fence | matrix | engine
  deriving DecidableEq, Repr

/-- R37: which fields of PFX.M a group accepts; TIMED needs PFX.R (R27). -/
def Ordering.ok (g : OrdGroup) (x : Pfx) (o : Ordering) : Bool :=
  if x.m then
    match g with
    | .load => o.ord != 2 && o.scope.toNat ≤ 5 && (o.ord != 0 || o.scope == 0) && !o.timed
    | .store => o.ord != 1 && o.scope.toNat ≤ 5 && (o.ord != 0 || o.scope == 0) && !o.timed
    | .atomic => o.scope.toNat ≤ 5 && !o.timed
    | .fence => o.scope.toNat ≤ 5 && !o.timed && o.hint == 0
    | .matrix => o.ord == 0 && o.scope == 0 && o.hint == 0 && (!o.timed || x.r)
    | .engine => o.ord == 0 && o.scope == 0 && (!o.timed || x.r)
  else o == .none

/-- Width in bits of an integer type (R33). -/
def ITy.width : ITy → Nat
  | .s32 | .z32 => 32
  | .s16 | .z16 => 16
  | .s8 | .z8 => 8
  | .s64 | .z64 => 64

/-- Width in bits of a floating type (R150). -/
def FTy.width : FTy → Nat
  | .f64 => 64
  | .f32 => 32
  | .bf16 | .f16 => 16
  | .e4m3 | .e5m2 => 8

/-- Width in bits of an element type. -/
def ETy.width : ETy → Nat
  | .fp t => t.width
  | .int t => t.width

/-- The page 2 element types (R34): f64 is scalar only. -/
def ETy.vec : ETy → Bool
  | .fp t => t != .f64
  | .int _ => true

/-- Types of the scalar arithmetic (R34). -/
def FTy.arith (t : FTy) : Bool := t != .e4m3 && t != .e5m2

/-- Without PFX.R both numbers are low and C is A (R29). -/
def regs3 (x : Pfx) (a b c : RegNum) : Bool := x.r || (a.low && b.low && c == a)
/-- Without PFX.R both numbers are low; the form has no C. -/
def regs2 (x : Pfx) (a b : RegNum) : Bool := x.r || (a.low && b.low)

def wfRR (pg : BitVec 3) (x : Pfx) (a b c : RegNum) : Bool := x.plain pg && regs3 x a b c
def wfUN (pg : BitVec 3) (x : Pfx) (a b : RegNum) : Bool := x.plain pg && regs2 x a b
def wfA (pg : BitVec 3) (x : Pfx) (a : RegNum) : Bool := x.plain pg && (x.r || a.low)
def wfNone (pg : BitVec 3) (x : Pfx) : Bool := x.plain pg && !x.r
/-- R145, R246: a PFX.R with zeros is accepted. -/
def wfBare (pg : BitVec 3) (x : Pfx) : Bool := x.plain pg
def wfRI (pg : BitVec 3) (x : Pfx) (a c : RegNum) (imm : Word) : Bool :=
  x.ok pg && !x.m && !x.zero && (x.r || (a.low && c == a)) && immFits x.i6 imm
def wfShift (x : Pfx) (a c : RegNum) (imm : Word) : Bool := wfRI 0 x a c imm && imm.toNat < 64
def wfLI (pg : BitVec 3) (x : Pfx) (a : RegNum) (imm : Word) : Bool :=
  x.ok pg && !x.m && !x.zero && (x.r || a.low) && immFits x.i6 imm
def wfBI (x : Pfx) (off : Word) : Bool := x.ok 0 && !x.m && !x.r && !x.zero && immFits x.i6 off
def wfBC (x : Pfx) (a b : RegNum) (off : Word) : Bool :=
  x.ok 0 && !x.m && !x.zero && regs2 x a b && immFits x.i2 off
def wfMS (g : OrdGroup) (x : Pfx) (o : Ordering) (a b : RegNum) (off : Word) : Bool :=
  x.ok 0 && !x.zero && regs2 x a b && immFits x.i0 off && o.ok g x
def wfMK (g : OrdGroup) (x : Pfx) (o : Ordering) (a b : RegNum) (off : Word) : Bool :=
  x.ok 0 && !x.zero && regs2 x a b && immFits x.i2 off && o.ok g x
def wfMX (g : OrdGroup) (x : Pfx) (o : Ordering) (a b c : RegNum) (off : Word) : Bool :=
  x.ok 0 && !x.zero && regs3 x a b c && immFits x.i0 off && o.ok g x
def wfMT (g : OrdGroup) (x : Pfx) (o : Ordering) (size : BitVec 3) (a b c : RegNum) (off : Word) : Bool :=
  x.ok 0 && !x.zero && regs3 x a b c && size.toNat ≤ 4 && (x.r || size == 0) && immFits x.i2 off && o.ok g x
def wfPP (x : Pfx) (f l : RegNum) : Bool :=
  x.plain 0 && regs2 x f l && f.toNat ≤ l.toNat && !(f.toNat ≤ 29 && 29 ≤ l.toNat)
def wfFR (x : Pfx) (t : FTy) (a b c : RegNum) : Bool :=
  x.plain 1 && regs3 x a b c && t.arith && (x.r || t == .f32)
def wfFU (x : Pfx) (t : FTy) (a b : RegNum) : Bool := x.plain 1 && regs2 x a b && t.arith && (x.r || t == .f32)
def wfCV (x : Pfx) : Bool := x.plain 1 && x.r
def wfSel (n : Nat) (pg : BitVec 3) (x : Pfx) (a : RegNum) (sel : BitVec 4) : Bool :=
  wfA pg x a && sel.toNat < n
/-- TY is 0b000 without PFX.R, so the type is f32, or s32 in the integer class (R29, R33). -/
def tyNoR (x : Pfx) (t : ETy) : Bool := x.r || t == .fp .f32 || t == .int .s32
def wfVV (x : Pfx) (t : ETy) (a b c : RegNum) : Bool := x.vec 2 && regs3 x a b c && t.vec && tyNoR x t
def wfVU (x : Pfx) (t : ETy) (a b : RegNum) : Bool := x.vec 2 && regs2 x a b && t.vec && tyNoR x t
def wfVC (x : Pfx) (t : ETy) (a : PredNum) (b c : RegNum) : Bool :=
  x.vec 2 && (x.r || (b.low && c == a.setWidth 5)) && t.vec && tyNoR x t
def wfVCVT (x : Pfx) (dst src : ETy) (rtz : Bool) : Bool :=
  x.vec 2 && x.r && dst.vec && src.vec &&
    (!rtz || match dst, src with | .int _, .fp _ => true | _, _ => false)
def wfVSATN (x : Pfx) (dst src : ETy) : Bool :=
  x.vec 2 && x.r && dst.vec && dst.width < src.width &&
    match dst, src with
    | .int _, .int _ => true
    | .fp _, .fp s => s == .f32 || s == .bf16 || s == .f16
    | _, _ => false
def wfVDOT4 (x : Pfx) (t : ETy) (a b c : RegNum) : Bool :=
  x.vec 2 && x.r && regs3 x a b c && (t == .fp .e4m3 || t == .fp .e5m2 || t == .int .s8 || t == .int .z8)
def wfVI (x : Pfx) (t : ITy) (a c : RegNum) (imm : Word) : Bool :=
  x.ok 2 && !x.m && (x.r || (a.low && c == a && t == .s32)) && immFits x.i6 imm
def wfPL (x : Pfx) (a c : PredNum) : Bool := x.vec 2 && (x.r || c == a)
def wfVM (g : OrdGroup) (x : Pfx) (o : Ordering) (w : ITy) (a b : RegNum) (off : Word) : Bool :=
  x.ok 3 && regs2 x a b && (x.r || w == .s32) && immFits x.i2 off && o.ok g x && (g == .load || !x.zero)
def wfVMC (g : OrdGroup) (x : Pfx) (o : Ordering) (w : ITy) (a b c : RegNum) (off : Word) : Bool :=
  wfVM g x o w a b off && regs3 x a b c
def wfVXC (g : OrdGroup) (x : Pfx) (o : Ordering) (w : ITy) (a b c : RegNum) : Bool :=
  x.nx == 0 && wfVMC g x o w a b c 0
def wfPV (x : Pfx) (w : ITy) (a b c : RegNum) : Bool := x.vec 3 && regs3 x a b c && (x.r || w == .s32)
def wfCE (x : Pfx) (w : ITy) (a b : RegNum) : Bool := x.vec 3 && regs2 x a b && (x.r || w == .s32)
def wfQF (x : Pfx) (m : BitVec 4) : Bool := x.vec 3 && x.r && 2 ≤ m.toNat && m.toNat ≤ 8
def wfVSPRS (x : Pfx) (w : ITy) (a b : RegNum) (c : PredNum) : Bool :=
  x.plain 3 && (x.r || (a.low && b.low && w == .s32 && c.setWidth 5 == a)) && w.width != 64
/-- MMA, MMAS and the engine commands: C names a register only when the command is timed. -/
def wfTimed (g : OrdGroup) (x : Pfx) (o : Ordering) (c : RegNum) : Bool :=
  x.ok 4 && x.nx == 0 && !x.zero && o.ok g x && (o.timed || c == 0)
def wfMMA (x : Pfx) (o : Ordering) (fa fb : Bool) (c : RegNum) : Bool :=
  wfTimed .matrix x o c && (x.r || (!fa && !fb))
def wfCPY (x : Pfx) (o : Ordering) (a b c : RegNum) : Bool := wfTimed .engine x o c && regs2 x a b
/-- A form that requires PFX.R (R38). -/
def wfRR' (pg : BitVec 3) (x : Pfx) : Bool := x.plain pg && x.r

/-- The instructions that an encoding exists for. A step that no word encodes is none of them. -/
def Instr.WellFormed : Instr → Bool
  | .add x a b c => wfRR 0 x a b c
  | .sub x a b c => wfRR 0 x a b c
  | .and x a b c => wfRR 0 x a b c
  | .or x a b c => wfRR 0 x a b c
  | .xor x a b c => wfRR 0 x a b c
  | .shl x a b c => wfRR 0 x a b c
  | .shr x a b c => wfRR 0 x a b c
  | .sar x a b c => wfRR 0 x a b c
  | .min x a b c => wfRR 0 x a b c
  | .max x a b c => wfRR 0 x a b c
  | .minz x a b c => wfRR 0 x a b c
  | .maxz x a b c => wfRR 0 x a b c
  | .slt x a b c => wfRR 0 x a b c
  | .sltz x a b c => wfRR 0 x a b c
  | .seq x a b c => wfRR 0 x a b c
  | .mov x a b => wfUN 0 x a b
  | .addi x a c imm => wfRI 0 x a c imm
  | .andi x a c imm => wfRI 0 x a c imm
  | .ori x a c imm => wfRI 0 x a c imm
  | .xori x a c imm => wfRI 0 x a c imm
  | .shli x a c imm => wfShift x a c imm
  | .shri x a c imm => wfShift x a c imm
  | .sari x a c imm => wfShift x a c imm
  | .slti x a c imm => wfRI 0 x a c imm
  | .li x a imm => wfLI 0 x a imm
  | .lea x a b off => wfBC x a b off
  | .br x off => wfBI x off
  | .call x off => wfBI x off
  | .beq x a b off => wfBC x a b off
  | .bne x a b off => wfBC x a b off
  | .blt x a b off => wfBC x a b off
  | .bge x a b off => wfBC x a b off
  | .blo x a b off => wfBC x a b off
  | .bhs x a b off => wfBC x a b off
  | .callr x a => wfA 0 x a
  | .jmpr x a => wfA 0 x a
  | .loop x a imm => wfLI 0 x a imm
  | .ld x o _ a b off => wfMS .load x o a b off
  | .ldz x o _ a b off => wfMS .load x o a b off
  | .st x o _ a b off => wfMS .store x o a b off
  | .ldk x o a b off => wfMK .load x o a b off
  | .stk x o a b off => wfMK .store x o a b off
  | .ldx x o _ a b c off => wfMX .load x o a b c off
  | .stx x o _ a b c off => wfMX .store x o a b c off
  | .aadd x o _ a b c off => wfMX .atomic x o a b c off
  | .aand x o _ a b c off => wfMX .atomic x o a b c off
  | .aor x o _ a b c off => wfMX .atomic x o a b c off
  | .axor x o _ a b c off => wfMX .atomic x o a b c off
  | .amin x o _ a b c off => wfMX .atomic x o a b c off
  | .amax x o _ a b c off => wfMX .atomic x o a b c off
  | .aswp x o _ a b c off => wfMX .atomic x o a b c off
  | .acas x o _ a b c off => wfMX .atomic x o a b c off
  | .stat x o size a b c off => wfMT .store x o size a b c off
  | .ldnb x o size a b c off => wfMT .load x o size a b c off
  | .pushs x f l => wfPP x f l
  | .pops x f l => wfPP x f l
  | .trap x _ => wfNone 0 x
  | .rdid x a k => wfSel 14 0 x a k
  | .tnow x a => wfA 0 x a
  | .fence x o => x.ok 0 && x.nx == 0 && !x.r && !x.zero && x.m && o.ok .fence x
  | .fenceI x => x.ok 0 && x.nx == 0 && !x.r && !x.zero && !x.m
  | .mul x a b c => wfRR 1 x a b c
  | .mulh x a b c => wfRR 1 x a b c
  | .mulhz x a b c => wfRR 1 x a b c
  | .div x a b c => wfRR 1 x a b c
  | .divz x a b c => wfRR 1 x a b c
  | .rem x a b c => wfRR 1 x a b c
  | .remz x a b c => wfRR 1 x a b c
  | .clz x a b => wfUN 1 x a b
  | .ctz x a b => wfUN 1 x a b
  | .popc x a b => wfUN 1 x a b
  | .brev x a b => wfUN 1 x a b
  | .bswp x a b => wfUN 1 x a b
  | .bext x a b c => wfRR 1 x a b c
  | .bins x a b c => wfRR 1 x a b c
  | .rotl x a b c => wfRR 1 x a b c
  | .rotr x a b c => wfRR 1 x a b c
  | .sel x a b c => wfRR 1 x a b c
  | .kinc x a b c => wfRR 1 x a b c
  | .kinci x a c imm => wfRI 1 x a c imm
  | .kbnd x a b c => wfRR 1 x a b c
  | .kprm x a b c => wfRR 1 x a b c
  | .kcol x a b c => wfRR 1 x a b c
  | .kget x a c k => wfRR 1 x a 0 c && k.toNat < 9
  | .ktst x a b c => wfRR 1 x a b c
  | .kseal x a b => wfUN 1 x a b
  | .kuns x a b c => wfRR 1 x a b c
  | .kclr x a b => wfUN 1 x a b
  | .kcur x a b c => wfRR 1 x a b c
  | .stg x a b => wfUN 1 x a b
  | .ldg x a b => wfUN 1 x a b
  | .fadd x t a b c => wfFR x t a b c
  | .fsub x t a b c => wfFR x t a b c
  | .fmul x t a b c => wfFR x t a b c
  | .ffma x t a b c => wfFR x t a b c
  | .fdiv x t a b c => wfFR x t a b c
  | .fsqrt x t a b => wfFU x t a b
  | .fmin x t a b c => wfFR x t a b c
  | .fmax x t a b c => wfFR x t a b c
  | .feq x t a b c => wfFR x t a b c
  | .flt x t a b c => wfFR x t a b c
  | .fle x t a b c => wfFR x t a b c
  | .fcvti x _ _ _ _ _ => wfCV x
  | .fcvtf x _ _ _ _ => wfCV x
  | .fcvtw x _ _ _ _ => wfCV x
  | .csrr x a csr => wfLI 1 x a csr
  | .csrw x a c csr => wfRI 1 x a c csr
  | .csrs x a c csr => wfRI 1 x a c csr
  | .csrc x a c csr => wfRI 1 x a c csr
  | .srnd x a b c => wfRR 1 x a b c
  | .vadd x t a b c => wfVV x t a b c
  | .vsub x t a b c => wfVV x t a b c
  | .vmul x t a b c => wfVV x t a b c
  | .vfma x t a b c => wfVV x t a b c
  | .vfms x t a b c => wfVV x t a b c
  | .vfnma x t a b c => wfVV x t a b c
  | .vmin x t a b c => wfVV x t a b c
  | .vmax x t a b c => wfVV x t a b c
  | .vabs x t a b => wfVU x t a b
  | .vneg x t a b => wfVU x t a b
  | .vdiv x t a b c => wfVV x (.fp t) a b c
  | .vsqrt x t a b => wfVU x (.fp t) a b
  | .vrcp x t a b => wfVU x (.fp t) a b
  | .vrsq x t a b => wfVU x (.fp t) a b
  | .vexp2 x t a b => wfVU x (.fp t) a b
  | .vlog2 x t a b => wfVU x (.fp t) a b
  | .vand x t a b c => wfVV x (.int t) a b c
  | .vor x t a b c => wfVV x (.int t) a b c
  | .vxor x t a b c => wfVV x (.int t) a b c
  | .vnot x t a b => wfVU x (.int t) a b
  | .vshl x t a b c => wfVV x (.int t) a b c
  | .vshr x t a b c => wfVV x (.int t) a b c
  | .vsar x t a b c => wfVV x (.int t) a b c
  | .vceq x t a b c => wfVC x t a b c
  | .vclt x t a b c => wfVC x t a b c
  | .vcle x t a b c => wfVC x t a b c
  | .vsel x t a b c => wfVV x t a b c && !x.zero
  | .vcvt x dst src rtz _ _ => wfVCVT x dst src rtz
  | .vsatn x dst src _ _ => wfVSATN x dst src
  | .vmov x t a b => wfVU x t a b
  | .vbc x t a b => wfVU x t a b
  | .vrand x _ _ _ => x.vec 2 && x.r
  | .vradd x t a b => wfVU x t a b && !x.zero
  | .vrmin x t a b => wfVU x t a b && !x.zero
  | .vrmax x t a b => wfVU x t a b && !x.zero
  | .vscan x t a b => wfVU x t a b
  | .vaddi x t a c imm => wfVI x t a c imm
  | .vmuli x t a c imm => wfVI x t a c imm
  | .vdot4 x t a b c => wfVDOT4 x t a b c
  | .pand x a _ c => wfPL x a c
  | .por x a _ c => wfPL x a c
  | .pxor x a _ c => wfPL x a c
  | .pnot x _ _ => x.vec 2
  | .pset x t _ b => x.vec 2 && (x.r || b.low) && t.vec && tyNoR x t
  | .pcnt x t a _ => x.plain 2 && (x.r || a.low) && t.vec && tyNoR x t
  | .pfst x t a _ => x.plain 2 && (x.r || a.low) && t.vec && tyNoR x t
  | .pmov x _ _ => x.vec 2
  | .vld x o w a b off => wfVM .load x o w a b off
  | .vst x o w a b off => wfVM .store x o w a b off
  | .vlds x o w a b c off => wfVMC .load x o w a b c off
  | .vsts x o w a b c off => wfVMC .store x o w a b c off
  | .vgth x o w a b c => wfVXC .load x o w a b c
  | .vsct x o w a b c => wfVXC .store x o w a b c
  | .vldx x o w a b c => wfVXC .load x o w a b c
  | .vstx x o w a b c => wfVXC .store x o w a b c
  | .vstat x o w a b c off => wfVMC .store x o w a b c off
  | .vldnb x o w a b c off => wfVMC .load x o w a b c off
  | .vperm x w a b c => wfPV x w a b c
  | .vzip x w a b c => wfPV x w a b c
  | .vuzp x w a b c => wfPV x w a b c
  | .vrot x w a b c => wfPV x w a b c
  | .vslid x w a b c => wfPV x w a b c
  | .vext x w a b c => wfPV x w a b c && !x.zero
  | .vins x w a b c => wfPV x w a b c && !x.zero
  | .vcmpr x w a b => wfCE x w a b
  | .vexpn x w a b => wfCE x w a b
  | .vtrn x w a b c => wfPV x w a b c
  | .vqnt x _ m _ _ => wfQF x m && !x.zero
  | .vdeq x _ m _ _ => wfQF x m
  | .vsprs x w a b c => wfVSPRS x w a b c
  | .mfmt x a => wfA 4 x a
  | .mring x _ _ _ => wfRR' 4 x
  | .mprod x _ a => wfA 4 x a
  | .mma x o _ _ _ _ _ ta tb c => wfMMA x o ta tb c
  | .mmas x o _ _ _ _ ka kb c => wfMMA x o ka kb c
  | .mzero x _ => wfNone 4 x
  | .mdrain x fmt a _ => wfA 4 x a && (x.r || fmt.toNat < 4) && fmt.toNat < 5
  | .mflag x a _ _ => wfA 4 x a
  | .mwait x => wfNone 4 x
  | .mrst x a => wfA 4 x a
  | .mrq x a _ k => wfA 4 x a && (x.r || k.toNat < 4)
  | .cpy x o a b c => wfCPY x o a b c
  | .cpyw x a b => wfUN 4 x a b
  | .cpyq x a b => wfUN 4 x a b
  | .xgth x o a b c => wfCPY x o a b c
  | .xred x o a b c => wfCPY x o a b c
  | .xcvt x o a b c => wfCPY x o a b c
  | .flume x a b => wfUN 4 x a b
  | .flumw x _ _ _ => x.vec 4 && x.r
  | .arrive x a b => wfUN 5 x a b
  | .waitb x b => wfA 5 x b
  | .barq x a b => wfUN 5 x a b
  | .gauge x a b => wfUN 5 x a b
  | .twait x a => wfA 5 x a
  | .tdead x a k => wfA 5 x a && k.toNat % 8 < 6
  | .latq x a b => wfUN 5 x a b
  | .freeze x a b c => wfRR 5 x a b c
  | .retire x => wfBare 5 x
  | .retireValue x a => wfA 5 x a
  | .yield x => wfBare 5 x
  | .launch x a b => wfUN 5 x a b
  | .signal x a b => wfUN 5 x a b
  | .waitc x a b => wfUN 5 x a b
  | .exq x a k => wfSel 12 5 x a k
  | .eret x => wfBare 6 x
  | .wfi x => wfBare 6 x
  | .halt x => wfBare 6 x
  | .trinv x _ _ _ => wfRR' 6 x
  | .kill x a b => wfUN 6 x a b
  | .mount x a b c => wfRR 6 x a b c
  | .clbl x a b c => wfRR 6 x a b c
  | .crd x a b c => wfRR 6 x a b c
  | .revive x a b c => wfRR 6 x a b c
  | .umnt x b => wfA 6 x b
  | .jrnl x _ _ _ => wfRR' 6 x
  | .tsync x a b => wfUN 6 x a b
  | .ownr x _ _ _ => wfRR' 6 x
  | .smpc x _ _ _ => wfRR' 6 x
  | .dbgb x a b => wfUN 6 x a b
  | .keccak x a => wfA 7 x a
  | .aese x _ _ _ => wfRR' 7 x
  | .aesd x _ _ _ => wfRR' 7 x
  | .aesk x rc _ _ => wfRR' 7 x && rc != 0
  | .gfmul x a b c => wfRR 7 x a b c
  | .clmul x a b c => wfRR 7 x a b c
  | .impreciseFaultTake _ => false
  | .pageWalk _ _ _ => false
  | .homeAccessPerform _ => false
  | .scratchpadRmwSlot _ _ _ => false
  | .timedStoreArrival _ => false
  | .timedStoreApply _ => false
  | .deadlineMissReport _ => false
  | .notBeforeLoadPerform _ => false
  | .timedEngineStart _ => false
  | .twaitExpiry _ => false
  | .waitcSatisfied _ => false
  | .cpywSatisfied _ => false
  | .wfiWake _ => false
  | .weirReleaseBroadcast _ => false
  | .flumwReturn _ => false
  | .itemStart _ => false
  | .culvertBeat _ => false
  | .culvertCompletion _ => false
  | .culvertFault _ => false
  | .cisternPiece _ => false
  | .cisternCompletion _ => false
  | .mmaExecute _ _ => false
  | .mzeroExecute _ _ => false
  | .mdrainExecute _ _ => false
  | .matrixTileError _ => false
  | .qtail _ _ => false
  | .chead _ _ => false
  | .ehead _ _ => false
  | .ringConfigurationWrite _ _ _ => false
  | .barRegisterWrite _ _ _ => false
  | .intakeLaunch _ => false
  | .intakeKill _ => false
  | .intakeSignal _ => false
  | .resync _ => false
  | .intakeNop _ => false
  | .internalQueueLaunch _ => false
  | .headgateHandover _ => false
  | .taskPlacement _ _ _ => false
  | .classRaise _ _ => false
  | .preemption _ _ => false
  | .taskResume _ _ _ => false
  | .freezeInstant _ => false
  | .dieLinkLoss _ _ => false
  | .flitReceive _ _ => false
  | .portDown _ => false
  | .portUp _ _ => false
  | .peerUnreachable _ => false
  | .hostCompletion _ _ => false
  | .hostCompletionTimeout _ => false
  | .disciplineLoss _ => false
  | .throttleEnter _ => false
  | .throttleLeave _ => false
  | .coolantOutOfRange => false
  | .feedWrite _ => false
  | .powerCapWrite _ => false
  | .sramSplitSet _ _ => false
  | .moduleReset _ => false
  | .dieReset _ => false
  | .functionReset _ => false
  | .powerLoss => false
  | .taggedSample _ _ => false
  | .monitorSample _ _ _ => false
  | .getVersion _ => false
  | .getCapabilities _ => false
  | .negotiateAlgorithms _ => false
  | .getCertificate _ _ _ _ => false
  | .challenge _ _ _ => false
  | .getMeasurements _ _ _ _ => false
  | .keyExchange _ _ _ _ => false
  | .finish _ _ => false
  | .endSession _ => false
  | .spdmUnsupportedRequest _ _ => false
  | .doeAbort _ => false
  | .rekeyQueue _ _ _ => false
  | .bindChannel _ _ _ _ _ => false
  | .grantCorpse _ _ _ _ => false
  | .discardCorpse _ _ => false
  | .setQuota _ _ _ => false
  | .extend _ _ _ => false
  | .migrate _ _ _ => false
  | .assign _ _ _ => false
  | .migrationInstall _ _ _ => false
  | .migrationReceipt _ _ => false
  | .migrationConfirm _ _ => false
  | .contextCreate _ _ _ _ _ _ _ _ => false
  | .contextDestroy _ => false
  | .timingPortMessage _ => false
  | .packageTimeStep _ => false
  | .pcieLinkTraining _ => false
  | .busMasteringChange _ _ => false
  | .vfEnableChange _ => false
  | .tdiStateChange _ _ => false
  | .intakeBadOpcode _ => false
  | .dieFailure _ _ _ => false

end Sys2Proof
end

