-- ==== Sys2Proof/Decode.lean ====
section
/-! DEFINITION. The decoder, total on any parcels, and the encoder (R21 to R48, R75, R99, R168, R191, R315). -/

namespace Sys2Proof

/-- Why a chain of parcels is no instruction: PFXC (R28), or ILL with the rule that it breaks (R38). -/
inductive DecErr where
  /-- R28: a fifth prefix, or PFX.R, PFX.P or PFX.M twice. -/
  | pfxc
  /-- R39: the OP is unassigned on its page. -/
  | unassigned
  /-- R75, R99, R168, R191: a prefix that the form does not accept, or that it lacks. -/
  | prefixRefused
  /-- R38: a field that the form does not use is not zero, or a value it does not accept. -/
  | fieldRefused
  /-- R34: a TY or CLS outside the instruction's row. -/
  | typeRefused
  /-- R26, R36: PM above 0b01, PM 0b01 where the form refuses it, or PRED 0 with NEG 1. -/
  | predicateRefused
  /-- R27, R37: a field of PFX.M outside the group's row. -/
  | orderingRefused
  /-- The parcels end before a base parcel. -/
  | short
  deriving DecidableEq, Repr

/-- The fields of one instruction, gathered from its parcels (R23 to R27). -/
structure Raw where
  op    : BitVec 6
  a     : BitVec 4
  b     : BitVec 4
  m     : BitVec 2
  nx    : BitVec 3
  xs    : BitVec 40
  r     : Bool
  a4    : Bool
  b4    : Bool
  c     : BitVec 5
  ty    : BitVec 3
  p     : Bool
  page  : BitVec 3
  pred  : BitVec 4
  neg   : Bool
  pm    : BitVec 2
  mm    : Bool
  ord   : BitVec 2
  scope : BitVec 3
  timed : Bool
  hint  : BitVec 2
  res   : BitVec 2
  deriving DecidableEq, Repr

def Raw.empty : Raw :=
  ⟨0, 0, 0, 0, 0, 0, false, false, false, 0, 0, false, 0, 0, false, 0, false, 0, 0, false, 0, 0⟩

/-- OP of a parcel (R23). -/
def Parcel.op (q : Parcel) : BitVec 6 := q.extractLsb' 10 6
/-- R22: a parcel whose OP is 0x3C to 0x3F is a prefix. -/
def Parcel.isPrefix (q : Parcel) : Bool := 0x3C ≤ q.op.toNat

/-- A prefix parcel joins the chain (R24 to R28). -/
def Raw.push (w : Raw) (q : Parcel) : Except DecErr Raw :=
  if q.op == 0x3C then .ok { w with nx := w.nx + 1, xs := (w.xs <<< 10) ||| (q.extractLsb' 0 10).setWidth 40 }
  else if q.op == 0x3D then
    if w.r then .error .pfxc
    else .ok { w with r := true, a4 := q.getLsbD 9, b4 := q.getLsbD 8, c := q.extractLsb' 3 5, ty := q.extractLsb' 0 3 }
  else if q.op == 0x3E then
    if w.p then .error .pfxc
    else .ok { w with p := true, page := q.extractLsb' 7 3, pred := q.extractLsb' 3 4, neg := q.getLsbD 2,
                      pm := q.extractLsb' 0 2 }
  else
    if w.mm then .error .pfxc
    else .ok { w with mm := true, ord := q.extractLsb' 8 2, scope := q.extractLsb' 5 3, timed := q.getLsbD 4,
                      hint := q.extractLsb' 2 2, res := q.extractLsb' 0 2 }

/-- The base parcel closes the chain (R23). -/
def Raw.close (w : Raw) (q : Parcel) : Raw :=
  { w with op := q.op, a := q.extractLsb' 6 4, b := q.extractLsb' 2 4, m := q.extractLsb' 0 2 }

/-- R22, R28: up to `fuel` prefixes, then the base parcel. -/
def scan : Nat → Raw → List Parcel → Except DecErr Raw
  | _, _, [] => .error .short
  | 0, w, q :: _ => if q.isPrefix then .error .pfxc else .ok (w.close q)
  | fuel + 1, w, q :: qs =>
    if q.isPrefix then
      match w.push q with
      | .ok w' => scan fuel w' qs
      | .error e => .error e
    else .ok (w.close q)

namespace Raw

/-- Register operand A, A4 ++ A (R29). -/
def ra5 (w : Raw) : RegNum := (BitVec.ofBool w.a4) ++ w.a
/-- Register operand B. -/
def rb5 (w : Raw) : RegNum := (BitVec.ofBool w.b4) ++ w.b
/-- Register operand C: A's number without PFX.R (R29). -/
def rc5 (w : Raw) : RegNum := if w.r then w.c else w.ra5
/-- What the prefixes give apart from operands. -/
def pfx (w : Raw) : Pfx := ⟨w.nx, w.r, w.p, w.mm, w.pred, w.neg, w.pm == 1⟩
/-- Fields of PFX.M. -/
def ordering (w : Raw) : Ordering := ⟨w.ord, w.scope, w.timed, w.hint⟩
/-- I6 immediate (R30). -/
def immI6 (w : Raw) : Word :=
  (((w.xs ++ w.b ++ w.m : BitVec 46)).setWidth (6 + 10 * w.nx.toNat)).signExtend 64
/-- I2 immediate (R31). -/
def immI2 (w : Raw) : Word := (((w.xs ++ w.m : BitVec 42)).setWidth (2 + 10 * w.nx.toNat)).signExtend 64
/-- Size-M offset (R31). -/
def immI0 (w : Raw) : Word := ((w.xs.setWidth (10 * w.nx.toNat))).signExtend 64

/-- The decoded instruction when the check holds, else ILL for the reason given. -/
def need (ok : Bool) (e : DecErr) (k : Except DecErr Instr) : Except DecErr Instr := if ok then k else .error e

/-- R35, R36: a form that accepts only PM 0b00, and never PRED 0 with NEG 1. -/
def scalar (w : Raw) (k : Except DecErr Instr) : Except DecErr Instr :=
  need (w.pm == 0 && !(w.pred == 0 && w.neg)) .predicateRefused k
/-- R26, R36: a form that accepts PM 0b00 and 0b01. -/
def vec (w : Raw) (k : Except DecErr Instr) : Except DecErr Instr :=
  need ((w.pm == 0 || w.pm == 1) && !(w.pred == 0 && w.neg)) .predicateRefused k
/-- No PFX.X. -/
def noX (w : Raw) (k : Except DecErr Instr) : Except DecErr Instr := need (w.nx == 0) .prefixRefused k
/-- No PFX.M. -/
def noM (w : Raw) (k : Except DecErr Instr) : Except DecErr Instr := need (!w.mm) .prefixRefused k
/-- No PFX.R. -/
def noR (w : Raw) (k : Except DecErr Instr) : Except DecErr Instr := need (!w.r) .prefixRefused k
/-- PFX.R present. -/
def withR (w : Raw) (k : Except DecErr Instr) : Except DecErr Instr := need w.r .prefixRefused k
/-- TY is 0b000 (R34). -/
def noTy (w : Raw) (k : Except DecErr Instr) : Except DecErr Instr := need (w.ty == 0) .typeRefused k
/-- M is 0b00 (R32). -/
def noMf (w : Raw) (k : Except DecErr Instr) : Except DecErr Instr := need (w.m == 0) .fieldRefused k
/-- The C field is not used (R29). -/
def noC (w : Raw) (k : Except DecErr Instr) : Except DecErr Instr := need (w.c == 0) .fieldRefused k
/-- The B operand, with B4, is not used. -/
def noB (w : Raw) (k : Except DecErr Instr) : Except DecErr Instr := need (w.rb5 == 0) .fieldRefused k
/-- B4 is not used. -/
def noB4 (w : Raw) (k : Except DecErr Instr) : Except DecErr Instr := need (!w.b4) .fieldRefused k
/-- A4 is not used. -/
def noA4 (w : Raw) (k : Except DecErr Instr) : Except DecErr Instr := need (!w.a4) .fieldRefused k
/-- The A operand is not used. -/
def noA (w : Raw) (k : Except DecErr Instr) : Except DecErr Instr := need (w.ra5 == 0) .fieldRefused k
/-- R37: PFX.M, where it stands, has only fields of the group's row. -/
def ordered (w : Raw) (g : OrdGroup) (k : Except DecErr Instr) : Except DecErr Instr :=
  need (w.res == 0 && w.ordering.ok g w.pfx) .orderingRefused k

/-- The checks shared by the scalar forms without immediate (R75, R99). -/
def plain (w : Raw) (k : Except DecErr Instr) : Except DecErr Instr := w.noX <| w.noM <| w.scalar <| w.noTy <| w.noMf k

def rr (w : Raw) (mk : Pfx → RegNum → RegNum → RegNum → Instr) : Except DecErr Instr :=
  w.plain <| .ok (mk w.pfx w.ra5 w.rb5 w.rc5)
def rrr (w : Raw) (mk : Pfx → RegNum → RegNum → RegNum → Instr) : Except DecErr Instr :=
  w.withR <| w.plain <| .ok (mk w.pfx w.ra5 w.rb5 w.c)
def un (w : Raw) (mk : Pfx → RegNum → RegNum → Instr) : Except DecErr Instr :=
  w.plain <| w.noC <| .ok (mk w.pfx w.ra5 w.rb5)
def ra (w : Raw) (mk : Pfx → RegNum → Instr) : Except DecErr Instr :=
  w.plain <| w.noC <| w.noB <| .ok (mk w.pfx w.ra5)
def rb (w : Raw) (mk : Pfx → RegNum → Instr) : Except DecErr Instr :=
  w.plain <| w.noC <| w.noA <| .ok (mk w.pfx w.rb5)
def none (w : Raw) (mk : Pfx → Instr) : Except DecErr Instr :=
  w.plain <| w.noR <| w.noA <| w.noB <| .ok (mk w.pfx)
/-- R145, R246: no operand; a PFX.R carries only zeros. -/
def bare (w : Raw) (mk : Pfx → Instr) : Except DecErr Instr :=
  w.plain <| w.noC <| w.noA <| w.noB <| .ok (mk w.pfx)
def ri (w : Raw) (mk : Pfx → RegNum → RegNum → Word → Instr) : Except DecErr Instr :=
  w.noM <| w.scalar <| w.noTy <| w.noB4 <| .ok (mk w.pfx w.ra5 w.rc5 w.immI6)
/-- R79: a shift whose immediate lies outside 0 to 63 is ILL. -/
def sh (w : Raw) (mk : Pfx → RegNum → RegNum → Word → Instr) : Except DecErr Instr :=
  need (w.immI6.toNat < 64) .fieldRefused (w.ri mk)
def li (w : Raw) (mk : Pfx → RegNum → Word → Instr) : Except DecErr Instr :=
  w.noM <| w.scalar <| w.noTy <| w.noB4 <| w.noC <| .ok (mk w.pfx w.ra5 w.immI6)
def bc (w : Raw) (mk : Pfx → RegNum → RegNum → Word → Instr) : Except DecErr Instr :=
  w.noM <| w.scalar <| w.noTy <| w.noC <| .ok (mk w.pfx w.ra5 w.rb5 w.immI2)
def bi (w : Raw) (mk : Pfx → Word → Instr) : Except DecErr Instr :=
  w.noM <| w.noR <| w.scalar <| w.noA <| .ok (mk w.pfx w.immI6)
def ms (w : Raw) (g : OrdGroup) (mk : Pfx → Ordering → BitVec 2 → RegNum → RegNum → Word → Instr) : Except DecErr Instr :=
  w.scalar <| w.noTy <| w.noC <| w.ordered g <| .ok (mk w.pfx w.ordering w.m w.ra5 w.rb5 w.immI0)
def memK (w : Raw) (g : OrdGroup) (mk : Pfx → Ordering → RegNum → RegNum → Word → Instr) : Except DecErr Instr :=
  w.scalar <| w.noTy <| w.noC <| w.ordered g <| .ok (mk w.pfx w.ordering w.ra5 w.rb5 w.immI2)
def mx (w : Raw) (g : OrdGroup) (mk : Pfx → Ordering → BitVec 2 → RegNum → RegNum → RegNum → Word → Instr) :
    Except DecErr Instr :=
  w.scalar <| w.noTy <| w.ordered g <| .ok (mk w.pfx w.ordering w.m w.ra5 w.rb5 w.rc5 w.immI0)
/-- R32: an atomic has size 0b10 or 0b11. -/
def ma (w : Raw) (mk : Pfx → Ordering → Bool → RegNum → RegNum → RegNum → Word → Instr) : Except DecErr Instr :=
  w.scalar <| w.noTy <| need (2 ≤ w.m.toNat) .fieldRefused <| w.ordered .atomic <|
    .ok (mk w.pfx w.ordering (w.m == 3) w.ra5 w.rb5 w.rc5 w.immI0)
def mt (w : Raw) (g : OrdGroup) (mk : Pfx → Ordering → BitVec 3 → RegNum → RegNum → RegNum → Word → Instr) :
    Except DecErr Instr :=
  w.scalar <| need (w.ty.toNat ≤ 4) .typeRefused <| w.ordered g <|
    .ok (mk w.pfx w.ordering w.ty w.ra5 w.rb5 w.rc5 w.immI2)
/-- R94: a range that is empty or holds g29 is ILL. -/
def pp (w : Raw) (mk : Pfx → RegNum → RegNum → Instr) : Except DecErr Instr :=
  need (w.ra5.toNat ≤ w.rb5.toNat && !(w.ra5.toNat ≤ 29 && 29 ≤ w.rb5.toNat)) .fieldRefused (w.un mk)
def tr (w : Raw) : Except DecErr Instr := w.plain <| w.noR <| .ok (.trap w.pfx (w.a ++ w.b))
/-- A form whose B is a selector below `n`. -/
def selA (w : Raw) (n : Nat) (mk : Pfx → RegNum → BitVec 4 → Instr) : Except DecErr Instr :=
  w.plain <| w.noC <| w.noB4 <| need (w.b.toNat < n) .fieldRefused <| .ok (mk w.pfx w.ra5 w.b)
/-- R134: FENCE with PFX.M and B 0, or FENCE.I without PFX.M and with B 1. -/
def fence (w : Raw) : Except DecErr Instr :=
  w.noX <| w.noR <| w.scalar <| w.noMf <| w.noA <|
    if w.b == 0 then need w.mm .prefixRefused (w.ordered .fence (.ok (.fence w.pfx w.ordering)))
    else need (w.b == 1) .fieldRefused <| w.noM <| .ok (.fenceI w.pfx)
def kg (w : Raw) : Except DecErr Instr :=
  w.plain <| w.noB4 <| need (w.b.toNat < 9) .fieldRefused <| .ok (.kget w.pfx w.ra5 w.rc5 w.b)

end Raw

/-- Floating class of R33. -/
def FTy.ofCode : BitVec 3 → Option FTy
  | 0 => some .f32 | 1 => some .bf16 | 2 => some .f16 | 3 => some .e4m3 | 4 => some .e5m2 | 5 => some .f64
  | _ => none
def FTy.code : FTy → BitVec 3
  | .f32 => 0 | .bf16 => 1 | .f16 => 2 | .e4m3 => 3 | .e5m2 => 4 | .f64 => 5
/-- Integer class of R33; its widths are the width class. -/
def ITy.ofCode : BitVec 3 → ITy
  | 0 => .s32 | 1 => .s16 | 2 => .s8 | 3 => .s64 | 4 => .z32 | 5 => .z16 | 6 => .z8 | _ => .z64
def ITy.code : ITy → BitVec 3
  | .s32 => 0 | .s16 => 1 | .s8 => 2 | .s64 => 3 | .z32 => 4 | .z16 => 5 | .z8 => 6 | .z64 => 7
/-- TY in the class that CLS names (R32, R33). -/
def ETy.ofCode (cls : BitVec 2) (ty : BitVec 3) : Option ETy :=
  if cls == 0 then (FTy.ofCode ty).map ETy.fp else if cls == 1 then some (.int (ITy.ofCode ty)) else none
def ETy.code : ETy → BitVec 3
  | .fp t => t.code
  | .int t => t.code
/-- CLS of an element type. -/
def ETy.cls : ETy → BitVec 2
  | .fp _ => 0
  | .int _ => 1
/-- R182: a type as the C field of VCVT holds it, class above code. -/
def ETy.field : ETy → BitVec 5
  | .fp t => t.code.setWidth 5
  | .int t => 8 ||| t.code.setWidth 5

namespace Raw

/-- The decoded instruction for a type that the code names, else ILL (R34). -/
def fty (ty : BitVec 3) (k : FTy → Except DecErr Instr) : Except DecErr Instr :=
  match FTy.ofCode ty with
  | some t => k t
  | .none => .error .typeRefused
/-- R34: the types of the scalar arithmetic. -/
def arith (w : Raw) (k : FTy → Except DecErr Instr) : Except DecErr Instr :=
  fty w.ty fun t => need t.arith .typeRefused (k t)
/-- R169: an element type of page 2. -/
def ety (w : Raw) (k : ETy → Except DecErr Instr) : Except DecErr Instr :=
  match ETy.ofCode w.m w.ty with
  | some t => need t.vec .typeRefused (k t)
  | .none => .error .typeRefused

/-- Scalar forms with a type (R99): M is 0b00. -/
def typed (w : Raw) (k : Except DecErr Instr) : Except DecErr Instr := w.noX <| w.noM <| w.scalar <| w.noMf k
def fr (w : Raw) (mk : Pfx → FTy → RegNum → RegNum → RegNum → Instr) : Except DecErr Instr :=
  w.typed <| w.arith fun t => .ok (mk w.pfx t w.ra5 w.rb5 w.rc5)
def fu (w : Raw) (mk : Pfx → FTy → RegNum → RegNum → Instr) : Except DecErr Instr :=
  w.typed <| w.noC <| w.arith fun t => .ok (mk w.pfx t w.ra5 w.rb5)
/-- R116: the type field C of a CV form, with C[4] clear. -/
def fcvti (w : Raw) : Except DecErr Instr :=
  w.withR <| w.typed <| need (!w.c.getLsbD 4) .fieldRefused <| fty w.ty fun t =>
    .ok (.fcvti w.pfx t (ITy.ofCode (w.c.extractLsb' 0 3)) (w.c.getLsbD 3) w.ra5 w.rb5)
def fcvtf (w : Raw) : Except DecErr Instr :=
  w.withR <| w.typed <| need (w.c.extractLsb' 3 2 == 0) .fieldRefused <| fty w.ty fun t =>
    .ok (.fcvtf w.pfx t (ITy.ofCode (w.c.extractLsb' 0 3)) w.ra5 w.rb5)
def fcvtw (w : Raw) : Except DecErr Instr :=
  w.withR <| w.typed <| need (w.c.extractLsb' 3 2 == 0) .fieldRefused <| fty w.ty fun t =>
    fty (w.c.extractLsb' 0 3) fun s => .ok (.fcvtw w.pfx t s w.ra5 w.rb5)
/-- Page 2 forms without PFX.X and PFX.M (R168). -/
def vform (w : Raw) (k : Except DecErr Instr) : Except DecErr Instr := w.noX <| w.noM <| w.vec k
def vv (w : Raw) (mk : Pfx → ETy → RegNum → RegNum → RegNum → Instr) : Except DecErr Instr :=
  w.vform <| w.ety fun t => .ok (mk w.pfx t w.ra5 w.rb5 w.rc5)
def vu (w : Raw) (mk : Pfx → ETy → RegNum → RegNum → Instr) : Except DecErr Instr :=
  w.vform <| w.noC <| w.ety fun t => .ok (mk w.pfx t w.ra5 w.rb5)
/-- R185: a reduction refuses PM 0b01. -/
def vum (w : Raw) (mk : Pfx → ETy → RegNum → RegNum → Instr) : Except DecErr Instr := w.scalar (w.vu mk)
/-- R169: floating class only. -/
def efp (w : Raw) (k : FTy → Except DecErr Instr) : Except DecErr Instr :=
  w.ety fun | .fp t => k t | .int _ => .error .typeRefused
/-- R34: integer class only. -/
def eint (w : Raw) (k : ITy → Except DecErr Instr) : Except DecErr Instr :=
  w.ety fun | .int t => k t | .fp _ => .error .typeRefused
def vvf (w : Raw) (mk : Pfx → FTy → RegNum → RegNum → RegNum → Instr) : Except DecErr Instr :=
  w.vform <| w.efp fun t => .ok (mk w.pfx t w.ra5 w.rb5 w.rc5)
def vuf (w : Raw) (mk : Pfx → FTy → RegNum → RegNum → Instr) : Except DecErr Instr :=
  w.vform <| w.noC <| w.efp fun t => .ok (mk w.pfx t w.ra5 w.rb5)
def vvi (w : Raw) (mk : Pfx → ITy → RegNum → RegNum → RegNum → Instr) : Except DecErr Instr :=
  w.vform <| w.eint fun t => .ok (mk w.pfx t w.ra5 w.rb5 w.rc5)
def vui (w : Raw) (mk : Pfx → ITy → RegNum → RegNum → Instr) : Except DecErr Instr :=
  w.vform <| w.noC <| w.eint fun t => .ok (mk w.pfx t w.ra5 w.rb5)
def vc (w : Raw) (mk : Pfx → ETy → PredNum → RegNum → RegNum → Instr) : Except DecErr Instr :=
  w.vform <| w.noA4 <| w.ety fun t => .ok (mk w.pfx t w.a w.rb5 w.rc5)
/-- R180: VSEL refuses PM 0b01. -/
def vsel (w : Raw) : Except DecErr Instr := w.scalar (w.vv .vsel)
/-- R182: the source type in C, with C[4] only from floating to integer. -/
def vcvt (w : Raw) : Except DecErr Instr :=
  w.withR <| w.vform <| w.ety fun t =>
    match ETy.ofCode (if w.c.getLsbD 3 then 1 else 0) (w.c.extractLsb' 0 3) with
    | some s => need s.vec .fieldRefused <|
        need (!w.c.getLsbD 4 || match t, s with | .int _, .fp _ => true | _, _ => false) .fieldRefused <|
          .ok (.vcvt w.pfx t s (w.c.getLsbD 4) w.ra5 w.rb5)
    | .none => .error .fieldRefused
/-- R183: the source is of CLS's class and wider than the destination. -/
def vsatn (w : Raw) : Except DecErr Instr :=
  w.withR <| w.vform <| w.ety fun t => need (w.c.extractLsb' 3 2 == 0) .fieldRefused <|
    match ETy.ofCode t.cls (w.c.extractLsb' 0 3) with
    | some s => need (wfVSATN w.pfx t s) .fieldRefused <| .ok (.vsatn w.pfx t s w.ra5 w.rb5)
    | .none => .error .fieldRefused
/-- R168, R169: VRAND needs PFX.R, M 0b01 and z32. -/
def vrand (w : Raw) : Except DecErr Instr :=
  w.withR <| w.vform <| need (w.m == 1 && w.ty == 4) .typeRefused <| .ok (.vrand w.pfx w.ra5 w.rb5 w.c)
/-- R168. DESIGN CHOICE (assumption 135): without PFX.R a third PFX.X fits the chain (R28), and makes a 36-bit immediate (R31). -/
def vi (w : Raw) (mk : Pfx → ITy → RegNum → RegNum → Word → Instr) : Except DecErr Instr :=
  w.noM <| w.vec <| w.noB4 <| .ok (mk w.pfx (ITy.ofCode w.ty) w.ra5 w.rc5 w.immI6)
def vdot4 (w : Raw) : Except DecErr Instr :=
  w.vform <| w.ety fun t => need (wfVDOT4 { w.pfx with r := true } t w.ra5 w.rb5 w.rc5) .typeRefused <|
    .ok (.vdot4 w.pfx t w.ra5 w.rb5 w.rc5)
/-- R168: predicate forms; only C of PFX.R may be nonzero. -/
def pl (w : Raw) (mk : Pfx → PredNum → PredNum → PredNum → Instr) : Except DecErr Instr :=
  w.vform <| w.noMf <| w.noTy <| w.noA4 <| w.noB4 <| need (!w.c.getLsbD 4) .fieldRefused <|
    .ok (mk w.pfx w.a w.b (w.rc5.setWidth 4))
def pn (w : Raw) (mk : Pfx → PredNum → PredNum → Instr) : Except DecErr Instr :=
  w.vform <| w.noMf <| w.noTy <| w.noA4 <| w.noB4 <| w.noC <| .ok (mk w.pfx w.a w.b)
def ps (w : Raw) : Except DecErr Instr :=
  w.vform <| w.noA4 <| w.noC <| w.ety fun t => .ok (.pset w.pfx t w.a w.rb5)
/-- R190: PCNT and PFST refuse PM 0b01. -/
def pq (w : Raw) (mk : Pfx → ETy → RegNum → PredNum → Instr) : Except DecErr Instr :=
  w.scalar <| w.vform <| w.noB4 <| w.noC <| w.ety fun t => .ok (mk w.pfx t w.ra5 w.b)

/-- R192: the stores refuse PM 0b01. -/
def vmem (w : Raw) (g : OrdGroup) (k : Except DecErr Instr) : Except DecErr Instr :=
  w.vec <| need (g == .load || w.pm == 0) .predicateRefused <| w.ordered g k
def vm (w : Raw) (g : OrdGroup) (mk : Pfx → Ordering → ITy → RegNum → RegNum → Word → Instr) : Except DecErr Instr :=
  w.vmem g <| w.noC <| .ok (mk w.pfx w.ordering (ITy.ofCode w.ty) w.ra5 w.rb5 w.immI2)
def vmc (w : Raw) (g : OrdGroup) (mk : Pfx → Ordering → ITy → RegNum → RegNum → RegNum → Word → Instr) :
    Except DecErr Instr :=
  w.vmem g <| .ok (mk w.pfx w.ordering (ITy.ofCode w.ty) w.ra5 w.rb5 w.rc5 w.immI2)
def vxc (w : Raw) (g : OrdGroup) (mk : Pfx → Ordering → ITy → RegNum → RegNum → RegNum → Instr) : Except DecErr Instr :=
  w.noX <| w.noMf <| w.vmem g <| .ok (mk w.pfx w.ordering (ITy.ofCode w.ty) w.ra5 w.rb5 w.rc5)
/-- Page 3 forms on registers only (R191). -/
def pform (w : Raw) (k : Except DecErr Instr) : Except DecErr Instr := w.noX <| w.noM <| w.vec <| w.noMf k
def pv (w : Raw) (mk : Pfx → ITy → RegNum → RegNum → RegNum → Instr) : Except DecErr Instr :=
  w.pform <| .ok (mk w.pfx (ITy.ofCode w.ty) w.ra5 w.rb5 w.rc5)
/-- R192: VEXT and VINS refuse PM 0b01. -/
def pvm (w : Raw) (mk : Pfx → ITy → RegNum → RegNum → RegNum → Instr) : Except DecErr Instr := w.scalar (w.pv mk)
def ce (w : Raw) (mk : Pfx → ITy → RegNum → RegNum → Instr) : Except DecErr Instr :=
  w.pform <| w.noC <| .ok (mk w.pfx (ITy.ofCode w.ty) w.ra5 w.rb5)
/-- R192, R204: the block field holds m from 2 to 8 and TY selects width 32. -/
def qf (w : Raw) (mk : Pfx → Bool → BitVec 4 → RegNum → RegNum → Instr) : Except DecErr Instr :=
  w.withR <| w.pform <| need (w.ty == 0 || w.ty == 4) .typeRefused <|
    need (2 ≤ w.c.toNat && w.c.toNat ≤ 8) .fieldRefused <|
      .ok (mk w.pfx (w.ty == 4) (w.c.setWidth 4) w.ra5 w.rb5)
def qfm (w : Raw) (mk : Pfx → Bool → BitVec 4 → RegNum → RegNum → Instr) : Except DecErr Instr := w.scalar (w.qf mk)
/-- R191, R192: C[4] is 0 and the width is 8, 16 or 32. -/
def vsprs (w : Raw) : Except DecErr Instr :=
  w.scalar <| w.pform <| need (!w.c.getLsbD 4) .fieldRefused <| need ((ITy.ofCode w.ty).width != 64) .typeRefused <|
    .ok (.vsprs w.pfx (ITy.ofCode w.ty) w.ra5 w.rb5 (w.rc5.setWidth 4))

/-- R315: the matrix forms whose B names a ring or an accumulator. -/
def mring (w : Raw) : Except DecErr Instr :=
  w.withR <| w.plain <| w.noB4 <| need (w.b.extractLsb' 2 2 == 0) .fieldRefused <|
    .ok (.mring w.pfx (w.b.extractLsb' 0 2) w.ra5 w.c)
def mprod (w : Raw) : Except DecErr Instr :=
  w.plain <| w.noC <| w.noB4 <| need (w.b.extractLsb' 2 2 == 0) .fieldRefused <|
    .ok (.mprod w.pfx (w.b.extractLsb' 0 2) w.ra5)
/-- C names the start time when TIMED is set, and is not used otherwise (R29, R294, R315). -/
def timeReg (w : Raw) : RegNum := if w.timed then w.c else 0
/-- The checks of a form that accepts TIMED (R37). -/
def timedForm (w : Raw) (g : OrdGroup) (k : Except DecErr Instr) : Except DecErr Instr :=
  w.noX <| w.scalar <| w.noTy <| w.noMf <| w.ordered g <| need (w.timed || w.c == 0) .fieldRefused k
def mma (w : Raw) : Except DecErr Instr :=
  w.timedForm .matrix <| .ok (.mma w.pfx w.ordering (w.a.extractLsb' 0 2) (w.a.extractLsb' 2 2) (w.b.extractLsb' 0 2)
    (w.b.getLsbD 2) (w.b.getLsbD 3) w.a4 w.b4 w.timeReg)
def mmas (w : Raw) : Except DecErr Instr :=
  w.timedForm .matrix <| .ok (.mmas w.pfx w.ordering (w.a.extractLsb' 0 2) (w.a.extractLsb' 2 2) (w.b.extractLsb' 0 2)
    (w.b.extractLsb' 2 2) w.a4 w.b4 w.timeReg)
def mzero (w : Raw) : Except DecErr Instr :=
  w.plain <| w.noR <| w.noA <| need (w.b.extractLsb' 2 2 == 0) .fieldRefused <| .ok (.mzero w.pfx (w.b.extractLsb' 0 2))
def mdrain (w : Raw) : Except DecErr Instr :=
  w.plain <| w.noC <| need (w.rb5.toNat / 4 < 5) .fieldRefused <|
    .ok (.mdrain w.pfx (w.rb5.extractLsb' 2 3) w.ra5 (w.b.extractLsb' 0 2))
def mflag (w : Raw) : Except DecErr Instr :=
  w.plain <| w.noC <| w.noB4 <| need (!w.b.getLsbD 3) .fieldRefused <|
    .ok (.mflag w.pfx w.ra5 (w.b.extractLsb' 0 2) (w.b.getLsbD 2))
def mrq (w : Raw) : Except DecErr Instr :=
  w.plain <| w.noC <| .ok (.mrq w.pfx w.ra5 (w.b.extractLsb' 0 2) (w.rb5.extractLsb' 2 3))
def cpy (w : Raw) (mk : Pfx → Ordering → RegNum → RegNum → RegNum → Instr) : Except DecErr Instr :=
  w.timedForm .engine <| .ok (mk w.pfx w.ordering w.ra5 w.rb5 w.timeReg)
/-- R288: FLUMW requires PFX.R and accepts PM 0b01. -/
def flumw (w : Raw) : Except DecErr Instr :=
  w.withR <| w.pform <| w.noTy <| .ok (.flumw w.pfx w.ra5 w.rb5 w.c)
/-- R223: selectors 6, 7, 14 and 15 are ILL. -/
def tdead (w : Raw) : Except DecErr Instr :=
  need (w.b.toNat % 8 < 6) .fieldRefused (w.selA 16 .tdead)
/-- R246: RETIRE without a value has A 0; with B 1 it names the value. -/
def retire (w : Raw) : Except DecErr Instr :=
  w.plain <| w.noC <| w.noB4 <|
    if w.b == 0 then w.noA <| .ok (.retire w.pfx)
    else need (w.b == 1) .fieldRefused <| .ok (.retireValue w.pfx w.ra5)
/-- R403: the C field of AESE and AESD is the last-round flag. -/
def aes (w : Raw) (mk : Pfx → Bool → RegNum → RegNum → Instr) : Except DecErr Instr :=
  w.withR <| w.plain <| need (w.c.extractLsb' 1 4 == 0) .fieldRefused <| .ok (mk w.pfx (w.c.getLsbD 0) w.ra5 w.rb5)
/-- R403: the C field of AESK is rc, 1 to 7. -/
def aesk (w : Raw) : Except DecErr Instr :=
  w.withR <| w.plain <| need (1 ≤ w.c.toNat && w.c.toNat ≤ 7) .fieldRefused <|
    .ok (.aesk w.pfx (w.c.setWidth 3) w.ra5 w.rb5)

end Raw

/-- Page 0 of the opcode map (R40). -/
def Raw.page0 (w : Raw) : Except DecErr Instr :=
  match w.op.toNat with
  | 0x00 => w.rr .add
  | 0x01 => w.rr .sub
  | 0x02 => w.rr .and
  | 0x03 => w.rr .or
  | 0x04 => w.rr .xor
  | 0x05 => w.rr .shl
  | 0x06 => w.rr .shr
  | 0x07 => w.rr .sar
  | 0x08 => w.rr .min
  | 0x09 => w.rr .max
  | 0x0A => w.rr .minz
  | 0x0B => w.rr .maxz
  | 0x0C => w.rr .slt
  | 0x0D => w.rr .sltz
  | 0x0E => w.rr .seq
  | 0x0F => w.un .mov
  | 0x10 => w.ri .addi
  | 0x11 => w.ri .andi
  | 0x12 => w.ri .ori
  | 0x13 => w.ri .xori
  | 0x14 => w.sh .shli
  | 0x15 => w.sh .shri
  | 0x16 => w.sh .sari
  | 0x17 => w.ri .slti
  | 0x18 => w.li .li
  | 0x19 => w.bc .lea
  | 0x1A => w.bi .br
  | 0x1B => w.bc .beq
  | 0x1C => w.bc .bne
  | 0x1D => w.bc .blt
  | 0x1E => w.bc .bge
  | 0x1F => w.bc .blo
  | 0x20 => w.bc .bhs
  | 0x21 => w.bi .call
  | 0x22 => w.ra .callr
  | 0x23 => w.ra .jmpr
  | 0x24 => w.li .loop
  | 0x25 => w.ms .load .ld
  | 0x26 => w.ms .load .ldz
  | 0x27 => w.ms .store .st
  | 0x28 => w.memK .load .ldk
  | 0x29 => w.memK .store .stk
  | 0x2A => w.mx .load .ldx
  | 0x2B => w.mx .store .stx
  | 0x2C => w.ma .aadd
  | 0x2D => w.ma .aand
  | 0x2E => w.ma .aor
  | 0x2F => w.ma .axor
  | 0x30 => w.ma .amin
  | 0x31 => w.ma .amax
  | 0x32 => w.ma .aswp
  | 0x33 => w.ma .acas
  | 0x34 => w.mt .store .stat
  | 0x35 => w.mt .load .ldnb
  | 0x36 => w.pp .pushs
  | 0x37 => w.pp .pops
  | 0x38 => w.tr
  | 0x39 => w.selA 14 .rdid
  | 0x3A => w.ra .tnow
  | 0x3B => w.fence
  | _ => .error .unassigned

/-- Page 1 (R41). -/
def Raw.page1 (w : Raw) : Except DecErr Instr :=
  match w.op.toNat with
  | 0x00 => w.rr .mul
  | 0x01 => w.rr .mulh
  | 0x02 => w.rr .mulhz
  | 0x03 => w.rr .div
  | 0x04 => w.rr .divz
  | 0x05 => w.rr .rem
  | 0x06 => w.rr .remz
  | 0x07 => w.un .clz
  | 0x08 => w.un .ctz
  | 0x09 => w.un .popc
  | 0x0A => w.un .brev
  | 0x0B => w.un .bswp
  | 0x0C => w.rr .bext
  | 0x0D => w.rr .bins
  | 0x0E => w.rr .rotl
  | 0x0F => w.rr .rotr
  | 0x10 => w.rr .sel
  | 0x11 => w.rr .kinc
  | 0x12 => w.ri .kinci
  | 0x13 => w.rr .kbnd
  | 0x14 => w.rr .kprm
  | 0x15 => w.rr .kcol
  | 0x16 => w.kg
  | 0x17 => w.rr .ktst
  | 0x18 => w.un .kseal
  | 0x19 => w.rr .kuns
  | 0x1A => w.un .kclr
  | 0x1B => w.rr .kcur
  | 0x1C => w.un .stg
  | 0x1D => w.un .ldg
  | 0x1E => w.fr .fadd
  | 0x1F => w.fr .fsub
  | 0x20 => w.fr .fmul
  | 0x21 => w.fr .ffma
  | 0x22 => w.fr .fdiv
  | 0x23 => w.fu .fsqrt
  | 0x24 => w.fr .fmin
  | 0x25 => w.fr .fmax
  | 0x26 => w.fr .feq
  | 0x27 => w.fr .flt
  | 0x28 => w.fr .fle
  | 0x29 => w.fcvti
  | 0x2A => w.fcvtf
  | 0x2B => w.fcvtw
  | 0x2C => w.li .csrr
  | 0x2D => w.ri .csrw
  | 0x2E => w.ri .csrs
  | 0x2F => w.ri .csrc
  | 0x30 => w.rr .srnd
  | _ => .error .unassigned

/-- Page 2 (R42). -/
def Raw.page2 (w : Raw) : Except DecErr Instr :=
  match w.op.toNat with
  | 0x00 => w.vv .vadd
  | 0x01 => w.vv .vsub
  | 0x02 => w.vv .vmul
  | 0x03 => w.vv .vfma
  | 0x04 => w.vv .vfms
  | 0x05 => w.vv .vfnma
  | 0x06 => w.vv .vmin
  | 0x07 => w.vv .vmax
  | 0x08 => w.vu .vabs
  | 0x09 => w.vu .vneg
  | 0x0A => w.vvf .vdiv
  | 0x0B => w.vuf .vsqrt
  | 0x0C => w.vuf .vrcp
  | 0x0D => w.vuf .vrsq
  | 0x0E => w.vuf .vexp2
  | 0x0F => w.vuf .vlog2
  | 0x10 => w.vvi .vand
  | 0x11 => w.vvi .vor
  | 0x12 => w.vvi .vxor
  | 0x13 => w.vui .vnot
  | 0x14 => w.vvi .vshl
  | 0x15 => w.vvi .vshr
  | 0x16 => w.vvi .vsar
  | 0x17 => w.vc .vceq
  | 0x18 => w.vc .vclt
  | 0x19 => w.vc .vcle
  | 0x1A => w.vsel
  | 0x1B => w.vcvt
  | 0x1C => w.vsatn
  | 0x1D => w.vu .vmov
  | 0x1E => w.vu .vbc
  | 0x1F => w.vrand
  | 0x20 => w.vum .vradd
  | 0x21 => w.vum .vrmin
  | 0x22 => w.vum .vrmax
  | 0x23 => w.vu .vscan
  | 0x24 => w.vi .vaddi
  | 0x25 => w.vi .vmuli
  | 0x26 => w.vdot4
  | 0x27 => w.pl .pand
  | 0x28 => w.pl .por
  | 0x29 => w.pl .pxor
  | 0x2A => w.pn .pnot
  | 0x2B => w.ps
  | 0x2C => w.pq .pcnt
  | 0x2D => w.pq .pfst
  | 0x2E => w.pn .pmov
  | _ => .error .unassigned

/-- Page 3 (R43). -/
def Raw.page3 (w : Raw) : Except DecErr Instr :=
  match w.op.toNat with
  | 0x00 => w.vm .load .vld
  | 0x01 => w.vm .store .vst
  | 0x02 => w.vmc .load .vlds
  | 0x03 => w.vmc .store .vsts
  | 0x04 => w.vxc .load .vgth
  | 0x05 => w.vxc .store .vsct
  | 0x06 => w.vxc .load .vldx
  | 0x07 => w.vxc .store .vstx
  | 0x08 => w.vmc .store .vstat
  | 0x09 => w.vmc .load .vldnb
  | 0x0A => w.pv .vperm
  | 0x0B => w.pv .vzip
  | 0x0C => w.pv .vuzp
  | 0x0D => w.pv .vrot
  | 0x0E => w.pv .vslid
  | 0x0F => w.pvm .vext
  | 0x10 => w.pvm .vins
  | 0x11 => w.ce .vcmpr
  | 0x12 => w.ce .vexpn
  | 0x13 => w.pv .vtrn
  | 0x14 => w.qfm .vqnt
  | 0x15 => w.qf .vdeq
  | 0x16 => w.vsprs
  | _ => .error .unassigned

/-- Page 4 (R44). -/
def Raw.page4 (w : Raw) : Except DecErr Instr :=
  match w.op.toNat with
  | 0x00 => w.ra .mfmt
  | 0x01 => w.mring
  | 0x02 => w.mprod
  | 0x03 => w.mma
  | 0x04 => w.mmas
  | 0x05 => w.mzero
  | 0x06 => w.mdrain
  | 0x07 => w.mflag
  | 0x08 => w.none .mwait
  | 0x09 => w.ra .mrst
  | 0x0A => w.mrq
  | 0x0C => w.cpy .cpy
  | 0x0D => w.un .cpyw
  | 0x0E => w.un .cpyq
  | 0x0F => w.cpy .xgth
  | 0x10 => w.cpy .xred
  | 0x11 => w.cpy .xcvt
  | 0x12 => w.un .flume
  | 0x13 => w.flumw
  | _ => .error .unassigned

/-- Page 5 (R45). -/
def Raw.page5 (w : Raw) : Except DecErr Instr :=
  match w.op.toNat with
  | 0x00 => w.un .arrive
  | 0x01 => w.rb .waitb
  | 0x02 => w.un .barq
  | 0x03 => w.un .gauge
  | 0x04 => w.ra .twait
  | 0x05 => w.tdead
  | 0x06 => w.un .latq
  | 0x07 => w.rr .freeze
  | 0x08 => w.retire
  | 0x09 => w.bare .yield
  | 0x0A => w.un .launch
  | 0x0B => w.un .signal
  | 0x0C => w.un .waitc
  | 0x0D => w.selA 12 .exq
  | _ => .error .unassigned

/-- Page 6 (R46). -/
def Raw.page6 (w : Raw) : Except DecErr Instr :=
  match w.op.toNat with
  | 0x00 => w.bare .eret
  | 0x01 => w.bare .wfi
  | 0x02 => w.bare .halt
  | 0x03 => w.rrr .trinv
  | 0x04 => w.un .kill
  | 0x05 => w.rr .mount
  | 0x06 => w.rr .clbl
  | 0x07 => w.rr .crd
  | 0x08 => w.rr .revive
  | 0x09 => w.rb .umnt
  | 0x0A => w.rrr .jrnl
  | 0x0B => w.un .tsync
  | 0x0C => w.rrr .ownr
  | 0x0D => w.rrr .smpc
  | 0x0E => w.un .dbgb
  | _ => .error .unassigned

/-- Page 7 (R47). -/
def Raw.page7 (w : Raw) : Except DecErr Instr :=
  match w.op.toNat with
  | 0x00 => w.ra .keccak
  | 0x01 => w.aes .aese
  | 0x02 => w.aes .aesd
  | 0x03 => w.aesk
  | 0x04 => w.rr .gfmul
  | 0x05 => w.rr .clmul
  | _ => .error .unassigned

/-- The instruction that the gathered fields encode, or the reason that there is none (R38, R39). -/
def Raw.decode (w : Raw) : Except DecErr Instr :=
  match w.page with
  | 0 => w.page0 | 1 => w.page1 | 2 => w.page2 | 3 => w.page3
  | 4 => w.page4 | 5 => w.page5 | 6 => w.page6 | _ => w.page7

/-- R22: the instruction at the head of the parcel stream. -/
def decode (qs : List Parcel) : Except DecErr Instr :=
  match scan 4 .empty qs with
  | .ok w => w.decode
  | .error e => .error e

/-- Bytes to parcels, little-endian (R21). -/
def parcelsOf : List Byte → List Parcel
  | lo :: hi :: rest => (hi ++ lo) :: parcelsOf rest
  | _ => []

/-- Number of parcels that fetch takes from the stream: up to and including the base parcel or the fifth (R49). -/
def fetchLen : Nat → List Parcel → Nat
  | _, [] => 0
  | 0, _ => 0
  | fuel + 1, q :: qs => if q.isPrefix then 1 + fetchLen fuel qs else 1

/-- The decoder on a word of the opcode table: the parcels from the least significant up, zero above `nbits`. -/
def decodeTableWord (nbits w : Nat) : Option Instr :=
  match decode ((List.range 5).map fun k => BitVec.ofNat 16 ((w % 2 ^ nbits) >>> (16 * k))) with
  | .ok i => some i
  | .error _ => none

/-! The encoder: the fields that an instruction takes, then the parcels in emtas's order X, R, P, M (R28). -/

/-- One bit as a field. -/
def bit1 (b : Bool) : BitVec 1 := BitVec.ofBool b

namespace Raw

/-- OP, page and prefixes of an instruction without its operands. -/
def ofPfx (page : BitVec 3) (op : BitVec 6) (x : Pfx) : Raw :=
  { Raw.empty with
    op, nx := x.nx, r := x.r, p := x.p, mm := x.m,
    page := if x.p then page else 0, pred := x.pred, neg := x.neg, pm := if x.zero then 1 else 0 }

/-- Register numbers; A4, B4 and C need PFX.R (R29). -/
def regs (w : Raw) (a b c : RegNum) : Raw :=
  { w with a := a.setWidth 4, b := b.setWidth 4, a4 := w.r && a.getLsbD 4, b4 := w.r && b.getLsbD 4,
           c := if w.r then c else 0 }
/-- A and B as plain four-bit fields. -/
def low4 (w : Raw) (a b : BitVec 4) : Raw := { w with a, b }
/-- A4, B4 and C as plain bits. -/
def bits4 (w : Raw) (a4 b4 : Bool) (c : RegNum) : Raw := { w with a4, b4, c }
def low (w : Raw) (m : BitVec 2) : Raw := { w with m }
def type (w : Raw) (ty : BitVec 3) : Raw := { w with ty := if w.r then ty else 0 }
def elem (w : Raw) (t : ETy) : Raw := { w.type t.code with m := t.cls }
def order (w : Raw) (o : Ordering) : Raw := { w with ord := o.ord, scope := o.scope, timed := o.timed, hint := o.hint }
/-- The chunks hold `10 k` bits of the immediate from bit `lo` up. -/
def chunks (w : Raw) (lo : Nat) (imm : Word) : BitVec 40 :=
  ((imm >>> lo).setWidth (10 * w.nx.toNat)).setWidth 40
def imm6 (w : Raw) (imm : Word) : Raw :=
  { w with xs := w.chunks 6 imm, b := imm.extractLsb' 2 4, m := imm.extractLsb' 0 2 }
def imm2 (w : Raw) (imm : Word) : Raw := { w with xs := w.chunks 2 imm, m := imm.extractLsb' 0 2 }
def imm0 (w : Raw) (imm : Word) : Raw := { w with xs := w.chunks 0 imm }

/-- PFX.X parcels, the most significant chunk first (R24). -/
def xParcels (xs : BitVec 40) : Nat → List Parcel
  | 0 => []
  | k + 1 => ((0x3C : BitVec 6) ++ xs.extractLsb' (10 * k) 10) :: xParcels xs k

/-- The parcels of the fields, prefixes in the order X, R, P, M. -/
def parcels (w : Raw) : List Parcel :=
  xParcels w.xs w.nx.toNat
    ++ (if w.r then [((0x3D : BitVec 6) ++ bit1 w.a4 ++ bit1 w.b4 ++ w.c ++ w.ty : BitVec 16)] else [])
    ++ (if w.p then [((0x3E : BitVec 6) ++ w.page ++ w.pred ++ bit1 w.neg ++ w.pm : BitVec 16)] else [])
    ++ (if w.mm then [((0x3F : BitVec 6) ++ w.ord ++ w.scope ++ bit1 w.timed ++ w.hint ++ w.res : BitVec 16)] else [])
    ++ [(w.op ++ w.a ++ w.b ++ w.m : BitVec 16)]

end Raw

/-- The fields of an instruction; a step that no word encodes takes those of NOP. -/
def Instr.raw : Instr → Raw
  | .add x a b c => (Raw.ofPfx 0 0x00 x).regs a b c
  | .sub x a b c => (Raw.ofPfx 0 0x01 x).regs a b c
  | .and x a b c => (Raw.ofPfx 0 0x02 x).regs a b c
  | .or x a b c => (Raw.ofPfx 0 0x03 x).regs a b c
  | .xor x a b c => (Raw.ofPfx 0 0x04 x).regs a b c
  | .shl x a b c => (Raw.ofPfx 0 0x05 x).regs a b c
  | .shr x a b c => (Raw.ofPfx 0 0x06 x).regs a b c
  | .sar x a b c => (Raw.ofPfx 0 0x07 x).regs a b c
  | .min x a b c => (Raw.ofPfx 0 0x08 x).regs a b c
  | .max x a b c => (Raw.ofPfx 0 0x09 x).regs a b c
  | .minz x a b c => (Raw.ofPfx 0 0x0A x).regs a b c
  | .maxz x a b c => (Raw.ofPfx 0 0x0B x).regs a b c
  | .slt x a b c => (Raw.ofPfx 0 0x0C x).regs a b c
  | .sltz x a b c => (Raw.ofPfx 0 0x0D x).regs a b c
  | .seq x a b c => (Raw.ofPfx 0 0x0E x).regs a b c
  | .mov x a b => (Raw.ofPfx 0 0x0F x).regs a b 0
  | .addi x a c imm => ((Raw.ofPfx 0 0x10 x).regs a 0 c).imm6 imm
  | .andi x a c imm => ((Raw.ofPfx 0 0x11 x).regs a 0 c).imm6 imm
  | .ori x a c imm => ((Raw.ofPfx 0 0x12 x).regs a 0 c).imm6 imm
  | .xori x a c imm => ((Raw.ofPfx 0 0x13 x).regs a 0 c).imm6 imm
  | .shli x a c imm => ((Raw.ofPfx 0 0x14 x).regs a 0 c).imm6 imm
  | .shri x a c imm => ((Raw.ofPfx 0 0x15 x).regs a 0 c).imm6 imm
  | .sari x a c imm => ((Raw.ofPfx 0 0x16 x).regs a 0 c).imm6 imm
  | .slti x a c imm => ((Raw.ofPfx 0 0x17 x).regs a 0 c).imm6 imm
  | .li x a imm => ((Raw.ofPfx 0 0x18 x).regs a 0 0).imm6 imm
  | .lea x a b off => ((Raw.ofPfx 0 0x19 x).regs a b 0).imm2 off
  | .br x off => (Raw.ofPfx 0 0x1A x).imm6 off
  | .call x off => (Raw.ofPfx 0 0x21 x).imm6 off
  | .beq x a b off => ((Raw.ofPfx 0 0x1B x).regs a b 0).imm2 off
  | .bne x a b off => ((Raw.ofPfx 0 0x1C x).regs a b 0).imm2 off
  | .blt x a b off => ((Raw.ofPfx 0 0x1D x).regs a b 0).imm2 off
  | .bge x a b off => ((Raw.ofPfx 0 0x1E x).regs a b 0).imm2 off
  | .blo x a b off => ((Raw.ofPfx 0 0x1F x).regs a b 0).imm2 off
  | .bhs x a b off => ((Raw.ofPfx 0 0x20 x).regs a b 0).imm2 off
  | .callr x a => (Raw.ofPfx 0 0x22 x).regs a 0 0
  | .jmpr x a => (Raw.ofPfx 0 0x23 x).regs a 0 0
  | .loop x a imm => ((Raw.ofPfx 0 0x24 x).regs a 0 0).imm6 imm
  | .ld x o sz a b off => ((((Raw.ofPfx 0 0x25 x).regs a b 0).imm0 off).low sz).order o
  | .ldz x o sz a b off => ((((Raw.ofPfx 0 0x26 x).regs a b 0).imm0 off).low sz).order o
  | .st x o sz a b off => ((((Raw.ofPfx 0 0x27 x).regs a b 0).imm0 off).low sz).order o
  | .ldk x o a b off => (((Raw.ofPfx 0 0x28 x).regs a b 0).imm2 off).order o
  | .stk x o a b off => (((Raw.ofPfx 0 0x29 x).regs a b 0).imm2 off).order o
  | .ldx x o sz a b c off => ((((Raw.ofPfx 0 0x2A x).regs a b c).imm0 off).low sz).order o
  | .stx x o sz a b c off => ((((Raw.ofPfx 0 0x2B x).regs a b c).imm0 off).low sz).order o
  | .aadd x o wide a b c off => ((((Raw.ofPfx 0 0x2C x).regs a b c).imm0 off).low (if wide then 3 else 2)).order o
  | .aand x o wide a b c off => ((((Raw.ofPfx 0 0x2D x).regs a b c).imm0 off).low (if wide then 3 else 2)).order o
  | .aor x o wide a b c off => ((((Raw.ofPfx 0 0x2E x).regs a b c).imm0 off).low (if wide then 3 else 2)).order o
  | .axor x o wide a b c off => ((((Raw.ofPfx 0 0x2F x).regs a b c).imm0 off).low (if wide then 3 else 2)).order o
  | .amin x o wide a b c off => ((((Raw.ofPfx 0 0x30 x).regs a b c).imm0 off).low (if wide then 3 else 2)).order o
  | .amax x o wide a b c off => ((((Raw.ofPfx 0 0x31 x).regs a b c).imm0 off).low (if wide then 3 else 2)).order o
  | .aswp x o wide a b c off => ((((Raw.ofPfx 0 0x32 x).regs a b c).imm0 off).low (if wide then 3 else 2)).order o
  | .acas x o wide a b c off => ((((Raw.ofPfx 0 0x33 x).regs a b c).imm0 off).low (if wide then 3 else 2)).order o
  | .stat x o size a b c off => ((((Raw.ofPfx 0 0x34 x).regs a b c).imm2 off).type size).order o
  | .ldnb x o size a b c off => ((((Raw.ofPfx 0 0x35 x).regs a b c).imm2 off).type size).order o
  | .pushs x f l => (Raw.ofPfx 0 0x36 x).regs f l 0
  | .pops x f l => (Raw.ofPfx 0 0x37 x).regs f l 0
  | .trap x code => (Raw.ofPfx 0 0x38 x).low4 (code.extractLsb' 4 4) (code.extractLsb' 0 4)
  | .rdid x a k => (Raw.ofPfx 0 0x39 x).regs a (k.setWidth 5) 0
  | .tnow x a => (Raw.ofPfx 0 0x3A x).regs a 0 0
  | .fence x o => (Raw.ofPfx 0 0x3B x).order o
  | .fenceI x => (Raw.ofPfx 0 0x3B x).low4 0 1
  | .mul x a b c => (Raw.ofPfx 1 0x00 x).regs a b c
  | .mulh x a b c => (Raw.ofPfx 1 0x01 x).regs a b c
  | .mulhz x a b c => (Raw.ofPfx 1 0x02 x).regs a b c
  | .div x a b c => (Raw.ofPfx 1 0x03 x).regs a b c
  | .divz x a b c => (Raw.ofPfx 1 0x04 x).regs a b c
  | .rem x a b c => (Raw.ofPfx 1 0x05 x).regs a b c
  | .remz x a b c => (Raw.ofPfx 1 0x06 x).regs a b c
  | .clz x a b => (Raw.ofPfx 1 0x07 x).regs a b 0
  | .ctz x a b => (Raw.ofPfx 1 0x08 x).regs a b 0
  | .popc x a b => (Raw.ofPfx 1 0x09 x).regs a b 0
  | .brev x a b => (Raw.ofPfx 1 0x0A x).regs a b 0
  | .bswp x a b => (Raw.ofPfx 1 0x0B x).regs a b 0
  | .bext x a b c => (Raw.ofPfx 1 0x0C x).regs a b c
  | .bins x a b c => (Raw.ofPfx 1 0x0D x).regs a b c
  | .rotl x a b c => (Raw.ofPfx 1 0x0E x).regs a b c
  | .rotr x a b c => (Raw.ofPfx 1 0x0F x).regs a b c
  | .sel x a b c => (Raw.ofPfx 1 0x10 x).regs a b c
  | .kinc x a b c => (Raw.ofPfx 1 0x11 x).regs a b c
  | .kinci x a c imm => ((Raw.ofPfx 1 0x12 x).regs a 0 c).imm6 imm
  | .kbnd x a b c => (Raw.ofPfx 1 0x13 x).regs a b c
  | .kprm x a b c => (Raw.ofPfx 1 0x14 x).regs a b c
  | .kcol x a b c => (Raw.ofPfx 1 0x15 x).regs a b c
  | .kget x a c k => (Raw.ofPfx 1 0x16 x).regs a (k.setWidth 5) c
  | .ktst x a b c => (Raw.ofPfx 1 0x17 x).regs a b c
  | .kseal x a b => (Raw.ofPfx 1 0x18 x).regs a b 0
  | .kuns x a b c => (Raw.ofPfx 1 0x19 x).regs a b c
  | .kclr x a b => (Raw.ofPfx 1 0x1A x).regs a b 0
  | .kcur x a b c => (Raw.ofPfx 1 0x1B x).regs a b c
  | .stg x a b => (Raw.ofPfx 1 0x1C x).regs a b 0
  | .ldg x a b => (Raw.ofPfx 1 0x1D x).regs a b 0
  | .fadd x t a b c => ((Raw.ofPfx 1 0x1E x).regs a b c).type t.code
  | .fsub x t a b c => ((Raw.ofPfx 1 0x1F x).regs a b c).type t.code
  | .fmul x t a b c => ((Raw.ofPfx 1 0x20 x).regs a b c).type t.code
  | .ffma x t a b c => ((Raw.ofPfx 1 0x21 x).regs a b c).type t.code
  | .fdiv x t a b c => ((Raw.ofPfx 1 0x22 x).regs a b c).type t.code
  | .fsqrt x t a b => ((Raw.ofPfx 1 0x23 x).regs a b 0).type t.code
  | .fmin x t a b c => ((Raw.ofPfx 1 0x24 x).regs a b c).type t.code
  | .fmax x t a b c => ((Raw.ofPfx 1 0x25 x).regs a b c).type t.code
  | .feq x t a b c => ((Raw.ofPfx 1 0x26 x).regs a b c).type t.code
  | .flt x t a b c => ((Raw.ofPfx 1 0x27 x).regs a b c).type t.code
  | .fle x t a b c => ((Raw.ofPfx 1 0x28 x).regs a b c).type t.code
  | .fcvti x src dst rtz a b => ((Raw.ofPfx 1 0x29 x).regs a b ((if rtz then 8 else 0) ||| dst.code.setWidth 5)).type src.code
  | .fcvtf x dst src a b => ((Raw.ofPfx 1 0x2A x).regs a b (src.code.setWidth 5)).type dst.code
  | .fcvtw x dst src a b => ((Raw.ofPfx 1 0x2B x).regs a b (src.code.setWidth 5)).type dst.code
  | .csrr x a csr => ((Raw.ofPfx 1 0x2C x).regs a 0 0).imm6 csr
  | .csrw x a c csr => ((Raw.ofPfx 1 0x2D x).regs a 0 c).imm6 csr
  | .csrs x a c csr => ((Raw.ofPfx 1 0x2E x).regs a 0 c).imm6 csr
  | .csrc x a c csr => ((Raw.ofPfx 1 0x2F x).regs a 0 c).imm6 csr
  | .srnd x a b c => (Raw.ofPfx 1 0x30 x).regs a b c
  | .vadd x t a b c => ((Raw.ofPfx 2 0x00 x).regs a b c).elem t
  | .vsub x t a b c => ((Raw.ofPfx 2 0x01 x).regs a b c).elem t
  | .vmul x t a b c => ((Raw.ofPfx 2 0x02 x).regs a b c).elem t
  | .vfma x t a b c => ((Raw.ofPfx 2 0x03 x).regs a b c).elem t
  | .vfms x t a b c => ((Raw.ofPfx 2 0x04 x).regs a b c).elem t
  | .vfnma x t a b c => ((Raw.ofPfx 2 0x05 x).regs a b c).elem t
  | .vmin x t a b c => ((Raw.ofPfx 2 0x06 x).regs a b c).elem t
  | .vmax x t a b c => ((Raw.ofPfx 2 0x07 x).regs a b c).elem t
  | .vabs x t a b => ((Raw.ofPfx 2 0x08 x).regs a b 0).elem t
  | .vneg x t a b => ((Raw.ofPfx 2 0x09 x).regs a b 0).elem t
  | .vdiv x t a b c => ((Raw.ofPfx 2 0x0A x).regs a b c).elem (.fp t)
  | .vsqrt x t a b => ((Raw.ofPfx 2 0x0B x).regs a b 0).elem (.fp t)
  | .vrcp x t a b => ((Raw.ofPfx 2 0x0C x).regs a b 0).elem (.fp t)
  | .vrsq x t a b => ((Raw.ofPfx 2 0x0D x).regs a b 0).elem (.fp t)
  | .vexp2 x t a b => ((Raw.ofPfx 2 0x0E x).regs a b 0).elem (.fp t)
  | .vlog2 x t a b => ((Raw.ofPfx 2 0x0F x).regs a b 0).elem (.fp t)
  | .vand x t a b c => ((Raw.ofPfx 2 0x10 x).regs a b c).elem (.int t)
  | .vor x t a b c => ((Raw.ofPfx 2 0x11 x).regs a b c).elem (.int t)
  | .vxor x t a b c => ((Raw.ofPfx 2 0x12 x).regs a b c).elem (.int t)
  | .vnot x t a b => ((Raw.ofPfx 2 0x13 x).regs a b 0).elem (.int t)
  | .vshl x t a b c => ((Raw.ofPfx 2 0x14 x).regs a b c).elem (.int t)
  | .vshr x t a b c => ((Raw.ofPfx 2 0x15 x).regs a b c).elem (.int t)
  | .vsar x t a b c => ((Raw.ofPfx 2 0x16 x).regs a b c).elem (.int t)
  | .vceq x t a b c => ((Raw.ofPfx 2 0x17 x).regs (a.setWidth 5) b c).elem t
  | .vclt x t a b c => ((Raw.ofPfx 2 0x18 x).regs (a.setWidth 5) b c).elem t
  | .vcle x t a b c => ((Raw.ofPfx 2 0x19 x).regs (a.setWidth 5) b c).elem t
  | .vsel x t a b c => ((Raw.ofPfx 2 0x1A x).regs a b c).elem t
  | .vcvt x dst src rtz a b => ((Raw.ofPfx 2 0x1B x).regs a b (src.field ||| (if rtz then 16 else 0))).elem dst
  | .vsatn x dst src a b => ((Raw.ofPfx 2 0x1C x).regs a b (src.code.setWidth 5)).elem dst
  | .vmov x t a b => ((Raw.ofPfx 2 0x1D x).regs a b 0).elem t
  | .vbc x t a b => ((Raw.ofPfx 2 0x1E x).regs a b 0).elem t
  | .vrand x a b c => ((Raw.ofPfx 2 0x1F x).regs a b c).elem (.int .z32)
  | .vradd x t a b => ((Raw.ofPfx 2 0x20 x).regs a b 0).elem t
  | .vrmin x t a b => ((Raw.ofPfx 2 0x21 x).regs a b 0).elem t
  | .vrmax x t a b => ((Raw.ofPfx 2 0x22 x).regs a b 0).elem t
  | .vscan x t a b => ((Raw.ofPfx 2 0x23 x).regs a b 0).elem t
  | .vaddi x t a c imm => (((Raw.ofPfx 2 0x24 x).regs a 0 c).imm6 imm).type t.code
  | .vmuli x t a c imm => (((Raw.ofPfx 2 0x25 x).regs a 0 c).imm6 imm).type t.code
  | .vdot4 x t a b c => ((Raw.ofPfx 2 0x26 x).regs a b c).elem t
  | .pand x a b c => (Raw.ofPfx 2 0x27 x).regs (a.setWidth 5) (b.setWidth 5) (c.setWidth 5)
  | .por x a b c => (Raw.ofPfx 2 0x28 x).regs (a.setWidth 5) (b.setWidth 5) (c.setWidth 5)
  | .pxor x a b c => (Raw.ofPfx 2 0x29 x).regs (a.setWidth 5) (b.setWidth 5) (c.setWidth 5)
  | .pnot x a b => (Raw.ofPfx 2 0x2A x).regs (a.setWidth 5) (b.setWidth 5) 0
  | .pset x t a b => ((Raw.ofPfx 2 0x2B x).regs (a.setWidth 5) b 0).elem t
  | .pcnt x t a b => ((Raw.ofPfx 2 0x2C x).regs a (b.setWidth 5) 0).elem t
  | .pfst x t a b => ((Raw.ofPfx 2 0x2D x).regs a (b.setWidth 5) 0).elem t
  | .pmov x a b => (Raw.ofPfx 2 0x2E x).regs (a.setWidth 5) (b.setWidth 5) 0
  | .vld x o w a b off => ((((Raw.ofPfx 3 0x00 x).regs a b 0).imm2 off).type w.code).order o
  | .vst x o w a b off => ((((Raw.ofPfx 3 0x01 x).regs a b 0).imm2 off).type w.code).order o
  | .vlds x o w a b c off => ((((Raw.ofPfx 3 0x02 x).regs a b c).imm2 off).type w.code).order o
  | .vsts x o w a b c off => ((((Raw.ofPfx 3 0x03 x).regs a b c).imm2 off).type w.code).order o
  | .vgth x o w a b c => (((Raw.ofPfx 3 0x04 x).regs a b c).type w.code).order o
  | .vsct x o w a b c => (((Raw.ofPfx 3 0x05 x).regs a b c).type w.code).order o
  | .vldx x o w a b c => (((Raw.ofPfx 3 0x06 x).regs a b c).type w.code).order o
  | .vstx x o w a b c => (((Raw.ofPfx 3 0x07 x).regs a b c).type w.code).order o
  | .vstat x o w a b c off => ((((Raw.ofPfx 3 0x08 x).regs a b c).imm2 off).type w.code).order o
  | .vldnb x o w a b c off => ((((Raw.ofPfx 3 0x09 x).regs a b c).imm2 off).type w.code).order o
  | .vperm x w a b c => ((Raw.ofPfx 3 0x0A x).regs a b c).type w.code
  | .vzip x w a b c => ((Raw.ofPfx 3 0x0B x).regs a b c).type w.code
  | .vuzp x w a b c => ((Raw.ofPfx 3 0x0C x).regs a b c).type w.code
  | .vrot x w a b c => ((Raw.ofPfx 3 0x0D x).regs a b c).type w.code
  | .vslid x w a b c => ((Raw.ofPfx 3 0x0E x).regs a b c).type w.code
  | .vext x w a b c => ((Raw.ofPfx 3 0x0F x).regs a b c).type w.code
  | .vins x w a b c => ((Raw.ofPfx 3 0x10 x).regs a b c).type w.code
  | .vcmpr x w a b => ((Raw.ofPfx 3 0x11 x).regs a b 0).type w.code
  | .vexpn x w a b => ((Raw.ofPfx 3 0x12 x).regs a b 0).type w.code
  | .vtrn x w a b c => ((Raw.ofPfx 3 0x13 x).regs a b c).type w.code
  | .vqnt x u m a b => ((Raw.ofPfx 3 0x14 x).regs a b (m.setWidth 5)).type (if u then 4 else 0)
  | .vdeq x u m a b => ((Raw.ofPfx 3 0x15 x).regs a b (m.setWidth 5)).type (if u then 4 else 0)
  | .vsprs x w a b c => ((Raw.ofPfx 3 0x16 x).regs a b (c.setWidth 5)).type w.code
  | .mfmt x a => (Raw.ofPfx 4 0x00 x).regs a 0 0
  | .mring x q a c => (Raw.ofPfx 4 0x01 x).regs a (q.setWidth 5) c
  | .mprod x q a => (Raw.ofPfx 4 0x02 x).regs a (q.setWidth 5) 0
  | .mma x o n ra rb ka kb ta tb c => (((Raw.ofPfx 4 0x03 x).low4 (ra ++ n) (bit1 kb ++ bit1 ka ++ rb)).bits4 ta tb c).order o
  | .mmas x o n ra rb rm ka kb c => (((Raw.ofPfx 4 0x04 x).low4 (ra ++ n) (rm ++ rb)).bits4 ka kb c).order o
  | .mzero x n => (Raw.ofPfx 4 0x05 x).low4 0 (n.setWidth 4)
  | .mdrain x fmt a n => (Raw.ofPfx 4 0x06 x).regs a (fmt ++ n) 0
  | .mflag x a n clr => (Raw.ofPfx 4 0x07 x).regs a (0#2 ++ bit1 clr ++ n) 0
  | .mwait x => Raw.ofPfx 4 0x08 x
  | .mrst x a => (Raw.ofPfx 4 0x09 x).regs a 0 0
  | .mrq x a q k => (Raw.ofPfx 4 0x0A x).regs a (k ++ q) 0
  | .cpy x o a b c => ((Raw.ofPfx 4 0x0C x).regs a b c).order o
  | .cpyw x a b => (Raw.ofPfx 4 0x0D x).regs a b 0
  | .cpyq x a b => (Raw.ofPfx 4 0x0E x).regs a b 0
  | .xgth x o a b c => ((Raw.ofPfx 4 0x0F x).regs a b c).order o
  | .xred x o a b c => ((Raw.ofPfx 4 0x10 x).regs a b c).order o
  | .xcvt x o a b c => ((Raw.ofPfx 4 0x11 x).regs a b c).order o
  | .flume x a b => (Raw.ofPfx 4 0x12 x).regs a b 0
  | .flumw x a b c => (Raw.ofPfx 4 0x13 x).regs a b c
  | .arrive x a b => (Raw.ofPfx 5 0x00 x).regs a b 0
  | .waitb x b => (Raw.ofPfx 5 0x01 x).regs 0 b 0
  | .barq x a b => (Raw.ofPfx 5 0x02 x).regs a b 0
  | .gauge x a b => (Raw.ofPfx 5 0x03 x).regs a b 0
  | .twait x a => (Raw.ofPfx 5 0x04 x).regs a 0 0
  | .tdead x a k => (Raw.ofPfx 5 0x05 x).regs a (k.setWidth 5) 0
  | .latq x a b => (Raw.ofPfx 5 0x06 x).regs a b 0
  | .freeze x a b c => (Raw.ofPfx 5 0x07 x).regs a b c
  | .retire x => Raw.ofPfx 5 0x08 x
  | .retireValue x a => (Raw.ofPfx 5 0x08 x).regs a 1 0
  | .yield x => Raw.ofPfx 5 0x09 x
  | .launch x a b => (Raw.ofPfx 5 0x0A x).regs a b 0
  | .signal x a b => (Raw.ofPfx 5 0x0B x).regs a b 0
  | .waitc x a b => (Raw.ofPfx 5 0x0C x).regs a b 0
  | .exq x a k => (Raw.ofPfx 5 0x0D x).regs a (k.setWidth 5) 0
  | .eret x => Raw.ofPfx 6 0x00 x
  | .wfi x => Raw.ofPfx 6 0x01 x
  | .halt x => Raw.ofPfx 6 0x02 x
  | .trinv x a b c => (Raw.ofPfx 6 0x03 x).regs a b c
  | .kill x a b => (Raw.ofPfx 6 0x04 x).regs a b 0
  | .mount x a b c => (Raw.ofPfx 6 0x05 x).regs a b c
  | .clbl x a b c => (Raw.ofPfx 6 0x06 x).regs a b c
  | .crd x a b c => (Raw.ofPfx 6 0x07 x).regs a b c
  | .revive x a b c => (Raw.ofPfx 6 0x08 x).regs a b c
  | .umnt x b => (Raw.ofPfx 6 0x09 x).regs 0 b 0
  | .jrnl x a b c => (Raw.ofPfx 6 0x0A x).regs a b c
  | .tsync x a b => (Raw.ofPfx 6 0x0B x).regs a b 0
  | .ownr x a b c => (Raw.ofPfx 6 0x0C x).regs a b c
  | .smpc x a b c => (Raw.ofPfx 6 0x0D x).regs a b c
  | .dbgb x a b => (Raw.ofPfx 6 0x0E x).regs a b 0
  | .keccak x a => (Raw.ofPfx 7 0x00 x).regs a 0 0
  | .aese x last a b => (Raw.ofPfx 7 0x01 x).regs a b (if last then 1 else 0)
  | .aesd x last a b => (Raw.ofPfx 7 0x02 x).regs a b (if last then 1 else 0)
  | .aesk x rc a b => (Raw.ofPfx 7 0x03 x).regs a b (rc.setWidth 5)
  | .gfmul x a b c => (Raw.ofPfx 7 0x04 x).regs a b c
  | .clmul x a b c => (Raw.ofPfx 7 0x05 x).regs a b c
  | .impreciseFaultTake _ => .empty
  | .pageWalk _ _ _ => .empty
  | .homeAccessPerform _ => .empty
  | .scratchpadRmwSlot _ _ _ => .empty
  | .timedStoreArrival _ => .empty
  | .timedStoreApply _ => .empty
  | .deadlineMissReport _ => .empty
  | .notBeforeLoadPerform _ => .empty
  | .timedEngineStart _ => .empty
  | .twaitExpiry _ => .empty
  | .waitcSatisfied _ => .empty
  | .cpywSatisfied _ => .empty
  | .wfiWake _ => .empty
  | .weirReleaseBroadcast _ => .empty
  | .flumwReturn _ => .empty
  | .itemStart _ => .empty
  | .culvertBeat _ => .empty
  | .culvertCompletion _ => .empty
  | .culvertFault _ => .empty
  | .cisternPiece _ => .empty
  | .cisternCompletion _ => .empty
  | .mmaExecute _ _ => .empty
  | .mzeroExecute _ _ => .empty
  | .mdrainExecute _ _ => .empty
  | .matrixTileError _ => .empty
  | .qtail _ _ => .empty
  | .chead _ _ => .empty
  | .ehead _ _ => .empty
  | .ringConfigurationWrite _ _ _ => .empty
  | .barRegisterWrite _ _ _ => .empty
  | .intakeLaunch _ => .empty
  | .intakeKill _ => .empty
  | .intakeSignal _ => .empty
  | .resync _ => .empty
  | .intakeNop _ => .empty
  | .internalQueueLaunch _ => .empty
  | .headgateHandover _ => .empty
  | .taskPlacement _ _ _ => .empty
  | .classRaise _ _ => .empty
  | .preemption _ _ => .empty
  | .taskResume _ _ _ => .empty
  | .freezeInstant _ => .empty
  | .dieLinkLoss _ _ => .empty
  | .flitReceive _ _ => .empty
  | .portDown _ => .empty
  | .portUp _ _ => .empty
  | .peerUnreachable _ => .empty
  | .hostCompletion _ _ => .empty
  | .hostCompletionTimeout _ => .empty
  | .disciplineLoss _ => .empty
  | .throttleEnter _ => .empty
  | .throttleLeave _ => .empty
  | .coolantOutOfRange => .empty
  | .feedWrite _ => .empty
  | .powerCapWrite _ => .empty
  | .sramSplitSet _ _ => .empty
  | .moduleReset _ => .empty
  | .dieReset _ => .empty
  | .functionReset _ => .empty
  | .powerLoss => .empty
  | .taggedSample _ _ => .empty
  | .monitorSample _ _ _ => .empty
  | .getVersion _ => .empty
  | .getCapabilities _ => .empty
  | .negotiateAlgorithms _ => .empty
  | .getCertificate _ _ _ _ => .empty
  | .challenge _ _ _ => .empty
  | .getMeasurements _ _ _ _ => .empty
  | .keyExchange _ _ _ _ => .empty
  | .finish _ _ => .empty
  | .endSession _ => .empty
  | .spdmUnsupportedRequest _ _ => .empty
  | .doeAbort _ => .empty
  | .rekeyQueue _ _ _ => .empty
  | .bindChannel _ _ _ _ _ => .empty
  | .grantCorpse _ _ _ _ => .empty
  | .discardCorpse _ _ => .empty
  | .setQuota _ _ _ => .empty
  | .extend _ _ _ => .empty
  | .migrate _ _ _ => .empty
  | .assign _ _ _ => .empty
  | .migrationInstall _ _ _ => .empty
  | .migrationReceipt _ _ => .empty
  | .migrationConfirm _ _ => .empty
  | .contextCreate _ _ _ _ _ _ _ _ => .empty
  | .contextDestroy _ => .empty
  | .timingPortMessage _ => .empty
  | .packageTimeStep _ => .empty
  | .pcieLinkTraining _ => .empty
  | .busMasteringChange _ _ => .empty
  | .vfEnableChange _ => .empty
  | .tdiStateChange _ _ => .empty
  | .intakeBadOpcode _ => .empty
  | .dieFailure _ _ _ => .empty

/-- The parcels of an instruction (R22, R23). -/
def encode (i : Instr) : List Parcel := i.raw.parcels

end Sys2Proof
end

