-- ==== Sys2Proof/Machine/Assoc.lean ====
section
/-! DEFINITION. Lists of keys and values in rising key order, and the bit helpers that every family uses. -/

namespace Sys2Proof.Machine

/-- A finite map: keys strictly rising. -/
abbrev Assoc (α : Type) := List (Nat × α)

def assocGet {α : Type} : Assoc α → Nat → Option α
  | [], _ => none
  | (k, v) :: rest, i => if k = i then some v else if i < k then none else assocGet rest i

def assocPut {α : Type} : Assoc α → Nat → α → Assoc α
  | [], i, v => [(i, v)]
  | (k, w) :: rest, i, v =>
    if k = i then (k, v) :: rest else if i < k then (i, v) :: (k, w) :: rest else (k, w) :: assocPut rest i v

def assocDel {α : Type} : Assoc α → Nat → Assoc α
  | [], _ => []
  | (k, w) :: rest, i => if k = i then rest else if i < k then (k, w) :: rest else (k, w) :: assocDel rest i

/-- The keys rise strictly. -/
def assocSorted {α : Type} : Assoc α → Bool
  | [] => true
  | [_] => true
  | (k, _) :: (k', w) :: rest => k < k' && assocSorted ((k', w) :: rest)

/-- The entry that a key has, or a default. -/
def assocGetD {α : Type} (m : Assoc α) (i : Nat) (d : α) : α := (assocGet m i).getD d

/-- A set of naturals in rising order. -/
def setHas : List Nat → Nat → Bool
  | [], _ => false
  | k :: rest, i => if k = i then true else if i < k then false else setHas rest i

def setAdd : List Nat → Nat → List Nat
  | [], i => [i]
  | k :: rest, i => if k = i then k :: rest else if i < k then i :: k :: rest else k :: setAdd rest i

def setDel : List Nat → Nat → List Nat
  | [], _ => []
  | k :: rest, i => if k = i then rest else if i < k then k :: rest else k :: setDel rest i

/-- The numbers from `a` up, `n` of them. -/
def upFrom (a : Nat) : Nat → List Nat
  | 0 => []
  | n + 1 => a :: upFrom (a + 1) n

/-- Little-endian bytes of a number, `n` of them. -/
def bytesOf : Nat → Nat → List Byte
  | 0, _ => []
  | n + 1, v => BitVec.ofNat 8 v :: bytesOf n (v / 256)

/-- The number that little-endian bytes hold. -/
def natOf : List Byte → Nat
  | [] => 0
  | b :: rest => b.toNat + 256 * natOf rest

/-- The bits `[lo + n - 1 : lo]` of a number. -/
def bitsAt (v lo n : Nat) : Nat := (v >>> lo) % 2 ^ n

/-- The last `n` elements kept when a new one joins at the end. -/
def pushLast {α : Type} (n : Nat) (l : List α) (a : α) : List α :=
  let l' := l ++ [a]
  l'.drop (l'.length - n)

/-- Element `i` of a vector, or a default beyond its end. -/
def vecAt {α : Type} {n : Nat} (v : Vector α n) (i : Nat) (d : α) : α := if h : i < n then v[i] else d

/-- A vector with element `i` changed; the same vector when it has none. -/
def vecSet {α : Type} {n : Nat} (v : Vector α n) (i : Nat) (a : α) : Vector α n :=
  if h : i < n then v.set i a else v

end Sys2Proof.Machine
end

