-- ==== Sys2Proof/Machine/State.lean ====
section
/-! DEFINITION. The state of the module as plain data, why a step can stop, and the state after reset. -/

namespace Sys2Proof.Machine

/-- A general register, or a 16-byte granule of memory, with its validity tag (R52, R53). -/
structure GReg where
  bits : BitVec 128
  tag  : Bool
  deriving DecidableEq, Repr

/-- The null value (R53). -/
def GReg.null : GReg := ⟨0, false⟩

/-- The 64-byte fault and event record (R140). -/
structure FaultRec where
  code    : BitVec 8
  flags   : BitVec 8
  context : BitVec 8
  die     : BitVec 2
  core    : BitVec 10
  level   : BitVec 2
  task    : BitVec 32
  item    : BitVec 32
  pc      : Word
  addr    : Word
  step    : Word
  atime   : Tick
  detail  : Word
  device  : BitVec 19
  seq     : BitVec 32
  deriving DecidableEq, Repr

/-- The deadline record of an item (R222, R223). -/
structure Deadline where
  count  : Word
  time   : Word
  arrive : Word
  addr   : Word
  pc     : Word
  home   : Word
  deriving DecidableEq, Repr

/-- The CSRs of R68. -/
structure Csrs where
  fcsr   : Word
  tvec   : Word
  tcause : Word
  trec   : GReg
  tepc   : Word
  sovp   : Word
  sovl   : Word
  klead  : Word
  smpl   : Word
  mstat  : Word
  deriving DecidableEq, Repr

/-- What RDID tells an item of itself (R72). `parent` is EXQ PARENT (R250); `sump` is the sump
size S in bytes (R66). -/
structure Ident where
  item   : Nat
  items  : Nat
  task   : BitVec 32
  level  : BitVec 2
  step   : Word
  team   : Nat
  slot   : Nat
  cls    : BitVec 2
  parent : Nat
  sump   : Nat
  deriving DecidableEq, Repr

/-- Accumulator type (R163, R316). -/
inductive AccType where
  | wide | s32
  deriving DecidableEq, Repr

/-- One accumulator (R163, R313): its elements that are not zero, by 64 i + j, with an s32 element in the low
32 bits; its sticky flags and live bit. -/
structure Acc where
  type  : AccType
  elems : Assoc (BitVec 34)
  ov    : Bool
  sat   : Bool
  nv    : Bool
  live  : Bool
  deriving DecidableEq, Repr

/-- One operand ring (R320): the capability and geometry of MRING, the four counts, and a tag per slot. -/
structure Ring where
  cap   : GReg
  base  : Addr
  slots : Nat
  slotB : Nat
  prod  : BitVec 32
  res   : BitVec 32
  cons  : BitVec 32
  rel   : BitVec 32
  tags  : List (Option (BitVec 32))
  deriving DecidableEq, Repr

/-- The format context and its generation (R316). -/
structure Format where
  word : Word
  gen  : BitVec 16
  deriving DecidableEq, Repr

/-- A ring operand that a command holds: the ring, the count of its slot, and whether the slot is taken (R323). -/
structure Slot where
  ring : BitVec 2
  k    : BitVec 32
  take : Bool
  deriving DecidableEq, Repr

/-- A queued matrix command with the context captured at issue (R314, R317). -/
inductive MatCmd where
  | mma (acc : BitVec 2) (a b : Slot) (transA transB : Bool) (f : Format)
  | mmas (acc : BitVec 2) (a m b b2 : Slot) (f : Format)
  | mzero (acc : BitVec 2) (f : Format)
  | mdrain (acc : BitVec 2) (dest : GReg) (fmt : BitVec 3) (f : Format)
  deriving DecidableEq, Repr

/-- The restart record (R333). -/
structure Restart where
  label : Addr
  heads : Vector (Option (BitVec 32)) 4
  deriving DecidableEq, Repr

/-- What the matrix unit holds for one core (R313). -/
structure MatCore where
  queue   : List MatCmd
  accs    : Vector Acc 4
  fmt     : Format
  rings   : Vector (Option Ring) 4
  restart : Option Restart
  deriving DecidableEq, Repr

/-- How one load or atomic of a waiting instruction has ended (R93, R136, R347): performed in the module, returned by
the host or a peer, failed, or timed out. -/
inductive Outcome where
  | local (bytes : List Byte) (tag : Bool)
  | returned (bytes : List Byte)
  | failed (c : Completion)
  | timeout
  deriving DecidableEq, Repr

/-- One access of an instruction that waits for host or peer memory or for a not-before load, in the order of its accesses: where it goes, the
function whose requester ID it carries (R343), the port that it takes to a peer (R350), the protection that it reads under
(R400), its home (R214), the operation and operands of an atomic, and how it has ended (R92, R347). -/
structure Request where
  loc    : Nat
  va     : Addr
  n      : Nat
  fn     : BitVec 6
  key    : Option Nat
  home   : Option (BitVec 2)
  atomic : Option (BitVec 3 × Word × Word)
  answer : Option Outcome
  port   : Option (BitVec 4) := none
  deriving DecidableEq, Repr

/-- An engine: a culvert or a cistern (R292, R307). -/
inductive EngineId where
  | culvert (c : CulvertId)
  | cistern (k : BitVec 4)
  deriving DecidableEq, Repr

/-- A command block as it was read: its bytes as one little-endian number and the tags of its granules (R131). -/
structure Block where
  bits : Nat
  tags : List Bool
  deriving DecidableEq, Repr

/-- A wait that an agent stands in: what ends it (R145, R220, R221, R224, R269, R276, R288, R305, R347). A wait for
room keeps the block that was read once (R294), as does one for the first 16 bytes of a DECRYPT source (R302); one for a start time keeps the ticket of an accepted command; a
not-before load keeps what its homes have returned (R220); TRINV waits for engine commands (R149). -/
inductive Wait where
  | time (t : Tick)
  | notBefore (t : Tick) (read : List Request)
  | counter (k : BitVec 12) (threshold : Word)
  | mailbox (cap : GReg) (value : Word)
  | event
  | weir (key : Nat) (gen : Nat)
  | flume (key : Nat)
  | engine (t : Tick) (ticket : Option Word)
  | host (requests : List Request)
  | fetch (request : Request)
  | rmw (loc : Nat) (va : Addr) (wide : Bool) (op : BitVec 3) (arg cmp : Word) (old : Option Word)
  | room (block : Option Block)
  | aad (block : Block) (request : Request)
  | trinv
  deriving DecidableEq, Repr

/-- Whether an agent has a program to run, and what it is (R145, R229). -/
inductive RunState where
  | idle | item | firmware | halted
  deriving DecidableEq, Repr

/-- The instruction that a sample is about: the address of its first parcel, and the item that it belongs to (R405). -/
structure Sampled where
  pc    : Addr
  owner : BitVec 8
  item  : Nat
  task  : BitVec 32
  step  : Word
  deriving DecidableEq, Repr

/-- A marked instruction (R406): its page and OP, whether it resolved an inherited register and took a granule, and its outcome
once it has left the pipeline. -/
structure Mark where
  of      : Sampled
  opcode  : BitVec 9
  fetched : Bool
  copied  : Bool
  left    : Option (BitVec 2)
  deriving DecidableEq, Repr

/-- Everything one executing agent holds: a core in item or firmware mode, or a culvert (R52, R68, R72, R292);
`gap` counts the instructions down to the next marked one and `mark` is the one in flight (R406); `acts` names
the issuer of the command that an engine has in hand (R63, R292), `icache` is its instruction cache and prefetch by location (R135), `ir` the parcels of the instruction fetched last. -/
structure Core where
  agent    : AgentId
  owner    : BitVec 8
  run      : RunState
  g        : Vector GReg 32
  v        : Vector VReg 32
  p        : Vector PReg 16
  gInh     : BitVec 32
  gPois    : BitVec 32
  vInh     : BitVec 32
  vPois    : BitVec 32
  pInh     : BitVec 16
  pPois    : BitVec 16
  pcc      : GReg
  csr      : Csrs
  handler  : Bool
  pending  : List FaultRec
  dead     : Deadline
  last     : Option FaultRec
  ident    : Ident
  regionBase : Nat
  regionLen  : Nat
  resident   : Bool
  own      : List Nat
  mx       : MatCore
  lastArr  : Assoc Nat
  wait     : Option Wait
  issued   : Nat
  lfsr     : BitVec 32
  acts     : Option AgentId
  icache   : Assoc Parcel
  ir       : List Parcel
  gap      : Nat := 0
  mark     : Option Mark := none
  deriving DecidableEq, Repr

/-- The item or the firmware program that an access, a command or a report belongs to, and the agent that issued it
(R120, R138). -/
structure Origin where
  agent   : AgentId
  context : BitVec 8
  task    : BitVec 32
  item    : Nat
  level   : BitVec 2
  parent  : Nat
  step    : Word
  deriving DecidableEq, Repr

/-- One half of an exemplar store (R234): the carried registers and CSRs, the region's bytes and tags. -/
structure Exemplar where
  task   : BitVec 32
  n      : Nat
  parent : Nat
  gMask  : BitVec 32
  vMask  : BitVec 32
  pMask  : BitVec 16
  dest   : RegNum
  g      : Vector GReg 32
  v      : Vector VReg 32
  p      : Vector PReg 16
  pcc    : GReg
  csr    : Csrs
  base   : Nat
  len    : Nat
  resident : Bool
  osplit : Bool
  left   : Nat
  cells  : List Host.Cell
  tags   : List Nat
  deriving DecidableEq, Repr

/-- Kind of an engine command (R294, R308). -/
inductive CmdKind where
  | copy | gather | reduce | convert
  deriving DecidableEq, Repr

/-- STATE of R306. -/
inductive CmdState where
  | queued | running | complete | faulted | discarded
  deriving DecidableEq, Repr

/-- Attributes of a leaf (R146). -/
structure Leaf where
  owner    : BitVec 8
  enc      : BitVec 2
  coloured : Bool
  sc       : Bool
  x        : Bool
  w        : Bool
  r        : Bool
  host     : Bool
  peer     : BitVec 19
  pa       : Nat
  size     : Nat
  deriving DecidableEq, Repr

/-- An engine command from acceptance on (R295, R304, R309): the block as the kick delivered it, the translations
held for its operands by virtual page, the issuer's sump registers, the bytes written (for VERIFY) and the hash of the
text (for DECRYPT), its progress, and its reads of host or peer memory that wait for completions (R346); `ended` once the entry of its last byte is written (R410). -/
structure Cmd where
  ticket  : Word
  origin  : Origin
  kind    : CmdKind
  src     : GReg
  dst     : GReg
  mbx     : GReg
  idx     : List Nat
  cnt     : GReg
  hasIdx  : Bool
  hasCnt  : Bool
  length  : Nat
  rows    : Nat
  sstride : Int
  dstride : Int
  flags   : BitVec 32
  channel : Nat
  ring    : BitVec 2
  fmt     : BitVec 32
  start   : Option Tick
  mbxval  : Word
  pages   : Assoc Leaf
  sovp    : Word
  sovl    : Word
  sump    : Nat
  aad     : BitVec 128
  ghash   : BitVec 128
  wrote   : List Byte
  state   : CmdState
  code    : BitVec 8
  cflag   : Bool
  beats   : Nat
  requests : List Request
  ended   : Bool
  slots   : List Nat := []
  deriving DecidableEq, Repr

/-- A culvert engine or a cistern: its accepted commands not yet complete, its acceptance count, and the last 64
commands it remembers (R294, R304, R308). -/
structure Engine where
  queue : List Cmd
  count : BitVec 32
  done  : List Cmd
  deriving DecidableEq, Repr

/-- What a cluster holds beside its cores (R3, R130, R234, R264, R292, R327); `serial` is that of the context it last
served, `frame` the next slot of the scratchpad's frame. -/
structure Cluster where
  context  : BitVec 8
  serial   : Nat
  half1    : Option Exemplar
  half2    : Option Exemplar
  culverts : Vector Engine 2
  pointer  : Nat
  turn     : Nat
  frame    : Nat
  inUse    : Bool
  deriving DecidableEq, Repr

/-- A monitor channel (R408); `spills` has the instructions whose overflow is not entered yet (R409). -/
structure Monitor where
  config : Word
  count  : Nat
  spills : List Sampled := []
  deriving DecidableEq, Repr

/-- What a die holds (R5, R210, R211, R225, R261, R266). -/
structure Die where
  atime     : Tick
  sync      : Bool
  healthy   : Bool
  counting  : Bool
  throttled : Bool
  draining  : Bool
  splitMib  : Nat
  reserved  : Nat
  monitors  : Vector Monitor 4
  events    : Nat
  deriving DecidableEq, Repr

/-- A translation buffer (R147): the micro-TLB of an agent, the TLB of a cluster, the shared TLB of a die. -/
inductive Buffer where
  | micro (a : AgentId)
  | cluster (k : Nat)
  | die (d : BitVec 2)
  deriving DecidableEq, Repr

/-- An entry of a translation buffer (R147). -/
structure TlbEntry where
  buffer  : Buffer
  context : BitVec 8
  va      : Nat
  leaf    : Leaf
  deriving DecidableEq, Repr

/-- A write on its way to its home (R123, R128, R361), or one performed at the host or a peer and not yet covered by a
system-scope release or acknowledged (R362); `agent` makes it (R120, R131), an engine for command `ticket`;
`fn` is the function whose requester ID it carries to the host (R343), `port` the port that it takes to a peer (R350); `whole`
lists the sectors that its instruction covers whole (R194); `dropped`: it is lost, or the peer has refused it, so that it is never
acknowledged (R351, R352). -/
structure Flight where
  loc     : Nat
  bytes   : List Byte
  cap     : Bool
  key     : Option Nat
  colour  : Option (BitVec 4)
  agent   : AgentId
  ticket  : Word
  origin  : Origin
  fn      : BitVec 6
  port    : Option (BitVec 4)
  va      : Addr
  pc      : Addr
  whole   : List Nat := []
  dropped : Bool := false
  deriving DecidableEq, Repr

/-- A timed store from acceptance on (R216 to R218): `arrival` is none on its way; `seq` numbers a peer's request (R348); `quiet`
once a DLMISS of its instruction has been raised (R199); `port` is the port that it takes to a peer (R350). -/
structure Timed where
  loc     : Nat
  bytes   : List Byte
  cap     : Bool
  key     : Option Nat
  t       : Tick
  device  : BitVec 19
  die     : BitVec 2
  agent   : Nat
  order   : Nat
  element : Nat
  homeDie : BitVec 2
  peer    : Option (BitVec 19)
  seq     : Nat
  quiet   : Bool
  origin  : Origin
  va      : Addr
  pc      : Addr
  least   : Tick
  arrival : Option Tick
  port    : Option (BitVec 4) := none
  deriving DecidableEq, Repr

/-- A home's report of a missed timed store (R222). -/
structure Miss where
  store  : Timed
  a      : Tick
  frozen : Bool
  deriving DecidableEq, Repr

/-- A write refused after a freeze instant (R361): plain, of a colour, an atomic with its operation and operands, or
timed. -/
structure Refused where
  loc     : Nat
  va      : Addr
  bytes   : List Byte
  cap     : Bool
  colour  : Option (BitVec 4)
  atomic  : Option (BitVec 3 × Bool × Word × Word)
  timed   : Option Timed
  origin  : Origin
  ticket  : Word
  pc      : Addr
  arrival : Tick
  deriving DecidableEq, Repr

/-- The launch descriptor (R257). -/
structure Desc where
  code    : GReg
  arg     : GReg
  entry   : Word
  dies    : BitVec 8
  clusters : Nat
  cores   : Nat
  cls     : BitVec 8
  sump    : Nat
  flags   : BitVec 16
  sovp    : Word
  sovl    : Word
  result  : GReg
  spad    : List (BitVec 32)
  dweir   : Word
  pweir   : BitVec 16
  flumes  : BitVec 16
  step    : BitVec 8
  start   : Tick
  waitctr : BitVec 16
  waitval : Word
  donectr : BitVec 16
  flcfg   : GReg
  zeros   : Bool
  deriving DecidableEq, Repr

/-- A flume configuration (R284). -/
structure FlumeCfg where
  channel : Nat
  op      : BitVec 2
  s32     : Bool
  all     : Bool
  cores   : BitVec 8
  rootCluster : Nat
  rootCore : Nat
  clmask  : BitVec 128
  ok      : Bool
  deriving DecidableEq, Repr

/-- The saved bytes of a TCM or a scratchpad region: cells, capability tags and colours, by offset (R271, R363). -/
structure Saved where
  key     : Nat
  cells   : List Host.Cell
  tags    : List Nat
  colours : Assoc (BitVec 4)
  deriving DecidableEq, Repr

/-- Items that wait on a team slot (R238, R239, R249): `count` items not started, from `index` on by `stride`, or one
that yielded and is saved, with its TCM, its overflow bytes and its culvert commands. `parent` is the level-1 index of a level-2 item. -/
structure Queued where
  level  : BitVec 2
  index  : Nat
  stride : Nat
  count  : Nat
  parent : Nat
  saved  : Option Core
  image  : Option Saved
  spill  : Option Saved
  commands : List (BitVec 1 × Cmd)
  deriving DecidableEq, Repr

/-- The two exemplar halves of one cluster, as preemption saves them (R251). -/
structure Halves where
  half1 : Option Exemplar
  half2 : Option Exemplar
  deriving DecidableEq, Repr

/-- A revival: the corpse and record it comes from, the record it reserves, the counter it signals (R381). -/
structure Revival where
  corpse  : BitVec 32
  source  : Nat
  record  : Nat
  counter : BitVec 12
  reviver : BitVec 8
  deriving DecidableEq, Repr

/-- One arrival at a weir (R274, R276). -/
structure Arrival where
  core : CoreId
  time : Tick
  deriving DecidableEq, Repr

/-- The gauge record (R280). -/
structure Gauge where
  earliest : Tick
  latest   : Tick
  spread   : Word
  members  : BitVec 32
  lastCore : BitVec 16
  lastDie  : BitVec 8
  channel  : BitVec 8
  gen      : Word
  step     : Word
  release  : Tick
  flags    : BitVec 32
  deriving DecidableEq, Repr

/-- A weir channel (R272 to R274). -/
structure Weir where
  owner    : BitVec 8
  task     : Option (BitVec 8 × BitVec 32)
  gen      : Nat
  arrived  : List Arrival
  members  : List CoreId
  leaving  : List CoreId
  resident : Bool
  last     : Option Gauge
  deriving DecidableEq, Repr

/-- One contribution to a flume round: 64 elements, none for an identity (R286, R288). -/
structure Contribution where
  core  : CoreId
  elems : List (Option (BitVec 32))
  deriving DecidableEq, Repr

/-- A flume channel (R284 to R287). -/
structure Flume where
  owner    : BitVec 8
  task     : Option (BitVec 8 × BitVec 32)
  config   : Option FlumeCfg
  members  : List CoreId
  leaving  : List CoreId
  resident : Bool
  round    : List Contribution
  results  : List (CoreId × List (BitVec 32) × Nat)
  deriving DecidableEq, Repr

/-- Where a task stands (R259, R271, R414). -/
inductive TaskState where
  | waiting | running | preempted | stopped | done | killed | refused
  deriving DecidableEq, Repr

/-- A task (R228, R231): descriptor, placement, items, and what it saves when it is preempted. -/
structure Task where
  context   : BitVec 8
  num       : BitVec 32
  desc      : Desc
  flcfg     : List FlumeCfg
  state     : TaskState
  cls       : BitVec 2
  seq       : Nat
  accepted  : Tick
  placed    : List (BitVec 2 × BitVec 7)
  shape     : List Nat
  slots     : List CoreId
  level     : BitVec 2
  n1        : Nat
  resident  : Bool
  queues    : Assoc (List Queued)
  retired1  : Nat
  retired2  : Nat
  live      : Nat
  step      : Word
  armed     : Bool
  stopping  : Bool
  commands  : List (BitVec 1 × Cmd)
  weirs     : Assoc Weir
  flumes    : Assoc Flume
  saved     : List Core
  images    : List Saved
  spads     : List Saved
  halves    : List Halves
  finished  : List Core
  revival   : Option Revival
  freezing  : Option (BitVec 32)
  deriving DecidableEq, Repr

/-- A LAUNCH or revival in a context's internal queue (R270, R381). -/
structure Launch where
  accession : Word
  desc      : Desc
  task      : BitVec 32
  flcfg     : List FlumeCfg
  code      : Option (BitVec 8)
  revival   : Option Revival
  deriving DecidableEq, Repr

/-- An entry of the accession journal (R259); `serial` is that of the context (R402). -/
structure Journal where
  accession : Word
  seq       : Nat
  accept    : Tick
  queue     : BitVec 8
  context   : BitVec 8
  opcode    : BitVec 16
  outcome   : BitVec 8
  cls       : BitVec 8
  task      : BitVec 32
  corpse    : BitVec 32
  done      : Tick
  result    : Word
  serial    : Nat := 0
  deriving DecidableEq, Repr

/-- A context (R227, R399); `reading` has the leader's loads of host or peer memory for its internal queue (R284, R346). -/
structure Ctx where
  num      : BitVec 8
  serial   : Nat
  fn       : BitVec 6
  root     : Nat
  counters : Assoc Word
  quota    : Nat
  charged  : Nat
  nextTask : BitVec 32
  accession : Word
  internal : List Launch
  mounts   : Assoc (BitVec 32 × Addr)
  lastSlot : Option Nat
  area     : Addr
  areaPa   : Nat
  trace    : Addr
  tracePa  : Nat
  traceLog : Nat
  written  : Nat
  migrating : Option (BitVec 19)
  reading  : List Request := []
  deriving DecidableEq, Repr

/-- SPDM connection states (R395). -/
inductive SpdmState where
  | none | versioned | capable | negotiated
  deriving DecidableEq, Repr

/-- A DOE mailbox's connection: its state, the transcripts, that of the key exchange, whether DHE and AEAD were selected, the
session's secret, whether it is finished, the binding whose guest established it, the messages sealed in it each way, and the
last response (R394 to R397, R401). -/
structure Spdm where
  state    : SpdmState
  vca      : List Byte
  certs    : List Byte
  meas     : List Byte
  keyed    : List Byte
  session  : Option (BitVec 384)
  finished : Bool
  guest    : Option Nat
  secure   : Bool
  sent     : Nat
  received : Nat
  response : List Byte
  deriving DecidableEq, Repr

/-- State of an intake queue (R255). -/
inductive QueueState where
  | stopped | retired | isOpen
  deriving DecidableEq, Repr

/-- A PCIe function: BAR0, its intake queue, its event stream and its mailbox (R253, R343, R344); `reading` has the loads of
host or peer memory by the leader of its queue (R256, R346); `binding` numbers the guest that TDISP binds it to (R401). -/
structure Fn where
  qbase  : Word
  qsize  : Word
  qtail  : Word
  qhead  : Word
  cbase  : Word
  csize  : Word
  chead  : Word
  ctail  : Word
  ebase  : Word
  esize  : Word
  ehead  : Word
  etail  : Word
  jsel   : Word
  refused : Bool
  qstate : QueueState
  expect : Word
  key    : BitVec 256
  leader : Option (BitVec 2)
  seq    : BitVec 32
  events : List FaultRec
  completions : List (List Byte)
  stream : List FaultRec
  master : Bool
  enabled : Bool
  tdi    : TdiState
  spdm   : Spdm
  reading : List Request := []
  binding : Option Nat := none
  deriving DecidableEq, Repr

/-- A decrypt channel (R302). -/
structure Channel where
  context : BitVec 8
  key     : BitVec 256
  next    : Word
  halted  : Bool
  deriving DecidableEq, Repr

/-- An item record of a corpse (R374); `reasons` are those of R364 that hold for it, `core` keeps the host and peer
requests that had not been answered (R360, R363). -/
structure ItemRec where
  item   : Nat
  label  : BitVec 2
  reason : BitVec 8
  reasons : List Nat
  state  : BitVec 2
  core   : Core
  pendG  : BitVec 32
  image  : Option Saved
  torn   : List Nat
  deriving DecidableEq, Repr

/-- A record of a corpse's directory (R373). -/
structure DirRec where
  task    : BitVec 32
  kind    : BitVec 2
  label   : BitVec 2
  reason  : BitVec 8
  reviver : BitVec 8
  time    : Tick
  newCorpse : BitVec 32
  source  : Nat
  off     : Nat
  items   : List ItemRec
  deriving DecidableEq, Repr

/-- Bytes, capability tags and colours as they stood at an instant (R369). -/
structure Snapshot where
  mem     : List Host.Cell
  tags    : List Nat
  colours : Assoc (BitVec 4)
  deriving DecidableEq, Repr

/-- Bytes of a context whose mapping is fixed when it is created: where they lie in its space and in device memory. -/
structure Extent where
  va    : Nat
  pa    : Nat
  bytes : Nat
  deriving DecidableEq, Repr

/-- A layer of a retained address space (R369): the pages that a revival copied, at locations from `base` on, or
what a page-table root maps beside what is mapped for good. -/
inductive Layer where
  | copies (base : Nat) (pages : List Nat) (shot : Snapshot)
  | tree (root : Nat) (fixed : List Extent) (owner : BitVec 8) (shot : Snapshot)
  deriving DecidableEq, Repr

/-- A corpse (R363 to R370): the header, the function of its context and that one's creation serial, the directory, what each
task saved, the command list, the refused writes, the writes and the requests to the host and to peers that were
outstanding, the retained space and that of each revival among its tasks, the labels of sectors that are not intact, and the torn
sectors of its scratchpad images by location (R366, R378). `copied` has the pages that a living holder has copied since, by
64 KiB, with the bytes charged and the youngest corpse that shares the copy (R367, R369); `revivals` the revivals among its
tasks whose own record waits until this one is complete (R384). -/
structure Corpse where
  id       : BitVec 32
  context  : BitVec 8
  fn       : BitVec 6
  cause    : BitVec 8
  freeze   : Tick
  quota    : Nat
  tasks    : Nat
  records  : List DirRec
  descs    : List Task
  commands : List (Cmd × BitVec 2 × BitVec 8)
  refused  : List Refused
  killer   : BitVec 8
  grants   : List (BitVec 8 × Nat)
  used     : Nat
  cmdlist  : Nat
  copied   : Assoc (Nat × BitVec 32)
  space    : List Layer
  spaces   : Assoc (List Layer)
  sectors  : Assoc (BitVec 2 × BitVec 8)
  spadTorn : List Nat
  guest    : Option Nat := none
  serial   : Nat := 0
  writes   : List Flight := []
  loads    : List (Origin × Request) := []
  revivals : List Task := []
  deriving DecidableEq, Repr

/-- A freeze that its instant has not reached (R358): the tasks named, or the whole context; the dies beyond a lost link and
the items whose requests it left unanswered (R385). -/
structure Freezing where
  id      : BitVec 32
  context : BitVec 8
  tasks   : Option (List (BitVec 32))
  cause   : BitVec 8
  code    : BitVec 8
  killer  : BitVec 8
  instant : Tick
  journal : List Nat
  lost    : List (BitVec 2)
  guest   : Option Nat := none
  cut     : List Origin := []
  deriving DecidableEq, Repr

/-- The overlay of a revival space (R382, R383): the reviver's task, the corpse, the pages copied (their
bytes stand in memory at locations of their own), and the sectors still tainted. -/
structure Overlay where
  task    : BitVec 32
  context : BitVec 8
  corpse  : BitVec 32
  space   : List Layer
  pages   : List Nat
  taint   : List Nat
  deriving DecidableEq, Repr

/-- A row of the import table (R351): a source may reach a page with permissions. -/
structure Import where
  device  : BitVec 19
  context : BitVec 8
  page    : Nat
  read    : Bool
  write   : Bool
  deriving DecidableEq, Repr

/-- What a request of a peer is answered with (R217, R222, R348, R351), and the receipt of a migration (R402). -/
inductive Answer where
  | data (bytes : List Byte)
  | ack
  | refused
  | missed (arrival : Tick)
  | receipt (context : BitVec 8) (signature : List Byte)
  deriving DecidableEq, Repr

/-- An answer on its way to a peer: the device, the sequence of its request, the answer. -/
structure Reply where
  device : BitVec 19
  seq    : Nat
  answer : Answer
  deriving DecidableEq, Repr

/-- The fabric (R212, R213, R348 to R353): ports, the routes of which the first to a device is used, latency entries held and withdrawn, FEED numbers, lost peers,
imports, what goes out, replays; whether the device is in discipline, the correction of the reference zone that is still
due, and the ticks since its last one. -/
structure Fabric where
  ports     : Vector (Option PortReport) 16
  up        : Vector Bool 16
  routes    : List (BitVec 19 × BitVec 4)
  latency   : List (BitVec 19 × Nat)
  feeds     : List (BitVec 19 × BitVec 16)
  lost      : List (BitVec 19)
  imports   : List Import
  forwarded : List (BitVec 4 × Flit)
  replies   : List Reply
  withdrawn : List (BitVec 19 × Nat)
  replays   : Vector Nat 16
  disciplined : Bool
  slew      : Int
  since     : Nat
  deriving DecidableEq, Repr

/-- The security core's state beside its registers (R392 to R394, R397, R399); `fresh` until the first context since
module reset is created, `draws` those of its DRBG, `bindings` the guests numbered so far, `sessions` the devices with which it
holds a session (R402). -/
structure Security where
  blocks  : Vector (BitVec 384) 16
  serials : Nat
  channels : Assoc Channel
  fresh   : Bool
  draws   : Nat := 0
  bindings : Nat := 0
  sessions : List (BitVec 19) := []
  deriving DecidableEq, Repr

/-- How far a migration has come (R402): at the source sealed or committed, at the destination installed. -/
inductive MigrationStage where
  | atSource | committed | installed
  deriving DecidableEq, Repr

/-- A migration of a context and of its creation serial: the device at the other end and the digest of the sealed state (R402). -/
structure Migration where
  context : BitVec 8
  device  : BitVec 19
  digest  : BitVec 384
  stage   : MigrationStage
  serial  : Nat := 0
  deriving DecidableEq, Repr

/-- What the surroundings do next: a step of the opcode table, one instruction of the agent in focus, another agent
taking the focus, the number of ticks that each later step takes, a parcel that leaves or enters an instruction
cache by prefetch (R135), the clusters that a die's firmware reserves for class 0, in steps of eight (R266), or a session with
another security core that begins or ends (R402). The model's own. -/
inductive Move where
  | event (i : Instr)
  | run
  | focus (a : AgentId)
  | pace (ticks : Nat)
  | evict (a : AgentId) (loc : Nat)
  | prefetch (a : AgentId) (va : Addr)
  | reserve (die : BitVec 2) (eights : Nat)
  | session (device : BitVec 19) (up : Bool)
  deriving DecidableEq, Repr

/-- The module. -/
structure State where
  core      : Core
  parked    : List Core
  script    : List Move
  pace      : Nat
  stalled   : Bool
  still     : Bool
  hold      : Bool
  free      : Nat
  mem       : List Host.Cell
  tags      : List Nat
  colours   : Assoc (BitVec 4)
  lines     : Assoc Nat
  bad       : List Nat
  tlb       : List TlbEntry
  flights   : List Flight
  posted    : List Flight
  timed     : List Timed
  misses    : List Miss
  dies      : Vector Die 4
  clusters  : Assoc Cluster
  cisterns  : Vector Engine 16
  contexts  : Assoc Ctx
  tasks     : List Task
  journal   : List Journal
  nextSeq   : Nat
  pattern   : Nat
  fns       : Assoc Fn
  internalLeader : Assoc (BitVec 2)
  weirs     : Assoc Weir
  flumes    : Assoc Flume
  owners    : Assoc (BitVec 8)
  corpses   : List Corpse
  freezing  : List Freezing
  placedIds : Assoc Nat
  overlays  : List Overlay
  fabric    : Fabric
  sec       : Security
  device    : BitVec 19
  feed      : BitVec 16
  reference : BitVec 2
  absent    : List CoreId
  hbms      : List Nat
  withheld  : List Nat
  powerCap  : Nat
  hostAtomics : Bool
  flitMode  : Bool
  coolantOk : Bool
  deviceErrors : List AgentId
  migrations : List Migration
  frozen    : Bool
  deriving DecidableEq, Repr

/-- Why the machine stops with a fault. -/
inductive Fault where
  /-- Raised by `step` once the ROM has refused the security core's firmware and halted the module (R392), or the
  module has no power. Safe: the module runs nothing until the next module reset. -/
  | moduleHalted
  deriving DecidableEq, Repr

/-- Why an instruction has no meaning. -/
inductive Refusal where
  /-- Raised by an arm of `exec` whose instruction has no meaning yet. Safe: nothing is claimed of it. -/
  | notModelled (mnemonic : String)
  deriving DecidableEq, Repr

/-! ## The origin of accesses -/

/-- What the agent in hand issues belongs to. -/
def Core.origin (c : Core) : Origin :=
  ⟨c.acts.getD c.agent, c.owner, c.ident.task, c.ident.item, c.ident.level, c.ident.parent, c.ident.step⟩

def Cmd.issuer (c : Cmd) : AgentId := c.origin.agent
def Cmd.context (c : Cmd) : BitVec 8 := c.origin.context
def Cmd.task (c : Cmd) : BitVec 32 := c.origin.task
def Cmd.item (c : Cmd) : Nat := c.origin.item
def Flight.issuer (f : Flight) : AgentId := f.origin.agent
def Flight.context (f : Flight) : BitVec 8 := f.origin.context
def Flight.task (f : Flight) : BitVec 32 := f.origin.task
def Timed.issuer (x : Timed) : AgentId := x.origin.agent
def Timed.context (x : Timed) : BitVec 8 := x.origin.context
def Timed.task (x : Timed) : BitVec 32 := x.origin.task
def Refused.task (r : Refused) : BitVec 32 := r.origin.task

/-! ## Reset -/

def Csrs.reset : Csrs := ⟨0, 0, 0, .null, 0, 0, 0, 0x7D00, 0, 0⟩
def Deadline.clear : Deadline := ⟨0, 0, 0, 0, 0, 0⟩
def Ident.none : Ident := ⟨0, 1, 0, 0, 0, 0, 0, 0, 0, 16384⟩
def Acc.zero : Acc := ⟨.wide, [], false, false, false, false⟩
/-- R313: format word 0, generation 0, rings undefined, accumulators +0, no restart record. -/
def MatCore.start : MatCore := ⟨[], Vector.replicate 4 .zero, ⟨0, 0⟩, Vector.replicate 4 none, none⟩

/-- The whole space with every permission, cursor at 0 (R57: e 33, m 0x8000). -/
def allSpace : GReg :=
  ⟨(0x1F : BitVec 10).setWidth 128 <<< 118 ||| (0x8000 : BitVec 128) <<< 102 ||| (33 : BitVec 128) <<< 96, true⟩

/-- An agent with no program: registers zero, CSRs at R68's reset values. -/
def Core.idle (a : AgentId) : Core :=
  { agent := a, owner := 0, run := .idle, g := Vector.replicate 32 .null, v := Vector.replicate 32 0,
    p := Vector.replicate 16 0, gInh := 0, gPois := 0, vInh := 0, vPois := 0, pInh := 0, pPois := 0, pcc := .null,
    csr := .reset, handler := false, pending := [], dead := .clear, last := none, ident := .none, regionBase := 0,
    regionLen := 0, resident := false, own := [], mx := .start, lastArr := [], wait := none, issued := 0,
    lfsr := 0, acts := none, icache := [], ir := [] }

/-- The security core as it comes out of reset (R392): firmware mode, on die 0. -/
def Core.security : Core := { Core.idle .security with run := .firmware, pcc := allSpace }

def Engine.empty : Engine := ⟨[], 0, []⟩
def Cluster.reset : Cluster := ⟨0, 0, none, none, Vector.replicate 2 .empty, 0, 0, 0, false⟩
def Die.reset : Die := ⟨0, true, true, true, false, false, 64, 16, Vector.replicate 4 ⟨0, 0, []⟩, 0⟩
def Spdm.reset : Spdm := ⟨.none, [], [], [], [], none, false, none, false, 0, 0, []⟩
/-- R344: every register 0, and the queue OPEN, as QSTATE 0 says. -/
def Fn.reset : Fn :=
  { qbase := 0, qsize := 0, qtail := 0, qhead := 0, cbase := 0, csize := 0, chead := 0, ctail := 0, ebase := 0,
    esize := 0, ehead := 0, etail := 0, jsel := 0, refused := false, qstate := .isOpen, expect := 0, key := 0,
    leader := none, seq := 0, events := [], completions := [], stream := [], master := false, enabled := false,
    tdi := .unlocked, spdm := .reset }
def Weir.reset : Weir := ⟨0, none, 0, [], [], [], false, none⟩
def Flume.reset : Flume := ⟨0, none, none, [], [], false, [], []⟩
def Fabric.reset : Fabric :=
  ⟨Vector.replicate 16 none, Vector.replicate 16 false, [], [], [], [], [], [], [], [], Vector.replicate 16 0, true, 0, 0⟩
def Security.reset : Security := { blocks := Vector.replicate 16 0, serials := 0, channels := [], fresh := true }

/-- The machine right after module reset: every zone at ATIME 0 and synchronised (R211), no context, memory with
nothing listed, and the security core, which boots first (R392), in focus. -/
def State.reset : State :=
  { core := .security, parked := [], script := [], pace := 9, stalled := false, still := false, hold := false, free := 0, mem := [],
    tags := [], colours := [], lines := [], bad := [], tlb := [], flights := [], posted := [], timed := [], misses := [],
    dies := Vector.replicate 4 .reset, clusters := [], cisterns := Vector.replicate 16 .empty, contexts := [],
    tasks := [], journal := [], nextSeq := 0, pattern := 0, fns := [], internalLeader := [], weirs := [], flumes := [],
    owners := [], corpses := [], freezing := [], placedIds := [], overlays := [], fabric := .reset, sec := .reset,
    device := 0, feed := 0xFFFF, reference := 0, absent := [], hbms := upFrom 0 16, withheld := [], powerCap := 2800,
    hostAtomics := true, flitMode := true, coolantOk := true, deviceErrors := [], migrations := [], frozen := false }

end Sys2Proof.Machine
end

