-- ==== Sys2Proof/Machine/Caps.lean ====
section
/-! DEFINITION. Capabilities (R56, R57), the numbering of agents (R2, R218), and the registers of the agent in
focus (R53, R54, R241). -/

namespace Sys2Proof

/-! ## Agents -/

/-- Number of a core among the module's 4,096. -/
def CoreId.index (c : CoreId) : Nat := c.die.toNat * 1024 + c.core.toNat
/-- R2: cluster number within the die. -/
def CoreId.cluster (c : CoreId) : Nat := (c.core.toNat / 64) * 8 + (c.core.toNat % 32) / 4
/-- R2: core-in-cluster. -/
def CoreId.inCluster (c : CoreId) : Nat := (c.core.toNat / 32 % 2) * 4 + c.core.toNat % 4
/-- Number of the core's cluster among the module's 512. -/
def CoreId.clusterKey (c : CoreId) : Nat := c.die.toNat * 128 + c.cluster
/-- The core of a cluster with the given core-in-cluster (R2). -/
def coreOf (die : BitVec 2) (cluster j : Nat) : CoreId :=
  ⟨die, BitVec.ofNat 10 ((2 * (cluster / 8) + j / 4) * 32 + 4 * (cluster % 8) + j % 4)⟩

def AgentId.die : AgentId → BitVec 2
  | .core c => c.die
  | .culvert c => c.die
  | .scheduler d => d
  | .archivist d => d
  | .security => 0
  | .cistern k => k.extractLsb' 2 2
  | .matrix d _ => d
/-- R120: the cluster of an agent that has one. -/
def AgentId.cluster : AgentId → Option Nat
  | .core c => some c.clusterKey
  | .culvert c => some (c.die.toNat * 128 + c.cluster.toNat)
  | .matrix d k => some (d.toNat * 128 + k.toNat)
  | _ => none
/-- R218: the agent number of the equal-time key; cisterns and matrix units issue no timed stores. -/
def AgentId.number : AgentId → Nat
  | .core c => c.core.toNat
  | .culvert c => 1024 + 2 * c.cluster.toNat + c.index.toNat
  | .scheduler _ => 2048
  | .archivist _ => 2049
  | .security => 2050
  | .cistern _ => 0
  | .matrix _ _ => 0
/-- Which private memory an agent's TCM addresses reach; an engine has none of its own. -/
def AgentId.memIndex : AgentId → Nat
  | .core c => c.index
  | .scheduler d => 4096 + d.toNat
  | .archivist d => 4100 + d.toNat
  | .security => 4104
  | .culvert c => 4105 + (c.die.toNat * 128 + c.cluster.toNat) * 2 + c.index.toNat
  | .cistern _ => 0
  | .matrix _ _ => 0
/-- Core number that a record or RDID gives for an agent. DESIGN CHOICE (assumption 133): 0 for an agent that is no core. -/
def AgentId.coreNumber : AgentId → BitVec 10
  | .core c => c.core
  | _ => 0

end Sys2Proof

namespace Sys2Proof.Machine

/-! ## Fields of a capability -/

def GReg.cursor (c : GReg) : Addr := c.bits.extractLsb' 0 48
def GReg.base (c : GReg) : Addr := c.bits.extractLsb' 48 48
def GReg.e (c : GReg) : BitVec 6 := c.bits.extractLsb' 96 6
def GReg.m (c : GReg) : BitVec 16 := c.bits.extractLsb' 102 16
def GReg.permR (c : GReg) : Bool := c.bits.getLsbD 118
def GReg.permW (c : GReg) : Bool := c.bits.getLsbD 119
def GReg.permX (c : GReg) : Bool := c.bits.getLsbD 120
def GReg.permK (c : GReg) : Bool := c.bits.getLsbD 121
def GReg.permT (c : GReg) : Bool := c.bits.getLsbD 122
def GReg.isSealed (c : GReg) : Bool := c.bits.getLsbD 123
def GReg.colour (c : GReg) : BitVec 4 := c.bits.extractLsb' 124 4
/-- R, W, X, K, T in the order of KPRM's mask (R106). -/
def GReg.perms (c : GReg) : BitVec 5 := c.bits.extractLsb' 118 5
/-- R57. -/
def GReg.length (c : GReg) : Nat := c.m.toNat <<< c.e.toNat
/-- Offset of the cursor from the base (R108). -/
def GReg.offset (c : GReg) : Nat := (c.cursor - c.base).toNat

/-- A tagged capability from its fields. -/
def mkCap (colour : BitVec 4) (isSealed : Bool) (perms : BitVec 5) (m : BitVec 16) (e : BitVec 6) (base cursor : Addr) : GReg :=
  ⟨colour ++ BitVec.ofBool isSealed ++ perms ++ m ++ e ++ base ++ cursor, true⟩

def GReg.setCursor (c : GReg) (a : Addr) : GReg :=
  ⟨c.bits.extractLsb' 48 80 ++ a, c.tag⟩

/-- R105: the smallest representable length not below `len`, as mantissa and exponent. -/
def lengthCode (len : Nat) : BitVec 16 × BitVec 6 :=
  let e := (if len = 0 then 0 else len.log2 + 1) - 16
  let m := (len + 2 ^ e - 1) / 2 ^ e
  if m = 2 ^ 16 then (0x8000, BitVec.ofNat 6 (e + 1)) else (BitVec.ofNat 16 m, BitVec.ofNat 6 e)

/-- R57: the `n` bytes from `a` all lie within the bounds. -/
def GReg.inBounds (c : GReg) (a : Addr) (n : Nat) : Bool :=
  c.length = 2 ^ 48 || (a - c.base).toNat + n ≤ c.length

/-- R103: the bounds of `x` lie within those of `y`. -/
def GReg.within (x y : GReg) : Bool := (x.base - y.base).toNat + x.length ≤ y.length

/-! ## Finding and replacing agents -/

def parkedGet : List Core → AgentId → Option Core
  | [], _ => none
  | c :: rest, a => if c.agent = a then some c else parkedGet rest a

def parkedPut : List Core → Core → List Core
  | [], d => [d]
  | c :: rest, d => if c.agent = d.agent then d :: rest else c :: parkedPut rest d

def parkedDel : List Core → AgentId → List Core
  | [], _ => []
  | c :: rest, a => if c.agent = a then rest else c :: parkedDel rest a

/-- An agent of the module as it stands: the one in focus, one beside it, or one that has never run. -/
def State.agent (s : State) (a : AgentId) : Core :=
  if s.core.agent = a then s.core else (parkedGet s.parked a).getD { Core.idle a with
    owner := match a with | .core c => assocGetD s.owners c.index 0 | _ => 0,
    run := match a with | .scheduler _ => .firmware | .archivist _ => .firmware | .security => .firmware | _ => .idle }

def State.setAgent (s : State) (c : Core) : State :=
  if s.core.agent = c.agent then { s with core := c } else { s with parked := parkedPut s.parked c }

/-- The focus moves to another agent. -/
def State.focus (s : State) (a : AgentId) : State :=
  if s.core.agent = a then s
  else { s with core := s.agent a, parked := parkedPut (parkedDel s.parked a) s.core, stalled := false }

def State.setCore (s : State) (c : Core) : State := { s with core := c }

/-! ## Registers -/

/-- R53: a general register; g0 reads as null. -/
def State.g (s : State) (n : RegNum) : GReg := if n = 0 then .null else s.core.g[n.toNat]
/-- R76: Gint(n). -/
def State.gint (s : State) (n : RegNum) : Word := (s.g n).bits.setWidth 64
def State.v (s : State) (n : RegNum) : VReg := s.core.v[n.toNat]
/-- R54: a predicate register; p0 reads as all ones. -/
def State.p (s : State) (n : PredNum) : PReg := if n = 0 then BitVec.allOnes 256 else s.core.p[n.toNat]

/-- A set of register bits without bit `n`. -/
def clearBit {w : Nat} (m : BitVec w) (n : Nat) : BitVec w := m &&& ~~~(BitVec.twoPow w n)

/-- R53, R241: a write of the whole register; a write to g0 is discarded. -/
def State.setG (s : State) (n : RegNum) (x : GReg) : State :=
  if n = 0 then s
  else { s with core := { s.core with
    g := s.core.g.set n.toNat x, gInh := clearBit s.core.gInh n.toNat, gPois := clearBit s.core.gPois n.toNat } }

/-- R53: an untagged integer. -/
def intReg (x : Word) : GReg := ⟨x.setWidth 128, false⟩
/-- R76: SetInt. -/
def State.setInt (s : State) (n : RegNum) (x : Word) : State := s.setG n (intReg x)

def State.setV (s : State) (n : RegNum) (x : VReg) : State :=
  { s with core := { s.core with
    v := s.core.v.set n.toNat x, vInh := clearBit s.core.vInh n.toNat, vPois := clearBit s.core.vPois n.toNat } }

/-- R54: a write to p0 is discarded. -/
def State.setP (s : State) (n : PredNum) (x : PReg) : State :=
  if n = 0 then s
  else { s with core := { s.core with
    p := s.core.p.set n.toNat x, pInh := clearBit s.core.pInh n.toNat, pPois := clearBit s.core.pPois n.toNat } }

/-- The PC of the agent in focus (R52). -/
def State.pc (s : State) : Addr := s.core.pcc.cursor
def State.setPc (s : State) (a : Addr) : State := { s with core := { s.core with pcc := s.core.pcc.setCursor a } }
def State.setPcc (s : State) (c : GReg) : State := { s with core := { s.core with pcc := c } }

def State.die (s : State) : Die := s.dies[s.core.agent.die.toNat]
/-- ATIME of the zone of the agent in focus (R210). -/
def State.now (s : State) : Tick := s.die.atime
/-- R210: package time is the time of the reference zone. -/
def State.packageTime (s : State) : Tick := s.dies[s.reference.toNat].atime

/-- R48: the agent in focus runs in item mode. -/
def State.itemMode (s : State) : Bool := s.core.run = .item

/-! ## What an instruction's body can end in -/

/-- A precise fault: code, ADDRESS and DETAIL of its record (R140). -/
structure Trap where
  code   : BitVec 8
  addr   : Word
  detail : Word
  deriving DecidableEq, Repr

/-- A body ends in a precise fault; or it waits and is executed again, with nothing of it remaining (`wait`) or with
what it has performed so far (`hold`). -/
inductive Stop where
  | trap (t : Trap)
  | wait (w : Wait)
  | hold (s : State) (w : Wait)
  deriving DecidableEq, Repr

abbrev R (α : Type) := Except Stop α

def trap {α : Type} (code : BitVec 8) (detail : Word := 0) (addr : Word := 0) : R α := .error (.trap ⟨code, addr, detail⟩)

/-! Fault codes of R139. -/
abbrev cILL : BitVec 8 := 0x01
abbrev cPRIV : BitVec 8 := 0x02
abbrev cPFXC : BitVec 8 := 0x03
abbrev cALIGN : BitVec 8 := 0x04
abbrev cKTAG : BitVec 8 := 0x05
abbrev cKBND : BitVec 8 := 0x06
abbrev cKPRM : BitVec 8 := 0x07
abbrev cKSEAL : BitVec 8 := 0x08
abbrev cMTAG : BitVec 8 := 0x09
abbrev cXN : BitVec 8 := 0x0A
abbrev cRO : BitVec 8 := 0x0B
abbrev cTRANS : BitVec 8 := 0x0C
abbrev cALIAS : BitVec 8 := 0x0D
abbrev cOWNER : BitVec 8 := 0x0E
abbrev cSUMP : BitVec 8 := 0x0F
abbrev cCOPY : BitVec 8 := 0x10
abbrev cDLINF : BitVec 8 := 0x11
abbrev cDLMISS : BitVec 8 := 0x12
abbrev cTIMING : BitVec 8 := 0x13
abbrev cRSEQ : BitVec 8 := 0x14
abbrev cMFMT : BitVec 8 := 0x15
abbrev cBAR : BitVec 8 := 0x16
abbrev cHATOM : BitVec 8 := 0x17
abbrev cHOST : BitVec 8 := 0x18
abbrev cINTEG : BitVec 8 := 0x19
abbrev cCORPSE : BitVec 8 := 0x1A
abbrev cREVIVE : BitVec 8 := 0x1B
abbrev cFPX : BitVec 8 := 0x1C
abbrev cSWTRAP : BitVec 8 := 0x1D
abbrev cLINK : BitVec 8 := 0x1E
abbrev cFEED : BitVec 8 := 0x1F
abbrev cTAINT : BitVec 8 := 0x20
abbrev cPREEMPTED : BitVec 8 := 0x30
abbrev cKILLED : BitVec 8 := 0x31

/-- R236: COPY of a poisoned register names it: file 0 g, 1 v, 2 p. -/
def copyTrap {α : Type} (file n : Nat) : R α := trap cCOPY (BitVec.ofNat 64 (n * 16 + file * 512))

/-- R241: a register is read: what it inherits has been fetched. -/
def State.gotG (s : State) (n : RegNum) : State := { s with core := { s.core with gInh := clearBit s.core.gInh n.toNat } }
def State.gotV (s : State) (n : RegNum) : State := { s with core := { s.core with vInh := clearBit s.core.vInh n.toNat } }
def State.gotP (s : State) (n : PredNum) : State := { s with core := { s.core with pInh := clearBit s.core.pInh n.toNat } }

/-- R241: the general registers are read: COPY on a poisoned one, an inherited one fetched. -/
def State.useG (s : State) : List RegNum → R State
  | [] => .ok s
  | n :: rest =>
    if n ≠ 0 && s.core.gPois.getLsbD n.toNat then copyTrap 0 n.toNat
    else State.useG (s.gotG n) rest

def State.useV (s : State) : List RegNum → R State
  | [] => .ok s
  | n :: rest =>
    if s.core.vPois.getLsbD n.toNat then copyTrap 1 n.toNat
    else State.useV (s.gotV n) rest

def State.useP (s : State) : List PredNum → R State
  | [] => .ok s
  | n :: rest =>
    if n ≠ 0 && s.core.pPois.getLsbD n.toNat then copyTrap 2 n.toNat
    else State.useP (s.gotP n) rest

end Sys2Proof.Machine
end

