-- ==== Sys2Proof/Machine/Flags.lean ====
section
/-! DEFINITION. Floating-point numbers as exact dyadic rationals, the one rounding of R153 to R156, the exception flags
of R155, and FCSR (R69, R115). -/

namespace Sys2Proof.Machine

/-! ## Formats (R150) -/

/-- A floating format: width, fraction bits, bias. -/
structure Fmt where
  width : Nat
  fbits : Nat
  bias  : Nat
  e4m3  : Bool
  deriving DecidableEq, Repr

def fmtOf : FTy → Fmt
  | .f64 => ⟨64, 52, 1023, false⟩
  | .f32 => ⟨32, 23, 127, false⟩
  | .bf16 => ⟨16, 7, 127, false⟩
  | .f16 => ⟨16, 10, 15, false⟩
  | .e4m3 => ⟨8, 3, 7, true⟩
  | .e5m2 => ⟨8, 2, 15, false⟩

def Fmt.ebits (f : Fmt) : Nat := f.width - 1 - f.fbits
def Fmt.expMax (f : Fmt) : Nat := 2 ^ f.ebits - 1
/-- Magnitude bits of an infinity (for e4m3, of its NaN). -/
def Fmt.infBits (f : Fmt) : Nat := if f.e4m3 then 0x7F else f.expMax * 2 ^ f.fbits
/-- R150, R152: the canonical NaN. -/
def Fmt.nanBits (f : Fmt) : Nat := if f.e4m3 then 0x7F else f.infBits + 2 ^ (f.fbits - 1)
/-- Magnitude bits of the largest finite number. -/
def Fmt.maxBits (f : Fmt) : Nat := f.infBits - 1
def Fmt.sign (f : Fmt) (neg : Bool) : Nat := if neg then 2 ^ (f.width - 1) else 0
/-- R154: the formats that FTZ concerns. -/
def Fmt.flushes (f : Fmt) : Bool := f.width ≠ 8

/-- A number read from a format: (−1)^neg × m × 2^e. -/
inductive Fp where
  | nan (signalling : Bool)
  | inf (neg : Bool)
  | fin (neg : Bool) (m : Nat) (e : Int)
  deriving DecidableEq, Repr

/-- R151, with the input flush of R154. -/
def Fmt.read (f : Fmt) (ftz : Bool) (bits : Nat) : Fp :=
  let neg := (bits >>> (f.width - 1)) % 2 = 1
  let mag := bits % 2 ^ (f.width - 1)
  let ex := mag >>> f.fbits
  let fr := mag % 2 ^ f.fbits
  if f.e4m3 && mag = 0x7F then .nan false
  else if !f.e4m3 && ex = f.expMax then (if fr = 0 then .inf neg else .nan (fr < 2 ^ (f.fbits - 1)))
  else if ex = 0 then .fin neg (if ftz && f.flushes then 0 else fr) (1 - (f.bias : Int) - f.fbits)
  else .fin neg (fr + 2 ^ f.fbits) ((ex : Int) - f.bias - f.fbits)

/-! ## Exceptions (R155), in the order of FCSR[8:4] -/

abbrev Exc := BitVec 5
abbrev eNV : Exc := 1
abbrev eDZ : Exc := 2
abbrev eOF : Exc := 4
abbrev eUF : Exc := 8
abbrev eNX : Exc := 16

/-- Rounding modes (R153). -/
inductive Rm where
  | rne | rtz | rdn | rup
  deriving DecidableEq, Repr

def Rm.ofBits (b : BitVec 2) : Rm := if b = 0 then .rne else if b = 1 then .rtz else if b = 2 then .rdn else .rup

/-- An exact result before rounding; `sticky`: a positive amount below one unit of `m` is left over. -/
inductive Exact where
  | nan (x : Exc)
  | inf (neg : Bool) (x : Exc)
  | num (neg : Bool) (m : Nat) (e : Int) (sticky : Bool) (x : Exc)
  deriving DecidableEq, Repr

/-! ## Rounding -/

/-- Bits in a number. -/
def bitLen (n : Nat) : Nat := if n = 0 then 0 else n.log2 + 1

/-- `m × 2^-sh` rounded to an integer, and whether that changed it. -/
def roundShift (rm : Rm) (neg : Bool) (m : Nat) (sh : Int) (sticky : Bool) : Nat × Bool :=
  if sh ≤ 0 then (m <<< (-sh).toNat, sticky)
  else
    let k := sh.toNat
    let q := m >>> k
    let r := m % 2 ^ k
    let half := 2 ^ (k - 1)
    let inexact := r ≠ 0 || sticky
    let up := match rm with
      | .rne => half < r || r = half && (sticky || q % 2 = 1)
      | .rtz => false
      | .rdn => inexact && neg
      | .rup => inexact && !neg
    (if up then q + 1 else q, inexact)

/-- R156: what an overflow writes. -/
def Fmt.overflow (f : Fmt) (rm : Rm) (neg : Bool) : Nat :=
  let max := match rm with | .rne => false | .rtz => true | .rdn => !neg | .rup => neg
  f.sign neg + (if max || f.e4m3 then f.maxBits else f.infBits)

/-- R153 to R156: one rounding of a finite value to a format, with the flags that it raises. -/
def Fmt.round (f : Fmt) (rm : Rm) (ftz : Bool) (neg : Bool) (m : Nat) (e : Int) (sticky : Bool) : Nat × Exc :=
  if m = 0 && !sticky then (f.sign neg, 0)
  else
    let emin : Int := 1 - (f.bias : Int)
    let q0 : Int := e + bitLen m - (f.fbits + 1)
    let (r0, _) := roundShift rm neg m (q0 - e) sticky
    let q : Int := max q0 (emin - f.fbits)
    let (r, inexact) := roundShift rm neg m (q - e) sticky
    let mag : Nat := if r < 2 ^ f.fbits then r else ((q + f.fbits + f.bias).toNat - 1) * 2 ^ f.fbits + r
    let tiny := q0 + f.fbits < emin && !(r0 = 2 ^ (f.fbits + 1) && q0 + f.fbits + 1 = emin)
    if f.maxBits < mag || (f.expMax + 1 : Int) < q + f.fbits + f.bias then (f.overflow rm neg, eOF ||| eNX)
    else if ftz && f.flushes && tiny then (f.sign neg, eUF ||| eNX)
    else (f.sign neg + mag, if inexact then (if tiny then eUF ||| eNX else eNX) else 0)

/-- An exact result written in a format. An infinity has no encoding in e4m3: its NaN is written, with NV, in
place of DZ too (R156, R173). -/
def Fmt.finish (f : Fmt) (rm : Rm) (ftz : Bool) : Exact → Nat × Exc
  | .nan x => (f.nanBits, x)
  | .inf neg x => if f.e4m3 then (f.nanBits, (x &&& ~~~eDZ) ||| eNV) else (f.sign neg + f.infBits, x)
  | .num neg m e sticky x =>
    let (b, y) := f.round rm ftz neg m e sticky
    (b, x ||| y)

/-- A number written unchanged, a NaN canonical. -/
def Fmt.write (f : Fmt) : Fp → Nat
  | .nan _ => f.nanBits
  | .inf neg => f.sign neg + f.infBits
  | .fin neg m e => (f.round .rne false neg m e false).1

/-! ## Operations on numbers -/

def Fp.neg : Fp → Fp
  | .nan s => .nan s
  | .inf n => .inf (!n)
  | .fin n m e => .fin (!n) m e

def Fp.isNan : Fp → Bool
  | .nan _ => true
  | _ => false
/-- R155: an operand that is a signalling NaN raises NV. -/
def Fp.snan : Fp → Exc
  | .nan true => eNV
  | _ => 0

/-- A signed magnitude as an integer multiple of 2^e. -/
def scaled (neg : Bool) (m : Nat) (e lo : Int) : Int :=
  let v : Int := (m <<< (e - lo).toNat : Nat)
  if neg then -v else v

/-- An exact integer multiple of 2^e as a result; a zero takes the sign given. -/
def Exact.ofInt (v : Int) (e : Int) (zeroNeg : Bool) : Exact :=
  if v = 0 then .num zeroNeg 0 0 false 0 else .num (v < 0) v.natAbs e false 0

/-- The sum of two exact values, a zero sum being −0 under RDN alone unless both are zeros of one sign. -/
def sumExact (rm : Rm) (n1 : Bool) (m1 : Nat) (e1 : Int) (n2 : Bool) (m2 : Nat) (e2 : Int) : Exact :=
  let lo := min e1 e2
  let zeroNeg := if m1 = 0 && m2 = 0 && n1 = n2 then n1 else rm = .rdn
  Exact.ofInt (scaled n1 m1 e1 lo + scaled n2 m2 e2 lo) lo zeroNeg

def Fp.add (rm : Rm) (x y : Fp) : Exact :=
  match x, y with
  | .nan _, _ => .nan (x.snan ||| y.snan)
  | _, .nan _ => .nan (x.snan ||| y.snan)
  | .inf a, .inf b => if a = b then .inf a 0 else .nan eNV
  | .inf a, _ => .inf a 0
  | _, .inf b => .inf b 0
  | .fin n1 m1 e1, .fin n2 m2 e2 => sumExact rm n1 m1 e1 n2 m2 e2

def Fp.mul (x y : Fp) : Exact :=
  match x, y with
  | .nan _, _ => .nan (x.snan ||| y.snan)
  | _, .nan _ => .nan (x.snan ||| y.snan)
  | .inf a, .inf b => .inf (a ^^ b) 0
  | .inf a, .fin n m _ => if m = 0 then .nan eNV else .inf (a ^^ n) 0
  | .fin n m _, .inf b => if m = 0 then .nan eNV else .inf (n ^^ b) 0
  | .fin n1 m1 e1, .fin n2 m2 e2 => .num (n1 ^^ n2) (m1 * m2) (e1 + e2) false 0

/-- x × y + z with one rounding. 0 × ∞ raises NV whatever z is. -/
def Fp.fma (rm : Rm) (x y z : Fp) : Exact :=
  let sig := x.snan ||| y.snan ||| z.snan
  match x.mul y with
  | .nan e => .nan (e ||| sig)
  | .inf a e =>
    match z with
    | .nan _ => .nan sig
    | .inf b => if a = b then .inf a e else .nan eNV
    | .fin _ _ _ => .inf a e
  | .num n m e _ _ =>
    match z with
    | .nan _ => .nan sig
    | .inf b => .inf b 0
    | .fin n2 m2 e2 => sumExact rm n m e n2 m2 e2

/-- x / y: enough quotient bits for any format, and whether a remainder is left. -/
def Fp.div (x y : Fp) : Exact :=
  match x, y with
  | .nan _, _ => .nan (x.snan ||| y.snan)
  | _, .nan _ => .nan (x.snan ||| y.snan)
  | .inf _, .inf _ => .nan eNV
  | .inf a, .fin n _ _ => .inf (a ^^ n) 0
  | .fin n _ _, .inf b => .num (n ^^ b) 0 0 false 0
  | .fin n1 m1 e1, .fin n2 m2 e2 =>
    if m2 = 0 then (if m1 = 0 then .nan eNV else .inf (n1 ^^ n2) eDZ)
    else if m1 = 0 then .num (n1 ^^ n2) 0 0 false 0
    else
      let k := 64 + bitLen m2
      let p := m1 <<< k
      .num (n1 ^^ n2) (p / m2) (e1 - e2 - k) (p % m2 ≠ 0) 0

/-- The integer square root, one bit at a time from bit `b`. -/
def isqrtFrom (n : Nat) : Nat → Nat → Nat
  | 0, r => if (r + 1) * (r + 1) ≤ n then r + 1 else r
  | b + 1, r => isqrtFrom n b (if (r + 2 ^ (b + 1)) * (r + 2 ^ (b + 1)) ≤ n then r + 2 ^ (b + 1) else r)
def isqrt (n : Nat) : Nat := isqrtFrom n (bitLen n / 2) 0

def Fp.sqrt : Fp → Exact
  | .nan s => .nan (Fp.nan s).snan
  | .inf neg => if neg then .nan eNV else .inf false 0
  | .fin neg m e =>
    if m = 0 then .num neg 0 0 false 0
    else if neg then .nan eNV
    else
      let odd := e % 2 ≠ 0
      let m' := (if odd then 2 * m else m) <<< 128
      let e' := (if odd then e - 1 else e) - 128
      let r := isqrt m'
      .num false r (e' / 2) (r * r ≠ m') 0

/-- R113: −0 below +0, both otherwise by value; infinities at the ends. NaN is not ordered here. -/
def Fp.less (x y : Fp) : Bool :=
  match x, y with
  | .inf a, .inf b => a && !b
  | .inf a, .fin _ _ _ => a
  | .fin _ _ _, .inf b => !b
  | .fin n1 m1 e1, .fin n2 m2 e2 => let lo := min e1 e2; scaled n1 m1 e1 lo < scaled n2 m2 e2 lo
  | _, _ => false
def Fp.same (x y : Fp) : Bool := !x.isNan && !y.isNan && !x.less y && !y.less x
def Fp.isNeg : Fp → Bool
  | .nan _ => false
  | .inf n => n
  | .fin n _ _ => n

/-- R113: the lesser of two numbers, the other when one is a NaN. -/
def Fp.min (x y : Fp) : Fp × Exc :=
  let sig := x.snan ||| y.snan
  if x.isNan then (if y.isNan then .nan false else y, sig)
  else if y.isNan then (x, sig)
  else if x.less y || x.same y && x.isNeg then (x, sig) else (y, sig)
def Fp.max (x y : Fp) : Fp × Exc :=
  let sig := x.snan ||| y.snan
  if x.isNan then (if y.isNan then .nan false else y, sig)
  else if y.isNan then (x, sig)
  else if y.less x || x.same y && y.isNeg then (x, sig) else (y, sig)

/-- R113: x = y, x < y, x ≤ y with their NV rules. -/
def Fp.eqF (x y : Fp) : Bool × Exc := (x.same y, x.snan ||| y.snan)
def Fp.ltF (x y : Fp) : Bool × Exc := (x.less y, if x.isNan || y.isNan then eNV else 0)
def Fp.leF (x y : Fp) : Bool × Exc := (x.less y || x.same y, if x.isNan || y.isNan then eNV else 0)

/-! ## Integers (R158) -/

def ITy.width : ITy → Nat
  | .s64 => 64 | .z64 => 64 | .s32 => 32 | .z32 => 32 | .s16 => 16 | .z16 => 16 | .s8 => 8 | .z8 => 8
def ITy.signed : ITy → Bool
  | .s64 => true | .s32 => true | .s16 => true | .s8 => true | _ => false
def ITy.minVal (t : ITy) : Int := if ITy.signed t then -(2 ^ (ITy.width t - 1) : Nat) else 0
def ITy.maxVal (t : ITy) : Int := if ITy.signed t then (2 ^ (ITy.width t - 1) : Nat) - 1 else (2 ^ ITy.width t : Nat) - 1
/-- The integer that the low bits of a number hold. -/
def ITy.read (t : ITy) (bits : Nat) : Int :=
  let v := bits % 2 ^ ITy.width t
  if ITy.signed t && 2 ^ (ITy.width t - 1) ≤ v then (v : Int) - (2 ^ ITy.width t : Nat) else v
/-- An integer wrapped to the type's width. -/
def ITy.write (t : ITy) (v : Int) : Nat := (v % (2 ^ ITy.width t : Nat)).toNat

/-- R116: a number rounded to an integer and clamped to a range. -/
def Fp.toInt (rm : Rm) (lo hi : Int) : Fp → Int × Exc
  | .nan _ => (0, eNV)
  | .inf neg => (if neg then lo else hi, eNV)
  | .fin neg m e =>
    let (r, inexact) := roundShift rm neg m (-e) false
    let v : Int := if neg then -(r : Int) else r
    if v < lo then (lo, eNV) else if hi < v then (hi, eNV) else (v, if inexact then eNX else 0)

def Fp.ofInt (v : Int) : Fp := .fin (v < 0) v.natAbs 0

/-- A number as an exact result, for conversions (R116). -/
def Fp.exact : Fp → Exact
  | .nan s => .nan (Fp.nan s).snan
  | .inf n => .inf n 0
  | .fin n m e => .num n m e false 0

/-! ## FCSR (R69) -/

def fcsrRm (f : Word) : Rm := Rm.ofBits (f.extractLsb' 0 2)
def fcsrFtz (f : Word) : Bool := f.getLsbD 2
def fcsrEnables (f : Word) : Exc := f.extractLsb' 9 5
/-- Sticky flags ORed in. -/
def fcsrRaise (f : Word) (x : Exc) : Word := f ||| (x.setWidth 64 <<< 4)

def State.setFcsr (s : State) (f : Word) : State := { s with core := { s.core with csr := { s.core.csr with fcsr := f } } }

/-- R115, R157: an enabled exception raises FPX and nothing else happens; otherwise the flags stick. -/
def State.raise (s : State) (x : Exc) : R State :=
  if x &&& fcsrEnables s.core.csr.fcsr ≠ 0 then trap cFPX (x.setWidth 64)
  else .ok (s.setFcsr (fcsrRaise s.core.csr.fcsr x))

end Sys2Proof.Machine
end

