-- ==== Sys2Proof/Machine/Accum.lean ====
section
/-! DEFINITION. The matrix unit's numbers and its state for one core: accumulator formats and sums (R163 to R165), operand
tiles (R318, R319), drains (R329), and what a discarded queue leaves (R334, R335, R337). -/

namespace Sys2Proof.Machine

/-! ## Accumulator elements (R163) -/

/-- The value of a wide element. -/
def wideRead (b : BitVec 34) : Fp :=
  let s := b.getLsbD 33
  let ex := (b.extractLsb' 23 10).toNat
  let fr := (b.extractLsb' 0 23).toNat
  if ex = 0 then .fin s 0 0
  else if ex = 1023 then (if fr = 0 then .inf s else .nan false)
  else .fin s (2 ^ 23 + fr) ((ex : Int) - 511 - 23)

def wideNan : BitVec 34 := 0x1FFC00000
def wideInf (neg : Bool) : BitVec 34 := BitVec.ofBool neg ++ (1023 : BitVec 10) ++ (0 : BitVec 23)

/-- A 24-bit significand times 2^e as an element. -/
def wideNum (neg : Bool) (m : Nat) (e : Int) : BitVec 34 :=
  BitVec.ofBool neg ++ BitVec.ofInt 10 (e + 23 + 511) ++ BitVec.ofNat 23 (m % 2 ^ 23)

/-- Flags of an accumulator that an operation raises: OV, SAT, NV. -/
structure AccFlags where
  ov  : Bool
  sat : Bool
  nv  : Bool
  deriving DecidableEq, Repr
def AccFlags.none : AccFlags := ⟨false, false, false⟩
def AccFlags.or (x y : AccFlags) : AccFlags := ⟨x.ov || y.ov, x.sat || y.sat, x.nv || y.nv⟩

/-! ## The wide sum (R164) -/

/-- The sign of the infinities among exact members; none where signs differ, or a member is a NaN. -/
def infSign : List Exact → Option (Option Bool)
  | [] => some none
  | .nan _ :: _ => none
  | .inf n _ :: rest =>
    match infSign rest with
    | some none => some (some n)
    | some (some n') => if n = n' then some (some n) else none
    | none => none
  | .num _ _ _ _ _ :: rest => infSign rest

/-- Floor(Log2) of the largest nonzero magnitude. -/
def maxLog : List Exact → Option Int
  | [] => none
  | .num _ m e _ _ :: rest =>
    if m = 0 then maxLog rest
    else
      let l := e + bitLen m - 1
      match maxLog rest with
      | some k => some (max l k)
      | none => some l
  | _ :: rest => maxLog rest

/-- The members in units of 2^q, each truncated toward zero, added. -/
def truncSum (q : Int) : List Exact → Int
  | [] => 0
  | .num n m e _ _ :: rest =>
    let v : Int := if q ≤ e then ((m <<< (e - q).toNat : Nat) : Int) else ((m >>> (q - e).toNat : Nat) : Int)
    (if n then -v else v) + truncSum q rest
  | _ :: rest => truncSum q rest

/-- A sum of units of 2^q rounded to the 24-bit significand. -/
def wideRound (sum q : Int) : BitVec 34 × AccFlags :=
  let neg : Bool := sum < 0
  let m := sum.natAbs
  let sh := bitLen m - 24
  let (r, _) := roundShift .rne false m sh false
  let (r, sh) := if bitLen r = 25 then (r / 2, sh + 1) else (r, sh)
  let k := 24 - bitLen r
  let e := q + sh - k
  if 511 < e + 23 then (wideInf neg, { AccFlags.none with ov := true }) else (wideNum neg (r <<< k) e, .none)

/-- R164: the accumulator's value and the exact products added. -/
def wideSum (members : List Exact) : BitVec 34 × AccFlags :=
  match infSign members with
  | none => (wideNan, { AccFlags.none with nv := true })
  | some (some n) => (wideInf n, .none)
  | some none =>
    match maxLog members with
    | none => (0, .none)
    | some emax =>
      let sum := truncSum (emax - 48) members
      if sum = 0 then (0, .none) else wideRound sum (emax - 48)

/-! ## The integer sum (R165) -/

def s32Sum (isat : Bool) (sum : Int) : BitVec 34 × AccFlags :=
  if ITy.minVal .s32 ≤ sum && sum ≤ ITy.maxVal .s32 then (BitVec.ofNat 34 (ITy.write .s32 sum), .none)
  else if isat then
    (BitVec.ofNat 34 (ITy.write .s32 (max (ITy.minVal .s32) (min (ITy.maxVal .s32) sum))), { AccFlags.none with sat := true })
  else (BitVec.ofNat 34 (ITy.write .s32 sum), { AccFlags.none with ov := true })

/-! ## Format words (R316) -/

/-- An operand type. -/
inductive OpTy where
  | fp (t : FTy)
  | int (t : ITy)
  | seb (m : Nat)
  deriving DecidableEq, Repr

def opTy (code : Nat) : Option OpTy :=
  if code = 0 then some (.fp .bf16) else if code = 1 then some (.fp .f16) else if code = 2 then some (.fp .e4m3)
  else if code = 3 then some (.fp .e5m2) else if code = 4 then some (.int .s8) else if code = 5 then some (.int .z8)
  else if 8 ≤ code && code ≤ 14 then some (.seb (code - 6)) else none

def OpTy.isInt : OpTy → Bool
  | .int _ => true
  | _ => false
def OpTy.isSeb : OpTy → Bool
  | .seb _ => true
  | _ => false
/-- R318: element width in bits. -/
def OpTy.width : OpTy → Nat
  | .fp t => (fmtOf t).width
  | .int t => ITy.width t
  | .seb m => m
/-- R318: tile size in bytes. -/
def OpTy.tile : OpTy → Nat
  | .seb m => 128 + 512 * m
  | t => 512 * t.width

def fmtA (f : Word) : Option OpTy := opTy (f.extractLsb' 0 4).toNat
def fmtB (f : Word) : Option OpTy := opTy (f.extractLsb' 4 4).toNat
def fmtAcc (f : Word) : AccType := if f.getLsbD 8 then .s32 else .wide
def fmtRound (f : Word) : Rm := Rm.ofBits (f.extractLsb' 10 2)
def fmtDsat (f : Word) : Bool := f.getLsbD 12
def fmtIsat (f : Word) : Bool := f.getLsbD 13

/-- R316: the rules of a format word. -/
def fmtValid (f : Word) : Bool :=
  f.extractLsb' 14 50 = 0 && !f.getLsbD 9 &&
    match fmtA f, fmtB f with
    | some a, some b => a.isInt = f.getLsbD 8 && b.isInt = f.getLsbD 8
    | _, _ => false

/-! ## Reading tiles (R318) -/

/-- R160: one element of a block. -/
def sebValue (m e v : Nat) : Fp :=
  if e = 0 then .fin false 0 0
  else if e = 0xFF then .nan false
  else
    let neg := 2 ^ (m - 1) ≤ v
    .fin neg (if neg then 2 ^ m - v else v) ((e : Int) - 127 - ((m : Int) - 2))

/-- Element k of row r of an operand (of column r for B) in a tile given as one little-endian number. -/
def tileFp (t : OpTy) (trans : Bool) (tile r k : Nat) : Fp :=
  match t with
  | .fp f =>
    let w := (fmtOf f).width
    (fmtOf f).read false (bitsAt tile (w * (if trans then 64 * k + r else 64 * r + k)) w)
  | .seb m => sebValue m (bitsAt tile (8 * (2 * r + k / 32)) 8) (bitsAt tile (1024 + 64 * m * r + m * k) m)
  | .int _ => .fin false 0 0
def tileInt (t : OpTy) (trans : Bool) (tile r k : Nat) : Int :=
  match t with
  | .int i => ITy.read i (bitsAt tile (8 * (if trans then 64 * k + r else 64 * r + k)) 8)
  | _ => 0

/-- R319: K position that stored value `t` of row `i` multiplies. -/
def sparseK (metadata i t : Nat) : Nat := 4 * (t / 2) + bitsAt metadata (128 * i + 4 * (t / 2) + 2 * (t % 2)) 2

/-- The multiplier of each stored value of row i: its K position. -/
def kPositions (metadata : Option Nat) (i : Nat) : List Nat :=
  (upFrom 0 64).map fun t => match metadata with | some md => sparseK md i t | none => t

/-- R324: one element: the old element and the products of row i and column j. DESIGN CHOICE (assumption 98): a zero of
a zero block times an infinity is the invalid product that R164's operation names, and gives NaN. -/
def mmaElem (f : Word) (a b : OpTy) (transA transB : Bool) (tileA : Nat) (tilesB : List Nat) (metadata : Option Nat)
    (old : BitVec 34) (i j : Nat) : BitVec 34 × AccFlags :=
  let ks := kPositions metadata i
  let colB := fun (k : Nat) => tilesB.getD (k / 64) 0
  match fmtAcc f with
  | .wide =>
    let ps := List.zipWith (fun t k => (tileFp a transA tileA i t).mul (tileFp b transB (colB k) j (k % 64))) (upFrom 0 64) ks
    wideSum ((wideRead old).exact :: ps)
  | .s32 =>
    let ps := List.zipWith (fun t k => tileInt a transA tileA i t * tileInt b transB (colB k) j (k % 64)) (upFrom 0 64) ks
    s32Sum (fmtIsat f) (ITy.read .s32 old.toNat + ps.foldr (· + ·) 0)

/-- All 4,096 elements from number `n` down to 0, those that are not zero, with the flags of all. -/
def mmaElems (g : Nat → BitVec 34 × AccFlags) : Nat → Assoc (BitVec 34) → AccFlags → Assoc (BitVec 34) × AccFlags
  | 0, es, fl => (es, fl)
  | n + 1, es, fl =>
    let (v, x) := g n
    mmaElems g n (if v = 0 then es else (n, v) :: es) (fl.or x)

/-- The accumulator after one MMA or MMAS. -/
def Acc.mma (c : Acc) (f : Word) (transA transB : Bool) (tileA : Nat) (tilesB : List Nat) (metadata : Option Nat) : Acc :=
  match fmtA f, fmtB f with
  | some a, some b =>
    let (es, fl) := mmaElems
      (fun n => mmaElem f a b transA transB tileA tilesB metadata (assocGetD c.elems n 0) (n / 64) (n % 64)) 4096 [] .none
    { c with elems := es, ov := c.ov || fl.ov, sat := c.sat || fl.sat, nv := c.nv || fl.nv }
  | _, _ => c

/-! ## Draining (R329) -/

/-- MDRAIN's format codes. -/
def drainFmt (code : BitVec 3) : Option FTy :=
  if code = 0 then some .f32 else if code = 1 then some .bf16 else if code = 2 then some .e4m3 else if code = 3 then some .e5m2
  else none
def drainBytes (code : BitVec 3) : Nat := match drainFmt code with | some t => (fmtOf t).width / 8 | none => 4

/-- One element converted: its bits and the flags it raises. -/
def drainElem (code : BitVec 3) (f : Word) (e : BitVec 34) : Nat × AccFlags :=
  match drainFmt code with
  | none => (e.toNat % 2 ^ 32, .none)
  | some t =>
    let fm := fmtOf t
    match wideRead e with
    | .nan _ => (fm.nanBits, .none)
    | .inf n => if fm.e4m3 then (fm.nanBits, { AccFlags.none with nv := true }) else (fm.sign n + fm.infBits, .none)
    | .fin n m x =>
      let (b, fl) := fm.round (fmtRound f) false n m x false
      if fl &&& eOF ≠ 0 then
        (if fmtDsat f then (fm.sign n + fm.maxBits, { AccFlags.none with sat := true }) else (b, { AccFlags.none with ov := true }))
      else (b, .none)

/-- The row-major array from element `n` on. -/
def drainElems (code : BitVec 3) (f : Word) (es : Assoc (BitVec 34)) : Nat → Nat → List Byte × AccFlags
  | _, 0 => ([], .none)
  | i, n + 1 =>
    let (v, x) := drainElem code f (assocGetD es i 0)
    let (bs, y) := drainElems code f es (i + 1) n
    (bytesOf (drainBytes code) v ++ bs, x.or y)

/-! ## One core's state (R313) -/

/-- R318: an accumulator zero of a type, flags clear. -/
def Acc.cleared (t : AccType) (live : Bool) : Acc := ⟨t, [], false, false, false, live⟩

/-- R324, R328: the accumulator that a command names becomes live; of another type, it becomes zero. -/
def Acc.named (c : Acc) (t : AccType) : Acc := if c.type = t then { c with live := true } else .cleared t true

def MatCore.acc (m : MatCore) (n : BitVec 2) : Acc := m.accs[n.toNat]
def MatCore.setAcc (m : MatCore) (n : BitVec 2) (c : Acc) : MatCore := { m with accs := m.accs.set n.toNat c }
def MatCore.ring (m : MatCore) (q : BitVec 2) : Option Ring := m.rings[q.toNat]
def MatCore.setRing (m : MatCore) (q : BitVec 2) (r : Option Ring) : MatCore := { m with rings := m.rings.set q.toNat r }
def MatCore.anyLive (m : MatCore) : Bool := m.accs.toList.any (·.live)

def Ring.release (r : Ring) : Ring := { r with rel := r.cons }
def Ring.popAll (r : Ring) : Ring := { r with cons := r.res }
/-- R320, R333: REL := CONS for every ring. -/
def MatCore.releaseAll (m : MatCore) : MatCore := { m with rings := m.rings.map (Option.map Ring.release) }
/-- Outside a restart window, REL = CONS (R320). -/
def MatCore.followRel (m : MatCore) : MatCore := if m.restart.isSome then m else m.releaseAll

/-- MSTAT.LOST (R70). -/
abbrev mstatLost : Word := 0x80

/-- R337: every command is discarded: CONS := RES, REL as R334 leaves it. -/
def MatCore.discard (m : MatCore) : MatCore :=
  MatCore.followRel { m with queue := [], rings := m.rings.map (Option.map Ring.popAll) }
def Core.loseMatrix (c : Core) : Core :=
  { c with mx := c.mx.discard, csr := { c.csr with mstat := c.csr.mstat ||| mstatLost } }

/-- R335: each ring goes back to its recorded head. -/
def rewindRings (rings : Vector (Option Ring) 4) (heads : Vector (Option (BitVec 32)) 4) : Vector (Option Ring) 4 :=
  Vector.zipWith (fun r h => match r, h with
    | some r, some h => some { r with cons := h, res := h }
    | r, _ => r) rings heads

/-- R335: preemption, YIELD and revival. -/
def Core.rewindMatrix (c : Core) : Core :=
  match c.mx.restart with
  | some r =>
    { c with mx := { c.mx with queue := [], rings := rewindRings c.mx.rings r.heads,
                               accs := c.mx.accs.map fun a => .cleared a.type false },
             pcc := c.pcc.setCursor r.label }
  | none =>
    let lost := c.mx.anyLive || !c.mx.queue.isEmpty
    let m := c.mx.discard
    { c with mx := { m with accs := m.accs.map fun a => .cleared a.type a.live },
             csr := if lost then { c.csr with mstat := c.csr.mstat ||| mstatLost } else c.csr }

end Sys2Proof.Machine
end

