-- ==== Sys2Proof/Config.lean ====
section
/-! DEFINITION. What the part or its surroundings fix and the manual gives no value for. Every constant here is
opaque: no proof can see its value. -/

namespace Sys2Proof.Config

/-- The XTS key pair that is generated for the context with a creation serial (R399, R400). -/
opaque xtsKey : Nat → Nat → BitVec 256

/-- The unique device secret of the fuses (R392). -/
opaque deviceSecret : BitVec 256
/-- The configuration fuses, as block 4 measures them before the core maps (R392). -/
opaque fuses : List (BitVec 8)
/-- The responder's DRBG (R394): the n-th draw of the part. -/
opaque drbg : Nat → BitVec 256
/-- The chain root (R393). -/
opaque rootCertificate : List (BitVec 8)
/-- What the Galud Microsystems CA adds to a DeviceID public key at manufacture to make its certificate (R393). -/
opaque caSign : List (BitVec 8) → List (BitVec 8)
/-- The Alias public key of another device, as its verified certificate gives it (R402). -/
opaque deviceKeyOf : BitVec 19 → List (BitVec 8)
/-- The SPDM 1.3 signing-context prefix of a response (R396). -/
opaque signingContext : BitVec 8 → List (BitVec 8)
/-- The shared secret of a secp384r1 exchange (R394). -/
opaque ecdheSecret : BitVec 256 → BitVec 768 → BitVec 384
/-- The responder's exchange data for a private draw (R394). -/
opaque ecdhePublic : BitVec 256 → BitVec 768
/-- The FINISH verify data of a session secret over a transcript digest (R395). -/
opaque finishMac : BitVec 384 → BitVec 384 → BitVec 384
/-- The AES-256-GCM key and the initialisation vector of a session's direction, from its secret: from the responder, or to it
(R394). -/
opaque sessionKey : BitVec 384 → Bool → BitVec 256
opaque sessionIv : BitVec 384 → Bool → BitVec 96
/-- The Alias key of a DeviceID key and blocks 1 to 6 (R393). -/
opaque aliasSeed : List (BitVec 8) → List (BitVec 384) → BitVec 456
/-- The vendor's verdict on an image of the security core firmware (R392). -/
opaque vendorAccepts : List (BitVec 8) → Bool
/-- The sealed form of a context's state for a migration under the session of the two devices (R402), and its opening. -/
opaque sealState : BitVec 19 → List (BitVec 8) → List (BitVec 8)
opaque openState : BitVec 19 → List (BitVec 8) → Option (List (BitVec 8))
/-- Whether a cluster's matrix unit, while commands wait in its queues, is executing one at an instant of its zone or stands
at a command boundary (R326, R327): the manual gives no execution times but MMA's. -/
opaque unitExecutes : Nat → Tick → Bool
/-- The latency that a DLINF record gives where no table entry exists (R216). -/
opaque noLatency : BitVec 32
/-- The die of a peer that holds a location of its memory (R222, R223): the manual gives no interleave of another
device. -/
opaque peerHome : BitVec 19 → Nat → BitVec 2
/-- The next state of a core's LFSR, whose polynomial the manual does not give (R406). -/
opaque lfsrNext : BitVec 32 → BitVec 32
/-- How often an instruction causes an event that the part's pipeline and caches decide: a draw by a counter that the state
advances (R409). -/
opaque eventAmount : Nat → BitVec 16
/-- A byte whose value the manual leaves open, by a counter that the state advances. -/
opaque freeByte : Nat → BitVec 8
/-- The record of the die SRAM splits and class-0 reservations that block 5 measures, and the boot record of enabled
stacks and withheld granules that block 6 measures (R392): the manual gives no layout. -/
opaque splitRecord : List (Nat × Nat) → List (BitVec 8)
opaque bootRecord : List Nat → List Nat → List (BitVec 8)
/-- Bytes that an entry of a corpse's command list and refused-write lists takes, by its ordinal (R367). -/
opaque listBytes : Nat → Nat
/-- Bytes that a scratchpad image takes beside those of its region, for its colours and tags (R367). -/
opaque regionImageBytes : Nat → Nat
/-- The bytes of an SPDM message as SPDM 1.3 lays them out: its code and its fields (R394). -/
opaque spdmBytes : BitVec 8 → List (BitVec 8) → List (BitVec 8)

end Sys2Proof.Config
end

