-- ==== Sys2Proof/Machine/Crypto.lean ====
section
/-! DEFINITION. Keccak-f[1600], SHA3-384 and SHAKE256 (FIPS 202), AES-256 (FIPS 197), XTS (IEEE 1619) and GCM (SP 800-38D), as
R302, R392 to R394, R400 and R403 use them. -/

namespace Sys2Proof.Machine

/-! ## Keccak (FIPS 202)

The state is one number of 1,600 bits: five planes of 320, lane (x, y) being 64 bits from 64 x + 320 y on. -/

/-- A plane with lane x + k in place of lane x. -/
def planeTurn (k p : Nat) : Nat := p >>> (64 * k) ||| (p % 2 ^ (64 * k)) <<< (64 * (5 - k))
/-- A one in the lowest bit of every lane of a plane. -/
abbrev laneUnits : Nat := (2 ^ 320 - 1) / (2 ^ 64 - 1)
/-- Every lane of a plane rotated by one. -/
def planeRotate (p : Nat) : Nat :=
  let top := p >>> 63 &&& laneUnits
  (p - top <<< 63) <<< 1 ||| top
/-- The planes of a state from number `y` on, each changed. -/
def mapPlanes (f : Nat → Nat) (a : Nat) : Nat → Nat → Nat
  | 0, _ => 0
  | n + 1, y => f (bitsAt a (320 * y) 320) <<< (320 * y) ||| mapPlanes f a n (y + 1)
/-- The parity of the columns. -/
def planeParity (a : Nat) : Nat → Nat
  | 0 => 0
  | n + 1 => bitsAt a (320 * n) 320 ^^^ planeParity a n
def mixColumnParity (a : Nat) : Nat :=
  let c := planeParity a 5
  let d := planeTurn 4 c ^^^ planeRotate (planeTurn 1 c)
  mapPlanes (· ^^^ d) a 5 0

/-- The lanes but lane (0, 0), in the order of the walk from (1, 0): the `t`-th is rotated by the `t`-th triangular number and takes
the place (y, 2 x + 3 y), where the walk goes on. -/
def walkLanes (a : Nat) : Nat → Nat → Nat → Nat → Nat
  | 0, _, _, _ => 0
  | n + 1, t, x, y =>
    let k := t * (t + 1) / 2 % 64
    let v := bitsAt a (64 * x + 320 * y) 64
    ((v <<< k) % 2 ^ 64 ||| v >>> (64 - k)) <<< (64 * y + 320 * ((2 * x + 3 * y) % 5)) ||| walkLanes a n (t + 1) y ((2 * x + 3 * y) % 5)
def moveLanes (a : Nat) : Nat := a % 2 ^ 64 ||| walkLanes a 24 1 1 0

def nonlinearRows (a : Nat) : Nat := mapPlanes (fun p => p ^^^ ((2 ^ 320 - 1 - planeTurn 1 p) &&& planeTurn 2 p)) a 5 0

/-- The shift register of the round constants: multiplication by x modulo x^8 + x^6 + x^5 + x^4 + 1. -/
def registerNext (r : Nat) : Nat := if r < 128 then 2 * r else 2 * r ^^^ 0x171
def registerAfter : Nat → Nat → Nat
  | 0, r => r
  | n + 1, r => registerAfter n (registerNext r)
/-- A round constant: bit 2^j - 1 is the register's output at step `j`. -/
def roundBits : Nat → Nat → Nat → Nat
  | 0, _, _ => 0
  | n + 1, j, r => (r % 2) <<< (2 ^ j - 1) ||| roundBits n (j + 1) (registerNext r)

/-- `n` rounds, with the register as the first of them finds it. -/
def keccakRounds : Nat → Nat → Nat → Nat
  | 0, _, a => a
  | n + 1, r, a => keccakRounds n (registerAfter 7 r) (nonlinearRows (moveLanes (mixColumnParity a)) ^^^ roundBits 7 0 r)
def keccak1600 (v : Nat) : Nat := keccakRounds 24 1 (v % 2 ^ 1600)

/-- The sponge of SHA3-384: blocks of 104 bytes. -/
def sha3Absorb : Nat → Nat → List Byte → Nat
  | 0, st, _ => st
  | n + 1, st, msg => sha3Absorb n (keccak1600 (st ^^^ natOf (msg.take 104))) (msg.drop 104)
/-- The message with the suffix 01 and the padding 10*1. -/
def sha3Pad (msg : List Byte) : List Byte :=
  let r := 104 - msg.length % 104
  if r = 1 then msg ++ [0x86] else msg ++ [0x06] ++ List.replicate (r - 2) 0 ++ [0x80]
def sha3_384 (msg : List Byte) : List Byte :=
  let m := sha3Pad msg
  bytesOf 48 (sha3Absorb (m.length / 104) 0 m)

/-- The sponge of SHAKE256: blocks of 136 bytes in, with the suffix 1111, and blocks of 136 bytes out. -/
def shakePad (msg : List Byte) : List Byte :=
  let r := 136 - msg.length % 136
  if r = 1 then msg ++ [0x9F] else msg ++ [0x1F] ++ List.replicate (r - 2) 0 ++ [0x80]
def shakeAbsorb : Nat → Nat → List Byte → Nat
  | 0, st, _ => st
  | n + 1, st, msg => shakeAbsorb n (keccak1600 (st ^^^ natOf (msg.take 136))) (msg.drop 136)
def shakeSqueeze : Nat → Nat → List Byte
  | 0, _ => []
  | n + 1, st => bytesOf 136 st ++ shakeSqueeze n (keccak1600 st)
/-- The first `n` bytes of SHAKE256 of a message. -/
def shake256 (msg : List Byte) (n : Nat) : List Byte :=
  let m := shakePad msg
  (shakeSqueeze ((n + 135) / 136) (shakeAbsorb (m.length / 136) 0 m)).take n

/-! ## AES (FIPS 197) -/

def xtime (b : Nat) : Nat := let s := 2 * b; if s < 256 then s else (s ^^^ 0x11B) % 256
/-- Multiplication in GF(2^8). -/
def gmul8 : Nat → Nat → Nat → Nat
  | 0, _, _ => 0
  | n + 1, a, b => (if b % 2 = 1 then a else 0) ^^^ gmul8 n (xtime a) (b / 2)
def gf8 (a b : Nat) : Nat := gmul8 8 a b
/-- The multiplicative inverse: the power 254 (0 for 0). -/
def gfInv (a : Nat) : Nat :=
  let a2 := gf8 a a
  let a3 := gf8 a2 a
  let a6 := gf8 a3 a3
  let a12 := gf8 a6 a6
  let a15 := gf8 a12 a3
  let a30 := gf8 a15 a15
  let a60 := gf8 a30 a30
  let a120 := gf8 a60 a60
  let a126 := gf8 a120 a6
  let a127 := gf8 a126 a
  gf8 a127 a127
def rot8 (b r : Nat) : Nat := (b <<< r ||| b >>> (8 - r)) % 256
def sbox (b : Nat) : Nat :=
  let i := gfInv b
  i ^^^ rot8 i 1 ^^^ rot8 i 2 ^^^ rot8 i 3 ^^^ rot8 i 4 ^^^ 0x63
def sboxInv (b : Nat) : Nat := gfInv (rot8 b 1 ^^^ rot8 b 3 ^^^ rot8 b 6 ^^^ 0x05)

/-- Byte b stands in column b div 4, row b mod 4. -/
def shiftRows (s : List Nat) : List Nat := (upFrom 0 16).map fun b => s.getD ((b + 4 * (b % 4)) % 16) 0
def shiftRowsInv (s : List Nat) : List Nat := (upFrom 0 16).map fun b => s.getD ((b + 12 * (b % 4)) % 16) 0
/-- A column times the circulant whose first row is given. -/
def mixWith (m : List Nat) (s : List Nat) : List Nat :=
  (upFrom 0 16).map fun b =>
    let col := b / 4 * 4
    let e := fun i => gf8 (s.getD (col + i) 0) (m.getD ((i + 4 - b % 4) % 4) 0)
    e 0 ^^^ e 1 ^^^ e 2 ^^^ e 3
def mixColumns : List Nat → List Nat := mixWith [2, 3, 1, 1]
def mixColumnsInv : List Nat → List Nat := mixWith [14, 11, 13, 9]
def xorBytes (x y : List Nat) : List Nat := List.zipWith (· ^^^ ·) x y

def bytes16 (v : Nat) : List Nat := (bytesOf 16 v).map BitVec.toNat
def ofBytes (l : List Nat) : Nat := natOf (l.map (BitVec.ofNat 8))

/-- R403: one round on one lane. -/
def aesEnc (last : Bool) (a b : Nat) : Nat :=
  let t := (shiftRows (bytes16 a)).map sbox
  ofBytes (xorBytes (if last then t else mixColumns t) (bytes16 b))
def aesDec (last : Bool) (a b : Nat) : Nat :=
  let t := xorBytes ((shiftRowsInv (bytes16 a)).map sboxInv) (bytes16 b)
  ofBytes (if last then t else mixColumnsInv t)

def subWord (w : List Nat) : List Nat := w.map sbox
def rotWord (w : List Nat) : List Nat := w.drop 1 ++ w.take 1
/-- R403: the next eight words of a key schedule. -/
def aesKeys (rc : Nat) (v : Nat) : Nat :=
  let b := (bytesOf 32 v).map BitVec.toNat
  let w := fun i => (b.drop (4 * i)).take 4
  let n0 := xorBytes (xorBytes (w 0) (subWord (rotWord (w 7)))) [2 ^ (rc - 1), 0, 0, 0]
  let n1 := xorBytes (w 1) n0
  let n2 := xorBytes (w 2) n1
  let n3 := xorBytes (w 3) n2
  let n4 := xorBytes (w 4) (subWord n3)
  let n5 := xorBytes (w 5) n4
  let n6 := xorBytes (w 6) n5
  let n7 := xorBytes (w 7) n6
  ofBytes (n0 ++ n1 ++ n2 ++ n3 ++ n4 ++ n5 ++ n6 ++ n7)

/-- The round keys of AES-256 from pair `rc - 1` on. -/
def keySchedule : Nat → Nat → Nat → List Nat
  | 0, _, _ => []
  | n + 1, rc, v => v % 2 ^ 128 :: v >>> 128 :: keySchedule n (rc + 1) (aesKeys rc v)
def aesRounds : List Nat → Nat → Nat
  | [], s => s
  | [k], s => aesEnc true s k
  | k :: rest, s => aesRounds rest (aesEnc false s k)
/-- R403: AES-256 of one block. -/
def aes256 (key block : Nat) : Nat :=
  match (keySchedule 8 1 key).take 15 with
  | k0 :: ks => aesRounds ks (block ^^^ k0)
  | [] => block

def aesRoundsInv : List Nat → Nat → Nat
  | [], s => s
  | [k], s => aesDec true s k
  | k :: rest, s => aesRoundsInv rest (aesDec false s k)
/-- R403: the inverse of AES-256. -/
def aes256Inv (key block : Nat) : Nat :=
  match ((keySchedule 8 1 key).take 15).reverse with
  | k :: ks => aesRoundsInv ks (block ^^^ k)
  | [] => block

/-! ## XTS (IEEE 1619) -/

/-- The tweak of the next block. -/
def xtsNext (t : Nat) : Nat := if t < 2 ^ 127 then 2 * t else 2 * t % 2 ^ 128 ^^^ 0x87
def xtsBlocks (cipher : Nat → Nat) : Nat → Nat → Nat → Nat
  | 0, _, _ => 0
  | n + 1, t, text => (cipher (text % 2 ^ 128 ^^^ t) ^^^ t) + xtsBlocks cipher n (xtsNext t) (text >>> 128) <<< 128
/-- R400: a line of 64 bytes under a key pair, with its physical address as the tweak; and back. -/
def xtsSeal (k1 k2 addr text : Nat) : Nat := xtsBlocks (aes256 k1) 4 (aes256 k2 addr) text
def xtsOpen (k1 k2 addr text : Nat) : Nat := xtsBlocks (aes256Inv k1) 4 (aes256 k2 addr) text

/-! ## GF(2^128) and GCM (SP 800-38D) -/

/-- The bytes of a block in the other order: the block's first bit is then the most significant. -/
def swap16 (v : Nat) : Nat := natOf (bytesOf 16 v).reverse
/-- The product of blocks whose most significant bit is the coefficient of x^0; bit `i` of x next. -/
def gf128From : Nat → Nat → Nat → Nat → Nat
  | 0, _, _, z => z
  | n + 1, x, v, z =>
    let z := if x.testBit n then z ^^^ v else z
    gf128From n x (if v % 2 = 1 then v >>> 1 ^^^ 0xE1 <<< 120 else v >>> 1) z
def gf128 (x y : Nat) : Nat := swap16 (gf128From 128 (swap16 x) (swap16 y) 0)
/-- Carry-less product of two 64-bit numbers. -/
def clmulFrom : Nat → Nat → Nat → Nat
  | 0, _, _ => 0
  | n + 1, a, b => (if b.testBit n then a <<< n else 0) ^^^ clmulFrom n a b
def clmul64 (a b : Nat) : Nat := clmulFrom 64 a b

/-- One block more of GHASH. -/
def ghashStep (h y block : Nat) : Nat := gf128 (y ^^^ block) h
/-- The block for counter `n` of a 96-bit IV, whose bytes are little-endian in `iv`. -/
def gcmCounter (iv n : Nat) : Nat := iv % 2 ^ 96 + natOf (bytesOf 4 n).reverse <<< 96
/-- R302: block `i` of the key stream of the text. -/
def gcmStream (key iv i : Nat) : Nat := aes256 key (gcmCounter iv (i + 2))
/-- R302: the tag, from the hash of the 16 additional bytes and the text of `len` bytes. -/
def gcmTag (key iv h y len : Nat) : Nat :=
  let lens := natOf ((bytesOf 8 128).reverse ++ (bytesOf 8 (8 * len)).reverse)
  ghashStep h y lens ^^^ aes256 key (gcmCounter iv 1)

/-- The GCM hash of `n` blocks of text. -/
def hashBlocks (h y text : Nat) : Nat → Nat
  | 0 => y
  | n + 1 => hashBlocks h (ghashStep h y (text % 2 ^ 128)) (text >>> 128) n
def gcmText (key iv text : Nat) : Nat → Nat → Nat
  | _, 0 => 0
  | i, n + 1 => (text % 2 ^ 128 ^^^ gcmStream key iv i) + gcmText key iv (text >>> 128) (i + 1) n <<< 128
/-- A message sealed with AES-256-GCM under 16 additional bytes: the text, then the tag. -/
def gcmSeal (key iv aad : Nat) (msg : List Byte) : List Byte :=
  let n := msg.length
  let blocks := (n + 15) / 16
  let text := gcmText key iv (natOf msg) 0 blocks % 2 ^ (8 * n)
  let h := aes256 key 0
  bytesOf n text ++ bytesOf 16 (gcmTag key iv h (hashBlocks h (ghashStep h 0 aad) text blocks) n)

end Sys2Proof.Machine
end

