-- ==== Sys2Proof/Machine/Memory.lean ====
section
/-! DEFINITION. Memory by location: bytes in one canonical list, capability tags of 16-byte granules (R58), colours of
32-byte granules (R61). A location numbers one byte of one of the module's memories. -/

namespace Sys2Proof.Machine

/-! ## Locations -/

/-- The memories of the module and of its surroundings, each with room for 2⁴⁴ bytes. -/
abbrev spaceSize : Nat := 2 ^ 44
/-- Device memory, by physical address (R146). -/
def devLoc (pa : Nat) : Nat := pa
/-- Die SRAM, by physical address. -/
def sramLoc (pa : Nat) : Nat := spaceSize + pa
/-- Host memory, by bus address (R346); the rings of a function may lie at addresses from 2⁴⁴ up (R344). -/
def hostLoc (pa : Nat) : Nat := if pa < spaceSize then 2 * spaceSize + pa else 2 ^ 66 + pa
/-- The culvert code window of a die (R292). -/
def windowLoc (die off : Nat) : Nat := 3 * spaceSize + die * 0x10000 + off
/-- The TCM of a core, or the private memory of another agent, by its number. -/
def tcmLoc (index addr : Nat) : Nat := 5 * spaceSize + index * 0x400000 + addr
/-- The scratchpad of a cluster. -/
def spadLoc (cluster off : Nat) : Nat := 6 * spaceSize + cluster * 0x100000 + off
/-- Memory of a peer device. -/
def peerLoc (device : BitVec 19) (pa : Nat) : Nat := (16 + device.toNat) * spaceSize + pa
/-- Where the page copies of a revival stand (R382), by context and task. -/
def overlayBase (context : BitVec 8) (task : BitVec 32) : Nat :=
  2 ^ 70 * (1 + context.toNat * 2 ^ 32 + task.toNat)

/-- Which kind of memory a location belongs to. -/
def isDevLoc (l : Nat) : Bool := l < spaceSize || 2 ^ 70 ≤ l
def isSramLoc (l : Nat) : Bool := spaceSize ≤ l && l < 2 * spaceSize
def isHostLoc (l : Nat) : Bool := 2 * spaceSize ≤ l && l < 3 * spaceSize || 2 ^ 66 ≤ l && l < 2 ^ 67
def isTcmLoc (l : Nat) : Bool := 5 * spaceSize ≤ l && l < 6 * spaceSize
def isSpadLoc (l : Nat) : Bool := 6 * spaceSize ≤ l && l < 7 * spaceSize
def isPeerLoc (l : Nat) : Bool := 16 * spaceSize ≤ l && l < 2 ^ 66
/-- R58: host and peer memory hold no tags. -/
def holdsTags (l : Nat) : Bool := !(isHostLoc l || isPeerLoc l)
/-- R61: device memory, die SRAM and scratchpad carry colours. -/
def holdsColours (l : Nat) : Bool := isDevLoc l || isSramLoc l || isSpadLoc l

/-! ## Bytes -/

/-- What a location that nothing has written reads as: zero. -/
def unlistedByte : Byte := 0

def memGet (m : List Host.Cell) (l : Nat) : Byte := (assocGet m l).getD unlistedByte

def memPut (m : List Host.Cell) (l : Nat) (b : Byte) : List Host.Cell :=
  if b = unlistedByte then assocDel m l else assocPut m l b

/-- The canonical form: addresses strictly rising, and no entry equal to what an unlisted location reads as. -/
def Memory.wf (m : List Host.Cell) : Bool := assocSorted m && m.all (fun c => c.2 ≠ unlistedByte)

def memRead (m : List Host.Cell) : Nat → Nat → List Byte
  | _, 0 => []
  | l, n + 1 => memGet m l :: memRead m (l + 1) n

def memWrite (m : List Host.Cell) : Nat → List Byte → List Host.Cell
  | _, [] => m
  | l, b :: rest => memWrite (memPut m l b) (l + 1) rest

/-- The cells of `n` locations from `lo`, and the others. -/
def memRange (m : List Host.Cell) (lo n : Nat) : List Host.Cell := m.filter fun c => lo ≤ c.1 && c.1 < lo + n
def memClear (m : List Host.Cell) (lo n : Nat) : List Host.Cell := m.filter fun c => !(lo ≤ c.1 && c.1 < lo + n)

/-- Cells moved so that those at `lo` stand at `dst`. -/
def memMove (cells : List Host.Cell) (lo dst : Nat) : List Host.Cell := cells.map fun c => (c.1 - lo + dst, c.2)

/-- Cells written into a memory one by one. -/
def memMerge (m : List Host.Cell) : List Host.Cell → List Host.Cell
  | [] => m
  | (l, b) :: rest => memMerge (memPut m l b) rest

/-! ## Tags and colours -/

def granLo (l unit : Nat) : Nat := l / unit
def granHi (l n unit : Nat) : Nat := (l + n + unit - 1) / unit

def tagsClear (t : List Nat) (l n : Nat) : List Nat :=
  t.filter fun g => !(granLo l 16 ≤ g && g < granHi l n 16)
def tagsRange (t : List Nat) (l n : Nat) : List Nat := t.filter fun g => l ≤ g * 16 && g * 16 < l + n
def coloursRange (c : Assoc (BitVec 4)) (l n : Nat) : Assoc (BitVec 4) :=
  c.filter fun p => l ≤ p.1 * 32 && p.1 * 32 < l + n
def coloursClear (c : Assoc (BitVec 4)) (l n : Nat) : Assoc (BitVec 4) :=
  c.filter fun p => !(l ≤ p.1 * 32 && p.1 * 32 < l + n)

def setAddAll (t : List Nat) : List Nat → List Nat
  | [] => t
  | g :: rest => setAddAll (setAdd t g) rest
def assocPutAll {α : Type} (m : Assoc α) : List (Nat × α) → Assoc α
  | [] => m
  | (k, v) :: rest => assocPutAll (assocPut m k v) rest

/-! ## The module's memory as one snapshot -/

def State.shot (s : State) : Snapshot := ⟨s.mem, s.tags, s.colours⟩
def State.setShot (s : State) (x : Snapshot) : State := { s with mem := x.mem, tags := x.tags, colours := x.colours }

def Snapshot.read (x : Snapshot) (l n : Nat) : List Byte := memRead x.mem l n
def Snapshot.tag (x : Snapshot) (l : Nat) : Bool := setHas x.tags (l / 16)
def Snapshot.colour (x : Snapshot) (l : Nat) : BitVec 4 := assocGetD x.colours (l / 32) 0

/-- R58: a write of data clears the tag of every granule that it touches. -/
def Snapshot.write (x : Snapshot) (l : Nat) (bytes : List Byte) : Snapshot :=
  { x with mem := memWrite x.mem l bytes, tags := tagsClear x.tags l bytes.length }

/-- R86: 16 bytes together with the granule's tag. -/
def Snapshot.writeCap (x : Snapshot) (l : Nat) (bytes : List Byte) (tag : Bool) : Snapshot :=
  let y := x.write l bytes
  if tag && holdsTags l then { y with tags := setAdd y.tags (l / 16) } else y

def Snapshot.setColour (x : Snapshot) (l : Nat) (c : BitVec 4) : Snapshot :=
  if holdsColours l then
    { x with colours := if c = 0 then assocDel x.colours (l / 32) else assocPut x.colours (l / 32) c }
  else x

/-- `n` bytes of one memory, with tags and colours, copied to another place in the same or another memory. -/
def Snapshot.copyFrom (x : Snapshot) (src : Snapshot) (lo n dst : Nat) : Snapshot :=
  { mem := memMerge (memClear x.mem dst n) (memMove (memRange src.mem lo n) lo dst),
    tags := setAddAll (tagsClear x.tags dst n) ((tagsRange src.tags lo n).map fun g => g - lo / 16 + dst / 16),
    colours := assocPutAll (coloursClear x.colours dst n)
      ((coloursRange src.colours lo n).map fun p => (p.1 - lo / 32 + dst / 32, p.2)) }

/-- Bytes zero, tags clear, colours 0. -/
def Snapshot.zero (x : Snapshot) (lo n : Nat) : Snapshot :=
  { mem := memClear x.mem lo n, tags := tagsClear x.tags lo n, colours := coloursClear x.colours lo n }

/-- A part of memory as it is saved, by offset. -/
def Snapshot.save (x : Snapshot) (key lo n : Nat) : Saved :=
  { key := key, cells := memMove (memRange x.mem lo n) lo 0,
    tags := (tagsRange x.tags lo n).map fun g => g - lo / 16,
    colours := (coloursRange x.colours lo n).map fun p => (p.1 - lo / 32, p.2) }

def Snapshot.restore (x : Snapshot) (v : Saved) (lo n : Nat) : Snapshot :=
  let y := x.zero lo n
  { mem := memMerge y.mem (memMove v.cells 0 lo), tags := setAddAll y.tags (v.tags.map fun g => g + lo / 16),
    colours := assocPutAll y.colours (v.colours.map fun p => (p.1 + lo / 32, p.2)) }

/-! ## Reading and writing the module's memory -/

def State.byteAt (s : State) (l : Nat) : Byte := memGet s.mem l
def State.readBytes (s : State) (l n : Nat) : List Byte := memRead s.mem l n
def State.readNat (s : State) (l n : Nat) : Nat := natOf (s.readBytes l n)

/-- The check words (32-byte sectors) that a write covers whole are good again. -/
def badAfter (bad : List Nat) (l n : Nat) : List Nat := bad.filter fun k => !(l ≤ k * 32 && k * 32 + 32 ≤ l + n)

def State.writeBytes (s : State) (l : Nat) (bytes : List Byte) : State :=
  { s with mem := memWrite s.mem l bytes, tags := tagsClear s.tags l bytes.length,
           bad := badAfter s.bad l bytes.length }

def State.writeCap (s : State) (l : Nat) (bytes : List Byte) (tag : Bool) : State :=
  let t := s.writeBytes l bytes
  if tag && holdsTags l then { t with tags := setAdd t.tags (l / 16) } else t

def State.tagAt (s : State) (l : Nat) : Bool := setHas s.tags (l / 16)
def State.colourAt (s : State) (l : Nat) : BitVec 4 := assocGetD s.colours (l / 32) 0
def State.setColourAt (s : State) (l : Nat) (c : BitVec 4) : State :=
  if holdsColours l then
    { s with colours := if c = 0 then assocDel s.colours (l / 32) else assocPut s.colours (l / 32) c }
  else s

/-- The bytes of a register, low byte first. -/
def GReg.bytes (r : GReg) : List Byte := bytesOf 16 r.bits.toNat
/-- R53, R86: a tagged register from memory, or the integer in its low 64 bits. -/
def regOf (bytes : List Byte) (tag : Bool) : GReg :=
  if tag then ⟨BitVec.ofNat 128 (natOf bytes), true⟩ else intReg (BitVec.ofNat 64 (natOf bytes))

/-! ## Page encryption (R400) -/

/-- The protection under which a line is written or read: 0 for none; ENC with the creation serial of the context whose keys it
takes, which are generated with it (R399). -/
def State.lineKey (s : State) (enc : BitVec 2) (owner : BitVec 8) : Nat :=
  if enc = 0 then 0
  else 4 * (match assocGet s.contexts owner.toNat with | some c => c.serial | none => 0) + enc.toNat

/-- R400: ENC 01 and ENC 10 of one context encrypt under one XTS pair. -/
def sameCipher (k key : Nat) : Bool := k / 4 = key / 4 && decide (k % 4 = 0) = decide (key % 4 = 0)

/-- What the memory holds of a line that was written as `text` under a protection, and what a protection reads from it. -/
def cipherLine (k line text : Nat) : Nat :=
  if k % 4 = 0 then text else xtsSeal (Config.xtsKey (k / 4) 0).toNat (Config.xtsKey (k / 4) 1).toNat (64 * line) text
def plainLine (key line text : Nat) : Nat :=
  if key % 4 = 0 then text else xtsOpen (Config.xtsKey (key / 4) 0).toNat (Config.xtsKey (key / 4) 1).toNat (64 * line) text

/-- R400: a byte of device memory as a mapping with this protection reads it. -/
def State.viewByte (s : State) (key : Nat) (l : Nat) : Byte :=
  match assocGet s.lines (l / 64) with
  | none => s.byteAt l
  | some k =>
    if sameCipher k key then s.byteAt l
    else
      let text := natOf (memRead s.mem (l / 64 * 64) 64)
      BitVec.ofNat 8 (plainLine key (l / 64) (cipherLine k (l / 64) text) >>> (8 * (l % 64)))

def State.viewBytes (s : State) (key : Nat) : Nat → Nat → List Byte
  | _, 0 => []
  | l, n + 1 => s.viewByte key l :: State.viewBytes s key (l + 1) n

/-- Whether a line was written under another protection. -/
def State.foreignLine (s : State) (key : Nat) (l : Nat) : Bool :=
  match assocGet s.lines (l / 64) with
  | none => false
  | some k => k ≠ key

/-- A line comes under this protection before part of it is written: its other bytes are what the mapping reads, and
tags do not outlast the bytes that they were stored with (R57). -/
def State.takeLine (s : State) (key : Nat) (line : Nat) : State :=
  let s' := if s.foreignLine key (line * 64)
    then { s with mem := memWrite s.mem (line * 64) (s.viewBytes key (line * 64) 64),
                  tags := tagsClear s.tags (line * 64) 64 } else s
  { s' with lines := assocPut s'.lines line key }

def State.takeLines (s : State) (key : Nat) : List Nat → State
  | [] => s
  | k :: rest => State.takeLines (s.takeLine key k) key rest

/-- The numbers of the units of `unit` bytes that `n` bytes from `l` touch. -/
def unitsOf (unit l n : Nat) : List Nat := if n = 0 then [] else upFrom (granLo l unit) (granHi l n unit - granLo l unit)

/-! ## Granules of an item's own TCM (R242, R250) -/

/-- A write into a core's TCM leaves the granules that it touches in state OWN. -/
def Core.ownGranules (c : Core) (addr n : Nat) : Core :=
  if c.regionLen = 0 then c
  else
    let touched := (unitsOf 256 addr n).filter fun g => c.regionBase ≤ g * 256 && g * 256 < c.regionBase + c.regionLen
    { c with own := setAddAll c.own touched }

/-- Core number `index` of the module. -/
def coreAt (index : Nat) : CoreId := ⟨BitVec.ofNat 2 (index / 1024), BitVec.ofNat 10 index⟩

def State.markOwn (s : State) (l n : Nat) : State :=
  if isTcmLoc l then
    let k := (l - 5 * spaceSize) / 0x400000
    if k < 4096 then
      if s.core.agent = .core (coreAt k) then
        { s with core := s.core.ownGranules ((l - 5 * spaceSize) % 0x400000) n }
      else match parkedGet s.parked (.core (coreAt k)) with
        | some c => { s with parked := parkedPut s.parked (c.ownGranules ((l - 5 * spaceSize) % 0x400000) n) }
        | none => s
    else s
  else s

end Sys2Proof.Machine
end

