-- ==== Sys2Proof/Machine/Window.lean ====
section
/-! DEFINITION. What a mounted corpse shows below its page view (R371 to R374), byte by byte. -/

namespace Sys2Proof.Machine

/-- Byte `i` of a little-endian value. -/
def byteOf (v i : Nat) : Byte := BitVec.ofNat 8 (v >>> (8 * i))

/-- A list of fields, each an offset, a width in bytes and a value: the byte at an offset, zero outside them all. -/
def fieldByte : List (Nat × Nat × Nat) → Nat → Byte
  | [], _ => 0
  | (o, w, v) :: rest, i => if o ≤ i && i < o + w then byteOf v (i - o) else fieldByte rest i

/-- The fields of a fault record (R140). -/
def FaultRec.fields (r : FaultRec) : List (Nat × Nat × Nat) :=
  [(0, 1, r.code.toNat), (1, 1, r.flags.toNat), (2, 1, r.context.toNat), (3, 1, r.die.toNat), (4, 2, r.core.toNat),
   (6, 1, r.level.toNat), (8, 4, r.task.toNat), (12, 4, r.item.toNat), (16, 8, r.pc.toNat), (24, 8, r.addr.toNat),
   (32, 8, r.step.toNat), (40, 8, r.atime.toNat), (48, 8, r.detail.toNat), (56, 4, r.device.toNat), (60, 4, r.seq.toNat)]

/-- The 64 bytes of a fault record (R140). -/
def FaultRec.bytes (r : FaultRec) : List Byte := (upFrom 0 64).map (fieldByte r.fields)

def Corpse.contextNat (c : Corpse) : Nat := c.context.toNat

/-- The header (R372). -/
def Corpse.header (c : Corpse) (device : BitVec 19) (view : Addr) : List (Nat × Nat × Nat) :=
  [(0, 4, c.id.toNat), (4, 1, c.context.toNat), (5, 1, c.cause.toNat), (6, 2, c.records.length), (8, 8, c.freeze.toNat),
   (16, 8, view.toNat), (24, 8, c.quota), (32, 4, c.tasks), (36, 4, c.commands.length), (40, 8, c.cmdlist),
   (48, 4, c.killer.toNat), (52, 4, device.toNat)]

/-- A directory entry (R373). -/
def DirRec.fields (r : DirRec) : List (Nat × Nat × Nat) :=
  [(0, 4, r.task.toNat), (4, 1, r.kind.toNat), (5, 1, r.label.toNat), (6, 1, r.reason.toNat), (8, 4, r.items.length),
   (12, 4, r.reviver.toNat), (16, 8, r.time.toNat), (24, 8, r.off), (32, 4, r.newCorpse.toNat), (36, 4, r.source)]

abbrev itemRecSize : Nat := 0x4000
/-- A TCM image and its label map (R374). -/
abbrev tcmImageSize : Nat := 0x81000

/-- Offset of the TCM image of item record `k` of a directory record: the images follow the item records. -/
def DirRec.imageOff (r : DirRec) (k : Nat) : Nat :=
  r.off + r.items.length * itemRecSize + ((r.items.take k).filter fun i => i.image.isSome).length * tcmImageSize

/-- Bytes that the item records and images of a directory record take in the record area. -/
def itemsSize (items : List ItemRec) : Nat :=
  items.length * itemRecSize + (items.filter fun i => i.image.isSome).length * tcmImageSize

/-- One bit per register whose tag is set. -/
def tagMask (g : Vector GReg 32) : Nat :=
  ((upFrom 0 32).map fun i => if (vecAt g i .null).tag then 2 ^ i else 0).sum

/-- An item record (R374). -/
def ItemRec.fields (r : ItemRec) (tcmOff : Nat) : List (Nat × Nat × Nat) :=
  let c := r.core
  let core := match c.agent with | .core k => k.core.toNat + k.die.toNat * 1024 | _ => 0
  let flags := (if c.handler then 1 else 0) + (if c.mx.restart.isSome then 2 else 0) + (if r.pendG = 0 then 0 else 4)
  [(0, 4, r.item), (4, 1, r.label.toNat), (5, 1, r.reason.toNat), (6, 1, c.ident.level.toNat), (7, 1, r.state.toNat),
   (8, 8, c.pcc.cursor.toNat), (16, 2, core), (18, 2, flags), (20, 4, c.ident.slot), (24, 8, tcmOff),
   (32, 4, tagMask c.g), (36, 4, c.gPois.toNat), (40, 4, c.vPois.toNat), (44, 2, c.pPois.toNat),
   (9280, 8, c.csr.fcsr.toNat), (9288, 8, c.csr.tvec.toNat), (9296, 8, c.csr.tcause.toNat), (9304, 8, c.csr.tepc.toNat),
   (9312, 8, c.csr.sovp.toNat), (9320, 8, c.csr.sovl.toNat), (9328, 8, c.csr.mstat.toNat), (9336, 8, c.ident.step.toNat),
   (9344, 8, c.dead.count.toNat), (9352, 8, c.dead.time.toNat), (9360, 8, c.dead.arrive.toNat),
   (9368, 8, c.dead.addr.toNat), (9376, 8, c.dead.pc.toNat), (9384, 8, c.dead.home.toNat),
   (9408, 4, r.pendG.toNat), (9412, 1, c.pending.length)]

def listAt {α : Type} (l : List α) (i : Nat) : Option α := l[i]?

/-- Byte of an item record. -/
def ItemRec.byte (r : ItemRec) (tcmOff i : Nat) : Byte :=
  if 64 ≤ i && i < 576 then byteOf ((vecAt r.core.g ((i - 64) / 16) .null).bits.toNat) ((i - 64) % 16)
  else if 576 ≤ i && i < 8768 then byteOf ((vecAt r.core.v ((i - 576) / 256) 0).toNat) ((i - 576) % 256)
  else if 8768 ≤ i && i < 9280 then byteOf ((vecAt r.core.p ((i - 8768) / 32) 0).toNat) ((i - 8768) % 32)
  else if 9472 ≤ i && i < 10496 then
    match listAt r.core.pending ((i - 9472) / 64) with
    | some f => fieldByte f.fields ((i - 9472) % 64)
    | none => 0
  else fieldByte (r.fields tcmOff) i

/-- Byte of a TCM image and of its label map, two bits per 32-byte sector (R374). -/
def ItemRec.imageByte (r : ItemRec) (i : Nat) : Byte :=
  if i < 0x80000 then match r.image with | some v => memGet v.cells i | none => 0
  else
    let k := (i - 0x80000) * 4
    let two := fun j => if setHas r.torn (k + j) then 1 else 0
    BitVec.ofNat 8 (two 0 + 4 * two 1 + 16 * two 2 + 64 * two 3)

/-- A byte of the records of one directory entry, if the offset lies among them. -/
def DirRec.byte (r : DirRec) (off : Nat) : Option Byte :=
  if off < r.off || r.off = 0 then none
  else if off < r.off + r.items.length * itemRecSize then
    let k := (off - r.off) / itemRecSize
    (listAt r.items k).map fun i =>
      i.byte (if i.image.isSome then r.imageOff k else 0) ((off - r.off) % itemRecSize)
  else if off < r.off + itemsSize r.items then
    let k := (off - r.off - r.items.length * itemRecSize) / tcmImageSize
    (listAt (r.items.filter fun i => i.image.isSome) k).map fun i =>
      i.imageByte ((off - r.off - r.items.length * itemRecSize) % tcmImageSize)
  else none

def dirFind : List DirRec → Nat → Option Byte
  | [], _ => none
  | r :: rest, off => (r.byte off).orElse fun _ => dirFind rest off

/-- R371: a byte of the window below the page view. The layout of scratchpad images, of the command list, of
refused-write lists and of exemplar halves is not given: such a byte is a free value. -/
def Corpse.windowByte (c : Corpse) (device : BitVec 19) (view : Addr) (off : Nat) : Byte :=
  if off < 0x1000 then fieldByte (c.header device view) off
  else if off < 0x41000 then
    match listAt c.records ((off - 0x1000) / 64) with
    | some r => fieldByte r.fields ((off - 0x1000) % 64)
    | none => 0
  else (dirFind c.records off).getD (Config.freeByte (c.id.toNat * 2 ^ 32 + off))

def Corpse.windowBytes (c : Corpse) (device : BitVec 19) (view : Addr) (off n : Nat) : List Byte :=
  (upFrom off n).map (c.windowByte device view)

end Sys2Proof.Machine
end

