-- ==== Sys2Proof/Machine/Access.lean ====
section
/-! DEFINITION. How an access through a capability reaches memory: the address space (R62 to R67), page walks and
translation buffers (R146 to R148), and the twelve checks of R59 in their order. -/

namespace Sys2Proof.Machine

/-! ## The address space -/

/-- The regions of R62, and the culvert code window (R292). -/
inductive Region where
  | tcm | window | spad | sram | dev | mount | host | peer (device : BitVec 19)
  deriving DecidableEq, Repr

/-- R62: where an address lies before any translation. -/
inductive Zone where
  | direct (region : Region) (loc : Nat)
  | sram (die : Nat)
  | dev
  | mount (slot off : Nat)
  | window
  | nowhere
  deriving DecidableEq, Repr

def inSram (va : Nat) : Bool := 0x100000000 ≤ va && va < 0x110000000
def inDev (va : Nat) : Bool := 0x10000000000 ≤ va && va < 0x20000000000
def inMount (va : Nat) : Bool := 0x20000000000 ≤ va && va < 0x120000000000
def inWindow (va : Nat) : Bool := 0x400000000000 ≤ va && va < 0x800000000000
def inOverflow (va : Nat) : Bool := 0xFFFF80000000 ≤ va
def sramDie (va : Nat) : Nat := (va - 0x100000000) / 0x4000000
def sramOff (va : Nat) : Nat := (va - 0x100000000) % 0x4000000

/-- A command that its engine has accepted and that waits for its start time (R224, R298). -/
def Cmd.waiting (c : Cmd) : Bool := c.state = .queued && c.start.isSome
/-- The command that an engine has in hand: the first whose start time has come. -/
def Engine.head (e : Engine) : Option Cmd := e.queue.find? fun c => !c.waiting

/-- Which agent's TCM the agent in focus reaches (R63); an engine reaches that of the issuer of its command. -/
def State.tcmIndex (s : State) : Option Nat :=
  match s.core.agent with
  | .culvert _ => s.core.acts.map AgentId.memIndex
  | .cistern _ => s.core.acts.map AgentId.memIndex
  | .matrix _ _ => s.core.acts.map AgentId.memIndex
  | a => some a.memIndex

/-- The cluster whose scratchpad the agent in focus reaches. -/
def State.spadIndex (s : State) : Option Nat :=
  match s.core.agent with
  | .cistern _ => s.core.acts.bind AgentId.cluster
  | a => a.cluster

/-- R62, R63. The private memory of the security core takes the lowest 4 MiB of its space. -/
def State.regionZone (s : State) (va : Nat) : Zone :=
  if s.core.agent = .security && va < 0x400000 then .direct .tcm (tcmLoc AgentId.security.memIndex va)
  else if va < 0x80000 then match s.tcmIndex with | some k => .direct .tcm (tcmLoc k va) | none => .nowhere
  else if 0x100000 ≤ va && va < 0x200000 then
    match s.spadIndex with
    | some k => .direct .spad (spadLoc k (va - 0x100000))
    | none => .nowhere
  else if inSram va then
    if sramOff va < (vecAt s.dies (sramDie va) .reset).splitMib * 0x100000 then .sram (sramDie va) else .nowhere
  else if inDev va then .dev
  else if inMount va then .mount ((va - 0x20000000000) / 0x100000000) ((va - 0x20000000000) % 0x100000000)
  else if inWindow va then .window
  else .nowhere

/-- R292: a culvert fetches from its die's code window, and reaches nothing else while it has no command in hand. -/
def State.zone (s : State) (fetch : Bool) (va : Nat) : Zone :=
  match s.core.agent with
  | .culvert c =>
    if fetch || s.core.acts.isNone then
      if va < 0x10000 then .direct .window (windowLoc c.die.toNat va) else .nowhere
    else s.regionZone va
  | _ => s.regionZone va

/-! ## Homes (R123, R214, R307) -/

/-- R307: the physical stack that holds a granule of device memory. -/
def State.homeStack (s : State) (pa : Nat) : Nat :=
  let g := pa / 4096
  let f := (g % 65536) ^^^ (g / 65536 % 65536)
  (listAt s.hbms (f % s.hbms.length)).getD 0

/-! ## Page walks (R146) -/

/-- The levels of a walk: number, shift and width of the index, page size of a leaf (0: none). -/
def walkLevels : List (Nat × Nat × Nat × Nat) :=
  [(0, 39, 9, 0), (1, 30, 9, 0x40000000), (2, 21, 9, 0x200000), (3, 16, 5, 0x10000)]

/-- DETAIL of a TRANS record (R141). -/
def transDetail (level reason : Nat) : Word := BitVec.ofNat 64 (level + 4 * reason)

/-- The memory that there is: the bytes of device memory (R6), the granules of it that firmware withholds (R307), and the
MiB of each die's SRAM that are addressable (R5). -/
structure Fitted where
  capacity : Nat
  withheld : List Nat
  splits   : List Nat
  deriving DecidableEq, Repr

/-- R5, R6: 48 GB for each stack in use, and the split of each die. DESIGN CHOICE (assumption 16): a GB of R6 is 2³⁰
bytes. -/
def State.fitted (s : State) : Fitted := ⟨s.hbms.length * 48 * 2 ^ 30, s.withheld, s.dies.toList.map Die.splitMib⟩
/-- Whether a page may be mapped: inside the memory fitted, and no granule of it withheld. -/
def Fitted.holds (f : Fitted) (pa size : Nat) : Bool :=
  pa + size ≤ f.capacity && !(f.withheld.any fun g => pa ≤ g * 4096 && g * 4096 < pa + size)

/-- R5: whether a byte of die SRAM that an address of a window maps to is program-visible: in the addressable part of the
die whose window holds the address. DESIGN CHOICE (assumption 115): the PA of such a leaf counts over the SRAM of the
four dies, 64 MiB each in die order, and a PA elsewhere makes the entry malformed. -/
def Fitted.holdsSram (f : Fitted) (va pa : Nat) : Bool :=
  pa / 0x4000000 = sramDie va && pa % 0x4000000 < f.splits.getD (sramDie va) 0 * 0x100000

/-- R146: reads one 16-byte entry after another, `rd` giving physical memory. -/
def walkFrom (rd : Nat → Nat) (fitted : Fitted) (va : Nat) : List (Nat × Nat × Nat × Nat) → Nat → Except Word Leaf
  | [], _ => .error (transDetail 3 1)
  | (level, shift, bits, size) :: rest, table =>
    let bad : Except Word Leaf := .error (transDetail level 1)
    if table % (2 ^ bits * 16) ≠ 0 || fitted.capacity ≤ table then bad
    else
      let e := rd (table + 16 * bitsAt va shift bits)
      let pa := bitsAt e 9 35 * 512
      if e % 2 = 0 then .error (transDetail level 0)
      else if bitsAt e 64 49 ≠ 0 || bitsAt e 2 7 ≠ 0 then bad
      else if bitsAt e 1 1 = 0 then
        if level = 3 || bitsAt e 113 15 ≠ 0 || bitsAt e 44 20 ≠ 0 then bad
        else walkFrom rd fitted va rest pa
      else
        let window := inWindow va
        let enc := bitsAt e 118 2
        if size = 0 || pa % size ≠ 0 || enc = 3 then bad
        else if !window && bitsAt e 44 20 ≠ 0 || window && enc ≠ 0 then bad
        else if inDev va && !fitted.holds pa size then bad
        else if inSram va && !fitted.holdsSram va (pa + va % size) then bad
        else if bitsAt e 113 1 = 0 then .error (transDetail level 2)
        else .ok { owner := BitVec.ofNat 8 (bitsAt e 120 8), enc := BitVec.ofNat 2 enc, coloured := bitsAt e 117 1 = 1,
                   sc := bitsAt e 116 1 = 1, x := bitsAt e 115 1 = 1, w := bitsAt e 114 1 = 1, r := true,
                   host := bitsAt e 63 1 = 1, peer := BitVec.ofNat 19 (bitsAt e 44 19), pa := pa, size := size }

def walkIn (mem : List Host.Cell) (fitted : Fitted) (root va : Nat) : Except Word Leaf :=
  walkFrom (fun pa => natOf (memRead mem (devLoc pa) 16)) fitted va walkLevels root

/-! ## The record area and the trace ring (R141, R404) -/

/-- Bytes of a record area. -/
abbrev areaBytes : Nat := 0x40000
/-- Bytes of a trace ring of 2ⁿ entries. -/
def traceBytes (n : Nat) : Nat := (2 ^ n + 1) * 128
/-- What the security core maps for a context when it creates it, and until it is destroyed. -/
def Ctx.fixed (c : Ctx) : List Extent :=
  [⟨c.area.toNat, c.areaPa, areaBytes⟩, ⟨c.trace.toNat, c.tracePa, traceBytes c.traceLog⟩]

/-- R141: the leaf of a page that is mapped for good: R alone, of its context. DEDUCED (assumption 106): the ring's pages
(R404) are mapped as the record area's. -/
def fixedLeaf (owner : BitVec 8) (va : Nat) : List Extent → Option Leaf
  | [] => none
  | x :: rest =>
    if x.va / 65536 ≤ va / 65536 && va / 65536 ≤ (x.va + x.bytes - 1) / 65536 then
      some { owner := owner, enc := 0, coloured := false, sc := false, x := false, w := false, r := true, host := false, peer := 0,
             pa := (x.pa / 65536 + (va / 65536 - x.va / 65536)) * 65536, size := 65536 }
    else fixedLeaf owner va rest

/-- The mapping of an address in a context's space. -/
def mapIn (mem : List Host.Cell) (fitted : Fitted) (fixed : List Extent) (owner : BitVec 8) (root va : Nat) : Except Word Leaf :=
  match fixedLeaf owner va fixed with
  | some l => .ok l
  | none => walkIn mem fitted root va
def State.mapOf (s : State) (c : Ctx) (va : Nat) : Except Word Leaf := mapIn s.mem s.fitted c.fixed c.num c.root va

/-- First address of the page that a leaf maps around `va`. -/
def Leaf.pageOf (l : Leaf) (va : Nat) : Nat := va / l.size * l.size

/-! ## Translation buffers (R147, R148) -/

/-- Entries that a buffer holds (R147). -/
def Buffer.size : Buffer → Nat
  | .micro _ => 32
  | .cluster _ => 512
  | .die _ => 16384

/-- R147: the buffers of an agent: its micro-TLB, the TLB of its cluster, the shared TLB of its die. -/
def buffersOf (a : AgentId) : List Buffer :=
  .micro a :: (match a.cluster with | some k => [.cluster k] | none => []) ++ [.die a.die]

def TlbEntry.inBuffer (b : Buffer) (e : TlbEntry) : Bool := e.buffer = b

/-- A translation in one buffer. -/
def tlbFind (b : Buffer) (context : BitVec 8) (va : Nat) : List TlbEntry → Option Leaf
  | [] => none
  | e :: rest =>
    if e.buffer = b && e.context = context && e.leaf.pageOf va = e.va then some e.leaf else tlbFind b context va rest

/-- A translation in the first of several buffers that has one. -/
def State.tlbLookup (s : State) (context : BitVec 8) (va : Nat) : List Buffer → Option Leaf
  | [] => none
  | b :: rest =>
    match tlbFind b context va s.tlb with
    | some l => some l
    | none => State.tlbLookup s context va rest

/-- The oldest entry of a buffer leaves it. -/
def tlbDrop (b : Buffer) : List TlbEntry → List TlbEntry
  | [] => []
  | e :: rest => if e.inBuffer b then rest else e :: tlbDrop b rest

/-- A buffer takes an entry; a full one loses its oldest (DESIGN CHOICE, assumption 13). -/
def tlbPut (context : BitVec 8) (va : Nat) (l : Leaf) (tlb : List TlbEntry) (b : Buffer) : List TlbEntry :=
  (if b.size ≤ (tlb.filter (TlbEntry.inBuffer b)).length then tlbDrop b tlb else tlb) ++ [⟨b, context, va, l⟩]

/-- R147: a successful walk fills the buffers of the agent that it serves. -/
def State.tlbFill (s : State) (a : AgentId) (context : BitVec 8) (va : Nat) (l : Leaf) : State :=
  { s with tlb := (buffersOf a).foldl (tlbPut context va l) s.tlb }

/-- R148: a buffered translation, anywhere in the module, of a physical page of the leaf with another ENC or owner. -/
def aliasFind (l : Leaf) (va : Nat) : List TlbEntry → Option TlbEntry
  | [] => none
  | e :: rest =>
    if inSram e.va = inSram va && (inSram e.va || inDev e.va) && e.leaf.pa < l.pa + l.size
        && l.pa < e.leaf.pa + e.leaf.size && (e.leaf.enc ≠ l.enc || e.leaf.owner ≠ l.owner)
    then some e else aliasFind l va rest

/-- DETAIL of an ALIAS record (R141). -/
def aliasDetail (l : Leaf) (e : TlbEntry) : Word :=
  BitVec.ofNat 64 (max l.pa e.leaf.pa / 65536 + e.leaf.enc.toNat * 2 ^ 40 + e.leaf.owner.toNat * 2 ^ 42)

/-! ## Retained spaces (R369, R371, R382) -/

/-- Where the bytes of a page of device memory or die SRAM stand: device memory or SRAM by its virtual region; a PA of die
SRAM counts over the four dies (DESIGN CHOICE, assumption 115). -/
def physLoc (va pa : Nat) : Nat := if inSram va then sramLoc pa else devLoc pa

/-- R369: the leaf that a retained space has for an address, and where its bytes stand. -/
def layerLeaf (fitted : Fitted) (va : Nat) : List Layer → Option (Leaf × Snapshot × Nat)
  | [] => none
  | .copies base pages shot :: rest =>
    if setHas pages (va / 65536) then (layerLeaf fitted va rest).map fun x => (x.1, shot, base + va)
    else layerLeaf fitted va rest
  | .tree root fixed owner shot :: rest =>
    match mapIn shot.mem fitted fixed owner root va with
    | .ok l => if l.owner = owner then some (l, shot, physLoc va (l.pa + va % l.size)) else layerLeaf fitted va rest
    | .error _ => layerLeaf fitted va rest

def corpseFind (id : BitVec 32) : List Corpse → Option Corpse
  | [] => none
  | c :: rest => if c.id = id then some c else corpseFind id rest

def overlayFind (context : BitVec 8) (task : BitVec 32) : List Overlay → Option Overlay
  | [] => none
  | o :: rest => if o.context = context && o.task = task then some o else overlayFind context task rest

/-- The overlay of the task that the agent in focus runs. -/
def State.overlay (s : State) : Option Overlay := overlayFind s.core.owner s.core.ident.task s.overlays

/-! ## Places -/

/-- Where bytes stand: in the module, in a corpse's retained memory, or in the records of a mount window. -/
inductive Store where
  | live
  | shot (x : Snapshot) (loc : Nat)
  | records (c : Corpse) (view : Addr) (off : Nat)
  deriving DecidableEq, Repr

/-- A checked place: its address after redirection, its location, the leaf that maps it, its bytes. -/
structure Place where
  va     : Addr
  region : Region
  loc    : Nat
  leaf   : Option Leaf
  store  : Store
  fill   : Option (Nat × Leaf)
  copy   : Bool
  deriving DecidableEq, Repr

/-- R400: the protection under which device memory is written and read through the place. -/
def State.keyOf (s : State) (p : Place) : Option Nat :=
  match p.region, p.leaf with
  | .dev, some l => some (s.lineKey l.enc l.owner)
  | _, _ => none

def Place.sc (p : Place) : Bool := match p.leaf with | some l => l.sc | none => false

/-- R214: the die of the place's home. -/
def State.homeDie (s : State) (p : Place) : Option (BitVec 2) :=
  match p.region, p.leaf with
  | .spad, _ => some s.core.agent.die
  | .sram, _ => some (BitVec.ofNat 2 (sramDie p.va.toNat))
  | .dev, some l => some (BitVec.ofNat 2 (s.homeStack (l.pa + p.va.toNat % l.size) / 4))
  | _, _ => none

/-! ## The checks of R59 -/

/-- One access: the capability, the register and operand role of R141, address, bytes, alignment, the permissions
that R60 asks for, and what kind it is. `inB` is step 4. `colour` is false for STG and LDG, which skip steps 11
and 12 (R110). `covers`: the extents that its instruction or operand writes beside it
(R383). `data` is false where the bytes are read later, as an engine reads its operands: step 12 is then made
at the beat (R296, R300). -/
structure Access where
  cap    : GReg
  reg    : Nat
  role   : Nat
  ea     : Addr
  n      : Nat
  align  : Nat
  inB    : Bool
  r      : Bool
  w      : Bool
  x      : Bool
  k      : Bool
  t      : Bool
  colour : Bool
  covers : List (Nat × Nat) := []
  data   : Bool := true
  deriving DecidableEq, Repr

/-- A failed check: the step of R59 and its fault. -/
abbrev Checked (α : Type) := Except (Nat × Trap) α

def fail {α : Type} (step : Nat) (code : BitVec 8) (ea : Addr) (detail : Word) : Checked α :=
  .error (step, ⟨code, ea.setWidth 64, detail⟩)

/-- DETAIL of a capability fault (R141). -/
def Access.detail (a : Access) : Nat := a.reg + a.role * 32

def need (ok : Bool) (step : Nat) (code : BitVec 8) (ea : Addr) (detail : Nat) : Checked Unit :=
  if ok then .ok () else fail step code ea (BitVec.ofNat 64 detail)

/-- R65: scratchpad bytes of the exemplar store of a cluster in use. -/
def State.exemplarStore (s : State) (a : Access) : Bool :=
  s.itemMode && 0x1E0000 < a.ea.toNat + a.n && a.ea.toNat < 0x200000 &&
    match s.core.agent.cluster with
    | some k => (assocGetD s.clusters k .reset).inUse
    | none => false

/-- R67: the address at which a sump overflow access is performed. -/
def State.redirect (s : State) (ea : Addr) : Option Addr :=
  let sovp := s.core.csr.sovp.toNat
  let sovl := s.core.csr.sovl.toNat
  let o := 2 ^ 48 - ea.toNat
  if sovp % 16 = 0 && sovl % 16 = 0 && sovl ≤ sovp && sovp - sovl ≤ 2 ^ 31 - s.core.ident.sump && sovl + o ≤ sovp
  then some (BitVec.ofNat 48 (sovp - o)) else none

/-- Steps 1 to 6: the address at which the access is performed, and whether it was redirected. R67: a redirected access
is then one through a capability with the permissions of g29, which are R, W and K. -/
def State.checkCap (s : State) (a : Access) : Checked (Addr × Bool) := do
  need a.cap.tag 1 cKTAG a.ea a.detail
  need (!a.cap.isSealed) 2 cKSEAL a.ea a.detail
  need ((!a.r || a.cap.permR) && (!a.w || a.cap.permW) && (!a.x || a.cap.permX) && (!a.k || a.cap.permK)
    && (!a.t || a.cap.permT)) 3 cKPRM a.ea a.detail
  need (a.inB && !s.exemplarStore a) 4 cKBND a.ea a.detail
  need (a.ea.toNat % a.align = 0) 5 cALIGN a.ea (a.role % 4 * 32)
  if inOverflow a.ea.toNat then
    match s.redirect a.ea with
    | some va => do
      need (!a.x && !a.t) 6 cKPRM va a.detail
      return (va, true)
    | none => fail 6 cSUMP a.ea 0
  else .ok (a.ea, false)

/-- Step 7 for a page of the context's own space: a buffered translation, or a walk to be filled from. -/
def State.ownLeaf (s : State) (va : Nat) : Except Word (Leaf × Bool) :=
  match s.tlbLookup s.core.owner va (buffersOf s.core.agent) with
  | some l => .ok (l, false)
  | none =>
    match assocGet s.contexts s.core.owner.toNat with
    | none => .error (transDetail 0 0)
    | some c => (s.mapOf c va).map fun l => (l, true)

/-- Step 7: a translated address with its leaf, where its bytes stand, and whether the walk fills a buffer. -/
def State.translate (s : State) (va : Addr) : Except Word Place :=
  let v := va.toNat
  let finish := fun (l : Leaf) (store : Store) (loc : Nat) (fill copy : Bool) =>
    let region : Region := if inSram v then .sram else if inDev v then .dev else if l.host then .host else .peer l.peer
    ({ va := va, region := region, loc := loc, leaf := some l, store := store, copy := copy,
       fill := if fill then some (l.pageOf v, l) else none } : Place)
  let own := (s.ownLeaf v).map fun (l, fill) =>
    let pa := l.pa + v % l.size
    finish l .live (if inWindow v then (if l.host then hostLoc pa else peerLoc l.peer pa) else physLoc v pa) fill false
  match s.overlay with
  | none => own
  | some o =>
    match layerLeaf s.fitted v o.space with
    | none => own
    | some (l, shot, loc) =>
      let l := { l with owner := s.core.owner }
      if inWindow v then
        let pa := l.pa + v % l.size
        .ok (finish l .live (if l.host then hostLoc pa else peerLoc l.peer pa) false false)
      else if setHas o.pages (v / 65536) then .ok (finish l .live (overlayBase o.context o.task + v) false false)
      else .ok (finish l (.shot shot loc) (overlayBase o.context o.task + v) false true)

/-- Step 7 for a mount window (R371, R380). -/
def State.mountPlace (s : State) (va : Addr) (slot off : Nat) : Except Word Place :=
  let c := (assocGet s.contexts s.core.owner.toNat).bind fun c => assocGet c.mounts slot
  match c.bind fun m => (corpseFind m.1 s.corpses).map fun k => (k, m.2) with
  | none => .error (transDetail 3 0)
  | some (k, view) =>
    let place := fun (store : Store) =>
      ({ va := va, region := .mount, loc := 0, leaf := none, store := store, fill := none, copy := false } : Place)
    if off < 0x80000000 then .ok (place (.records k view off))
    else
      let v := (view.toNat + (off - 0x80000000)) % 2 ^ 48
      if inSram v || inDev v then
        match layerLeaf s.fitted v k.space with
        | some (_, shot, loc) => .ok (place (.shot shot loc))
        | none => .error (transDetail 3 0)
      else .error (transDetail 3 0)

/-- R292: the culvert code window is read-only. -/
def State.windowLeaf (s : State) : Leaf :=
  ⟨s.core.owner, 0, false, false, true, false, true, false, 0, 0, 0x10000⟩

/-- Step 7. DESIGN CHOICE (assumption 91): where SOVP less the depth lies outside device memory, a redirected access
raises TRANS with reason 3, as an address in no region does. -/
def State.resolve (s : State) (fetch redirected : Bool) (va : Addr) : Except Word Place :=
  match s.zone fetch va.toNat with
  | .direct region loc =>
    if redirected then .error (transDetail 0 3)
    else .ok { va := va, region := region, loc := loc, leaf := if region = .window then some s.windowLeaf else none,
               store := .live, fill := none, copy := false }
  | .sram _ => if redirected then .error (transDetail 0 3) else s.translate va
  | .dev => s.translate va
  | .mount slot off => if redirected then .error (transDetail 0 3) else s.mountPlace va slot off
  | .window => if redirected then .error (transDetail 0 3) else s.translate va
  | .nowhere => .error (transDetail 0 3)

/-- R383: the lowest tainted sector that the bytes touch. -/
def taintFind (taint : List Nat) : List Nat → Option Nat
  | [] => none
  | k :: rest => if setHas taint k then some k else taintFind taint rest

/-! ## Writes that an agent has on their way (R120, R131) -/

/-- STG writes the colour of a granule, 32 bytes long (R110). -/
def Flight.size (f : Flight) : Nat := if f.colour.isSome then 32 else f.bytes.length

/-- The colour that the last write of a list on its way from an agent gives a granule. -/
def colourOnWay (a : AgentId) (g : Nat) : List Flight → Option (BitVec 4)
  | [] => none
  | f :: rest =>
    match colourOnWay a g rest with
    | some c => some c
    | none => if f.agent = a && f.loc / 32 = g then f.colour else none

/-- R111: the colour of granule `g` as the agent in focus sees it, its own STGs before it. -/
def State.granuleColour (s : State) (g : Nat) : BitVec 4 :=
  (colourOnWay s.core.agent g s.flights).getD (assocGetD s.colours g 0)

/-- Colour of the `j`-th granule that starts at or before the place. DESIGN CHOICE (assumption 95): the header, directory
and records of a mount window read as colour 0; host and peer memory carry none and compare as 0 (assumption 90). -/
def State.colourOf (s : State) (p : Place) (j : Nat) : BitVec 4 :=
  match p.store with
  | .live => s.granuleColour (p.loc / 32 + j)
  | .shot x loc => assocGetD x.colours (loc / 32 + j) 0
  | .records _ _ _ => 0

/-- R59 step 11 over granules: the first one whose colour is another. -/
def State.colourFail (s : State) (p : Place) (c : BitVec 4) (j : Nat) : Nat → Option (BitVec 4)
  | 0 => none
  | k + 1 => if s.colourOf p j = c then State.colourFail s p c (j + 1) k else some (s.colourOf p j)

/-- R59 step 12: an uncorrectable check word, or a line whose MAC does not hold (R400). -/
def State.dataBad (s : State) (p : Place) (n : Nat) : Bool :=
  match p.store with
  | .live =>
    (unitsOf 32 p.loc n).any (fun k => setHas s.bad k) ||
    (match p.region, p.leaf with
     | .dev, some l => l.enc = 2 && (unitsOf 64 p.loc n).any (fun k => s.foreignLine (s.lineKey l.enc l.owner) (k * 64))
     | _, _ => false)
  | _ => false

/-- Whether extents, each an address and a number of bytes, cover sector `k` whole. -/
def coversSector (xs : List (Nat × Nat)) (k : Nat) : Bool :=
  let near := xs.filter fun x => x.1 < 32 * k + 32 && 32 * k < x.1 + x.2
  (upFrom (32 * k) 32).all fun b => near.any fun x => x.1 ≤ b && b < x.1 + x.2

/-- R383: of the sectors that an access performed at `va` touches, those that a write does not cover whole, with the other
extents of its instruction. -/
def Access.uncovered (a : Access) (va : Nat) : List Nat :=
  let ks := unitsOf 32 va a.n
  if a.w && !a.r then
    ks.filter fun k => !coversSector ((va, a.n) :: a.covers.map fun x => ((x.1 + va + 2 ^ 48 - a.ea.toNat) % 2 ^ 48, x.2)) k
  else ks

/-- R59: every step, in order. -/
def State.access (s : State) (a : Access) : Checked Place := do
  let (va, redirected) ← s.checkCap a
  let p ← match s.resolve a.x redirected va with
    | .ok p => .ok p
    | .error d => fail 7 cTRANS va d
  match s.overlay with
  | some o =>
    match if o.taint.isEmpty then none else taintFind o.taint (a.uncovered va.toNat) with
    | some k => fail 7 cTAINT (BitVec.ofNat 48 (k * 32)) 0
    | none => .ok ()
  | none => .ok ()
  match p.leaf, p.region with
  | _, .mount =>
    need (!(a.w || a.t)) 8 cCORPSE va a.detail
    need (!a.x) 8 cXN va a.detail
  | some l, _ =>
    need (!(a.w || a.t) || l.w) 8 cRO va a.detail
    need (!a.x || l.x) 8 cXN va a.detail
    need (l.owner = s.core.owner) 9 cOWNER va l.owner.toNat
    match p.fill with
    | some _ =>
      match if inWindow va.toNat then none else aliasFind l va.toNat s.tlb with
      | some e => fail 10 cALIAS va (aliasDetail l e)
      | none => .ok ()
    | none => .ok ()
  | none, _ => .ok ()
  let coloured := match p.region, p.leaf with | .spad, _ => true | .mount, _ => false | _, some l => l.coloured | _, none => false
  let colour : BitVec 4 := if redirected then 0 else a.cap.colour
  if a.colour && coloured then
    match s.colourFail p colour 0 ((p.va.toNat % 32 + a.n + 31) / 32) with
    | some c => fail 11 cMTAG va (BitVec.ofNat 64 (a.detail + colour.toNat * 256 + c.toNat * 4096))
    | none => .ok ()
  else .ok ()
  need (!(s.dataBad p a.n) || !(a.r || a.x) || !a.colour || !a.data) 12 cINTEG va 0
  return p

/-- R147: a successful walk fills the buffers of the issuing agent. -/
def State.fillTlb (s : State) (p : Place) : State :=
  match p.fill with
  | some e => s.tlbFill s.core.agent s.core.owner e.1 e.2
  | none => s

/-- One access checked whole; a failure is a precise fault. -/
def State.check (s : State) (a : Access) : R (State × Place) :=
  match s.access a with
  | .ok p => .ok (s.fillTlb p, p)
  | .error (_, t) => .error (.trap t)

/-- Several accesses of one instruction, each step for every one before the next step (R194): of all failures the
one at the lowest step, the first of them in the list. -/
def State.accessAll (s : State) : List Access → State × List Place × Option (Nat × Trap)
  | [] => (s, [], none)
  | a :: rest =>
    match s.access a with
    | .ok p =>
      let (s', ps, e) := State.accessAll (s.fillTlb p) rest
      (s', p :: ps, e)
    | .error (k, t) =>
      let (s', ps, e) := State.accessAll s rest
      (s', ps, match e with | some (j, u) => if j < k then some (j, u) else some (k, t) | none => some (k, t))

def State.checkAll (s : State) (as : List Access) : R (State × List Place) :=
  match s.accessAll as with
  | (s', ps, none) => .ok (s', ps)
  | (_, _, some (_, t)) => .error (.trap t)

/-- Accesses checked one after another, each whole (R94). -/
def State.checkEach (s : State) : List Access → R (State × List Place)
  | [] => .ok (s, [])
  | a :: rest => do
    let (s, p) ← s.check a
    let (s, ps) ← State.checkEach s rest
    return (s, p :: ps)

end Sys2Proof.Machine
end

