-- ==== Sys2Proof/Machine/Records.lean ====
section
/-! DEFINITION. Fault records and the rings of a function: event stream, completion ring (R140, R141, R255, R345), and
the tables of contexts, functions and tasks. -/

namespace Sys2Proof.Machine

/-! ## Tables -/

def State.ctx (s : State) (n : BitVec 8) : Option Ctx := assocGet s.contexts n.toNat
def State.setCtx (s : State) (c : Ctx) : State := { s with contexts := assocPut s.contexts c.num.toNat c }
def State.fn (s : State) (f : Nat) : Fn := assocGetD s.fns f .reset
def State.setFn (s : State) (f : Nat) (x : Fn) : State := { s with fns := assocPut s.fns f x }
def State.cluster (s : State) (k : Nat) : Cluster := assocGetD s.clusters k .reset
def State.setCluster (s : State) (k : Nat) (c : Cluster) : State := { s with clusters := assocPut s.clusters k c }
def State.dieAt (s : State) (d : BitVec 2) : Die := s.dies[d.toNat]
def State.setDie (s : State) (d : BitVec 2) (x : Die) : State := { s with dies := s.dies.set d.toNat x }

def taskFind (context : BitVec 8) (num : BitVec 32) : List Task → Option Task
  | [] => none
  | t :: rest => if t.context = context && t.num = num then some t else taskFind context num rest
def taskPut (t : Task) : List Task → List Task
  | [] => [t]
  | u :: rest => if u.context = t.context && u.num = t.num then t :: rest else u :: taskPut t rest
def State.task (s : State) (context : BitVec 8) (num : BitVec 32) : Option Task := taskFind context num s.tasks
def State.setTask (s : State) (t : Task) : State := { s with tasks := taskPut t s.tasks }
/-- The task whose item the agent in focus runs. -/
def State.ownTask (s : State) : Option Task := s.task s.core.owner s.core.ident.task

/-! ## Rings in host memory (R344, R345) -/

/-- Writes entries while the ring has room, lowest first; answers the entries held back. -/
def ringWrite (mem : List Host.Cell) (base size : Nat) (head : Word) (slots : Nat) :
    Word → List (List Byte) → List Host.Cell × Word × List (List Byte)
  | tail, [] => (mem, tail, [])
  | tail, e :: rest =>
    if (tail - head).toNat < slots then
      let mem := memWrite mem (hostLoc (base + size * (tail.toNat % slots))) e
      ringWrite mem base size head slots (tail + 1) rest
    else (mem, tail, e :: rest)

/-- R344: slots of a ring whose size register holds `n`, none while it is unconfigured. -/
def ringSlots (size : Word) (most : Nat) : Nat :=
  if 4 ≤ size.toNat && size.toNat ≤ most then 2 ^ size.toNat else 0

/-- The device writes what it holds for the completion and the event ring as far as they have room. -/
def State.flushRings (s : State) (f : Nat) : State :=
  let x := s.fn f
  if x.completions.isEmpty && x.events.isEmpty || !x.master then s
  else
    let (mem, ctail, cs) := ringWrite s.mem x.cbase.toNat 32 x.chead (ringSlots x.csize 16) x.ctail x.completions
    let (mem, etail, _) := ringWrite mem x.ebase.toNat 64 x.ehead (ringSlots x.esize 14) x.etail (x.events.map FaultRec.bytes)
    let es := x.events.drop (etail - x.etail).toNat
    { s with mem := mem, fns := assocPut s.fns f { x with ctail := ctail, completions := cs, etail := etail, events := es } }

/-- R141: a record joins the event stream of a function under its next SEQ; it answers the record as numbered. -/
def State.streamPut (s : State) (f : Nat) (r : FaultRec) : State × FaultRec :=
  let x := s.fn f
  let r := { r with seq := x.seq }
  let s := s.setFn f { x with seq := x.seq + 1, events := x.events ++ [r], stream := x.stream ++ [r] }
  (s.flushRings f, r)

/-! ## Fault records -/

/-- R140: a record of the agent in focus. -/
def State.record (s : State) (code flags : BitVec 8) (pc : Addr) (addr detail : Word) : FaultRec :=
  { code := code, flags := flags, context := s.core.owner, die := s.core.agent.die, core := s.core.agent.coreNumber,
    level := s.core.ident.level, task := s.core.ident.task, item := BitVec.ofNat 32 s.core.ident.item,
    pc := pc.setWidth 64, addr := addr, step := s.core.ident.step, atime := s.now, detail := detail, device := s.device,
    seq := 0 }

/-- R141: offset in the record area of the slot of an agent. -/
def recordSlot (a : AgentId) : Nat := 64 * (1024 * a.die.toNat + a.coreNumber.toNat)

/-- R141: the bytes of a record at an agent's slot in a context's record area, by physical address and without
checks. -/
def State.writeSlot (s : State) (context : BitVec 8) (a : AgentId) (r : FaultRec) : State :=
  match s.ctx context with
  | some c =>
    let l := devLoc (c.areaPa + recordSlot a)
    (s.takeLines 0 (unitsOf 64 l 64)).writeBytes l r.bytes
  | none => s

/-- R141: a record goes to the slot of the agent in focus and to its context's event stream. -/
def State.writeRecord (s : State) (r : FaultRec) : State × FaultRec :=
  match s.ctx r.context with
  | some c =>
    let (s, r) := s.streamPut c.fn.toNat r
    (s.writeSlot r.context s.core.agent r, r)
  | none => (s, r)

/-- R138, R141: a record that goes to the event stream alone. -/
def State.streamRecord (s : State) (r : FaultRec) : State :=
  match s.ctx r.context with
  | some c => (s.streamPut c.fn.toNat r).1
  | none => s

/-- R142: the capability in TREC: R only, length 64, colour 0. -/
def State.recordCapOf (s : State) (k : Core) : GReg :=
  match s.ctx k.owner with
  | some c => let a := c.area + BitVec.ofNat 48 (recordSlot k.agent); mkCap 0 false 1 64 0 a a
  | none => mkCap 0 false 1 64 0 0 0
def State.recordCap (s : State) : GReg := s.recordCapOf s.core

/-- R141: an event record of a whole task. -/
def State.eventRecord (s : State) (code : BitVec 8) (t : Task) (atime : Tick) (detail : Word) : State :=
  s.streamRecord
    { code := code, flags := 8, context := t.context, die := 0, core := 0, level := 0, task := t.num, item := 0,
      pc := 0, addr := 0, step := t.step, atime := atime, detail := detail, device := s.device, seq := 0 }

/-! ## Imprecise faults (R138) -/

/-- R235: the item that a FREEZE made item 0 of the next level is still the item that executed it. -/
def Ident.isItem (d : Ident) (o : Origin) : Bool :=
  d.level = o.level && d.item = o.item && d.parent = o.parent
    || o.level = 1 && d.level = 2 && d.item = 0 && d.parent = o.item
    || o.level = 0 && d.item = 0 && (d.level = 1 || d.level = 2 && d.parent = 0)

/-- Whether a core holds the item that something belongs to. -/
def Core.holds (c : Core) (o : Origin) : Bool :=
  c.run ≠ .idle && c.owner = o.context && c.ident.task = o.task && c.ident.isItem o

/-- The first core of a list that holds an item, changed. -/
def coresMap (p : Core → Bool) (f : Core → Core) : List Core → List Core
  | [] => []
  | c :: rest => if p c then f c :: rest else c :: coresMap p f rest
def coresFind (p : Core → Bool) : List Core → Option Core
  | [] => none
  | c :: rest => if p c then some c else coresFind p rest

/-- The saved cores of a task: preempted, or yielded and queued. -/
def Task.savedCores (t : Task) : List Core := t.saved ++ (t.queues.map fun q => q.2.filterMap (·.saved)).flatten
/-- Commands of a task that wait with it or with an item of it (R249, R271, R301). -/
def Task.keptCommands (t : Task) : List Cmd :=
  (t.commands ++ (t.queues.map fun q => (q.2.map (·.commands)).flatten).flatten).map (·.2)
def Queued.mapSaved (p : Core → Bool) (f : Core → Core) (q : Queued) : Queued :=
  { q with saved := q.saved.map fun c => if p c then f c else c }
def Task.mapSaved (p : Core → Bool) (f : Core → Core) (t : Task) : Task :=
  { t with saved := coresMap p f t.saved, queues := t.queues.map fun q => (q.1, q.2.map (Queued.mapSaved p f)) }

/-- The agent that runs an item: the one that issued, or the core on which it has resumed. -/
def State.itemAgent (s : State) (o : Origin) : Option Core :=
  let c := s.agent o.agent
  if c.holds o then some c
  else coresFind (fun c => c.run = .item && c.holds o) (s.core :: s.parked)

/-- The state of an item wherever it is: on its core, or saved with its task (R138). -/
def State.itemCore (s : State) (o : Origin) : Option Core :=
  match s.itemAgent o with
  | some c => some c
  | none => (s.task o.context o.task).bind fun t => coresFind (fun c => c.holds o) t.savedCores
def State.updateItem (s : State) (o : Origin) (f : Core → Core) : State :=
  match s.itemAgent o with
  | some c => s.setAgent (f c)
  | none =>
    match s.task o.context o.task with
    | some t => s.setTask (t.mapSaved (fun c => c.holds o) f)
    | none => s

/-- R138, R140: an imprecise fault that is not delivered: its record goes to the event stream alone. -/
def State.dropImprecise (s : State) (r : FaultRec) : State := s.streamRecord { r with flags := r.flags ||| 0x21 }
def State.dropAll (s : State) : List FaultRec → State
  | [] => s
  | r :: rest => State.dropAll (s.dropImprecise r) rest

/-- A report reaches an item: pending, or dropped when 16 are pending or its item has gone. -/
def State.reportImprecise (s : State) (o : Origin) (r : FaultRec) : State :=
  match s.itemCore o with
  | some c =>
    if c.pending.length < 16 then s.updateItem o fun c => { c with pending := c.pending ++ [r] } else s.dropImprecise r
  | none => s.dropImprecise r

/-- R138, R140: the record of a fault that arose after its instruction had retired. DESIGN CHOICE (assumption 89): DIE,
CORE and ATIME are those of the core that holds the item when the report arrives, or else of the issuing agent. -/
def State.lateRecord (s : State) (code : BitVec 8) (o : Origin) (addr : Addr) (detail : Word) : FaultRec :=
  let c := s.itemCore o
  let a := match c with | some c => c.agent | none => o.agent
  let d := match c with | some c => c.ident | none => { Ident.none with level := o.level, step := o.step, item := o.item }
  { code := code, flags := 0, context := o.context, die := a.die, core := a.coreNumber, level := d.level,
    task := o.task, item := BitVec.ofNat 32 d.item, pc := 0, addr := addr.setWidth 64, step := d.step,
    atime := (s.dieAt a.die).atime, detail := detail, device := s.device, seq := 0 }

/-! ## Dependence counters (R268, R269) -/

def State.counter (s : State) (context : BitVec 8) (k : BitVec 12) : Word :=
  match s.ctx context with
  | some c => assocGetD c.counters k.toNat 0
  | none => 0

/-- R269: SIGNAL's increment, saturating. -/
def State.signalCounter (s : State) (context : BitVec 8) (k : BitVec 12) (n : Word) : State :=
  match s.ctx context with
  | some c =>
    let v := assocGetD c.counters k.toNat 0
    let sum := v.toNat + n.toNat
    s.setCtx { c with counters := assocPut c.counters k.toNat (if sum < 2 ^ 64 then BitVec.ofNat 64 sum else BitVec.allOnes 64) }
  | none => s

/-! ## The journal (R259) -/

def journalPut (j : Journal) : List Journal → List Journal
  | [] => []
  | e :: rest => if e.seq = j.seq then j :: rest else e :: journalPut j rest
def journalFind (seq : Nat) : List Journal → Option Journal
  | [] => none
  | e :: rest => if e.seq = seq then some e else journalFind seq rest

/-- Which of the contexts that have had a number it is that has it now (R264, R399). -/
def State.serialOf (s : State) (context : BitVec 8) : Nat := match s.ctx context with | some c => c.serial | none => 0

/-- An accepted command takes the next entry; the ring keeps the last 65,536. -/
def State.journalAdd (s : State) (j : Journal) : State :=
  { s with journal := pushLast 65536 s.journal { j with seq := s.nextSeq, serial := s.serialOf j.context }, nextSeq := s.nextSeq + 1 }

/-- A change of OUTCOME, rewritten in place. -/
def State.journalSet (s : State) (seq : Nat) (outcome : BitVec 8) (corpse : BitVec 32) (result : Word) : State :=
  match journalFind seq s.journal with
  | some j =>
    { s with journal := journalPut { j with outcome := outcome, corpse := corpse, result := result, done := s.packageTime } s.journal }
  | none => s

/-- The bytes of a journal entry (R259). -/
def Journal.bytes (j : Journal) : List Byte :=
  (upFrom 0 64).map (fieldByte
    [(0, 8, j.accession.toNat), (8, 8, j.seq), (16, 8, j.accept.toNat), (24, 1, j.queue.toNat), (25, 1, j.context.toNat),
     (26, 2, j.opcode.toNat), (28, 1, j.outcome.toNat), (29, 1, j.cls.toNat), (32, 4, j.task.toNat), (36, 4, j.corpse.toNat),
     (40, 8, j.done.toNat), (48, 8, j.result.toNat)])

end Sys2Proof.Machine
end

