-- ==== Sys2Proof/Machine/Perform.lean ====
section
/-! DEFINITION. How accesses are performed at their homes (R123 to R128): writes on their way, what drains them, and
the bytes of a checked place. -/

namespace Sys2Proof.Machine

/-! ## Writes on their way -/

/-- R194: a write of `n` bytes covers a sector with an uncorrectable check word in part only; its instruction covers those of
`whole`. DESIGN CHOICE (assumption 86): a check word covers an aligned sector of 32 bytes. -/
def State.badWrite (s : State) (l n : Nat) (whole : List Nat) : Bool :=
  !s.bad.isEmpty && (unitsOf 32 l n).any fun k => setHas s.bad k && !(l ≤ k * 32 && k * 32 + 32 ≤ l + n) && !whole.contains k

/-- The check words of sectors are good again. -/
def State.mend (s : State) (whole : List Nat) : State :=
  if whole.isEmpty then s else { s with bad := s.bad.filter fun k => !whole.contains k }

def isAway (l : Nat) : Bool := isHostLoc l || isPeerLoc l

/-- A write performed at its home. One that covers a bad sector in part is not made: INTEG is raised imprecisely. -/
def State.perform (s : State) (f : Flight) : State :=
  match f.colour with
  | some c => s.setColourAt f.loc c
  | none =>
    if s.badWrite f.loc f.bytes.length f.whole then
      s.reportImprecise f.origin (s.lateRecord cINTEG f.origin f.va 0)
    else
    let s := match f.key with | some k => s.takeLines k (unitsOf 64 f.loc f.bytes.length) | none => s
    let s := if f.cap then s.writeCap f.loc f.bytes true else s.writeBytes f.loc f.bytes
    (s.mend f.whole).markOwn f.loc f.bytes.length

/-- A write on its way is performed; the device does not see one arrive at the host, and one at a peer has not been
acknowledged yet (R128, R362). -/
def State.performPosted (s : State) (f : Flight) : State :=
  let s := s.perform f
  if isAway f.loc then { s with posted := s.posted ++ [f] } else s

def State.performAll (s : State) : List Flight → State
  | [] => s
  | f :: rest => State.performAll (s.performPosted f) rest

/-! ## What a home refuses (R360, R361) -/

/-- A task that has been accepted and has not ended. -/
def Task.alive (t : Task) : Bool :=
  match t.state with
  | .waiting => true | .running => true | .preempted => true | .stopped => true
  | .done => false | .killed => false | .refused => false

/-- A recorded corpse has an item whose host or peer requests have not ended (R360). -/
def Corpse.awaiting (k : Corpse) : Bool := k.records.any fun d => d.kind = 0 && d.items.any fun r => r.core.wait.isSome
/-- The items of the freeze record of a task. -/
def Corpse.frozenItems (k : Corpse) (num : BitVec 32) : List ItemRec :=
  match k.records.find? fun d => d.kind = 0 && d.task = num with | some d => d.items | none => []

/-- R358: a freeze stops a task. -/
def Freezing.covers (z : Freezing) (t : Task) : Bool :=
  t.context = z.context && t.alive &&
    match z.tasks with
    | some l => l.contains t.num
    | none => t.freezing.isNone && t.accepted ≤ z.instant

/-- R360: a zone has reached the instant of a freeze that stops a task. -/
def State.pastFreeze (s : State) (context : BitVec 8) (task : BitVec 32) (d : BitVec 2) : Bool :=
  !s.freezing.isEmpty && (match s.task context task with
    | some t => s.freezing.any fun z => z.instant ≤ (s.dieAt d).atime && z.covers t
    | none => false)

/-- The die of a location's home, for an access at an address. -/
def State.dieOfLoc (s : State) (l : Nat) (va : Addr) : Option Nat :=
  if isSpadLoc l then some ((l - 6 * spaceSize) / 0x100000 / 128)
  else if isTcmLoc l then some ((l - 5 * spaceSize) / 0x400000 / 1024 % 4)
  else if isSramLoc l then some (sramDie va.toNat)
  else if isDevLoc l then some (s.homeStack l / 4)
  else none

/-- The die in whose zone a home stands; a peer's follows package time (R212; DEDUCED, assumption 104). -/
def State.zoneAt (s : State) (l : Nat) (va : Addr) : BitVec 2 :=
  match s.dieOfLoc l va with | some d => BitVec.ofNat 2 d | none => s.reference

/-- R361: a home of the device or of a peer refuses what a task writes there now. The host refuses nothing. -/
def State.refusesAt (s : State) (context : BitVec 8) (task : BitVec 32) (l : Nat) (va : Addr) : Bool :=
  !isHostLoc l && s.pastFreeze context task (s.zoneAt l va)
def State.refuses (s : State) (f : Flight) : Bool := s.refusesAt f.context f.task f.loc f.va

/-- Writes given, oldest first, are performed; the homes refuse some (R361), which stay for the record before the rest. -/
def State.performDue (s : State) (due rest : List Flight) : State :=
  if s.freezing.isEmpty then { s.performAll due with flights := rest }
  else { s.performAll (due.filter fun f => !s.refuses f) with flights := due.filter s.refuses ++ rest }

def overlaps (l n l' n' : Nat) : Bool := l < l' + n' && l' < l + n

/-- Both locations are host memory, or memory of one peer. -/
def sameLink (l l' : Nat) : Bool := isHostLoc l && isHostLoc l' || isPeerLoc l && isPeerLoc l' && l / spaceSize = l' / spaceSize

/-- Two writes that are performed in the order in which they were issued (R122, R124, R125 rule 1). -/
def Flight.ordered (f g : Flight) : Bool :=
  f.agent = g.agent && overlaps f.loc f.size g.loc g.size || sameLink f.loc g.loc

/-- Writes, oldest first: those that are given or that a test selects, with every earlier one that comes before one of
them; and the others. -/
def splitDue (sel : Flight → Bool) (due : List Flight) : List Flight → List Flight × List Flight
  | [] => (due, [])
  | f :: rest =>
    let r := splitDue sel due rest
    if sel f || r.1.any (Flight.ordered f) then (f :: r.1, r.2) else (r.1, f :: r.2)

/-- The writes on their way that a test selects are performed, after those that they follow. -/
def State.drain (s : State) (sel : Flight → Bool) : State :=
  if s.flights.isEmpty then s
  else
    let r := splitDue sel [] s.flights
    s.performDue r.1 r.2

/-- A write of agent `a` that comes before an access of its own to these bytes: an overlapping one (R125 rule 1), or a posted
one to the host (R124); on the one port to a peer every write of this device does, as requests stay in issue order (R350). -/
def Flight.precedes (f : Flight) (a : AgentId) (l n : Nat) : Bool :=
  f.agent = a && (overlaps l n f.loc f.size || sameLink l f.loc) || isPeerLoc l && sameLink l f.loc

/-- R122, R124, R125 rule 1, R350: what comes before an access of the agent in focus. The host may be read before another
agent's posted write has reached it (R127, R128). -/
def State.settle (s : State) (l n : Nat) : State := s.drain fun f => f.precedes s.core.agent l n

/-- R128: an earlier write counts for a scope when it is at a device home; peer windows from fabric scope on, host
windows at system scope. -/
def scopeCovers (scope : BitVec 3) (l : Nat) : Bool :=
  if isHostLoc l then scope = 5 else if isPeerLoc l then 4 ≤ scope.toNat else true

/-- Posted writes that a test selects are known to have reached the host, or have been acknowledged; those that were lost or
refused are never. -/
def State.resolvePosted (s : State) (sel : Flight → Bool) : State :=
  if s.posted.isEmpty then s else { s with posted := s.posted.filter fun f => f.dropped || !sel f }

/-- An access of the item or the program that an agent runs. -/
def Flight.ofItem (f : Flight) (c : Core) : Bool :=
  f.agent = f.issuer && f.context = c.owner && f.task = c.ident.task && c.ident.isItem f.origin
    && (f.issuer = c.agent || c.run = .item)

/-! ## Timed stores on their way (R133, R217) -/

/-- R217: the first tick at whose beginning a store that its home buffers now is held there, at the least after its
latency. -/
def State.arrivalTime (s : State) (x : Timed) : Tick :=
  let next := (s.dieAt x.homeDie).atime + 1
  if next < x.least then x.least else next

/-- Of timed stores, those held at their homes once the ones that a test selects have arrived, and the missed ones. -/
def State.arrivals (s : State) (sel : Timed → Bool) : List Timed → List Timed × List Miss
  | [] => ([], [])
  | x :: rest =>
    let r := State.arrivals s sel rest
    if x.arrival.isNone && sel x then
      let a := s.arrivalTime x
      if a ≤ x.t then ({ x with arrival := some a } :: r.1, r.2) else (r.1, ⟨x, a, false⟩ :: r.2)
    else (x :: r.1, r.2)

/-- The stores that a test selects are accepted and buffered at their homes. -/
def State.arriveAll (s : State) (sel : Timed → Bool) : State :=
  if s.timed.isEmpty then s
  else
    let r := s.arrivals sel s.timed
    { s with timed := r.1, misses := s.misses ++ r.2 }

/-- Whether an agent of this device issued a timed store. -/
def Timed.issuedBy (x : Timed) (s : State) (a : AgentId) : Bool :=
  x.device = s.device && x.die = a.die && x.agent = a.number

/-- R133: an agent's timed stores that count for a scope are buffered. -/
def State.arriveOwn (s : State) (a : AgentId) (scope : BitVec 3) : State :=
  s.arriveAll fun x => x.issuedBy s a && (x.peer.isNone || 4 ≤ scope.toNat)

/-- Every earlier access of an agent is performed for the scope (R126, R128, R133, R134). -/
def State.releaseBy (s : State) (c : Core) (scope : BitVec 3) : State :=
  let s := (s.drain fun f => f.agent = c.agent && scopeCovers scope f.loc).arriveOwn c.agent scope
  s.resolvePosted fun f => if isHostLoc f.loc then scope = 5 && f.ofItem c else 4 ≤ scope.toNat && f.agent = c.agent
/-- That of the agent in focus. -/
def State.release (s : State) (scope : BitVec 3) : State := s.releaseBy s.core scope
/-- R259, R262, R269: the release at package scope of a die's scheduler. -/
def State.releaseScheduler (s : State) (d : BitVec 2) : State := s.releaseBy (s.agent (.scheduler d)) 3

/-- R361, R344: whether a write to this location is posted on its way. -/
def State.queues (s : State) (l : Nat) : Bool := s.hold || isHostLoc l || isPeerLoc l

/-! ## Copy-on-write (R369, R382) -/

/-- A page of `size` bytes by its 64 KiB units: the first of them, and all. -/
def pageUnit (va size : Nat) : Nat := va / size * size / 65536
def pageUnits (va size : Nat) : List Nat := upFrom (pageUnit va size) (size / 65536)

def chargeContext (m : Assoc Ctx) (context : BitVec 8) (n : Nat) : Assoc Ctx :=
  match assocGet m context.toNat with
  | some x => assocPut m context.toNat { x with charged := x.charged + n }
  | none => m

/-- R367: bytes charged to the context of a corpse, if it is still that context. -/
def State.chargeOwner (s : State) (k : Corpse) (n : Nat) : Assoc Ctx :=
  if s.serialOf k.context = k.serial then chargeContext s.contexts k.context n else s.contexts

/-- R369: the bytes of the page that a corpse retains at a place, which nothing has copied yet: the place is where its context
had the page mapped at the instant. -/
def Corpse.owes (k : Corpse) (fitted : Fitted) (p : Place) : Option Nat :=
  match layerLeaf fitted p.va.toNat k.space with
  | some (l, _, loc) => if loc = p.loc && (assocGet k.copied (pageUnit p.va.toNat l.size)).isNone then some l.size else none
  | none => none

/-- R369: a living context's first write to a page that its corpses retain copies it, charged to the context once for the
corpses that share the copy. -/
def State.chargeCopy (s : State) (p : Place) : State :=
  let owes := fun (k : Corpse) =>
    if k.context = s.core.owner && k.serial = s.serialOf k.context then k.owes s.fitted p else none
  if !(p.region = .dev || p.region = .sram) || 2 ^ 70 ≤ p.loc then s
  else
    match (s.corpses.filter fun k => (owes k).isSome).getLast? with
    | none => s
    | some y =>
      let n := (owes y).getD 65536
      let share := fun (k : Corpse) =>
        if (owes k).isSome then { k with copied := assocPut k.copied (pageUnit p.va.toNat n) (n, y.id) } else k
      { s with corpses := s.corpses.map share, contexts := chargeContext s.contexts s.core.owner n }

def overlayMap (f : Overlay → Overlay) (context : BitVec 8) (task : BitVec 32) : List Overlay → List Overlay
  | [] => []
  | o :: rest => if o.context = context && o.task = task then f o :: rest else o :: overlayMap f context task rest

/-- R382: the first write to a page of the corpse copies it into the revival space, charged to the reviver. -/
def State.copyPage (s : State) (p : Place) : State :=
  match p.copy, p.store, s.overlay with
  | true, .shot x loc, some o =>
    let v := p.va.toNat
    if setHas o.pages (v / 65536) then s
    else
      let n := match p.leaf with | some l => l.size | none => 65536
      let s := s.setShot (s.shot.copyFrom x (loc - v % n) n (p.loc - v % n))
      let os := overlayMap (fun o => { o with pages := setAddAll o.pages (pageUnits v n) }) o.context o.task s.overlays
      { s with overlays := os, contexts := chargeContext s.contexts s.core.owner n }
  | _, _, _ => s

/-- R383: a write that covers a sector whole clears its taint. -/
def State.clearTaint (s : State) (va n : Nat) : State :=
  match s.overlay with
  | none => s
  | some o =>
    let clear := fun (o : Overlay) => { o with taint := o.taint.filter fun k => !(va ≤ k * 32 && k * 32 + 32 ≤ va + n) }
    { s with overlays := overlayMap clear o.context o.task s.overlays }

/-- R383: the taint of the sectors that several writes of one instruction or operand together cover whole. -/
def State.clearCovered (s : State) (xs : List (Nat × Nat)) : State :=
  match s.overlay with
  | none => s
  | some o =>
    { s with overlays := overlayMap (fun o => { o with taint := o.taint.filter fun k => !coversSector xs k }) o.context o.task s.overlays }

/-- What a write does before its bytes go out: pages copied, taint cleared. -/
def State.beforeWrite (s : State) (p : Place) (n : Nat) : State :=
  ((s.copyPage p).chargeCopy p).clearTaint p.va.toNat n

/-! ## Reading and writing a checked place -/

/-- The bytes at a place as the agent in focus reads them. -/
def State.placeBytes (s : State) (p : Place) (n : Nat) : List Byte :=
  match p.store with
  | .shot x loc => x.read loc n
  | .records c view off => c.windowBytes s.device view off n
  | .live =>
    match s.keyOf p with
    | some k => s.viewBytes k p.loc n
    | none => s.readBytes p.loc n

/-- The granule's tag at a place (R58): none through a mount window, a host or a peer window. DESIGN CHOICE (assumption
92): bytes that another mapping's ENC or keys protect read untagged, so that no tagged value breaks R57. -/
def State.placeTag (s : State) (p : Place) : Bool :=
  match p.region, p.store with
  | .mount, _ => false
  | _, .shot x loc => x.tag loc
  | _, .records _ _ _ => false
  | _, .live => holdsTags p.loc && s.tagAt p.loc && !(match s.keyOf p with | some k => s.foreignLine k p.loc | none => false)

/-- R129: an access to a page with SC waits for every earlier access of the agent. -/
def State.beforeAccess (s : State) (p : Place) (n : Nat) : State :=
  if p.sc then s.release 5 else s.settle p.loc n
/-- R129: a write to a page with SC is performed before any later access. -/
def State.afterWrite (s : State) (p : Place) : State := if p.sc then s.release 5 else s

/-- R352: the peer whose memory a location belongs to is unreachable. -/
def State.peerLost (s : State) (l : Nat) : Bool := isPeerLoc l && s.fabric.lost.contains (BitVec.ofNat 19 (l / spaceSize - 16))

/-- A write goes out: at once to a device home, or on its way to a host or peer home (R123, R128). A posted store to a
peer that is unreachable is dropped, and never resolved (R352). -/
def State.send (s : State) (f : Flight) : State :=
  if s.peerLost f.loc then { s with posted := s.posted ++ [{ f with dropped := true }] }
  else if s.queues f.loc || s.refuses f then { s with flights := s.flights ++ [f] } else s.perform f

/-- R343: the function whose requester ID the host requests of a context carry. -/
def State.fnOf (s : State) (context : BitVec 8) : BitVec 6 := match s.ctx context with | some c => c.fn | none => 0

/-- R350: the one port that the requests of this device to a peer take: that of the first route to it. -/
def State.portTo (s : State) (l : Nat) : Option (BitVec 4) :=
  if isPeerLoc l then (s.fabric.routes.find? fun r => r.1.toNat = l / spaceSize - 16).map (·.2) else none

/-- The device number of the peer whose memory a location belongs to. -/
def peerNumber (l : Nat) : Nat := l / spaceSize - 16

/-- The requests of a wait, to the module, to the host and to peers. -/
def Wait.requests : Wait → List Request
  | .host rs => rs
  | .fetch r => [r]
  | .aad _ r => [r]
  | .notBefore _ rs => rs
  | _ => []
def Core.requests (c : Core) : List Request := match c.wait with | some w => w.requests | none => []

/-- Every load and atomic of this device that has been sent and not been answered, those of frozen items among them (R363). -/
def State.outstanding (s : State) : List Request :=
  ((s.core :: s.parked).flatMap Core.requests
    ++ (s.clusters.flatMap fun k => k.2.culverts.toList.flatMap fun e => e.queue.flatMap Cmd.requests)
    ++ (s.corpses.flatMap fun k => k.records.flatMap fun d => d.items.flatMap fun q => q.core.requests)
    ++ (s.fns.flatMap fun f => f.2.reading) ++ s.contexts.flatMap fun c => c.2.reading).filter
    fun r => r.answer.isNone

/-- R350: requests to a peer are held while one sent to it on another port, which has gone down since, has been neither
acknowledged nor failed. DESIGN CHOICE (assumption 116): the instruction or beat that would send one waits meanwhile. -/
def State.peerHeld (s : State) (l : Nat) : Bool :=
  isPeerLoc l &&
    (let port := s.portTo l
     let d := peerNumber l
     ((s.flights ++ s.posted).any fun f => isPeerLoc f.loc && !f.dropped && peerNumber f.loc = d && f.port ≠ port)
      || (s.outstanding.any fun r => isPeerLoc r.loc && peerNumber r.loc = d && r.port ≠ port)
      || s.timed.any fun x => isPeerLoc x.loc && peerNumber x.loc = d && x.arrival.isNone && x.port ≠ port)

/-- The write of a checked place by the agent in focus. -/
def State.flight (s : State) (p : Place) (bytes : List Byte) (cap : Bool) : Flight :=
  { loc := p.loc, bytes := bytes, cap := cap && holdsTags p.loc, key := s.keyOf p, colour := none, agent := s.core.agent, ticket := 0,
    origin := s.core.origin, fn := s.fnOf s.core.owner, port := s.portTo p.loc, va := p.va, pc := s.pc }

/-- One plain store of checked bytes. -/
def State.store (s : State) (p : Place) (bytes : List Byte) (cap : Bool) : State :=
  let s := (s.beforeAccess p bytes.length).beforeWrite p bytes.length
  (s.send (s.flight p bytes cap)).afterWrite p

/-- R194: of the sectors that a store of `n` bytes touches, those with an uncorrectable check word that the stores of its
instruction, at `at_`, cover whole. -/
def State.wholeSectors (s : State) (n : Nat) (at_ : List Nat) (l : Nat) : List Nat :=
  if s.bad.isEmpty then [] else (unitsOf 32 l n).filter fun k => setHas s.bad k && coversSector (at_.map fun x => (x, n)) k

/-- One of the stores of an instruction that together cover some sectors whole (R194, R383). -/
def State.storeWhole (s : State) (p : Place) (bytes : List Byte) (whole : List Nat) : State :=
  let s := (s.beforeAccess p bytes.length).beforeWrite p bytes.length
  (s.send { s.flight p bytes false with whole := whole }).afterWrite p

/-- STG's write of a colour (R110). -/
def State.storeColour (s : State) (p : Place) (c : BitVec 4) : State :=
  let s := (s.beforeAccess p 32).beforeWrite p 1
  (s.send { s.flight p [] false with loc := p.loc / 32 * 32, colour := some c }).afterWrite p

/-! ## Requests to host and peers (R343, R346, R347, R352) -/

/-- R347: a host access while the function's bus mastering is disabled. -/
def State.busMaster (s : State) (context : BitVec 8) : Bool :=
  match s.ctx context with
  | some c => (s.fn c.fn.toNat).master
  | none => false

/-- R347, R352: the DETAIL with which a host or peer access is refused at issue. -/
def State.awayRefused (s : State) (context : BitVec 8) (l : Nat) : Option Word :=
  if isHostLoc l then (if s.busMaster context then none else some 0x20)
  else if s.peerLost l then some 0x40 else none

/-- A load or an atomic that goes to the host or to a peer at issue: refused, held (R350), or on its way. -/
def State.issueAway (s : State) (p : Place) : R Unit :=
  match s.awayRefused s.core.owner p.loc with
  | some d => trap cHOST d (p.va.setWidth 64)
  | none => if s.peerHeld p.loc then .error (.wait (.room none)) else .ok ()

/-- R347: a posted store to the host is refused at issue where bus mastering is disabled; one to an unreachable peer is
dropped without report (R352). -/
def State.issueStore (s : State) (p : Place) : R Unit :=
  if isHostLoc p.loc then s.issueAway p
  else if !s.peerLost p.loc && s.peerHeld p.loc then .error (.wait (.room none)) else .ok ()

/-- The request that an access of the agent in focus makes. -/
def State.request (s : State) (p : Place) (n : Nat) (atomic : Option (BitVec 3 × Word × Word)) : Request :=
  { loc := p.loc, va := p.va, n := n, fn := s.fnOf s.core.owner, key := s.keyOf p, home := s.homeDie p, atomic := atomic,
    answer := none, port := s.portTo p.loc }

/-- How a completion ends a request. -/
def Completion.outcome (c : Completion) (n : Nat) : Outcome :=
  match c with
  | .data v => .returned (bytesOf n v.toNat)
  | c => .failed c

/-- R93, R347: the fault of a request that has failed. -/
def Request.fault (r : Request) (o : Outcome) : Option Trap :=
  let ea := r.va.setWidth 64
  match o with
  | .local _ _ => none
  | .returned _ => none
  | .failed (.data _) => none
  | .failed .unsupported => some ⟨if r.atomic.isSome && isHostLoc r.loc then cHATOM else cHOST, ea, 0x01⟩
  | .failed .abort => some ⟨if r.atomic.isSome && isHostLoc r.loc then cHATOM else cHOST, ea, 0x04⟩
  | .failed .poisoned => some ⟨cHOST, ea, 0x10⟩
  | .failed .importRefused => some ⟨cHOST, ea, 0x80⟩
  | .failed .lost => some ⟨cHOST, ea, 0x40⟩
  | .timeout => some ⟨cHOST, ea, 0x08⟩

/-! ## Engines (R292, R304) -/

def culvertKey (c : CulvertId) : Nat := c.die.toNat * 128 + c.cluster.toNat

def State.engine (s : State) : EngineId → Engine
  | .culvert c => vecAt (s.cluster (culvertKey c)).culverts c.index.toNat .empty
  | .cistern k => s.cisterns[k.toNat]
def State.setEngine (s : State) (i : EngineId) (e : Engine) : State :=
  match i with
  | .culvert c =>
    let k := s.cluster (culvertKey c)
    s.setCluster (culvertKey c) { k with culverts := vecSet k.culverts c.index.toNat e }
  | .cistern k => { s with cisterns := s.cisterns.set k.toNat e }

/-- The command that an engine has in hand. -/
def State.headCmd (s : State) (i : EngineId) : Option Cmd := (s.engine i).head

/-- R63, R292: a culvert runs under the owner of the command in hand, and for its issuer; between commands its owner
register reads 0. -/
def State.loadOwner (s : State) (i : EngineId) : State :=
  match i with
  | .culvert c =>
    let a := s.agent (.culvert c)
    s.setAgent { a with owner := match s.headCmd i with | some q => q.context | none => 0,
                        acts := (s.headCmd i).map Cmd.issuer }
  | .cistern _ => s

/-- The cluster whose culverts an agent kicks: its own, or the first of its die for a firmware core. -/
def AgentId.clusterOf (a : AgentId) : Nat := (AgentId.cluster a).getD (a.die.toNat * 128)
def culvertOf (k i : Nat) : CulvertId := ⟨BitVec.ofNat 2 (k / 128), BitVec.ofNat 7 k, BitVec.ofNat 1 i⟩

/-! ## Tickets (R304) -/

/-- FLAGS of a culvert block (R295). -/
abbrev flagDecrypt : Nat := 0
abbrev flagMirror : Nat := 1
abbrev flagRing : Nat := 2
abbrev flagVerify : Nat := 3
def Cmd.decrypts (c : Cmd) : Bool := c.flags.getLsbD flagDecrypt

/-- The agent that an engine is (R120). -/
def EngineId.agent : EngineId → AgentId
  | .culvert u => .culvert u
  | .cistern k => .cistern k

/-- The die in whose zone an engine starts. -/
def EngineId.die : EngineId → BitVec 2
  | .culvert c => c.die
  | .cistern k => k.extractLsb' 2 2
/-- Commands an engine holds. -/
def EngineId.depth : EngineId → Nat
  | .culvert _ => 16
  | .cistern _ => 64

/-- R304. -/
def ticketOf (i : EngineId) (count : BitVec 32) : Word :=
  match i with
  | .culvert c => BitVec.ofNat 64 (c.die.toNat * 2 ^ 40 + c.cluster.toNat * 2 ^ 33 + c.index.toNat * 2 ^ 32 + count.toNat)
  | .cistern k => BitVec.ofNat 64 (2 ^ 46 + k.toNat * 2 ^ 42 + (EngineId.cistern k).die.toNat * 2 ^ 40 + count.toNat)
def ticketEngine (t : Word) : Option EngineId :=
  let i : EngineId :=
    if t.getLsbD 46 then .cistern (t.extractLsb' 42 4) else .culvert ⟨t.extractLsb' 40 2, t.extractLsb' 33 7, t.extractLsb' 32 1⟩
  if ticketOf i (t.setWidth 32) = t then some i else none

def cmdFind (t : Word) : List Cmd → Option Cmd
  | [] => none
  | c :: rest => if c.ticket = t then some c else cmdFind t rest

/-- R304: of a list of commands, those among the last 64 that an engine which has accepted `count` has accepted. -/
def lastAccepted (count : BitVec 32) (l : List Cmd) : List Cmd := l.filter fun d => (count - d.ticket.setWidth 32).toNat ≤ 64

/-- A command leaves its queue; the engine that accepted it remembers how it ended (R304). -/
def State.cmdEnd (s : State) (i : EngineId) (c : Cmd) : State :=
  let e := s.engine i
  let s := s.setEngine i { e with queue := e.queue.filter fun d => d.ticket ≠ c.ticket }
  let home := (ticketEngine c.ticket).getD i
  let h := s.engine home
  (s.setEngine home { h with done := lastAccepted h.count (h.done ++ [c]) }).loadOwner i

end Sys2Proof.Machine
end

