-- ==== Sys2Proof/Machine/Weirs.lean ====
section
/-! DEFINITION. Weir and flume channels: membership, completion and withdrawal (R272 to R287), gauge records and the
trace ring (R280, R404, R405). -/

namespace Sys2Proof.Machine

/-! ## The trace ring (R404, R405) -/

/-- A trace entry: kind, die, core, item, task, superstep count and the fields of its body. -/
def State.trace (s : State) (context : BitVec 8) (kind : Nat) (die : BitVec 2) (core : Nat) (item task : Nat) (step : Word)
    (body : List (Nat × Nat × Nat)) : State :=
  match s.ctx context with
  | none => s
  | some c =>
    let fields := [(0, 1, kind), (1, 1, die.toNat), (2, 2, core), (4, 4, item), (8, 4, task), (16, 8, step.toNat),
      (24, 8, c.written)] ++ body
    let l := devLoc (c.tracePa + 128 * (1 + c.written % 2 ^ c.traceLog))
    let s := (s.takeLines 0 (unitsOf 64 l 128)).writeBytes l ((upFrom 0 128).map (fieldByte fields))
    let h := devLoc c.tracePa
    let s := (s.takeLines 0 (unitsOf 64 h 8)).writeBytes h (bytesOf 8 (c.written + 1))
    s.setCtx { c with written := c.written + 1 }

/-- STATE of R306. -/
def CmdState.code : CmdState → Nat
  | .queued => 0 | .running => 1 | .complete => 2 | .faulted => 3 | .discarded => 4

/-- R410: an entry about a copy, written in the zone of its culvert's die. -/
def State.traceCopy (s : State) (kind : Nat) (c : Cmd) (die : BitVec 2) : State :=
  if c.kind ≠ .copy then s
  else
    s.trace c.context kind c.issuer.die c.issuer.coreNumber.toNat c.item c.task.toNat
      (match s.itemCore c.origin with | some k => k.ident.step | none => c.origin.step)
      [(32, 8, c.ticket.toNat), (40, 8, c.src.cursor.toNat), (48, 8, c.dst.cursor.toNat), (56, 8, c.length * c.rows),
       (64, 8, if c.mbx = .null then 0 else c.mbx.cursor.toNat), (72, 8, c.mbxval.toNat),
       (80, 8, (s.dieAt die).atime.toNat), (88, 1, if kind = 5 then c.state.code else 0)]
/-- R410: the last entry of a copy, written once. -/
def State.traceEnd (s : State) (c : Cmd) (die : BitVec 2) : State := if c.ended then s else s.traceCopy 5 c die

/-! ## Channels (R272) -/

/-- Number of a weir channel of a die (0 to 63) or of the package (64 to 79). -/
def weirKey (die : BitVec 2) (w : Nat) : Nat := if w < 64 then die.toNat * 64 + w else 256 + (w - 64)
/-- The channel number w of a key. -/
def weirNumber (key : Nat) : Nat := if key < 256 then key % 64 else 64 + (key - 256)
def flumeKey (die : BitVec 2) (w : Nat) : Nat := die.toNat * 16 + w

def State.weir (s : State) (key : Nat) : Weir := assocGetD s.weirs key .reset
def State.setWeir (s : State) (key : Nat) (w : Weir) : State := { s with weirs := assocPut s.weirs key w }
def State.flume (s : State) (key : Nat) : Flume := assocGetD s.flumes key .reset
def State.setFlume (s : State) (key : Nat) (w : Flume) : State := { s with flumes := assocPut s.flumes key w }

/-! ## Gauge records (R280) -/

def Gauge.fields (g : Gauge) : List (Nat × Nat × Nat) :=
  [(0, 8, g.earliest.toNat), (8, 8, g.latest.toNat), (16, 8, g.spread.toNat), (24, 4, g.members.toNat),
   (28, 2, g.lastCore.toNat), (30, 1, g.lastDie.toNat), (31, 1, g.channel.toNat), (32, 8, g.gen.toNat),
   (40, 8, g.step.toNat), (48, 8, g.release.toNat), (56, 4, g.flags.toNat)]
def Gauge.bytes (g : Gauge) : List Byte := (upFrom 0 64).map (fieldByte g.fields)

def minTick : List Tick → Tick
  | [] => BitVec.allOnes 64
  | t :: rest => let m := minTick rest; if t ≤ m then t else m
def maxTick : List Tick → Tick
  | [] => 0
  | t :: rest => let m := maxTick rest; if m ≤ t then t else m

/-- The last arrival in time among a list, later entries winning ties. -/
def lastArrival : List Arrival → Option Arrival
  | [] => none
  | a :: rest => match lastArrival rest with
    | some b => if b.time < a.time then some a else some b
    | none => some a

/-- The gauge record of a completion. -/
def mkGauge (arrived : List Arrival) (channel gen : Nat) (step release : Word) (flags : BitVec 32) : Gauge :=
  let times := arrived.map (·.time)
  let lo := minTick times
  let spread := (times.map fun t => (t - lo).toNat).sum
  let last := (lastArrival arrived).getD ⟨⟨0, 0⟩, 0⟩
  { earliest := lo, latest := maxTick times,
    spread := if spread < 2 ^ 64 then BitVec.ofNat 64 spread else BitVec.allOnes 64,
    members := BitVec.ofNat 32 arrived.length, lastCore := last.core.core.setWidth 16, lastDie := last.core.die.setWidth 8,
    channel := BitVec.ofNat 8 channel, gen := BitVec.ofNat 64 gen, step := step, release := release, flags := flags }

/-! ## Supersteps (R282) -/

/-- The key of a task's superstep weir. -/
def Task.stepWeir (t : Task) : Option Nat :=
  if t.desc.step.getLsbD 7 then
    let w := (t.desc.step &&& 0x7F).toNat
    let die := match t.placed with | p :: _ => p.1 | [] => 0
    some (weirKey die w)
  else none

/-- A command of the task that is kicked and not complete, on any culvert or cistern. -/
def engineBusy (context : BitVec 8) (task : BitVec 32) (e : Engine) : Bool :=
  e.queue.any fun c => c.context = context && c.task = task

/-- R282: nothing of the task is in flight. -/
def State.exchangeBoundary (s : State) (t : Task) : Bool :=
  !(s.clusters.any fun p => p.2.culverts.toList.any (engineBusy t.context t.num)) &&
  !(s.cisterns.toList.any (engineBusy t.context t.num)) && t.keptCommands.isEmpty &&
  t.slots.all (fun c =>
    let a := s.agent (.core c)
    !(a.owner = t.context && a.ident.task = t.num) || a.mx.queue.isEmpty) &&
  !(s.timed.any fun x => x.context = t.context && x.task = t.num && s.packageTime < x.t)

/-! ## Completion and withdrawal of a weir generation (R274) -/

/-- R274: the generation completes: the gauge record is written, G counts on, the arrived set empties, members that
withdrew after arriving leave. A completion of the superstep weir adds 1 to the task's count; at an exchange boundary it
meets an armed stop (R414). -/
def State.completeWeir (s : State) (key : Nat) : State :=
  let w := s.weir key
  match w.task.bind fun t => s.task t.1 t.2 with
  | none => s.setWeir key { w with gen := w.gen + 1, arrived := [], members := w.members.filter (fun c => !w.leaving.contains c), leaving := [] }
  | some t =>
    let isStep := t.stepWeir = some key
    let step := if isStep then t.step + 1 else t.step
    let boundary := isStep && s.exchangeBoundary t
    let flags : BitVec 32 := (if isStep then 1 else 0) ||| (if boundary then 2 else 0)
    let latest := maxTick (w.arrived.map (·.time))
    let release := if s.packageTime < latest then latest else s.packageTime
    let g := mkGauge w.arrived (weirNumber key) (w.gen + 1) step release flags
    let stop := boundary && t.armed
    let s := s.setTask { t with step := step, armed := t.armed && !stop, stopping := t.stopping || stop }
    let s := s.setWeir key
      { w with gen := w.gen + 1, arrived := [], members := w.members.filter (fun c => !w.leaving.contains c), leaving := [],
               last := some g }
    s.trace t.context 6 (BitVec.ofNat 2 g.lastDie.toNat) g.lastCore.toNat 0xFFFFFFFF t.num.toNat step
      (g.fields.map fun f => (f.1 + 32, f.2))

/-- R274: the generation completes when every member has arrived, or when no member is left and some have. -/
def State.settleWeir (s : State) (key : Nat) : State :=
  let w := s.weir key
  if !w.arrived.isEmpty && w.members.all (fun c => w.arrived.any fun a => a.core = c) then s.completeWeir key else s

/-- R274: one member withdraws. -/
def State.withdrawWeir (s : State) (key : Nat) (c : CoreId) : State :=
  let w := s.weir key
  if !w.members.contains c then s
  else if w.arrived.any fun a => a.core = c then s.setWeir key { w with leaving := w.leaving ++ [c] }
  else (s.setWeir key { w with members := w.members.filter (· ≠ c) }).settleWeir key

/-! ## The flume's tree (R285, R286) -/

/-- The flume's combination of two elements, an absent one being an identity. -/
def flumeOp (cfg : FlumeCfg) (x y : Option (BitVec 32)) : Option (BitVec 32) :=
  match x, y with
  | none, b => b
  | a, none => a
  | some a, some b =>
    some (if cfg.s32 then
      (if cfg.op = 0 then a + b else if cfg.op = 1 then (if a.slt b then a else b) else (if a.slt b then b else a))
    else
      let f := fmtOf .f32
      let p := f.read false a.toNat
      let q := f.read false b.toNat
      BitVec.ofNat 32 (if cfg.op = 0 then (f.finish .rne false (p.add .rne q)).1
        else if cfg.op = 1 then f.write (p.min q).1 else f.write (p.max q).1))

/-- The core at a mesh position of a die, by row and column (R2). -/
def meshCore (die : BitVec 2) (row col : Nat) : CoreId := ⟨die, BitVec.ofNat 10 (row * 32 + col)⟩

/-- One element's value at a mesh position from its contributions. -/
def ownElem (round : List Contribution) (c : CoreId) (i : Nat) : Option (BitVec 32) :=
  match round with
  | [] => none
  | r :: rest => if r.core = c then (listAt r.elems i).join else ownElem rest c i

/-- The routers of one column on one side of the root's row, from the far end inward: each holds one child. -/
def foldColumn (cfg : FlumeCfg) : List (Option (BitVec 32)) → Option (BitVec 32)
  | [] => none
  | x :: rest => flumeOp cfg (foldColumn cfg rest) x

/-- The routers of the root's row on one side, from the root outward: own contribution and vertical children. -/
def foldRow (cfg : FlumeCfg) : List (Option (BitVec 32) × Option (BitVec 32)) → Option (BitVec 32)
  | [] => none
  | (vert, own) :: rest => flumeOp cfg (flumeOp cfg (foldRow cfg rest) vert) own

/-- R285, R286: the root's combination ((w ⊕ e) ⊕ (n ⊕ s)) ⊕ own of one element. -/
def flumeElem (cfg : FlumeCfg) (die : BitVec 2) (root : CoreId) (round : List Contribution) (i : Nat) : Option (BitVec 32) :=
  let r0 := root.core.toNat / 32
  let c0 := root.core.toNat % 32
  let own := fun row col => ownElem round (meshCore die row col) i
  let north := fun col => foldColumn cfg ((upFrom 0 r0).reverse.map fun row => own row col)
  let south := fun col => foldColumn cfg ((upFrom (r0 + 1) (31 - r0)).map fun row => own row col)
  let router := fun col => (flumeOp cfg (north col) (south col), own r0 col)
  let west := foldRow cfg ((upFrom 0 c0).reverse.map router)
  let east := foldRow cfg ((upFrom (c0 + 1) (31 - c0)).map router)
  flumeOp cfg (flumeOp cfg (flumeOp cfg west east) (flumeOp cfg (north c0) (south c0))) (own r0 c0)

/-- R166, R286: what an element that is an identity in the result is delivered as. -/
def flumeEmpty (cfg : FlumeCfg) : BitVec 32 :=
  if cfg.op = 0 then 0
  else if cfg.s32 then (if cfg.op = 1 then 0x7FFFFFFF else 0x80000000)
  else if cfg.op = 1 then 0x7F800000 else 0xFF800000

/-- The team's clusters on a die, in cluster order. -/
def Task.clustersOn (t : Task) (die : BitVec 2) : List (BitVec 7) := (t.placed.filter fun p => p.1 = die).map (·.2)

/-- R284: the root of a configuration on a die of the team. -/
def Task.flumeRoot (t : Task) (cfg : FlumeCfg) (die : BitVec 2) : Option CoreId :=
  (listAt (t.clustersOn die) cfg.rootCluster).map fun k => coreOf die k.toNat cfg.rootCore

/-- R284: whether a core of the die is configured. -/
def Task.flumeNames (t : Task) (cfg : FlumeCfg) (c : CoreId) : Bool :=
  cfg.cores.getLsbD c.inCluster &&
    (upFrom 0 128).any fun k => cfg.clmask.getLsbD k && listAt (t.clustersOn c.die) k = some (BitVec.ofNat 7 c.cluster)

/-- R287: a round completes: results go to the receivers, and members that withdrew leave. -/
def State.completeFlume (s : State) (key : Nat) : State :=
  let w := s.flume key
  let die : BitVec 2 := BitVec.ofNat 2 (key / 16)
  match w.config, w.task.bind fun t => s.task t.1 t.2 with
  | some cfg, some t =>
    match t.flumeRoot cfg die with
    | some root =>
      let result := (upFrom 0 64).map fun i => (flumeElem cfg die root w.round i).getD (flumeEmpty cfg)
      let receivers := if cfg.all then w.round.map (·.core) else [root]
      s.setFlume key
        { w with round := [], results := w.results ++ receivers.map (fun c => (c, result, w.round.length)),
                 members := w.members.filter (fun c => !w.leaving.contains c), leaving := [] }
    | none => s
  | _, _ => s

def State.settleFlume (s : State) (key : Nat) : State :=
  let w := s.flume key
  if !w.round.isEmpty && w.members.all (fun c => w.round.any fun r => r.core = c) then s.completeFlume key else s

/-- R287: withdrawal from a flume follows the rules of a weir. -/
def State.withdrawFlume (s : State) (key : Nat) (c : CoreId) : State :=
  let w := s.flume key
  if !w.members.contains c then s
  else if w.round.any fun r => r.core = c then s.setFlume key { w with leaving := w.leaving ++ [c] }
  else (s.setFlume key { w with members := w.members.filter (· ≠ c) }).settleFlume key

/-! ## Membership (R273, R284) -/

/-- The keys of the weir channels that a task's descriptor grants on the dies of its team. -/
def Task.weirKeys (t : Task) : List Nat :=
  let dies := (upFrom 0 4).filter fun d => t.desc.dies.getLsbD d
  (dies.map fun d => ((upFrom 0 64).filter fun w => t.desc.dweir.getLsbD w).map (weirKey (BitVec.ofNat 2 d))).flatten
    ++ ((upFrom 64 16).filter fun w => t.desc.pweir.getLsbD (w - 64)).map (weirKey 0)

def Task.flumeKeys (t : Task) : List Nat :=
  let dies := (upFrom 0 4).filter fun d => t.desc.dies.getLsbD d
  (dies.map fun d => ((upFrom 0 16).filter fun w => t.desc.flumes.getLsbD w).map (flumeKey (BitVec.ofNat 2 d))).flatten

def flumeCfgFind (ch : Nat) : List FlumeCfg → Option FlumeCfg
  | [] => none
  | c :: rest => if c.channel = ch then some c else flumeCfgFind ch rest

/-- The member set of every granted channel becomes these cores, of those that it spans (R273). -/
def State.setMembers (s : State) (t : Task) (cores : List CoreId) (resident : Bool) : List Nat → State
  | [] => s
  | key :: rest =>
    let w := s.weir key
    let here := cores.filter fun c => 256 ≤ key || c.die.toNat = key / 64
    (s.setWeir key { w with members := here, resident := resident, task := some (t.context, t.num) }).setMembers t cores resident rest

def State.setFlumeMembers (s : State) (t : Task) (cores : List CoreId) (resident : Bool) : List Nat → State
  | [] => s
  | key :: rest =>
    let w := s.flume key
    let cfg := flumeCfgFind (key % 16) t.flcfg
    let here := match cfg with
      | some k => cores.filter fun c => c.die.toNat = key / 16 && t.flumeNames k c
      | none => []
    (s.setFlume key { w with members := here, resident := resident, task := some (t.context, t.num), config := cfg }).setFlumeMembers
      t cores resident rest

/-- The channels of a task's grant are fresh for it: G 0, nothing arrived, no round in progress. -/
def State.openChannels (s : State) (t : Task) : State :=
  let s := t.weirKeys.foldl (fun s k => s.setWeir k { Weir.reset with owner := (s.weir k).owner, task := some (t.context, t.num) }) s
  t.flumeKeys.foldl (fun s k =>
    s.setFlume k { Flume.reset with owner := (s.flume k).owner, task := some (t.context, t.num),
                                    config := flumeCfgFind (k % 16) t.flcfg }) s

/-- R144, R247: a core's item leaves every channel of its task. -/
def State.withdraw (s : State) (t : Task) (c : CoreId) : State :=
  let s := t.weirKeys.foldl (fun s k => s.withdrawWeir k c) s
  t.flumeKeys.foldl (fun s k => s.withdrawFlume k c) s

end Sys2Proof.Machine
end

