-- ==== Sys2Proof/Machine/Tasks.lean ====
section
/-! DEFINITION. Items: their start states, how they end, and how a task ends (R66, R74, R231, R238 to R248, R358). -/

namespace Sys2Proof.Machine

/-! ## Start state (R66, R74) -/

/-- R74: the task capability in g28. -/
def taskCap (num : BitVec 32) : GReg :=
  let a : Addr := 0x800000000000 + num.setWidth 48
  mkCap 0 true 0 1 0 a a
/-- R74: the data root in g31. -/
def dataRoot : GReg := mkCap 0 false 0b11011 0xFFFE 31 0x100000000 0x10000000000
/-- R66: the sump capability in g29 for a sump of `n` bytes. -/
def sumpCap (n : Nat) : GReg :=
  mkCap 0 false 0b01011 0x8000 16 (BitVec.ofNat 48 (2 ^ 48 + n - 2 ^ 31)) (BitVec.ofNat 48 n)

/-- R68: SOVP and SOVL hold bits [47:0]. -/
def low48 (v : Word) : Word := v &&& 0xFFFFFFFFFFFF

/-- CSRs as an item starts with them: R68's reset values; KLEAD and SMPL belong to the core (R71). -/
def Csrs.start (old : Csrs) (sovp sovl : Word) : Csrs :=
  { Csrs.reset with klead := old.klead, smpl := old.smpl, sovp := low48 sovp, sovl := low48 sovl }


/-- A core that starts an item with registers zero. -/
def Core.begin (c : Core) (pcc : GReg) (csr : Csrs) (ident : Ident) : Core :=
  { c with run := .item, g := Vector.replicate 32 .null, v := Vector.replicate 32 0, p := Vector.replicate 16 0,
           gInh := 0, gPois := 0, vInh := 0, vPois := 0, pInh := 0, pPois := 0, pcc := pcc, csr := csr, handler := false,
           pending := [], dead := .clear, last := none, ident := ident, regionBase := 0, regionLen := 0, resident := false,
           own := [], mx := .start, lastArr := [], wait := none, icache := [], ir := [] }

/-- Sump size of a descriptor in bytes (R257). -/
def Desc.sumpBytes (d : Desc) : Nat := if d.sump = 0 then 16384 else d.sump * 1024

/-- R74: the prologue item on team slot 0. -/
def Core.prologue (c : Core) (t : Task) : Core :=
  let code := t.desc.code.setCursor (t.desc.entry.setWidth 48)
  let id : Ident := { item := 0, items := 1, task := t.num, level := 0, step := t.step, team := t.slots.length, slot := 0,
                      cls := t.cls, parent := 0, sump := t.desc.sumpBytes }
  let c := c.begin code (c.csr.start t.desc.sovp t.desc.sovl) id
  { c with g := (((c.g.set 1 t.desc.arg).set 28 (taskCap t.num)).set 29 (sumpCap t.desc.sumpBytes)).set 31 dataRoot }

/-! ## Stamped items (R240, R242) -/

/-- R240: SOVP and SOVL of position `k` of `parts` under OSPLIT. -/
def splitSump (sovp sovl : Word) (parts k : Nat) : Word × Word :=
  let p := (sovp.toNat - sovl.toNat) / parts / 16 * 16
  let top := sovp - BitVec.ofNat 64 (k * p)
  (low48 top, low48 (top - BitVec.ofNat 64 p))

/-- R240: poisoned are the registers that the exemplar does not carry, but for register 0 of the files that have one
and the destination. -/
def poisonMask (carried except : BitVec 32) : BitVec 32 := ~~~(carried ||| except)

/-- R240: a stamped item other than item 0 of its level. `k` of `parts` is its position under OSPLIT. -/
def Core.stamped (c : Core) (t : Task) (x : Exemplar) (level : BitVec 2) (index parent slot parts k : Nat) : Core :=
  let (sovp, sovl) := if x.osplit then splitSump x.csr.sovp x.csr.sovl parts k else (x.csr.sovp, x.csr.sovl)
  let id : Ident := { item := index, items := x.n, task := t.num, level := level, step := t.step, team := t.slots.length,
                      slot := slot, cls := t.cls, parent := parent, sump := t.desc.sumpBytes }
  let csr := { c.csr.start sovp sovl with fcsr := x.csr.fcsr, tvec := x.csr.tvec }
  let c := c.begin x.pcc csr id
  let dest : BitVec 32 := BitVec.twoPow 32 x.dest.toNat
  { c with
    g := vecSet x.g x.dest.toNat (if x.dest = 0 then .null else intReg (BitVec.ofNat 64 index)), v := x.v, p := x.p,
    gInh := x.gMask &&& ~~~(dest ||| 1), gPois := poisonMask x.gMask (dest ||| 1),
    vInh := x.vMask, vPois := poisonMask x.vMask 0,
    pInh := x.pMask &&& ~~~1, pPois := ~~~(x.pMask ||| 1),
    regionBase := x.base, regionLen := x.len, resident := x.resident }

/-- R242: an item's TCM as it starts: the exemplar's region, every other byte zero. -/
def State.startTcm (s : State) (c : CoreId) (x : Option Exemplar) : State :=
  let l := tcmLoc c.index 0
  let y := s.shot.zero l 0x80000
  let y := match x with
    | some x => { y with mem := memMerge y.mem (memMove x.cells 0 l), tags := setAddAll y.tags (x.tags.map fun g => g + l / 16) }
    | none => y
  s.setShot y

/-! ## Commands given up (R224, R294) -/

/-- R302: a command that is given up leaves its channel's counter as it was, where no later command has used it. -/
def State.uncount (s : State) (c : Cmd) : State :=
  match c.decrypts, assocGet s.sec.channels c.channel with
  | true, some k =>
    let n : Word := c.aad.setWidth 64
    if k.next = n + 1 then { s with sec := { s.sec with channels := assocPut s.sec.channels c.channel { k with next := n } } } else s
  | _, _ => s

/-- The wait of an agent for a start time ends without executing the instruction: its command is discarded. -/
def State.abandon (s : State) (a : AgentId) : State :=
  let k := s.agent a
  match k.wait with
  | some (.engine _ (some t)) =>
    let s := s.setAgent { k with wait := none }
    match ticketEngine t with
    | none => s
    | some i =>
      match cmdFind t (s.engine i).queue with
      | none => s
      | some c => let c := { c with state := .discarded }; ((s.uncount c).traceEnd c i.die).cmdEnd i c
  | _ => s
def State.abandonAll (s : State) : List CoreId → State
  | [] => s
  | c :: rest => State.abandonAll (s.abandon (.core c)) rest

/-! ## Culvert commands saved and resumed (R249, R271, R301) -/

/-- The beats that a culvert's commands have on their way. -/
def State.drainBeats (s : State) (mine : Cmd → Bool) (e : Engine) : State :=
  s.drain fun f => f.agent ≠ f.issuer && e.queue.any fun c => mine c && c.ticket = f.ticket

/-- Of a culvert's commands, some leave it at a beat boundary, with their progress; a read that has not been answered is
made again. -/
def takeCommands (mine : Cmd → Bool) (i : BitVec 1) (e : Engine) : Engine × List (BitVec 1 × Cmd) :=
  ({ e with queue := e.queue.filter fun c => !mine c }, (e.queue.filter mine).map fun c => (i, { c with requests := [] }))
def State.liftCommands (s : State) (mine : Cmd → Bool) : List Nat → State × List (BitVec 1 × Cmd)
  | [] => (s, [])
  | k :: rest =>
    let c := s.cluster k
    let s := (s.drainBeats mine (vecAt c.culverts 0 .empty)).drainBeats mine (vecAt c.culverts 1 .empty)
    let (e0, m0) := takeCommands mine 0 (vecAt c.culverts 0 .empty)
    let (e1, m1) := takeCommands mine 1 (vecAt c.culverts 1 .empty)
    let s := s.setCluster k { c with culverts := vecSet (vecSet c.culverts 0 e0) 1 e1 }
    let s := (s.loadOwner (.culvert (culvertOf k 0))).loadOwner (.culvert (culvertOf k 1))
    let (s, more) := State.liftCommands s mine rest
    (s, m0 ++ m1 ++ more)

def Cmd.setIssuer (c : Cmd) (a : AgentId) : Cmd := { c with origin := { c.origin with agent := a } }

/-- R301: a command goes on at the culvert of the same index in the cluster where its issuer resumes. -/
def State.putCommands (s : State) (f : AgentId → AgentId) : List (BitVec 1 × Cmd) → State
  | [] => s
  | (i, c) :: rest =>
    let a := f c.issuer
    let id : EngineId := .culvert (culvertOf (AgentId.clusterOf a) i.toNat)
    let e := s.engine id
    State.putCommands ((s.setEngine id { e with queue := e.queue ++ [c.setIssuer a] }).loadOwner id) f rest

/-- Commands of the item that a core runs. -/
def Core.kicked (k : Core) (c : Cmd) : Bool := k.holds c.origin

/-! ## Slots -/

/-- Position of an element in a list. -/
def indexIn {α : Type} [DecidableEq α] (a : α) : List α → Option Nat
  | [] => none
  | b :: rest => if a = b then some 0 else (indexIn a rest).map (· + 1)

/-- The running task whose team holds a core. -/
def taskOn (c : CoreId) : List Task → Option Task
  | [] => none
  | t :: rest => if t.state = .running && t.slots.contains c then some t else taskOn c rest

/-- The first item that a queue entry stands for, and the queue after it has left. -/
def queuePop : List Queued → Option (Queued × List Queued)
  | [] => none
  | q :: rest =>
    if q.count ≤ 1 then some (q, rest) else some (q, { q with index := q.index + q.stride, count := q.count - 1 } :: rest)

/-- The exemplar that a level's items of a cluster are stamped from. -/
def Cluster.half (k : Cluster) (level : BitVec 2) : Option Exemplar := if level = 2 then k.half2 else k.half1

/-- The slots of a team that lie in one cluster, in slot order. -/
def Task.slotsIn (t : Task) (cluster : Nat) : List CoreId := t.slots.filter fun c => c.clusterKey = cluster

/-! ## What YIELD saves beside the core (R249) -/

/-- The 16-byte granules of the overflow area in use, each at the place that the sump's redirection gives it. -/
def State.overflowPlaces (s : State) (ea : Nat) : Nat → List Place
  | 0 => []
  | n + 1 =>
    let rest := State.overflowPlaces s (ea + 16) n
    match s.redirect (BitVec.ofNat 48 ea) with
    | some va => match s.resolve false true va with | .ok p => p :: rest | .error _ => rest
    | none => rest
/-- The granules from the one that the g29 cursor lies in up to address 0. -/
def State.overflowFrom (s : State) (ea : Nat) : List Place :=
  if inOverflow ea then s.overflowPlaces (ea / 16 * 16) (2 ^ 44 - ea / 16) else []

def Saved.addGranules (s : State) (i : Nat) (v : Saved) : List Place → Saved
  | [] => v
  | p :: rest =>
    let v := { v with cells := memWrite v.cells (16 * i) (s.placeBytes p 16),
                      tags := if s.placeTag p then setAdd v.tags i else v.tags }
    Saved.addGranules s (i + 1) v rest
/-- The overflow bytes of the agent in focus; the key is the address that they begin at. -/
def State.saveOverflow (s : State) : Option Saved :=
  let ea := (s.g 29).cursor.toNat
  if inOverflow ea then some (Saved.addGranules s 0 ⟨ea, [], [], []⟩ (s.overflowFrom ea)) else none
def State.putGranules (s : State) (v : Saved) (i : Nat) : List Place → State
  | [] => s
  | p :: rest => State.putGranules (s.store p (memRead v.cells (16 * i) 16) (setHas v.tags i)) v (i + 1) rest
def State.restoreOverflow (s : State) : Option Saved → State
  | some v => s.putGranules v 0 (s.overflowFrom v.key)
  | none => s

/-- A saved item takes a core; KLEAD, SMPL, the sampling state and the issue order are the core's (R71, R218, R407), whose
instruction cache starts afresh (R135). -/
def Core.resumeOn (saved old : Core) : Core :=
  { saved with agent := old.agent, owner := old.owner, lfsr := old.lfsr, gap := old.gap, mark := old.mark, issued := old.issued,
               icache := [], ir := [],
               csr := { saved.csr with klead := old.csr.klead, smpl := old.csr.smpl } }

/-- R257: base and length of a scratchpad region, in units of 4 KiB, and its bits. -/
def regionBase (w : BitVec 32) : Nat := w.toNat % 256
def regionLen (w : BitVec 32) : Nat := w.toNat / 256 % 256
def regionValid (w : BitVec 32) : Bool := w.getLsbD 17
def regionDiscardable (w : BitVec 32) : Bool := w.getLsbD 16

/-- R335: whether a byte of an extent of the scratchpad's address range lies in a discardable region. -/
def discardable (spad : List (BitVec 32)) (va n : Nat) : Bool :=
  spad.any fun w => regionValid w && regionDiscardable w &&
    (let lo := 0x100000 + regionBase w * 4096; va < lo + regionLen w * 4096 && lo < va + n)

/-- R335: on resumption the tags of slots in discardable regions are invalid. -/
def Ring.dropTags (r : Ring) (spad : List (BitVec 32)) : Ring :=
  { r with tags := (r.tags.zip (upFrom 0 r.tags.length)).map fun p =>
      if discardable spad (r.base.toNat + p.2 * r.slotB) r.slotB then none else p.1 }
def Core.dropTags (c : Core) (spad : List (BitVec 32)) : Core :=
  { c with mx := { c.mx with rings := c.mx.rings.map fun r => r.map fun r => r.dropTags spad } }

/-- R141, R249, R271: a saved item goes on, on a core; its last record goes to the slot of that core, and TREC names the
slot. -/
def State.resumeCore (s : State) (saved old : Core) (spad : List (BitVec 32)) : State :=
  let c := (saved.dropTags spad).resumeOn old
  match c.last with
  | some r => (s.writeSlot c.owner c.agent r).setAgent { c with csr := { c.csr with trec := s.recordCapOf c } }
  | none => s.setAgent c

/-- R144: an engine command that an item of a core kicked and that runs on after the item has ended under the retire policy. -/
def State.leftCommand (s : State) (c : CoreId) (k : Cmd) : Bool := k.issuer = .core c && (s.itemCore k.origin).isNone
/-- R144: while one runs, no next item of the core's slot starts. -/
def State.leftBusy (s : State) (c : CoreId) : Bool :=
  ((s.cluster c.clusterKey).culverts.toList.any fun e => e.queue.any (s.leftCommand c))
    || s.cisterns.toList.any fun e => e.queue.any (s.leftCommand c)

/-- R406: the marked instruction leaves the pipeline with an outcome, unless it has one. -/
def Mark.gone (outcome : BitVec 2) (m : Mark) : Mark := { m with left := m.left.or (some outcome) }

/-- A core between items: what its queue held has been discarded (R335, R336), and a marked instruction in flight is
abandoned (R406). -/
def Core.rest (c : Core) : Core :=
  { c with run := .idle, wait := none, pending := [], handler := false, mx := { c.mx with queue := [] },
           mark := c.mark.map (Mark.gone 3) }

/-- R238, R239, R247: the next item of a slot starts on its idle core, which is in focus, once the commands of the last one
have ended (R144). -/
def State.startNext (s : State) (c : CoreId) : State :=
  match if s.leftBusy c then none else (taskOn c s.tasks).filter fun t => !s.pastFreeze t.context t.num c.die with
  | none => s
  | some t =>
    match indexIn c t.slots with
    | none => s
    | some slot =>
      match queuePop (assocGetD t.queues slot []) with
      | none => s
      | some (q, rest) =>
        let s := s.setTask { t with queues := assocPut t.queues slot rest }
        let old := s.agent (.core c)
        match q.saved with
        | some saved =>
          let saved := { saved with ident := { saved.ident with cls := t.cls } }
          let s := match q.image with
            | some v => s.setShot (s.shot.restore v (tcmLoc c.index 0) 0x80000)
            | none => s
          (((s.resumeCore saved old t.desc.spad).restoreOverflow q.spill).putCommands (fun _ => .core c) q.commands)
        | none =>
          if q.level = 0 then (s.startTcm c none).setAgent (old.prologue t)
          else
            match (s.cluster c.clusterKey).half q.level with
            | none => s
            | some x =>
              let mates := t.slotsIn c.clusterKey
              let parts := if q.level = 2 then mates.length else t.slots.length
              let k := if q.level = 2 then ((indexIn c mates).getD 0) else slot
              (s.startTcm c (some x)).setAgent (old.stamped t x q.level q.index q.parent slot parts k)

/-! ## Result records (R247, R248) -/

/-- R248: the 16 bytes of a result record. -/
def resultBytes (value : Word) (status code : Nat) : List Byte :=
  bytesOf 8 value.toNat ++ [BitVec.ofNat 8 status, BitVec.ofNat 8 code] ++ List.replicate 6 0

/-- The level-1 index whose record the ending item writes: level 1, a prologue with no FREEZE, or level-2 item 0. -/
def Core.resultIndex (c : Core) : Option Nat :=
  if c.ident.level = 2 then (if c.ident.item = 0 then some c.ident.parent else none) else some c.ident.item

/-- R247: the check of a record's store through the RESULT capability. -/
def Task.resultAccess (t : Task) (index : Nat) : Access :=
  let ea := t.desc.result.cursor + BitVec.ofNat 48 (16 * index)
  { cap := t.desc.result, reg := 0, role := 2, ea := ea, n := 16, align := 16, inB := t.desc.result.inBounds ea 16,
    r := false, w := true, x := false, k := false, t := false, colour := true }

/-- Bytes of a page copy. -/
abbrev pageBytes : Nat := 65536

/-! ## The end of a task -/

/-- R384: the record of a revival becomes final. -/
def DirRec.final (r : DirRec) (kind : BitVec 2) (label : BitVec 2) (reason : BitVec 8) (time : Tick) (newCorpse : BitVec 32)
    (off : Nat) (items : List ItemRec) : DirRec :=
  { r with kind := kind, label := label, reason := reason, time := time, newCorpse := newCorpse, off := off, items := items }

def recordsSet (i : Nat) (f : DirRec → DirRec) : List DirRec → List DirRec
  | [] => []
  | r :: rest => match i with
    | 0 => f r :: rest
    | k + 1 => r :: recordsSet k f rest

def corpseMap (id : BitVec 32) (f : Corpse → Corpse) : List Corpse → List Corpse
  | [] => []
  | c :: rest => if c.id = id then f c :: rest else c :: corpseMap id f rest


/-- R384: a revival has ended: its record is final, its page copies are released but for those that a new corpse
retains, and its counter is signalled. -/
def State.endRevival (s : State) (t : Task) (v : Revival) (kind label : BitVec 2) (reason : BitVec 8) (time : Tick)
    (newCorpse : BitVec 32) (items : List ItemRec) (keepPages : Bool) : State :=
  let fin := fun (c : Corpse) =>
    let off := 0x41000 + c.used
    { c with records := recordsSet v.record (fun r => r.final kind label reason time newCorpse off items) c.records,
             used := c.used + itemsSize items, quota := c.quota + itemsSize items }
  let pages := match overlayFind t.context t.num s.overlays with | some o => o.pages.length | none => 0
  let s := { s with corpses := corpseMap v.corpse fin s.corpses,
                    contexts := match corpseFind v.corpse s.corpses with | some k => s.chargeOwner k (itemsSize items) | none => s.contexts,
                    overlays := s.overlays.filter fun o => !(o.context = t.context && o.task = t.num) }
  let s := if keepPages then s
    else match s.ctx t.context with
      | some c => s.setCtx { c with charged := c.charged - pages * pageBytes }
      | none => s
  let s := s.setShot (s.shot.zero (overlayBase t.context t.num) (2 ^ 48))
  s.signalCounter v.reviver v.counter 1

/-! ## Labels (R364) -/

/-- R364: the label of a reason. -/
def reasonLabel (r : Nat) : BitVec 2 := if r = 2 || r = 3 then 1 else if 4 ≤ r && r ≤ 7 then 2 else 0
def worstLabel : List Nat → BitVec 2
  | [] => 0
  | r :: rest => let l := worstLabel rest; if l < reasonLabel r then reasonLabel r else l
/-- The lowest-numbered reason of a label. -/
def lowestReason (l : BitVec 2) (reasons : List Nat) : Nat :=
  match reasons.filter fun r => reasonLabel r = l with
  | [] => 0
  | r :: rest => rest.foldl min r

/-- R364: the reasons of a task are those of its items. -/
def itemsLabel (items : List ItemRec) : BitVec 2 × BitVec 8 :=
  let reasons := items.map fun i => i.reason.toNat
  let label := worstLabel reasons
  (label, BitVec.ofNat 8 (lowestReason label reasons))

/-- R384: the record of a revival that has been killed, with what is recorded of its items. -/
def State.endKilled (s : State) (t : Task) (items : List ItemRec) (instant : Tick) (id : BitVec 32) : State :=
  match t.revival with
  | some v => let (label, reason) := itemsLabel items; s.endRevival t v 2 label reason instant id items (id ≠ 0)
  | none => s

/-- R374: the record of an item that has retired. -/
def retiredRec (c : Core) : ItemRec :=
  { item := c.ident.item, label := 0, reason := 1, reasons := [1], state := 1, core := c, pendG := 0, image := none, torn := [] }

/-- Clusters of a team by number. -/
def Task.clusterKeys (t : Task) : List Nat := t.placed.map fun p => p.1.toNat * 128 + p.2.toNat

/-- R267, R269: DONECTR counts 1 when the task ends, by retirement or by kill, as SIGNAL does it: what the task has written, its
result records among it, is performed at package scope before. -/
def State.doneCounter (s : State) (t : Task) : State :=
  if t.desc.donectr.getLsbD 15 then
    let s := s.drain fun f => f.context = t.context && f.task = t.num && scopeCovers 3 f.loc
    s.signalCounter t.context (t.desc.donectr.setWidth 12) 1
  else s

/-- The exemplar halves of a task's clusters are no longer live (R234). -/
def State.dropHalves (s : State) : List Nat → State
  | [] => s
  | k :: rest => State.dropHalves (s.setCluster k { s.cluster k with half1 := none, half2 := none, inUse := false }) rest

/-- R231, R259: every item has retired: the task is over. -/
def State.endTask (s : State) (t : Task) : State :=
  let s := (s.setTask { t with state := .done }).dropHalves t.clusterKeys
  let s := (s.journalSet t.seq 2 0 0).doneCounter t
  match t.revival with
  | some v => s.endRevival t v 1 0 1 s.packageTime 0 (t.finished.map retiredRec) false
  | none => s

/-! ## The end of an item (R247) -/

/-- R273: a level-2 item other than item 0 is a member of nothing. -/
def Core.isChild (c : Core) : Bool := c.ident.level = 2 && c.ident.item ≠ 0

/-- A level's exemplar loses one item; it is live until the last item of its level has retired (R234). -/
def State.leaveHalf (s : State) (t : Task) (level : BitVec 2) (cluster : Nat) : State :=
  let drop := fun (x : Option Exemplar) => match x with
    | some x => if x.left ≤ 1 then none else some { x with left := x.left - 1 }
    | none => none
  if level = 2 then
    let k := s.cluster cluster
    s.setCluster cluster { k with half2 := drop k.half2 }
  else
    t.clusterKeys.foldl (fun s n => let k := s.cluster n; s.setCluster n { k with half1 := drop k.half1 }) s

/-- R138, R247: the item of the agent in focus has ended: its pending faults go to the event stream alone, a member is
withdrawn (R273), counts are kept, the core free for the next
item of its slot. -/
def State.leaveItem (s : State) : State :=
  let c := s.core
  match s.ownTask, c.agent with
  | some t, .core id =>
    let s := { s with core := { s.core with pending := [] } }.dropAll c.pending
    let s := if c.isChild then s else s.withdraw t id
    let t := (s.task t.context t.num).getD t
    let two := c.ident.level = 2
    let one := c.ident.level = 1 || two && c.ident.item = 0
    let t := { t with retired1 := if one then t.retired1 + 1 else t.retired1,
                      retired2 := if two then t.retired2 + 1 else t.retired2, live := t.live - 1,
                      finished := t.finished ++ [{ c with run := .idle, wait := none }] }
    let s := s.setTask t
    let s := if two then s.leaveHalf t 2 id.clusterKey else s
    let s := if one then s.leaveHalf t 1 id.clusterKey else s
    let s := { s with core := s.core.rest }
    if t.live = 0 then s.endTask t else s
  | _, _ => { s with core := { s.core with run := .idle, wait := none } }

/-- R247, R248: the result record is written, where one is due, and the item ends. -/
def State.retireWith (s : State) (p : Option Place) (value : Word) (status code : Nat) : State :=
  let s := s.release 3
  let s := match p with | some p => s.store p (resultBytes value status code) false | none => s
  s.leaveItem

/-- Whether an engine command of the item of the agent in focus is kicked and not complete (R247). -/
def itemBusy (k : Core) (e : Engine) : Bool := e.queue.any k.kicked
def State.enginesBusy (s : State) : Bool :=
  (match s.core.agent.cluster with | some k => (s.cluster k).culverts.toList.any (itemBusy s.core) | none => false)
    || s.cisterns.toList.any (itemBusy s.core)

/-! ## Freezes (R358, R359, R368) -/

/-- Whether any context has mounted a corpse. -/
def State.mounted (s : State) (id : BitVec 32) : Bool :=
  s.contexts.any fun p => p.2.mounts.any fun m => m.2.1 = id

/-- The lowest-numbered catalogue index that is free, of `n` from `i` on. -/
def freeIndex (used : List Nat) (i : Nat) : Nat → Option Nat
  | 0 => none
  | n + 1 => if used.contains i then freeIndex used (i + 1) n else some i

/-- R368: the oldest corpse that no context has mounted. -/
def oldestFree (s : State) : List Corpse → Option Corpse
  | [] => none
  | c :: rest => if s.mounted c.id then oldestFree s rest else some c

/-- Discards a corpse: its charge is returned, and that of the copies of pages that no other corpse shares (R367). -/
def State.discard (s : State) (id : BitVec 32) : State :=
  match corpseFind id s.corpses with
  | none => s
  | some c =>
    let s := c.revivals.foldl (fun s t => s.endKilled t (c.frozenItems t.num) c.freeze id) s
    let s := { s with corpses := s.corpses.filter fun k => k.id ≠ id }
    let alone := fun (p : Nat × Nat × BitVec 32) =>
      !(s.corpses.any fun k => k.context = c.context && k.serial = c.serial && assocGet k.copied p.1 = some p.2)
    let pages := ((c.copied.filter alone).map fun p => p.2.1).sum
    match s.ctx c.context with
    | some x => if x.serial = c.serial then s.setCtx { x with charged := x.charged - c.quota - pages } else s
    | none => s

/-- R359, R368: the id of a new corpse; 0 when none is kept. -/
def State.newCorpse (s : State) : State × BitVec 32 :=
  let used := fun (s : State) =>
    (s.corpses.map fun c => c.id.toNat % 4096) ++ (s.freezing.filter fun z => z.id ≠ 0).map fun z => z.id.toNat % 4096
  let (s, i) := match freeIndex (used s) 0 4096 with
    | some i => (s, some i)
    | none => match oldestFree s s.corpses with
      | some c => let s := s.discard c.id; (s, freeIndex (used s) 0 4096)
      | none => (s, none)
  match i with
  | none => (s, 0)
  | some i =>
    let n := assocGetD s.placedIds i 0
    let count := if i = 0 then n % (2 ^ 20 - 1) + 1 else n % 2 ^ 20
    ({ s with placedIds := assocPut s.placedIds i (n + 1) }, BitVec.ofNat 32 (count * 4096 + i))

/-- A freeze already awaited that covers these tasks, or the whole context. -/
def freezeFind (context : BitVec 8) (task : Option (BitVec 32)) : List Freezing → Option Freezing
  | [] => none
  | z :: rest =>
    let hit := z.context = context && match task, z.tasks with
      | some n, some l => l.contains n
      | some _, none => true
      | none, none => true
      | none, some _ => false
    if hit then some z else freezeFind context task rest

/-- R358: the KLEAD of the archivist of a die. -/
def State.klead (s : State) (die : BitVec 2) : Word := (s.agent (.archivist die)).csr.klead

/-- R358: a freeze of one task (or of the whole context, for none) is started by the archivist of a die. A second
request takes the same instant and corpse. An armed debug stop is disarmed (R414). -/
def State.startFreeze (s : State) (die : BitVec 2) (context : BitVec 8) (task : Option (BitVec 32)) (cause code : Nat)
    (killer : BitVec 8) : State × BitVec 32 :=
  match freezeFind context task s.freezing with
  | some z => (s, z.id)
  | none =>
    let (s, id) := s.newCorpse
    let z : Freezing := { id := id, context := context, tasks := task.map fun n => [n], cause := BitVec.ofNat 8 cause, code := BitVec.ofNat 8 code,
                          killer := killer, instant := s.packageTime + s.klead die, journal := [], lost := [] }
    let hit := fun (t : Task) => t.context = context && (match task with | some n => t.num = n | none => true)
    let mark := fun (t : Task) => { t with armed := false, freezing := if task.isSome then some id else t.freezing }
    ({ s with freezing := s.freezing ++ [z], tasks := s.tasks.map fun t => if hit t then mark t else t }, id)

/-! ## The fault policy (R144) -/

/-- R144: a fault that no handler takes ends the item by the task's policy: killed, the item stops at once and a
freeze of the task is started; retired, its result is reported as faulted. -/
def State.policy (s : State) (code : BitVec 8) : State :=
  match s.ownTask with
  | none => { s with core := { s.core with run := .halted, wait := none } }
  | some t =>
    if t.desc.flags.getLsbD 0 then
      let s := { s with core := s.core.loseMatrix }
      let place := (s.core.resultIndex).bind fun i => match s.access (t.resultAccess i) with
        | .ok p => if isAway p.loc && (s.awayRefused s.core.owner p.loc).isSome then none else some p
        | .error _ => none
      s.retireWith place 0 2 code.toNat
    else
      let (s, _) := s.startFreeze s.core.agent.die t.context (some t.num) 2 code.toNat 0
      { s with core := { s.core with run := .halted, wait := none } }

/-- Whether the policy that applies to the agent in focus is retire (R140, POL). -/
def State.retirePolicy (s : State) : Bool := match s.ownTask with | some t => t.desc.flags.getLsbD 0 | none => false

end Sys2Proof.Machine
end

