-- ==== Sys2Proof/Machine/Ops.lean ====
section
/-! DEFINITION. What every instruction shares: the passage of time, the fetch (R49 step 1), taking an exception and
returning from it (R137 to R145, R293), and the frame in which a body runs (R49). -/

namespace Sys2Proof.Machine

/-! ## Time (R208) -/

/-- Ticks that the surroundings ask of a step: at least one. -/
def State.ticks (s : State) : Nat := max 1 s.pace

/-- A zone counts; that of a die whose failure has stopped its count stands (R211; assumption 118). -/
def Die.tick (n : Nat) (d : Die) : Die := if d.counting then { d with atime := d.atime + BitVec.ofNat 64 n } else d

/-- Ticks from a zone's time to an instant that lies ahead: a step that would pass the instant ends on it. -/
def upTo (zone t : Tick) (n : Nat) : Nat := if zone < t then min n (t.toNat - zone.toNat) else n

/-- The die in whose zone a command's start time counts: its engine's, or the issuer's for the matrix unit (R224). -/
def startDie (c : Core) (ticket : Option Word) : BitVec 2 :=
  match ticket.bind ticketEngine with | some i => i.die | none => c.agent.die

/-- The zones whose time a wait is for, with that time (R210, R220, R221, R224). -/
def State.waitInstants (s : State) (c : Core) : List (Tick × Tick) :=
  let zone := fun (d : BitVec 2) => (s.dieAt d).atime
  match c.wait with
  | some (.time t) => [(zone c.agent.die, t)]
  | some (.engine t k) => [(zone (startDie c k), t)]
  | some (.notBefore t reads) => (zone c.agent.die, t) :: reads.filterMap fun r => r.home.map fun d => (zone d, t)
  | _ => []

/-- The instants that no step passes: visible-at times, freeze instants, and the times that agents wait for, so that what
is due at an instant is done in its tick (R217, R219, R220, R224, R360). -/
def State.instants (s : State) : List (Tick × Tick) :=
  (s.timed.map fun x => ((s.dieAt x.homeDie).atime, x.t)) ++ (s.freezing.flatMap fun z => (s.dies.toList.filter Die.counting).map fun d => (d.atime, z.instant))
    ++ (s.core :: s.parked).flatMap s.waitInstants

/-- The ticks of a step that would take `n`. -/
def State.stride (s : State) (n : Nat) : Nat := s.instants.foldl (fun n p => upTo p.1 p.2 n) n

/-- R212: the ticks that discipline adds in a step: at most 1 in 1,024, toward what is still due. -/
def State.correction (s : State) (n : Nat) : Int :=
  let k : Int := (((s.fabric.since + n) / 1024 : Nat) : Int)
  max (-k) (min k s.fabric.slew)

/-- The ticks of the next step, and those of them that are discipline's: at least one in all, so that each reading of
the time exceeds the one before (R97). -/
def State.advance (s : State) : Nat × Int :=
  let n := s.stride s.ticks
  let m := s.stride (max 1 ((n : Int) + s.correction n).toNat)
  (m, (m : Int) - n)

/-- R212: what the ticks of a step leave of the correction. -/
def Fabric.corrected (b : Fabric) (a : Nat × Int) : Fabric :=
  { b with slew := b.slew - a.2, since := (b.since + (a.1 - a.2).toNat) % 1024 }

/-- Every zone that counts moves on (R209, R212), but for an instruction that an event completes, which takes none. -/
def State.tick (s : State) : State :=
  { s with dies := if s.still then s.dies else s.dies.map (Die.tick s.advance.1),
           fabric := if s.still then s.fabric else s.fabric.corrected s.advance }

/-! ## Taking an exception -/

/-- R140: FLAGS bits. -/
abbrev fIMP : BitVec 8 := 0x01
abbrev fHND : BitVec 8 := 0x02
abbrev fNEST : BitVec 8 := 0x04
abbrev fPOL : BitVec 8 := 0x10

/-- R142: the handler is entered: TEPC, TCAUSE, TREC, HandlerActive and the cursor of PCC, and nothing else. -/
def Core.enterHandler (c : Core) (pc : Addr) (code : BitVec 8) (trec : GReg) (r : FaultRec) : Core :=
  { c with csr := { c.csr with tepc := pc.setWidth 64, tcause := code.setWidth 64, trec := trec }, handler := true,
           pcc := c.pcc.setCursor (c.csr.tvec.setWidth 48), wait := none, last := some r }

/-- R142, R143: whether a fault is taken by the handler. -/
def Core.traps (c : Core) : Bool := c.csr.tvec.setWidth 48 ≠ (0 : Addr) && !c.handler

/-- An agent that reports a device error to the host. -/
def State.deviceError (s : State) (a : AgentId) : State := { s with deviceErrors := s.deviceErrors ++ [a] }

/-- R293: a culvert program has faulted: a device error, its command in hand FAULTED with INTEG, the culvert reset with
the owner of the next command. -/
def State.culvertProgramFault (s : State) (c : CulvertId) : State :=
  let e := s.engine (.culvert c)
  let s := match e.head with
    | none => s
    | some q => let q := { q with state := .faulted, code := cINTEG }; (s.traceEnd q c.die).cmdEnd (.culvert c) q
  { s.deviceError (.culvert c) with core := Core.idle (.culvert c) }.loadOwner (.culvert c)

/-- A fault of a firmware core that no handler takes: the core halts and a device error is reported. -/
def State.firmwareFault (s : State) : State :=
  { s.deviceError s.core.agent with core := { s.core with run := .halted, wait := none } }

/-- R137 to R144: a fault of the agent in focus is taken. `flags` is IMP for an imprecise one. -/
def State.takeFault (s : State) (r : FaultRec) (flags : BitVec 8) : State :=
  let s := s.abandon s.core.agent
  let pc := s.pc
  let r := { r with pc := pc.setWidth 64 }
  match s.core.agent with
  | .culvert c => s.culvertProgramFault c
  | _ =>
    if s.core.traps then
      let (s, r) := s.writeRecord { r with flags := flags ||| fHND }
      { s with core := s.core.enterHandler pc r.code s.recordCap r }
    else
      let nest := if s.core.handler then fNEST else 0
      let pol := if s.retirePolicy then fPOL else 0
      let (s, r) := s.writeRecord { r with flags := flags ||| nest ||| pol }
      let s := { s with core := { s.core with last := some r } }
      if s.itemMode then s.policy r.code else s.firmwareFault

/-- A precise fault of the instruction at the PC (R137). -/
def State.takeTrap (s : State) (t : Trap) : State :=
  s.takeFault (s.record t.code 0 s.pc t.addr t.detail) 0

/-- R138: the oldest pending imprecise fault is taken at the boundary. -/
def State.takePending (s : State) : State :=
  match s.core.pending with
  | [] => s
  | r :: rest => { s with core := { s.core with pending := rest } }.takeFault r fIMP

/-- R145: PCC.CURSOR := TEPC, HandlerActive := 0. -/
def State.returnFromTrap (s : State) : State :=
  { s with core := { s.core with pcc := s.core.pcc.setCursor (s.core.csr.tepc.setWidth 48), handler := false } }

/-! ## Fetching (R49 step 1) -/

/-- The fetch of the parcel at an address as an access through PCC. -/
def State.fetchAccess (s : State) (a : Addr) : Access :=
  { cap := s.core.pcc, reg := 0, role := 0, ea := a, n := 2, align := 2, inB := s.core.pcc.inBounds a 2,
    r := false, w := false, x := true, k := false, t := false, colour := true }

/-- R135: a parcel enters the instruction cache of the agent in focus. -/
def State.cacheParcel (s : State) (l : Nat) (q : Parcel) : State :=
  { s with core := { s.core with icache := assocPut s.core.icache l q } }

/-- The request for a parcel of host or peer memory goes out. -/
def State.sendFetch (s : State) (p : Place) : R (State × Parcel) := do
  s.issueAway p
  .error (.hold (s.beforeAccess p 2) (.fetch (s.request p 2 none)))

/-- A parcel of host or peer memory: its request goes out once, and its completion fills the cache (R346, R347). -/
def State.fetchAway (s : State) (p : Place) : R (State × Parcel) :=
  match s.core.wait with
  | some (.fetch r) =>
    if r.loc = p.loc then
      match r.answer with
      | some (.returned bytes) => let q := BitVec.ofNat 16 (natOf bytes); .ok (s.cacheParcel p.loc q, q)
      | some o => match r.fault o with | some t => .error (.trap t) | none => .error (.hold s (.fetch r))
      | none => .error (.hold s (.fetch r))
    else s.sendFetch p
  | _ => s.sendFetch p

/-- One parcel. ALIGN is the first check of a fetch. A parcel that the instruction cache holds is not read again (R135). -/
def State.fetchParcel (s : State) (a : Addr) : R (State × Parcel) :=
  if a.getLsbD 0 then .error (.trap ⟨cALIGN, a.setWidth 64, 0⟩)
  else
    match s.access (s.fetchAccess a) with
    | .error (_, t) => .error (.trap t)
    | .ok p =>
      let s := s.fillTlb p
      match assocGet s.core.icache p.loc with
      | some q => .ok (s, q)
      | none =>
        if isAway p.loc then s.fetchAway p
        else let q := BitVec.ofNat 16 (natOf (s.placeBytes p 2)); .ok (s.cacheParcel p.loc q, q)

/-- Parcels up to the base parcel, `n` at most. -/
def State.fetch (s : State) (a : Addr) : Nat → R (State × List Parcel)
  | 0 => .ok (s, [])
  | n + 1 =>
    match s.fetchParcel a with
    | .error e => .error e
    | .ok (s, q) =>
      if q.isPrefix then
        match State.fetch s (a + 2) n with
        | .error e => .error e
        | .ok (s, qs) => .ok (s, q :: qs)
      else .ok (s, [q])

/-- R136, R197: an access that the host, a peer or a bank has taken is not abandoned: its instruction stays the one that
was fetched. -/
def Core.issuedWait (c : Core) : Bool :=
  match c.wait with
  | some (.host _) => true
  | some (.aad _ _) => true
  | some (.rmw _ _ _ _ _ _ _) => true
  | _ => false

/-- The parcels of the instruction that the agent in focus executes. -/
def State.parcels (s : State) : R (State × List Parcel) :=
  if s.core.issuedWait then .ok (s, s.core.ir)
  else match s.fetch s.pc 5 with
    | .error e => .error e
    | .ok (s, qs) => .ok ({ s with core := { s.core with ir := qs } }, qs)

/-- R49 steps 1 to 3: the instruction at the PC, or the fault that its fetch or its encoding raises. -/
def State.fetchInstr (s : State) : R (State × Instr) :=
  match s.parcels with
  | .error e => .error e
  | .ok (s, qs) =>
    match decode qs with
    | .ok i => .ok (s, i)
    | .error .pfxc => .error (.trap ⟨cPFXC, 0, 0⟩)
    | .error _ => .error (.trap ⟨cILL, 0, 0⟩)

/-! ## The frame of an instruction (R49) -/

/-- Length of an instruction in bytes. -/
def Pfx.bytes (x : Pfx) : Addr := BitVec.ofNat 48 (2 * x.parcels)

/-- The address of the parcel after the instruction's base parcel. -/
def State.next (s : State) (x : Pfx) : Addr := s.pc + Pfx.bytes x

/-- R35: the predicate of a scalar instruction. -/
def State.predicate (s : State) (x : Pfx) : Bool := !x.p || ((s.p x.pred).getLsbD 0 ^^ x.neg)

/-- An instruction has ended: it waits for nothing, and time moves on. -/
def State.done (s : State) : State :=
  let s := { s with core := { s.core with wait := none }, stalled := false }
  s.tick

/-- R221, R269: an instruction waits, and it is executed again. -/
def State.waits (s : State) (w : Wait) : State :=
  let s := { s with core := { s.core with wait := some w }, stalled := true }
  s.tick

/-- How a body's end becomes the next state. -/
def State.settleBody (s : State) : R State → State
  | .ok t => t.done
  | .error (.trap t) => (s.takeTrap t).done
  | .error (.wait w) => s.waits w
  | .error (.hold t w) => t.waits w

/-- R49 steps 3 to 6 after decoding: ILL, PRIV, the predicate of a scalar instruction, then the body, which also
moves the PC. -/
def State.jumpInstr (s : State) (ill priv : Bool) (x : Pfx) (body : State → R State) : State :=
  if ill then (s.takeTrap ⟨cILL, 0, 0⟩).done
  else if priv then (s.takeTrap ⟨cPRIV, 0, 0⟩).done
  else
    s.settleBody do
      let s ← if x.p then s.useP [x.pred] else .ok s
      if s.predicate x then body s else .ok (s.setPc (s.next x))

/-- The same for an instruction after which the next parcel is executed. -/
def State.scalarInstr (s : State) (ill priv : Bool) (x : Pfx) (body : State → R State) : State :=
  s.jumpInstr ill priv x fun s => (body s).map fun t => t.setPc (s.next x)

/-- The same for a vector instruction, whose predicate governs elements (R36). -/
def State.vectorInstr (s : State) (ill : Bool) (x : Pfx) (body : State → R State) : State :=
  if ill then (s.takeTrap ⟨cILL, 0, 0⟩).done
  else s.settleBody ((body s).map fun t => t.setPc (s.next x))

/-! ## Which agent may execute what (R48, R293, R303) -/

def State.onCulvert (s : State) : Bool := match s.core.agent with | .culvert _ => true | _ => false
def State.onSecurity (s : State) : Bool := s.core.agent = .security

/-- The outcome of an instruction: always a next state. -/
abbrev Out := Host.Outcome State Fault Refusal

/-- A scalar instruction of pages 0 and 1, which every agent may execute. -/
def scalarOp (x : Pfx) (s : State) (body : State → R State) : Out := .next (s.scalarInstr false false x body)
/-- A control transfer of page 0. -/
def jumpOp (x : Pfx) (s : State) (body : State → R State) : Out := .next (s.jumpInstr false false x body)
/-- An instruction of pages 4 and 5, ILL on a culvert. -/
def itemOp (x : Pfx) (s : State) (body : State → R State) : Out := .next (s.scalarInstr s.onCulvert false x body)
/-- An instruction of page 6 that firmware alone may execute. -/
def firmwareOp (x : Pfx) (s : State) (body : State → R State) : Out :=
  .next (s.scalarInstr s.onCulvert s.itemMode x body)
/-- An instruction of page 7. -/
def securityOp (x : Pfx) (s : State) (body : State → R State) : Out :=
  .next (s.scalarInstr (!s.onSecurity) false x body)
/-- An instruction of pages 2 and 3. -/
def vectorOp (x : Pfx) (s : State) (body : State → R State) : Out := .next (s.vectorInstr s.onCulvert x body)

/-! ## Reading general registers with lazy inheritance -/

/-- A general register that the instruction reads (R76, R241). -/
def State.readG (s : State) (n : RegNum) : R (GReg × State) := do
  let s ← s.useG [n]
  return (s.g n, s)

end Sys2Proof.Machine
end

