-- ==== Sys2Proof/Machine/Operands.lean ====
section
/-! DEFINITION. The operand forms: registers, immediates, and memory operands of every kind (R75 to R77, R85 to R93). -/

namespace Sys2Proof.Machine

/-! ## Integer forms (R75 to R79) -/

/-- Form RR: SetInt(A, f(Gint(C), Gint(B))). -/
def rrBody (f : Word → Word → Word) (a b c : RegNum) (s : State) : R State := do
  let s ← s.useG [c, b]
  return s.setInt a (f (s.gint c) (s.gint b))

/-- A form that reads B alone: SetInt(A, f(Gint(B))). -/
def unBody (f : Word → Word) (a b : RegNum) (s : State) : R State := do
  let s ← s.useG [b]
  return s.setInt a (f (s.gint b))

/-- Form RI: SetInt(A, f(Gint(C), imm)). -/
def riBody (f : Word → Word → Word) (a c : RegNum) (imm : Word) (s : State) : R State := do
  let s ← s.useG [c]
  return s.setInt a (f (s.gint c) imm)

def boolWord (b : Bool) : Word := if b then 1 else 0

/-! ## Extension -/

/-- The low `n` bytes of a value, sign-extended. -/
def sextBytes (n v : Nat) : Word := (BitVec.ofNat 64 v <<< (64 - 8 * n)).sshiftRight (64 - 8 * n)
/-- The low `n` bytes of a value, zero-extended. -/
def zextBytes (n v : Nat) : Word := BitVec.ofNat 64 (v % 2 ^ (8 * n))

/-! ## Memory operands (R77, R59, R60) -/

/-- R77: ea := (G(B).CURSOR + off) mod 2⁴⁸. -/
def eaOf (cap : GReg) (off : Word) : Addr := cap.cursor + off.setWidth 48

/-- An access of `n` bytes at an address through register `b`, aligned to its size. -/
def memAccess (cap : GReg) (b : RegNum) (ea : Addr) (n : Nat) : Access :=
  { cap := cap, reg := b.toNat, role := 0, ea := ea, n := n, align := n, inB := cap.inBounds ea n,
    r := false, w := false, x := false, k := false, t := false, colour := true }

def Access.load (a : Access) : Access := { a with r := true }
def Access.store (a : Access) : Access := { a with w := true }
/-- R60: STK needs K as well when the stored value is tagged. -/
def Access.storeCap (a : Access) (tagged : Bool) : Access := { a with w := true, k := tagged }
def Access.atomic (a : Access) : Access := { a with r := true, w := true }

/-- The accesses of one instruction or operand, each with the extents of them all (R383). -/
def coverAll (as : List Access) : List Access :=
  let xs := as.map fun a => (a.ea.toNat, a.n)
  as.map fun a => { a with covers := xs }

/-- An access at an offset from the base, bounds checked on the exact offset (R87, R193). -/
def offsetAccess (cap : GReg) (b : RegNum) (d : Int) (n : Nat) : Access :=
  { memAccess cap b (cap.base + BitVec.ofInt 48 d) n with inB := 0 ≤ d && d + n ≤ (cap.length : Int) }

/-- R87: the indexed forms: d := OFFSET + index × size + off as an exact integer; bounds by d alone. -/
def indexAccess (cap : GReg) (b : RegNum) (index : Word) (size : Nat) (off : Word) : Access :=
  offsetAccess cap b ((cap.offset : Int) + index.toInt * size + off.toInt) size

/-- The pieces of an extent that lie in one 64 KiB page each. -/
def pageSplit (a : Access) (va n : Nat) : Nat → List Access
  | 0 => []
  | fuel + 1 =>
    if n = 0 then []
    else
      let k := min n (65536 - va % 65536)
      { a with ea := BitVec.ofNat 48 va, n := k } :: pageSplit a ((va + k) % 2 ^ 48) (n - k) fuel
/-- R296: an extent as accesses to one page each; bounds are those of the whole. -/
def Access.pieces (a : Access) : List Access := pageSplit a a.ea.toNat a.n (a.n / 65536 + 2)

/-- R224: what a timed matrix command needs in the unit's zone: the wait until T, or TIMING when T has come before the
command. -/
def State.timedStart (s : State) (zone t : Tick) : R Unit :=
  if s.core.wait ≠ some (.engine t none) && t ≤ zone then trap cTIMING 1
  else if zone < t then .error (.wait (.engine t none))
  else .ok ()

/-! ## Ordering (R126) -/

/-- What an access with release or sequential ordering performs first, for its scope. -/
def State.orderBefore (s : State) (o : Ordering) : State := if 2 ≤ o.ord.toNat then s.release o.scope else s

/-- A write that every later access follows is performed at once. -/
def State.orderAfter (s : State) (o : Ordering) (p : Place) (n : Nat) : State :=
  if o.ord.getLsbD 0 then s.settle p.loc n else s

def Ordering.plain : Ordering := ⟨0, 0, false, 0⟩

/-! ## Loads (R92, R136, R197, R346, R347)

The loads of an instruction are checked and issued once: those of the module are performed then, those of the host and
of peers wait for their completions, and when the last has come the instruction goes on with what they returned. Loads
are issued and, within the module, performed in program order (DESIGN CHOICE, assumption 96). -/

/-- A load in the module as it is performed now. -/
def State.readLocal (s : State) (p : Place) (n : Nat) : Outcome := .local (s.placeBytes p n) (s.placeTag p)

/-- The requests of loads, in order. -/
def State.issueLoads (s : State) : List (Place × Nat) → R (State × List Request)
  | [] => .ok (s, [])
  | (p, n) :: rest => do
    let s := s.beforeAccess p n
    if isAway p.loc then s.issueAway p
    let r := { s.request p n none with answer := if isAway p.loc then none else some (s.readLocal p n) }
    let (s, rs) ← State.issueLoads s rest
    return (s, r :: rs)

def Outcome.value : Outcome → List Byte × Bool
  | .local bytes tag => (bytes, tag)
  | .returned bytes => (bytes, false)
  | .failed _ => ([], false)
  | .timeout => ([], false)

/-- What requests have returned; the first that failed raises its fault. -/
def gather : List Request → R (List (List Byte × Bool))
  | [] => .ok []
  | r :: rest =>
    match r.answer with
    | none => gather rest
    | some o =>
      match r.fault o with
      | some t => .error (.trap t)
      | none => (gather rest).map fun xs => o.value :: xs

/-- The instruction waits while a request of it has not ended. -/
def State.answers (s : State) (rs : List Request) : R (State × List (List Byte × Bool)) :=
  if rs.any fun r => r.answer.isNone then .error (.hold s (.host rs)) else (gather rs).map fun xs => (s, xs)

/-- The loads of one instruction; `check` makes its checks and answers their places. -/
def State.loads (s : State) (o : Ordering) (check : State → R (State × List (Place × Nat))) :
    R (State × List (List Byte × Bool)) :=
  match s.core.wait with
  | some (.host rs) => s.answers rs
  | _ => do
    let (s, ps) ← check s
    let (s, rs) ← (s.orderBefore o).issueLoads ps
    s.answers rs

/-- The one load of an instruction. -/
def State.loadMem (s : State) (o : Ordering) (a : Access) : R (State × List Byte × Bool) := do
  let (s, xs) ← s.loads o fun s => (s.check a).map fun (s, p) => (s, [(p, a.n)])
  return (s, xs.headD ([], false))

/-- A store of checked bytes with its ordering. -/
def State.storeMem (s : State) (o : Ordering) (a : Access) (bytes : List Byte) (cap : Bool) : R State := do
  let (s, p) ← s.check a
  s.issueStore p
  return ((s.orderBefore o).store p bytes cap).orderAfter o p bytes.length

/-! ## Not-before loads (R220) -/

/-- A timed load of the module as it is performed now; a page that a revival has copied meanwhile, and a mount window, are
read where they stand now. -/
def State.readRequest (s : State) (r : Request) : Outcome :=
  let home : Outcome := match r.key with
    | some k => .local (s.viewBytes k r.loc r.n) (holdsTags r.loc && s.tagAt r.loc && !s.foreignLine k r.loc)
    | none => .local (s.readBytes r.loc r.n) (holdsTags r.loc && s.tagAt r.loc)
  let moved := inMount r.va.toNat || (s.overlay.bind fun o => layerLeaf s.fitted r.va.toNat o.space).isSome
  match moved, s.resolve false false r.va with
  | true, .ok p => s.readLocal p r.n
  | _, _ => home

/-- The loads whose home's zone has reached the time are performed. -/
def State.readDue (s : State) (t : Tick) (rs : List Request) : List Request :=
  rs.map fun r =>
    match r.answer, r.home with
    | none, some d => if t ≤ (s.dieAt d).atime then { r with answer := some (s.readRequest r) } else r
    | _, _ => r

/-- R220: the fault of an element that is no home's and becomes a plain load now: a host that the function may not reach
(R347), a mount that has gone. -/
def State.lateTrap (s : State) (t : Tick) : List Request → Option Trap
  | [] => none
  | r :: rest =>
    let here : Option Trap :=
      if r.answer.isSome || s.now < t then none
      else if isHostLoc r.loc then (s.awayRefused s.core.owner r.loc).map fun d => ⟨cHOST, r.va.setWidth 64, d⟩
      else if inMount r.va.toNat then
        (match s.resolve false false r.va with | .error d => some ⟨cTRANS, r.va.setWidth 64, d⟩ | .ok _ => none)
      else none
    here.or (State.lateTrap s t rest)

/-- R220: they wait at their homes until each home's zone has reached the time; a peer's home answers by a completion. -/
def State.awaitDue (s : State) (t : Tick) (rs : List Request) : R (State × List (List Byte × Bool)) :=
  match s.lateTrap t rs with
  | some e => .error (.trap e)
  | none =>
    let rs := s.readDue t rs
    if rs.any fun r => r.answer.isNone then .error (.hold s (.notBefore t rs)) else (gather rs).map fun xs => (s, xs)

/-- R214: a place that is a home for timed accesses, of this module or of a peer. -/
def State.timedHome (s : State) (p : Place) : Bool := (s.homeDie p).isSome || isPeerLoc p.loc

/-- The request of one not-before load: at its home by that home's zone, elsewhere by that of the issuing core. -/
def State.requestAfter (s : State) (p : Place × Nat) : Request :=
  { s.request p.1 p.2 none with
    home := if isAway p.1.loc then none else some ((s.homeDie p.1).getD s.core.agent.die) }

/-- The loads of peers that go out at issue: refused, or held (R350, R352). -/
def State.issuePeers (s : State) : List (Place × Nat) → R Unit
  | [] => .ok ()
  | (p, _) :: rest => do
    if isPeerLoc p.loc then s.issueAway p
    State.issuePeers s rest

/-- The settling of the agent's own earlier writes to several places. -/
def State.beforeAll (s : State) : List (Place × Nat) → State
  | [] => s
  | (p, n) :: rest => State.beforeAll (s.beforeAccess p n) rest

/-- The not-before loads of an instruction (R199, R220). Each is performed at its own home; where none lies at a home the
instruction waits at the issuing core, and its checks are made when the time has come. DESIGN CHOICE (assumption 20): of one
instruction with elements at homes and elsewhere every check is made at issue, and those elsewhere are performed when the
issuing zone reaches the time. -/
def State.loadsAfter (s : State) (o : Ordering) (t : Tick) (check : State → R (State × List (Place × Nat))) :
    R (State × List (List Byte × Bool)) :=
  match s.core.wait with
  | some (.notBefore _ (r :: rs)) => s.awaitDue t (r :: rs)
  | _ => do
    let (s, ps) ← check s
    if s.now < t && !ps.isEmpty && !(ps.any fun p => s.timedHome p.1) then .error (.wait (.notBefore t []))
    else
      s.issuePeers ps
      let s := (s.orderBefore o).beforeAll ps
      s.awaitDue t (ps.map s.requestAfter)

/-! ## Atomics (R90 to R93, R130) -/

/-- The eight operations by the low bits of their OP; none when ACAS does not write. -/
def atomicNew (op : BitVec 3) (n : Nat) (old w cmp : Nat) : Option Nat :=
  let so := (sextBytes n old).toInt
  let sw := (sextBytes n w).toInt
  match op with
  | 0#3 => some ((old + w) % 2 ^ (8 * n))
  | 1#3 => some (old &&& w)
  | 2#3 => some (old ||| w)
  | 3#3 => some (old ^^^ w)
  | 4#3 => some (if sw < so then w else old)
  | 5#3 => some (if so < sw then w else old)
  | 6#3 => some w
  | _ => if old = cmp then some w else none

/-- The read and the write of an atomic, adjacent, at a home of the module. -/
def State.atomicAt (s : State) (p : Place) (op : BitVec 3) (n : Nat) (old w cmp : Nat) : State :=
  match atomicNew op n old w cmp with
  | none => s
  | some new =>
    let s := s.beforeWrite p n
    s.perform (s.flight p (bytesOf n new) false)

/-- R91: which operations a host window takes. -/
def hostAtomic (op : BitVec 3) : Bool := op = 0 || op = 6 || op = 7

/-- An atomic whose checks have passed: what orders it comes first; then it is performed at its home, or it waits for the
host or the peer, or, while `hold` leaves accesses to the surroundings, for its slot of the scratchpad's frame (R130). One
that a home refuses waits for the record (R361, R362). -/
def State.issueAtomic (s : State) (o : Ordering) (p : Place) (op : BitVec 3) (n w cmp : Nat) : R (State × Nat) := do
  if isHostLoc p.loc && (o.scope ≠ 5 || !hostAtomic op) then trap cHATOM 0 (p.va.setWidth 64)
  if isAway p.loc then s.issueAway p
  let s := (s.orderBefore o).beforeAccess p n
  if isAway p.loc then
    .error (.hold s (.host [s.request p n (some (op, BitVec.ofNat 64 w, BitVec.ofNat 64 cmp))]))
  else if p.region = .spad && s.hold || s.refusesAt s.core.owner s.core.ident.task p.loc p.va then
    .error (.hold s (.rmw p.loc p.va (n = 8) op (BitVec.ofNat 64 w) (BitVec.ofNat 64 cmp) none))
  else
    let now := natOf (s.placeBytes p n)
    return (s.atomicAt p op n now w cmp, now)

/-- The atomic of an instruction: the state after it and the old value. -/
def State.atomic (s : State) (o : Ordering) (check : State → R (State × Place)) (op : BitVec 3) (n w cmp : Nat) :
    R (State × Nat) :=
  match s.core.wait with
  | some (.host rs) => (s.answers rs).map fun (s, xs) => (s, natOf (xs.headD ([], false)).1)
  | some (.rmw _ _ _ _ _ _ (some old)) => .ok (s, old.toNat)
  | some (.rmw l va wide op w cmp none) => .error (.hold s (.rmw l va wide op w cmp none))
  | _ => do
    let (s, p) ← check s
    s.issueAtomic o p op n w cmp

end Sys2Proof.Machine
end

