-- ==== Sys2Proof/Machine/Timed.lean ====
section
/-! DEFINITION. Timed memory: the latency table, timed stores from acceptance to application or miss, not-before loads,
and the deadline record (R208 to R226). -/

namespace Sys2Proof.Machine

/-! ## Latency (R211 to R214) -/

/-- R213: the fused die-pair table. -/
def dieLatency (a b : BitVec 2) : Nat := if a = b then 256 else if a.toNat + b.toNat = 3 then 960 else 640

def pairFind (d : BitVec 19) : List (BitVec 19 × Nat) → Option Nat
  | [] => none
  | (k, v) :: rest => if k = d then some v else pairFind d rest

/-- R212, R213: the fabric entry of a peer, while the device is in discipline. -/
def State.peerLatency (s : State) (d : BitVec 19) : Option Nat :=
  if s.fabric.disciplined && !s.fabric.lost.contains d then pairFind d s.fabric.latency else none

/-- R213 to R216: the latency from the issuing die to a place's home; none where it has no home or the entry is
unavailable. -/
def State.latency (s : State) (p : Place) : Option Nat :=
  if !s.die.sync then none
  else match p.region with
    | .peer d => s.peerLatency d
    | _ => match s.homeDie p with
      | some d => if (s.dieAt d).sync then some (dieLatency s.core.agent.die d) else none
      | none => none

/-! ## Accepting a timed store (R216, R218) -/

/-- T − now as a signed number saturated to 32 bits. -/
def saturate32 (v : Int) : BitVec 32 := BitVec.ofInt 32 (max (-(2 ^ 31)) (min (2 ^ 31 - 1) v))

/-- R216: the DETAIL of a DLINF record. -/
def dlinfDetail (t now : Tick) (lat : Option Nat) : Word :=
  let l : BitVec 32 := match lat with | some n => BitVec.ofNat 32 n | none => Config.noLatency
  saturate32 ((t.toNat : Int) - now.toNat) ++ l

/-- R216: the feasibility test of one place. -/
def State.feasible (s : State) (p : Place) (t : Tick) : Except Trap Nat :=
  match s.latency p with
  | none => .error ⟨cDLINF, p.va.setWidth 64, dlinfDetail t s.now none⟩
  | some l => if s.now.toNat + l ≤ t.toNat then .ok l else .error ⟨cDLINF, p.va.setWidth 64, dlinfDetail t s.now (some l)⟩

/-- R217, R218: a store accepted. Unless accesses are held back, it reaches its home in the table's latency. -/
def State.acceptTimed (s : State) (p : Place) (bytes : List Byte) (cap : Bool) (t : Tick) (element lat : Nat) : State :=
  let s := s.beforeWrite p bytes.length
  let peer := match p.region with | .peer d => some d | _ => none
  let least := s.now + BitVec.ofNat 64 lat
  let x : Timed :=
    { loc := p.loc, bytes := bytes, cap := cap && holdsTags p.loc, key := s.keyOf p, t := t, device := s.device,
      die := s.core.agent.die, agent := s.core.agent.number, order := s.core.issued, element := element,
      homeDie := (s.homeDie p).getD s.core.agent.die, peer := peer, seq := 0, quiet := false, origin := s.core.origin, va := p.va,
      pc := s.pc, least := least,
      arrival := if s.hold then none else some least, port := s.portTo p.loc }
  { s with timed := s.timed ++ [x] }

/-- R126, R133: a timed store that every later access follows is buffered at its home before them. -/
def State.acceptedAfter (s : State) (o : Ordering) (p : Place) : State :=
  if o.ord.getLsbD 0 || p.sc then s.arriveAll fun x => x.issuedBy s s.core.agent else s

def State.issuedOne (s : State) : State := { s with core := { s.core with issued := s.core.issued + 1 } }

/-! ## Application in key order (R217, R218) -/

/-- R218: the key of timed stores, lowest first; the visible-at time comes before it. -/
def Timed.rank (x : Timed) : Nat :=
  ((((x.t.toNat * 2 ^ 19 + x.device.toNat) * 4 + x.die.toNat) * 4096 + x.agent) * 2 ^ 64 + x.order) * 256 + x.element

def timedInsert (x : Timed) : List Timed → List Timed
  | [] => [x]
  | y :: rest => if x.rank ≤ y.rank then x :: y :: rest else y :: timedInsert x rest
def timedSort : List Timed → List Timed
  | [] => []
  | x :: rest => timedInsert x (timedSort rest)

/-- A store that has arrived in time and whose visible-at time its home's zone has reached. -/
def State.timedDue (s : State) (x : Timed) : Bool :=
  match x.arrival with
  | some a => a ≤ x.t && x.t ≤ (s.dieAt x.homeDie).atime
  | none => false

/-- The bytes of a timed store placed at its home. -/
def State.applyTimed (s : State) (x : Timed) : State :=
  s.perform { loc := x.loc, bytes := x.bytes, cap := x.cap, key := x.key, colour := none, agent := x.issuer, ticket := 0,
              origin := x.origin, fn := 0, port := none, va := x.va, pc := x.pc }

def State.applyAll (s : State) : List Timed → State
  | [] => s
  | x :: rest => State.applyAll (s.applyTimed x) rest

/-! ## Deadline records (R222, R223) -/

/-- R223: HOME of a deadline record. -/
def homeWord (x : Timed) (device : BitVec 19) : Word :=
  match x.peer with
  | some d => BitVec.ofNat 64 (d.toNat + (Config.peerHome d x.loc).toNat * 2 ^ 19 + 2 ^ 21)
  | none => BitVec.ofNat 64 (device.toNat + x.homeDie.toNat * 2 ^ 19)

/-- R222, R223: a miss joins the record: the count, and of the first miss since the last clear its particulars. -/
def Deadline.miss (d : Deadline) (m : Miss) (device : BitVec 19) : Deadline :=
  let n := if d.count = BitVec.allOnes 64 then d.count else d.count + 1
  if d.count = 0 then ⟨n, m.store.t, m.a, m.store.va.setWidth 64, m.store.pc.setWidth 64, homeWord m.store device⟩
  else { d with count := n }

/-- R222: DETAIL of a DLMISS record. -/
def missDetail (m : Miss) : Word :=
  let late : Nat := if m.frozen then 0 else min (m.a.toNat - m.store.t.toNat) (2 ^ 32 - 1)
  let die := match m.store.peer with | some d => Config.peerHome d m.store.loc | none => m.store.homeDie
  BitVec.ofNat 64 (late + die.toNat * 2 ^ 32 + (if m.store.peer.isSome then 2 ^ 34 else 0) + (if m.frozen then 2 ^ 35 else 0))

/-- Stores, or elements, that one STAT or VSTAT issued (R199). -/
def Timed.together (x y : Timed) : Bool := x.device = y.device && x.die = y.die && x.agent = y.agent && x.order = y.order

/-- Of misses, the one of the lowest element. -/
def lowestMiss (m : Miss) : List Miss → Miss
  | [] => m
  | k :: rest => lowestMiss (if k.store.element < m.store.element then k else m) rest

/-- The deadline record of an item takes misses, in the order of their reports. -/
def Core.missed (device : BitVec 19) (c : Core) : List Miss → Core
  | [] => c
  | m :: rest => Core.missed device { c with dead := c.dead.miss m device } rest

/-- R222: a DLMISS of the item is pending. -/
def Core.missPending (c : Core) : Bool := c.pending.any fun p => p.code = cDLMISS

/-- R199, R222: the misses `m` and `ms` of one instruction reach the issuing item. They join its deadline record; one
DLMISS of the lowest missed element is raised, unless one of the item is pending or this instruction has raised one. -/
def State.reportMisses (s : State) (m : Miss) (ms : List Miss) : State :=
  let o := m.store.origin
  let low := lowestMiss m ms
  let r := s.lateRecord cDLMISS o low.store.va (missDetail low)
  let s := { s with timed := s.timed.map fun (x : Timed) => if x.together m.store then { x with quiet := true } else x }
  match s.itemCore o with
  | some c =>
    let s := s.updateItem o fun c => c.missed s.device (m :: ms)
    if m.store.quiet || c.missPending then s else s.reportImprecise o r
  | none => if m.store.quiet then s else s.dropImprecise r

end Sys2Proof.Machine
end

