-- ==== Sys2Proof/Machine/Vector.lean ====
section
/-! DEFINITION. Elements of vector registers, and how a vector instruction writes its destination under its predicate
(R36, R170, R171). -/

namespace Sys2Proof.Machine

/-- The `n` lowest fields of `w` bits of a number. -/
def splitN (w : Nat) : Nat → Nat → List Nat
  | 0, _ => []
  | n + 1, v => v % 2 ^ w :: splitN w n (v >>> w)

/-- The number whose fields of `w` bits are given. -/
def joinN (w : Nat) : List Nat → Nat
  | [] => 0
  | e :: rest => e % 2 ^ w + joinN w rest <<< w

/-- The elements of a vector register. -/
def elems (w : Nat) (v : VReg) : List Nat := splitN w (2048 / w) v.toNat
def ofElems (w : Nat) (l : List Nat) : VReg := BitVec.ofNat 2048 (joinN w l)

def ETy.width : ETy → Nat
  | .fp t => (fmtOf t).width
  | .int t => ITy.width t

/-- Bits 0 to `n - 1` of a predicate register. -/
def lowBits (n : Nat) : PReg := BitVec.ofNat 256 (2 ^ n - 1)

/-- R36: the elements that the predicate selects. -/
def State.activeBits (s : State) (x : Pfx) : PReg := if x.neg then ~~~(s.p x.pred) else s.p x.pred
def State.active (s : State) (x : Pfx) (i : Nat) : Bool := (s.activeBits x).getLsbD i

/-- R171: a merge-mode write that keeps inactive elements. -/
def Pfx.keeps (x : Pfx) : Bool := !x.zero && (x.pred ≠ 0 || x.neg)

/-- R171: the vector sources and the predicate are read, and the destination when some of its bits are kept. -/
def State.useVec (s : State) (x : Pfx) (srcs : List RegNum) (a : RegNum) (keep : Bool) : R State := do
  let s ← s.useV srcs
  let s ← s.useP [x.pred]
  if keep then s.useV [a] else .ok s

/-- The same where the destination is a predicate register. -/
def State.usePred (s : State) (x : Pfx) (srcs : List PredNum) (a : PredNum) : R State := do
  let s ← s.useP srcs
  let s ← s.useP [x.pred]
  if (Pfx.keeps x) then s.useP [a] else .ok s

/-- R170: the elements written, from element `i` on: a result where one is given and the element is active. -/
def mergeElems (act : Nat → Bool) (zero : Bool) : Nat → List (Option Nat) → List Nat → List Nat
  | _, _, [] => []
  | i, rs, old :: olds =>
    let r := match rs with
      | some v :: _ => if act i then v else if zero then 0 else old
      | _ => if zero then 0 else old
    r :: mergeElems act zero (i + 1) rs.tail olds

/-- R170: a destination of elements of `w` bits is written; elements with no result count as inactive. -/
def State.putElems (s : State) (x : Pfx) (w : Nat) (a : RegNum) (rs : List (Option Nat)) : State :=
  s.setV a (ofElems w (mergeElems (s.active x) x.zero 0 rs (elems w (s.v a))))

/-- The flags of the active elements, from element `i` on (R157). -/
def activeFlags (act : Nat → Bool) : Nat → List (Nat × Exc) → Exc
  | _, [] => 0
  | i, r :: rest => (if act i then r.2 else 0) ||| activeFlags act (i + 1) rest

/-- R170: flags first, then the destination. `fp` says that the instruction concerns FCSR at all. -/
def State.putFlagged (s : State) (x : Pfx) (w : Nat) (a : RegNum) (fp : Bool) (rs : List (Nat × Exc)) : R State := do
  let s ← if fp then s.raise (activeFlags (s.active x) 0 rs) else .ok s
  return s.putElems x w a (rs.map fun r => some r.1)

/-- A predicate built from one truth value per element. -/
def predOf : List Bool → Nat
  | [] => 0
  | b :: rest => b.toNat + 2 * predOf rest

/-- R179, R188, R189: the bits below `n` of a predicate destination are written; those from `n` on become zero. -/
def State.putPred (s : State) (x : Pfx) (n : Nat) (a : PredNum) (r : PReg) : State :=
  let act := s.activeBits x
  let old := if x.zero then 0 else s.p a
  s.setP a (((r &&& act) ||| (old &&& ~~~act)) &&& lowBits n)

/-- Element `i` where it is active. -/
def activeElems (act : Nat → Bool) : Nat → List Nat → List (Option Nat)
  | _, [] => []
  | i, v :: rest => (if act i then some v else none) :: activeElems act (i + 1) rest

end Sys2Proof.Machine
end

