-- ==== Sys2Proof/Machine/Barriers.lean ====
section
/-! DEFINITION. Page 5 and the flumes of page 4: weirs (R272 to R281), flumes (R284 to R288), time (R215, R221,
R223). -/

namespace Sys2Proof.Machine

/-! ## Which channel (R272, R279) -/

/-- R279: BAR with its reason and the channel number. -/
def bar {α : Type} (reason w : Nat) : R α := trap cBAR (BitVec.ofNat 64 (reason + w % 256 * 256))

/-- R279: CheckChannel: range, grant, residency, membership; it answers the channel and the issuing core. -/
def State.checkWeir (s : State) (w : Nat) : R (Nat × CoreId) :=
  if 80 ≤ w then bar 2 w
  else match s.ownTask, s.core.agent with
    | some t, .core id =>
      let key := weirKey id.die w
      if !t.weirKeys.contains key then bar 1 w
      else if t.revival.isSome then bar (if t.level = 0 || t.resident then 3 else 4) w
      else if !(s.weir key).resident then bar 4 w
      else if !(s.weir key).members.contains id || s.core.isChild then bar 3 w
      else .ok (key, id)
    | _, _ => bar 1 w

/-- R279: CheckFlume: range, grant, configuration, residency, membership. -/
def State.checkFlume (s : State) (w : Nat) : R (Nat × CoreId × FlumeCfg × Bool) :=
  if 16 ≤ w then bar 2 w
  else match s.ownTask, s.core.agent with
    | some t, .core id =>
      let key := flumeKey id.die w
      if !t.flumeKeys.contains key then bar 1 w
      else if t.revival.isSome then
        let ok := match flumeCfgFind w t.flcfg with | some c => c.ok | none => false
        bar (if !ok then 5 else if t.level = 0 || t.resident then 3 else 4) w
      else match (s.flume key).config with
        | none => bar 5 w
        | some cfg =>
          match t.flumeRoot cfg id.die with
          | none => bar 5 w
          | some root =>
            if !cfg.ok || !t.flumeNames cfg root || !t.slots.contains root then bar 5 w
            else if !(s.flume key).resident then bar 4 w
            else if !(s.flume key).members.contains id || s.core.isChild then bar 3 w
            else .ok (key, id, cfg, cfg.all || root = id)
    | _, _ => bar 1 w

/-- R276: the scope of a channel: package or die. -/
def weirScope (key : Nat) : BitVec 3 := if 256 ≤ key then 3 else 2

def Weir.hasArrived (w : Weir) (id : CoreId) : Bool := w.arrived.any fun a => a.core = id

/-! ## Weirs (R276, R278, R281) -/

def execArrive (x : Pfx) (a b : RegNum) (s : State) : Out := itemOp x s fun s => do
  let (r, s) ← s.readG b
  let n := r.bits.toNat % 2 ^ 64
  let (key, id) ← s.checkWeir n
  if (s.weir key).hasArrived id then bar 6 n
  else
    let s := s.release (weirScope key)
    let w := s.weir key
    let s := s.setWeir key { w with arrived := w.arrived ++ [⟨id, s.now⟩] }
    let s := { s with core := { s.core with lastArr := assocPut s.core.lastArr key w.gen } }
    return (s.setInt a (BitVec.ofNat 64 w.gen)).settleWeir key

/-- R282: the superstep count that the broadcast of a channel has brought to the core. -/
def State.seeStep (s : State) (key : Nat) : State :=
  match s.ownTask with
  | some t => if t.stepWeir = some key then { s with core := { s.core with ident := { s.core.ident with step := t.step } } } else s
  | none => s

/-- R277; a completion that has met an armed stop is not yet delivered (R414). -/
def execWaitb (x : Pfx) (b : RegNum) (s : State) : Out := itemOp x s fun s => do
  let (r, s) ← s.readG b
  let n := r.bits.toNat % 2 ^ 64
  let (key, _) ← s.checkWeir n
  match assocGet s.core.lastArr key with
  | none => bar 7 n
  | some g =>
    let stop := match s.ownTask with | some t => t.stopping | none => false
    if g < (s.weir key).gen && !stop then return s.seeStep key else .error (.wait (.weir key g))

/-- R278: the status word. -/
def barqWord (w : Weir) (arrived : Bool) (last : Option Nat) : Word :=
  let done := match last with | some g => decide (g < w.gen) | none => false
  BitVec.ofNat 64 (w.gen % 2 ^ 32 * 2 ^ 32 + w.arrived.length % 2 ^ 16 * 2 ^ 16 + arrived.toNat * 2 + done.toNat)
def execBarq (x : Pfx) (a b : RegNum) (s : State) : Out := itemOp x s fun s => do
  let (r, s) ← s.readG b
  let (key, id) ← s.checkWeir (r.bits.toNat % 2 ^ 64)
  let w := s.weir key
  return s.setInt a (barqWord w (w.hasArrived id) (assocGet s.core.lastArr key))

/-- `k` accesses of `n` bytes each that make up one extent, whose bounds are checked as a whole. -/
def extentAccesses (cap : GReg) (b : RegNum) (n k : Nat) (align : Nat) (mk : Access → Access) : List Access :=
  (upFrom 0 k).map fun i =>
    mk { memAccess cap b (cap.cursor + BitVec.ofNat 48 (n * i)) n with
         align := align, inB := cap.inBounds cap.cursor (n * k),
         covers := [(cap.cursor.toNat, n * k)] }

/-- A run of plain stores of `n` bytes each, of one instruction whose stores lie at `at_`. -/
def storeRun (n : Nat) (at_ : List Nat) (s : State) : List Place → List Byte → R State
  | [], _ => .ok s
  | p :: ps, bytes => do
    s.issueStore p
    storeRun n at_ (s.storeWhole p (bytes.take n) (s.wholeSectors n at_ p.loc)) ps (bytes.drop n)
def storePieces (n : Nat) (s : State) (ps : List Place) (bytes : List Byte) : R State :=
  (storeRun n (ps.map Place.loc) s ps bytes).map fun s => s.clearCovered (ps.map fun p => (p.va.toNat, n))

def execGauge (x : Pfx) (a b : RegNum) (s : State) : Out := itemOp x s fun s => do
  let s ← s.useG [b, a]
  let (key, _) ← s.checkWeir (s.gint b).toNat
  let (s, ps) ← s.checkAll (extentAccesses (s.g a) a 8 8 8 Access.store)
  storePieces 8 s ps (match (s.weir key).last with | some g => g.bytes | none => List.replicate 64 0)

/-! ## Flumes (R288) -/

def Flume.contributed (f : Flume) (id : CoreId) : Bool := f.round.any fun r => r.core = id

/-- The unread result of a core, and the other results. -/
def takeResult (id : CoreId) : List (CoreId × List (BitVec 32) × Nat) →
    Option ((List (BitVec 32) × Nat) × List (CoreId × List (BitVec 32) × Nat))
  | [] => none
  | r :: rest =>
    if r.1 = id then some (r.2, rest)
    else match takeResult id rest with
      | some (v, others) => some (v, r :: others)
      | none => none

/-- Elements of a contribution: 64, an identity where inactive. -/
def contribution (act : Nat → Bool) (v : VReg) : List (Option (BitVec 32)) :=
  (activeElems act 0 (elems 32 v)).map fun e => e.map (BitVec.ofNat 32)

def execFlume (x : Pfx) (a b : RegNum) (s : State) : Out := vectorOp x s fun s => do
  let s ← s.useG [b]
  let s ← s.useVec x [a] a false
  let n := (s.gint b).toNat
  let (key, id, _, receiver) ← s.checkFlume n
  let f := s.flume key
  if receiver && ((takeResult id f.results).isSome || f.contributed id) then bar 8 n
  else if f.contributed id then .error (.wait (.flume key))
  else
    let s := s.release 2
    let f := s.flume key
    return (s.setFlume key { f with round := f.round ++ [⟨id, contribution (s.active x) (s.v a)⟩] }).settleFlume key

def execFlumw (x : Pfx) (a b c : RegNum) (s : State) : Out := vectorOp x s fun s => do
  let s ← s.useG [b]
  let s ← s.useVec x [] a (Pfx.keeps x)
  let n := (s.gint b).toNat
  let (key, id, _, receiver) ← s.checkFlume n
  let f := s.flume key
  match takeResult id f.results with
  | some ((vals, count), rest) =>
    if !receiver then bar 7 n
    else
      let s := s.setFlume key { f with results := rest }
      return (s.putElems x 32 a (vals.map fun v => some v.toNat)).setInt c (BitVec.ofNat 64 count)
  | none => if receiver && f.contributed id then .error (.wait (.flume key)) else bar 7 n

/-! ## Time (R215, R221, R223) -/

def execTwait (x : Pfx) (a : RegNum) (s : State) : Out := scalarOp x s fun s => do
  let (r, s) ← s.readG a
  let t := r.bits.setWidth 64
  if t ≤ s.now then return s else .error (.wait (.time t))

/-- R223: a field of the deadline record; all are zero while COUNT is. -/
def Deadline.field (d : Deadline) (sel : Nat) : Word :=
  match sel with
  | 0 => d.count
  | 1 => d.time
  | 2 => d.arrive
  | 3 => d.addr
  | 4 => d.pc
  | _ => d.home
def execTdead (x : Pfx) (a : RegNum) (sel : BitVec 4) (s : State) : Out :=
  .next (s.scalarInstr (s.onCulvert || 6 ≤ sel.toNat % 8) false x fun s =>
    let v := s.core.dead.field (sel.toNat % 8)
    let s := if sel.getLsbD 3 then { s with core := { s.core with dead := .clear } } else s
    .ok (s.setInt a v))

/-- R215: the place of an address: regions of R62, then translation and owner. -/
def State.latencyPlace (s : State) (a : Addr) : R (Option Place) :=
  if inOverflow a.toNat then .ok none
  else match s.resolve false false a with
    | .error d => trap cTRANS d (a.setWidth 64)
    | .ok p =>
      match p.leaf with
      | some l => if l.owner = s.core.owner then .ok (some p) else trap cOWNER (l.owner.setWidth 64) (a.setWidth 64)
      | none => .ok (some p)
def execLatq (x : Pfx) (a b : RegNum) (s : State) : Out := itemOp x s fun s => do
  let (r, s) ← s.readG b
  let p ← s.latencyPlace (r.bits.setWidth 48)
  return s.setInt a (match p.bind s.latency with | some n => BitVec.ofNat 64 n | none => BitVec.allOnes 64)

end Sys2Proof.Machine
end

