-- ==== Sys2Proof/Machine/Matrix.lean ====
section
/-! DEFINITION. The matrix unit: the instructions of R315 to R333 at issue, and the execution of queued commands under
the arbitration of R327. -/

namespace Sys2Proof.Machine

/-! ## Faults (R338) -/

def mfmt {α : Type} (reason : Nat) (which : Nat := 0) : R α := trap cMFMT (BitVec.ofNat 64 (reason + 16 * which))
def rseq {α : Type} (q : BitVec 2) (reason : Nat) (tag : Nat := 0) : R α :=
  trap cRSEQ (BitVec.ofNat 64 (q.toNat + 4 * reason + 2 ^ 32 * tag))

def State.setMx (s : State) (m : MatCore) : State := { s with core := { s.core with mx := m } }

/-- R331, R333: the queue of the core is empty. -/
def State.emptyQueue (s : State) : R Unit := if s.core.mx.queue.isEmpty then .ok () else .error (.wait (.room none))
/-- R314: a full queue stalls issue. -/
def State.queueRoom (s : State) : R Unit := if s.core.mx.queue.length < 4 then .ok () else .error (.wait (.room none))

/-! ## MFMT, MRING, MPROD (R316, R321, R322) -/

def execMfmt (x : Pfx) (a : RegNum) (s : State) : Out := itemOp x s fun s => do
  let s ← s.useG [a]
  if fmtValid (s.gint a) then return s.setMx { s.core.mx with fmt := ⟨s.gint a, s.core.mx.fmt.gen + 1⟩ } else mfmt 1

/-- R321: an accepted CPY of this core with RING = 1 names the ring. -/
def State.ringCopied (s : State) (q : BitVec 2) : Bool :=
  match s.core.agent.cluster with
  | some k => (s.cluster k).culverts.toList.any fun e =>
      e.queue.any fun c => c.issuer = s.core.agent && c.flags.getLsbD flagRing && c.ring = q
  | none => false

/-- The geometry word of R321: slots and slot bytes. -/
def geometry (w : Word) : Option (Nat × Nat) :=
  let slots := (w.extractLsb' 0 5).toNat
  let units := (w.extractLsb' 8 9).toNat
  if w.extractLsb' 17 47 = 0 && w.extractLsb' 5 3 = 0 && 2 ≤ slots && slots ≤ 16 && 1 ≤ units && units ≤ 256
  then some (slots, units * 256) else none

def execMring (x : Pfx) (q : BitVec 2) (a c : RegNum) (s : State) : Out := itemOp x s fun s => do
  let s ← s.useG [a, c]
  s.emptyQueue
  if s.ringCopied q then .error (.wait (.room none))
  else if s.core.mx.restart.isSome then mfmt 8 q.toNat
  else if s.gint c = 0 then return s.setMx (s.core.mx.setRing q none)
  else
    match geometry (s.gint c) with
    | none => mfmt 7 q.toNat
    | some (slots, slotB) =>
      let cap := s.g a
      let ea := cap.cursor
      let span := slots * slotB
      match s.checkCap { memAccess cap a ea span with align := 1, r := true } with
      | .error (_, t) => .error (.trap t)
      | .ok _ =>
        if !(0x100000 ≤ ea.toNat && ea.toNat + span ≤ 0x200000) then mfmt 7 q.toNat
        else if ea.toNat % 256 ≠ 0 then trap cALIGN 0 (ea.setWidth 64)
        else
          let r : Ring := { cap := cap, base := ea, slots := slots, slotB := slotB, prod := 0, res := 0, cons := 0,
                            rel := 0, tags := List.replicate slots none }
          return s.setMx (s.core.mx.setRing q (some r))

/-- R322: slot PROD of a ring is produced. -/
def Ring.produce (r : Ring) : Ring :=
  { r with tags := r.tags.set (r.prod.toNat % r.slots) (some r.prod), prod := r.prod + 1 }
def Ring.full (r : Ring) : Bool := (r.prod - r.rel).toNat = r.slots
/-- A ring of a core gains a slot. -/
def State.produceRing (s : State) (target : AgentId) (q : BitVec 2) : State :=
  let c := s.agent target
  s.setAgent { c with mx := c.mx.setRing q ((c.mx.ring q).map Ring.produce) }

/-- The core that MPROD produces for (R322). -/
def State.prodTarget (s : State) (q : BitVec 2) (a : RegNum) : R AgentId :=
  let target : Option AgentId :=
    if a = 0 then some s.core.agent
    else if (s.gint a).extractLsb' 3 61 ≠ 0 then none
    else s.core.agent.cluster.map fun k =>
      .core (coreOf s.core.agent.die (k % 128) ((s.gint a).extractLsb' 0 3).toNat)
  match target with
  | some t => if (s.agent t).run ≠ .item then mfmt 9 q.toNat else .ok t
  | none => mfmt 9 q.toNat

def execMprod (x : Pfx) (q : BitVec 2) (a : RegNum) (s : State) : Out :=
  .next (s.scalarInstr (s.onCulvert && a = 0) false x fun s => do
    let s ← s.useG [a]
    let target ← s.prodTarget q a
    let c := s.agent target
    if c.owner ≠ s.core.owner then trap cOWNER (c.owner.setWidth 64)
    else
      match c.mx.ring q with
      | none => mfmt 5 q.toNat
      | some r =>
        if r.full then (if s.onCulvert then .error (.wait (.room none)) else rseq q 3)
        else return (s.release 1).produceRing target q)

/-! ## Operand slots (R323) -/

/-- Address of the slot of a count. -/
def Ring.slotVa (r : Ring) (k : BitVec 32) : Addr := r.base + BitVec.ofNat 48 (k.toNat % r.slots * r.slotB)

/-- The scratchpad bytes at an address, for the colour check of a slot. -/
def spadPlace (cluster : Nat) (va : Addr) : Place :=
  { va := va, region := .spad, loc := spadLoc cluster (va.toNat - 0x100000), leaf := none, store := .live, fill := none, copy := false }

/-- An operand of a command: its ring, keep bit, tile size, its number in a TIMING record (R326), and how many slots
it lies beyond the count of R323. -/
structure Want where
  ring  : BitVec 2
  keep  : Bool
  size  : Nat
  num   : Nat
  ahead : Nat := 0
  deriving DecidableEq, Repr

/-- R323: the operands are taken in order; `taken` lists the rings of the slots taken so far. -/
def State.takeSlots (s : State) (timed : Bool) : List (BitVec 2) → List Want → R (List Slot)
  | _, [] => .ok []
  | taken, w :: rest =>
    match s.core.mx.ring w.ring with
    | none => mfmt 5 w.ring.toNat
    | some r => do
      let c := r.res + BitVec.ofNat 32 (taken.count w.ring + w.ahead)
      if r.slotB < w.size then mfmt 5 w.ring.toNat
      if r.prod = c then
        if timed then trap cTIMING (BitVec.ofNat 64 (16 * w.num))
        else if r.full then rseq w.ring 2
        else .error (.wait (.room none))
      match r.tags.getD (c.toNat % r.slots) none with
      | some t => if t = c then .ok () else rseq w.ring 1 t.toNat
      | none => rseq w.ring 1 (2 ^ 32 - 1)
      let va := r.slotVa c
      match s.colourFail (spadPlace (s.core.agent.cluster.getD 0) va) r.cap.colour 0 (r.slotB / 32) with
      | some g => trap cMTAG (BitVec.ofNat 64 (r.cap.colour.toNat * 256 + g.toNat * 4096)) (va.setWidth 64)
      | none => .ok ()
      let slots ← State.takeSlots s timed (if w.keep then taken else w.ring :: taken) rest
      return ⟨w.ring, c, !w.keep⟩ :: slots

/-- RES, or CONS, advances past the slots that a command takes. -/
def MatCore.reserve (m : MatCore) : List Slot → MatCore
  | [] => m
  | w :: rest =>
    MatCore.reserve (if w.take then m.setRing w.ring ((m.ring w.ring).map fun r => { r with res := r.res + 1 }) else m) rest
def MatCore.consume (m : MatCore) : List Slot → MatCore
  | [] => m
  | w :: rest =>
    MatCore.consume (if w.take then m.setRing w.ring ((m.ring w.ring).map fun r => { r with cons := r.cons + 1 }) else m) rest

/-! ## Execution of a queued command (R324, R328, R329, R334) -/

/-- The accumulator that a command names. -/
def MatCmd.acc : MatCmd → BitVec 2
  | .mma acc _ _ _ _ _ => acc
  | .mmas acc _ _ _ _ _ => acc
  | .mzero acc _ => acc
  | .mdrain acc _ _ _ => acc

/-- Where the tile of a slot stands. -/
def Core.slotLoc (c : Core) (w : Slot) : Nat :=
  match c.mx.ring w.ring with
  | some r => (spadPlace (c.agent.cluster.getD 0) (r.slotVa w.k)).loc
  | none => 0
def Core.slotAddr (c : Core) (w : Slot) : Addr :=
  match c.mx.ring w.ring with
  | some r => r.slotVa w.k
  | none => 0

/-- The tiles that a command reads: slot and size. -/
def MatCmd.tiles : MatCmd → List (Slot × Nat)
  | .mma _ a b _ _ f => [(a, ((fmtA f.word).getD (.fp .bf16)).tile), (b, ((fmtB f.word).getD (.fp .bf16)).tile)]
  | .mmas _ a m b b2 f =>
    let tb := ((fmtB f.word).getD (.fp .bf16)).tile
    [(a, ((fmtA f.word).getD (.fp .bf16)).tile), (m, 1024), (b, tb), (b2, tb)]
  | .mzero _ _ => []
  | .mdrain _ _ _ _ => []

/-- The first slot with an uncorrectable check word. -/
def State.badTile (s : State) (c : Core) : List (Slot × Nat) → Option Slot
  | [] => none
  | (w, n) :: rest => if (unitsOf 32 (c.slotLoc w) n).any fun k => setHas s.bad k then some w else State.badTile s c rest

/-- R337: the head command of a core's queue meets an uncorrectable error in a tile. -/
def State.tileError (s : State) (a : AgentId) (w : Slot) : State :=
  let c := s.agent a
  let va := c.slotAddr w
  let s := s.setAgent c.loseMatrix
  s.reportImprecise c.origin (s.lateRecord cINTEG c.origin va 0)

/-- Where MDRAIN's destination stands: TCM of the issuing core, or its cluster's scratchpad (R329, R63). -/
def Core.drainLoc (c : Core) (va : Addr) : Nat :=
  if va.toNat < 0x80000 then tcmLoc c.agent.memIndex va.toNat else spadLoc (c.agent.cluster.getD 0) (va.toNat - 0x100000)

/-- R334: an MDRAIN that leaves no accumulator live closes the restart window. -/
def MatCore.closeWindow (m : MatCore) : MatCore :=
  if m.restart.isSome && !m.anyLive then { m with restart := none }.releaseAll else m

/-- MSTAT after a drain: LOST kept (R329). -/
def mstatDrain (old : Word) (acc : BitVec 2) (c : Acc) : Word :=
  (old &&& mstatLost) ||| BitVec.ofNat 64 (acc.toNat * 32 + c.nv.toNat * 4 + c.sat.toNat * 2 + c.ov.toNat)

/-- The head command of a core's queue is executed whole. -/
def State.execHead (s : State) (id : AgentId) : State :=
  let c := s.agent id
  match c.mx.queue with
  | [] => s
  | cmd :: rest =>
    match s.badTile c cmd.tiles with
    | some w => s.tileError id w
    | none =>
      let m := { c.mx with queue := rest }
      match cmd with
      | .mma acc a b ta tb f =>
        let tile := fun (w : Slot) (n : Nat) => s.readNat (c.slotLoc w) n
        let r := (m.acc acc).mma f.word ta tb (tile a ((fmtA f.word).getD (.fp .bf16)).tile)
          [tile b ((fmtB f.word).getD (.fp .bf16)).tile] none
        s.setAgent { c with mx := ((m.setAcc acc r).consume [a, b]).followRel }
      | .mmas acc a md b b2 f =>
        let tile := fun (w : Slot) (n : Nat) => s.readNat (c.slotLoc w) n
        let nb := ((fmtB f.word).getD (.fp .bf16)).tile
        let r := (m.acc acc).mma f.word false false (tile a ((fmtA f.word).getD (.fp .bf16)).tile) [tile b nb, tile b2 nb]
          (some (tile md 1024))
        s.setAgent { c with mx := ((m.setAcc acc r).consume [a, md, b, b2]).followRel }
      | .mzero acc f => s.setAgent { c with mx := m.setAcc acc (.cleared (fmtAcc f.word) true) }
      | .mdrain acc dest fmt f =>
        let old := m.acc acc
        let (bytes, fl) := drainElems fmt f.word old.elems 0 4096
        let l := c.drainLoc dest.cursor
        let s := (s.writeBytes l bytes).markOwn l bytes.length
        let new := { old with ov := old.ov || fl.ov, sat := old.sat || fl.sat, nv := old.nv || fl.nv,
                              live := old.live && rest.any fun k => k.acc = acc }
        let d := s.agent id
        s.setAgent { d with mx := (m.setAcc acc new).closeWindow, csr := { d.csr with mstat := mstatDrain d.csr.mstat acc new } }

/-! ## Arbitration (R327) -/

def classWeight (cls : BitVec 2) : Nat := if cls = 0 then 8 else if cls = 1 then 4 else if cls = 2 then 2 else 1

/-- Core-in-cluster `j` of a cluster. -/
def clusterCore (k j : Nat) : AgentId := .core (coreOf (BitVec.ofNat 2 (k / 128)) (k % 128) j)

/-- Whether the queue of a core of a cluster holds a command of an item that the core runs, or of one that its task's
policy kills: its queue stops at the freeze instant, in the zone of its die (R144, R336, R360). -/
def State.queueBusy (s : State) (k j : Nat) : Bool :=
  let c := s.agent (clusterCore k (j % 8))
  (c.run = .item || c.run = .halted) && !c.mx.queue.isEmpty && !s.pastFreeze c.owner c.ident.task c.agent.die
/-- The first core from `j` on, of `n`, whose queue holds a command. -/
def State.queueFrom (s : State) (k j : Nat) : Nat → Option Nat
  | 0 => none
  | n + 1 => if s.queueBusy k j then some (j % 8) else State.queueFrom s k (j + 1) n
/-- R326: whether a cluster's unit executes a command now. It can only where a queue holds one, which stays in its queue until
it has been executed; a timed command bypasses those that merely wait. Whether one has started is a free value (DESIGN
CHOICE, assumption 100). -/
def State.unitBusy (s : State) (k : Nat) : Bool :=
  (s.queueFrom k 0 8).isSome && Config.unitExecutes k (s.dieAt (BitVec.ofNat 2 (k / 128))).atime

/-- The core whose command starts next, and the turn with it. -/
def State.matNext (s : State) (k : Nat) : Option (Nat × Nat) :=
  let cl := s.cluster k
  let c := s.agent (clusterCore k cl.pointer)
  if s.queueBusy k cl.pointer && cl.turn < classWeight c.ident.cls then some (cl.pointer, cl.turn + 1)
  else (s.queueFrom k (cl.pointer + 1) 8).map fun j => (j, 1)

/-- The next command of a cluster's unit is executed if it is of the kind asked for. -/
def State.matExecute (s : State) (k : Nat) (kind : MatCmd → Bool) : State :=
  match s.matNext k with
  | none => s
  | some (j, turn) =>
    match (s.agent (clusterCore k j)).mx.queue with
    | cmd :: rest =>
      if kind cmd then
        -- a turn ends early when the queue is empty at a command boundary
        let s := s.setCluster k { s.cluster k with pointer := j, turn := if rest.isEmpty then 8 else turn }
        s.execHead (clusterCore k j)
      else s
    | [] => s

def MatCmd.isMma : MatCmd → Bool
  | .mma _ _ _ _ _ _ => true
  | .mmas _ _ _ _ _ _ => true
  | _ => false
def MatCmd.isZero : MatCmd → Bool
  | .mzero _ _ => true
  | _ => false
def MatCmd.isDrain : MatCmd → Bool
  | .mdrain _ _ _ _ => true
  | _ => false

def execMmaExecute (die : BitVec 2) (cluster : BitVec 7) (s : State) : Out :=
  .next (s.matExecute (die.toNat * 128 + cluster.toNat) MatCmd.isMma)
def execMzeroExecute (die : BitVec 2) (cluster : BitVec 7) (s : State) : Out :=
  .next (s.matExecute (die.toNat * 128 + cluster.toNat) MatCmd.isZero)
def execMdrainExecute (die : BitVec 2) (cluster : BitVec 7) (s : State) : Out :=
  .next (s.matExecute (die.toNat * 128 + cluster.toNat) MatCmd.isDrain)

/-- R337: an uncorrectable error in the first tile that the head command of a core reads. -/
def execMatrixTileError (c : CoreId) (s : State) : Out :=
  match (s.agent (.core c)).mx.queue with
  | cmd :: _ => match cmd.tiles with
    | (w, _) :: _ => .next (s.tileError (.core c) w)
    | [] => .next s
  | [] => .next s

/-! ## MMA, MMAS, MZERO, MDRAIN at issue (R324, R326, R328, R329) -/

/-- R324: a live accumulator of another type. -/
def State.accFits (s : State) (acc : BitVec 2) : R Unit :=
  let c := s.core.mx.acc acc
  if c.live && c.type ≠ fmtAcc s.core.mx.fmt.word then mfmt 3 acc.toNat else .ok ()

/-- A command joins the queue: its slots are reserved, its accumulator becomes live. -/
def State.enqueue (s : State) (cmd : MatCmd) (slots : List Slot) (named : Bool) : State :=
  let m := s.core.mx
  let m := { m with queue := m.queue ++ [cmd] }.reserve slots
  s.setMx (if named then m.setAcc cmd.acc ((m.acc cmd.acc).named (fmtAcc m.fmt.word)) else m)

/-- R324, R326: an MMA or MMAS at issue. A timed one that starts executes at once, ahead of the other queues. -/
def State.issueMma (s : State) (o : Ordering) (c : RegNum) (wants : List Want) (mk : List Slot → MatCmd) : R State := do
  if o.timed then
    s.timedStart s.now (s.gint c)
    if !s.core.mx.queue.isEmpty || (match s.core.agent.cluster with | some k => s.unitBusy k | none => false)
    then trap cTIMING 0x40
    let slots ← s.takeSlots true [] wants
    return (s.enqueue (mk slots) slots true).execHead s.core.agent
  else
    s.queueRoom
    let slots ← s.takeSlots false [] wants
    return s.enqueue (mk slots) slots true

def noSlot : Slot := ⟨0, 0, false⟩

def execMma (x : Pfx) (o : Ordering) (acc ringA ringB : BitVec 2) (keepA keepB transA transB : Bool) (c : RegNum)
    (s : State) : Out := itemOp x s fun s => do
  let s ← if o.timed then s.useG [c] else .ok s
  let f := s.core.mx.fmt
  let a := (fmtA f.word).getD (.fp .bf16)
  let b := (fmtB f.word).getD (.fp .bf16)
  if transA && a.isSeb then mfmt 2 ringA.toNat
  if transB && b.isSeb then mfmt 2 ringB.toNat
  s.accFits acc
  s.issueMma o c [⟨ringA, keepA, a.tile, 0, 0⟩, ⟨ringB, keepB, b.tile, 1, 0⟩]
    fun l => .mma acc (l.getD 0 noSlot) (l.getD 1 noSlot) transA transB f
/-- R324: B is two consecutive slots, also when both are kept (DEDUCED, assumption 99). -/
def execMmas (x : Pfx) (o : Ordering) (acc ringA ringB ringM : BitVec 2) (keepA keepB : Bool) (c : RegNum) (s : State) : Out :=
  itemOp x s fun s => do
    let s ← if o.timed then s.useG [c] else .ok s
    let f := s.core.mx.fmt
    let a := (fmtA f.word).getD (.fp .bf16)
    let b := (fmtB f.word).getD (.fp .bf16)
    if a.isSeb then mfmt 4 ringA.toNat
    s.accFits acc
    s.issueMma o c
      [⟨ringA, keepA, a.tile, 0, 0⟩, ⟨ringM, keepA, 1024, 2, 0⟩, ⟨ringB, keepB, b.tile, 1, 0⟩,
       ⟨ringB, keepB, b.tile, 3, keepB.toNat⟩]
      fun l => .mmas acc (l.getD 0 noSlot) (l.getD 1 noSlot) (l.getD 2 noSlot) (l.getD 3 noSlot) f

def execMzero (x : Pfx) (acc : BitVec 2) (s : State) : Out := itemOp x s fun s => do
  s.accFits acc
  s.queueRoom
  return s.enqueue (.mzero acc s.core.mx.fmt) [] true

/-- R329: whether an extent lies wholly in TCM or in scratchpad. -/
def inLocal (va n : Nat) : Bool := va + n ≤ 0x80000 || 0x100000 ≤ va && va + n ≤ 0x200000

def execMdrain (x : Pfx) (fmt : BitVec 3) (a : RegNum) (acc : BitVec 2) (s : State) : Out := itemOp x s fun s => do
  let s ← s.useG [a]
  let cap := s.g a
  let ea := cap.cursor
  let n := 4096 * drainBytes fmt
  let (s, _) ← s.checkAll (Access.pieces { memAccess cap a ea n with align := 1, w := true, data := false })
  if ea.toNat % 256 ≠ 0 then trap cALIGN 0 (ea.setWidth 64)
  if !inLocal ea.toNat n then mfmt 7 acc.toNat
  if ((drainFmt fmt).isNone) ≠ ((s.core.mx.acc acc).type = .s32) then mfmt 6 acc.toNat
  s.queueRoom
  return s.enqueue (.mdrain acc cap fmt s.core.mx.fmt) [] false

/-! ## Reading the unit (R330 to R333) -/

/-- R330: the flag word. -/
def Acc.word (c : Acc) : Word :=
  BitVec.ofNat 64 (c.ov.toNat + 2 * c.sat.toNat + 4 * c.nv.toNat + 8 * c.live.toNat + (if c.type = .s32 then 16 else 0))
def execMflag (x : Pfx) (a : RegNum) (acc : BitVec 2) (clr : Bool) (s : State) : Out := itemOp x s fun s => do
  let m := s.core.mx
  if m.queue.any fun k => k.acc = acc then .error (.wait (.room none))
  else
    let c := m.acc acc
    let s := if clr then s.setMx (m.setAcc acc { c with ov := false, sat := false, nv := false }) else s
    return s.setInt a c.word

def execMwait (x : Pfx) (s : State) : Out := itemOp x s fun s => do
  s.emptyQueue
  return s

/-- The lowest live accumulator. -/
def MatCore.firstLive (m : MatCore) : Option Nat := m.accs.toList.findIdx? (·.live)

def execMrst (x : Pfx) (a : RegNum) (s : State) : Out := itemOp x s fun s => do
  let s ← s.useG [a]
  s.emptyQueue
  match s.core.mx.firstLive with
  | some n => mfmt 8 n
  | none =>
    if (s.gint a).getLsbD 0 then trap cALIGN 0 (s.gint a)
    else
      let m := if s.core.mx.restart.isSome then s.core.mx.releaseAll else s.core.mx
      return s.setMx { m with restart := some ⟨(s.gint a).setWidth 48, m.rings.map (Option.map Ring.cons)⟩ }

/-- R332: what MRQ reads. -/
def MatCore.query (m : MatCore) (q : BitVec 2) (sel : BitVec 3) : Word :=
  let count := fun (f : Ring → BitVec 32) => match m.ring q with | some r => (f r).setWidth 64 | none => 0
  if sel = 0 then count Ring.prod else if sel = 1 then count Ring.cons else if sel = 2 then count Ring.rel
  else if sel = 3 then count Ring.res
  else if sel = 4 then (match m.ring q with | some r => BitVec.ofNat 64 (r.slots + r.slotB / 256 * 256) | none => 0)
  else if sel = 5 then (match m.ring q with | some r => r.base.setWidth 64 | none => 0)
  else if sel = 6 then
    (match m.restart with
     | some r => BitVec.ofNat 64 ((match r.heads[q.toNat] with | some h => h.toNat | none => 0) + 2 ^ 63)
     | none => 0)
  else if q = 0 then BitVec.ofNat 64 (m.fmt.word.toNat % 2 ^ 16 + m.fmt.gen.toNat * 2 ^ 16)
  else if q = 1 then (match m.restart with | some r => BitVec.ofNat 64 (r.label.toNat + 2 ^ 63) | none => 0)
  else if q = 2 then BitVec.ofNat 64 m.queue.length
  else
    let bits := fun (f : Acc → Bool) => m.accs.toList.foldr (fun c n => (f c).toNat + 2 * n) 0
    BitVec.ofNat 64 (bits (·.live) + 16 * bits (fun c => c.type = .s32))
def execMrq (x : Pfx) (a : RegNum) (q : BitVec 2) (sel : BitVec 3) (s : State) : Out := itemOp x s fun s => do
  return s.setInt a (s.core.mx.query q sel)

end Sys2Proof.Machine
end

