-- ==== Sys2Proof/Machine/Engines.lean ====
section
/-! DEFINITION. Engine commands: the block that a core delivers, acceptance and its checks, tickets, and what the beats
of every engine share (R131, R294 to R309). -/

namespace Sys2Proof.Machine

/-! ## The command block (R294, R295, R309) -/

/-- A place `d` bytes further on. -/
def Place.shift (p : Place) (d : Nat) : Place :=
  { p with va := p.va + BitVec.ofNat 48 d, loc := p.loc + d,
           store := match p.store with
             | .live => .live
             | .shot x l => .shot x (l + d)
             | .records c v o => .records c v (o + d) }

/-- Field of `n` bytes at an offset. -/
def Block.field (b : Block) (off n : Nat) : Nat := bitsAt b.bits (8 * off) (8 * n)
def Block.cap (b : Block) (off : Nat) : GReg := ⟨BitVec.ofNat 128 (b.field off 16), b.tags.getD (off / 16) false⟩
/-- R295: a capability field that is all zero with its tag clear. -/
def GReg.isNone (c : GReg) : Bool := c = .null

/-- The eight granules of a block. -/
def blockPlaces (p : Place) : List (Place × Nat) := (upFrom 0 8).map fun i => (p.shift (16 * i), 16)
/-- A block from what its granules hold; capabilities keep their tags under K alone. -/
def blockOf (k : Bool) (xs : List (List Byte × Bool)) : Block :=
  ⟨natOf (xs.map (·.1)).flatten, xs.map fun x => k && x.2⟩

/-- R131, R294, R296 step 1: the block is read once, by the issuing core; while the instruction waits it is kept. -/
def State.readBlock (s : State) (b : RegNum) : R (State × Block) :=
  match s.core.wait with
  | some (.room (some blk)) => .ok (s, blk)
  | some (.aad blk _) => .ok (s, blk)
  | _ => do
    let s ← s.useG [b]
    let cap := s.g b
    let (s, xs) ← s.loads Ordering.plain fun s =>
      (s.check { memAccess cap b cap.cursor 128 with r := true, role := 4 }).map fun (s, p) => (s, blockPlaces p)
    return (s, blockOf cap.permK xs)

/-! ## Operand checks (R296 step 3) -/

/-- R296 step 3 makes steps 1 to 11 of R59; step 12 is made at each beat (R300). One operand row at offset `d` of its capability's base, in pieces of one page each. -/
def operand (cap : GReg) (role : Nat) (d : Int) (n align : Nat) (r w : Bool) : List Access :=
  Access.pieces
    { offsetAccess cap 0 d n with role := role, align := align, r := r, w := w, data := false }

/-- R309: an operand of a cistern must lie in device memory. -/
def State.accessDev (s : State) (a : Access) : Checked Place := do
  let (va, _) ← s.checkCap a
  if inDev va.toNat then s.access a else fail 7 cTRANS va (transDetail 0 3)

/-- The checks of `checkAll` for operands of a cistern. -/
def State.accessAllDev (s : State) : List Access → State × List Place × Option (Nat × Trap)
  | [] => (s, [], none)
  | a :: rest =>
    match s.accessDev a with
    | .ok p =>
      let (s', ps, e) := State.accessAllDev (s.fillTlb p) rest
      (s', p :: ps, e)
    | .error (k, t) =>
      let (s', ps, e) := State.accessAllDev s rest
      (s', ps, match e with | some (j, u) => if j < k then some (j, u) else some (k, t) | none => some (k, t))

/-- An operand checked whole, for a culvert or for a cistern. -/
def State.checkOperand (s : State) (dev : Bool) (as : List Access) : R (State × List Place) :=
  if dev then
    match s.accessAllDev as with
    | (s', ps, none) => .ok (s', ps)
    | (_, _, some (_, t)) => .error (.trap t)
  else s.checkAll as

/-- The mailbox: none when the field is null (R295). -/
def State.checkMailbox (s : State) (mbx : GReg) : R (State × List Place) :=
  if mbx.isNone then .ok (s, [])
  else s.checkOperand false [{ memAccess mbx 0 mbx.cursor 8 with role := 3, w := true }]

/-- R296: the translations that a command holds, by 64 KiB page. -/
def holdPages (m : Assoc Leaf) : List Place → Assoc Leaf
  | [] => m
  | p :: rest =>
    match p.leaf, p.store, p.copy with
    | some l, .live, false => holdPages (assocPut m (p.va.toNat / 65536) l) rest
    | _, _, _ => holdPages m rest

/-- R296, R380: the mount windows that a command reads. -/
def holdSlots (m : List Nat) : List Place → List Nat
  | [] => m
  | p :: rest => holdSlots (if p.region = .mount then setAdd m ((p.va.toNat - 0x20000000000) / 2 ^ 32) else m) rest

/-! ## Beats and where they go -/

/-- The place of an address through a translation that is held. -/
def leafPlace (va : Addr) (l : Leaf) : Place :=
  let v := va.toNat
  let pa := l.pa + v % l.size
  { va := va,
    region := if inSram v then .sram else if inDev v then .dev else if l.host then .host else .peer l.peer,
    loc := if inWindow v then (if l.host then hostLoc pa else peerLoc l.peer pa) else physLoc v pa,
    leaf := some l, store := .live, fill := none, copy := false }

/-- An engine as it makes the accesses of a command: under its owner, for its issuer, task and item, with the issuer's
sump registers. -/
def Cmd.view (c : Cmd) (b : Core) : Core :=
  { b with owner := c.context, run := .item, acts := some c.issuer, wait := none,
           ident := { b.ident with item := c.item, task := c.task, level := c.origin.level, parent := c.origin.parent,
                                   step := c.origin.step, sump := c.sump },
           csr := { b.csr with sovp := c.sovp, sovl := c.sovl }, pcc := b.pcc.setCursor 0 }

/-- The command acts: its accesses are the engine's as an agent (R120, R131); the engine's own registers stay. -/
def State.asCmd {α : Type} (s : State) (i : EngineId) (c : Cmd) (f : State → State × α) : State × α :=
  let t := s.focus (EngineId.agent i)
  let (u, a) := f { t with core := c.view t.core }
  ({ { u with core := t.core }.focus s.core.agent with stalled := s.stalled }, a)

/-- An address of the command, resolved: a held translation, or the region of the issuing core (R63, R301). -/
def State.cmdPlace (s : State) (c : Cmd) (ea : Addr) : Option Place :=
  let go := fun (va : Addr) (redirected : Bool) =>
    match assocGet c.pages (va.toNat / 65536) with
    | some l => some (leafPlace va l)
    | none => match s.resolve false redirected va with | .ok p => some p | .error _ => none
  if inOverflow ea.toNat then (s.redirect ea).bind fun va => go va true else go ea false

/-- A read of the command: none for an address that no longer resolves or data with an uncorrectable check. -/
def State.cmdRead (s : State) (c : Cmd) (ea : Addr) (n : Nat) : State × Option (List Byte) :=
  match s.cmdPlace c ea with
  | some p => if s.dataBad p n then (s, none) else let s := s.beforeAccess p n; (s, some (s.placeBytes p n))
  | none => (s, none)

/-- A source beat of 32 bytes lies at a multiple of 16: it is read in two halves. -/
def State.cmdRead32 (s : State) (c : Cmd) (ea : Addr) : State × Option (List Byte) :=
  match s.cmdRead c ea 16 with
  | (s, some x) => match s.cmdRead c (ea + 16) 16 with
    | (s, some y) => (s, some (x ++ y))
    | (s, none) => (s, none)
  | (s, none) => (s, none)

/-- The location that a command's address lies at. -/
def State.cmdLoc (s : State) (c : Cmd) (ea : Addr) : Option Nat := (s.cmdPlace c ea).map Place.loc

/-! ### Reads that wait for completions (R346, R347, R351, R352) -/

/-- What the bytes at an address of the command need before they are read: nothing within the module, the completion of
the host or the peer elsewhere. -/
inductive CmdData where
  | here
  | request (r : Request)
  | refused
  deriving DecidableEq, Repr

def State.cmdNeeds (s : State) (c : Cmd) (part : Addr × Nat) : CmdData :=
  match s.cmdPlace c part.1 with
  | none => .here
  | some p =>
    if !isAway p.loc then .here
    else if (s.awayRefused c.context p.loc).isSome then .refused
    else .request (s.request p part.2 none)

/-- How reads of a command end: the bytes of each part, none where their check fails; requests that wait; or a request
that has failed. -/
inductive Fetched where
  | got (parts : List (Option (List Byte)))
  | waits (requests : List Request)
  | refused
  deriving DecidableEq, Repr

/-- What a completion leaves of a read: DEDUCED (assumption 101): poisoned data fails its check (R300); any other failure
refuses the access. -/
def Outcome.fetched : Outcome → Option (Option (List Byte))
  | .local bytes _ => some (some bytes)
  | .returned bytes => some (some bytes)
  | .failed .poisoned => some none
  | .failed _ => none
  | .timeout => none

/-- The parts in order; `rs` are the ended requests of those that lie elsewhere. -/
def State.fetchParts (s : State) (c : Cmd) : List (Addr × Nat) → List Request → State × Fetched
  | [], _ => (s, .got [])
  | part :: rest, rs =>
    let add := fun (x : Option (List Byte)) (r : State × Fetched) =>
      match r with
      | (s, .got xs) => (s, .got (x :: xs))
      | other => other
    match s.cmdNeeds c part with
    | .here => let (s, x) := s.cmdRead c part.1 part.2; add x (State.fetchParts s c rest rs)
    | .refused => (s, .refused)
    | .request _ =>
      match rs with
      | r :: rs =>
        match r.answer.bind Outcome.fetched with
        | some x => add x (State.fetchParts s c rest rs)
        | none => (s, .refused)
      | [] => (s, .refused)

/-- What comes before an access of the command (R124, R129). -/
def State.beforeCmd (s : State) (c : Cmd) (part : Addr × Nat) : State :=
  match s.cmdPlace c part.1 with
  | some p => s.beforeAccess p part.2
  | none => s

/-- A request for each part that lies elsewhere, after what comes before it. -/
def State.sendReads (s : State) (c : Cmd) : List (Addr × Nat) → State × List Request
  | [] => (s, [])
  | part :: rest =>
    match s.cmdNeeds c part with
    | .request r => let (s, rs) := State.sendReads (s.beforeCmd c part) c rest; (s, r :: rs)
    | _ => State.sendReads s c rest

/-- Reads of a command: its requests go out once, and the reads end when every one has been answered. -/
def State.cmdFetch (s : State) (i : EngineId) (c : Cmd) (parts : List (Addr × Nat)) : State × Fetched :=
  s.asCmd i c fun s =>
    if c.requests.any fun r => r.answer.isNone then (s, .waits c.requests)
    else if !c.requests.isEmpty then s.fetchParts c parts c.requests
    else if parts.any fun part => s.cmdNeeds c part = .refused then (s, .refused)
    else
      let (s, rs) := s.sendReads c parts
      if rs.isEmpty then s.fetchParts c parts [] else (s, .waits rs)

/-- A write of the command: one of its engine's, under its ticket. -/
def State.storeFor (s : State) (c : Cmd) (p : Place) (bytes : List Byte) : State :=
  let s := (s.beforeAccess p bytes.length).beforeWrite p bytes.length
  (s.send { s.flight p bytes false with ticket := c.ticket, pc := 0 }).afterWrite p

def State.cmdWrite (s : State) (c : Cmd) (ea : Addr) (bytes : List Byte) : State :=
  match s.cmdPlace c ea with
  | some p => s.storeFor c p bytes
  | none => s

/-! ## Status (R306) -/

/-- Beats of 32 bytes that an extent of `n` bytes touches. -/
def beatsOf (n : Nat) : Nat := (n + 31) / 32
/-- R306: BEATS: destination beats written. A SEB conversion counts those of its two planes, block by block. -/
def Cmd.written (c : Cmd) : Nat :=
  match c.kind with
  | .convert => if c.fmt.toNat % 8 = 3 then beatsOf c.beats + beatsOf (4 * (bitsAt c.fmt.toNat 4 4) * c.beats) else c.beats
  | _ => c.beats
/-- R306: the status word of a command. -/
def Cmd.status (c : Cmd) : Word :=
  BitVec.ofNat 64 (c.state.code + (if c.cflag then 8 else 0) + (if c.state = .faulted then c.code.toNat * 256 else 0)
    + min c.written (2 ^ 48 - 1) * 2 ^ 16)
/-- Every command accepted and not ended, wherever it goes on (R301). -/
def State.liveCommands (s : State) : List Cmd :=
  (s.clusters.map fun k => (k.2.culverts.toList.map (·.queue)).flatten).flatten ++ (s.cisterns.toList.map (·.queue)).flatten
    ++ (s.tasks.map Task.keptCommands).flatten
/-- R304, R306: the status of a ticket: unknown when it is not among the engine's last 64 commands. -/
def State.ticketStatus (s : State) (t : Word) : Word :=
  match ticketEngine t with
  | none => 7
  | some i =>
    let e := s.engine i
    if 64 < (e.count - t.setWidth 32).toNat then 7
    else
      match cmdFind t (e.queue ++ e.done ++ s.liveCommands) with
      | some c => if c.context = s.core.owner then c.status else 7
      | none => 7

/-- A command's place in its engine's queue filled again; one that has ended joins the last 64. -/
def cmdPut (c : Cmd) : List Cmd → List Cmd
  | [] => []
  | d :: rest => if d.ticket = c.ticket then c :: rest else d :: cmdPut c rest
def State.cmdUpdate (s : State) (i : EngineId) (c : Cmd) : State :=
  let e := s.engine i
  s.setEngine i { e with queue := cmdPut c e.queue }

/-- R300: the command stops in state FAULTED; INTEG goes to the issuing item. -/
def State.cmdFault (s : State) (i : EngineId) (c : Cmd) (ea : Addr) (detail : Word) : State :=
  let c := { c with state := .faulted, code := cINTEG }
  let s := (s.traceEnd c i.die).cmdEnd i c
  s.reportImprecise c.origin (s.lateRecord cINTEG c.origin ea detail)

/-! ## Acceptance (R224, R294, R298) -/

/-- R294: an engine that holds as many commands as it can stalls the issuing core, which keeps the block. -/
def State.engineRoom (s : State) (i : EngineId) (blk : Block) : R Unit :=
  if (s.engine i).queue.length < i.depth then .ok () else .error (.hold s (.room (some blk)))

/-- A command joins its engine's queue under the next ticket; a copy leaves an entry (R410). -/
def State.queueCmd (s : State) (i : EngineId) (c : Cmd) : State :=
  let e := s.engine i
  let c := { c with ticket := ticketOf i e.count }
  ((s.setEngine i { e with queue := e.queue ++ [c], count := e.count + 1 }).loadOwner i).traceCopy 3 c i.die

/-- R224, R298: a command without a start time has its ticket at once; one whose time has come before it is refused; any
other is accepted and waits. `t` is the time of the three-operand form, `start` the block's. -/
def State.acceptCmd (s : State) (i : EngineId) (c : Cmd) (a : RegNum) (timed : Bool) (t start : Word) : R State :=
  if timed && start ≠ 0 then trap cTIMING 2
  else if !timed && start = 0 then .ok ((s.queueCmd i c).setInt a (ticketOf i (s.engine i).count))
  else
    let t := if timed then t else start
    if t ≤ (s.dieAt i.die).atime then trap cTIMING 1
    else .error (.hold (s.queueCmd i { c with start := some t }) (.engine t (some (ticketOf i (s.engine i).count))))

/-- R298: at its time a command starts if its engine executes none; otherwise it is refused with TIMING. -/
def State.startCmd (s : State) (t : Tick) (k : Word) (a : RegNum) : R State :=
  match ticketEngine k with
  | none => trap cTIMING 0
  | some i =>
    if (s.dieAt i.die).atime < t then .error (.hold s (.engine t (some k)))
    else if (s.headCmd i).isSome then trap cTIMING 0
    else
      match cmdFind k (s.engine i).queue with
      | some c => .ok (((s.cmdUpdate i { c with state := .running }).loadOwner i).setInt a k)
      | none => trap cTIMING 0

/-- What every command takes from its issuer and its block. -/
def State.newCmd (s : State) (k : CmdKind) (src dst mbx : GReg) (mbxval : Nat) (pages : Assoc Leaf) : Cmd :=
  { ticket := 0, origin := s.core.origin, kind := k, src := src, dst := dst, mbx := mbx, idx := [], cnt := .null, hasIdx := false, hasCnt := false, length := 32,
    rows := 1, sstride := 0, dstride := 0, flags := 0, channel := 0, ring := 0, fmt := 0, start := none,
    mbxval := BitVec.ofNat 64 mbxval, pages := pages, sovp := s.core.csr.sovp, sovl := s.core.csr.sovl,
    sump := s.core.ident.sump, aad := 0, ghash := 0, wrote := [], state := .queued, code := 0, cflag := false, beats := 0, requests := [],
    ended := false }

/-- R295, R309: the first field, by offset, that breaks its rule. -/
def firstBad : List (Nat × Bool) → Option Nat
  | [] => none
  | (off, bad) :: rest => if bad then some off else firstBad rest
def fieldCheck (rules : List (Nat × Bool)) : R Unit :=
  match firstBad rules with
  | some off => trap cILL (BitVec.ofNat 64 off)
  | none => .ok ()

/-- A field read as a two's complement number. -/
def signedField (v bits : Nat) : Int := if 2 ^ (bits - 1) ≤ v then (v : Int) - (2 ^ bits : Nat) else v

/-! ## Completion (R299, R128, R131) -/

/-- The command's writes are performed at their homes. -/
def State.cmdDrain (s : State) (i : EngineId) (c : Cmd) : State :=
  s.drain fun f => f.agent = EngineId.agent i && f.ticket = c.ticket

/-- R360: the engine's zone has reached a freeze instant of the command's task: no later beat is started. -/
def State.cmdStopped (s : State) (i : EngineId) (c : Cmd) : Bool := s.pastFreeze c.context c.task i.die

/-- Every access that the command made is performed and acknowledged. -/
def State.cmdSettled (s : State) (i : EngineId) (c : Cmd) : State :=
  let mine := fun (f : Flight) => f.agent = EngineId.agent i && f.ticket = c.ticket
  (s.drain mine).resolvePosted mine

/-- R299 step 3: the mailbox is released. -/
def State.cmdMailbox (s : State) (i : EngineId) (c : Cmd) : State :=
  let s := s.cmdSettled i c
  if c.mbx.isNone then s else (s.asCmd i c fun s => (s.cmdWrite c c.mbx.cursor (bytesOf 8 c.mbxval.toNat), ())).1

/-- R293: the program of an engine faults; a cistern has none. -/
def State.engineFault (s : State) (i : EngineId) : State :=
  match i with
  | .culvert u => ((s.focus (.culvert u)).culvertProgramFault u).focus s.core.agent
  | .cistern _ => s

/-- R351, R352: the command ends in state 3 with CODE 0x18; nothing of its completion follows. -/
def State.cmdRefused (s : State) (i : EngineId) (c : Cmd) : State :=
  let c := { c with state := .faulted, code := cHOST }
  (s.traceEnd c i.die).cmdEnd i c

/-- Whether an address of the command may not be reached: an unreachable peer, or a host without bus mastering (R347,
R352). DEDUCED (assumption 101): a beat or a mailbox store refused at issue ends the command as R351's refusal does. -/
def State.cmdBarred (s : State) (i : EngineId) (c : Cmd) (ea : Addr) : Bool :=
  (s.asCmd i c fun s => (s, match s.cmdLoc c ea with | some l => (s.awayRefused c.context l).isSome | none => false)).2
/-- R350: whether a request of the command to one of these addresses is held. -/
def State.cmdHeld (s : State) (i : EngineId) (c : Cmd) (eas : List Addr) : Bool :=
  (s.asCmd i c fun s => (s, eas.any fun ea => match s.cmdLoc c ea with | some l => s.peerHeld l | none => false)).2
/-- R352: whether an address of the command lies with an unreachable peer. -/
def State.cmdLost (s : State) (i : EngineId) (c : Cmd) (ea : Addr) : Bool :=
  !s.fabric.lost.isEmpty
    && (s.asCmd i c fun s => (s, match s.cmdLoc c ea with | some l => s.peerLost l | none => false)).2

end Sys2Proof.Machine
end

