-- ==== Sys2Proof/Machine/Page3.lean ====
section
/-! DEFINITION. Page 3: vector loads and stores, permutes and the block formats (R191 to R207, R159 to R161). -/

namespace Sys2Proof.Machine

/-! ## Vector memory (R193 to R199) -/

/-- The active elements below `n`, in rising order. -/
def State.activeIdx (s : State) (x : Pfx) (n : Nat) : List Nat := (upFrom 0 n).filter (s.active x)

/-- One value for each element from `i` on, where the element has one. -/
def spread : Nat → Nat → List Nat → List Nat → List (Option Nat)
  | 0, _, _, _ => []
  | n + 1, i, k :: ks, v :: vs => if k = i then some v :: spread n (i + 1) ks vs else none :: spread n (i + 1) (k :: ks) (v :: vs)
  | n + 1, i, ks, vs => none :: spread n (i + 1) ks vs

/-- R195: the active elements stored in ascending order; those of the instruction lie at `at_`. -/
def State.writeElems (s : State) (n : Nat) (at_ : List Nat) : List Place → List Nat → R State
  | p :: ps, v :: vs => do
    s.issueStore p
    State.writeElems (s.storeWhole p (bytesOf n v) (s.wholeSectors n at_ p.loc)) n at_ ps vs
  | _, _ => .ok s

/-- R196: with sequential ordering every element is performed before any later access. -/
def State.orderAfterAll (s : State) (o : Ordering) (n : Nat) : List Place → State
  | [] => s
  | p :: ps => State.orderAfterAll (s.orderAfter o p n) o n ps

/-- The elements of a register at the given indices. -/
def State.pick (s : State) (w : Nat) (a : RegNum) (idx : List Nat) : List Nat :=
  let es := elems w (s.v a)
  idx.map fun i => es.getD i 0

/-- R194: the elements' checks, and where each lies. -/
def checkElems (n : Nat) (as : List Access) (s : State) : R (State × List (Place × Nat)) :=
  (s.checkAll as).map fun (s, ps) => (s, ps.map fun p => (p, n))

/-- R194, R195: a vector load: everything checked, then every element read, then the destination written. -/
def vLoad (x : Pfx) (o : Ordering) (w : ITy) (a : RegNum) (gs : List RegNum) (vs : List RegNum)
    (mk : State → Nat → Access) (s : State) : Out :=
  vectorOp x s fun s => do
    let n := 2048 / ITy.width w
    let sz := ITy.width w / 8
    let s ← s.useG gs
    let s ← s.useVec x vs a (Pfx.keeps x)
    let idx := s.activeIdx x n
    let (s, xs) ← s.loads o (checkElems sz (idx.map fun i => (mk s i).load))
    return s.putElems x (ITy.width w) a (spread n 0 idx (xs.map fun v => natOf v.1))

/-- A vector store. -/
def vStore (x : Pfx) (o : Ordering) (w : ITy) (a : RegNum) (gs : List RegNum) (vs : List RegNum)
    (mk : State → Nat → Access) (s : State) : Out :=
  vectorOp x s fun s => do
    let n := 2048 / ITy.width w
    let s ← s.useG gs
    let s ← s.useVec x (vs ++ [a]) a false
    let idx := s.activeIdx x n
    let (s, ps) ← s.checkAll (coverAll (idx.map fun i => (mk s i).store))
    let s ← (s.orderBefore o).writeElems (ITy.width w / 8) (ps.map Place.loc) ps (s.pick (ITy.width w) a idx)
    return (s.clearCovered (ps.map fun p => (p.va.toNat, ITy.width w / 8))).orderAfterAll o (ITy.width w / 8) ps

/-- R193: element addresses of the four shapes. -/
def contiguous (w : ITy) (b : RegNum) (off : Word) (s : State) (i : Nat) : Access :=
  memAccess (s.g b) b (eaOf (s.g b) off + BitVec.ofNat 48 (i * (ITy.width w / 8))) (ITy.width w / 8)
def strided (w : ITy) (b c : RegNum) (off : Word) (s : State) (i : Nat) : Access :=
  offsetAccess (s.g b) b (((s.g b).offset : Int) + off.toInt + i * (s.gint c).toInt) (ITy.width w / 8)
def indexed (w : ITy) (b c : RegNum) (s : State) (i : Nat) : Access :=
  offsetAccess (s.g b) b (((s.g b).offset : Int) + ((s.gint c).toInt + i) * ((ITy.width w / 8 : Nat) : Int)) (ITy.width w / 8)
def gathered (w : ITy) (b c : RegNum) (s : State) (i : Nat) : Access :=
  let k := (elems (ITy.width w) (s.v c)).getD i 0
  let v : Int := if 2 ^ (ITy.width w - 1) ≤ k then (k : Int) - (2 ^ ITy.width w : Nat) else k
  offsetAccess (s.g b) b (((s.g b).offset : Int) + v * ((ITy.width w / 8 : Nat) : Int)) (ITy.width w / 8)

def execVld (x : Pfx) (o : Ordering) (w : ITy) (a b : RegNum) (off : Word) (s : State) : Out :=
  vLoad x o w a [b] [] (contiguous w b off) s
def execVst (x : Pfx) (o : Ordering) (w : ITy) (a b : RegNum) (off : Word) (s : State) : Out :=
  vStore x o w a [b] [] (contiguous w b off) s
def execVlds (x : Pfx) (o : Ordering) (w : ITy) (a b c : RegNum) (off : Word) (s : State) : Out :=
  vLoad x o w a [b, c] [] (strided w b c off) s
def execVsts (x : Pfx) (o : Ordering) (w : ITy) (a b c : RegNum) (off : Word) (s : State) : Out :=
  vStore x o w a [b, c] [] (strided w b c off) s
def execVgth (x : Pfx) (o : Ordering) (w : ITy) (a b c : RegNum) (s : State) : Out :=
  vLoad x o w a [b] [c] (gathered w b c) s
def execVsct (x : Pfx) (o : Ordering) (w : ITy) (a b c : RegNum) (s : State) : Out :=
  vStore x o w a [b] [c] (gathered w b c) s
def execVldx (x : Pfx) (o : Ordering) (w : ITy) (a b c : RegNum) (s : State) : Out :=
  vLoad x o w a [b, c] [] (indexed w b c) s
def execVstx (x : Pfx) (o : Ordering) (w : ITy) (a b c : RegNum) (s : State) : Out :=
  vStore x o w a [b, c] [] (indexed w b c) s

/-- R199: the feasibility test of every element, the first failure in order. -/
def State.feasibleAll (s : State) (t : Tick) : List Place → Except Trap (List Nat)
  | [] => .ok []
  | p :: ps =>
    match s.feasible p t with
    | .error e => .error e
    | .ok l => (State.feasibleAll s t ps).map fun ls => l :: ls

/-- R199: the elements of a VSTAT accepted, each with its number. -/
def State.acceptElems (s : State) (n : Nat) (t : Tick) : List Nat → List Place → List Nat → List Nat → State
  | i :: is, p :: ps, l :: ls, v :: vs =>
    State.acceptElems ((s.beforeAccess p n).acceptTimed p (bytesOf n v) false t i l) n t is ps ls vs
  | _, _, _, _ => s

def execVstat (x : Pfx) (o : Ordering) (w : ITy) (a b c : RegNum) (off : Word) (s : State) : Out :=
  vectorOp x s fun s => do
    let n := 2048 / ITy.width w
    let sz := ITy.width w / 8
    let s ← s.useG [b, c]
    let s ← s.useVec x [a] a false
    let idx := s.activeIdx x n
    let (s, ps) ← s.checkAll (coverAll (idx.map fun i => (contiguous w b off s i).store))
    let t := s.gint c
    match s.feasibleAll t ps with
    | .error e => .error (.trap e)
    | .ok ls =>
      let s := ((s.orderBefore o).acceptElems sz t idx ps ls (s.pick (ITy.width w) a idx)).issuedOne
      let s := s.clearCovered (ps.map fun p => (p.va.toNat, sz))
      return ps.foldl (fun s p => s.acceptedAfter o p) s

def execVldnb (x : Pfx) (o : Ordering) (w : ITy) (a b c : RegNum) (off : Word) (s : State) : Out :=
  vectorOp x s fun s => do
    let n := 2048 / ITy.width w
    let sz := ITy.width w / 8
    let s ← s.useG [b, c]
    let s ← s.useVec x [] a (Pfx.keeps x)
    let idx := s.activeIdx x n
    let (s, xs) ← s.loadsAfter o (s.gint c) (checkElems sz (idx.map fun i => (contiguous w b off s i).load))
    return s.putElems x (ITy.width w) a (spread n 0 idx (xs.map fun v => natOf v.1))

/-! ## Permutes (R200 to R203) -/

/-- A destination whose element i is the element of a list that `f i` names. -/
def rearrange (n : Nat) (f : Nat → Nat) (l : List Nat) : List (Option Nat) := (upFrom 0 n).map fun i => some (l.getD (f i) 0)

/-- The PV forms: `f n y` names the element of x ++ y. -/
def vPermute (x : Pfx) (w : ITy) (f : Nat → List Nat → Nat → Nat) (a b c : RegNum) (s : State) : Out :=
  vectorOp x s fun s => do
    let n := 2048 / ITy.width w
    let s ← s.useVec x [c, b] a (Pfx.keeps x)
    let y := elems (ITy.width w) (s.v b)
    return s.putElems x (ITy.width w) a (rearrange n (f n y) (elems (ITy.width w) (s.v c) ++ y))
def execVperm (x : Pfx) (w : ITy) (a b c : RegNum) (s : State) : Out :=
  vPermute x w (fun n y i => y.getD i 0 % n) a b c s
def execVzip (x : Pfx) (w : ITy) (a b c : RegNum) (s : State) : Out :=
  vPermute x w (fun n _ i => if i % 2 = 0 then i / 2 else n + i / 2) a b c s
def execVuzp (x : Pfx) (w : ITy) (a b c : RegNum) (s : State) : Out :=
  vPermute x w (fun n _ i => if i < n / 2 then 2 * i else n + 2 * (i - n / 2)) a b c s
def execVtrn (x : Pfx) (w : ITy) (a b c : RegNum) (s : State) : Out :=
  vPermute x w (fun n _ i => if i % 2 = 0 then i else n + (i - 1)) a b c s

def execVrot (x : Pfx) (w : ITy) (a b c : RegNum) (s : State) : Out := vectorOp x s fun s => do
  let n := 2048 / ITy.width w
  let s ← s.useG [b]
  let s ← s.useVec x [c] a (Pfx.keeps x)
  let k := (s.gint b).toNat
  return s.putElems x (ITy.width w) a (rearrange n (fun i => (i + k) % n) (elems (ITy.width w) (s.v c)))
def execVslid (x : Pfx) (w : ITy) (a b c : RegNum) (s : State) : Out := vectorOp x s fun s => do
  let n := 2048 / ITy.width w
  let s ← s.useG [b]
  let s ← s.useVec x [c, a] a (Pfx.keeps x)
  let j := min (s.gint b).toNat n
  return s.putElems x (ITy.width w) a
    (rearrange n (fun i => i + j) (elems (ITy.width w) (s.v c) ++ elems (ITy.width w) (s.v a)))

/-- R202. -/
def execVext (x : Pfx) (w : ITy) (a b c : RegNum) (s : State) : Out := vectorOp x s fun s => do
  let s ← s.useG [c]
  let s ← s.useVec x [b] b false
  let k := (s.gint c).toNat
  let v := if k < 2048 / ITy.width w && s.active x k then (elems (ITy.width w) (s.v b)).getD k 0 else 0
  return s.setInt a (BitVec.ofNat 64 v)
def execVins (x : Pfx) (w : ITy) (a b c : RegNum) (s : State) : Out := vectorOp x s fun s => do
  let s ← s.useG [b, c]
  let s ← s.useVec x [a] a false
  let k := (s.gint c).toNat
  let es := elems (ITy.width w) (s.v a)
  return s.setV a (ofElems (ITy.width w) (if s.active x k then es.set k (s.gint b).toNat else es))

/-- R203: active elements moved together, or apart; `none` where the source gives nothing. -/
def compress (act : Nat → Bool) (i : Nat) : List Nat → List Nat
  | [] => []
  | v :: rest => if act i then v :: compress act (i + 1) rest else compress act (i + 1) rest
def expand (act : Nat → Bool) : Nat → Nat → List Nat → List (Option Nat)
  | 0, _, _ => []
  | n + 1, i, src => if act i then src.head? :: expand act n (i + 1) src.tail else none :: expand act n (i + 1) src
/-- What stands where nothing is moved: zero in zeroing mode, the previous contents in merge mode. -/
def fillFrom (zero : Bool) : List (Option Nat) → List Nat → List Nat
  | _, [] => []
  | rs, old :: olds => (match rs.headD none with | some v => v | none => if zero then 0 else old) :: fillFrom zero rs.tail olds
def execVcmpr (x : Pfx) (w : ITy) (a b : RegNum) (s : State) : Out := vectorOp x s fun s => do
  let s ← s.useVec x [b] a (Pfx.keeps x)
  let moved := compress (s.active x) 0 (elems (ITy.width w) (s.v b))
  return s.setV a (ofElems (ITy.width w) (fillFrom x.zero (moved.map some) (elems (ITy.width w) (s.v a))))
def execVexpn (x : Pfx) (w : ITy) (a b : RegNum) (s : State) : Out := vectorOp x s fun s => do
  let s ← s.useVec x [b] a (Pfx.keeps x)
  let moved := expand (s.active x) (2048 / ITy.width w) 0 (elems (ITy.width w) (s.v b))
  return s.setV a (ofElems (ITy.width w) (fillFrom x.zero moved (elems (ITy.width w) (s.v a))))

/-! ## Block formats (R159 to R161, R204 to R206) -/

/-- R161: one element scaled, rounded to nearest even and clamped; its mantissa field and flags. -/
def quantise (m e : Nat) (bits : Nat) : Nat × Exc :=
  match (fmtOf .f32).read false bits with
  | .fin neg f x =>
    let (r, inexact) := roundShift .rne false f (-(x + m - 2 - ((e : Int) - 127))) false
    let hi := 2 ^ (m - 1) - 1
    let lim := if neg then hi + 1 else hi
    let v := min r lim
    let fl : Exc := (if lim < r then eOF ||| eNX else 0) ||| (if inexact then eNX else 0)
    (if neg then (2 ^ m - v) % 2 ^ m else v, fl)
  | _ => (0, 0)

/-- R161: a block of 32 elements: E, the mantissa fields, the flags. -/
def quantBlock (m : Nat) (xs : List Nat) : Nat × List Nat × Exc :=
  let mags := xs.map fun v => v % 2 ^ 31
  if mags.any fun v => 0x7F800000 ≤ v then (0xFF, xs.map fun _ => 0, eNV)
  else
    let amax := mags.foldr max 0
    if amax = 0 then (0, xs.map fun _ => 0, 0)
    else
      let e := max 1 (amax / 2 ^ 23)
      let qs := xs.map (quantise m e)
      (e, qs.map fun q => q.1, qs.foldr (fun q f => q.2 ||| f) 0)

/-- R205. -/
def execVqnt (x : Pfx) (_unsignedTy : Bool) (m : BitVec 4) (a b : RegNum) (s : State) : Out := vectorOp x s fun s => do
  let s ← s.useVec x [b] a false
  let src := (activeElems (s.active x) 0 (elems 32 (s.v b))).map fun v => v.getD 0
  let (e0, m0, f0) := quantBlock m.toNat (src.take 32)
  let (e1, m1, f1) := quantBlock m.toNat (src.drop 32)
  let s ← s.raise (f0 ||| f1)
  let field := joinN m.toNat m0 + joinN m.toNat m1 <<< (32 * m.toNat)
  return s.setV a (BitVec.ofNat 2048 (e0 + e1 * 256 + field <<< 256))

/-- R160: an element decoded to f32. DESIGN CHOICE (assumption 97): M = -2^(m-1) with E = 0xFE is -2^128, outside f32; it
becomes -infinity and raises no flag. -/
def dequantise (m e v : Nat) : Nat :=
  if e = 0 then 0
  else if e = 0xFF then (fmtOf .f32).nanBits
  else
    let neg := 2 ^ (m - 1) ≤ v
    let mag := if neg then 2 ^ m - v else v
    ((fmtOf .f32).round .rne false neg mag ((e : Int) - 127 - (m - 2)) false).1

/-- R206. -/
def execVdeq (x : Pfx) (_unsignedTy : Bool) (m : BitVec 4) (a b : RegNum) (s : State) : Out := vectorOp x s fun s => do
  let s ← s.useVec x [b] a (Pfx.keeps x)
  let v := (s.v b).toNat
  let ms := splitN m.toNat 64 (v >>> 256)
  let e := fun i => bitsAt v (8 * (i / 32)) 8
  return s.putElems x 32 a ((upFrom 0 64).map fun i => some (dequantise m.toNat (e i) (ms.getD i 0)))

/-! ## Two-of-four sparsity (R207) -/

/-- How many elements of a group rank above its element `j`. -/
def rankAbove (key : Nat) (j : Nat) : Nat → List Nat → Nat
  | _, [] => 0
  | i, k :: rest => (if key < k || k = key && i < j then 1 else 0) + rankAbove key j (i + 1) rest
/-- R207: the two kept indices of a group of keys, ascending. -/
def keptPair (keys : List Nat) : List Nat := (upFrom 0 4).filter fun j => rankAbove (keys.getD j 0) j 0 keys < 2
/-- Groups of four: the kept elements and the metadata bits. -/
def compactGroups (w : Nat) : Nat → List Nat → List Nat × List Nat
  | 0, _ => ([], [])
  | n + 1, es =>
    let g := es.take 4
    let kept := keptPair (g.map fun v => v % 2 ^ (w - 1))
    let (vs, js) := compactGroups w n (es.drop 4)
    (kept.map (fun j => g.getD j 0) ++ vs, kept ++ js)
def execVsprs (x : Pfx) (w : ITy) (a b : RegNum) (c : PredNum) (s : State) : Out := vectorOp x s fun s => do
  let n := 2048 / ITy.width w
  let s ← s.useVec x [b] a false
  let src := (activeElems (s.active x) 0 (elems (ITy.width w) (s.v b))).map fun v => v.getD 0
  let (vs, js) := compactGroups (ITy.width w) (n / 4) src
  return (s.setV a (ofElems (ITy.width w) vs)).setP c (BitVec.ofNat 256 (joinN 2 js))

end Sys2Proof.Machine
end

