-- ==== Sys2Proof/Machine/Cistern.lean ====
section
/-! DEFINITION. Cisterns: XGTH, XRED, XCVT beside the HBM stacks (R307 to R312). -/

namespace Sys2Proof.Machine

/-! ## Acceptance (R308, R309) -/

/-- The rules that every cistern block keeps; `fmtBad`, `rowBad` and the unused capabilities depend on the command. -/
def cisternRules (b : Block) (rowBad fmtBad idxUnused cntUnused : Bool) : List (Nat × Bool) :=
  let len := b.field 80 4
  let rows := b.field 84 4
  [(48, idxUnused && !(b.cap 48).isNone), (64, cntUnused && !(b.cap 64).isNone),
   (80, len % 32 ≠ 0 || len < 32 || 65536 < len || rowBad), (84, rows = 0 || 4096 < rows), (88, fmtBad),
   (92, b.field 92 4 ≠ 0), (112, b.field 112 16 ≠ 0)]

/-- R309: the index list, read whole at acceptance. -/
def State.readIndex (s : State) (idx : GReg) (rows : Nat) : R (State × List Place × List Nat) := do
  let as := operand idx 1 idx.offset (4 * rows) 4 true false
  let (s, ps) ← s.checkOperand true as
  let parts := ps.zip (as.map (·.n))
  match parts.find? fun p => s.dataBad p.1 p.2 with
  | some p => trap cINTEG 0 (p.1.va.setWidth 64)
  | none =>
    let s := s.beforeAll parts
    return (s, ps, splitN 32 rows (natOf (parts.map fun p => s.placeBytes p.1 p.2).flatten))

/-- The rows of an operand at given offsets from its cursor. -/
def rowOperands (cap : GReg) (role align n : Nat) (r w : Bool) (offs : List Nat) : List Access :=
  (offs.map fun (k : Nat) => operand cap role ((cap.offset : Int) + k) n align r w).flatten

/-- R308: the cistern of the stack that holds the granule at DST.CURSOR. DESIGN CHOICE (assumption 103): where that
address maps to no device memory, which the checks then mostly refuse, stack 0. -/
def State.cisternOf (s : State) (dst : Addr) : BitVec 4 :=
  let place := if inOverflow dst.toNat then (s.redirect dst).bind fun va => (s.resolve false true va).toOption
    else (s.resolve false false dst).toOption
  match place.bind fun p => p.leaf.map fun l => (p, l) with
  | some (p, l) => if p.region = .dev then BitVec.ofNat 4 (s.homeStack (l.pa + p.va.toNat % l.size)) else 0
  | none => 0

/-- What the three commands differ in: row and format rules, and from the index list the row offsets in the source, the
extents in the destination (offset, bytes, alignment), and whether the destination is read. -/
structure Shape where
  kind    : CmdKind
  rowBad  : Block → Bool
  fmtBad  : Block → Bool
  useIdx  : Block → Bool
  noIdx   : Bool
  noCnt   : Bool
  src     : Block → List Nat → List Nat
  dst     : Block → List Nat → List (Nat × Nat × Nat)
  dstRead : Bool

/-- R311: destination row of each source row. -/
def rowTargets (hasIdx : Bool) (idx : List Nat) (rows : Nat) : List Nat := if hasIdx then idx else upFrom 0 rows

/-- Numbers without repeats, in the order of their first occurrence. -/
def distinct : List Nat → List Nat → List Nat
  | _, [] => []
  | seen, n :: rest => if seen.contains n then distinct seen rest else n :: distinct (n :: seen) rest

/-- R308, R309: acceptance from the block on, which the cistern receives under release. -/
def State.acceptPieces (s : State) (sh : Shape) (o : Ordering) (a c : RegNum) (blk : Block) (i : EngineId) : R State := do
  let s := s.release 3
  fieldCheck (cisternRules blk (sh.rowBad blk) (sh.fmtBad blk) sh.noIdx sh.noCnt)
  let len := blk.field 80 4
  let rows := blk.field 84 4
  let dst := blk.cap 16
  let cnt := blk.cap 64
  let (s, is, idx) ← if sh.useIdx blk then s.readIndex (blk.cap 48) rows else .ok (s, [], [])
  let (s, ps) ← s.checkOperand true (rowOperands (blk.cap 0) 1 16 len true false (sh.src blk idx))
  let (s, qs) ← s.checkOperand true
    (coverAll ((sh.dst blk idx).map fun e => operand dst 2 ((dst.offset : Int) + e.1) e.2.1 e.2.2 sh.dstRead true).flatten)
  let (s, ms) ← s.checkMailbox (blk.cap 32)
  let (s, ns) ← if cnt.isNone then .ok (s, []) else
    s.checkOperand true (rowOperands cnt 2 4 4 true true ((distinct [] (rowTargets (sh.useIdx blk) idx rows)).map (4 * ·)))
  let cmd := s.newCmd sh.kind (blk.cap 0) dst (blk.cap 32) (blk.field 104 8) (holdPages [] (is ++ ps ++ qs ++ ms ++ ns))
  s.acceptCmd i { cmd with length := len, rows := rows, idx := idx, hasIdx := sh.useIdx blk, cnt := cnt,
                           hasCnt := !cnt.isNone, fmt := BitVec.ofNat 32 (blk.field 88 4), slots := holdSlots [] (is ++ ps) }
    a o.timed (s.gint c) (BitVec.ofNat 64 (blk.field 96 8))

def cisternBody (sh : Shape) (o : Ordering) (a b c : RegNum) (s : State) : R State := do
  match s.core.wait with
  | some (.engine t (some k)) => s.startCmd t k a
  | _ =>
    let s ← if o.timed then s.useG [c] else .ok s
    let (s, blk) ← s.readBlock b
    let i : EngineId := .cistern (s.cisternOf (blk.cap 16).cursor)
    s.engineRoom i blk
    s.acceptPieces sh o a c blk i

/-- R310. -/
def gatherShape : Shape :=
  { kind := .gather, rowBad := fun _ => false, fmtBad := fun b => b.field 88 4 ≠ 0, useIdx := fun _ => true, noIdx := false,
    noCnt := true, src := fun b idx => idx.map (· * b.field 80 4),
    dst := fun b _ => (upFrom 0 (b.field 84 4)).map fun r => (r * b.field 80 4, b.field 80 4, 32),
    dstRead := false }
def execXgth (x : Pfx) (o : Ordering) (a b c : RegNum) (s : State) : Out := itemOp x s (cisternBody gatherShape o a b c)

/-- R311. -/
def reduceShape : Shape :=
  { kind := .reduce, rowBad := fun _ => false, fmtBad := fun b => 2 ≤ b.field 88 4, useIdx := fun b => !(b.cap 48).isNone,
    noIdx := false, noCnt := false, src := fun b _ => (upFrom 0 (b.field 84 4)).map (· * b.field 80 4),
    dst := fun b idx => (rowTargets (!(b.cap 48).isNone) idx (b.field 84 4)).map fun d => (d * b.field 80 4, b.field 80 4, 32),
    dstRead := true }
def execXred (x : Pfx) (o : Ordering) (a b c : RegNum) (s : State) : Out := itemOp x s (cisternBody reduceShape o a b c)

/-! ## XCVT's formats (R312) -/

/-- The destination format: none for SEB. -/
def convertFmt (fmt : Nat) : Option FTy :=
  if fmt % 8 = 0 then some .bf16 else if fmt % 8 = 1 then some .e4m3 else if fmt % 8 = 2 then some .e5m2 else none
def sebOf (fmt : Nat) : Nat := bitsAt fmt 4 4
/-- R312: the rules of FMT. -/
def convertFmtBad (fmt : Nat) : Bool :=
  let m := sebOf fmt
  3 < fmt % 8 || bitsAt fmt 3 1 ≠ 0 || 2 ^ 9 ≤ fmt || (if fmt % 8 = 3 then m < 2 || 8 < m else m ≠ 0)
/-- First offset of the mantissa plane: the first 128-byte multiple after the exponent plane. -/
def mantissaOff (cursor : Addr) (exponents : Nat) : Nat := (cursor.toNat + exponents + 127) / 128 * 128 - cursor.toNat

/-- R312: the extents of XCVT's destination: offset from the cursor, bytes, alignment. -/
def convertSpans (cursor : Addr) (len rows fmt : Nat) : List (Nat × Nat × Nat) :=
  match convertFmt fmt with
  | some t => (upFrom 0 rows).map fun r => (r * (len * (fmtOf t).width / 32), len * (fmtOf t).width / 32, if r = 0 then 32 else 1)
  | none =>
    let blocks := len / 128
    [(0, rows * blocks, 256), (mantissaOff cursor (rows * blocks), rows * (4 * sebOf fmt * blocks), 1)]

def convertExtents (b : Block) : List (Nat × Nat × Nat) :=
  convertSpans (b.cap 16).cursor (b.field 80 4) (b.field 84 4) (b.field 88 4)

def convertShape : Shape :=
  { kind := .convert, rowBad := fun b => b.field 88 4 % 8 = 3 && b.field 80 4 % 128 ≠ 0,
    fmtBad := fun b => convertFmtBad (b.field 88 4), useIdx := fun _ => false, noIdx := true, noCnt := true,
    src := fun b _ => (upFrom 0 (b.field 84 4)).map (· * b.field 80 4), dst := fun b _ => convertExtents b,
    dstRead := false }
def execXcvt (x : Pfx) (o : Ordering) (a b c : RegNum) (s : State) : Out := itemOp x s (cisternBody convertShape o a b c)

/-! ## Pieces (R297, R310 to R312) -/

/-- Width of a conversion's destination elements; blocks of SEB count by themselves. -/
def Cmd.narrow (c : Cmd) : Nat := match convertFmt c.fmt.toNat with | some t => (fmtOf t).width | none => 8
/-- Source beats that one piece of a conversion takes: those of one destination beat, or of one block. -/
def Cmd.taken (c : Cmd) : Nat := if (convertFmt c.fmt.toNat).isSome then 32 / c.narrow else 4
/-- Pieces of a command: its destination beats, or the blocks of a conversion to SEB. A conversion's destination is packed
over its rows. -/
def Cmd.pieces (c : Cmd) : Nat :=
  match c.kind with
  | .reduce => (distinct [] (rowTargets c.hasIdx c.idx c.rows)).length * (c.length / 32)
  | .convert => (c.rows * c.length / 32 + c.taken - 1) / c.taken
  | _ => c.rows * c.length / 32

/-- Where a piece stops: the address whose data fails its check, the beats that it has written, and CFLAG of them. -/
structure PieceStop where
  addr    : Addr
  beats   : Nat := 0
  flagged : Bool := false
  deriving DecidableEq, Repr

/-- R310: piece of a gather. -/
def State.gatherPiece (s : State) (c : Cmd) (k : Nat) : State × Except PieceStop Bool :=
  let per := c.length / 32
  let off := k % per * 32
  let src := c.src.cursor + BitVec.ofNat 48 (c.idx.getD (k / per) 0 * c.length + off)
  match s.cmdRead32 c src with
  | (s, some b) => (s.cmdWrite c (c.dst.cursor + BitVec.ofNat 48 (k / per * c.length + off)) b, .ok false)
  | (s, none) => (s, .error ⟨src, 0, false⟩)

/-- R311: the rows, in ascending order, that are added into a destination row. -/
def rowsInto (d : Nat) : Nat → List Nat → List Nat
  | _, [] => []
  | r, t :: rest => if t = d then r :: rowsInto d (r + 1) rest else rowsInto d (r + 1) rest

/-- R311: the f32 sum of one element with its flags. -/
def addF32 (acc v : Nat) : Nat × Exc :=
  let f := fmtOf .f32
  f.finish .rne false ((f.read false acc).add .rne (f.read false v))

/-- The source beats of some rows; an address whose data has an uncorrectable check ends it. -/
def State.readRows (s : State) (c : Cmd) (off : Nat) : List Nat → State × Except Addr (List Nat)
  | [] => (s, .ok [])
  | r :: rest =>
    let src := c.src.cursor + BitVec.ofNat 48 (r * c.length + off)
    match s.cmdRead32 c src with
    | (s, none) => (s, .error src)
    | (s, some b) =>
      let (s, l) := State.readRows s c off rest
      (s, l.map fun l => natOf b :: l)

/-- R311: element `e` of a beat: destination widened, every source element added in order, narrowed. -/
def reduceElem (t : FTy) (dst : Nat) (srcs : List Nat) (e : Nat) : Nat × Exc :=
  let w := (fmtOf t).width
  let wide := fun v => ((fmtOf .f32).finish .rne false (((fmtOf t).read false (bitsAt v (w * e) w)).exact)).1
  let (acc, fl) := srcs.foldl (fun a v => let (r, x) := addF32 a.1 (wide v); (r, a.2 ||| x)) (wide dst, (0 : Exc))
  let v := (fmtOf .f32).read false acc
  let nan : Exc := if v.isNan then eNV else 0
  if t = .f32 then (acc, fl ||| nan)
  else let (r, x) := (fmtOf t).finish .rne false v.exact; (r, fl ||| nan ||| x)

/-- CFLAG: a NaN, an overflow or a clamp. -/
def cflagOf (x : Exc) : Bool := x &&& (eNV ||| eOF) ≠ 0

/-- R311: the count of a destination row, as one atomic after the row's last beat; none where its word has an uncorrectable
check. -/
def State.reduceCount (s : State) (c : Cmd) (ca : Addr) (rows : Nat) : State × Bool :=
  match s.cmdRead c ca 4 with
  | (s, some b) => (s.cmdWrite c ca (bytesOf 4 (min (natOf b + rows) (2 ^ 32 - 1))), true)
  | (s, none) => (s, false)

/-- R311: piece of a reduction, with the count of the row after its last beat. -/
def State.reducePiece (s : State) (c : Cmd) (k : Nat) : State × Except PieceStop Bool :=
  let per := c.length / 32
  let targets := rowTargets c.hasIdx c.idx c.rows
  let d := (distinct [] targets).getD (k / per) 0
  let rows := rowsInto d 0 targets
  let off := k % per * 32
  let at_ := c.dst.cursor + BitVec.ofNat 48 (d * c.length + off)
  match s.readRows c off rows with
  | (s, .error a) => (s, .error ⟨a, 0, false⟩)
  | (s, .ok srcs) =>
    match s.cmdRead c at_ 32 with
    | (s, none) => (s, .error ⟨at_, 0, false⟩)
    | (s, some old) =>
      let t : FTy := if c.fmt.getLsbD 0 then .bf16 else .f32
      let w := (fmtOf t).width
      let es := (upFrom 0 (256 / w)).map (reduceElem t (natOf old) srcs)
      let s := s.cmdWrite c at_ (bytesOf 32 (joinN w (es.map (·.1))))
      let flagged := es.any fun e => cflagOf e.2
      let ca := c.cnt.cursor + BitVec.ofNat 48 (4 * d)
      if c.hasCnt && k % per + 1 = per then
        match s.reduceCount c ca rows.length with
        | (s, true) => (s, .ok flagged)
        | (s, false) => (s, .error ⟨ca, 1, flagged⟩)
      else (s, .ok flagged)

/-- R312: one f32 element narrowed. DEDUCED (assumption 25): an infinite operand is no overflow, so SAT leaves it as R156
converts it. -/
def convertElem (t : FTy) (sat : Bool) (v : Nat) : Nat × Exc :=
  let f := fmtOf t
  match (fmtOf .f32).read false v with
  | .fin neg m e =>
    let (b, x) := f.round .rne false neg m e false
    if sat && x &&& eOF ≠ 0 then (f.sign neg + f.maxBits, x) else (b, x)
  | .nan _ => (f.nanBits, eNV)
  | .inf neg => f.finish .rne false (.inf neg 0)

/-- R312: piece of a conversion. -/
def State.convertPiece (s : State) (c : Cmd) (k : Nat) : State × Except PieceStop Bool :=
  let n := min c.taken (c.rows * c.length / 32 - c.taken * k)
  match s.readRows { c with length := 32 } 0 (upFrom (c.taken * k) n) with
  | (s, .error a) => (s, .error ⟨a, 0, false⟩)
  | (s, .ok beats) =>
    let xs := (beats.map (splitN 32 8)).flatten
    match convertFmt c.fmt.toNat with
    | some t =>
      let es := xs.map (convertElem t (c.fmt.getLsbD 8))
      let out := bytesOf (es.length * c.narrow / 8) (joinN c.narrow (es.map (·.1)))
      (s.cmdWrite c (c.dst.cursor + BitVec.ofNat 48 (k * 32)) out, .ok (es.any fun e => cflagOf e.2))
    | none =>
      let m := sebOf c.fmt.toNat
      let (e, ms, fl) := quantBlock m xs
      let blocks := c.rows * (c.length / 128)
      let s := s.cmdWrite c (c.dst.cursor + BitVec.ofNat 48 k) [BitVec.ofNat 8 e]
      let off := mantissaOff c.dst.cursor blocks + 4 * m * k
      let s := s.cmdWrite c (c.dst.cursor + BitVec.ofNat 48 off) (bytesOf (4 * m) (joinN m ms))
      (s, .ok (cflagOf fl))

/-- R383: a conversion whose last piece is written has covered its destination. -/
def State.convertCovered (s : State) (i : EngineId) (c : Cmd) : State :=
  if c.kind = .convert && c.beats + 1 = c.pieces then
    let spans := convertSpans c.dst.cursor c.length c.rows c.fmt.toNat
    (s.asCmd i c fun s => (s.clearCovered (spans.map fun e => (c.dst.cursor.toNat + e.1, e.2.1)), ())).1
  else s

/-- One piece of the command in hand. A beat of a reduction and its count are performed at once at their homes (R311). -/
def State.cisternStep (s : State) (i : EngineId) (c : Cmd) : State :=
  let piece := match c.kind with
    | .reduce => let (s, r) := s.asCmd i c fun s => s.reducePiece c c.beats; (s.cmdDrain i c, r)
    | .convert => s.asCmd i c fun s => s.convertPiece c c.beats
    | _ => s.asCmd i c fun s => s.gatherPiece c c.beats
  match piece with
  | (s, .error a) => s.cmdFault i { c with beats := c.beats + a.beats, cflag := c.cflag || a.flagged } a.addr 0
  | (s, .ok fl) => (s.convertCovered i c).cmdUpdate i { c with state := .running, beats := c.beats + 1, cflag := c.cflag || fl }

def execCisternPiece (stack : BitVec 4) (s : State) : Out :=
  match s.headCmd (.cistern stack) with
  | some c => if c.beats < c.pieces && !s.cmdStopped (.cistern stack) c then .next (s.cisternStep (.cistern stack) c) else .next s
  | none => .next s

/-- A mailbox in the TCM of an item that has yielded or is preempted, or in the scratchpad of one that is preempted, waits
for it (R63, R249, R271). -/
def State.mailboxAway (s : State) (c : Cmd) : Bool :=
  let va := c.mbx.cursor.toNat
  let saved := match s.task c.context c.task with
    | some t => t.state = .preempted || t.state = .stopped || va < 0x80000 && t.savedCores.any fun k => k.holds c.origin
    | none => false
  !c.mbx.isNone && va < 0x200000 && saved

/-- R308, R352: the mailbox is released once every piece is performed. -/
def State.cisternEnd (s : State) (i : EngineId) (c : Cmd) : State :=
  if !c.mbx.isNone && s.cmdBarred i c c.mbx.cursor then s.cmdRefused i c
  else if !c.mbx.isNone && s.cmdHeld i c [c.mbx.cursor] then s
  else (s.cmdMailbox i c).cmdEnd i { c with state := .complete }

def execCisternCompletion (stack : BitVec 4) (s : State) : Out :=
  match s.headCmd (.cistern stack) with
  | some c => if c.beats < c.pieces || s.mailboxAway c || s.cmdStopped (.cistern stack) c then .next s else .next (s.cisternEnd (.cistern stack) c)
  | none => .next s

end Sys2Proof.Machine
end

