-- ==== Sys2Proof/Machine/Items.lean ====
section
/-! DEFINITION. The item instructions of page 5: FREEZE (R232 to R245), RETIRE, YIELD and EXQ (R246 to R250). -/

namespace Sys2Proof.Machine

/-! ## The exemplar descriptor (R232, R233) -/

structure FreezeDesc where
  base   : Nat
  len    : Nat
  gmask  : BitVec 32
  vmask  : BitVec 32
  pmask  : BitVec 16
  res    : Bool
  osplit : Bool
  ok     : Bool
  deriving DecidableEq, Repr

def freezeDesc (d : Nat) : FreezeDesc :=
  let f := fun (off n : Nat) => bitsAt d (8 * off) (8 * n)
  let base := f 0 8
  let len := f 8 4
  { base := base, len := len * 256, gmask := BitVec.ofNat 32 (f 16 4), vmask := BitVec.ofNat 32 (f 20 4),
    pmask := BitVec.ofNat 16 (f 24 2), res := f 32 8 % 2 = 1, osplit := f 32 8 / 2 % 2 = 1,
    ok := base < 0x80000 && base % 256 = 0 && len ≤ 192 && base + 256 * len ≤ 0x80000 && f 12 4 = 0 && f 26 6 = 0
      && f 32 8 < 4 && f 40 24 = 0 }

/-- COPY with a reason of R236. -/
def copyErr {α : Type} (reason : Nat) : R α := trap cCOPY (BitVec.ofNat 64 reason)

/-- The registers that a mask names. -/
def maskRegs (m : BitVec 32) : List RegNum := ((upFrom 0 32).filter fun i => m.getLsbD i).map (BitVec.ofNat 5)
def maskPreds (m : BitVec 16) : List PredNum := ((upFrom 0 16).filter fun i => m.getLsbD i).map (BitVec.ofNat 4)

/-- R244: slots of a list, from position `k` on in turn, that have no item to run. -/
def State.idleRun (s : State) (t : Task) (mates : List CoreId) (k : Nat) : Nat → Nat
  | 0 => 0
  | n + 1 =>
    match listAt mates (k % mates.length) with
    | some c =>
      let queued := match indexIn c t.slots with | some i => !(assocGetD t.queues i []).isEmpty | none => true
      if (s.agent (.core c)).run = .idle && !queued then 1 + State.idleRun s t mates (k + 1) n else 0
    | none => 0

/-! ## Queues of a level (R238, R239) -/

/-- The entry for the items `i`, `i + stride`, … below `n`. -/
def queueOf (level : BitVec 2) (i stride n parent : Nat) : List Queued :=
  if n ≤ i then [] else [{ level := level, index := i, stride := stride, count := (n - i + stride - 1) / stride,
                           parent := parent, saved := none, image := none, spill := none, commands := [] }]

/-- R239: behind what has started, ahead of every level-1 item that has not. -/
def queueInsert (new : List Queued) : List Queued → List Queued
  | [] => new
  | q :: rest => if q.level ≠ 2 && q.saved.isNone then new ++ (q :: rest) else q :: queueInsert new rest

def queueLevel1 (n size : Nat) (q : Assoc (List Queued)) : List Nat → Assoc (List Queued)
  | [] => q
  | slot :: rest =>
    let entry := queueOf 1 (if slot = 0 then size else slot) size n 0
    queueLevel1 n size (assocPut q slot (assocGetD q slot [] ++ entry)) rest

def queueLevel2 (slots mates : List CoreId) (k n parent : Nat) (q : Assoc (List Queued)) : List Nat → Assoc (List Queued)
  | [] => q
  | d :: rest =>
    let q := match (listAt mates ((k + d) % mates.length)).bind fun c => indexIn c slots with
      | some slot =>
        let entry := queueOf 2 (if d = 0 then mates.length else d) mates.length n parent
        assocPut q slot (queueInsert entry (assocGetD q slot []))
      | none => q
    queueLevel2 slots mates k n parent q rest

/-! ## FREEZE (R235) -/

/-- The exemplar of the agent in focus, whose carried registers have been read. -/
def State.exemplar (s : State) (x : Pfx) (a : RegNum) (d : FreezeDesc) (n parent : Nat) : Exemplar :=
  let dest : BitVec 32 := if a = 0 then 1 else BitVec.twoPow 32 a.toNat ||| 1
  let l := tcmLoc s.core.agent.memIndex 0
  { task := s.core.ident.task, n := n, parent := parent, gMask := d.gmask &&& ~~~dest, vMask := d.vmask,
    pMask := d.pmask &&& ~~~1, dest := a, g := s.core.g, v := s.core.v, p := s.core.p,
    pcc := s.core.pcc.setCursor (s.next x), csr := s.core.csr, base := d.base, len := d.len, resident := d.res,
    osplit := d.osplit, left := n, cells := memMove (memRange s.mem (l + d.base) d.len) l 0,
    tags := (tagsRange s.tags (l + d.base) d.len).map fun g => g - l / 16 }

/-- Half `level` of a list of clusters is filled. DESIGN CHOICE (assumption 93): a team uses exemplars (R65) from its first
level-1 FREEZE to the end of its task. -/
def State.fillHalves (s : State) (level : Nat) (e : Exemplar) : List Nat → State
  | [] => s
  | k :: rest =>
    let c := s.cluster k
    State.fillHalves (s.setCluster k (if level = 2 then { c with half2 := some e } else { c with half1 := some e, inUse := true }))
      level e rest

/-- The freezing item becomes item 0 of its level. -/
def Core.becomeFirst (c : Core) (a : RegNum) (d : FreezeDesc) (e : Exemplar) (level : BitVec 2) (n parent parts k : Nat) : Core :=
  let dest : BitVec 32 := BitVec.twoPow 32 a.toNat ||| 1
  let gp := poisonMask e.gMask dest
  let vp := poisonMask e.vMask 0
  let pp := ~~~(e.pMask ||| 1)
  let (sovp, sovl) := if d.osplit then splitSump c.csr.sovp c.csr.sovl parts k else (c.csr.sovp, c.csr.sovl)
  { c with gPois := c.gPois ||| gp, vPois := c.vPois ||| vp, pPois := c.pPois ||| pp, gInh := c.gInh &&& ~~~gp,
           vInh := c.vInh &&& ~~~vp, pInh := c.pInh &&& ~~~pp, regionBase := d.base, regionLen := d.len,
           own := upFrom (d.base / 256) (d.len / 256), resident := d.res, csr := { c.csr with sovp := sovp, sovl := sovl },
           ident := { c.ident with level := level, item := 0, items := n, parent := parent } }

/-- R273: whether a granted channel holds an arrival of its current generation. -/
def State.anyArrived (s : State) (t : Task) : Bool := t.revival.isNone && t.weirKeys.any fun k => !(s.weir k).arrived.isEmpty

/-- R244, R235: what a team refuses of FREEZE. -/
def State.freezeFits (s : State) (t : Task) (d : FreezeDesc) (n : Nat) (id : CoreId) : R Unit :=
  let mates := t.slotsIn id.clusterKey
  let k := (indexIn id mates).getD 0
  if s.core.ident.level = 0 then
    if t.desc.result.length < 16 * n then copyErr 6
    else if d.res && t.slots.length < n then copyErr 3
    else if s.anyArrived t then .error (.wait (.room none))
    else .ok ()
  else if (s.cluster id.clusterKey).half2.isSome then copyErr 4
  else if d.res && 1 + s.idleRun t mates (k + 1) (mates.length - 1) < n then copyErr 3
  else .ok ()

/-- R235: the level comes into being: halves, item 0, queues and memberships. -/
def State.freezeTeam (s : State) (x : Pfx) (a : RegNum) (d : FreezeDesc) (n : Nat) (t : Task) (id : CoreId) : State :=
  let mates := t.slotsIn id.clusterKey
  let k := (indexIn id mates).getD 0
  let parent := s.core.ident.item
  if s.core.ident.level = 0 then
    let e := s.exemplar x a d n 0
    let s := s.fillHalves 1 e t.clusterKeys
    let size := t.slots.length
    let s := s.setCore (s.core.becomeFirst a d e 1 n 0 size s.core.ident.slot)
    let t := { t with level := 1, n1 := n, resident := d.res, live := t.live + (n - 1),
                      queues := queueLevel1 n size t.queues (upFrom 0 (min n size)) }
    let s := s.setTask t
    let members := if d.res then t.slots.take n else []
    if t.revival.isSome then s
    else (s.setMembers t members d.res t.weirKeys).setFlumeMembers t members d.res t.flumeKeys
  else
    let e := s.exemplar x a d n parent
    let s := s.fillHalves 2 e [id.clusterKey]
    let s := s.setCore (s.core.becomeFirst a d e 2 n parent mates.length k)
    s.setTask { t with live := t.live + (n - 1),
                       queues := queueLevel2 t.slots mates k n parent t.queues (upFrom 0 (min n mates.length)) }

/-- R235: an agent that runs no item of a task has no team: it becomes item 0 alone. -/
def State.freezeAlone (s : State) (x : Pfx) (a : RegNum) (d : FreezeDesc) (n : Nat) : State :=
  let level := s.core.ident.level + 1
  s.setCore (s.core.becomeFirst a d (s.exemplar x a d n s.core.ident.item) level n s.core.ident.item 1 0)

/-- R59 steps 1 to 6, then the place in TCM. -/
def State.freezePlace (s : State) (b : RegNum) : R Place :=
  let cap := s.g b
  let acc := (memAccess cap b cap.cursor 64).load
  match s.checkCap acc with
  | .error (_, t) => .error (.trap t)
  | .ok (va, redirected) =>
    match s.zone false va.toNat with
    | .direct .tcm _ =>
      if redirected then copyErr 1
      else match s.access acc with | .ok p => .ok p | .error (_, t) => .error (.trap t)
    | _ => copyErr 1

def execFreeze (x : Pfx) (a b c : RegNum) (s : State) : Out := itemOp x s fun s => do
  if s.core.ident.level = 2 then copyErr 2
  let s ← s.useG [c, b]
  let n := (s.gint c).toNat
  let p ← s.freezePlace b
  let s := s.beforeAccess p 64
  let d := freezeDesc (natOf (s.placeBytes p 64))
  if !d.ok then copyErr 1
  if n = 0 || 2 ^ 32 < n then copyErr 5
  let team := match s.ownTask, s.core.agent with | some t, .core id => some (t, id) | _, _ => none
  match team with
  | some (t, id) => s.freezeFits t d n id
  | none => .ok ()
  let dest : BitVec 32 := BitVec.twoPow 32 a.toNat ||| 1
  let s ← s.useG (maskRegs (d.gmask &&& ~~~dest))
  let s ← s.useV (maskRegs d.vmask)
  let s ← s.useP (maskPreds (d.pmask &&& ~~~1))
  let s := s.release 3
  let s := match team with
    | some (t, id) => s.freezeTeam x a d n t id
    | none => s.freezeAlone x a d n
  return s.setInt a 0

/-! ## RETIRE (R247) -/

/-- The checked place of the result record, where one is due. -/
def State.resultPlace (s : State) : R (Option Place) :=
  match s.ownTask, s.core.resultIndex with
  | some t, some i => do
    let (_, p) ← s.check (t.resultAccess i)
    s.issueStore p
    return some p
  | _, _ => .ok none

def retireBody (value : Word) (status : Nat) (s : State) : R State := do
  if !s.core.mx.queue.isEmpty || s.enginesBusy then .error (.wait (.room none))
  let p ← s.resultPlace
  return s.retireWith p value status 0

def execRetire (x : Pfx) (s : State) : Out := itemOp x s (retireBody 0 0)
def execRetireValue (x : Pfx) (a : RegNum) (s : State) : Out := itemOp x s fun s => do
  let (v, s) ← s.readG a
  retireBody (v.bits.setWidth 64) 1 s

/-! ## YIELD and EXQ (R249, R250) -/

/-- The team slot and the queue of the agent in focus. -/
def State.ownQueue (s : State) : Option (Task × Nat × List Queued) :=
  match s.ownTask, s.core.agent with
  | some t, .core id => (indexIn id t.slots).map fun i => (t, i, assocGetD t.queues i [])
  | _, _ => none

/-- R249: the item as it is saved: its registers, its TCM, its overflow bytes, its culvert commands; it resumes after
YIELD. -/
def State.yieldEntry (s : State) (x : Pfx) (commands : List (BitVec 1 × Cmd)) : Queued :=
  let c := s.core
  let c := Core.rewindMatrix { c with pcc := c.pcc.setCursor (s.next x), wait := none }
  { level := c.ident.level, index := c.ident.item, stride := 1, count := 1, parent := c.ident.parent, saved := some c,
    image := some (s.shot.save 0 (tcmLoc c.agent.memIndex 0) 0x80000), spill := s.saveOverflow,
    commands := commands }

def execYield (x : Pfx) (s : State) : Out := itemOp x s fun s =>
  match s.ownQueue, s.core.resident with
  | some (t, i, q :: rest), false =>
    let s := s.release 5
    let (s, commands) := s.liftCommands s.core.kicked [AgentId.clusterOf s.core.agent]
    let t := { t with queues := assocPut t.queues i (q :: rest ++ [s.yieldEntry x commands]) }
    let s := s.setTask t
    .ok { s with core := s.core.rest }
  | _, _ => .ok s

/-- R250. -/
def State.dispatcher (s : State) (sel : Nat) : Word :=
  let c := s.core
  match sel with
  | 0 => match s.ownQueue with
    | some (_, _, q) => BitVec.ofNat 64 ((q.filter fun e => e.level = c.ident.level).map (·.count)).sum
    | none => 0
  | 1 => match s.ownTask with
    | some t => BitVec.ofNat 64 (if c.ident.level = 2 then t.retired2 else if c.ident.level = 1 then t.retired1 else 0)
    | none => 0
  | 2 => if c.ident.level = 2 then BitVec.ofNat 64 c.ident.parent else 0
  | 3 => BitVec.ofNat 64 c.own.length
  | 4 => c.gInh.setWidth 64
  | 5 => c.gPois.setWidth 64
  | 6 => c.vInh.setWidth 64
  | 7 => c.vPois.setWidth 64
  | 8 => (c.pInh.setWidth 64) ||| (c.pPois.setWidth 64 <<< 16)
  | 9 => if c.resident then 1 else 0
  | 10 => BitVec.ofNat 64 c.regionBase
  | _ => BitVec.ofNat 64 (c.regionLen / 256)
def execExq (x : Pfx) (a : RegNum) (sel : BitVec 4) (s : State) : Out :=
  .next (s.scalarInstr (s.onCulvert || 12 ≤ sel.toNat) false x fun s => .ok (s.setInt a (s.dispatcher sel.toNat)))

end Sys2Proof.Machine
end

