-- ==== Sys2Proof/Machine/Descriptor.lean ====
section
/-! DEFINITION. The launch descriptor and its checks (R257, R258), the flume configurations (R284), and the
instructions of dependence counters and LAUNCH (R269, R270). -/

namespace Sys2Proof.Machine

/-! ## Layout (R257) -/

/-- The fields of 192 bytes; `zeros` says that every field marked "—" is zero. Bits that R257 neither defines nor marks
zero are ignored: ENTRY[63:48], DIES[7:4], DONECTR[14:12]. -/
def descOf (b : Block) : Desc :=
  { code := b.cap 0, arg := b.cap 16, entry := BitVec.ofNat 64 (b.field 32 8), dies := BitVec.ofNat 8 (b.field 40 1 % 16),
    clusters := b.field 41 1, cores := b.field 42 1, cls := BitVec.ofNat 8 (b.field 43 1), sump := b.field 44 2,
    flags := BitVec.ofNat 16 (b.field 46 2), sovp := BitVec.ofNat 64 (b.field 48 8), sovl := BitVec.ofNat 64 (b.field 56 8),
    result := b.cap 64, spad := (upFrom 0 4).map fun i => BitVec.ofNat 32 (b.field (80 + 4 * i) 4),
    dweir := BitVec.ofNat 64 (b.field 96 8), pweir := BitVec.ofNat 16 (b.field 104 2), flumes := BitVec.ofNat 16 (b.field 106 2),
    step := BitVec.ofNat 8 (b.field 108 1), start := BitVec.ofNat 64 (b.field 112 8), waitctr := BitVec.ofNat 16 (b.field 120 2),
    waitval := BitVec.ofNat 64 (b.field 128 8), donectr := BitVec.ofNat 16 (b.field 136 2), flcfg := b.cap 144,
    zeros := b.field 109 3 = 0 && b.field 122 6 = 0 && b.field 138 6 = 0 && b.field 160 32 = 0 }

/-! ## Checks at acceptance (R258) -/

/-- Reason 1: a bit that R257 marks zero is set. -/
def Desc.zeroBits (d : Desc) : Bool :=
  d.zeros && d.cls.toNat < 4 && d.flags.toNat < 2 && d.spad.all (fun w => w.toNat < 2 ^ 18)
    && d.waitctr.toNat / 4096 % 8 = 0

/-- Reason 2: a value outside its range. DESIGN CHOICE (assumption 136): the channel of STEP is not looked at while its valid bit
is clear. -/
def Desc.inRange (d : Desc) : Bool :=
  d.dies ≠ 0 && 1 ≤ d.clusters && d.clusters ≤ 128 && 1 ≤ d.cores && d.cores ≤ 8
    && (d.sump = 0 || 4 ≤ d.sump && d.sump ≤ 256)
    && d.spad.all (fun w => !regionValid w || regionLen w ≠ 0 && regionBase w + regionLen w ≤ 256)
    && (!d.step.getLsbD 7 ||
        (d.step.toNat % 128 < 80 &&
          (64 ≤ d.step.toNat % 128 || d.dies = 1 || d.dies = 2 || d.dies = 4 || d.dies = 8)))

/-- Reason 3: a valid scratchpad region reaches the exemplar store. -/
def Desc.spadFits (d : Desc) : Bool := d.spad.all fun w => !regionValid w || regionBase w + regionLen w ≤ 0xE0

/-- Reason 4: every channel granted is the context's, and the superstep weir is granted. -/
def State.ownsChannels (s : State) (context : BitVec 8) (d : Desc) (weirs flumes : List Nat) : Bool :=
  weirs.all (fun k => (s.weir k).owner = context) && flumes.all (fun k => (s.flume k).owner = context)
    && (!d.step.getLsbD 7 ||
        (let w := d.step.toNat % 128
         if w < 64 then d.dweir.getLsbD w else d.pweir.getLsbD (w - 64)))

/-- Steps 1 to 5 of R59 for a capability of the descriptor: the code of the first that fails. -/
def capCheck (c : GReg) (perm inB aligned : Bool) : Option (BitVec 8) :=
  if !c.tag then some cKTAG else if c.isSealed then some cKSEAL else if !perm then some cKPRM
  else if !inB then some cKBND else if !aligned then some cALIGN else none

/-- Reason 5: CODE, ARG and RESULT. -/
def Desc.capFault (d : Desc) : Option (BitVec 8) :=
  let entry : Addr := d.entry.setWidth 48
  match capCheck d.code d.code.permX (d.code.inBounds entry 2) (!entry.getLsbD 0) with
  | some f => some f
  | none =>
    if !d.arg.tag && d.arg ≠ .null then some cKTAG
    else capCheck d.result d.result.permW (d.result.inBounds d.result.cursor 16) (d.result.cursor.toNat % 16 = 0)

/-- A task as it stands once its command is accepted. -/
def newTask (context : BitVec 8) (num : BitVec 32) (d : Desc) (seq : Nat) (accepted : Tick) (flcfg : List FlumeCfg)
    (revival : Option Revival) : Task :=
  { context := context, num := num, desc := d, flcfg := flcfg, state := .waiting, cls := d.cls.setWidth 2, seq := seq,
    accepted := accepted, placed := [], shape := [], slots := [], level := 0, n1 := 0, resident := false, queues := [],
    retired1 := 0, retired2 := 0, live := 0, step := 0, armed := false, stopping := false, commands := [], weirs := [], flumes := [], saved := [], images := [], spads := [], halves := [],
    finished := [], revival := revival, freezing := none }

/-- R258: the reason and the fault code for which a descriptor is refused. -/
def State.refusal (s : State) (t : Task) : Option (Nat × BitVec 8) :=
  let d := t.desc
  if !d.zeroBits then some (1, 0)
  else if !d.inRange then some (2, 0)
  else if !d.spadFits then some (3, 0)
  else if !s.ownsChannels t.context d t.weirKeys t.flumeKeys then some (4, 0)
  else d.capFault.map fun f => (5, f)

/-! ## Flume configurations (R284) -/

def flumeCfgOf (ch : Nat) (b : Nat) : FlumeCfg :=
  let f := fun (off n : Nat) => bitsAt b (8 * off) (8 * n)
  let mode := f 1 1
  let root := f 4 2
  { channel := ch, op := BitVec.ofNat 2 mode, s32 := mode.testBit 2, all := mode.testBit 3, cores := BitVec.ofNat 8 (f 2 1),
    rootCluster := root % 128, rootCore := root / 128 % 8, clmask := BitVec.ofNat 128 (f 16 16),
    ok := f 0 1 = ch && mode < 16 && mode % 4 ≠ 3 && f 3 1 = 0 && root < 1024 && f 6 10 = 0 }

def flumeCfgs (bytes : List Byte) : List Nat → List FlumeCfg
  | [] => []
  | ch :: rest => flumeCfgOf ch (natOf (bytes.take 32)) :: flumeCfgs (bytes.drop 32) rest

/-! ## Reading for a context (R256, R258) -/

/-- The die scheduler as it reads for a context: through its page tables, with its owner. -/
def readerCore (die : BitVec 2) (context : BitVec 8) : Core :=
  { Core.idle (.scheduler die) with owner := context, run := .firmware }

/-- How far the leader's loads for a context have come: read, with the requests that are left over; refused with the code of a
fault; waiting for completions (R346) or for earlier requests (R350); or with requests to send. -/
inductive Reading (α : Type) where
  | got (value : α) (rest : List Request)
  | fault (code : BitVec 8)
  | waits
  | sends (rs : List Request)

/-- Bytes of a list of places, of which those at the host or a peer have been answered. -/
def State.answeredBytes (s : State) : List (Place × Nat) → List Request → List Byte
  | [], _ => []
  | (p, n) :: ps, rs =>
    if isAway p.loc then
      match rs with
      | r :: rs => (match r.answer with | some (.returned b) => b | _ => []) ++ State.answeredBytes s ps rs
      | [] => State.answeredBytes s ps []
    else s.placeBytes p n ++ State.answeredBytes s ps rs

/-- Loads by the scheduler of a die for a context; `rs` are the requests that it has sent for them. -/
def State.readFor (s : State) (die : BitVec 2) (context : BitVec 8) (as : List Access) (rs : List Request) :
    Reading (List Place × List Byte) :=
  let t := { s with core := readerCore die context }
  match t.accessAll as with
  | (_, _, some (_, e)) => .fault e.code
  | (t, ps, none) =>
    let parts := ps.zip (as.map (·.n))
    let away := parts.filter fun p => isAway p.1.loc
    let mine := rs.take away.length
    if mine.length < away.length then
      if away.any fun p => (t.awayRefused context p.1.loc).isSome then .fault cHOST
      else if away.any fun p => t.peerHeld p.1.loc then .waits
      else .sends (away.map fun p => t.request p.1 p.2 none)
    else if mine.any fun r => r.answer.isNone then .waits
    else match mine.findSome? fun r => r.answer.bind r.fault with
      | some e => .fault e.code
      | none => .got (ps, t.answeredBytes parts mine) (rs.drop away.length)

/-- R256: the descriptor at an address of a context. DESIGN CHOICE (assumption 124): the capability that it is read through has
colour 0. -/
def State.readDesc (s : State) (die : BitVec 2) (context : BitVec 8) (addr : Addr) (rs : List Request) : Reading Desc :=
  if addr.toNat % 64 ≠ 0 then .fault cALIGN
  else
    let cap := mkCap 0 false 0b01001 192 0 addr addr
    match s.readFor die context (extentAccesses cap 0 64 3 64 Access.load) rs with
    | .got (ps, bytes) rest =>
      .got (descOf ⟨natOf bytes, (ps.map fun p => (upFrom 0 4).map fun i => s.placeTag (p.shift (16 * i))).flatten⟩) rest
    | .fault e => .fault e
    | .waits => .waits
    | .sends rs => .sends rs

/-- R258: the flume configurations of a descriptor; none when FLCFG is null or a check fails. -/
def State.readFlcfg (s : State) (die : BitVec 2) (context : BitVec 8) (d : Desc) (rs : List Request) : Reading (List FlumeCfg) :=
  let chans := (upFrom 0 16).filter fun w => d.flumes.getLsbD w
  let cap := d.flcfg
  if cap.isNone || chans.isEmpty then .got [] rs
  else
    match s.readFor die context (extentAccesses cap 0 32 chans.length 32 Access.load) rs with
    | .got (_, bytes) rest => .got (flumeCfgs bytes chans) rest
    | .fault _ => .got [] []
    | .waits => .waits
    | .sends rs => .sends rs

/-- The configurations of an acceptable descriptor: those of one that is refused are not read (R258). -/
def State.readCfgs (s : State) (die : BitVec 2) (context : BitVec 8) (d : Desc) (rs : List Request) : Reading (List FlumeCfg) :=
  if (s.refusal (newTask context 0 d 0 0 [] none)).isSome then .got [] rs else s.readFlcfg die context d rs

/-! ## SIGNAL, WAITC, LAUNCH (R269, R270) -/

def execSignal (x : Pfx) (a b : RegNum) (s : State) : Out := itemOp x s fun s => do
  let s ← s.useG [a, b]
  return (s.release 3).signalCounter s.core.owner ((s.gint a).setWidth 12) (s.gint b)

def execWaitc (x : Pfx) (a b : RegNum) (s : State) : Out := itemOp x s fun s => do
  let s ← s.useG [a, b]
  let k : BitVec 12 := (s.gint a).setWidth 12
  if s.gint b ≤ s.counter s.core.owner k then return s else .error (.wait (.counter k (s.gint b)))

/-- R228: task numbers wrap from 2³² − 1 to 1. -/
def nextNumber (n : BitVec 32) : BitVec 32 := if n = BitVec.allOnes 32 then 1 else n + 1

/-- R270: a LAUNCH or a revival joins the internal queue of a context; it answers the task's number. -/
def State.queueLaunch (s : State) (c : Ctx) (d : Desc) (code : Option (BitVec 8)) (revival : Option Revival) : State × BitVec 32 :=
  let l : Launch := { accession := c.accession, desc := d, task := c.nextTask, flcfg := [], code := code, revival := revival }
  (s.setCtx { c with accession := c.accession + 1, nextTask := nextNumber c.nextTask, internal := c.internal ++ [l] },
   c.nextTask)

/-- The twelve granules of a descriptor, whose checks are made as three accesses. -/
def descGranules (ps : List Place) : List (Place × Nat) := ps.flatMap fun p => (upFrom 0 4).map fun i => (p.shift (16 * i), 16)

/-- R270: the checks of LAUNCH, its release, and its wait for room in the context's internal queue; then the descriptor is
read, granule by granule. -/
def State.launchDesc (s : State) (b : RegNum) : R (State × List (Place × Nat)) := do
  let (s, ps) ← s.checkAll (extentAccesses (s.g b) b 64 3 64 Access.load)
  let s := s.release 3
  match s.ctx s.core.owner with
  | some c => if 256 ≤ c.internal.length then .error (.hold s (.room none)) else .ok (s, descGranules ps)
  | none => .ok (s, descGranules ps)

def execLaunch (x : Pfx) (a b : RegNum) (s : State) : Out := itemOp x s fun s => do
  let s ← s.useG [b]
  let (s, xs) ← s.loads Ordering.plain (fun s => s.launchDesc b)
  match s.ctx s.core.owner with
  | none => return s.setInt a 0
  | some c =>
    if 256 ≤ c.internal.length then .error (.hold s (.room none))
    let (s, num) := s.queueLaunch c (descOf (blockOf (s.g b).permK xs)) none none
    return s.setInt a (num.setWidth 64)

end Sys2Proof.Machine
end

