-- ==== Sys2Proof/Machine/Page6.lean ====
section
/-! DEFINITION. Page 6: the system instructions (R145, R149), TSYNC (R226), JRNL (R260), OWNR (R398), SMPC and DBGB
(R412 to R414). -/

namespace Sys2Proof.Machine

/-! ## Queues and their leaders (R261, R343) -/

/-- R343: physical function 0, and the virtual functions that the host has enabled. -/
def State.fnEnabled (s : State) (f : Nat) : Bool := f = 0 || (s.fn f).enabled

/-- Counts of commands are kept modulo 2³². -/
def low32 (v : Word) : Word := v &&& 0xFFFFFFFF
def Fn.pendingCommands (x : Fn) : Nat := (low32 (x.qtail - x.qhead)).toNat

/-- A die that may lead: healthy, not draining, its scheduler not halted; not throttled unless every healthy die is. -/
def State.mayLead (s : State) (strict : Bool) (d : BitVec 2) : Bool :=
  let x := s.dieAt d
  x.healthy && !x.draining && (s.agent (.scheduler d)).run ≠ .halted && (!strict || !x.throttled)

def firstDie (p : BitVec 2 → Bool) : List (BitVec 2) → Option (BitVec 2)
  | [] => none
  | d :: rest => if p d then some d else firstDie p rest

/-- R261: the leader that queue `q` should have. -/
def State.leaderFor (s : State) (q : Nat) : Option (BitVec 2) :=
  let order := (upFrom 0 4).map fun i => BitVec.ofNat 2 (q + i)
  match firstDie (s.mayLead true) order with
  | some d => some d
  | none => firstDie (s.mayLead false) order

/-! ## ERET, WFI, HALT (R145) -/

def execEret (x : Pfx) (s : State) : Out :=
  .next (s.jumpInstr s.onCulvert (s.itemMode && !s.core.handler) x fun s => .ok s.returnFromTrap)

/-- A doorbell of an intake queue that a die's scheduler leads, or a command of device code in an internal queue that it
leads (R261). -/
def State.queueEvent (s : State) (d : BitVec 2) : Bool :=
  (s.fns.any fun f => s.fnEnabled f.1 && f.2.pendingCommands ≠ 0 && s.leaderFor f.1 = some d)
    || (s.contexts.any fun c => !c.2.internal.isEmpty && s.leaderFor (64 + c.1) = some d)

/-- An event addressed to the agent in focus is pending. DEDUCED (assumption 43): for a culvert a command in hand; for any
firmware core a throttle event of its die; for a scheduler what its queues hold and the reports of missed stores; for an
archivist a freeze, or a record that its ring has not taken; for the security core a device error. Other messages are
those of the step WFI_WAKE. -/
def State.eventPending (s : State) : Bool :=
  match s.core.agent with
  | .culvert c => (s.headCmd (.culvert c)).isSome
  | a => !s.core.pending.isEmpty || (s.dieAt a.die).events ≠ 0 ||
    (match a with
     | .scheduler d => s.queueEvent d || !s.misses.isEmpty
     | .archivist _ => !s.freezing.isEmpty || s.fns.any fun f => !f.2.events.isEmpty
     | .security => !s.deviceErrors.isEmpty
     | _ => false)

def execWfi (x : Pfx) (s : State) : Out :=
  .next (s.scalarInstr false s.itemMode x fun s => if s.eventPending then .ok s else .error (.wait .event))

/-- WFI once an event for its core has come. -/
def wfiEnds (x : Pfx) (s : State) : Out := .next (s.scalarInstr false s.itemMode x fun s => .ok s)

/-- A firmware core stops until its die is reset; a halted archivist or security core is a device error. -/
def execHalt (x : Pfx) (s : State) : Out := firmwareOp x s fun s =>
  let t := { s with core := { s.core with run := .halted } }
  match s.core.agent with
  | .archivist _ => .ok (t.deviceError s.core.agent)
  | .security => .ok (t.deviceError s.core.agent)
  | _ => .ok t

/-! ## TRINV (R149) -/

/-- Whether an agent lies in a scope of the agent in focus: its cluster, its die, the package. -/
def State.inScope (s : State) (scope : Nat) (a : AgentId) : Bool :=
  scope = 3 || scope = 2 && a.die = s.core.agent.die
    || scope = 1 && a.cluster.isSome && a.cluster = s.core.agent.cluster

/-- Whether a buffer lies in the scope. -/
def State.bufferInScope (s : State) (scope : Nat) : Buffer → Bool
  | .micro a => s.inScope scope a
  | .cluster k => scope = 3 || scope = 2 && k / 128 = s.core.agent.die.toNat || scope = 1 && s.core.agent.cluster = some k
  | .die d => scope = 3 || scope = 2 && d = s.core.agent.die

/-- R149: what an invalidation covers: scope, context (0 for all), first address and number of 64 KiB pages (0 for all). -/
structure Invalidation where
  scope   : Nat
  context : Nat
  va      : Nat
  pages   : Nat
  deriving DecidableEq, Repr

/-- Whether an extent of a context lies in the range. -/
def Invalidation.covers (v : Invalidation) (context : BitVec 8) (lo size : Nat) : Bool :=
  (v.context = 0 || context.toNat = v.context) && (v.pages = 0 || lo < v.va + v.pages * 65536 && v.va < lo + size)

/-- The entries in scope that the range overlaps are dropped. -/
def State.dropTlb (s : State) (v : Invalidation) : State :=
  { s with tlb := s.tlb.filter fun e => !(s.bufferInScope v.scope e.buffer && v.covers e.context e.va e.leaf.size) }

/-- The accesses that may have translated through a dropped entry, of any agent in scope, are performed at their homes. -/
def State.finishThrough (s : State) (v : Invalidation) : State :=
  (s.drain fun f => s.inScope v.scope f.agent && v.covers f.context f.va.toNat f.size).arriveAll
    fun x => s.inScope v.scope x.issuer && v.covers x.context x.va.toNat x.bytes.length

/-- The reads of an agent that have not ended. -/
def Core.outstanding (c : Core) : List Request :=
  (match c.wait with
   | some (.host rs) => rs
   | some (.notBefore _ rs) => rs
   | some (.fetch r) => [r]
   | some (.aad _ r) => [r]
   | _ => []).filter fun r => r.answer.isNone

/-- R296: an engine command holds a translation in the range, or a read through one has not ended. -/
def State.heldThrough (s : State) (v : Invalidation) : Bool :=
  (s.parked.any fun k =>
    s.inScope v.scope k.agent && k.outstanding.any fun r => v.covers k.owner r.va.toNat r.n) ||
  s.liveCommands.any fun c =>
    s.inScope v.scope c.issuer && c.pages.any fun p => v.covers c.context (p.1 * 65536) 65536

def execTrinv (x : Pfx) (a b c : RegNum) (s : State) : Out := firmwareOp x s fun s => do
  let s ← s.useG [a, b, c]
  let first := (s.gint a).toNat
  let how := (s.gint c).toNat
  let scope := how / 256 % 8
  if first % 65536 ≠ 0 || 2 ^ 48 ≤ first || 2 ^ 11 ≤ how || !(scope = 1 || scope = 2 || scope = 3) then trap cILL
  else
    let v : Invalidation := ⟨scope, how % 256, first, (s.gint b).toNat⟩
    let s := ((s.release 5).dropTlb v).finishThrough v
    if s.heldThrough v then .error (.hold s .trinv) else .ok s

/-! ## TSYNC (R226) -/

/-- R209: a zone never moves backward. -/
def later (old new : Tick) : Tick := if new < old then old else new

def execTsync (x : Pfx) (a b : RegNum) (s : State) : Out := firmwareOp x s fun s => do
  let (r, s) ← s.readG b
  let v : Word := r.bits.setWidth 64
  if 4 ≤ v.toNat then trap cILL
  else
    let d : BitVec 2 := v.setWidth 2
    if d = s.core.agent.die || (s.dieAt d).sync then return s.setInt a 1
    else if !s.die.sync then return s.setInt a 2
    else return (s.setDie d { s.dieAt d with atime := later (s.dieAt d).atime s.now, sync := true, counting := true }).setInt a 0

/-! ## JRNL (R260) -/

def execJrnl (x : Pfx) (a b c : RegNum) (s : State) : Out := firmwareOp x s fun s => do
  let s ← s.useG [c, b]
  let seq := (s.gint c).toNat
  if s.nextSeq ≤ seq then return s.setInt a 2
  else match journalFind seq s.journal with
    | none => return s.setInt a 1
    | some j =>
      let s ← s.storeMem Ordering.plain (memAccess (s.g b) b (s.g b).cursor 64).store j.bytes false
      return s.setInt a 0

/-! ## OWNR (R398) -/

/-- The target of OWNR. -/
inductive OwnTarget where
  | core (c : CoreId)
  | weir (key : Nat)
  | flume (key : Nat)
  deriving DecidableEq, Repr

/-- R398: Gint(B) read as a target; none where a bit outside its fields is set or the number names nothing. -/
def ownTarget (v : Nat) : Option OwnTarget :=
  let die := v / 8 % 4
  let n := v / 65536
  if 2 ^ 26 ≤ v || v / 32 % 2048 ≠ 0 then none
  else match v % 8 with
    | 0 => some (.core ⟨BitVec.ofNat 2 die, BitVec.ofNat 10 n⟩)
    | 1 => if n < 64 then some (.weir (weirKey (BitVec.ofNat 2 die) n)) else none
    | 2 => if n < 16 then some (.weir (weirKey 0 (64 + n))) else none
    | 3 => if n < 16 then some (.flume (flumeKey (BitVec.ofNat 2 die) n)) else none
    | _ => none

def State.ownerOf (s : State) : OwnTarget → BitVec 8
  | .core c => (s.agent (.core c)).owner
  | .weir k => (s.weir k).owner
  | .flume k => (s.flume k).owner

/-- A command that a core has kicked. -/
def State.kicked (s : State) (a : AgentId) : Bool :=
  let mine := fun (e : Engine) => e.queue.any fun c => c.issuer = a
  s.clusters.any (fun p => p.2.culverts.toList.any mine) || s.cisterns.toList.any mine

/-- R398: the target holds or runs an item, a command or a grant of a placed task. -/
def State.inHand (s : State) : OwnTarget → Bool
  | .core c =>
    let k := s.agent (.core c)
    let queued := match taskOn c s.tasks with
      | some t => match indexIn c t.slots with | some i => !(assocGetD t.queues i []).isEmpty | none => false
      | none => false
    k.run ≠ .idle || queued || !k.mx.queue.isEmpty || s.kicked (.core c)
  | .weir key => s.tasks.any fun t => t.state = .running && t.weirKeys.contains key
  | .flume key => s.tasks.any fun t => t.state = .running && t.flumeKeys.contains key

/-- CSRs that are all zero. -/
def Csrs.zero : Csrs := ⟨0, 0, 0, .null, 0, 0, 0, 0, 0, 0⟩

/-- R398: what a released core is scrubbed of. -/
def State.scrubCore (s : State) (c : CoreId) : State :=
  let s := s.setShot (s.shot.zero (tcmLoc c.index 0) 0x80000)
  let old := s.agent (.core c)
  let s := s.setAgent { Core.idle (.core c) with csr := .zero, lfsr := old.lfsr, issued := old.issued }
  { s with tlb := s.tlb.filter fun e => e.buffer ≠ .micro (.core c) }

def State.setOwner (s : State) (o : OwnTarget) (new : BitVec 8) : State :=
  match o with
  | .core c => { s.setAgent { s.agent (.core c) with owner := new } with owners := assocPut s.owners c.index new }
  | .weir k => s.setWeir k { s.weir k with owner := new }
  | .flume k => s.setFlume k { s.flume k with owner := new }

def OwnTarget.isCore : OwnTarget → Bool
  | .core _ => true
  | _ => false

/-- R398: the write, and the value that A receives. -/
def State.writeOwner (s : State) (o : OwnTarget) (new : BitVec 8) : State × Word :=
  let old := s.ownerOf o
  let absent := match o with | .core c => s.absent.contains c | _ => false
  if absent then (s, 0x8000000000000003)
  else if new = old then (s, old.setWidth 64)
  else if old ≠ 0 && new ≠ 0 then (s, 0x8000000000000001)
  else if s.inHand o then (s, 0x8000000000000002)
  else
    let s := s.release 3
    let s := match o with | .core c => if new = 0 then s.scrubCore c else s | _ => s
    (s.setOwner o new, old.setWidth 64)

def execOwnr (x : Pfx) (a b c : RegNum) (s : State) : Out :=
  .next (s.scalarInstr s.onCulvert (!s.onSecurity) x fun s => do
    let s ← s.useG [c, b]
    match ownTarget (s.gint b).toNat with
    | none => trap cILL
    | some o =>
      if 256 ≤ (s.gint c).toNat then trap cILL
      else
        let (s, v) := s.writeOwner o ((s.gint c).setWidth 8)
        return s.setInt a v)

/-! ## SMPC (R413) -/

/-- R407, R413: a value for kind 0. -/
def sampleOk (v : Nat) : Bool :=
  let k := v / 2 % 32
  v < 2 ^ 38 && (8 ≤ k && k ≤ 24 || k = 0 && v % 2 = 0)

/-- R408: a configuration word of a monitor channel. -/
def monitorOk (v : Nat) : Bool :=
  let ev := v % 256
  let en := v / 256 % 2
  v / 512 % 128 = 0 && v / 2 ^ 26 % 64 = 0 && (ev ≤ 10 && (en = 0 || ev ≠ 0 && v / 2 ^ 32 ≠ 0))

/-- R413: SMPL and the seed; the next draw is made under the new value, and a mark in flight stays. -/
def Core.setSample (c : Core) (v : Word) : Core :=
  { c with csr := { c.csr with smpl := v &&& 0x3F }, gap := 0,
           lfsr := if v.extractLsb' 6 32 = 0 then c.lfsr else v.extractLsb' 6 32 }

def execSmpc (x : Pfx) (a b c : RegNum) (s : State) : Out := firmwareOp x s fun s => do
  let s ← s.useG [c, b]
  let where_ := (s.gint b).toNat
  let v := s.gint c
  let die : BitVec 2 := BitVec.ofNat 2 (where_ / 8)
  let n := where_ / 65536
  if 2 ^ 26 ≤ where_ || where_ / 32 % 2048 ≠ 0 || 2 ≤ where_ % 8 || where_ % 8 = 1 && 4 ≤ n then trap cILL
  else if where_ % 8 = 0 then
    if !sampleOk v.toNat then trap cILL
    else
      let k := s.agent (.core ⟨die, BitVec.ofNat 10 n⟩)
      return (s.setAgent (k.setSample v)).setInt a k.csr.smpl
  else if !monitorOk v.toNat then trap cILL
  else
    let d := s.dieAt die
    let old := (vecAt d.monitors n ⟨0, 0, []⟩).config
    return (s.setDie die { d with monitors := vecSet d.monitors n ⟨v, 0, []⟩ }).setInt a old

/-! ## DBGB (R414) -/

/-- A word whose value the manual leaves open. -/
def State.freeWord (s : State) : Word × State :=
  (BitVec.ofNat 64 (natOf ((upFrom s.free 8).map Config.freeByte)), { s with free := s.free + 8 })

def Task.stopState (t : Task) : Nat := if t.state = .stopped || t.stopping then 2 else if t.armed then 1 else 0

/-- R414: the operations. DEDUCED (assumption 119): a stop that a completion has met counts as stopped while a core still
awaits a value (R271), and RESUME then delivers the release. -/
def State.debugTask (s : State) (op : Nat) (t : Option Task) : State × Word :=
  match op, t with
  | 3, none => let (w, s) := s.freeWord; (s, w)
  | _, none => (s, 1)
  | 0, some t =>
    if t.stopState ≠ 0 then (s, 2) else if t.stepWeir.isNone then (s, 3) else (s.setTask { t with armed := true }, 0)
  | 1, some t =>
    if t.state = .stopped then (s.setTask { t with state := .preempted }, 0)
    else if t.stopping then (s.setTask { t with stopping := false }, 0)
    else (s, 2)
  | 2, some t => if t.stopState = 1 then (s.setTask { t with armed := false }, 0) else (s, 2)
  | _, some t => (s, BitVec.ofNat 64 (t.stopState + (if t.stopState = 2 then t.step.toNat * 4 else 0)))

def execDbgb (x : Pfx) (a b : RegNum) (s : State) : Out := firmwareOp x s fun s => do
  let (r, s) ← s.readG b
  let v : Word := r.bits.setWidth 64
  if v.extractLsb' 42 22 ≠ 0 then trap cILL
  else
    let t := (s.task (v.setWidth 8) (v.extractLsb' 8 32)).bind fun t => if t.alive then some t else none
    let (s, w) := s.debugTask (v.toNat / 2 ^ 40) t
    return s.setInt a w

end Sys2Proof.Machine
end

