-- ==== Sys2Proof/Machine/Culvert.lean ====
section
/-! DEFINITION. Culverts: CPY, CPYW, CPYQ, the beats of a copy and its completion (R292 to R306). -/

namespace Sys2Proof.Machine

/-! ## CPY (R294 to R298, R302, R303) -/

/-- R295: the fields of a culvert block and their rules. -/
def copyRules (b : Block) : List (Nat × Bool) :=
  let len := b.field 48 8
  let rows := b.field 56 4
  let flags := b.field 68 4
  [(48, len % 32 ≠ 0 || len < 32 || 2 ^ 32 < len),
   (56, rows = 0 || 2 ^ 32 < rows * len || flags.testBit flagDecrypt && rows ≠ 1),
   (60, rows ≠ 1 && b.field 60 4 % 16 ≠ 0), (64, rows ≠ 1 && b.field 64 4 % 32 ≠ 0), (68, 32 ≤ flags),
   (72, 1024 ≤ b.field 72 4 || !flags.testBit flagDecrypt && b.field 72 4 ≠ 0),
   (76, 4 ≤ b.field 76 4 || !flags.testBit flagRing && b.field 76 4 ≠ 0), (96, b.field 96 32 ≠ 0)]

/-- Rows of an operand: row r at the cursor's offset plus r strides, each `n` bytes. -/
def copyRows (cap : GReg) (role : Nat) (stride : Int) (n align rows : Nat) (r w : Bool) : List Access :=
  ((upFrom 0 rows).map fun (k : Nat) => operand cap role ((cap.offset : Int) + k * stride) n align r w).flatten

/-- R303, R353: the check of a mirror copy. -/
def feedFind (d : BitVec 19) : List (BitVec 19 × BitVec 16) → Option (BitVec 16)
  | [] => none
  | (k, f) :: rest => if k = d then some f else feedFind d rest
def peerOf (p : Place) : Option (BitVec 19) := match p.region with | .peer d => some d | _ => none
def State.mirrorCheck (s : State) (dst : List Place) : R Unit :=
  match dst.head?.bind peerOf with
  | none => trap cFEED 1
  | some d =>
    if !dst.all fun p => peerOf p = some d then trap cFEED 1
    else if s.feed = 0xFFFF then trap cFEED 2
    else match feedFind d s.fabric.feeds with
      | none => trap cFEED 2
      | some f => if f = s.feed then trap cFEED 0 else .ok ()

/-- R302: the channel a DECRYPT command uses, and the state in which its counter has advanced. -/
def State.decryptCheck (s : State) (ch : Nat) (aad : Nat) : R State :=
  let c := BitVec.ofNat 64 aad
  match assocGet s.sec.channels ch with
  | none => trap cINTEG 1
  | some k =>
    if k.context ≠ s.core.owner then trap cINTEG 1
    else if k.halted then trap cINTEG 2
    else if c ≠ k.next then trap cINTEG 3
    else .ok { s with sec := { s.sec with channels := assocPut s.sec.channels ch { k with next := c + 1 } } }

/-- R302: the first 16 bytes of a DECRYPT source, read at acceptance; where they lie with the host or a peer, the
instruction waits for them with its block. -/
def State.readAad (s : State) (blk : Block) (p : Place) : R (State × Nat) :=
  if isAway p.loc then
    match s.core.wait with
    | some (.aad _ r) =>
      match r.answer with
      | none => .error (.hold s (.aad blk r))
      | some (.returned bytes) => .ok (s, natOf bytes)
      | some o => match r.fault o with | some t => .error (.trap t) | none => .error (.hold s (.aad blk r))
    | _ => do
      s.issueAway p
      let s := s.beforeAccess p 16
      .error (.hold s (.aad blk (s.request p 16 none)))
  else if s.dataBad p 16 then trap cINTEG 0 (p.va.setWidth 64)
  else let s := s.beforeAccess p 16; .ok (s, natOf (s.placeBytes p 16))

/-- R296, R302: DECRYPT at acceptance: the counter that the source begins with. -/
def State.acceptDecrypt (s : State) (blk : Block) (src : List Place) : R (State × Nat) :=
  match (blk.field 68 4).testBit flagDecrypt, src with
  | true, p :: _ => do
    let (s, aad) ← s.readAad blk p
    let s ← s.decryptCheck (blk.field 72 4) aad
    return (s, aad)
  | _, _ => .ok (s, 0)

/-- R294 to R298, R302, R303: acceptance of a copy from the block on, which its culvert receives under release. -/
def State.acceptCopy (s : State) (o : Ordering) (a c : RegNum) (blk : Block) (i : EngineId) : R State := do
  let s := s.release 3
  fieldCheck (copyRules blk)
  let len := blk.field 48 8
  let rows := blk.field 56 4
  let flags := blk.field 68 4
  let ss := if rows = 1 then 0 else signedField (blk.field 60 4) 32
  let ds := if rows = 1 then 0 else signedField (blk.field 64 4) 32
  let extra := if flags.testBit flagDecrypt then 32 else 0
  let src := blk.cap 0
  let dst := blk.cap 16
  let (s, ps) ← s.checkOperand false (copyRows src 1 ss (len + extra) 16 rows true false)
  let (s, qs) ← s.checkOperand false (copyRows dst 2 ds len 32 rows false true)
  let (s, ms) ← s.checkMailbox (blk.cap 32)
  if flags.testBit flagMirror then s.mirrorCheck qs
  let q : BitVec 2 := BitVec.ofNat 2 (blk.field 76 4)
  if flags.testBit flagRing && (s.core.mx.ring q).isNone then mfmt 5 q.toNat
  let (s, aad) ← s.acceptDecrypt blk ps
  let cmd := s.newCmd .copy src dst (blk.cap 32) (blk.field 88 8) (holdPages [] (ps ++ qs ++ ms))
  s.acceptCmd i { cmd with length := len, rows := rows, sstride := ss, dstride := ds, flags := BitVec.ofNat 32 flags,
                           channel := blk.field 72 4, ring := q, aad := BitVec.ofNat 128 aad, slots := holdSlots [] ps }
    a o.timed (s.gint c) (BitVec.ofNat 64 (blk.field 80 8))

def execCpy (x : Pfx) (o : Ordering) (a b c : RegNum) (s : State) : Out := itemOp x s fun s => do
  match s.core.wait with
  | some (.engine t (some k)) => s.startCmd t k a
  | _ =>
    let s ← if o.timed then s.useG [c] else .ok s
    let (s, blk) ← s.readBlock b
    let i : EngineId := .culvert (culvertOf (AgentId.clusterOf s.core.agent) (blk.field 68 4 / 16 % 2))
    s.engineRoom i blk
    s.acceptCopy o a c blk i

/-! ## CPYW, CPYQ (R305, R306) -/

/-- R131, R305: a plain load each time, the last of which acquires at the mailbox's scope. -/
def execCpyw (x : Pfx) (a b : RegNum) (s : State) : Out := itemOp x s fun s => do
  let s ← s.useG [a, b]
  let cap := s.g a
  let (s, bytes, _) ← s.loadMem Ordering.plain (memAccess cap a cap.cursor 8).load
  if (s.gint b).toNat ≤ natOf bytes then return s else .error (.hold s (.mailbox cap (s.gint b)))

/-- R306: the word of the die's culvert code window. -/
def execCpyq (x : Pfx) (a b : RegNum) (s : State) : Out := itemOp x s fun s => do
  let s ← s.useG [b]
  let v := s.gint b
  if v.getLsbD 63 then
    if v.extractLsb' 16 47 ≠ 0 then trap cILL
    else if v.extractLsb' 0 3 ≠ 0 then trap cALIGN
    else return s.setInt a (BitVec.ofNat 64 (s.readNat (windowLoc s.core.agent.die.toNat (v.extractLsb' 0 16).toNat) 8))
  else return s.setInt a (s.ticketStatus v)

/-! ## Beats (R297, R300, R302) -/

def Cmd.total (c : Cmd) : Nat := c.rows * c.length / 32
/-- Source and destination of beat `k`: ascending rows, then ascending addresses. -/
def Cmd.rowAddr (cap : GReg) (stride : Int) (length k : Nat) : Addr :=
  cap.cursor + BitVec.ofInt 48 ((k / (length / 32) : Nat) * stride) + BitVec.ofNat 48 (k % (length / 32) * 32)

/-- R302: the IV: the channel number as 32 bits, then the counter. -/
def Cmd.iv (c : Cmd) : Nat := c.channel % 2 ^ 32 + (c.aad.toNat % 2 ^ 64) * 2 ^ 32
def State.channelKey (s : State) (c : Cmd) : Nat := match assocGet s.sec.channels c.channel with | some k => k.key.toNat | none => 0

/-- R302: a beat decrypted, and the hash with its two blocks of ciphertext. -/
def State.openBeat (s : State) (c : Cmd) (bytes : List Byte) : List Byte × BitVec 128 :=
  let key := s.channelKey c
  let h := aes256 key 0
  let y := if c.beats = 0 then ghashStep h 0 c.aad.toNat else c.ghash.toNat
  let c0 := natOf (bytes.take 16)
  let c1 := natOf (bytes.drop 16)
  let p0 := c0 ^^^ gcmStream key c.iv (2 * c.beats)
  let p1 := c1 ^^^ gcmStream key c.iv (2 * c.beats + 1)
  (bytesOf 16 p0 ++ bytesOf 16 p1, BitVec.ofNat 128 (ghashStep h (ghashStep h y c0) c1))

/-- The two halves of a source beat of 32 bytes, which lies at a multiple of 16. -/
def beatParts (ea : Addr) : List (Addr × Nat) := [(ea, 16), (ea + 16, 16)]

/-- A destination beat is written; the first one, at its home before the entry that tells of it (R410). -/
def State.putBeat (s : State) (i : EngineId) (c : Cmd) (dst : Addr) (out : List Byte) : State :=
  let (s, _) := s.asCmd i c fun s => (s.cmdWrite c dst out, ())
  if c.beats = 0 then (s.cmdDrain i c).traceCopy 4 c i.die else s

/-- The addresses of the next beat's source and destination. -/
def Cmd.beatSrc (c : Cmd) : Addr := Cmd.rowAddr c.src c.sstride c.length c.beats + (if c.decrypts then 16 else 0)
def Cmd.beatDst (c : Cmd) : Addr := Cmd.rowAddr c.dst c.dstride c.length c.beats
/-- What a beat reaches. -/
def Cmd.beatReach (c : Cmd) : List Addr := [c.beatSrc, c.beatSrc + 16, c.beatDst]

/-- One beat: read, checked, written. -/
def State.copyBeat (s : State) (i : EngineId) (c : Cmd) : State :=
  let src := c.beatSrc
  let dst := c.beatDst
  if s.cmdBarred i c dst || !c.mbx.isNone && s.cmdLost i c c.mbx.cursor then s.cmdRefused i c
  else if s.cmdHeld i c c.beatReach then s
  else match s.cmdFetch i c (beatParts src) with
  | (s, .refused) => s.cmdRefused i c
  | (s, .waits rs) => s.cmdUpdate i { c with state := .running, requests := rs }
  | (s, .got [some x, some y]) =>
    let bytes := x ++ y
    let (out, hash) := if c.decrypts then s.openBeat c bytes else (bytes, c.ghash)
    (s.putBeat i c dst out).cmdUpdate i
      { c with state := .running, beats := c.beats + 1, ghash := hash, requests := [],
               wrote := if c.flags.getLsbD flagVerify then c.wrote ++ out else c.wrote }
  | (s, .got _) => s.cmdFault i c src 0

def execCulvertBeat (u : CulvertId) (s : State) : Out :=
  match s.headCmd (.culvert u) with
  | some c => if c.beats < c.total && !s.cmdStopped (.culvert u) c then .next (s.copyBeat (.culvert u) c) else .next s
  | none => .next s

/-! ## Completion (R299, R302) -/

/-- R302: every destination beat becomes zero. -/
def State.zeroBeats (s : State) (c : Cmd) : Nat → State
  | 0 => s
  | n + 1 => State.zeroBeats (s.cmdWrite c (Cmd.rowAddr c.dst c.dstride c.length n) (List.replicate 32 0)) c n

def State.haltChannel (s : State) (ch : Nat) : State :=
  match assocGet s.sec.channels ch with
  | some k => { s with sec := { s.sec with channels := assocPut s.sec.channels ch { k with halted := true } } }
  | none => s

/-- R302: the tag that follows the ciphertext does not hold, or the channel is halted. -/
def State.tagFails (s : State) (c : Cmd) (tag : Option (List Byte)) : Bool :=
  let key := s.channelKey c
  (match assocGet s.sec.channels c.channel with | some k => k.halted | none => true)
    || (match tag with
        | some t => gcmTag key c.iv (aes256 key 0) c.ghash.toNat c.length ≠ natOf t
        | none => true)

/-- What is read once the last beat is written: the tag of a DECRYPT source, and every destination beat for VERIFY. -/
def Cmd.endParts (c : Cmd) : List (Addr × Nat) :=
  (if c.decrypts then [(c.src.cursor + BitVec.ofNat 48 (16 + c.length), 16)] else [])
    ++ (if c.flags.getLsbD flagVerify then (upFrom 0 c.total).flatMap fun k => beatParts (Cmd.rowAddr c.dst c.dstride c.length k) else [])

/-- R299 step 1: the first destination beat, of their halves from `k` on, that does not hold what was written. -/
def Cmd.mismatch (c : Cmd) (k : Nat) : List (Option (List Byte)) → Option Addr
  | [] => none
  | x :: rest =>
    if x = some ((c.wrote.drop (16 * k)).take 16) then Cmd.mismatch c (k + 1) rest
    else some (Cmd.rowAddr c.dst c.dstride c.length (k / 2))

/-- R132: MPROD by a culvert, after every earlier access of it. -/
def State.culvertProduce (s : State) (i : EngineId) (c : Cmd) : State :=
  ((s.cmdSettled i c).releaseBy (s.agent (EngineId.agent i)) 1).produceRing c.issuer c.ring

/-- R299 steps 2 and 3: MPROD, which waits for room in the ring, then the mailbox. DEDUCED (assumption 117): where R322 lets
MPROD raise MFMT or OWNER, the culvert's program has faulted (R293). -/
def State.copyProduce (s : State) (i : EngineId) (c : Cmd) : State :=
  let finish := fun (s : State) => (s.cmdMailbox i c).cmdEnd i { c with state := .complete }
  if c.flags.getLsbD flagRing then
    let k := s.agent c.issuer
    match k.mx.ring c.ring with
    | some r =>
      if k.run ≠ .item || k.owner ≠ c.context then s.engineFault i
      else if r.full then s
      else finish (s.culvertProduce i c)
    | none => s.engineFault i
  else finish s

/-- R302: the tag does not hold: the destination is zeroed, the channel halted. -/
def State.tagFault (s : State) (i : EngineId) (c : Cmd) : State :=
  let (s, _) := s.asCmd i c fun s => (s.zeroBeats c c.total, ())
  (s.haltChannel c.channel).cmdFault i c c.src.cursor 4

/-- R299: VERIFY has found the destination as it was written: the entry of the last byte (R410), then the rest. -/
def State.copyVerified (s : State) (i : EngineId) (c : Cmd) (parts : List (Option (List Byte))) : State :=
  match c.mismatch 0 parts with
  | some a => s.cmdFault i c a 0
  | none =>
    let s := s.traceEnd { c with state := .complete } i.die
    let c := { c with ended := true, requests := [] }
    (s.cmdUpdate i c).copyProduce i c

/-- What the completion of a copy reaches. -/
def Cmd.endReach (c : Cmd) : List Addr := (if c.mbx.isNone then [] else [c.mbx.cursor]) ++ (if c.ended then [] else c.endParts.map (·.1))

/-- R299, R302: what follows the last beat. -/
def State.copyEnd (s : State) (i : EngineId) (c : Cmd) : State :=
  if !c.mbx.isNone && s.cmdBarred i c c.mbx.cursor then s.cmdRefused i c
  else if s.cmdHeld i c c.endReach then s
  else if c.ended then s.copyProduce i c
  else match (s.cmdSettled i c).cmdFetch i c c.endParts with
  | (s, .refused) => s.cmdRefused i c
  | (s, .waits rs) => s.cmdUpdate i { c with requests := rs }
  | (s, .got parts) =>
    if c.decrypts then
      if s.tagFails c (parts.headD none) then s.tagFault i c else s.copyVerified i c (parts.drop 1)
    else s.copyVerified i c parts

def execCulvertCompletion (u : CulvertId) (s : State) : Out :=
  match s.headCmd (.culvert u) with
  | some c => if c.beats < c.total || s.cmdStopped (.culvert u) c then .next s else .next (s.copyEnd (.culvert u) c)
  | none => .next s

/-- R293: the culvert's program faults. -/
def execCulvertFault (u : CulvertId) (s : State) : Out := .next (s.engineFault (.culvert u))

end Sys2Proof.Machine
end

