-- ==== Sys2Proof/Machine/Page0Mem.lean ====
section
/-! DEFINITION. Page 0: loads, stores, atomics, timed accesses, and the sump moves (R85 to R94). -/

namespace Sys2Proof.Machine

/-! ## Loads and stores (R85 to R87) -/

/-- Bytes of a size field. -/
def sizeOf2 (m : BitVec 2) : Nat := 2 ^ m.toNat

def loadBody (ext : Nat → Nat → Word) (o : Ordering) (n : Nat) (a : RegNum) (acc : GReg → State → Access) (b : RegNum)
    (s : State) : R State := do
  let (cap, s) ← s.readG b
  let (s, bytes, _) ← s.loadMem o (acc cap s).load
  return s.setInt a (ext n (natOf bytes))
def execLd (x : Pfx) (o : Ordering) (size : BitVec 2) (a b : RegNum) (off : Word) (s : State) : Out := scalarOp x s
  (loadBody sextBytes o (sizeOf2 size) a (fun cap _ => memAccess cap b (eaOf cap off) (sizeOf2 size)) b)
def execLdz (x : Pfx) (o : Ordering) (size : BitVec 2) (a b : RegNum) (off : Word) (s : State) : Out := scalarOp x s
  (loadBody zextBytes o (sizeOf2 size) a (fun cap _ => memAccess cap b (eaOf cap off) (sizeOf2 size)) b)

def storeBody (o : Ordering) (n : Nat) (a : RegNum) (acc : GReg → State → Access) (b : RegNum) (s : State) : R State := do
  let s ← s.useG [b, a]
  s.storeMem o (acc (s.g b) s).store (bytesOf n (s.gint a).toNat) false
def execSt (x : Pfx) (o : Ordering) (size : BitVec 2) (a b : RegNum) (off : Word) (s : State) : Out := scalarOp x s
  (storeBody o (sizeOf2 size) a (fun cap _ => memAccess cap b (eaOf cap off) (sizeOf2 size)) b)

/-- R86: 16 bytes; the tag is kept under K alone. -/
def loadCapValue (cap : GReg) (bytes : List Byte) (tag : Bool) : GReg := regOf bytes (tag && cap.permK)
def execLdk (x : Pfx) (o : Ordering) (a b : RegNum) (off : Word) (s : State) : Out := scalarOp x s fun s => do
  let (cap, s) ← s.readG b
  let (s, bytes, tag) ← s.loadMem o (memAccess cap b (eaOf cap off) 16).load
  return s.setG a (loadCapValue cap bytes tag)
def execStk (x : Pfx) (o : Ordering) (a b : RegNum) (off : Word) (s : State) : Out := scalarOp x s fun s => do
  let s ← s.useG [b, a]
  let v := s.g a
  s.storeMem o ((memAccess (s.g b) b (eaOf (s.g b) off) 16).storeCap v.tag) v.bytes v.tag

/-- R87. -/
def execLdx (x : Pfx) (o : Ordering) (size : BitVec 2) (a b c : RegNum) (off : Word) (s : State) : Out := scalarOp x s fun s => do
  let s ← s.useG [b, c]
  loadBody sextBytes o (sizeOf2 size) a (fun cap s => indexAccess cap b (s.gint c) (sizeOf2 size) off) b s
def execStx (x : Pfx) (o : Ordering) (size : BitVec 2) (a b c : RegNum) (off : Word) (s : State) : Out := scalarOp x s fun s => do
  let s ← s.useG [b, c]
  storeBody o (sizeOf2 size) a (fun cap s => indexAccess cap b (s.gint c) (sizeOf2 size) off) b s

/-! ## Atomics (R90 to R93) -/

/-- R90: 4 or 8 bytes at ea; the old value, sign-extended, goes to A. -/
def atomicBody (op : BitVec 3) (o : Ordering) (wide : Bool) (a b c : RegNum) (off : Word) (s : State) : R State := do
  let s ← s.useG (if op = 7 then [b, c, a] else [b, c])
  let n := if wide then 8 else 4
  let cap := s.g b
  let (s, old) ← s.atomic o (fun s => s.check (memAccess cap b (eaOf cap off) n).atomic) op n
    ((s.gint c).toNat % 2 ^ (8 * n)) ((s.gint a).toNat % 2 ^ (8 * n))
  return s.setInt a (sextBytes n old)
def execAadd (x : Pfx) (o : Ordering) (wide : Bool) (a b c : RegNum) (off : Word) (s : State) : Out := scalarOp x s (atomicBody 0 o wide a b c off)
def execAand (x : Pfx) (o : Ordering) (wide : Bool) (a b c : RegNum) (off : Word) (s : State) : Out := scalarOp x s (atomicBody 1 o wide a b c off)
def execAor (x : Pfx) (o : Ordering) (wide : Bool) (a b c : RegNum) (off : Word) (s : State) : Out := scalarOp x s (atomicBody 2 o wide a b c off)
def execAxor (x : Pfx) (o : Ordering) (wide : Bool) (a b c : RegNum) (off : Word) (s : State) : Out := scalarOp x s (atomicBody 3 o wide a b c off)
def execAmin (x : Pfx) (o : Ordering) (wide : Bool) (a b c : RegNum) (off : Word) (s : State) : Out := scalarOp x s (atomicBody 4 o wide a b c off)
def execAmax (x : Pfx) (o : Ordering) (wide : Bool) (a b c : RegNum) (off : Word) (s : State) : Out := scalarOp x s (atomicBody 5 o wide a b c off)
def execAswp (x : Pfx) (o : Ordering) (wide : Bool) (a b c : RegNum) (off : Word) (s : State) : Out := scalarOp x s (atomicBody 6 o wide a b c off)
def execAcas (x : Pfx) (o : Ordering) (wide : Bool) (a b c : RegNum) (off : Word) (s : State) : Out := scalarOp x s (atomicBody 7 o wide a b c off)

/-! ## The timed forms (R89, R216, R220) -/

/-- R89: bytes of a timed form's size: 16 with the tag for 0b100. -/
def timedSize (size : BitVec 3) : Nat := if size = 4 then 16 else 2 ^ (size.toNat % 4)

def execStat (x : Pfx) (o : Ordering) (size : BitVec 3) (a b c : RegNum) (off : Word) (s : State) : Out := scalarOp x s fun s => do
  let s ← s.useG [b, a, c]
  let n := timedSize size
  let v := s.g a
  let cap := s.g b
  let tag := size = 4 && v.tag
  let (s, p) ← s.check ((memAccess cap b (eaOf cap off) n).storeCap tag)
  let t := s.gint c
  match s.feasible p t with
  | .error e => .error (.trap e)
  | .ok lat =>
    let s := (s.orderBefore o).beforeAccess p n
    return ((s.acceptTimed p (bytesOf n v.bits.toNat) tag t 0 lat).issuedOne).acceptedAfter o p

/-- R220: performed once the home's zone has reached T. -/
def execLdnb (x : Pfx) (o : Ordering) (size : BitVec 3) (a b c : RegNum) (off : Word) (s : State) : Out := scalarOp x s fun s => do
  let s ← s.useG [b, c]
  let n := timedSize size
  let cap := s.g b
  let (s, xs) ← s.loadsAfter o (s.gint c) fun s => (s.check (memAccess cap b (eaOf cap off) n).load).map fun (s, p) => (s, [(p, n)])
  let (bytes, tag) := xs.headD ([], false)
  return if size = 4 then s.setG a (loadCapValue cap bytes tag) else s.setInt a (sextBytes n (natOf bytes))

/-! ## The sump moves (R94) -/

/-- The registers of an inclusive range. -/
def regRange (f l : RegNum) : List RegNum := (upFrom f.toNat (l.toNat + 1 - f.toNat)).map (BitVec.ofNat 5)
/-- R94: ranges that raise ILL. -/
def rangeIll (f l : RegNum) : Bool := l.toNat < f.toNat || f.toNat ≤ 29 && 29 ≤ l.toNat

/-- The slots of a range from an address up, 16 bytes each. -/
def slotAccesses (cap : GReg) (at_ : Addr) (mk : GReg → Access → Access) : List GReg → List Access
  | [] => []
  | v :: rest => mk v (memAccess cap 29 at_ 16) :: slotAccesses cap (at_ + 16) mk rest

def storeSlots (s : State) : List Place → List GReg → R State
  | p :: ps, v :: vs => do
    s.issueStore p
    storeSlots (s.store p v.bytes v.tag) ps vs
  | _, _ => .ok s
/-- POPS writes its registers in order. -/
def loadSlots (cap : GReg) (s : State) : List (List Byte × Bool) → List RegNum → State
  | x :: xs, r :: rs => loadSlots cap (s.setG r (loadCapValue cap x.1 x.2)) xs rs
  | _, _ => s

def execPushs (x : Pfx) (f l : RegNum) (s : State) : Out := .next (s.scalarInstr (rangeIll f l) false x fun s => do
  let rs := regRange f l
  let s ← s.useG (29 :: rs)
  let sp := s.g 29
  let new := sp.cursor - BitVec.ofNat 48 (16 * rs.length)
  let vs := rs.map s.g
  let (s, ps) ← s.checkEach (slotAccesses sp new (fun v a => a.storeCap v.tag) vs)
  let s ← storeSlots s ps vs
  return s.setG 29 (sp.setCursor new))
def execPops (x : Pfx) (f l : RegNum) (s : State) : Out := .next (s.scalarInstr (rangeIll f l) false x fun s => do
  let rs := regRange f l
  let s ← s.useG [29]
  let sp := s.g 29
  let (s, xs) ← s.loads Ordering.plain fun s =>
    (s.checkEach (slotAccesses sp sp.cursor (fun _ a => a.load) (rs.map fun _ => .null))).map fun (s, ps) =>
      (s, ps.map fun p => (p, 16))
  return (loadSlots sp s xs rs).setG 29 (sp.setCursor (sp.cursor + BitVec.ofNat 48 (16 * rs.length))))

end Sys2Proof.Machine
end

