-- ==== Sys2Proof/Machine/Sampling.lean ====
section
/-! DEFINITION. Tagged sampling and monitor channels: which instruction is marked, what counts, and what is noted as an
instruction leaves the pipeline (R405 to R409, R413). None of it changes an architectural result. -/

namespace Sys2Proof.Machine

/-! ## The instruction in the pipeline -/

/-- The instruction that the agent in focus begins or executes. -/
def State.sampled (s : State) : Sampled := ⟨s.pc, s.core.owner, s.core.ident.item, s.core.ident.task, s.core.ident.step⟩

/-- What the prefixes and the base parcel of an instruction say, where they form a chain. -/
def rawOf (qs : List Parcel) : Option Raw := match scan 4 .empty qs with | .ok w => some w | .error _ => none
/-- R406: OPCODE. DESIGN CHOICE (assumption 82): 0 for an instruction that has not been fetched or breaks the rules of prefixes. -/
def opcodeOf (qs : List Parcel) : BitVec 9 := match rawOf qs with | some w => w.page ++ w.op | none => 0

/-- R35: the instruction is predicated off as a whole. -/
def State.predicatedOff (s : State) (qs : List Parcel) : Bool :=
  match rawOf qs with
  | some w => w.page ≠ 2 && w.page ≠ 3 && !s.predicate w.pfx
  | none => false

/-- Inherited registers that an instruction has resolved: by a fetch, or by writing them (R241). -/
def Core.resolvedBy (before after : Core) : Nat :=
  let gone := fun (w : Nat) (x y : Nat) => ((upFrom 0 w).filter fun i => x.testBit i && !y.testBit i).length
  gone 32 before.gInh.toNat after.gInh.toNat + gone 32 before.vInh.toNat after.vInh.toNat + gone 16 before.pInh.toNat after.pInh.toNat
/-- Granules of the region that have become the item's own (R242). -/
def Core.takenBy (before after : Core) : Nat := after.own.length - before.own.length

/-! ## Tagged sampling (R406) -/

/-- R406, R407: while sampling is on, each instruction that begins counts down the distance that the LFSR has drawn; the one
that it falls on is marked, unless another is in flight. DESIGN CHOICE (assumption 82): a draw is the LFSR's next state
reduced to 1 to 2^(K+1) - 1, whose mean is 2^K. -/
def Core.countDown (c : Core) (i : Sampled) : Core :=
  if !c.csr.smpl.getLsbD 0 || c.wait.isSome then c
  else
    let l := Config.lfsrNext c.lfsr
    let k := c.csr.smpl.toNat / 2 % 32
    let d := if c.gap = 0 then { c with lfsr := l, gap := 1 + l.toNat % (2 ^ (k + 1) - 1) } else c
    { d with gap := d.gap - 1, mark := if d.gap = 1 && d.mark.isNone then some ⟨i, 0, false, false, none⟩ else d.mark }
def State.beginInstr (s : State) : State := { s with core := s.core.countDown s.sampled }

/-- An instruction has been executed so far: its parcels, as what it stands there, and whether it has ended. -/
structure Progress where
  parcels : List Parcel
  off     : Bool
  faulted : Bool
  ended   : Bool
  deriving DecidableEq, Repr

/-- R406: what the marked instruction has done, and how it has left the pipeline. -/
def Mark.goOn (p : Progress) (before after : Core) (m : Mark) : Mark :=
  let m := { m with opcode := opcodeOf p.parcels, fetched := m.fetched || before.resolvedBy after ≠ 0,
                    copied := m.copied || before.takenBy after ≠ 0 }
  if p.faulted then m.gone 1 else if !p.ended then m else if p.off then m.gone 2 else m.gone 0

/-! ## Monitor channels (R408, R409) -/

def Instr.enqueues : Instr → Bool
  | .mma _ _ _ _ _ _ _ _ _ _ => true
  | .mmas _ _ _ _ _ _ _ _ _ => true
  | .mzero _ _ => true
  | .mdrain _ _ _ _ => true
  | _ => false
def Instr.blocks : Instr → Bool
  | .waitb _ _ => true
  | .waitc _ _ _ => true
  | .twait _ _ => true
  | .cpyw _ _ _ => true
  | _ => false

/-- R408: how often an instruction has caused an event. DESIGN CHOICE (assumption 82): what the pipeline, the caches and time
decide is a draw, within what the instruction has done. -/
def eventsOf (event : Nat) (p : Progress) (before after : Core) (draw : Nat) : Nat :=
  let i : Option Instr := match decode p.parcels with | .ok i => some i | .error _ => none
  let done := p.ended && !p.faulted
  match event with
  | 2 => if done then 1 else 0
  | 7 => draw % (before.resolvedBy after + 1)
  | 8 => before.takenBy after + draw
  | 9 => if done && !p.off && i.any Instr.enqueues then 1 else 0
  | 10 => if i.any Instr.blocks then draw else 0
  | _ => draw

/-- A channel counts on a core. -/
def Monitor.watches (core : BitVec 10) (m : Monitor) : Bool := m.config.getLsbD 8 && m.config.extractLsb' 16 10 = core
/-- R409: the count goes up; each time it reaches PERIOD it starts again, and an entry is due where the core runs an item of a
context. -/
def Monitor.add (x : Option Sampled) (n : Nat) (m : Monitor) : Monitor :=
  let period := m.config.toNat / 2 ^ 32
  let total := m.count + n
  if total < period then { m with count := total }
  else match x with
    | some x => { m with count := total % period, spills := m.spills ++ List.replicate (total / period) x }
    | none => { m with count := 0 }

/-- R409: the events of an instruction of a core are counted by its die's channels. -/
def State.countEvents (s : State) (c : CoreId) (p : Progress) (i : Sampled) (before after : Core) : State :=
  let d := s.dieAt c.die
  if !(d.monitors.toList.any (Monitor.watches c.core)) then s
  else
    let who := if before.run = .item && i.owner ≠ 0 then some i else none
    let one := fun (k : Fin 4) =>
      let m := d.monitors[k]
      if m.watches c.core then m.add who (eventsOf (m.config.toNat % 256) p before after (Config.eventAmount (s.free + k)).toNat) else m
    { s.setDie c.die { d with monitors := Vector.ofFn one } with free := s.free + 4 }

/-! ## As an instruction leaves the pipeline -/

/-- What sampling and monitors note of an instruction that the agent in focus of `s` has executed, or goes on waiting in: none
of it while an access that has been issued has not completed (R197). -/
def State.observe (s : State) (parcels : List Parcel) (t : State) : State :=
  let c := t.agent s.core.agent
  let p : Progress := ⟨parcels, s.predicatedOff parcels, c.last ≠ s.core.last, c.wait.isNone⟩
  let t := match c.mark with
    | some m => t.setAgent { c with mark := some (m.goOn p s.core c) }
    | none => t
  match s.core.agent with
  | .core k => if c.issuedWait then t else t.countEvents k p s.sampled s.core c
  | _ => t
def Out.observed (s : State) (parcels : List Parcel) : Out → Out
  | .next t => .next (s.observe parcels t)
  | o => o

/-- R138, R406: an imprecise fault abandons the instruction that waits, a marked one too. -/
def State.abandonMark (s : State) : State := { s with core := { s.core with mark := s.core.mark.map (Mark.gone 3) } }

end Sys2Proof.Machine
end

