-- ==== Sys2Proof/Machine/Events.lean ====
section
/-! DEFINITION. The steps of the cores' surroundings: faults taken, walks, accesses performed at their homes, timed
stores, and waits that end (R123, R130, R138, R147, R217 to R224, R269, R277, R288, R305). -/

namespace Sys2Proof.Machine

/-! ## Waits that end -/

/-- A step of the surroundings takes no time: what an instruction does within it happens at its instant. -/
def State.atInstant (s : State) (f : State → Out) : Out :=
  match f { s with still := true } with
  | .next t => .next { t with still := false }
  | o => o

/-- R138: a pending imprecise fault can be taken: it ends a wait, and comes before the instruction at the boundary; an
access that has been issued completes first (R136, R197). -/
def Core.takesPending (c : Core) : Bool := !c.pending.isEmpty && !c.handler && !c.issuedWait

/-- An agent that waits comes into focus; the instruction that it waits in is executed again where `f` names it, unless
a pending fault ends the wait first. -/
def State.wake (s : State) (a : AgentId) (f : Instr → Option (State → Out)) : Out :=
  let t := s.focus a
  if t.core.wait.isNone || t.core.takesPending then .next t
  else
    match t.fetchInstr with
    | .ok (t, i) => match f i with | some g => Out.observed t t.core.ir (t.atInstant g) | none => .next t
    | .error _ => .next t

def execTwaitExpiry (c : AgentId) (s : State) : Out := s.wake c fun i => match i with
  | .twait x a => some (execTwait x a)
  | _ => none

def execWaitcSatisfied (c : AgentId) (s : State) : Out := s.wake c fun i => match i with
  | .waitc x a b => some (execWaitc x a b)
  | _ => none

def execCpywSatisfied (c : AgentId) (s : State) : Out := s.wake c fun i => match i with
  | .cpyw x a b => some (execCpyw x a b)
  | _ => none

/-- R145: the step is itself the event for the core (assumption 43). -/
def execWfiWake (c : AgentId) (s : State) : Out := s.wake c fun i => match i with
  | .wfi x => some (wfiEnds x)
  | _ => none

def execNotBeforeLoadPerform (c : AgentId) (s : State) : Out := s.wake c fun i => match i with
  | .ldnb x o size a b r off => some (execLdnb x o size a b r off)
  | .vldnb x o w a b r off => some (execVldnb x o w a b r off)
  | _ => none

/-- R224: the six timed commands. -/
def execTimedEngineStart (c : AgentId) (s : State) : Out := s.wake c fun i => match i with
  | .mma x o acc ra rb ka kb ta tb r => some (execMma x o acc ra rb ka kb ta tb r)
  | .mmas x o acc ra rb rm ka kb r => some (execMmas x o acc ra rb rm ka kb r)
  | .cpy x o a b r => some (execCpy x o a b r)
  | .xgth x o a b r => some (execXgth x o a b r)
  | .xred x o a b r => some (execXred x o a b r)
  | .xcvt x o a b r => some (execXcvt x o a b r)
  | _ => none

/-- R277, R282: the superstep count arrives with the broadcast, and a WAITB returns. -/
def execWeirReleaseBroadcast (c : CoreId) (s : State) : Out :=
  let s := s.focus (.core c)
  let s := match s.ownTask with
    | some t => if t.stopping then s else { s with core := { s.core with ident := { s.core.ident with step := t.step } } }
    | none => s
  s.wake (.core c) fun i => match i with
    | .waitb x b => some (execWaitb x b)
    | _ => none

def execFlumwReturn (c : CoreId) (s : State) : Out := s.wake (.core c) fun i => match i with
  | .flumw x a b r => some (execFlumw x a b r)
  | _ => none

/-! ## Faults, walks and items -/

/-- R138: the oldest pending fault is taken at the boundary, unless the handler is active. -/
def execImpreciseFaultTake (c : AgentId) (s : State) : Out :=
  let s := s.focus c
  if s.core.takesPending then .next s.abandonMark.takePending.done else .next s

/-- R147, R148: a walk for a core; only a successful one with no other mapping of the page fills the buffers. -/
def State.walkFill (s : State) (c : CoreId) (context : BitVec 8) (va : Nat) : State :=
  match assocGet s.contexts context.toNat, s.tlbLookup context va (buffersOf (.core c)) with
  | some k, none =>
    match s.mapOf k va with
    | .error _ => s
    | .ok l => if !inWindow va && (aliasFind l va s.tlb).isSome then s else s.tlbFill (.core c) context (l.pageOf va) l
  | _, _ => s
def execPageWalk (c : CoreId) (context : BitVec 8) (va : Addr) (s : State) : Out := .next (s.walkFill c context va.toNat)

/-- R238, R247: the next item of an idle core's slot starts. -/
def execItemStart (c : CoreId) (s : State) : Out :=
  let s := s.focus (.core c)
  if s.core.run = .idle then .next (s.startNext c) else .next s

/-! ## Accesses at their homes (R122 to R125, R130) -/

/-- Write number `k` of those on their way is performed, after the earlier ones that it follows; its home may refuse it (R361). -/
def execHomeAccessPerform (k : Nat) (s : State) : Out :=
  match listAt s.flights k with
  | none => .next s
  | some f =>
    let r := splitDue (fun _ => false) [f] (s.flights.take k)
    .next (s.performDue r.1 (r.2 ++ s.flights.drop (k + 1)))

/-- R130: the agent of a slot of the frame: a core of the cluster, or one of its culverts. -/
def slotAgent (k slot : Nat) : AgentId :=
  if slot < 8 then .core (coreOf (BitVec.ofNat 2 (k / 128)) (k % 128) slot) else .culvert (culvertOf k (slot - 8))
/-- The slot of an agent. -/
def slotOf : AgentId → Option Nat
  | .core c => some c.inCluster
  | .culvert u => some (8 + u.index.toNat)
  | _ => none

/-- R130: an atomic that waits for its slot reads and writes; its agent receives the old value. The bank refuses one of a
target that it receives after the freeze instant (R361). -/
def State.rmwSlot (s : State) (a : AgentId) : State :=
  let c := s.agent a
  match c.wait with
  | some (.rmw loc va wide op arg cmp none) =>
    if s.refusesAt c.owner c.ident.task loc va then s
    else
    let n := if wide then 8 else 4
    let old := s.readNat loc n
    let s := match atomicNew op n old arg.toNat cmp.toNat with
      | some v =>
        s.perform { loc := loc, bytes := bytesOf n v, cap := false, key := none, colour := none, agent := a, ticket := 0,
                    origin := c.origin, fn := 0, port := none, va := va, pc := c.pcc.cursor }
      | none => s
    let c := s.agent a
    s.setAgent { c with wait := some (.rmw loc va wide op arg cmp (some (BitVec.ofNat 64 old))) }
  | _ => s

/-- R130: the slots of a cluster's frame from the next one on, in order; a slot with nothing to send stays idle. -/
def State.rmwFrame (s : State) (k slot : Nat) : Nat → State
  | 0 => s
  | n + 1 => State.rmwFrame (s.rmwSlot (slotAgent k slot)) k ((slot + 1) % 10) n

/-- The frame of a cluster goes on up to a slot, which it takes last. -/
def execScratchpadRmwSlot (die : BitVec 2) (cluster : BitVec 7) (slot : BitVec 4) (s : State) : Out :=
  if slot.toNat < 10 then
    let k := die.toNat * 128 + cluster.toNat
    let from_ := (s.cluster k).frame
    let t := s.rmwFrame k from_ ((slot.toNat + 10 - from_) % 10 + 1)
    .next (t.setCluster k { t.cluster k with frame := (slot.toNat + 1) % 10 })
  else .next s

/-! ## Timed stores (R217, R222) -/

def removeAt {α : Type} : Nat → List α → List α
  | _, [] => []
  | 0, _ :: rest => rest
  | n + 1, a :: rest => a :: removeAt n rest

/-- R217: store number `k` is buffered at its home, or missed. -/
def execTimedStoreArrival (k : Nat) (s : State) : Out :=
  match listAt s.timed k with
  | some x => .next (s.arriveAll fun y => y.together x && y.element = x.element)
  | none => .next s

/-- R217, R218: a die's homes place every store whose time has come, in key order. -/
def State.applyDie (s : State) (die : BitVec 2) : State :=
  let sel := fun (x : Timed) => x.homeDie = die && s.timedDue x
  let due := timedSort (s.timed.filter sel)
  let t := s.applyAll due
  { t with timed := t.timed.filter fun x => !(x.homeDie = die && s.timedDue x) }
def execTimedStoreApply (die : BitVec 2) (s : State) : Out := .next (s.applyDie die)

/-- R222: miss number `k` is reported with the others of its instruction (R199), whose elements have all arrived; that of a
peer's store is answered to the peer. -/
def execDeadlineMissReport (k : Nat) (s : State) : Out :=
  match listAt s.misses k with
  | none => .next s
  | some m =>
    if m.store.device ≠ s.device then
      .next { s with misses := removeAt k s.misses,
                     fabric := { s.fabric with replies := s.fabric.replies ++ [⟨m.store.device, m.store.seq, .missed m.a⟩] } }
    else
      let s := { s with misses := removeAt k s.misses }.arriveAll fun x => x.together m.store
      let with_ := s.misses.filter fun n => n.store.together m.store
      .next ({ s with misses := s.misses.filter fun n => !n.store.together m.store }.reportMisses m with_)

/-! ## Samples (R406, R409) -/

/-- R406: the marked instruction of a core has left the pipeline, and its entry is written; a mark in flight has none yet. -/
def execTaggedSample (c : CoreId) (b : SampleBody) (s : State) : Out :=
  let k := s.agent (.core c)
  match k.mark with
  | none => .next s
  | some m => match m.left with
    | none => .next s
    | some outcome =>
      let cyc := fun (i : Nat) => (listAt b.cycles i).getD 0
      let miss := (b.miss &&& 0x3F) ||| (if m.fetched then b.miss &&& 0x40 else 0) ||| (if m.copied then 0x80 else b.miss &&& 0x80)
      .next ((s.setAgent { k with mark := none }).trace m.of.owner 1 c.die c.core.toNat m.of.item m.of.task.toNat m.of.step
        ([(32, 8, m.of.pc.toNat), (40, 8, (s.dieAt c.die).atime.toNat)]
          ++ ((upFrom 0 6).map fun i => (48 + 4 * i, 4, (cyc i).toNat))
          ++ [(72, 2, m.opcode.toNat), (74, 1, outcome.toNat), (76, 4, miss.toNat)]))

/-- R409: the entry of an overflow of a channel; the last one of a core holds its issue for one cycle, which lasts `cycle` ticks
(DESIGN CHOICE, assumption 82: every zone counts them). -/
def execMonitorSample (die channel : BitVec 2) (cycle : Nat) (s : State) : Out :=
  let d := s.dieAt die
  let m := d.monitors[channel.toNat]
  match m.spills with
  | [] => .next s
  | x :: rest =>
    let core : BitVec 10 := m.config.extractLsb' 16 10
    let t := s.setDie die { d with monitors := d.monitors.set channel.toNat { m with spills := rest } }
    let t := t.trace x.owner 2 die core.toNat x.item x.task.toNat x.step
      [(32, 8, x.pc.toNat), (40, 8, d.atime.toNat), (48, 1, (m.config.setWidth 8).toNat), (49, 1, channel.toNat),
       (52, 4, m.config.toNat / 2 ^ 32)]
    let more := (t.dieAt die).monitors.toList.any fun n => n.watches core && !n.spills.isEmpty
    .next (if more then t else { ({ t with pace := cycle } : State).tick with pace := t.pace })

/-! ## Throttling (R225) -/

/-- An event for the firmware cores of a die. -/
def State.dieEvent (s : State) (die : BitVec 2) : State := s.setDie die { s.dieAt die with events := (s.dieAt die).events + 1 }
def execThrottleEnter (die : BitVec 2) (s : State) : Out :=
  .next ((s.setDie die { s.dieAt die with throttled := true }).dieEvent die)
def execThrottleLeave (die : BitVec 2) (s : State) : Out :=
  .next ((s.setDie die { s.dieAt die with throttled := false }).dieEvent die)

end Sys2Proof.Machine
end

