-- ==== Sys2Proof/Machine/Corpses.lean ====
section
/-! DEFINITION. Page 6: the six corpse instructions (R375 to R381). -/

namespace Sys2Proof.Machine

/-- The six are ILL on a culvert and need no privilege (R48, R293). -/
def corpseOp (x : Pfx) (s : State) (body : State → R State) : Out := .next (s.scalarInstr s.onCulvert false x body)

/-! ## KILL (R376) -/

/-- A live task of a context whose task capability has these bounds. -/
def taskNamed (context : BitVec 8) (a : GReg) : List Task → Option Task
  | [] => none
  | t :: rest =>
    if t.context = context && t.alive && (taskCap t.num).base = a.base && (taskCap t.num).length = a.length then some t
    else taskNamed context a rest

def execKill (x : Pfx) (a b : RegNum) (s : State) : Out := corpseOp x s fun s => do
  let (k, s) ← s.readG b
  let die := s.core.agent.die
  let owner := s.core.owner
  if !k.tag then trap cKTAG (b.setWidth 64)
  else match taskNamed owner k s.tasks with
    | some t =>
      let (s, id) := s.startFreeze die owner (some t.num) 0 0 owner
      return s.setInt a (id.setWidth 64)
    | none =>
      if (s.ctx owner).isSome && k.base = dataRoot.base && k.length = dataRoot.length then
        let (s, id) := s.startFreeze die owner none 0 0 owner
        return s.setInt a (id.setWidth 64)
      else trap cKPRM (b.setWidth 64)

/-! ## Mounts (R375, R377, R380) -/

abbrev mountBase : Nat := 0x20000000000
abbrev mountSlots : Nat := 4096
def slotBase (slot : Nat) : Addr := BitVec.ofNat 48 (mountBase + slot * 2 ^ 32)
/-- R377: R only over the slot. -/
def mountCap (slot : Nat) : GReg := mkCap 0 false 1 0x8000 17 (slotBase slot) (slotBase slot)

/-- R375: the slot and the corpse of a mount capability in register `n`. -/
def State.mountOf (s : State) (n : RegNum) : R (Nat × Corpse) :=
  let c := s.g n
  if !c.tag then trap cKTAG (n.setWidth 64)
  else if c.isSealed then trap cKSEAL (n.setWidth 64)
  else
    let v := c.base.toNat
    let slot := (v - mountBase) / 2 ^ 32
    let held := (s.ctx s.core.owner).bind fun x => (assocGet x.mounts slot).bind fun m => corpseFind m.1 s.corpses
    match held with
    | some k =>
      if inMount v && v % 2 ^ 32 = 0 && c.permR && c.length = 2 ^ 32 then .ok (slot, k) else trap cKPRM (n.setWidth 64)
    | none => trap cKPRM (n.setWidth 64)

/-- R377: the first free slot from `start` on, in ascending order with wraparound. -/
def freeSlot (m : Assoc (BitVec 32 × Addr)) (start : Nat) : Nat → Option Nat
  | 0 => none
  | n + 1 =>
    let k := start % mountSlots
    if (assocGet m k).isSome then freeSlot m (start + 1) n else some k

/-- R370: the grant set names the context with its creation serial. -/
def Corpse.grantsTo (k : Corpse) (c : Ctx) : Bool := k.grants.any fun g => g.1 = c.num && g.2 = c.serial

def ownerErr {α : Type} (context reason : Nat) : R α := trap cOWNER (BitVec.ofNat 64 (context + reason * 256))

/-- R377. A corpse is mounted once the values that R360 records have been answered (DEDUCED, assumption 120). -/
def execMount (x : Pfx) (a b c : RegNum) (s : State) : Out := corpseOp x s fun s => do
  let s ← s.useG [c, b]
  let id := s.gint b
  let view := s.gint c
  if 2 ^ 32 ≤ id.toNat then trap cILL
  match corpseFind (id.setWidth 32) s.corpses, s.ctx s.core.owner with
  | none, _ => ownerErr 0 1
  | some k, none => ownerErr k.context.toNat 0
  | some k, some ctx =>
    if !k.grantsTo ctx then ownerErr k.context.toNat 0
    else if view.toNat % 2 ^ 31 ≠ 0 || 2 ^ 48 ≤ view.toNat then trap cILL
    else if k.awaiting then .error (.wait (.room none))
    else match freeSlot ctx.mounts (match ctx.lastSlot with | some l => l + 1 | none => 0) mountSlots with
      | none => ownerErr 0 2
      | some slot =>
        let s := s.setCtx { ctx with mounts := assocPut ctx.mounts slot (k.id, view.setWidth 48), lastSlot := some slot }
        return s.setG a (mountCap slot)

/-- R296, R301, R380: an engine command of the context, on its way or saved, holds a translation of the slot. -/
def State.slotHeld (s : State) (slot : Nat) : Bool :=
  s.liveCommands.any fun c => c.context = s.core.owner && c.slots.contains slot

/-- R380: complete only when nothing holds the slot, as TRINV would be (DEDUCED, assumption 113). -/
def execUmnt (x : Pfx) (b : RegNum) (s : State) : Out := corpseOp x s fun s => do
  let s ← s.useG [b]
  let (slot, _) ← s.mountOf b
  if s.slotHeld slot then .error (.wait .trinv) else
  match s.ctx s.core.owner with
  | some ctx => return s.setCtx { ctx with mounts := assocDel ctx.mounts slot }
  | none => return s

/-! ## Labels and registers (R378, R379) -/

def itemFind (n : Nat) : List ItemRec → Option ItemRec
  | [] => none
  | r :: rest => if r.item = n then some r else itemFind n rest
/-- The freeze record of a task, with its number. -/
def freezeRecord (task : BitVec 32) (i : Nat) : List DirRec → Option (Nat × DirRec)
  | [] => none
  | r :: rest => if r.kind = 0 && r.task = task then some (i, r) else freezeRecord task (i + 1) rest
def Corpse.item (k : Corpse) (rec_ n : Nat) : Option ItemRec := (listAt k.records rec_).bind fun r => itemFind n r.items

def labelWord (label : BitVec 2) (reason : BitVec 8) (num : Nat) : Word :=
  BitVec.ofNat 64 (label.toNat + reason.toNat * 256 + num * 2 ^ 32)

/-- R366, R378: the label of a sector of the corpse's space. -/
def Corpse.sectorLabel (k : Corpse) (fitted : Fitted) (a : Nat) : BitVec 2 × BitVec 8 :=
  match assocGet k.sectors (a / 32) with
  | some l => l
  | none =>
    if (inSram a || inDev a || inWindow a) && (layerLeaf fitted a k.space).isSome then (0, 0) else (3, 0)

/-- R378: the word of a selector; none where it raises ILL. -/
def Corpse.label (k : Corpse) (fitted : Fitted) (v : Nat) : Option Word :=
  let m := v % 2 ^ 60
  let absent : Word := 3
  match v / 2 ^ 60 with
  | 0 => if 2 ^ 32 ≤ m then none
    else some (match freezeRecord (BitVec.ofNat 32 m) 0 k.records with | some (i, r) => labelWord r.label r.reason i | none => absent)
  | 1 => if 2 ^ 24 ≤ m then none
    else some (match listAt k.records m with | some r => labelWord r.label r.reason 0 | none => absent)
  | 2 => if 2 ^ 56 ≤ m then none
    else some (match k.item (m / 2 ^ 32) (m % 2 ^ 32) with | some r => labelWord r.label r.reason 0 | none => absent)
  | 3 => if 2 ^ 32 ≤ m then none
    else some (match listAt k.commands m with | some (_, l, r) => labelWord l r 0 | none => absent)
  | 4 => if 2 ^ 48 ≤ m then none else let (l, r) := k.sectorLabel fitted m; some (labelWord l r 0)
  | _ => none

def execClbl (x : Pfx) (a b c : RegNum) (s : State) : Out := corpseOp x s fun s => do
  let s ← s.useG [c, b]
  let (_, k) ← s.mountOf c
  match k.label s.fitted (s.gint b).toNat with
  | some w => return s.setInt a w
  | none => trap cILL

/-- R379: the value at a code of a recorded item. -/
def ItemRec.read (r : ItemRec) (code : Nat) : Word :=
  let g := fun (n : Nat) => vecAt r.core.g n .null
  let csr := r.core.csr
  if code < 0x20 then (g code).bits.setWidth 64
  else if code < 0x40 then (g (code - 0x20)).bits.extractLsb' 64 64
  else if code < 0x60 then
    let n := code - 0x40
    BitVec.ofNat 64 ((g n).tag.toNat + (r.core.gPois.getLsbD n).toNat * 2 + (r.pendG.getLsbD n).toNat * 4)
  else match code with
    | 0x60 => r.core.pcc.cursor.setWidth 64
    | 0x61 => csr.fcsr
    | 0x62 => csr.tvec
    | 0x63 => csr.tcause
    | 0x64 => csr.tepc
    | 0x65 => csr.sovp
    | 0x66 => csr.sovl
    | 0x67 => csr.mstat
    | _ => r.state.setWidth 64

def execCrd (x : Pfx) (a b c : RegNum) (s : State) : Out := corpseOp x s fun s => do
  let s ← s.useG [c, b]
  let (_, k) ← s.mountOf c
  let v := (s.gint b).toNat
  let code := v % 256
  if 0x68 < code then trap cILL
  else
    let missing : Word := if code = 0x68 then 3 else 0
    return s.setInt a (match k.item (v / 2 ^ 40) (v / 256 % 2 ^ 32) with
      | some r => if r.state = 3 then missing else r.read code
      | none => missing)

/-! ## REVIVE (R381) -/

def reviveErr {α : Type} (reason : Nat) : R α := trap cREVIVE (BitVec.ofNat 64 reason)

def descOfTask (num : BitVec 32) : List Task → Option Desc
  | [] => none
  | t :: rest => if t.num = num then some t.desc else descOfTask num rest

/-- The directory entry that a revival reserves (R373). -/
def revivalRecord (task : BitVec 32) (reviver : BitVec 8) (source : Nat) : DirRec :=
  { task := task, kind := 3, label := 3, reason := 0, reviver := reviver, time := 0, newCorpse := 0, source := source,
    off := 0, items := [] }

def execRevive (x : Pfx) (a b c : RegNum) (s : State) : Out := corpseOp x s fun s => do
  let s ← s.useG [a, c, b]
  let counter : BitVec 12 := (s.gint a).setWidth 12
  let (_, k) ← s.mountOf c
  let num : BitVec 32 := (s.gint b).setWidth 32
  match freezeRecord num 0 k.records, descOfTask num k.descs with
  | some (i, r), some d =>
    if r.label = 1 then reviveErr 1
    else if r.label = 2 then reviveErr 2
    else if !r.items.isEmpty && r.items.all (fun i => i.state = 1) then reviveErr 3
    else if 4096 ≤ k.records.length then reviveErr 5
    else
      let s := s.release 3
      match s.ctx s.core.owner with
      | none => reviveErr 4
      | some ctx =>
        if 256 ≤ ctx.internal.length then .error (.wait (.room none))
        else
          let n := k.records.length
          let v : Revival := { corpse := k.id, source := i, record := n, counter := counter, reviver := s.core.owner }
          let entry := revivalRecord num s.core.owner i
          let s := { s with corpses := corpseMap k.id (fun k => { k with records := k.records ++ [entry] }) s.corpses }
          let (s, _) := s.queueLaunch ctx d none (some v)
          return s.setInt a (BitVec.ofNat 64 n)
  | _, _ => reviveErr 4

end Sys2Proof.Machine
end

