-- ==== Sys2Proof/Machine/Team.lean ====
section
/-! DEFINITION. Teams: which clusters a task may take, in which order tasks start (R228, R263 to R267), the scrub of a
cluster (R264), and what preemption saves and resumption restores (R251, R271, R283, R301, R335). -/

namespace Sys2Proof.Machine

/-! ## Clusters (R4, R228, R263) -/

/-- R4: the cores present in a cluster, by core-in-cluster. -/
def State.presentCores (s : State) (k : Nat) : List CoreId :=
  ((upFrom 0 8).map (coreOf (BitVec.ofNat 2 (k / 128)) (k % 128))).filter fun c => !s.absent.contains c

def clusterNumber (p : BitVec 2 × BitVec 7) : Nat := p.1.toNat * 128 + p.2.toNat

/-- A cluster that no placed task holds, all of whose cores present belong to the context and have no command of an ended
item left (R144). -/
def State.clusterFree (s : State) (context : BitVec 8) (k : Nat) : Bool :=
  !(s.tasks.any fun t => t.state = .running && t.clusterKeys.contains k)
    && (s.presentCores k).all fun c => (s.agent (.core c)).owner = context && !s.leftBusy c

/-- R266: a cluster of its die's reservation for class 0. -/
def State.reservedCluster (s : State) (k : Nat) : Bool := k % 128 < (vecAt s.dies (k / 128) .reset).reserved

def Task.onDie (t : Task) (d : Nat) : Bool := t.desc.dies.getLsbD d

/-- R267: WAITCTR, START. A task that has started before is placeable. -/
def State.placeable (s : State) (t : Task) : Bool :=
  !t.shape.isEmpty ||
    ((!t.desc.waitctr.getLsbD 15 || t.desc.waitval ≤ s.counter t.context (t.desc.waitctr.setWidth 12))
      && (t.desc.start = 0 || t.desc.start ≤ s.packageTime))

def Task.pending (t : Task) : Bool := t.state = .waiting || t.state = .preempted

/-- R266: a class-0 task waits for reserved clusters of a die. -/
def State.classZeroWaits (s : State) (d : Nat) : Bool :=
  s.tasks.any fun t => t.cls = 0 && t.pending && t.onDie d && s.placeable t

/-- R263, R266, R271, R381: whether cluster `k` may become the cluster of a task at place `i` of its team. -/
def State.qualifies (s : State) (t : Task) (i k : Nat) : Bool :=
  let n := (s.presentCores k).length
  s.clusterFree t.context k
    && (match listAt t.shape i with | some m => n = m | none => t.desc.cores ≤ n)
    && (t.cls = 0 || !s.reservedCluster k || !s.classZeroWaits (k / 128))

/-- R211, R261: the dies of a team take tasks: healthy, synchronised, not draining. -/
def State.diesReady (s : State) (t : Task) : Bool :=
  (upFrom 0 4).all fun d => !t.onDie d ||
    (let x := vecAt s.dies d .reset; x.healthy && x.sync && !x.draining)

/-! ## Which task starts next (R265, R266) -/

/-- R265: ticks in 10 ms. -/
abbrev raiseTicks : Nat := 160000000
/-- R265: a task that waits is raised a class for every 10 ms since its acceptance, never above class 1. -/
def Task.raised (t : Task) (now : Tick) : Task :=
  if t.state = .waiting && t.desc.cls.toNat % 4 ≠ 0 then
    { t with cls := BitVec.ofNat 2 (max 1 (t.desc.cls.toNat % 4 - (now - t.accepted).toNat / raiseTicks)) }
  else t
def State.raiseAll (s : State) : State := { s with tasks := s.tasks.map fun (t : Task) => t.raised s.packageTime }

/-- R265: an earlier task of the class on the same die set, placeable and not started, blocks a task. -/
def State.blocked (s : State) (t : Task) : Bool :=
  s.tasks.any fun u => u.pending && u.cls = t.cls && u.desc.dies = t.desc.dies && u.seq < t.seq && s.placeable u

/-- The first clusters of a list, in order, that qualify for the places of a team from `i` on. -/
def State.pickDie (s : State) (t : Task) : Nat → Nat → List Nat → Option (List Nat)
  | 0, _, _ => some []
  | _ + 1, _, [] => none
  | n + 1, i, k :: rest =>
    if s.qualifies t i k then (State.pickDie s t n (i + 1) rest).map (k :: ·) else State.pickDie s t (n + 1) i rest

/-- The clusters of a team, one die after another, each among the `limit d` lowest-numbered ones of its die. -/
def State.pickDies (s : State) (t : Task) (limit : Nat → Nat) : Nat → List Nat → Option (List Nat)
  | _, [] => some []
  | i, d :: rest =>
    match s.pickDie t t.desc.clusters i (upFrom (d * 128) (limit d)) with
    | some ks => (State.pickDies s t limit (i + t.desc.clusters) rest).map (ks ++ ·)
    | none => none

def clusterOfKey (k : Nat) : BitVec 2 × BitVec 7 := (BitVec.ofNat 2 (k / 128), BitVec.ofNat 7 k)

/-- R263: a team that a task could take now among the `limit d` lowest-numbered clusters of each die. -/
def State.pickWithin (s : State) (t : Task) (limit : Nat → Nat) : Option (List (BitVec 2 × BitVec 7)) :=
  let quiet := match s.ctx t.context with | some c => c.migrating.isSome | none => true
  if t.pending && !quiet && s.placeable t && !s.blocked t && s.diesReady t && s.coolantOk then
    (s.pickDies t limit 0 ((upFrom 0 4).filter t.onDie)).map fun ks => ks.map clusterOfKey
  else none
/-- R263: a team of the lowest-numbered clusters that a task could take now. -/
def State.pickTeam (s : State) (t : Task) : Option (List (BitVec 2 × BitVec 7)) := s.pickWithin t fun _ => 128
/-- R266: the same within the reservations of the dies. -/
def State.pickReserved (s : State) (t : Task) : Option (List (BitVec 2 × BitVec 7)) :=
  s.pickWithin t fun d => (vecAt s.dies d .reset).reserved

/-- R265: the pattern in which classes 1 to 3 take what class 0 leaves. -/
def classPattern : List Nat := [1, 1, 1, 1, 2, 2, 3]
/-- R265: turns passed over because their class has nothing placeable, up to the turn of class `c`. -/
def turnOf (ready : Nat → Bool) (p c : Nat) : Nat → Option Nat
  | 0 => none
  | n + 1 =>
    let k := classPattern.getD (p % 7) 1
    if k = c then some p else if ready k then none else turnOf ready (p + 1) c n

/-- R228: the clusters named, by die and number. -/
def teamOrder (clusters : List (BitVec 2 × BitVec 7)) : List (BitVec 2 × BitVec 7) :=
  ((upFrom 0 512).map clusterOfKey).filter clusters.contains

/-- R263: a team of the task's shape whose clusters all qualify. -/
def State.teamFits (s : State) (t : Task) (team : List (BitVec 2 × BitVec 7)) : Bool :=
  ((upFrom 0 4).all fun d => (team.filter fun p => p.1.toNat = d).length = (if t.onDie d then t.desc.clusters else 0))
    && (team.zip (upFrom 0 team.length)).all fun p => s.qualifies t p.2 (clusterNumber p.1)

/-! ## Making room for class 0 (R266) -/

/-- Tasks of class 1 to 3, or of any class, seen as if they had left their clusters. -/
def Task.aside (all : Bool) (t : Task) : Task := if t.state = .running && (all || t.cls ≠ 0) then { t with state := .done } else t
def State.aside (s : State) (all : Bool) : State := { s with tasks := s.tasks.map (Task.aside all) }

/-- Whether a task stops before another: class 3, then 2, then 1, newest first. -/
def Task.stopsBefore (u v : Task) : Bool := v.cls < u.cls || u.cls = v.cls && v.seq < u.seq
def firstToStop : List Task → Option Task
  | [] => none
  | u :: rest => match firstToStop rest with
    | some v => if u.stopsBefore v then some u else some v
    | none => some u

/-- R266: whether a class-0 task's team fits within the reservation, whatever holds it. -/
def State.fitsReserved (s : State) (t : Task) : Bool := ((s.aside true).pickReserved t).isSome

/-- The running tasks of class 1 to 3 that a class-0 task displaces next: where it fits in the reservation, those that occupy
the reserved clusters it takes, and none where class-0 work holds them; a larger one, of those that hold clusters it could
use, the first to stop. -/
def State.displaced (s : State) (t : Task) : List Task :=
  let clear := s.aside false
  let held := s.tasks.filter fun u => u.state = .running && u.cls ≠ 0
  if t.cls ≠ 0 || (s.pickTeam t).isSome then []
  else if s.fitsReserved t then
    match clear.pickReserved t with
    | some team => held.filter fun u => u.placed.any team.contains
    | none => []
  else if (clear.pickTeam t).isSome then
    (firstToStop (held.filter fun u => u.placed.any fun p =>
      t.onDie p.1.toNat && clear.clusterFree t.context (clusterNumber p))).toList
  else []

/-- R266: a class-0 task larger than the reservation preempts until it fits; meanwhile no other class starts. -/
def State.makesRoom (s : State) : Bool := s.tasks.any fun u => u.cls = 0 && !(s.displaced u).isEmpty && !s.fitsReserved u

/-- R265: the pattern's position after a task of this class starts; none while it is another class's turn. -/
def State.turn (s : State) (t : Task) : Option Nat :=
  let ready := fun c => s.tasks.any fun u => u.cls.toNat = c && (s.pickTeam u).isSome
  if t.cls = 0 then some s.pattern
  else if ready 0 || s.makesRoom then none
  else (turnOf ready s.pattern t.cls.toNat 7).map fun p => (p + 1) % 7

/-- Whether a task may start on a team now; the position of the pattern after it. -/
def State.mayStart (s : State) (t : Task) (team : List (BitVec 2 × BitVec 7)) : Option Nat :=
  if (s.pickTeam t).isSome && s.teamFits t team then s.turn t else none

/-- R266, R271, R402, R414: whether a task is to be preempted now: it makes room for a class-0 task, or a debug stop or a
migration stops it. -/
def State.mayPreempt (s : State) (t : Task) : Bool :=
  t.state = .running && (t.stopping || (match s.ctx t.context with | some c => c.migrating.isSome | none => false)
    || s.tasks.any fun u => (s.displaced u).contains t)

/-! ## The scrub (R264) -/

def State.scrubMatrix (s : State) : List CoreId → State
  | [] => s
  | c :: rest => let k := s.agent (.core c); State.scrubMatrix (s.setAgent { k with mx := .start }) rest

/-- R264, R327: a cluster that passes to another context is scrubbed; the round robin of its matrix unit starts afresh. -/
def State.scrubCluster (s : State) (context : BitVec 8) (k : Nat) : State :=
  let c := s.cluster k
  if c.context = context && c.serial = s.serialOf context then s
  else
    let s := s.setShot (s.shot.zero (spadLoc k 0) 0x100000)
    let s := s.scrubMatrix ((upFrom 0 8).map (coreOf (BitVec.ofNat 2 (k / 128)) (k % 128)))
    s.setCluster k { s.cluster k with context := context, serial := s.serialOf context, half1 := none, half2 := none,
                                      inUse := false, pointer := 0, turn := 0 }
def State.scrubAll (s : State) (context : BitVec 8) : List Nat → State
  | [] => s
  | k :: rest => State.scrubAll (s.scrubCluster context k) context rest

/-! ## A task takes its clusters (R228, R263, R264) -/

def Task.onTeam (t : Task) (s : State) (team : List (BitVec 2 × BitVec 7)) : Task :=
  let cores := team.map fun p => s.presentCores (clusterNumber p)
  { t with state := .running, placed := team, shape := cores.map (·.length), slots := cores.flatten }

def State.takeTeam (s : State) (t : Task) (team : List (BitVec 2 × BitVec 7)) : State :=
  let t := t.onTeam s team
  (s.scrubAll t.context t.clusterKeys).setTask t

/-! ## What preemption saves (R136, R251, R271) -/

/-- R136: what the items of a task have issued is performed for system scope, timed stores accepted at their homes
(R133); the beats of its commands, at which they stop, are performed (R271). -/
def State.releaseTask (s : State) (t : Task) : State :=
  ((s.drain fun f => f.context = t.context && f.task = t.num).arriveAll fun x => x.context = t.context && x.task = t.num).resolvePosted
    fun f => f.context = t.context && f.task = t.num && (isPeerLoc f.loc || f.agent = f.issuer)

/-- R136, R271: a core of the team executes an instruction whose host, peer or bank access has been issued: it completes
before the task stops. -/
def State.awaits (s : State) (t : Task) : Bool := t.slots.any fun c => (s.agent (.core c)).issuedWait

/-- Team slot and core of a task's running items. -/
def State.runningSlots (s : State) (t : Task) : List (Nat × CoreId) :=
  ((upFrom 0 t.slots.length).zip t.slots).filter fun p => (s.agent (.core p.2)).run ≠ .idle

/-- The regions of a team's scratchpads that a test selects: key 4 i + r, cluster and region word. -/
def Task.regions (t : Task) (sel : BitVec 32 → Bool) : List (Nat × Nat × BitVec 32) :=
  ((upFrom 0 t.clusterKeys.length).zip t.clusterKeys).flatMap fun p =>
    (((upFrom 0 4).zip t.desc.spad).filter fun r => regionValid r.2 && sel r.2).map fun r => (4 * p.1 + r.1, p.2, r.2)

def regionLoc (k : Nat) (w : BitVec 32) : Nat := spadLoc k (regionBase w * 4096)
def Snapshot.saveRegion (x : Snapshot) (r : Nat × Nat × BitVec 32) : Saved :=
  x.save r.1 (regionLoc r.2.1 r.2.2) (regionLen r.2.2 * 4096)

/-- Every core of a task rests. -/
def State.restCores (s : State) : List CoreId → State
  | [] => s
  | c :: rest => State.restCores (s.setAgent (s.agent (.core c)).rest) rest

/-- The channels that a task's grant leaves. -/
def State.closeWeirs (s : State) : List Nat → State
  | [] => s
  | k :: rest => State.closeWeirs (s.setWeir k { Weir.reset with owner := (s.weir k).owner }) rest
def State.closeFlumes (s : State) : List Nat → State
  | [] => s
  | k :: rest => State.closeFlumes (s.setFlume k { Flume.reset with owner := (s.flume k).owner }) rest

/-- What a placed task holds, saved with it: cores, TCM images by slot, regions, halves, channels (R251, R271, R283). -/
def State.saveTask (s : State) (t : Task) (regions : BitVec 32 → Bool) : Task :=
  let running := s.runningSlots t
  let x := s.shot
  { t with
    saved := running.map fun p => Core.rewindMatrix { s.agent (.core p.2) with wait := none },
    images := running.map fun p => x.save p.1 (tcmLoc p.2.index 0) 0x80000,
    spads := (t.regions regions).map x.saveRegion,
    halves := t.clusterKeys.map fun k => let c := s.cluster k; ⟨c.half1, c.half2⟩,
    weirs := if t.revival.isSome then [] else t.weirKeys.map fun k => (k, s.weir k),
    flumes := if t.revival.isSome then [] else t.flumeKeys.map fun k => (k, s.flume k) }

/-- What a task held is free again: cores, halves, channels. -/
def State.vacate (s : State) (t : Task) : State :=
  let s := (s.restCores t.slots).dropHalves t.clusterKeys
  if t.revival.isSome then s else (s.closeWeirs t.weirKeys).closeFlumes t.flumeKeys

/-- R271: a task is preempted. -/
def State.preempt (s : State) (t : Task) (next : TaskState) : State :=
  let request := s.packageTime
  let s := (s.abandonAll t.slots).releaseTask t
  let t := (s.task t.context t.num).getD t
  let saved := s.saveTask t fun w => !regionDiscardable w
  let (s, commands) := s.liftCommands (fun c => c.context = t.context && c.task = t.num) t.clusterKeys
  let s := s.vacate t
  let t := { saved with state := next, stopping := false, commands := commands }
  (s.setTask t).eventRecord 0x30 t request 0

/-! ## What resumption restores (R251, R271, R283, R301, R335) -/

/-- The core that takes the team slot of a core of an earlier team. -/
def slotCore (old new : List CoreId) (c : CoreId) : CoreId :=
  match indexIn c old with
  | some i => (listAt new i).getD c
  | none => c
def slotAgentOf (old new : List CoreId) (a : AgentId) : AgentId :=
  match a with
  | .core c => .core (slotCore old new c)
  | a => a

def Weir.moved (w : Weir) (f : CoreId → CoreId) : Weir :=
  { w with arrived := w.arrived.map (fun a => ⟨f a.core, a.time⟩), members := w.members.map f, leaving := w.leaving.map f }
def Flume.moved (w : Flume) (f : CoreId → CoreId) : Flume :=
  { w with members := w.members.map f, leaving := w.leaving.map f,
           round := w.round.map (fun r => ⟨f r.core, r.elems⟩), results := w.results.map fun r => (f r.1, r.2) }

def State.putWeirs (s : State) (f : CoreId → CoreId) : Assoc Weir → State
  | [] => s
  | (k, w) :: rest => State.putWeirs (s.setWeir k { w.moved f with owner := (s.weir k).owner }) f rest
def State.putFlumes (s : State) (f : CoreId → CoreId) : Assoc Flume → State
  | [] => s
  | (k, w) :: rest => State.putFlumes (s.setFlume k { w.moved f with owner := (s.flume k).owner }) f rest

def savedAt (key : Nat) : List Saved → Option Saved
  | [] => none
  | v :: rest => if v.key = key then some v else savedAt key rest

/-- Regions of the new clusters: discardable ones zero, the others as they were saved. -/
def Snapshot.putRegions (x : Snapshot) (spads : List Saved) : List (Nat × Nat × BitVec 32) → Snapshot
  | [] => x
  | (key, k, w) :: rest =>
    let n := regionLen w * 4096
    let x := match regionDiscardable w, savedAt key spads with
      | false, some v => x.restore v (regionLoc k w) n
      | false, none => x
      | true, _ => x.zero (regionLoc k w) n
    Snapshot.putRegions x spads rest

def Snapshot.putImages (x : Snapshot) (slots : List CoreId) : List Saved → Snapshot
  | [] => x
  | v :: rest =>
    let x := match listAt slots v.key with | some c => x.restore v (tcmLoc c.index 0) 0x80000 | none => x
    Snapshot.putImages x slots rest

def State.putHalves (s : State) : List (Nat × Halves) → State
  | [] => s
  | (k, h) :: rest =>
    State.putHalves (s.setCluster k { s.cluster k with half1 := h.half1, half2 := h.half2, inUse := h.half1.isSome || h.half2.isSome }) rest

/-- RDID CLASS is the task's class now (R72, R265). -/
def State.putCores (s : State) (t : Task) (f : AgentId → AgentId) : List Core → State
  | [] => s
  | c :: rest =>
    let c := { c with ident := { c.ident with cls := t.cls } }
    State.putCores (s.resumeCore c (s.agent (f c.agent)) t.desc.spad) t f rest

/-- The commands of a task that run on know its issuers by their new cores. -/
def moveIssuers (t : Task) (f : AgentId → AgentId) (e : Engine) : Engine :=
  { e with queue := e.queue.map fun c => if c.context = t.context && c.task = t.num then c.setIssuer (f c.issuer) else c }

/-- R271: a saved task goes on, on a new team. -/
def State.resumeTask (s : State) (t : Task) (team : List (BitVec 2 × BitVec 7)) : State :=
  let old := t.slots
  let s := s.takeTeam t team
  let t := t.onTeam s team
  let f := slotCore old t.slots
  let g := slotAgentOf old t.slots
  let x := (s.shot.putRegions t.spads (t.regions fun _ => true)).putImages t.slots t.images
  let s := (s.setShot x).putHalves (t.clusterKeys.zip t.halves)
  let s := ((s.putWeirs f t.weirs).putFlumes f t.flumes).putCores t g t.saved
  let s := { s with cisterns := s.cisterns.map (moveIssuers t g) }
  let s := s.putCommands g t.commands
  s.setTask { t with saved := [], images := [], spads := [], halves := [], weirs := [], flumes := [], commands := [] }

end Sys2Proof.Machine
end

