-- ==== Sys2Proof/Machine/Revival.lean ====
section
/-! DEFINITION. How a revived task comes back from its corpse (R382): the revival space, pending stores and atomics
reapplied, refused timed stores counted as misses, memory and matrix state restored, commands kicked again. -/

namespace Sys2Proof.Machine

/-- The task of a corpse as it was recorded. -/
def Corpse.taskOf (k : Corpse) (num : BitVec 32) : Option Task := go k.descs
where
  go : List Task → Option Task
    | [] => none
    | t :: rest => if t.num = num then some t else go rest

/-- R369: the space that a task of the corpse saw. -/
def Corpse.spaceOf (k : Corpse) (num : BitVec 32) : List Layer := (assocGet k.spaces num.toNat).getD k.space

/-- Number of the task that a revival brings back. -/
def Corpse.revived (k : Corpse) (v : Revival) : BitVec 32 := match listAt k.records v.source with | some r => r.task | none => 0

/-- R72, R143, R252, R335, R382: a recorded item as it resumes: of the reviver's context, no inherited bits, the handler
not active, the matrix state rewound; its pending faults are those of the revived item (R140, R141). -/
def Core.revive (c : Core) (t : Task) : Core :=
  Core.rewindMatrix { c with owner := t.context, handler := false, wait := none,
                             pending := c.pending.map fun r => { r with context := t.context, task := t.num },
                             ident := { c.ident with task := t.num, cls := t.cls } }

def Queued.revive (q : Queued) (t : Task) : Queued := { q with saved := q.saved.map fun c => c.revive t, commands := [] }

/-- R381: the revived task as its LAUNCH is accepted: the original's descriptor, shape and class, its items as they were
recorded, no channel, a number of its own. -/
def revivedTask (saved t : Task) : Task :=
  { saved with
    context := t.context, num := t.num, state := .waiting, cls := t.cls, seq := t.seq, accepted := t.accepted,
    armed := false, stopping := false, revival := t.revival, freezing := none, weirs := [], flumes := [],
    queues := saved.queues.map fun q => (q.1, q.2.map fun e => e.revive t),
    saved := saved.saved.map fun c => c.revive t }

/-! ## Step 1: pending stores and atomics -/

/-- The page of the revival space that holds an address, copied and charged to the reviver when nothing has written it. -/
def State.ownPage (s : State) (context : BitVec 8) (num : BitVec 32) (va : Nat) : State :=
  match overlayFind context num s.overlays with
  | none => s
  | some o =>
    if setHas o.pages (va / 65536) then s
    else
      match layerLeaf s.fitted va o.space with
      | none => s
      | some (l, shot, loc) =>
        let n := l.size
        let s := s.setShot (s.shot.copyFrom shot (loc - va % n) n (overlayBase context num + va / n * n))
        { s with overlays := overlayMap (fun o => { o with pages := setAddAll o.pages (pageUnits va n) }) context num s.overlays,
                 contexts := chargeContext s.contexts context n }

def Saved.shot (v : Saved) : Snapshot := ⟨v.cells, v.tags, v.colours⟩
def Saved.withShot (v : Saved) (x : Snapshot) : Saved := { v with cells := x.mem, tags := x.tags, colours := x.colours }

/-- A refused write or the write of a refused atomic, made at a place of a memory; the old value of an atomic. -/
def Refused.apply (r : Refused) (x : Snapshot) (l : Nat) : Snapshot × Nat :=
  match r.colour, r.atomic with
  | some c, _ => (x.setColour l c, 0)
  | none, none => (x.writeCap l r.bytes r.cap, 0)
  | none, some (op, wide, arg, cmp) =>
    let n := if wide then 8 else 4
    let old := natOf (x.read l n)
    (match atomicNew op n old arg.toNat cmp.toNat with | some v => x.write l (bytesOf n v) | none => x, old)

/-- The saved part that holds a location, with the offset in it: a region of a scratchpad, or the TCM of a slot. -/
def Task.imageOf (t : Task) (l : Nat) : Option (Bool × Nat × Nat) :=
  if isSpadLoc l then
    let k := (l - 6 * spaceSize) / 0x100000
    let off := (l - 6 * spaceSize) % 0x100000
    let here := (t.regions fun _ => true).filter fun r => r.2.1 = k && regionBase r.2.2 * 4096 ≤ off
      && off < (regionBase r.2.2 + regionLen r.2.2) * 4096
    here.head?.map fun r => (true, r.1, off - regionBase r.2.2 * 4096)
  else if isTcmLoc l then
    let k := (l - 5 * spaceSize) / 0x400000
    (indexIn (coreAt k) t.slots).map fun i => (false, i, (l - 5 * spaceSize) % 0x400000)
  else none

def savedMap (key : Nat) (f : Saved → Saved) : List Saved → List Saved
  | [] => []
  | v :: rest => if v.key = key then f v :: rest else v :: savedMap key f rest

/-- R240, R382: the old value of a refused atomic goes to its pending register, which is poisoned no more. -/
def Core.takePendingValue (pendG : BitVec 32) (old n : Nat) (c : Core) : Core :=
  match freeIndex ((upFrom 0 32).filter fun i => !pendG.getLsbD i) 0 32 with
  | some i => { c with g := vecSet c.g i (if i = 0 then .null else intReg (sextBytes n old)),
                       gPois := c.gPois &&& ~~~(BitVec.twoPow 32 i) }
  | none => c

/-- The record of the item that a refused access belongs to. -/
def recordOf (o : Origin) : List ItemRec → Option ItemRec
  | [] => none
  | r :: rest => if r.core.ident.isItem o then some r else recordOf o rest
def Task.pendOf (r : Refused) (records : List ItemRec) : BitVec 32 :=
  match recordOf r.origin records with | some i => i.pendG | none => 0

/-- The saved item of a revived task that something of the original task belongs to. -/
def Core.wasItem (o : Origin) (c : Core) : Bool := c.ident.isItem o

/-- One pending store or atomic reapplied. -/
def State.reapply (s : State) (t : Task) (records : List ItemRec) (r : Refused) : State × Task :=
  let n := if r.bytes.length = 0 then 4 else r.bytes.length
  let give := fun (t : Task) (old : Nat) =>
    if r.atomic.isSome then t.mapSaved (Core.wasItem r.origin) (Core.takePendingValue (Task.pendOf r records) old n) else t
  match t.imageOf r.loc with
  | some (true, key, off) =>
    let old := match savedAt key t.spads with | some v => (r.apply v.shot off).2 | none => 0
    (s, give { t with spads := savedMap key (fun v => v.withShot (r.apply v.shot off).1) t.spads } old)
  | some (false, key, off) =>
    let old := match savedAt key t.images with | some v => (r.apply v.shot off).2 | none => 0
    (s, give { t with images := savedMap key (fun v => v.withShot (r.apply v.shot off).1) t.images } old)
  | none =>
    if inSram r.va.toNat || inDev r.va.toNat then
      let s := s.ownPage t.context t.num r.va.toNat
      let (x, old) := r.apply s.shot (overlayBase t.context t.num + r.va.toNat)
      (s.setShot x, give t old)
    else (s, t)

def State.reapplyAll (s : State) (t : Task) (records : List ItemRec) : List Refused → State × Task
  | [] => (s, t)
  | r :: rest => let (s, t) := s.reapply t records r; State.reapplyAll s t records rest

/-! ## Step 2: refused timed stores -/

/-- R222, R382: the miss joins the deadline record, and DLMISS is pending unless one is already or 16 faults are. -/
def Core.frozenMiss (m : Miss) (device : BitVec 19) (r : FaultRec) (c : Core) : Core :=
  let c := { c with dead := c.dead.miss m device }
  if c.missPending || 16 ≤ c.pending.length then c else { c with pending := c.pending ++ [r] }

/-- The record of the DLMISS that a revived item receives; `f` gives the agents of its new team. -/
def State.missRecord (s : State) (t : Task) (f : AgentId → AgentId) (m : Miss) (c : Core) : FaultRec :=
  let a := f c.agent
  { code := cDLMISS, flags := 0, context := t.context, die := a.die, core := a.coreNumber, level := c.ident.level, task := t.num,
    item := BitVec.ofNat 32 c.ident.item, pc := 0, addr := m.store.va.setWidth 64, step := c.ident.step,
    atime := (s.dieAt a.die).atime, detail := missDetail m, device := s.device, seq := 0 }

/-- One refused timed store counted as a miss; a DLMISS that finds 16 faults pending goes to the event stream alone (R138). -/
def State.countMiss (s : State) (t : Task) (f : AgentId → AgentId) (o : Origin) (m : Miss) : State × Task :=
  match coresFind (Core.wasItem o) t.savedCores with
  | none => (s, t)
  | some c =>
    let r := s.missRecord t f m c
    (if !c.missPending && 16 ≤ c.pending.length then s.dropImprecise r else s,
     t.mapSaved (Core.wasItem o) (Core.frozenMiss m s.device r))

def State.countMisses (s : State) (t : Task) (f : AgentId → AgentId) (freeze : Tick) : List Refused → State × Task
  | [] => (s, t)
  | r :: rest =>
    let (s, t) := match r.timed with
      | some x => s.countMiss t f r.origin ⟨x, freeze, true⟩
      | none => (s, t)
    State.countMisses s t f freeze rest

/-! ## Step 5: engine commands -/

/-- R382: the commands of the task are kicked again: accepted anew, for the reviver, nothing done. -/
def State.kickAgain (s : State) (t : Task) (f : AgentId → AgentId) : List Cmd → State
  | [] => s
  | c :: rest =>
    let a := f c.issuer
    let i : EngineId := match ticketEngine c.ticket with
      | some (.culvert u) => .culvert (culvertOf (AgentId.clusterOf a) u.index.toNat)
      | some (.cistern k) => .cistern k
      | none => .culvert (culvertOf (AgentId.clusterOf a) 0)
    let e := s.engine i
    let c := { c with origin := { c.origin with agent := a, context := t.context, task := t.num }, pages := [], slots := [],
                      state := .queued, start := none, beats := 0, ghash := 0, wrote := [], requests := [], ended := false,
                      ticket := ticketOf i e.count }
    let s := ((s.setEngine i { e with queue := e.queue ++ [c], count := e.count + 1 }).loadOwner i).traceCopy 3 c i.die
    State.kickAgain s t f rest

/-! ## The whole (R382) -/

/-- R383: the sectors that the corpse labels torn or unknown. -/
def Corpse.taint (k : Corpse) : List Nat := (k.sectors.filter fun p => p.2.1 ≠ 0).map (·.1)

/-- A revived task takes its team; `records` are the items of the record it comes from. -/
def State.startRevival (s : State) (t : Task) (v : Revival) (k : Corpse) (team : List (BitVec 2 × BitVec 7)) : State :=
  let num := k.revived v
  let records := match listAt k.records v.source with | some r => r.items | none => []
  let o : Overlay := { task := t.num, context := t.context, corpse := k.id, space := k.spaceOf num, pages := [], taint := k.taint }
  let s := { s with overlays := s.overlays ++ [o] }
  let mine := k.refused.filter fun r => r.task = num
  let (s, t) := s.reapplyAll t records (mine.filter fun r => r.timed.isNone)
  let old := t.slots
  let (s, t) := s.countMisses t (slotAgentOf old (t.onTeam s team).slots) k.freeze mine
  let commands := (k.commands.filter fun c => c.1.task = num).map (·.1)
  let s := s.resumeTask { t with commands := [] } team
  let new := match s.task t.context t.num with | some u => u.slots | none => old
  s.kickAgain t (slotAgentOf old new) commands

end Sys2Proof.Machine
end

