-- ==== Sys2Proof/Machine/Intake.lean ====
section
/-! DEFINITION. The host's door: BAR0 (R344, R345), headgate leadership (R261, R262), intake commands (R253 to R258)
and the internal queues (R270). -/

namespace Sys2Proof.Machine

/-! ## BAR0 (R343, R344) -/

/-- R344: a write to a ring register while the queue is open with commands unread is ignored. -/
def State.ringBusy (s : State) (f : Nat) : Bool :=
  let x := s.fn f
  s.fnEnabled f && x.qstate = .isOpen && x.qhead ≠ x.qtail

def Fn.ringSet (x : Fn) (off : Nat) (v : Word) : Fn :=
  match off with
  | 0x000 => { x with qbase := v }
  | 0x008 => { x with qsize := v }
  | 0x020 => { x with cbase := v }
  | 0x028 => { x with csize := v }
  | 0x040 => { x with ebase := v }
  | 0x048 => { x with esize := v }
  | _ => x
def isRingReg (off : Nat) : Bool := off = 0x000 || off = 0x008 || off = 0x020 || off = 0x028 || off = 0x040 || off = 0x048
def ringValueOk (off : Nat) (v : Word) : Bool :=
  if off = 0x000 || off = 0x020 || off = 0x040 then v.toNat % 4096 = 0
  else 4 ≤ v.toNat && v.toNat ≤ (if off = 0x028 then 16 else 14)

/-- R344: a write to QBASE, QSIZE, CBASE, CSIZE, EBASE or ESIZE. -/
def execRingConfigurationWrite (f : BitVec 6) (offset : BitVec 12) (v : Word) (s : State) : Out :=
  let off := offset.toNat
  let x := s.fn f.toNat
  if !isRingReg off then .next s
  else if !ringValueOk off v then .next (s.setFn f.toNat { x with refused := true })
  else if s.ringBusy f.toNat then .next s
  else .next ((s.setFn f.toNat { x.ringSet off v with refused := false }).flushRings f.toNat)

def execQtail (f : BitVec 6) (v : Word) (s : State) : Out :=
  .next (s.setFn f.toNat { s.fn f.toNat with qtail := low32 v })
def execChead (f : BitVec 6) (v : Word) (s : State) : Out :=
  .next ((s.setFn f.toNat { s.fn f.toNat with chead := v }).flushRings f.toNat)
def execEhead (f : BitVec 6) (v : Word) (s : State) : Out :=
  .next ((s.setFn f.toNat { s.fn f.toNat with ehead := v }).flushRings f.toNat)

/-- R344: any other register: JSEL takes the value; a read-only register or an offset not listed takes none. -/
def execBarRegisterWrite (f : BitVec 6) (offset : BitVec 12) (v : Word) (s : State) : Out :=
  if offset = 0x080 then .next (s.setFn f.toNat { s.fn f.toNat with jsel := v }) else .next s

/-- R344: the journal entry that JSEL names, where the function may see it. -/
def State.jentry (s : State) (f : Nat) : List Byte :=
  match journalFind (s.fn f).jsel.toNat s.journal with
  | some j =>
    let mine := j.queue.toNat = f || (match s.ctx j.context with | some c => c.fn.toNat = f | none => false)
    if mine then j.bytes else List.replicate 64 0
  | none => List.replicate 64 0

/-- R344: STATUS. -/
def State.status (s : State) (f : Nat) : Word :=
  BitVec.ofNat 64 ((if s.flitMode then 0 else 1) + (if s.dies.toList.any (·.throttled) then 2 else 0)
    + (if s.fabric.disciplined then 0 else 4) + (if (s.fn f).refused then 8 else 0))

def QueueState.code : QueueState → Nat
  | .isOpen => 0 | .stopped => 1 | .retired => 2
def State.queueState (s : State) (f : Nat) : QueueState := if s.fnEnabled f then (s.fn f).qstate else .retired

/-- R344: what a host read of BAR0, of `bytes` bytes, returns: zero unless it is of 64 bits. -/
def State.barRead (s : State) (f off bytes : Nat) : Word :=
  let x := s.fn f
  if bytes ≠ 8 then 0 else
  match off with
  | 0x000 => x.qbase
  | 0x008 => x.qsize
  | 0x010 => x.qtail
  | 0x018 => x.qhead
  | 0x020 => x.cbase
  | 0x028 => x.csize
  | 0x030 => x.chead
  | 0x038 => x.ctail
  | 0x040 => x.ebase
  | 0x048 => x.esize
  | 0x050 => x.ehead
  | 0x058 => x.etail
  | 0x060 => BitVec.ofNat 64 (s.queueState f).code
  | 0x068 => x.expect
  | 0x080 => x.jsel
  | 0x100 => s.status f
  | _ =>
    if 0x0C0 ≤ off && off < 0x100 && off % 8 = 0 then BitVec.ofNat 64 (natOf (((s.jentry f).drop (off - 0x0C0)).take 8))
    else 0

/-! ## The guest of a function (R401) -/

/-- R401: the guest that a function is bound to, or the one that it will be bound to next, has a number. DESIGN CHOICE
(assumption 131): one binding lasts until the TDI is unlocked again. -/
def State.bindGuest (s : State) (f : Nat) : State :=
  match (s.fn f).binding with
  | some _ => s
  | none =>
    let n := s.sec.bindings + 1
    { s.setFn f { s.fn f with binding := some n } with sec := { s.sec with bindings := n } }

/-! ## Headgate leadership (R261, R262) -/

/-- The die whose scheduler leads a queue now. -/
def State.leading (s : State) (q : Nat) : Option (BitVec 2) :=
  if q < 64 then (s.fn q).leader else assocGet s.internalLeader (q - 64)

/-- R262: at a command boundary leadership goes to the die that should have it; the outgoing leader releases what it has
written. Queue 64 + c is the internal queue of context c. -/
def State.handover (s : State) (q : Nat) : State :=
  let s := match s.leading q with
    | some d => if s.leaderFor q = some d then s else s.releaseScheduler d
    | none => s
  if q < 64 then s.setFn q { s.fn q with leader := s.leaderFor q }
  else match s.leaderFor q with
    | some d => { s with internalLeader := assocPut s.internalLeader (q - 64) d }
    | none => { s with internalLeader := assocDel s.internalLeader (q - 64) }
def execHeadgateHandover (q : Nat) (s : State) : Out := if q < 320 then .next (s.handover q) else .next s

/-! ## Intake commands (R253 to R256) -/

/-- A command as the ring holds it (R254). -/
structure Command where
  accession : Word
  opcode    : BitVec 16
  cls       : BitVec 8
  context   : BitVec 8
  payload   : Nat
  authentic : Bool
  deriving DecidableEq, Repr

/-- R254: a command opened under the key of its queue. -/
def openCommand (q : Nat) (key : Nat) (b : Nat) : Command :=
  let acc := bitsAt b 0 64
  let iv := q + acc <<< 32
  let text := bitsAt b 128 768
  let h := aes256 key 0
  let y := hashBlocks h (ghashStep h 0 (b % 2 ^ 128)) text 6
  { accession := BitVec.ofNat 64 acc, opcode := BitVec.ofNat 16 (bitsAt b 64 16), cls := BitVec.ofNat 8 (bitsAt b 80 8),
    context := BitVec.ofNat 8 (bitsAt b 88 8), payload := gcmText key iv text 0 6,
    authentic := gcmTag key iv h y 96 = bitsAt b 896 128 }

/-- R345: the next command slot of a queue, where its leader may read one. -/
def State.nextSlot (s : State) (q : Nat) : Option Nat :=
  let x := s.fn q
  let slots := ringSlots x.qsize 14
  if s.flitMode && s.fnEnabled q && x.master && slots ≠ 0 && x.pendingCommands ≠ 0 && (s.leaderFor q).isSome then
    some (s.readNat (hostLoc (x.qbase.toNat + 128 * (x.qhead.toNat % slots))) 128)
  else none

/-- R255: a rejection. -/
def State.reject (s : State) (q : Nat) (a : Word) (reason : Nat) : State :=
  let x := s.fn q
  let entry := bytesOf 8 a.toNat ++ bytesOf 8 x.expect.toNat ++ [BitVec.ofNat 8 reason] ++ List.replicate 7 0
    ++ bytesOf 8 s.packageTime.toNat
  (s.setFn q { x with completions := x.completions ++ [entry] }).flushRings q

/-- The queue after the command numbered `a` has been used up. -/
def State.consume (s : State) (q : Nat) (a : Word) : State :=
  s.setFn q { s.fn q with expect := a + 1, qstate := if a = BitVec.allOnes 64 then .retired else .isOpen }

/-- The verdict of R255's table. -/
inductive Verdict where
  | accept
  | badResync
  | reject (reason : Nat) (next : QueueState)
  deriving DecidableEq, Repr

def verdict (st : QueueState) (expect a : Word) (resync : Bool) (next : Word) : Verdict :=
  match st with
  | .retired => .reject 5 .retired
  | .stopped => if resync && expect ≤ a && a < next then .accept else .reject 4 .stopped
  | .isOpen =>
    if a < expect then .reject 2 .isOpen
    else if expect < a then .reject 3 .stopped
    else if resync && next ≤ a then .badResync
    else .accept

/-- R402: a context stands at the destination of its migration, not yet confirmed. -/
def State.arriving (s : State) (context : BitVec 8) : Bool := s.migrations.any fun m => m.context = context && m.stage = .installed
/-- R255 step 3: the command's context is bound to the queue's function; a context that migrates takes KILL alone, at its
source. -/
def State.contextBound (s : State) (q : Nat) (c : Command) : Bool :=
  match s.ctx c.context with
  | some x => c.context ≠ 0 && x.fn.toNat = q && (x.migrating.isNone || c.opcode = 2 && !s.arriving c.context)
  | none => false

/-- R259: the journal entry of an intake command. -/
def Command.entry (c : Command) (q : Nat) (now : Tick) (outcome : BitVec 8) (task : BitVec 32) (result : Nat) : Journal :=
  { accession := c.accession, seq := 0, accept := now, queue := BitVec.ofNat 8 q, context := c.context, opcode := c.opcode,
    outcome := outcome, cls := c.cls, task := task, corpse := 0, done := now, result := BitVec.ofNat 64 result }

/-- The leader's die of queue `q`. -/
def State.leaderDie (s : State) (q : Nat) : BitVec 2 := (s.leaderFor q).getD 0

/-- R259: the leader of a queue writes an entry, as a release at package scope. -/
def State.journalBy (s : State) (q : Nat) (j : Journal) : State := (s.releaseScheduler (s.leaderDie q)).journalAdd j

/-- R258, R259: a LAUNCH journalled under a number: the task waits, or is refused. -/
def State.acceptTask (s : State) (q : Nat) (j : Journal) (t : Task) : State :=
  let seq := s.nextSeq
  match s.refusal t with
  | some (reason, code) =>
    s.journalBy q { j with outcome := 4, result := BitVec.ofNat 64 (reason + code.toNat * 256) }
  | none => (s.journalBy q { j with outcome := 0 }).setTask { t with seq := seq }

/-! ## The internal queue (R270, R381) -/

/-- R259: the journal entry of an internal LAUNCH. -/
def Launch.entry (l : Launch) (context : BitVec 8) (now : Tick) : Journal :=
  { accession := l.accession, seq := 0, accept := now, queue := 255, context := context, opcode := 1, outcome := 0,
    cls := l.desc.cls, task := l.task, corpse := 0, done := now, result := 0 }

/-- The leader's reading of the flume configurations of the next command of a context's queue; a revival keeps those of its
task. -/
def State.internalReading (s : State) (x : Ctx) (l : Launch) : Reading (List FlumeCfg) :=
  if l.revival.isSome then .got [] [] else s.readCfgs (s.leaderDie (64 + x.num.toNat)) x.num l.desc x.reading

/-- The leader journals and checks the next command of a context's queue, whose configurations it has read. A revival's
descriptor passed its checks when its task was first launched. -/
def State.internalLaunch (s : State) (x : Ctx) (l : Launch) (cfgs : List FlumeCfg) : State :=
  let q := 64 + x.num.toNat
  let s := (s.handover q).setCtx { x with internal := x.internal.drop 1, reading := [] }
  let now := s.packageTime
  let j := l.entry x.num now
  match l.revival with
  | some v =>
    let t := newTask x.num l.task l.desc s.nextSeq now [] (some v)
    let saved := (corpseFind v.corpse s.corpses).bind fun k => k.taskOf (k.revived v)
    (s.journalBy q j).setTask (match saved with | some u => revivedTask u t | none => t)
  | none => s.acceptTask q j (newTask x.num l.task l.desc 0 now cfgs none)

/-- The next command of a context's queue as far as its loads have come. -/
def State.internalNext (s : State) (x : Ctx) (l : Launch) : State :=
  match s.internalReading x l with
  | .got cfgs _ => s.internalLaunch x l cfgs
  | .fault _ => s.internalLaunch x l []
  | .waits => s
  | .sends rs => s.setCtx { x with reading := x.reading ++ rs }

/-- R228: commands of a context's internal queue, which have their task numbers, are journalled before a LAUNCH of its
intake queue takes the next one (DEDUCED, assumption 105). -/
def State.internalAll (s : State) (context : BitVec 8) : Nat → State
  | 0 => s
  | n + 1 =>
    match s.ctx context with
    | none => s
    | some x => match x.internal with
      | [] => s
      | l :: _ => State.internalAll (s.internalNext x l) context n

/-- R256: the leader's reading of the descriptor of a LAUNCH and of its flume configurations. DESIGN CHOICE (assumption 125): bits
[63:48] of the address are ignored. -/
def State.launchReading (s : State) (q : Nat) (c : Command) : Reading (Desc × List FlumeCfg) :=
  let die := s.leaderDie q
  match s.readDesc die c.context (BitVec.ofNat 48 (c.payload % 2 ^ 64)) (s.fn q).reading with
  | .got d rest => match s.readCfgs die c.context d rest with
    | .got l rest => .got (d, l) rest
    | .fault e => .fault e
    | .waits => .waits
    | .sends rs => .sends rs
  | .fault e => .fault e
  | .waits => .waits
  | .sends rs => .sends rs

/-- R256: an accepted LAUNCH, whose descriptor has been read. -/
def State.intakeLaunch (s : State) (q : Nat) (c : Command) : State :=
  match s.ctx c.context with
  | none => s
  | some x =>
    let num := x.nextTask
    let s := s.setCtx { x with nextTask := nextNumber num }
    let now := s.packageTime
    let t := s.setFn q { s.fn q with reading := [] }
    match s.launchReading q c with
    | .got (d, cfgs) _ => t.acceptTask q (c.entry q now 0 num 0) (newTask c.context num d 0 now cfgs none)
    | .fault code => t.journalBy q (c.entry q now 4 num (5 + code.toNat * 256))
    | _ => t

/-- R402: a KILL before the commit point aborts a migration. -/
def State.abortMigration (s : State) (context : BitVec 8) : State :=
  match s.ctx context with
  | some x =>
    if x.migrating.isSome then
      { s.setCtx { x with migrating := none } with migrations := s.migrations.filter fun m => m.context ≠ context }
    else s
  | none => s

/-- A number that no freeze has to answer. -/
def State.liveTarget (s : State) (context : BitVec 8) (num : BitVec 32) : Bool :=
  if num = 0 then s.tasks.any fun t => t.context = context && t.alive
  else match s.task context num with | some t => t.alive | none => false

/-- R256, R259: an accepted KILL is complete at its freeze instant, or at once when it names no live task. -/
def State.intakeKill (s : State) (q : Nat) (c : Command) : State :=
  let num : BitVec 32 := BitVec.ofNat 32 (c.payload % 2 ^ 32)
  let now := s.packageTime
  let s := s.abortMigration c.context
  if !s.liveTarget c.context num then s.journalBy q (c.entry q now 2 num 0)
  else
    let seq := s.nextSeq
    let target := if num = 0 then none else some num
    let s := s.journalBy q (c.entry q now 0 num 0)
    let (s, _) := s.startFreeze (s.leaderDie q) c.context target 1 0 0
    match freezeFind c.context target s.freezing with
    | some z =>
      { s with freezing := s.freezing.map fun y => if y = z then { y with journal := y.journal ++ [seq] } else y }
    | none => s

/-- R256, R269: a SIGNAL by the leader, which releases at package scope. DESIGN CHOICE (assumption 125): bits [15:12] of the
counter's number are ignored. -/
def State.intakeSignal (s : State) (q : Nat) (c : Command) : State :=
  (s.journalBy q (c.entry q s.packageTime 2 0 0)).signalCounter c.context (BitVec.ofNat 12 c.payload)
    (BitVec.ofNat 64 (c.payload >>> 64))

/-- R255: the leader handles the command next in a queue; `effect` is what an accepted one does. Leadership may move
before it (R262). -/
def State.intake (s : State) (q : Nat) (c : Command) (effect : State → State) : State :=
  let s := s.handover q
  let x := s.fn q
  let s := s.setFn q { x with qhead := low32 (x.qhead + 1) }
  let resync := c.opcode = 4
  let next : Word := BitVec.ofNat 64 c.payload
  if !c.authentic then s.reject q c.accession 1
  else match verdict x.qstate x.expect c.accession resync next with
    | .reject reason st =>
      let s := s.reject q c.accession reason
      s.setFn q { s.fn q with qstate := st }
    | .badResync => (s.reject q c.accession 8).consume q c.accession
    | .accept =>
      if !s.contextBound q c then (s.reject q c.accession 7).consume q c.accession
      else if c.opcode = 0 || 5 < c.opcode.toNat then (s.reject q c.accession 6).consume q c.accession
      else
        let s := if resync then s.setFn q { s.fn q with expect := next, qstate := .isOpen } else s.consume q c.accession
        effect s

/-- The next command of a queue, where its opcode is one of a row's. -/
def State.command (s : State) (q : Nat) (sel : BitVec 16 → Bool) : Option Command :=
  (s.nextSlot q).bind fun b =>
    let c := openCommand q (s.fn q).key.toNat b
    if sel c.opcode then some c else none

/-- R255: whether a command that is next in a queue will be accepted. -/
def State.accepts (s : State) (q : Nat) (c : Command) : Bool :=
  c.authentic && verdict (s.fn q).qstate (s.fn q).expect c.accession (c.opcode = 4) (BitVec.ofNat 64 c.payload) = .accept
    && s.contextBound q c

/-- What a LAUNCH waits for before its leader takes it from the ring: the context's internal queue (R228), then its own
loads of host or peer memory (R346). -/
def State.launchWaits (s : State) (q : Nat) (c : Command) : Bool :=
  s.accepts q c && (match s.ctx c.context with
    | some x => match x.internal with
      | l :: _ => (match s.internalReading x l with | .waits => true | _ => false)
      | [] => (match s.launchReading q c with | .waits => true | _ => false)
    | none => false)

/-- R228, R256: the commands of the context's internal queue come before a LAUNCH; a descriptor or a configuration in host or
peer memory is read by requests that wait for their completions (R346). -/
def execIntakeLaunch (q : BitVec 6) (s : State) : Out :=
  match s.command q.toNat (· = 1) with
  | none => .next s
  | some c =>
    if !s.accepts q.toNat c then .next (s.intake q.toNat c fun s => s.intakeLaunch q.toNat c)
    else
      let s := (s.handover q.toNat).internalAll c.context 256
      if (match s.ctx c.context with | some x => !x.internal.isEmpty | none => false) then .next s
      else match s.launchReading q.toNat c with
        | .waits => .next s
        | .sends rs => .next (s.setFn q.toNat { s.fn q.toNat with reading := (s.fn q.toNat).reading ++ rs })
        | _ => .next (s.intake q.toNat c fun s => s.intakeLaunch q.toNat c)

def execIntakeKill (q : BitVec 6) (s : State) : Out :=
  match s.command q.toNat (· = 2) with
  | some c => .next (s.intake q.toNat c fun s => s.intakeKill q.toNat c)
  | none => .next s

def execIntakeSignal (q : BitVec 6) (s : State) : Out :=
  match s.command q.toNat (· = 3) with
  | some c => .next (s.intake q.toNat c fun s => s.intakeSignal q.toNat c)
  | none => .next s

/-- R259: RESYNC is complete at acceptance. -/
def execResync (q : BitVec 6) (s : State) : Out :=
  match s.command q.toNat (· = 4) with
  | some c => .next (s.intake q.toNat c fun s => s.journalBy q.toNat (c.entry q.toNat s.packageTime 2 0 0))
  | none => .next s

/-- R259: NOP is complete at acceptance. -/
def execIntakeNop (q : BitVec 6) (s : State) : Out :=
  match s.command q.toNat (· = 5) with
  | some c => .next (s.intake q.toNat c fun s => s.journalBy q.toNat (c.entry q.toNat s.packageTime 2 0 0))
  | none => .next s

/-- R255 step 4: an opcode outside R256. -/
def execIntakeBadOpcode (q : BitVec 6) (s : State) : Out :=
  match s.command q.toNat (fun o => o = 0 || 5 < o.toNat) with
  | some c => .next (s.intake q.toNat c id)
  | none => .next s

/-- R270: the next command of a context's internal queue. -/
def execInternalQueueLaunch (context : BitVec 8) (s : State) : Out :=
  match s.ctx context with
  | none => .next s
  | some x =>
    match x.internal with
    | [] => .next s
    | l :: _ => if (s.leaderFor (64 + context.toNat)).isSome && x.migrating.isNone then .next (s.internalNext x l) else .next s

end Sys2Proof.Machine
end

