-- ==== Sys2Proof/Machine/Resets.lean ====
section
/-! DEFINITION. Resets, failures and the loss of power (R211, R219, R341, R358, R368, R392). -/

namespace Sys2Proof.Machine

/-! ## Measurement blocks (R392) -/

/-- 48 bytes as a number, the first byte lowest. -/
def digestOf (l : List Byte) : BitVec 384 := BitVec.ofNat 384 (natOf l)
def digestBytes (d : BitVec 384) : List Byte := bytesOf 48 d.toNat

/-- R392: SHA3-384 of a block's bytes and a digest's. -/
def extendBlock (block digest : BitVec 384) : BitVec 384 := digestOf (sha3_384 (digestBytes block ++ digestBytes digest))

/-- A block extended by the digest of a record. -/
def Security.extend (x : Security) (block : Nat) (record : List Byte) : Security :=
  { x with blocks := vecSet x.blocks block (extendBlock (vecAt x.blocks block 0) (digestOf (sha3_384 record))) }

/-- The bytes of a module image: as many as the four culvert code windows have (R292). -/
def windowImage (images : List Image) : List Byte := ((listAt images 3).getD []).take 0x40000

/-- R4: the core maps of the four dies: a bit for each core, 1 where it is present. DESIGN CHOICE (assumption 126): they follow
the fuses, die 0 first, core 0 in the lowest bit. -/
def coreMaps (absent : List CoreId) : List Byte :=
  (upFrom 0 512).map fun b =>
    BitVec.ofNat 8 ((upFrom 0 8).map fun i => if absent.any (·.index = 8 * b + i) then 0 else 2 ^ i).sum

/-- R392: blocks 0 to 4 are extended once each, in ascending order: three firmware images, the code windows, the fuses with
the core maps. -/
def Security.measure (x : Security) (images : List Image) (absent : List CoreId) : Security :=
  let image := fun (i : Nat) => (listAt images i).getD []
  ((((x.extend 0 (image 0)).extend 1 (image 1)).extend 2 (image 2)).extend 3 (windowImage images)).extend 4
    (Config.fuses ++ coreMaps absent)

/-- The security core's state as the module starts: the counts that no reset takes back stay (R370, R394, R401). -/
def Security.start (x : Security) : Security :=
  { Security.reset with serials := x.serials, draws := x.draws, bindings := x.bindings }

/-- R5, R392: the first context of the module fixes the splits and the reservations: the firmware extends blocks 5 and
6, once (DEDUCED, assumption 107). -/
def State.firstContext (s : State) : State :=
  if !s.sec.fresh then s
  else
    let split := Config.splitRecord (s.dies.toList.map fun (d : Die) => (d.splitMib, d.reserved))
    { s with sec := { ((s.sec.extend 5 split).extend 6 (Config.bootRecord s.hbms s.withheld)) with fresh := false } }

/-! ## Module reset (R211, R392) -/

/-- R211: the zone of a die healthy at boot is synchronised and counts. -/
def Die.boot (d : Die) : Die := { Die.reset with healthy := d.healthy, sync := d.healthy, counting := d.healthy }

/-- R307: the stacks of the healthy dies. -/
def State.healthyStacks (s : State) : List Nat := (upFrom 0 16).filter fun k => (vecAt s.dies (k / 4) .reset).healthy
/-- R210: the lowest die that is healthy at boot. -/
def State.bootReference (s : State) : BitVec 2 :=
  match (upFrom 0 4).filter fun k => (vecAt s.dies k .reset).healthy with
  | d :: _ => BitVec.ofNat 2 d
  | [] => 0

/-- What module reset leaves of the module: the machine as it starts, with the memory, the corpses, the catalogue's
counts, the part's fuses and the script of the surroundings as they were. The culvert code windows hold image 3 (R292);
page copies of revivals are gone. -/
def State.boot (s : State) (images : List Image) : State :=
  let y : Snapshot := (s.shot.zero (2 ^ 70) (2 ^ 90)).zero (windowLoc 0 0) 0x40000
  { State.reset with
    script := s.script, pace := s.pace, hold := s.hold, free := s.free,
    mem := memWrite y.mem (windowLoc 0 0) (windowImage images), tags := y.tags, lines := s.lines, bad := s.bad,
    dies := s.dies.map Die.boot, corpses := s.corpses, placedIds := s.placedIds,
    sec := s.sec.start.measure images s.absent,
    device := s.device, reference := s.bootReference, absent := s.absent, hbms := s.healthyStacks, withheld := s.withheld }

/-- R392: the ROM checks the security core's firmware first; where the check fails it halts the module. -/
def execModuleReset (images : List Image) (s : State) : Out :=
  if Config.vendorAccepts ((listAt images 0).getD []) then .next (s.boot images)
  else .next { s.boot [] with frozen := true, sec := s.sec.start }

/-! ## The reset of one die (R145, R211, R219, R261) -/

/-- The firmware cores of a die start again. -/
def State.restart (s : State) (a : AgentId) : State :=
  s.setAgent (if a = .security then Core.security else { Core.idle a with run := .firmware })

/-- R61: the colours of a die's SRAM and scratchpads read 0. -/
def dieColours (die : Nat) (c : Assoc (BitVec 4)) : Assoc (BitVec 4) :=
  let c := coloursClear c (spadLoc (die * 128) 0) (128 * 0x100000)
  c.filter fun p => !(isSramLoc (p.1 * 32) && (p.1 * 32 - spaceSize) / 0x4000000 % 4 = die)

/-- R211, R219: the zone of the die is unsynchronised, and the timed stores buffered at its homes are missed. DESIGN CHOICE
(assumption 108): its ATIME goes on from where it stands. -/
def execDieReset (die : BitVec 2) (s : State) : Out :=
  let lost := fun (x : Timed) => x.homeDie = die && x.peer.isNone &&
    (match x.arrival with | some a => a ≤ (s.dieAt die).atime | none => false)
  let s := s.setDie die { s.dieAt die with sync := false, counting := true, throttled := false, draining := false }
  let s := { s with colours := dieColours die.toNat s.colours, timed := s.timed.filter (fun x => !lost x),
                    misses := s.misses ++ (s.timed.filter lost).map (fun x => (⟨x, BitVec.allOnes 64, false⟩ : Miss)) }
  let s := (s.restart (.scheduler die)).restart (.archivist die)
  .next (if die = 0 then s.restart .security else s)

/-! ## The failure of a die (R211, R261) -/

/-- A die enters a failure, which may stop its count, or leaves it: then its zone stays unsynchronised if its count had
stopped. DESIGN CHOICE (assumption 118): while it is stopped the die's cores go on executing, and TNOW reads one value. -/
def execDieFailure (die : BitVec 2) (failed stopsCount : Bool) (s : State) : Out :=
  let d := s.dieAt die
  if failed then .next (s.setDie die { d with healthy := false, counting := d.counting && !stopsCount })
  else .next (s.setDie die { d with healthy := true, sync := d.sync && d.counting, counting := true })

/-! ## The reset of a function (R14, R358) -/

/-- R344: the registers of BAR0 at their reset values; the queue's package record (R262) and what is held for the rings
stay. -/
def Fn.cleared (x : Fn) : Fn :=
  { x with qbase := 0, qsize := 0, qtail := 0, qhead := 0, cbase := 0, csize := 0, chead := 0, ctail := 0, ebase := 0,
           esize := 0, ehead := 0, etail := 0, jsel := 0, refused := false, reading := [] }

/-- R358, R401: a freeze of a context bound to a function whose TDI runs for a guest, or for none; one that was pending already
is its freeze too. -/
def State.freezeOne (s : State) (die : BitVec 2) (guest : Option Nat) (context : BitVec 8) : State :=
  let s := (s.startFreeze die context none 3 0 0).1
  { s with freezing := s.freezing.map fun z =>
      if z.context = context && z.tasks.isNone then { z with guest := z.guest.or guest } else z }

/-- R358: a freeze of every context bound to a function. -/
def State.freezeBound (s : State) (f : BitVec 6) (die : BitVec 2) : List (Nat × Ctx) → State
  | [] => s
  | (_, c) :: rest =>
    let x := s.fn f.toNat
    State.freezeBound (if c.fn = f then s.freezeOne die (if x.tdi = .run then x.binding else none) c.num else s) f die rest

def execFunctionReset (f : BitVec 6) (s : State) : Out :=
  let s := s.setFn f.toNat (s.fn f.toNat).cleared
  .next (s.freezeBound f (s.leaderDie f.toNat) s.contexts)

/-! ## The loss of power (R368) -/

/-- Every corpse is lost, and with it all that the module held, but not what hosts and peers hold; nothing runs until the next module reset. -/
def execPowerLoss (s : State) : Out :=
  .next { State.reset with script := s.script, pace := s.pace, hold := s.hold, free := s.free, device := s.device,
                           absent := s.absent, mem := s.mem.filter (fun c => isHostLoc c.1 || isPeerLoc c.1), sec := s.sec.start,
                           frozen := true }

end Sys2Proof.Machine
end

