-- ==== Sys2Proof/Machine/Ed448.lean ====
section
/-! DEFINITION. Ed448 (RFC 8032), with which the module's identity, SPDM and migration sign (R393, R396, R402). -/

namespace Sys2Proof.Machine

/-! ## The curve x^2 + y^2 = 1 + d x^2 y^2 -/

abbrev edP : Nat := 2 ^ 448 - 2 ^ 224 - 1
/-- The order of the base point. -/
abbrev edL : Nat := 2 ^ 446 - 13818066809895115352007386748515426880336692474882178609894547503885
abbrev edD : Nat := edP - 39081

/-- A point in projective coordinates. -/
structure EdPoint where
  x : Nat
  y : Nat
  z : Nat
  deriving DecidableEq, Repr

def EdPoint.zero : EdPoint := ⟨0, 1, 1⟩
def EdPoint.base : EdPoint :=
  ⟨224580040295924300187604334099896036246789641632564134246125461686950415467406032909029192869357953282578032075146446173674602635247710,
   298819210078481492676017930443930673437544040154080242095928241372331506189835876003536878655418784733982303233503462500531545062832660, 1⟩

def edMul (a b : Nat) : Nat := a * b % edP
def edSub (a b : Nat) : Nat := (a + edP - b % edP) % edP

def EdPoint.add (u v : EdPoint) : EdPoint :=
  let a := edMul u.z v.z
  let b := edMul a a
  let c := edMul u.x v.x
  let d := edMul u.y v.y
  let e := edMul edD (edMul c d)
  let f := edSub b e
  let g := (b + e) % edP
  ⟨edMul (edMul a f) (edSub (edMul (u.x + u.y) (v.x + v.y)) (c + d)), edMul (edMul a g) (edSub d c), edMul f g⟩

/-- The multiple of a point by the `n` low bits of a number. -/
def EdPoint.times (u : EdPoint) (k : Nat) : Nat → EdPoint
  | 0 => .zero
  | n + 1 =>
    let h := EdPoint.times u (k / 2) n
    let h := h.add h
    if k % 2 = 1 then h.add u else h

/-- A power modulo the prime, of an exponent of `n` bits. -/
def edPow (a k : Nat) : Nat → Nat
  | 0 => 1
  | n + 1 => let h := edPow a (k / 2) n; let h := edMul h h; if k % 2 = 1 then edMul h a else h

/-- The 57 bytes of a point: y, and the parity of x in the last bit. -/
def EdPoint.bytes (u : EdPoint) : List Byte :=
  let i := edPow u.z (edP - 2) 448
  bytesOf 57 (edMul u.y i + edMul u.x i % 2 * 2 ^ 455)

/-- The point of 57 bytes, where they are those of one. -/
def EdPoint.ofBytes (b : List Byte) : Option EdPoint :=
  let v := natOf b
  let y := v % 2 ^ 455
  let yy := edMul y y
  let num := edSub yy 1
  let den := edSub (edMul edD yy) 1
  let x := edMul (edMul (edMul num (edMul num num)) den) (edPow (edMul (edPow num 5 3) (edPow den 3 2)) ((edP - 3) / 4) 446)
  let sign := v / 2 ^ 455
  if b.length ≠ 57 || edP ≤ y || edMul den (edMul x x) ≠ num || x = 0 && sign = 1 then none
  else some ⟨if x % 2 = sign then x else edP - x, y, 1⟩

/-! ## Keys and signatures -/

/-- The prefix dom4 of a signature without a context. -/
def edDom : List Byte := [0x53, 0x69, 0x67, 0x45, 0x64, 0x34, 0x34, 0x38, 0, 0]

/-- The secret scalar of a seed of 57 bytes. -/
def edScalar (seed : List Byte) : Nat :=
  let h := natOf ((shake256 seed 114).take 57)
  h % 2 ^ 447 / 4 * 4 + 2 ^ 447
/-- The public key of a seed. -/
def ed448Public (seed : List Byte) : List Byte := (EdPoint.base.times (edScalar seed) 448).bytes

/-- The signature of a message under a seed: 114 bytes. -/
def ed448Sign (seed msg : List Byte) : List Byte :=
  let s := edScalar seed
  let r := natOf (shake256 (edDom ++ (shake256 seed 114).drop 57 ++ msg) 114) % edL
  let big := (EdPoint.base.times r 446).bytes
  let k := natOf (shake256 (edDom ++ big ++ ed448Public seed ++ msg) 114) % edL
  big ++ bytesOf 57 ((r + k * s) % edL)

/-- Whether 114 bytes are the signature of a message under a public key. -/
def ed448Verify (key msg sig : List Byte) : Bool :=
  let big := sig.take 57
  let s := natOf (sig.drop 57)
  match EdPoint.ofBytes key, EdPoint.ofBytes big with
  | some a, some r =>
    let k := natOf (shake256 (edDom ++ big ++ key ++ msg) 114) % edL
    sig.length = 114 && s < edL && (EdPoint.base.times (4 * s) 448).bytes = ((r.times 4 3).add (a.times (4 * k) 448)).bytes
  | _, _ => false

end Sys2Proof.Machine
end

