-- ==== Sys2Proof/Machine/Spdm.lean ====
section
/-! DEFINITION. SPDM over the DOE mailboxes: identity, connections, transcripts and sessions (R393 to R396). -/

namespace Sys2Proof.Machine

/-! ## Identity (R393) -/

/-- The seed of the DeviceID key: SHAKE256 of the unique device secret and block 0. DESIGN CHOICE (assumption 127): the 32 bytes of
the secret, then the 48 of the block. -/
def State.deviceKey (s : State) : List Byte :=
  shake256 (bytesOf 32 Config.deviceSecret.toNat ++ digestBytes (vecAt s.sec.blocks 0 0)) 57
/-- Blocks 1 to 6. -/
def State.aliasBlocks (s : State) : List (BitVec 384) := (upFrom 1 6).map fun i => vecAt s.sec.blocks i 0
def State.aliasKey (s : State) : List Byte := bytesOf 57 (Config.aliasSeed s.deviceKey s.aliasBlocks).toNat

/-- The DeviceID certificate: the DeviceID key and what the CA has signed it with. DESIGN CHOICE (assumption 127): a
certificate is what it carries, then its signature. -/
def State.deviceCertificate (s : State) : List Byte := ed448Public s.deviceKey ++ Config.caSign (ed448Public s.deviceKey)
/-- What the Alias certificate carries: the Alias key and blocks 0 to 6. -/
def State.aliasBody (s : State) : List Byte :=
  ed448Public s.aliasKey ++ (upFrom 0 7).flatMap fun i => digestBytes (vecAt s.sec.blocks i 0)
/-- Slot 0: the chain root, DeviceID, Alias; the DeviceID key signs the Alias certificate. -/
def State.certificateChain (s : State) : List Byte :=
  Config.rootCertificate ++ s.deviceCertificate ++ s.aliasBody ++ ed448Sign s.deviceKey s.aliasBody

/-- R396: a signature over a transcript, with the signing-context prefix of its response. -/
def State.signTranscript (s : State) (code : BitVec 8) (t : List Byte) : List Byte :=
  ed448Sign s.aliasKey (Config.signingContext code ++ sha3_384 t)

/-! ## Messages (R394, R395) -/

def State.spdmOf (s : State) (f : BitVec 6) : Spdm := (s.fn f.toNat).spdm
def State.setSpdm (s : State) (f : BitVec 6) (x : Spdm) : State := s.setFn f.toNat { s.fn f.toNat with spdm := x }

/-- An ERROR response with an error code and ErrorData 0. -/
def spdmError (code : BitVec 8) : List Byte := Config.spdmBytes 0x7F [code, 0]
/-- The codes of ERROR: InvalidRequest, UnexpectedRequest, DecryptError, UnsupportedRequest. -/
abbrev eInvalid : BitVec 8 := 0x01
abbrev eUnexpected : BitVec 8 := 0x04
abbrev eDecrypt : BitVec 8 := 0x06
abbrev eUnsupported : BitVec 8 := 0x07

/-- R395: an ERROR changes no state and enters no transcript. -/
def State.spdmRefuse (s : State) (f : BitVec 6) (code : BitVec 8) : State :=
  s.setSpdm f { s.spdmOf f with response := spdmError code }

/-- A request of the state Negotiated. -/
def State.negotiated (s : State) (f : BitVec 6) (body : Spdm → State) : Out :=
  let x := s.spdmOf f
  .next (if x.state = .negotiated then body x else s.spdmRefuse f eUnexpected)

/-- 32 bytes of the responder or of the requester. -/
def nonceBytes (v : BitVec 256) : List Byte := bytesOf 32 v.toNat

/-- R394: the responder's DRBG, whose draws no reset takes back: the next draw but `k`, and the state after `n`. -/
def State.draw (s : State) (k : Nat) : BitVec 256 := Config.drbg (s.sec.draws + k)
def State.drawn (s : State) (n : Nat) : State := { s with sec := { s.sec with draws := s.sec.draws + n } }

/-! ## Connecting (R394, R395) -/

/-- Accepted in every state: any session ends, the connection is Versioned, the transcripts begin. -/
def execGetVersion (f : BitVec 6) (s : State) : Out :=
  let rsp := Config.spdmBytes 0x04 [0x00, 0x13]
  .next (s.setSpdm f { Spdm.reset with state := .versioned, vca := Config.spdmBytes 0x84 [] ++ rsp, response := rsp })

/-- CERT, CHAL, MEAS with signature and KEY_EX, as SPDM's flag bits. -/
abbrev capabilityFlags : Nat := 0x216

/-- The request's own flags and other bytes are part of the transcript (R396). -/
def execGetCapabilities (request : CapsRequest) (s : State) : Out :=
  let f := request.fn
  let x := s.spdmOf f
  let req := Config.spdmBytes 0xE1 (bytesOf 4 request.flags.toNat ++ request.more)
  let rsp := Config.spdmBytes 0x61 (bytesOf 4 capabilityFlags)
  .next (if x.state = .versioned then s.setSpdm f { x with state := .capable, vca := x.vca ++ req ++ rsp, response := rsp }
    else s.spdmRefuse f eUnexpected)

/-- R394, as SPDM's bits: Ed448; SHA3-384; secp384r1; AES-256-GCM. -/
abbrev algEd448 : BitVec 32 := 0x800
abbrev algSha3 : BitVec 32 := 0x10
abbrev algSecp384 : BitVec 16 := 0x10
abbrev algGcm : BitVec 16 := 0x2

/-- The bytes of the requester's offer. -/
def offerBytes (o : AlgOffer) : List Byte :=
  bytesOf 4 o.asym.toNat ++ bytesOf 4 o.hash.toNat ++ bytesOf 2 o.dhe.toNat ++ bytesOf 2 o.aead.toNat ++ o.more
/-- What is selected: the measurement hash, and of each mask of the offer what the responder supports. -/
def offerSelected (o : AlgOffer) : List Byte :=
  bytesOf 4 (o.asym &&& algEd448).toNat ++ bytesOf 4 (o.hash &&& algSha3).toNat ++ bytesOf 4 0x20
    ++ bytesOf 2 (o.dhe &&& algSecp384).toNat ++ bytesOf 2 (o.aead &&& algGcm).toNat

/-- DESIGN CHOICE (assumption 128): an offer without Ed448 or SHA3-384 is an invalid request; without secp384r1 or AES-256-GCM
the connection has no sessions. -/
def execNegotiateAlgorithms (offer : AlgOffer) (s : State) : Out :=
  let f := offer.fn
  let x := s.spdmOf f
  let rsp := Config.spdmBytes 0x63 (offerSelected offer)
  .next (if x.state ≠ .capable then s.spdmRefuse f eUnexpected
    else if offer.asym &&& algEd448 = 0 || offer.hash &&& algSha3 = 0 then s.spdmRefuse f eInvalid
    else
      s.setSpdm f { x with state := .negotiated, vca := x.vca ++ Config.spdmBytes 0xE3 (offerBytes offer) ++ rsp, certs := [], meas := [],
                           secure := offer.dhe &&& algSecp384 ≠ 0 && offer.aead &&& algGcm ≠ 0, response := rsp })

/-! ## Certificates, challenges and measurements (R393, R396) -/

/-- A portion of up to 1,024 bytes of the chain of slot 0, with its length and what remains after it. -/
def execGetCertificate (f : BitVec 6) (slot : BitVec 4) (offset length : Nat) (s : State) : Out :=
  s.negotiated f fun x =>
    let chain := s.certificateChain
    if slot ≠ 0 || chain.length ≤ offset then s.spdmRefuse f eInvalid
    else
      let part := (chain.drop offset).take (min length 1024)
      let req := Config.spdmBytes 0x82 (BitVec.ofNat 8 slot.toNat :: bytesOf 2 offset ++ bytesOf 2 length)
      let rsp := Config.spdmBytes 0x02
        (BitVec.ofNat 8 slot.toNat :: bytesOf 2 part.length ++ bytesOf 2 (chain.length - offset - part.length) ++ part)
      s.setSpdm f { x with certs := x.certs ++ req ++ rsp, response := rsp }

/-- The response carries the hash of the chain and the responder's nonce, and is signed. -/
def execChallenge (f : BitVec 6) (slot : BitVec 4) (nonce : BitVec 256) (s : State) : Out :=
  s.negotiated f fun x =>
    if slot ≠ 0 then s.spdmRefuse f eInvalid
    else
      let req := Config.spdmBytes 0x83 (BitVec.ofNat 8 slot.toNat :: nonceBytes nonce)
      let rsp := Config.spdmBytes 0x03 (BitVec.ofNat 8 slot.toNat :: sha3_384 s.certificateChain ++ nonceBytes (s.draw 0))
      let sig := s.signTranscript 0x03 (x.vca ++ x.certs ++ req ++ rsp)
      (s.drawn 1).setSpdm f { x with response := rsp ++ sig }

/-- R394: index 0xFF returns all sixteen blocks, 1 to 16 one, 0 their count. -/
def State.measured (s : State) (index : BitVec 8) : Option (List Byte) :=
  if index = 0xFF then some (16 :: (upFrom 0 16).flatMap fun i => digestBytes (vecAt s.sec.blocks i 0))
  else if index = 0 then some [16]
  else if index.toNat ≤ 16 then some (1 :: digestBytes (vecAt s.sec.blocks (index.toNat - 1) 0))
  else none

/-- Signed: the signature covers the exchanges since the last signed one, and a new transcript begins. -/
def execGetMeasurements (f : BitVec 6) (index : BitVec 8) (signed : Bool) (nonce : BitVec 256) (s : State) : Out :=
  s.negotiated f fun x =>
    match s.measured index with
    | none => s.spdmRefuse f eInvalid
    | some body =>
      let req := Config.spdmBytes 0xE0 ([if signed then 1 else 0, index] ++ (if signed then nonceBytes nonce else []))
      let rsp := Config.spdmBytes 0x60 (body ++ nonceBytes (s.draw 0))
      let all := x.meas ++ req ++ rsp
      let sig := if signed then s.signTranscript 0x60 (x.vca ++ all) else []
      (s.drawn 1).setSpdm f { x with meas := if signed then [] else all, response := rsp ++ sig }

/-! ## Sessions (R394, R395) -/

/-- R401: a guest that establishes a session is the one that the function is bound to, or will be next (assumption 131). -/
def execKeyExchange (f : BitVec 6) (slot : BitVec 4) (exchange : BitVec 768) (guest : Bool) (s : State) : Out :=
  s.negotiated f fun x =>
    if slot ≠ 0 || !x.secure then s.spdmRefuse f eInvalid
    else
      let secret := s.draw 0
      let req := Config.spdmBytes 0xE4 (BitVec.ofNat 8 slot.toNat :: bytesOf 96 exchange.toNat)
      let rsp := Config.spdmBytes 0x64 (nonceBytes (s.draw 1) ++ bytesOf 96 (Config.ecdhePublic secret).toNat)
      let keyed := x.vca ++ sha3_384 s.certificateChain ++ req ++ rsp
      let sig := s.signTranscript 0x64 keyed
      let t := (if guest then s.bindGuest f.toNat else s).drawn 2
      t.setSpdm f { x with keyed := keyed ++ sig, session := some (Config.ecdheSecret secret exchange), finished := false,
                           guest := if guest then (t.fn f.toNat).binding else none, sent := 0, received := 0, response := rsp ++ sig }

/-- The verify data of a session: over its key exchange and the FINISH request. -/
def Spdm.verifyData (x : Spdm) (secret : BitVec 384) : BitVec 384 :=
  Config.finishMac secret (digestOf (sha3_384 (x.keyed ++ Config.spdmBytes 0xE5 [])))

def execFinish (f : BitVec 6) (verify : BitVec 384) (s : State) : Out :=
  s.negotiated f fun x =>
    match x.session, x.finished with
    | some secret, false =>
      if verify = x.verifyData secret then s.setSpdm f { x with finished := true, response := Config.spdmBytes 0x65 [] }
      else s.setSpdm f { x with session := none, response := spdmError eDecrypt }
    | _, _ => s.spdmRefuse f eUnexpected

/-- Whether a connection holds a session. -/
def Spdm.inSession (x : Spdm) : Bool := x.state = .negotiated && x.session.isSome && x.finished

/-- R394: message number `n` of a session's direction, sealed with AES-256-GCM. DESIGN CHOICE (assumption 129): from FINISH on
each message is one record; its vector is the direction's changed by the number of the message, which it authenticates. -/
def Spdm.sealed (x : Spdm) (toRequester : Bool) (n : Nat) (msg : List Byte) : List Byte :=
  match x.session with
  | some k => gcmSeal (Config.sessionKey k toRequester).toNat ((Config.sessionIv k toRequester).toNat ^^^ n) n msg
  | none => msg

/-- Whether a record carries a request of the session, in its turn. -/
def Spdm.opens (x : Spdm) (record request : List Byte) : Bool := record = x.sealed false x.received request
/-- A request has been taken, and its response goes out in the session. -/
def Spdm.answer (x : Spdm) (msg : List Byte) : Spdm :=
  { x with received := x.received + 1, sent := x.sent + 1, response := x.sealed true x.sent msg }
def State.sessionAnswer (s : State) (f : BitVec 6) (msg : List Byte) : State := s.setSpdm f ((s.spdmOf f).answer msg)

def execEndSession (request : SealedRequest) (s : State) : Out :=
  let f := request.fn
  s.negotiated f fun x =>
    if !x.inSession then s.spdmRefuse f eUnexpected
    else if !x.opens request.record (Config.spdmBytes 0xEC []) then s.spdmRefuse f eDecrypt
    else s.setSpdm f { x.answer (Config.spdmBytes 0x6C []) with session := none, finished := false, guest := none }

/-! ## Other requests (R394, R395) -/

/-- The request codes of R394. -/
def supportedCodes : List (BitVec 8) := [0x84, 0xE1, 0xE3, 0x82, 0x83, 0xE0, 0xE4, 0xE5, 0xEC, 0xFE]

def execSpdmUnsupportedRequest (f : BitVec 6) (code : BitVec 8) (s : State) : Out :=
  .next (if supportedCodes.contains code then s else s.spdmRefuse f eUnsupported)

/-- R395: the request in hand is discarded, with no effect on state. -/
def execDoeAbort (_f : BitVec 6) (s : State) : Out := .next s

end Sys2Proof.Machine
end

