-- ==== Sys2Proof/Machine/Contexts.lean ====
section
/-! DEFINITION. Contexts, the vendor commands of the security core and migration (R397, R399, R402). -/

namespace Sys2Proof.Machine

/-! ## The life of a context (R399) -/

/-- Bytes of device memory, at addresses that map it. -/
def Extent.holds (x : Extent) (f : Fitted) : Bool := inDev x.va && inDev (x.va + x.bytes - 1) && f.holds x.pa x.bytes

/-- R141, R404: where a record area and a trace ring may be placed. -/
def Ctx.placed (c : Ctx) (f : Fitted) : Bool :=
  c.fixed.all (fun x => x.holds f) && c.area.toNat % 65536 = 0 && c.areaPa % 65536 = 0
    && c.trace.toNat % 65536 = c.tracePa % 65536 && 10 ≤ c.traceLog && c.traceLog ≤ 20

/-! ## Pages (R369, R399) -/

/-- The addresses at which a table and those below it have leaves. -/
def tableLeaves (rd : Nat → Nat) : List (Nat × Nat × Nat × Nat) → Nat → Nat → List Nat
  | [], _, _ => []
  | (_, shift, bits, _) :: rest, va, table =>
    (upFrom 0 (2 ^ bits)).flatMap fun i =>
      let e := rd (table + 16 * i)
      if e % 2 = 0 then []
      else if bitsAt e 1 1 = 1 then [va + i * 2 ^ shift]
      else tableLeaves rd rest (va + i * 2 ^ shift) (bitsAt e 9 35 * 512)

/-- The pages of device memory and die SRAM that a context's space maps as its own, with what is mapped for good: address,
location and size. -/
def pagesOf (mem : List Host.Cell) (f : Fitted) (fixed : List Extent) (context : BitVec 8) (root : Nat) : List (Nat × Nat × Nat) :=
  (fixed.map fun x => (x.va / 65536 * 65536, devLoc (x.pa / 65536 * 65536), (x.pa % 65536 + x.bytes + 65535) / 65536 * 65536))
    ++ (tableLeaves (fun pa => natOf (memRead mem (devLoc pa) 16)) walkLevels 0 root).filterMap fun va =>
      match walkIn mem f root va with
      | .ok l => if l.owner = context && (inDev va || inSram va) then some (va, physLoc va l.pa, l.size) else none
      | .error _ => none
def State.ownPages (s : State) (c : Ctx) : List (Nat × Nat × Nat) := pagesOf s.mem s.fitted c.fixed c.num c.root

/-- R369: the pages that a corpse retains where its context had them: those that nothing has copied. -/
def Corpse.retained (k : Corpse) (f : Fitted) : List (Nat × Nat × Nat) :=
  (k.space.flatMap fun l => match l with
    | .tree root fixed owner y => pagesOf y.mem f fixed owner root
    | .copies _ _ _ => []).filter fun p => (assocGet k.copied (pageUnit p.1 p.2.2)).isNone

/-- R399: a corpse retains nothing of these pages. -/
def State.givable (s : State) (pages : List (Nat × Nat × Nat)) : Bool :=
  s.corpses.all fun k => (k.retained s.fitted).all fun p => pages.all fun q => p.2.1 + p.2.2 ≤ q.2.1 || q.2.1 + q.2.2 ≤ p.2.1

/-- R399: every owner register of the context reads 0. -/
def State.ownsNothing (s : State) (context : BitVec 8) : Bool :=
  !(s.owners.any fun p => p.2 = context) && !(s.weirs.any fun p => p.2.owner = context)
    && !(s.flumes.any fun p => p.2.owner = context)

/-- A new context: bound to one function, its root set, a fresh creation serial, no core and no channel; its record area
and its trace ring are mapped, and the header of the ring is written (R404). No page that a corpse retains is given to it. -/
def execContextCreate (context : BitVec 8) (f : BitVec 6) (root : BitVec 44) (area : Addr) (areaPa : BitVec 44) (trace : Addr)
    (tracePa : BitVec 44) (traceLog : Nat) (s : State) : Out :=
  let c : Ctx :=
    { num := context, serial := s.sec.serials + 1, fn := f, root := root.toNat, counters := [], quota := 2 ^ 31, charged := 0,
      nextTask := 1, accession := 0, internal := [], mounts := [], lastSlot := none, area := area, areaPa := areaPa.toNat,
      trace := trace, tracePa := tracePa.toNat, traceLog := traceLog, written := 0, migrating := none }
  if context = 0 || (s.ctx context).isSome || !c.placed s.fitted || !s.ownsNothing context || !s.givable (s.ownPages c) then .next s
  else
    let s := s.firstContext
    let s := { s with sec := { s.sec with serials := s.sec.serials + 1 } }
    let h := devLoc tracePa.toNat
    .next (((s.setCtx c).takeLines 0 (unitsOf 64 h 128)).writeBytes h (bytesOf 8 0 ++ bytesOf 4 traceLog ++ List.replicate 116 0))

/-! ## Pages given up (R399) -/

/-- R61, R399: pages are zeroed and their colours set to 0 before another context has them. A corpse keeps what it
retains (R369). -/
def State.zeroPages (s : State) : List (Nat × Nat × Nat) → State
  | [] => s
  | (_, l, n) :: rest =>
    let s := s.setShot (s.shot.zero l n)
    State.zeroPages { s with lines := s.lines.filter (fun p => !(l ≤ p.1 * 64 && p.1 * 64 < l + n)), bad := badAfter s.bad l n } rest

/-- A context's state is gone: its pages, its tasks, its decrypt channels' bindings, its buffered translations. Its
corpses stay. -/
def State.eraseContext (s : State) (context : BitVec 8) : State :=
  let s := match s.ctx context with | some c => s.zeroPages (s.ownPages c) | none => s
  { s with contexts := assocDel s.contexts context.toNat, tasks := s.tasks.filter (fun t => t.context ≠ context),
           tlb := s.tlb.filter (fun e => e.context ≠ context),
           overlays := s.overlays.filter (fun o => o.context ≠ context),
           internalLeader := assocDel s.internalLeader context.toNat,
           sec := { s.sec with channels := s.sec.channels.filter fun p => p.2.context ≠ context } }

def execContextDestroy (context : BitVec 8) (s : State) : Out :=
  if (s.ctx context).isSome && s.ownsNothing context then .next (s.eraseContext context) else .next s

/-! ## Vendor commands (R397) -/

/-- R397: accepted only through the mailbox of the function or the physical function's for it; while the TDI is locked or runs,
only through the session that the bound guest established. -/
def State.vendorAccepts (s : State) (x : Session) : Bool :=
  let f := s.fn x.fn.toNat
  (x.box = x.fn || x.box = 0)
    && (f.tdi = .unlocked || x.box = x.fn && f.binding.isSome && (s.spdmOf x.box).guest = f.binding)

/-- A command, answered in its session with its code and what it returns; one that is refused with an ERROR. DESIGN CHOICE
(assumption 129): its bytes are its function, its code and its fields. -/
def State.vendor (s : State) (x : Session) (code : BitVec 8) (fields : List Byte) (body : State → Option (State × List Byte)) : Out :=
  let m := s.spdmOf x.box
  .next (if !m.inSession then s.spdmRefuse x.box eUnexpected
    else if !m.opens x.record (Config.spdmBytes 0xFE (BitVec.ofNat 8 x.fn.toNat :: code :: fields)) then s.spdmRefuse x.box eDecrypt
    else if !s.vendorAccepts x then s.sessionAnswer x.box (spdmError eUnexpected)
    else match body s with
      | none => s.sessionAnswer x.box (spdmError eInvalid)
      | some (t, answer) => t.sessionAnswer x.box (Config.spdmBytes 0x7E (code :: answer)))

/-- A context bound to the session's function. -/
def State.boundCtx (s : State) (x : Session) (context : BitVec 8) : Option Ctx :=
  match s.ctx context with
  | some c => if c.fn = x.fn then some c else none
  | none => none

/-- R253: the key of the function's queue, its number E at 0, and the queue OPEN. -/
def execRekeyQueue (x : Session) (q : BitVec 6) (key : BitVec 256) (s : State) : Out :=
  s.vendor x 0x01 (BitVec.ofNat 8 q.toNat :: bytesOf 32 key.toNat) fun s =>
    if q ≠ x.fn then none
    else some (s.setFn q.toNat { s.fn q.toNat with key := key, expect := 0, qstate := .isOpen }, [])

/-- R302: the key of a channel, the context that it is bound to, its counter; a halt is cleared. -/
def execBindChannel (x : Session) (channel : BitVec 10) (context : BitVec 8) (key : BitVec 256) (n : Word) (s : State) : Out :=
  s.vendor x 0x02 (bytesOf 2 channel.toNat ++ context :: bytesOf 32 key.toNat ++ bytesOf 8 n.toNat) fun s =>
    let held := match assocGet s.sec.channels channel.toNat with | some k => (s.boundCtx x k.context).isSome | none => true
    if (s.boundCtx x context).isNone || !held then none
    else
      let k : Channel := { context := context, key := key, next := n, halted := false }
      some ({ s with sec := { s.sec with channels := assocPut s.sec.channels channel.toNat k } }, [])

/-- A corpse of a context bound to the session's function. -/
def State.boundCorpse (s : State) (x : Session) (corpse : BitVec 32) : Option Corpse :=
  match corpseFind corpse s.corpses with
  | some k => if k.fn = x.fn then some k else none
  | none => none

/-- R370: an entry of a context with its creation serial joins a grant set of up to eight; those of a context number leave it,
whether the context lives or not. R401: that of a corpse from the reset of a running TDI changes only through the session of
the guest that the function was bound to. -/
def execGrantCorpse (x : Session) (corpse : BitVec 32) (context : BitVec 8) (add : Bool) (s : State) : Out :=
  s.vendor x 0x03 (bytesOf 4 corpse.toNat ++ [context, if add then 1 else 0]) fun s =>
    match s.boundCorpse x corpse with
    | none => none
    | some k =>
      let put := fun (l : List (BitVec 8 × Nat)) => some ({ s with corpses := corpseMap k.id (fun k => { k with grants := l }) s.corpses }, [])
      if k.guest.isSome && !(x.box = x.fn && (s.spdmOf x.box).guest = k.guest) then none
      else if !add then put (k.grants.filter fun e => e.1 ≠ context)
      else match s.ctx context with
        | none => none
        | some c =>
          if k.grants.contains (c.num, c.serial) then put k.grants
          else if 8 ≤ k.grants.length then none
          else put (k.grants ++ [(c.num, c.serial)])

/-- R368: an unmounted corpse is discarded. -/
def execDiscardCorpse (x : Session) (corpse : BitVec 32) (s : State) : Out :=
  s.vendor x 0x04 (bytesOf 4 corpse.toNat) fun s =>
    match s.boundCorpse x corpse with
    | some k => if s.mounted k.id then none else some (s.discard k.id, [])
    | none => none

/-- R367: in steps of 64 MiB. -/
def execSetQuota (x : Session) (context : BitVec 8) (bytes : Nat) (s : State) : Out :=
  s.vendor x 0x05 (context :: bytesOf 8 bytes) fun s =>
    match s.boundCtx x context with
    | some c => if bytes % 2 ^ 26 = 0 then some (s.setCtx { c with quota := bytes }, []) else none
    | none => none

/-- R392: one of blocks 7 to 15. -/
def execExtend (x : Session) (block : BitVec 4) (digest : BitVec 384) (s : State) : Out :=
  s.vendor x 0x06 (BitVec.ofNat 8 block.toNat :: digestBytes digest) fun s =>
    if block < 7 then none
    else
      let b := s.sec.blocks
      some ({ s with sec := { s.sec with blocks := vecSet b block.toNat (extendBlock (vecAt b block.toNat 0) digest) } }, [])

/-- R398: the security core writes the owner register with OWNR. -/
def State.asSecurity (s : State) (f : State → State × Word) : State × Word :=
  let (t, w) := f (s.focus .security)
  (t.focus s.core.agent, w)

def execAssign (x : Session) (target : Word) (owner : BitVec 8) (s : State) : Out :=
  s.vendor x 0x08 (bytesOf 8 target.toNat ++ [owner]) fun s =>
    match ownTarget target.toNat with
    | none => none
    | some o =>
      let old := s.ownerOf o
      let foreign := old ≠ 0 && (s.boundCtx x old).isNone
      if foreign || (owner ≠ 0 && (s.boundCtx x owner).isNone) then none
      else
        let (s, w) := s.asSecurity fun s => s.writeOwner o owner
        some (s, bytesOf 8 w.toNat)

/-! ## Migration (R402) -/

/-- What a context's sealed state holds, and what it is at the destination: the context, its tasks, its pages with
their tags and colours, its decrypt channels. -/
structure Arrived where
  ctx      : Ctx
  tasks    : List Task
  cells    : List Host.Cell
  tags     : List Nat
  colours  : Assoc (BitVec 4)
  channels : Assoc Channel
  deriving DecidableEq, Repr

/-- The bytes that a context's saved state, pages, counters and keys are sealed from, and what they say at the
destination, which has pages of its own for them. -/
opaque Config.contextImage : State → BitVec 8 → List Byte
opaque Config.contextOf : State → List Byte → Option Arrived

/-- R402: the owner registers of a context are released. -/
def State.releaseOwned (s : State) (context : BitVec 8) : State :=
  let targets : List OwnTarget := (s.owners.filter fun p => p.2 = context).map (fun p => .core (coreAt p.1))
    ++ (s.weirs.filter fun p => p.2.owner = context).map (fun p => .weir p.1)
    ++ (s.flumes.filter fun p => p.2.owner = context).map (fun p => .flume p.1)
  targets.foldl (fun s o => (s.asSecurity fun s => s.writeOwner o 0).1) s
/-- R402: a context's keys and its state are erased, and what it owned is free. -/
def State.leave (s : State) (context : BitVec 8) : State := (s.eraseContext context).releaseOwned context

def migrationFind (context : BitVec 8) : List Migration → Option Migration
  | [] => none
  | m :: rest => if m.context = context then some m else migrationFind context rest
def State.dropMigration (s : State) (context : BitVec 8) : State :=
  { s with migrations := s.migrations.filter fun m => m.context ≠ context }

/-- R259: an entry of a migration. -/
def migrationEntry (context : BitVec 8) (opcode : BitVec 16) (now : Tick) : Journal :=
  { accession := 0, seq := 0, accept := now, queue := 255, context := context, opcode := opcode, outcome := 2, cls := 0, task := 0,
    corpse := 0, done := now, result := 0 }

/-- R402 step 1: a task of the context is preempted. -/
def State.preemptAll (s : State) : List Task → State
  | [] => s
  | t :: rest => State.preemptAll (s.preempt t (if t.stopping then .stopped else .preempted)) rest

/-- Running tasks of a context. -/
def State.runningOf (s : State) (context : BitVec 8) : List Task := s.tasks.filter fun t => t.context = context && t.state = .running

/-- R402 steps 1 and 2. While a core awaits a value, its task cannot stop (R271): the command, given again, goes on. -/
def State.migrateOut (s : State) (c : Ctx) (device : BitVec 19) : State :=
  let s := s.setCtx { c with migrating := some device }
  let run := s.runningOf c.num
  if run.any s.awaits then s
  else
    let s := s.preemptAll run
    let text := Config.sealState device (Config.contextImage s c.num)
    let m : Migration := { context := c.num, device := device, digest := digestOf (sha3_384 text), stage := .atSource, serial := c.serial }
    { (s.releaseScheduler 0).journalAdd (migrationEntry c.num 0x0100 s.packageTime) with migrations := s.migrations ++ [m] }

def execMigrate (x : Session) (context : BitVec 8) (device : BitVec 19) (s : State) : Out :=
  s.vendor x 0x07 (context :: bytesOf 3 device.toNat) fun s =>
    match s.boundCtx x context with
    | none => none
    | some c =>
      if (migrationFind context s.migrations).isSome || !(c.migrating.isNone || c.migrating = some device)
          || !s.sec.sessions.contains device then none
      else some (s.migrateOut c device, [])

/-- R402 step 3, at the destination: the state is opened and installed; its receipt, signed over the digest of the sealed state,
goes back. Until it is confirmed the context stands still. -/
def State.install (s : State) (source : BitVec 19) (context : BitVec 8) (a : Arrived) (text : List Byte) : State :=
  let serial := s.sec.serials + 1
  let c := { a.ctx with num := context, serial := serial, migrating := some source }
  let x : Snapshot := ⟨memMerge s.mem a.cells, setAddAll s.tags a.tags, assocPutAll s.colours (a.colours.filter fun p => p.2 ≠ 0)⟩
  let tasks := a.tasks.map fun t => { t with context := context }
  let s := s.firstContext
  let s := { s.setShot x with tasks := s.tasks ++ tasks,
                              sec := { s.sec with serials := serial, channels := assocPutAll s.sec.channels a.channels } }
  let digest := digestOf (sha3_384 text)
  let receipt : Reply := ⟨source, 0, .receipt context (ed448Sign s.aliasKey (digestBytes digest))⟩
  { s.setCtx c with migrations := s.migrations ++ [⟨context, source, digest, .installed, serial⟩],
                    fabric := { s.fabric with replies := s.fabric.replies ++ [receipt] } }

def execMigrationInstall (source : BitVec 19) (context : BitVec 8) (sealedState : List Byte) (s : State) : Out :=
  if context = 0 || (s.ctx context).isSome || (migrationFind context s.migrations).isSome || !s.sec.sessions.contains source
      || !s.ownsNothing context then .next s
  else match (Config.openState source sealedState).bind (Config.contextOf s) with
    | some a => .next (s.install source context a sealedState)
    | none => .next s

/-- R402 step 4, at the source: a valid receipt is the commit point, where the keys and the state are erased. -/
def execMigrationReceipt (context : BitVec 8) (signature : List Byte) (s : State) : Out :=
  match migrationFind context s.migrations with
  | none => .next s
  | some m =>
    if m.stage = .atSource && ed448Verify (Config.deviceKeyOf m.device) (digestBytes m.digest) signature then
      let t := (s.leave context).dropMigration context
      .next { t with migrations := t.migrations ++ [{ m with stage := .committed }] }
    else .next s

/-- R402: the journal's entries of a lost context, which had a creation serial. -/
def State.markLost (s : State) (context : BitVec 8) (serial : Nat) : State :=
  { s with journal := s.journal.map fun j =>
      if j.context = context && j.serial = serial then { j with outcome := 5, done := s.packageTime } else j }

/-- R402 step 5 and its failures. The destination confirms, journals, and the context resumes there; or it fails: before
the commit point the context resumes at the source, after it the context is lost. What has been committed at the source
matters to the destination alone, where what was installed of an aborted migration goes without a trace. -/
def execMigrationConfirm (context : BitVec 8) (c : Confirmation) (s : State) : Out :=
  match migrationFind context s.migrations with
  | none => .next s
  | some m =>
    let t := s.dropMigration context
    match m.stage, c with
    | .atSource, .delivered => .next s
    | .atSource, .failed _ => .next (t.abortMigration context)
    | .committed, .delivered => .next t
    | .committed, .failed _ => .next (t.markLost context m.serial)
    | .installed, .delivered =>
      match t.ctx context with
      | some c => .next ((t.setCtx { c with migrating := none }).journalAdd (migrationEntry context 0x0101 t.packageTime))
      | none => .next t
    | .installed, .failed committed =>
      let t := t.leave context
      .next (if committed then t.markLost context m.serial else t)

end Sys2Proof.Machine
end

