-- ==== Sys2Proof/Machine/Fabric.lean ====
section
/-! DEFINITION. The host link and the fabric as they reach the module: completions (R347), the PCIe function (R342,
R343, R401), Nuwin flits, ports and peers (R348 to R352), discipline and time (R209, R212), feed, power, cooling
(R353 to R355) and the die SRAM split (R5). -/

namespace Sys2Proof.Machine

/-! ## Completions (R93, R346, R347, R351) -/

/-- A request that the host or a peer has not answered. -/
def Request.waits (r : Request) : Bool := r.answer.isNone && isAway r.loc

/-- The oldest request of a list that has not been answered, ended. -/
def closeFirst (o : Outcome) : List Request → List Request
  | [] => []
  | r :: rest => if r.waits then { r with answer := some o } :: rest else r :: closeFirst o rest

def Wait.mapRequests (f : List Request → List Request) : Wait → Wait
  | .host rs => .host (f rs)
  | .fetch r => .fetch ((f [r]).headD r)
  | .aad b r => .aad b ((f [r]).headD r)
  | .notBefore t rs => .notBefore t (f rs)
  | w => w
def Core.mapRequests (f : List Request → List Request) (c : Core) : Core := { c with wait := c.wait.map (Wait.mapRequests f) }

/-- R360: the cores that a corpse records, with the requests that were not answered before its instant. -/
def Corpse.mapCores (f : Core → Core) (k : Corpse) : Corpse :=
  { k with records := k.records.map fun d => { d with items := d.items.map fun q => { q with core := f q.core } },
           descs := k.descs.map fun (t : Task) => { t with saved := t.saved.map f } }
def Corpse.waiting (k : Corpse) (a : AgentId) : Option Core :=
  (((k.records.filter fun d => d.kind = 0).flatMap fun d => d.items).map (·.core)).find? fun c =>
    c.agent = a && c.requests.any Request.waits

/-- The engine that an agent is. -/
def AgentId.engine : AgentId → Option EngineId
  | .culvert u => some (.culvert u)
  | .cistern k => some (.cistern k)
  | _ => none

/-- Where the oldest unanswered request of an agent stands: in a corpse, in its own wait, with the command that its engine has in
hand, or with a queue whose leader it is (R256). -/
inductive Asker where
  | corpse (id : BitVec 32) (c : Core)
  | self
  | command (i : EngineId) (c : Cmd)
  | queue (q : Nat)
  deriving DecidableEq, Repr

/-- R212: the bound on the difference of two devices' times. -/
def skewBound (same : Bool) : Nat := if same then 32 else 128
/-- R10: the fabric domain of a device. -/
def domainOf (d : BitVec 19) : BitVec 9 := d.extractLsb' 10 9

/-- R220: a not-before load cannot have been performed yet: by the zone of the issuing core for host memory; at a peer, by its
home's own zone, which leads by the skew bound at most (R212). -/
def State.early (s : State) (c : Core) (r : Request) : Bool :=
  match c.wait with
  | some (.notBefore t _) =>
    let lead := if isPeerLoc r.loc then skewBound (domainOf (BitVec.ofNat 19 (peerNumber r.loc)) = domainOf s.device) else 0
    (s.dieAt c.agent.die).atime.toNat + lead < t.toNat
  | _ => false

/-- The leaders' loads, by queue (R256, R270). -/
def State.queueReads (s : State) : List (Nat × List Request) :=
  (s.fns.map fun p => (p.1, p.2.reading)) ++ s.contexts.map fun p => (64 + p.1, p.2.reading)

def State.asker (s : State) (a : AgentId) : Option (Asker × Request) :=
  let unanswered := fun (rs : List Request) => rs.find? Request.waits
  let dead := s.corpses.findSome? fun k => (k.waiting a).bind fun c => (unanswered c.requests).map fun r => (Asker.corpse k.id c, r)
  let own := ((unanswered (s.agent a).requests).filter fun r => !s.early (s.agent a) r).map fun r => (Asker.self, r)
  let engine := (AgentId.engine a).bind fun i => (s.headCmd i).bind fun c => (unanswered c.requests).map fun r => (Asker.command i c, r)
  let queue := match a with
    | .scheduler d => (s.queueReads.filter fun p => s.leaderDie p.1 = d).findSome? fun p => (unanswered p.2).map fun r => (Asker.queue p.1, r)
    | _ => none
  dead.or (own.or (engine.or queue))

/-- The oldest unanswered request of an asker ends. -/
def State.answer (s : State) (a : AgentId) (k : Asker) (o : Outcome) : State :=
  let close := Core.mapRequests (closeFirst o)
  match k with
  | .corpse id c => { s with corpses := corpseMap id (Corpse.mapCores fun x => if x = c then close x else x) s.corpses }
  | .self => s.setAgent (close (s.agent a))
  | .command i c => s.cmdUpdate i { c with requests := closeFirst o c.requests }
  | .queue q =>
    if q < 64 then s.setFn q { s.fn q with reading := closeFirst o (s.fn q).reading }
    else match s.ctx (BitVec.ofNat 8 (q - 64)) with
      | some c => s.setCtx { c with reading := closeFirst o c.reading }
      | none => s

/-- What a completion does at the host or the peer, and how it ends the request. Returned data is what that memory holds at
the instant of the completion, whoever wrote it; an atomic writes then (R92; assumption 7). A host without AtomicOps
answers Unsupported Request (R357). -/
def State.served (s : State) (r : Request) (c : Completion) : State × Outcome :=
  match c with
  | .data v =>
    if r.atomic.isSome && isHostLoc r.loc && !s.hostAtomics then (s, .failed .unsupported)
    else
      let bytes := bytesOf r.n v.toNat
      let s := s.writeBytes r.loc bytes
      match r.atomic.bind fun x => atomicNew x.1 r.n (natOf bytes) x.2.1.toNat x.2.2.toNat with
      | some new => (s.writeBytes r.loc (bytesOf r.n new), .returned bytes)
      | none => (s, .returned bytes)
  | c => (s, .failed c)

/-- A completion reaches the oldest request of an agent that waits for one. -/
def State.completion (s : State) (a : AgentId) (c : Completion) : State :=
  match s.asker a with
  | none => s
  | some (k, r) => let (s, o) := s.served r c; s.answer a k o
def execHostCompletion (c : AgentId) (r : Completion) (s : State) : Out := .next (s.completion c r)

/-- R347: no completion of a host request within 10 ms. -/
def execHostCompletionTimeout (c : AgentId) (s : State) : Out :=
  match s.asker c with
  | some (k, r) => .next (if isHostLoc r.loc then s.answer c k .timeout else s)
  | none => .next s

/-! ## The PCIe function (R342, R343, R347, R401) -/

def execPcieLinkTraining (flit : Bool) (s : State) : Out := .next { s with flitMode := flit }

def execBusMasteringChange (f : BitVec 6) (enabled : Bool) (s : State) : Out :=
  let t := s.setFn f.toNat { s.fn f.toNat with master := enabled }
  .next (t.flushRings f.toNat)

/-- R343: virtual functions 1 to `n` are enabled, the others disabled. -/
def State.enableVfs (s : State) (n : Nat) : List Nat → State
  | [] => s
  | f :: rest => State.enableVfs (s.setFn f { s.fn f with enabled := decide (f ≤ n) }) n rest
def execVfEnableChange (enabled : Nat) (s : State) : Out := .next (s.enableVfs enabled (upFrom 1 63))

/-- R397, R401: TDISP locks the TDI of a function, runs it, or unlocks it. -/
def execTdiStateChange (f : BitVec 6) (t : TdiState) (s : State) : Out :=
  let s := if t = .unlocked then s else s.bindGuest f.toNat
  let x := s.fn f.toNat
  .next (s.setFn f.toNat { x with tdi := t, binding := if t = .unlocked && x.tdi ≠ .unlocked then none else x.binding })

/-! ## Flits (R348, R349, R351) -/

/-- R351: the import table lets a source context reach every page of an extent. -/
def State.imported (s : State) (f : Flit) (write read : Bool) : Bool :=
  (unitsOf 65536 f.addr.toNat (max 1 f.size)).all fun page =>
    s.fabric.imports.any fun i => i.device = f.source && i.context = f.context && i.page = page
      && (!write || i.write) && (!read || i.read)

def State.reply (s : State) (f : Flit) (a : Answer) : State :=
  { s with fabric := { s.fabric with replies := s.fabric.replies ++ [⟨f.source, f.seq, a⟩] } }

/-- The die beside the stack that holds an address of device memory. -/
def State.dieOfPa (s : State) (pa : Nat) : BitVec 2 := BitVec.ofNat 2 (s.homeStack pa / 4)

/-- R217: a peer's timed store held at its home from the next tick on, or missed; its key is its issuer's (R218). -/
def State.peerTimed (s : State) (f : Flit) (bytes : List Byte) (t : Tick) (die : BitVec 2) (agent order element : Nat) : State :=
  let d := s.dieOfPa f.addr.toNat
  let a := (s.dieAt d).atime + 1
  if a ≤ t then
    let x : Timed :=
      { loc := devLoc f.addr.toNat, bytes := bytes, cap := false, key := none, t := t, device := f.source, die := die, agent := agent,
        order := order, element := element, homeDie := d, peer := none, seq := f.seq, quiet := false,
        origin := ⟨.security, 0, 0, 0, 0, 0, 0⟩, va := f.addr.setWidth 48, pc := 0, least := a, arrival := some a }
    ({ s with timed := s.timed ++ [x] }).reply f .ack
  else s.reply f (.missed a)

/-- R350: a later request waits while one sent on a port that has gone down is not acknowledged. -/
def State.heldBehind (s : State) (f : Flight) (earlier : List Flight) : Bool :=
  earlier.any fun g => g.port ≠ f.port && (match g.port with | some p => !s.fabric.up[p.toNat] | none => false)

/-- The writes that this device has sent to a peer and that it has not acknowledged, oldest first: performed there, then on
their way. -/
def State.unacknowledged (s : State) (peer : BitVec 19) : List Flight :=
  (s.posted ++ s.flights).filter fun (f : Flight) => isPeerLoc f.loc && !f.dropped && peerNumber f.loc = peer.toNat

/-- An acknowledgement of the n-th of them: it is performed, if it was not, and known to be. -/
def State.acknowledge (s : State) (source : BitVec 19) (n : Nat) : State :=
  let sent := s.unacknowledged source
  match listAt sent n with
  | some f => if s.heldBehind f (sent.take n) then s else (s.drain (· = f)).resolvePosted (· = f)
  | none => s

/-- R351: the peer's import table refuses the write that this device sent as the n-th of those not acknowledged: it has no
effect there. The copy whose beat it was ends; a posted store is never known to have arrived (R347). -/
def State.refuseWrite (s : State) (source : BitVec 19) (n : Nat) : State :=
  match listAt (s.unacknowledged source) n with
  | none => s
  | some f =>
    let k := s.flights.findIdx (· = f)
    if s.flights.length ≤ k then s
    else
    let r := splitDue (fun _ => false) [f] (s.flights.take k)
    let t := s.performDue (r.1.filter (· ≠ f)) (r.2 ++ s.flights.drop (k + 1))
    match (AgentId.engine f.agent).bind fun i => (cmdFind f.ticket (t.engine i).queue).map fun c => (i, c) with
    | some (i, c) => t.cmdRefused i c
    | none => { t with posted := t.posted ++ [{ f with dropped := true }] }

/-- R348: the bytes of payload that one flit has. -/
abbrev payloadBytes : Nat := 240
/-- R348: a flit of 256 bytes holds the payload. -/
def Flit.fits (f : Flit) : Bool :=
  f.size ≤ payloadBytes &&
    match f.kind with
    | .store bytes => bytes.length ≤ payloadBytes
    | .timedStore bytes _ _ _ _ _ => bytes.length ≤ payloadBytes
    | _ => true

/-- R351: a request addressed to this device. -/
def State.peerRequest (s : State) (f : Flit) : State :=
  let l := devLoc f.addr.toNat
  match f.kind with
  | .ack n => s.acknowledge f.source n
  | .refused n => s.refuseWrite f.source n
  | .load => if s.imported f false true then s.reply f (.data (s.readBytes l f.size)) else s.reply f .refused
  | .store bytes => if s.imported f true false then (s.writeBytes l bytes).reply f .ack else s.reply f .refused
  | .timedStore bytes t die agent order element =>
    if s.imported f true false then s.peerTimed f bytes t die agent order element else s.reply f .refused
  | .atomic op wide w cmp =>
    if s.imported f true true then
      let n := if wide then 8 else 4
      let old := s.readNat l n
      let s := match atomicNew op n old w.toNat cmp.toNat with | some v => s.writeBytes l (bytesOf n v) | none => s
      s.reply f (.data (bytesOf n old))
    else s.reply f .refused

/-- R350: a port goes down: the routes over it go, and later requests take another. -/
def State.portDown (s : State) (port : BitVec 4) : State :=
  let b := s.fabric
  { s with fabric := { b with up := b.up.set port.toNat false, ports := b.ports.set port.toNat none,
                              routes := b.routes.filter fun r => r.2 ≠ port } }

/-- R348: a flit that fails its CRC is replayed; after the eighth failed replay of one flit the port goes down. -/
def State.replay (s : State) (port : BitVec 4) : State :=
  let b := s.fabric
  let n := b.replays[port.toNat] + 1
  if 9 ≤ n then { s with fabric := { b with replays := b.replays.set port.toNat 0 } }.portDown port
  else { s with fabric := { b with replays := b.replays.set port.toNat n } }

/-- R349: the port over which a flit for another device goes on; none without a route. -/
def Fabric.portFor (b : Fabric) (d : BitVec 19) : Option (BitVec 4) := (b.routes.find? fun r => r.1 = d).map (·.2)

def execFlitReceive (port : BitVec 4) (f : Flit) (s : State) : Out :=
  let b := s.fabric
  if !b.up[port.toNat] || !Flit.fits f then .next s
  else if !f.crcOk then .next (s.replay port)
  else
    let s := { s with fabric := { b with replays := b.replays.set port.toNat 0 } }
    if f.dest = s.device then .next (s.peerRequest f)
    else match s.fabric.portFor f.dest with
      | some p => .next { s with fabric := { s.fabric with forwarded := s.fabric.forwarded ++ [(p, f)] } }
      | none => .next s

def execPortDown (port : BitVec 4) (s : State) : Out := .next (s.portDown port)

/-! ## Ports and peers (R349, R352) -/

def putPair {α : Type} (d : BitVec 19) (v : α) : List (BitVec 19 × α) → List (BitVec 19 × α)
  | [] => [(d, v)]
  | (k, w) :: rest => if k = d then (d, v) :: rest else (k, w) :: putPair d v rest
def dropPair {α : Type} (d : BitVec 19) (l : List (BitVec 19 × α)) : List (BitVec 19 × α) := l.filter fun p => p.1 ≠ d

/-- R349: discovery: a route, a latency entry with the skew bound of the pair (R213), and the peer's FEED number where it
has one. -/
def execPortUp (port : BitVec 4) (r : PortReport) (s : State) : Out :=
  let b := s.fabric
  let latency := r.latency + skewBound (r.domain = domainOf s.device)
  .next { s with fabric :=
    { b with up := b.up.set port.toNat true, ports := b.ports.set port.toNat (some r), replays := b.replays.set port.toNat 0,
             routes := if b.routes.contains (r.device, port) then b.routes else b.routes ++ [(r.device, port)],
             latency := if b.disciplined then putPair r.device latency b.latency else b.latency,
             withdrawn := if b.disciplined then b.withdrawn else putPair r.device latency b.withdrawn,
             feeds := if r.feed = 0xFFFF then dropPair r.device b.feeds else putPair r.device r.feed b.feeds,
             lost := b.lost.filter (· ≠ r.device) } }

/-- R352: whether a command works toward a peer. -/
def Cmd.toward (c : Cmd) (d : BitVec 19) : Bool :=
  c.pages.any fun p => inWindow (p.1 * 65536) && !p.2.host && p.2.peer = d

/-- R352: culvert commands toward the peer end. -/
def State.endToward (s : State) (d : BitVec 19) (i : EngineId) : List Cmd → State
  | [] => s
  | c :: rest => State.endToward (if c.toward d then s.cmdRefused i c else s) d i rest
def State.endAllToward (s : State) (d : BitVec 19) : List EngineId → State
  | [] => s
  | i :: rest => State.endAllToward (s.endToward d i (s.engine i).queue) d rest

/-- R352: the commands toward the peer that wait with their task end as well (R301). -/
def Task.dropKept (t : Task) (gone : Cmd → Bool) : Task :=
  { t with commands := t.commands.filter fun k => !gone k.2,
           queues := t.queues.map fun q => (q.1, q.2.map fun w => { w with commands := w.commands.filter fun k => !gone k.2 }) }
def State.refuseKept (s : State) : List Cmd → State
  | [] => s
  | c :: rest => State.refuseKept (match ticketEngine c.ticket with | some i => s.cmdRefused i c | none => s) rest
def State.endKept (s : State) (d : BitVec 19) : State :=
  let gone := (s.tasks.flatMap Task.keptCommands).filter fun c => c.toward d
  { s with tasks := s.tasks.map fun (t : Task) => t.dropKept fun c => c.toward d }.refuseKept gone

def State.culvertIds (s : State) : List EngineId :=
  s.clusters.flatMap fun p => [.culvert (culvertOf p.1 0), .culvert (culvertOf p.1 1)]

/-- R352: an accepted timed store that the peer has not acknowledged. -/
def Timed.awaitsPeer (x : Timed) (d : BitVec 19) (now : Tick) : Bool :=
  x.peer = some d && (match x.arrival with | some a => now < a | none => true)

/-- R352: a request that a peer has not answered fails. -/
def failLost (d : BitVec 19) (rs : List Request) : List Request :=
  rs.map fun r => if r.answer.isNone && isPeerLoc r.loc && peerNumber r.loc = d.toNat then { r with answer := some (.failed .lost) } else r
def State.failRequests (s : State) (d : BitVec 19) : State :=
  let f := Core.mapRequests (failLost d)
  { s with core := f s.core, parked := s.parked.map f, corpses := s.corpses.map (Corpse.mapCores f),
           fns := s.fns.map fun p => (p.1, { p.2 with reading := failLost d p.2.reading }),
           contexts := s.contexts.map fun p => (p.1, { p.2 with reading := failLost d p.2.reading }) }

/-- R352: from this moment a peer is unreachable: its entry and its routes are withdrawn, outstanding loads and atomics
fail, stores on their way are dropped and never resolved, timed stores are missed, culvert commands end. -/
def execPeerUnreachable (device : BitVec 19) (s : State) : Out :=
  let b := s.fabric
  let mine := fun (f : Flight) => isPeerLoc f.loc && peerNumber f.loc = device.toNat
  let drop := fun (f : Flight) => if mine f then { f with dropped := true } else f
  let late := fun (x : Timed) => x.awaitsPeer device s.now
  let t := { s with
    fabric := { b with lost := if b.lost.contains device then b.lost else b.lost ++ [device], latency := dropPair device b.latency,
                       withdrawn := dropPair device b.withdrawn, routes := dropPair device b.routes },
    flights := s.flights.filter (fun f => !mine f), posted := (s.posted ++ s.flights.filter mine).map drop,
    timed := s.timed.filter (fun x => !late x),
    misses := s.misses ++ (s.timed.filter late).map (fun x => (⟨x, BitVec.allOnes 64, false⟩ : Miss)) }
  .next (((t.failRequests device).endAllToward device t.culvertIds).endKept device)

/-! ## Discipline and time (R209, R212) -/

/-- R212: out of discipline every fabric entry is withdrawn. -/
def Fabric.withdraw (b : Fabric) : Fabric :=
  { b with disciplined := false, latency := [], withdrawn := b.latency ++ b.withdrawn }
/-- R212: back within the bound, they are restored. -/
def Fabric.restore (b : Fabric) : Fabric :=
  { b with disciplined := true, latency := b.latency ++ b.withdrawn, withdrawn := [] }
/-- R212: the offset from fabric time that is known lies within the device's bound. -/
def Fabric.inBound (b : Fabric) : Bool := b.slew.natAbs ≤ skewBound true

def execDisciplineLoss (out : Bool) (s : State) : Out :=
  if out then .next { s with fabric := s.fabric.withdraw }
  else if s.fabric.inBound then .next { s with fabric := s.fabric.restore }
  else .next s

/-- R212: the correction that the reference zone is due: a change of rate, never a step. Beyond the bound firmware marks the
device out of discipline, and within it restores the entries. -/
def execTimingPortMessage (fabricTime : Tick) (s : State) : Out :=
  let b := { s.fabric with slew := (fabricTime - s.packageTime).toInt }
  .next { s with fabric := if !b.inBound then (if b.disciplined then b.withdraw else b) else if b.disciplined then b else b.restore }

/-- R209: before the first context, every synchronised zone steps forward together, and never back. -/
def execPackageTimeStep (delta : BitVec 64) (s : State) : Out :=
  if s.sec.fresh && delta.toNat < 2 ^ 63 then
    .next { s with dies := s.dies.map fun (d : Die) => if d.sync then { d with atime := d.atime + delta } else d }
  else .next s

/-! ## The physical function's settings (R5, R353 to R355) -/

def execFeedWrite (v : BitVec 16) (s : State) : Out := if s.sec.fresh then .next { s with feed := v } else .next s

def execPowerCapWrite (watts : Nat) (s : State) : Out :=
  if 1200 ≤ watts && watts ≤ 2800 && watts % 50 = 0 then .next { s with powerCap := watts } else .next s

def execSramSplitSet (die : BitVec 2) (mib : Nat) (s : State) : Out :=
  if s.sec.fresh && mib ≤ 64 && mib % 8 = 0 then .next (s.setDie die { s.dieAt die with splitMib := mib }) else .next s

def execCoolantOutOfRange (s : State) : Out := .next { s with coolantOk := false }

end Sys2Proof.Machine
end

