-- ==== Sys2Proof/Machine/Placement.lean ====
section
/-! DEFINITION. The die scheduler's steps: placing a task (R263), raising a class (R265), preemption and resumption
(R271). -/

namespace Sys2Proof.Machine

/-- R231, R263: a task that has never run starts with its prologue on slot 0. -/
def State.startTask (s : State) (t : Task) (team : List (BitVec 2 × BitVec 7)) : State :=
  let s := s.takeTeam t team
  let t := t.onTeam s team
  let first : Queued := { level := 0, index := 0, stride := 1, count := 1, parent := 0, saved := none, image := none, spill := none, commands := [] }
  let t := { t with queues := [(0, [first])], live := 1 }
  let s := s.setTask t
  match t.slots with
  | [] => s
  | c :: _ =>
    let s := if t.revival.isSome then s
      else ((s.openChannels t).setMembers t [c] true t.weirKeys).setFlumeMembers t [c] true t.flumeKeys
    s.startNext c

/-- R382: a revival whose prologue had not started is placed in its revival space. -/
def State.startInSpace (s : State) (t : Task) (v : Revival) (k : Corpse) (team : List (BitVec 2 × BitVec 7)) : State :=
  let o : Overlay := { task := t.num, context := t.context, corpse := k.id, space := k.spaceOf (k.revived v), pages := [],
                       taint := k.taint }
  { s with overlays := s.overlays ++ [o] }.startTask t team

def State.place (s : State) (t : Task) (team : List (BitVec 2 × BitVec 7)) : State :=
  match t.revival with
  | none => s.startTask t team
  | some v =>
    match corpseFind v.corpse s.corpses with
    | none => s.startTask t team
    | some k => if t.shape.isEmpty then s.startInSpace t v k team else s.startRevival t v k team

def execTaskPlacement (context : BitVec 8) (task : BitVec 32) (clusters : List (BitVec 2 × BitVec 7)) (s : State) : Out :=
  let team := teamOrder clusters
  let s := s.raiseAll
  match s.task context task with
  | none => .next s
  | some t =>
    match t.state, s.mayStart t team with
    | .waiting, some p => .next (({ s with pattern := p }.place t team).journalSet t.seq 1 0 0)
    | _, _ => .next s

/-- R265: a task that waits takes the class that its wait has earned it. -/
def execClassRaise (context : BitVec 8) (task : BitVec 32) (s : State) : Out :=
  match s.task context task with
  | none => .next s
  | some t => .next (s.setTask (t.raised s.packageTime))

/-- R271, R136: the task stops once no core of it awaits a value. -/
def execPreemption (context : BitVec 8) (task : BitVec 32) (s : State) : Out :=
  match s.task context task with
  | none => .next s
  | some t =>
    if s.mayPreempt t && !s.awaits t then
      .next (s.preempt t (if t.stopping then .stopped else .preempted))
    else .next s

def execTaskResume (context : BitVec 8) (task : BitVec 32) (clusters : List (BitVec 2 × BitVec 7)) (s : State) : Out :=
  let team := teamOrder clusters
  let s := s.raiseAll
  match s.task context task with
  | none => .next s
  | some t =>
    match t.state, s.mayStart t team with
    | .preempted, some p => .next ({ s with pattern := p }.resumeTask t team)
    | _, _ => .next s

end Sys2Proof.Machine
end

