-- ==== Sys2Proof/Machine/Freezing.lean ====
section
/-! DEFINITION. The freeze instant (R358 to R369): what stops and where, the writes refused, the labels, the record of
every unit, and what becomes of the tasks; the loss of a die link (R385). -/

namespace Sys2Proof.Machine

/-! ## The target (R358, R387) -/

/-- R358: the tasks that a freeze stops. -/
def State.freezeTargets (s : State) (z : Freezing) : List Task :=
  s.tasks.filter z.covers

/-- R387: tasks of the context that retired before a freeze of the whole of it. -/
def State.freezeRetired (s : State) (z : Freezing) : List Task :=
  if z.tasks.isSome then [] else s.tasks.filter fun t => t.context = z.context && t.state = .done

def inTarget (ts : List Task) (context : BitVec 8) (num : BitVec 32) : Bool := ts.any fun t => t.context = context && t.num = num

/-! ## Writes refused (R219, R361) -/

def Flight.refusedAt (f : Flight) (arrival : Tick) : Refused :=
  { loc := f.loc, va := f.va, bytes := f.bytes, cap := f.cap, colour := f.colour, atomic := none, timed := none,
    origin := f.origin, ticket := f.ticket, pc := f.pc, arrival := arrival }
def Timed.refusedAt (x : Timed) (arrival : Tick) : Refused :=
  { loc := x.loc, va := x.va, bytes := x.bytes, cap := x.cap, colour := none, atomic := none, timed := some x,
    origin := x.origin, ticket := 0, pc := x.pc, arrival := x.arrival.getD arrival }

/-- The tick of a home's zone in which a write on its way arrives there after the freeze instant. -/
def State.arrivesAt (s : State) (l : Nat) (va : Addr) : Tick := (s.dieAt (s.zoneAt l va)).atime + 1

/-- The atomic of a core that waits at a home: for its slot at a bank, or refused. -/
def State.refusedAtomic (s : State) (c : Core) : Option Refused :=
  match c.wait with
  | some (.rmw loc va wide op arg cmp none) =>
    some { loc := loc, va := va, bytes := List.replicate (if wide then 8 else 4) 0,
           cap := false, colour := none, atomic := some (op, wide, arg, cmp), timed := none, origin := c.origin,
           ticket := 0, pc := c.pcc.cursor, arrival := s.arrivesAt loc va }
  | _ => none

/-- Writes to homes of the device and of peers on their way are refused and listed. One to the host goes on its way, and is
unresolved until it is known to be performed (R362; DEDUCED, assumption 104). -/
def State.refuseWrites (s : State) (ts : List Task) : State × List Refused :=
  let mine := fun (f : Flight) => inTarget ts f.context f.task
  let atHome := fun (f : Flight) => mine f && !isHostLoc f.loc
  let timedMine := fun (x : Timed) => inTarget ts x.context x.task
  let atomics := ts.flatMap fun t => t.slots.filterMap fun c => s.refusedAtomic (s.agent (.core c))
  let l := (s.flights.filter atHome).map (fun f => f.refusedAt (s.arrivesAt f.loc f.va))
    ++ (s.timed.filter timedMine).map (fun x => x.refusedAt (s.arrivesAt x.loc x.va)) ++ atomics
  ({ s with flights := s.flights.filter (fun f => !atHome f), timed := s.timed.filter fun x => !timedMine x }, l)

/-! ## Engine commands (R360, R365, R366) -/

/-- Extents that a command writes, the CNT words of XRED included. -/
def Cmd.targets (c : Cmd) : List (Addr × Nat) :=
  let d := c.dst.cursor
  let at_ := fun (off : Nat) => d + BitVec.ofNat 48 off
  match c.kind with
  | .copy => (upFrom 0 c.rows).map fun (r : Nat) => (d + BitVec.ofInt 48 ((r : Int) * c.dstride), c.length)
  | .gather => (upFrom 0 c.rows).map fun r => (at_ (r * c.length), c.length)
  | .reduce =>
    let rows := distinct [] (rowTargets c.hasIdx c.idx c.rows)
    rows.map (fun r => (at_ (r * c.length), c.length))
      ++ (if c.hasCnt then rows.map fun r => (c.cnt.cursor + BitVec.ofNat 48 (4 * r), 4) else [])
  | .convert => (convertSpans d c.length c.rows c.fmt.toNat).map fun e => (at_ e.1, e.2.1)

/-- The address at which an extent of a command is written (R67). -/
def State.commandVa (s : State) (c : Cmd) (a : Addr) : Nat :=
  if inOverflow a.toNat then
    match (s.asCmd ((ticketEngine c.ticket).getD (.cistern 0)) c fun s => (s, s.redirect a)).2 with | some v => v.toNat | none => a.toNat
  else a.toNat

/-- The 32-byte sectors that a command writes. -/
def State.commandSectors (s : State) (c : Cmd) : List Nat := c.targets.flatMap fun e => unitsOf 32 (s.commandVa c e.1) e.2

/-- R365: the label and the reason of a command; `refused`: its mailbox store was. -/
def Cmd.label (c : Cmd) (sectors : List Nat) (refused : Bool) : BitVec 2 × BitVec 8 :=
  if c.state = .running || refused then
    if sectors.any fun k => inWindow (k * 32) then (2, 4) else (1, 2)
  else (0, 0)

/-- Every engine of the module. -/
def State.engineIds (s : State) : List EngineId :=
  (s.clusters.flatMap fun p => [.culvert (culvertOf p.1 0), .culvert (culvertOf p.1 1)])
    ++ (upFrom 0 16).map fun k => .cistern (BitVec.ofNat 4 k)

/-- R299: a command of the target, all of its beats performed, whose mailbox store is among the refused. -/
def State.mailboxRefused (s : State) (refused : List Refused) (c : Cmd) : Bool :=
  !c.mbx.isNone && c.state = .complete
    && refused.any fun r => r.pc = 0 && r.ticket = c.ticket && r.va.toNat = s.commandVa c c.mbx.cursor && r.task = c.task

/-- The commands of the target leave their engines, which remember them as discarded. -/
def State.takeTargets (s : State) (ts : List Task) (refused : List Refused) : List EngineId → State × List (Cmd × Bool)
  | [] => (s, [])
  | i :: rest =>
    let mine := fun (c : Cmd) => inTarget ts c.context c.task
    let e := s.engine i
    let cmds := e.queue.filter mine
    let late := e.done.filter fun c => mine c && s.mailboxRefused refused c
    let s := cmds.foldl (fun s c => let c := { c with state := .discarded }; (s.traceEnd c i.die).cmdEnd i c) s
    let (s, more) := State.takeTargets s ts refused rest
    (s, cmds.map (·, false) ++ late.map (·, true) ++ more)

/-! ## Items (R252, R360, R362 to R364, R374) -/

/-- R252: inherited registers are recorded with the exemplar's value, and every granule of the region with its bytes. -/
def Core.resolved (c : Core) : Core :=
  { c with gInh := 0, vInh := 0, pInh := 0, own := upFrom (c.regionBase / 256) (c.regionLen / 256) }

/-- Whether an instruction is a load or an atomic, and the destination of an atomic. -/
def Instr.loads : Instr → Bool
  | .launch _ _ _ => false
  | .cpyw _ _ _ => false
  | .cpy _ _ _ _ _ => false
  | .xgth _ _ _ _ _ => false
  | .xred _ _ _ _ _ => false
  | .xcvt _ _ _ _ _ => false
  | _ => true
def Instr.atomicDest : Instr → Option RegNum
  | .aadd _ _ _ a _ _ _ => some a
  | .aand _ _ _ a _ _ _ => some a
  | .aor _ _ _ a _ _ _ => some a
  | .axor _ _ _ a _ _ _ => some a
  | .amin _ _ _ a _ _ _ => some a
  | .amax _ _ _ a _ _ _ => some a
  | .aswp _ _ _ a _ _ _ => some a
  | .acas _ _ _ a _ _ _ => some a
  | _ => none

/-- The instruction whose access an agent has issued, and the address after it. -/
def Core.waitingAt (c : Core) : Option (Instr × Addr) :=
  match decode c.ir with
  | .ok i => some (i, c.pcc.cursor + BitVec.ofNat 48 (2 * c.ir.length))
  | .error _ => none

/-- An item as it stops: its core at its boundary, the pending destination of a refused atomic, the reasons of R364. -/
structure Stopped where
  core    : Core
  pendG   : BitVec 32
  image   : Option Saved
  reasons : List Nat
  deriving DecidableEq, Repr

/-- R362: the writes of the item itself that are not resolved. -/
def State.unresolved (s : State) (t : Task) (c : Core) : List Flight :=
  (s.flights ++ s.posted).filter fun f =>
    f.agent = f.issuer && f.context = t.context && f.task = t.num && c.ident.isItem f.origin && isAway f.loc

/-- R364, reasons 2 to 5: torn commands, live accumulators, unresolved writes, requests that a lost link left
unanswered, by their origins. -/
def State.itemReasons (s : State) (t : Task) (c : Core) (torn : List Cmd) (cut : List Origin) : List Nat :=
  (if torn.any fun k => k.task = t.num && c.ident.isItem k.origin then [2] else [])
    ++ (if c.mx.restart.isNone && c.mx.anyLive then [3] else [])
    ++ (if (s.unresolved t c).isEmpty then [] else [4])
    ++ (if cut.any c.holds then [5] else [])

/-- R360: the boundary of a running item. A load or atomic that has been issued counts as executed; its requests stay
with the record, which its value joins when they are answered. -/
def State.stopCore (s : State) (t : Task) (torn : List Cmd) (cut : List Origin) (p : Nat × CoreId) : Stopped :=
  let c := s.agent (.core p.2)
  let (pcc, wait, pendG, more) : GReg × Option Wait × BitVec 32 × List Nat :=
    match c.wait, c.waitingAt with
    | some (.host rs), some (i, next) => (if Instr.loads i then c.pcc.setCursor next else c.pcc, some (.host rs), 0, [5])
    | some (.rmw _ _ _ _ _ _ none), some (i, next) =>
      (c.pcc.setCursor next, none, match Instr.atomicDest i with | some a => BitVec.twoPow 32 a.toNat | none => 0, [])
    | some (.host rs), none => (c.pcc, some (.host rs), 0, [5])
    | _, _ => (c.pcc, none, 0, [])
  { core := Core.resolved { c with pcc := pcc, wait := wait }, pendG := pendG,
    image := some (s.shot.save p.1 (tcmLoc p.2.index 0) 0x80000), reasons := s.itemReasons t c torn cut ++ more }

/-- The items of a task that have started and not retired. -/
def State.stoppedItems (s : State) (t : Task) (torn : List Cmd) (cut : List Origin) : List Stopped :=
  let saved := t.saved.map fun c => (⟨c.resolved, 0, savedAt c.ident.slot t.images, s.itemReasons t c torn cut⟩ : Stopped)
  let yielded := t.queues.flatMap fun q => q.2.filterMap fun e =>
    e.saved.map fun c => (⟨c.resolved, 0, e.image, s.itemReasons t c torn cut⟩ : Stopped)
  (s.runningSlots t).map (s.stopCore t torn cut) ++ saved ++ yielded

/-- R374: the record of a stopped item with its TCM image, or without one (R367, reason 6). -/
def Stopped.record (x : Stopped) (image : Option Saved) (torn : List Nat) (lost : Bool) : ItemRec :=
  let reasons := if lost then [7] else x.reasons
  let label := worstLabel reasons
  { item := x.core.ident.item, label := label, reason := BitVec.ofNat 8 (lowestReason label reasons), reasons := reasons,
    state := if lost then 3 else 0, core := x.core, pendG := x.pendG, image := image, torn := torn }

/-- The items that a queue entry stands for and that have not started. -/
def Queued.notStarted (q : Queued) : List (BitVec 2 × Nat × Nat) :=
  if q.saved.isSome then [] else (upFrom 0 q.count).map fun k => (q.level, q.index + k * q.stride, q.parent)

/-- R364, reason 9: the record of an item that has not started. -/
def unstartedRec (t : Task) (slot : Nat) (pcc : GReg) (e : BitVec 2 × Nat × Nat) : ItemRec :=
  let c := Core.idle (match listAt t.slots slot with | some c => .core c | none => .core ⟨0, 0⟩)
  let id : Ident := { Ident.none with item := e.2.1, level := e.1, parent := e.2.2, task := t.num, slot := slot, step := t.step }
  { item := e.2.1, label := 0, reason := 9, reasons := [9], state := 2, core := { c with owner := t.context, pcc := pcc, ident := id },
    pendG := 0, image := none, torn := [] }

/-- The PCC that stamped items of a level start with. -/
def halvesPcc (hs : List Halves) (level : BitVec 2) : GReg :=
  match (hs.filterMap fun h => if level = 2 then h.half2 else h.half1).head? with | some x => x.pcc | none => .null

def Task.prologuePcc (t : Task) : GReg := t.desc.code.setCursor (t.desc.entry.setWidth 48)

/-- R363: the queued items of a task, in queue order; a task that was never placed has its prologue. -/
def Task.unstarted (t : Task) (hs : List Halves) : List ItemRec :=
  if t.shape.isEmpty then [unstartedRec t 0 t.prologuePcc (0, 0, 0)]
  else
    t.queues.flatMap fun q => (q.2.flatMap Queued.notStarted).map fun e =>
      unstartedRec t q.1 (if e.1 = 0 then t.prologuePcc else halvesPcc hs e.1) e

def insertRec (r : ItemRec) : List ItemRec → List ItemRec
  | [] => [r]
  | q :: rest => if r.item < q.item then r :: q :: rest else q :: insertRec r rest
def sortRecs : List ItemRec → List ItemRec
  | [] => []
  | r :: rest => insertRec r (sortRecs rest)

/-! ## What a corpse records of a task (R363) -/

/-- A task with everything that the archivist records of it; the items that stopped stand in `saved` and `queues`. -/
def State.recordTask (s : State) (t : Task) (stopped : List Stopped) : Task :=
  let running := t.state = .running
  let x := s.shot
  let own := stopped.filter fun k => !(t.queues.any fun q => q.2.any fun e =>
    match e.saved with | some c => c.ident = k.core.ident | none => false)
  let zero := (t.regions regionDiscardable).map fun r => (⟨r.1, [], [], []⟩ : Saved)
  { t with
    saved := own.map (·.core), images := own.filterMap (·.image),
    spads := if running then (t.regions fun _ => true).map x.saveRegion else t.spads ++ zero,
    halves := if running then t.clusterKeys.map (fun k => let c := s.cluster k; ⟨c.half1, c.half2⟩) else t.halves,
    weirs := if running then t.weirKeys.map (fun k => (k, s.weir k)) else t.weirs,
    flumes := if running then t.flumeKeys.map (fun k => (k, s.flume k)) else t.flumes, commands := [],
    queues := t.queues.map fun q => (q.1, q.2.map fun e => { e with saved := e.saved.map Core.resolved }) }

/-- R367: bytes that a corpse's lists and a scratchpad image take: the manual gives no layout. DESIGN CHOICE (assumption 123):
free values below 4 KiB an entry, and between one and two times the bytes of the region. -/
def listSize (cmds refused : Nat) : Nat :=
  ((upFrom 0 (cmds + refused)).map fun k => Config.listBytes k % 4096).sum
def imageSize (n : Nat) : Nat := n + Config.regionImageBytes n % (n + 1)

/-- Bytes of the scratchpad images of a recorded task. -/
def Task.regionBytes (t : Task) : Nat := ((t.regions fun _ => true).map fun r => imageSize (regionLen r.2.2 * 4096)).sum

/-! ## TCM images within the quota (R367) -/

/-- Sectors of an item's TCM that its torn commands write (R374). -/
def State.tornTcm (s : State) (t : Task) (item : Core) (torn : List Cmd) : List Nat :=
  setAddAll [] ((torn.filter fun c => c.task = t.num && item.ident.isItem c.origin).flatMap fun c =>
    (s.commandSectors c).filter fun k => k * 32 < 0x80000)

/-- Sectors of the scratchpads that torn commands write, by location (R366). -/
def State.tornSpad (s : State) (torn : List Cmd) : List Nat :=
  setAddAll [] (torn.flatMap fun c =>
    match AgentId.cluster c.issuer with
    | some k => ((s.commandSectors c).filter fun n => 0x100000 ≤ n * 32 && n * 32 < 0x200000).map fun n =>
        spadLoc k (n * 32 - 0x100000) / 32
    | none => [])

/-- R385: an item beyond a lost link: nothing of its core can be recorded but which item it is (DESIGN CHOICE, assumption
114). -/
def Stopped.cutOff (x : Stopped) : Stopped :=
  { x with core := { Core.idle x.core.agent with owner := x.core.owner, ident := x.core.ident }, pendG := 0 }
/-- R385: a queued item of a core beyond it. -/
def ItemRec.cutOff (lost : BitVec 2 → Bool) (r : ItemRec) : ItemRec :=
  if lost r.core.agent.die then { r with label := 2, reason := 7, reasons := [7], state := 3 } else r

/-- The stopped items of a task, each with its image while the total stays within the quota; `full` once one did not.
No image is kept without a corpse. -/
def keepImages (keep : Bool) (quota : Nat) (tornOf : Core → List Nat) (lost : Core → Bool) :
    Nat × Bool → List Stopped → (Nat × Bool) × List ItemRec
  | acc, [] => (acc, [])
  | (used, full), x :: rest =>
    let gone := lost x.core
    if !keep || gone then
      let (acc, rs) := keepImages keep quota tornOf lost (used, full) rest
      (acc, (if gone then x.cutOff else x).record none (tornOf x.core) gone :: rs)
    else if !full && used + tcmImageSize ≤ quota then
      let (acc, rs) := keepImages keep quota tornOf lost (used + tcmImageSize, false) rest
      (acc, x.record x.image (tornOf x.core) false :: rs)
    else
      let (acc, rs) := keepImages keep quota tornOf lost (used, true) rest
      (acc, { x with reasons := x.reasons ++ [6] }.record none [] false :: rs)

def insertStopped (x : Stopped) : List Stopped → List Stopped
  | [] => [x]
  | y :: rest => if x.core.ident.item < y.core.ident.item then x :: y :: rest else y :: insertStopped x rest
def sortStopped : List Stopped → List Stopped
  | [] => []
  | x :: rest => insertStopped x (sortStopped rest)

/-! ## The corpse (R366 to R373) -/

/-- A recorded task: the task, its item records, its label and reason. -/
structure Recorded where
  task   : Task
  before : Task
  items  : List ItemRec
  deriving DecidableEq, Repr

def Recorded.label (r : Recorded) : BitVec 2 × BitVec 8 := itemsLabel r.items

def dirRecord (r : Recorded) (instant : Tick) (off : Nat) : DirRec :=
  let (label, reason) := r.label
  { task := r.task.num, kind := 0, label := label, reason := reason, reviver := 0, time := instant, newCorpse := 0,
    source := 0, off := off, items := r.items }

/-- Freeze records one after another in the record area. -/
def dirRecords (instant : Tick) : Nat → List Recorded → List DirRec
  | _, [] => []
  | off, r :: rest => dirRecord r instant off :: dirRecords instant (off + itemsSize r.items) rest

def insertTask (t : Task) : List Task → List Task
  | [] => [t]
  | u :: rest => if t.num < u.num then t :: u :: rest else u :: insertTask t rest
def sortTasks : List Task → List Task
  | [] => []
  | t :: rest => insertTask t (sortTasks rest)

/-- The items of every task, in ascending task number, with the images that the quota allows. -/
def State.recordAll (s : State) (keep : Bool) (quota : Nat) (torn : List Cmd) (z : Freezing) :
    Nat × Bool → List Task → (Nat × Bool) × List Recorded
  | acc, [] => (acc, [])
  | acc, t :: rest =>
    let stopped := if t.state = .done then [] else sortStopped (s.stoppedItems t torn z.cut)
    let lost := fun (d : BitVec 2) => t.state = .running && z.lost.contains d
    let gone := fun (c : Core) => lost c.agent.die
    let (acc, items) := keepImages keep quota (fun c => s.tornTcm t c torn) gone acc stopped
    let whole := if t.state = .done then t else s.recordTask t stopped
    let others := t.finished.map retiredRec ++ (if t.state = .done then [] else (t.unstarted whole.halves).map (ItemRec.cutOff lost))
    let (acc, rs) := State.recordAll s keep quota torn z acc rest
    (acc, ⟨whole, t, sortRecs (items ++ others)⟩ :: rs)

/-- R366: the label of every sector that is not intact. -/
def State.labelSectors (s : State) (context : BitVec 8) (ts : List Task) (cmds : List (Cmd × BitVec 2 × BitVec 8)) :
    Assoc (BitVec 2 × BitVec 8) :=
  let visible := fun (k : Nat) => inSram (k * 32) || inDev (k * 32) || inWindow (k * 32)
  let torn := (cmds.filter fun c => c.2.1 ≠ 0).flatMap fun c =>
    ((s.commandSectors c.1).filter visible).map fun k => (k, if inWindow (k * 32) then ((2 : BitVec 2), (4 : BitVec 8)) else (1, 8))
  let writes := (s.flights ++ s.posted).filter fun f =>
    f.context = context && inTarget ts f.context f.task && isAway f.loc
  let unknown := writes.flatMap fun f => (unitsOf 32 f.va.toNat f.size).map fun k => (k, ((2 : BitVec 2), (4 : BitVec 8)))
  assocPutAll (assocPutAll [] torn) unknown

/-- R369: what the context's page tables map, in the memory of this instant, and the space of a revival over it. -/
def State.treeOf (s : State) (c : Ctx) : Layer := .tree c.root c.fixed c.num s.shot
def State.spaceFor (s : State) (c : Ctx) (t : Task) : List Layer :=
  match overlayFind t.context t.num s.overlays with
  | some o => .copies (overlayBase t.context t.num) o.pages s.shot :: (o.space ++ [s.treeOf c])
  | none => [s.treeOf c]

/-! ## After the instant (R248, R259, R267, R359, R384) -/

/-- R248: the record of a level-1 item that was not run because its task was killed. -/
-- R62, R63: an address in TCM or scratchpad is that of the slot at which the item waited.
def State.notRun (s : State) (t : Task) (index : Nat) (a : AgentId) : State :=
  let u := s.focus a
  let c := u.core
  let u := { u with core := { Core.idle a with owner := t.context, run := .item, ident := { Ident.none with task := t.num } } }
  match u.access (t.resultAccess index) with
  | .error _ => s
  | .ok p =>
    if (p.region = .tcm || p.region = .spad) && t.state ≠ .running then s
    else { { u.store p (resultBytes 0 3 0) false with core := c }.focus s.core.agent with stalled := s.stalled }
def State.notRunAll (s : State) (t : Task) : List ItemRec → State
  | [] => s
  | r :: rest =>
    State.notRunAll (if r.state = 2 && r.core.ident.level ≠ 2 then s.notRun t r.item r.core.agent else s) t rest

/-- R259: a change of OUTCOME at a given time. -/
def State.journalEnd (s : State) (seq : Nat) (outcome : BitVec 8) (corpse : BitVec 32) (result : Word) (time : Tick) : State :=
  match journalFind seq s.journal with
  | some j =>
    { s with journal := journalPut { j with outcome := outcome, corpse := corpse, result := result, done := time } s.journal }
  | none => s

/-- R360: a recorded item whose host or peer requests have not ended. -/
def ItemRec.awaiting (r : ItemRec) : Bool := r.core.wait.isSome
def Recorded.awaiting (r : Recorded) : Bool := r.items.any ItemRec.awaiting

/-- What becomes of a task of the target. A killed revival's own record waits until the corpse is complete (DEDUCED, assumption
120). -/
def State.killTask (s : State) (z : Freezing) (r : Recorded) : State :=
  let t := r.before
  if t.state = .done then s
  else
    let s := s.notRunAll t r.items
    let s := if t.state = .running then s.vacate t else s
    let s := s.setTask { t with state := .killed, saved := [], images := [], spads := [], halves := [], queues := [], commands := [], weirs := [], flumes := [] }
    let s := (s.journalEnd t.seq 3 z.id (z.code.setWidth 64) z.instant).eventRecord 0x31 t z.instant (z.id.setWidth 64)
    let s := s.doneCounter t
    if z.id ≠ 0 && r.awaiting then s else s.endKilled t r.items z.instant z.id
def State.killTasks (s : State) (z : Freezing) : List Recorded → State
  | [] => s
  | r :: rest => State.killTasks (s.killTask z r) z rest

/-- R259: the KILL commands that asked for the freeze are complete. -/
def State.killsDone (s : State) (z : Freezing) : List Nat → State
  | [] => s
  | seq :: rest => State.killsDone (s.journalEnd seq 2 z.id 0 z.instant) z rest

def cmdsLabelled (s : State) : List (Cmd × Bool) → List (Cmd × BitVec 2 × BitVec 8)
  | [] => []
  | (c, refused) :: rest => (c, c.label (s.commandSectors c) refused) :: cmdsLabelled s rest

/-- R363: the requests to the host and to peers that are outstanding: writes, and those of items and of commands. -/
def State.outsideWrites (s : State) (ts : List Task) : List Flight :=
  (s.flights ++ s.posted).filter fun f => inTarget ts f.context f.task && isAway f.loc
def outsideLoads (rs : List Recorded) (cmds : List Cmd) : List (Origin × Request) :=
  (rs.flatMap fun r => r.items.flatMap fun i => (i.core.requests.filter fun q => q.answer.isNone).map fun q => (i.core.origin, q))
    ++ cmds.flatMap fun c => (c.requests.filter fun q => q.answer.isNone).map fun q => (c.origin, q)

/-- Pages that the revivals among the tasks had copied. -/
def State.overlayPages (s : State) : List Task → Nat
  | [] => 0
  | t :: rest => (match overlayFind t.context t.num s.overlays with | some o => o.pages.length | none => 0) + State.overlayPages s rest

/-- R361, R365: the writes of the target refused, and its engine commands with their labels, out of their engines. -/
def State.stopUnits (s : State) (ts : List Task) : State × List Refused × List (Cmd × BitVec 2 × BitVec 8) :=
  let s := s.abandonAll (ts.flatMap fun t => if t.state = .running then t.slots else [])
  let (s, refused) := s.refuseWrites ts
  let (s, cmds) := s.takeTargets ts refused s.engineIds
  let held := ts.flatMap fun t => t.keptCommands.map fun c => (c, false)
  let s := held.foldl (fun s c => match ticketEngine c.1.ticket with
    | some i => let c := { c.1 with state := .discarded }; (s.traceEnd c i.die).cmdEnd i c
    | none => s) s
  (s, refused, cmdsLabelled s (cmds ++ held))

/-- R360: the freeze instant of `z`: every unit of the target stops, and the archivists record and label it. -/
def State.freezeInstant (s : State) (z : Freezing) : State :=
  let live := s.freezeTargets z
  let all := sortTasks (live ++ s.freezeRetired z)
  let s := (upFrom 0 4).foldl (fun s d => s.applyDie (BitVec.ofNat 2 d)) s
  let (s, refused, cmds) := s.stopUnits live
  let torn := (cmds.filter fun c => c.2.1 ≠ 0).map (·.1)
  let keep := z.id ≠ 0
  let ctx := s.ctx z.context
  let lists := listSize cmds.length refused.length
  let fixed := lists + (live.map fun t => t.regionBytes).sum
  let (quota, charged) := match ctx with | some c => (c.quota, c.charged) | none => (0, 0)
  let items := (all.map fun t => t.finished.length + (if t.state = .done then 0 else (s.stoppedItems t torn z.cut).length + (t.unstarted []).length)).sum
  let base := charged + fixed + items * itemRecSize
  let ((total, _), rs) := s.recordAll keep quota torn z (base, false) all
  let used := (rs.map fun (r : Recorded) => itemsSize r.items).sum
  let s := match ctx with
    | none => s
    | some c =>
      if !keep then s
      else
        let pages := s.overlayPages live * pageBytes
        let space := match live with
          | [t] => if z.tasks.isSome then s.spaceFor c t else [s.treeOf c]
          | _ => [s.treeOf c]
        let spaces := live.foldl (fun (m : Assoc (List Layer)) (t : Task) =>
          if t.revival.isSome then assocPut m t.num.toNat (s.spaceFor c t) else m) []
        let sectors := s.labelSectors z.context all cmds
        let k : Corpse :=
          { id := z.id, context := z.context, fn := c.fn, cause := z.cause, freeze := z.instant,
            quota := total - charged + pages, tasks := rs.length,
            records := dirRecords z.instant 0x41000 rs, descs := rs.map Recorded.task, commands := cmds, refused := refused,
            killer := z.killer, grants := if z.tasks.isSome then [(c.num, c.serial)] else [], used := used + fixed,
            cmdlist := 0x41000 + used, copied := [],
            space := space, spaces := spaces, sectors := sectors, spadTorn := s.tornSpad torn,
            guest := z.guest, serial := c.serial, writes := s.outsideWrites all, loads := outsideLoads rs (cmds.map Prod.fst),
            revivals := (rs.filter fun (r : Recorded) => r.before.revival.isSome && r.before.alive && r.awaiting).map Recorded.before }
        { s.setCtx { c with charged := total } with corpses := s.corpses ++ [k] }
  let s := (s.killTasks z rs).killsDone z z.journal
  { s with freezing := s.freezing.filter fun y => y ≠ z }

/-! ## Requests answered after the instant (R360) -/

/-- A recorded item whose outstanding host and peer requests have all ended. -/
def ItemRec.answered (r : ItemRec) : Bool :=
  match r.core.wait with
  | some (.host rs) => rs.all fun q => q.answer.isSome
  | _ => false
def Corpse.answeredItem (k : Corpse) : Option ItemRec :=
  ((k.records.filter fun d => d.kind = 0).flatMap fun d => d.items).find? ItemRec.answered

/-- R364: the record without its requests; where they have been answered, reason 5 no longer holds for them. -/
def ItemRec.settled (r : ItemRec) (c : Core) (resolved : Bool) : ItemRec :=
  let link := c.pending.any fun p => p.code = cLINK
  let reasons := if resolved && !link then r.reasons.filter (· ≠ 5) else r.reasons
  let label := worstLabel reasons
  { r with core := { c with wait := none }, reasons := reasons, label := label,
           reason := BitVec.ofNat 8 (lowestReason label reasons) }
def DirRec.settled (d : DirRec) (r : ItemRec) (c : Core) (resolved : Bool) : DirRec :=
  if d.kind = 0 && d.items.contains r then
    let items := d.items.map fun q => if q = r then r.settled c resolved else q
    let (label, reason) := itemsLabel items
    { d with items := items, label := label, reason := reason }
  else d

/-- An item of the corpse with the core that its answered requests leave. -/
def Corpse.settled (r : ItemRec) (c : Core) (resolved : Bool) (k : Corpse) : Corpse :=
  { k with records := k.records.map fun d => d.settled r c resolved,
           descs := k.descs.map fun (t : Task) =>
             { t with saved := t.saved.map fun x => if x = r.core then { c with wait := none } else x } }

/-- A request that was never answered (R360): it timed out, or its peer is unreachable. -/
def Request.never (q : Request) : Bool :=
  match q.answer with
  | some .timeout => true
  | some (.failed .lost) => true
  | _ => false
def Request.failed (q : Request) : Bool := match q.answer with | some o => (q.fault o).isSome | none => false

/-! ## The step -/

/-- R360: no zone of the module that counts lies before the instant. DESIGN CHOICE (assumption 121): a die whose count has
stopped holds no freeze up; its units stop with the last of the others. -/
def State.freezeReady (s : State) (z : Freezing) : Bool := s.dies.toList.all fun d => !d.counting || z.instant ≤ d.atime

/-- The first freeze with a corpse id whose instant has come (R368: several may have id 0). -/
def State.readyFreeze (s : State) (id : BitVec 32) : Option Freezing := s.freezing.find? fun z => z.id = id && s.freezeReady z

/-- A core of the target whose host or bank access has been answered: its value comes before the record (R360). -/
def State.answeredCore (s : State) (ts : List Task) : Option CoreId :=
  (ts.flatMap fun t => if t.state = .running then t.slots else []).find? fun c =>
    match (s.agent (.core c)).wait with
    | some (.host rs) => rs.all fun r => r.answer.isSome
    | some (.rmw _ _ _ _ _ _ (some _)) => true
    | _ => false

def execFreezeInstant (corpse : BitVec 32) (s : State) : Out :=
  match s.readyFreeze corpse with
  | none => .next s
  | some z => if (s.answeredCore (s.freezeTargets z)).isNone then .next (s.freezeInstant z) else .next s

/-! ## The loss of a die link (R385) -/

def between (a b : Nat) (x y : Nat) : Bool := x = a && y = b || x = b && y = a

/-- Requests across the link are unanswered, and raise LINK at their items. -/
def State.reportLost (s : State) (lost : List (Origin × Addr)) : State :=
  lost.foldl (fun s x => s.reportImprecise x.1 (s.lateRecord cLINK x.1 x.2 0)) s

/-- Not-before loads that wait at a home beyond the link. -/
def Core.lostReads (c : Core) (lost : BitVec 2 → Bool) : List (Origin × Addr) :=
  (match c.wait with | some (.notBefore _ rs) => rs | _ => []).filterMap fun (r : Request) =>
    match r.answer, r.home with
    | none, some d => if lost d then some (c.origin, r.va) else none
    | _, _ => none

/-- R385: the lowest-numbered healthy die that is not beyond the link (DEDUCED, assumption 114). -/
def State.lowestReachable (s : State) (high : BitVec 2) : BitVec 2 :=
  match (upFrom 0 4).find? fun d => d ≠ high.toNat && (s.dieAt (BitVec.ofNat 2 d)).healthy with
  | some d => BitVec.ofNat 2 d
  | none => 0

/-- What a freeze of the task records of the lost link: the die beyond it, and the items with unanswered requests. -/
def Freezing.cutAt (z : Freezing) (t : Task) (high : BitVec 2) (cut : List Origin) : Freezing :=
  if z.covers t then { z with lost := if z.lost.contains high then z.lost else z.lost ++ [high], cut := z.cut ++ cut } else z

/-- A freeze of every task with items on both sides. -/
def State.freezeSpanning (s : State) (low high : BitVec 2) (cut : List Origin) : List Task → State
  | [] => s
  | t :: rest =>
    let on := fun (d : BitVec 2) => t.slots.any fun c => c.die = d
    if t.state = .running && on low && on high then
      let (s, _) := s.startFreeze (s.lowestReachable high) t.context (some t.num) 4 0 0
      let now := (s.task t.context t.num).getD t
      State.freezeSpanning { s with freezing := s.freezing.map fun z => z.cutAt now high cut } low high cut rest
    else State.freezeSpanning s low high cut rest

def execDieLinkLoss (dieA dieB : BitVec 2) (s : State) : Out :=
  if dieA = dieB then .next s
  else
    let low := if dieA < dieB then dieA else dieB
    let high := if dieA < dieB then dieB else dieA
    let over_ := fun (a : AgentId) (d : Nat) => between low.toNat high.toNat a.die.toNat d
    let crosses := fun (f : Flight) => match s.dieOfLoc f.loc f.va with | some d => over_ f.agent d | none => false
    let late := fun (x : Timed) => x.arrival.isNone && x.device = s.device && x.peer.isNone && over_ x.issuer x.homeDie.toNat
    let reads := (s.core :: s.parked).flatMap fun c => c.lostReads fun d => over_ c.agent d.toNat
    let t := { s with flights := s.flights.filter fun f => !crosses f, timed := s.timed.filter fun x => !late x }
    let lost := (s.flights.filter crosses).map (fun f => (f.origin, f.va)) ++ (s.timed.filter late).map (fun x => (x.origin, x.va)) ++ reads
    .next ((t.reportLost lost).freezeSpanning low high (lost.map (·.1)) s.tasks)

end Sys2Proof.Machine
end

