-- ==== Sys2Proof/Machine/Page0.lean ====
section
/-! DEFINITION. Page 0: integer operations, control transfer, trap, identity and time, fences (R78 to R84, R95 to R97,
R134). -/

namespace Sys2Proof.Machine

/-! ## Integer operations (R78 to R81) -/

def execAdd (x : Pfx) (a b c : RegNum) (s : State) : Out := scalarOp x s (rrBody (· + ·) a b c)
def execSub (x : Pfx) (a b c : RegNum) (s : State) : Out := scalarOp x s (rrBody (· - ·) a b c)
def execAnd (x : Pfx) (a b c : RegNum) (s : State) : Out := scalarOp x s (rrBody (· &&& ·) a b c)
def execOr (x : Pfx) (a b c : RegNum) (s : State) : Out := scalarOp x s (rrBody (· ||| ·) a b c)
def execXor (x : Pfx) (a b c : RegNum) (s : State) : Out := scalarOp x s (rrBody (· ^^^ ·) a b c)
/-- The shift count takes only y[5:0]. -/
def shiftCount (y : Word) : Nat := (y &&& 63).toNat
def execShl (x : Pfx) (a b c : RegNum) (s : State) : Out := scalarOp x s (rrBody (fun u y => u <<< shiftCount y) a b c)
def execShr (x : Pfx) (a b c : RegNum) (s : State) : Out := scalarOp x s (rrBody (fun u y => u >>> shiftCount y) a b c)
def execSar (x : Pfx) (a b c : RegNum) (s : State) : Out := scalarOp x s (rrBody (fun u y => u.sshiftRight (shiftCount y)) a b c)
def execMin (x : Pfx) (a b c : RegNum) (s : State) : Out := scalarOp x s (rrBody (fun u y => if y.slt u then y else u) a b c)
def execMax (x : Pfx) (a b c : RegNum) (s : State) : Out := scalarOp x s (rrBody (fun u y => if u.slt y then y else u) a b c)
def execMinz (x : Pfx) (a b c : RegNum) (s : State) : Out := scalarOp x s (rrBody (fun u y => if y.ult u then y else u) a b c)
def execMaxz (x : Pfx) (a b c : RegNum) (s : State) : Out := scalarOp x s (rrBody (fun u y => if u.ult y then y else u) a b c)
def execSlt (x : Pfx) (a b c : RegNum) (s : State) : Out := scalarOp x s (rrBody (fun u y => boolWord (u.slt y)) a b c)
def execSltz (x : Pfx) (a b c : RegNum) (s : State) : Out := scalarOp x s (rrBody (fun u y => boolWord (u.ult y)) a b c)
def execSeq (x : Pfx) (a b c : RegNum) (s : State) : Out := scalarOp x s (rrBody (fun u y => boolWord (u == y)) a b c)

/-- R78: all 128 bits and the tag are copied. -/
def execMov (x : Pfx) (a b : RegNum) (s : State) : Out := scalarOp x s fun s => do
  let s ← s.useG [b]
  return s.setG a (s.g b)

def execAddi (x : Pfx) (a c : RegNum) (imm : Word) (s : State) : Out := scalarOp x s (riBody (· + ·) a c imm)
def execAndi (x : Pfx) (a c : RegNum) (imm : Word) (s : State) : Out := scalarOp x s (riBody (· &&& ·) a c imm)
def execOri (x : Pfx) (a c : RegNum) (imm : Word) (s : State) : Out := scalarOp x s (riBody (· ||| ·) a c imm)
def execXori (x : Pfx) (a c : RegNum) (imm : Word) (s : State) : Out := scalarOp x s (riBody (· ^^^ ·) a c imm)
/-- R79: an immediate outside 0 to 63 raises ILL. -/
def countIll (imm : Word) : Bool := 64 ≤ imm.toNat
def execShli (x : Pfx) (a c : RegNum) (imm : Word) (s : State) : Out :=
  .next (s.scalarInstr (countIll imm) false x (riBody (fun u i => u <<< i.toNat) a c imm))
def execShri (x : Pfx) (a c : RegNum) (imm : Word) (s : State) : Out :=
  .next (s.scalarInstr (countIll imm) false x (riBody (fun u i => u >>> i.toNat) a c imm))
def execSari (x : Pfx) (a c : RegNum) (imm : Word) (s : State) : Out :=
  .next (s.scalarInstr (countIll imm) false x (riBody (fun u i => u.sshiftRight i.toNat) a c imm))
def execSlti (x : Pfx) (a c : RegNum) (imm : Word) (s : State) : Out := scalarOp x s (riBody (fun u i => boolWord (u.slt i)) a c imm)
def execLi (x : Pfx) (a : RegNum) (imm : Word) (s : State) : Out := scalarOp x s fun s => .ok (s.setInt a imm)

/-- R81: a pointer derived by a byte offset; it keeps its tag up to one byte past the top. `x` is Gint(B). -/
def leaResult (src : GReg) (x off : Word) : GReg :=
  if !src.tag then intReg (x + off)
  else
    let cur := src.cursor + off.setWidth 48
    if !src.isSealed && (cur - src.base).toNat ≤ src.length then src.setCursor cur else intReg (cur.setWidth 64)
def execLea (x : Pfx) (a b : RegNum) (off : Word) (s : State) : Out := scalarOp x s fun s => do
  let s ← s.useG [b]
  return s.setG a (leaResult (if b = 0 then s.core.pcc else s.g b) (s.gint b) off)

/-! ## Control transfer (R82 to R84) -/

/-- PC + 2 × SExt(off). -/
def branchTarget (s : State) (off : Word) : Addr := s.pc + (off <<< 1).setWidth 48
def execBr (x : Pfx) (off : Word) (s : State) : Out := jumpOp x s fun s => .ok (s.setPc (branchTarget s off))

/-- R82: the compare branches. -/
def branchBody (x : Pfx) (cond : Word → Word → Bool) (a b : RegNum) (off : Word) (s : State) : R State := do
  let s ← s.useG [a, b]
  return s.setPc (if cond (s.gint a) (s.gint b) then branchTarget s off else s.next x)
def execBeq (x : Pfx) (a b : RegNum) (off : Word) (s : State) : Out := jumpOp x s (branchBody x (· == ·) a b off)
def execBne (x : Pfx) (a b : RegNum) (off : Word) (s : State) : Out := jumpOp x s (branchBody x (· != ·) a b off)
def execBlt (x : Pfx) (a b : RegNum) (off : Word) (s : State) : Out := jumpOp x s (branchBody x (fun u y => u.slt y) a b off)
def execBge (x : Pfx) (a b : RegNum) (off : Word) (s : State) : Out := jumpOp x s (branchBody x (fun u y => !u.slt y) a b off)
def execBlo (x : Pfx) (a b : RegNum) (off : Word) (s : State) : Out := jumpOp x s (branchBody x (fun u y => u.ult y) a b off)
def execBhs (x : Pfx) (a b : RegNum) (off : Word) (s : State) : Out := jumpOp x s (branchBody x (fun u y => !u.ult y) a b off)

/-- R83: the link value: PCC with its cursor at the next instruction. -/
def State.link (s : State) (x : Pfx) : State := s.setG 30 (s.core.pcc.setCursor (s.next x))
def execCall (x : Pfx) (off : Word) (s : State) : Out := jumpOp x s fun s => .ok ((s.link x).setPc (branchTarget s off))

/-- R83: the target of CALLR and JMPR. -/
def jumpTarget (a : RegNum) (s : State) : R (GReg × State) := do
  let (t, s) ← s.readG a
  if !t.tag then trap cKTAG a.toNat
  else if t.isSealed then trap cKSEAL a.toNat
  else .ok (t, s)
def execCallr (x : Pfx) (a : RegNum) (s : State) : Out := jumpOp x s fun s => do
  let (t, s) ← jumpTarget a s
  return (s.link x).setPcc t
def execJmpr (x : Pfx) (a : RegNum) (s : State) : Out := jumpOp x s fun s => do
  let (t, s) ← jumpTarget a s
  return s.setPcc t

/-- R84. -/
def execLoop (x : Pfx) (a : RegNum) (off : Word) (s : State) : Out := jumpOp x s fun s => do
  let s ← s.useG [a]
  let n := s.gint a - 1
  return (s.setInt a n).setPc (if n = 0 then s.next x else branchTarget s off)

/-! ## Trap, identity and time (R95 to R97) -/

/-- R95: DETAIL holds the code and the instruction's length. -/
def execTrap (x : Pfx) (code : BitVec 8) (s : State) : Out := scalarOp x s fun _ =>
  trap cSWTRAP (code.setWidth 64 + BitVec.ofNat 64 (2 * x.parcels) * 256)

/-- R72: what RDID reads. DESIGN CHOICE (assumption 133): CORE is 0 on a firmware core or a culvert, CLUSTER 0 on a firmware
core. -/
def State.identity (s : State) (sel : BitVec 4) : Word :=
  let id := s.core.ident
  match sel with
  | 0#4 => s.core.agent.coreNumber.setWidth 64
  | 1#4 => match s.core.agent with
    | .core c => BitVec.ofNat 64 c.cluster
    | .culvert c => c.cluster.setWidth 64
    | _ => 0
  | 2#4 => s.core.agent.die.setWidth 64
  | 3#4 => s.device.setWidth 64
  | 4#4 => BitVec.ofNat 64 id.item
  | 5#4 => BitVec.ofNat 64 id.items
  | 6#4 => id.task.setWidth 64
  | 7#4 => s.core.owner.setWidth 64
  | 8#4 => id.level.setWidth 64
  | 9#4 => id.step
  | 10#4 => BitVec.ofNat 64 id.team
  | 11#4 => BitVec.ofNat 64 id.slot
  | 12#4 => s.feed.setWidth 64
  | _ => id.cls.setWidth 64
/-- R96: selectors 14 and 15 raise ILL. -/
def execRdid (x : Pfx) (a : RegNum) (sel : BitVec 4) (s : State) : Out :=
  .next (s.scalarInstr (14 ≤ sel.toNat) false x fun s => .ok (s.setInt a (s.identity sel)))
def execTnow (x : Pfx) (a : RegNum) (s : State) : Out := scalarOp x s fun s => .ok (s.setInt a s.now)

/-! ## Fences (R134, R135) -/

/-- R134: a FENCE without an ordering raises ILL. An acquire has nothing to wait for: every earlier load has been
performed. A sequential fence waits, as every sequential access does, for all earlier ones. -/
def execFence (x : Pfx) (o : Ordering) (s : State) : Out :=
  .next (s.scalarInstr (o.ord = 0) false x fun s => .ok (if o.ord = 1 then s else s.release o.scope))
/-- R135: the instruction cache and the prefetched parcels of the agent in focus are dropped. -/
def State.dropCode (s : State) : State := { s with core := { s.core with icache := [] } }
/-- R135: earlier stores are performed, posted host stores included; then fetches read memory afresh. -/
def execFenceI (x : Pfx) (s : State) : Out := scalarOp x s fun s => .ok (s.release 5).dropCode

end Sys2Proof.Machine
end

