-- ==== Sys2Proof/Machine/Page1.lean ====
section
/-! DEFINITION. Page 1: multiply, divide and bits, capabilities, colours, CSRs, and random numbers (R100 to R111, R117
to R119). -/

namespace Sys2Proof.Machine

/-! ## Multiply and divide (R100) -/

def execMul (x : Pfx) (a b c : RegNum) (s : State) : Out := scalarOp x s (rrBody (· * ·) a b c)
def execMulh (x : Pfx) (a b c : RegNum) (s : State) : Out :=
  scalarOp x s (rrBody (fun u y => BitVec.ofInt 64 (u.toInt * y.toInt / 2 ^ 64)) a b c)
def execMulhz (x : Pfx) (a b c : RegNum) (s : State) : Out :=
  scalarOp x s (rrBody (fun u y => BitVec.ofNat 64 (u.toNat * y.toNat / 2 ^ 64)) a b c)
/-- Signed quotient truncated toward zero, with the cases y = 0 and −2⁶³ / −1. -/
def divSigned (u y : Word) : Word := if y = 0 then BitVec.allOnes 64 else BitVec.ofInt 64 (Int.tdiv u.toInt y.toInt)
def remSigned (u y : Word) : Word := if y = 0 then u else BitVec.ofInt 64 (Int.tmod u.toInt y.toInt)
def execDiv (x : Pfx) (a b c : RegNum) (s : State) : Out := scalarOp x s (rrBody divSigned a b c)
def execDivz (x : Pfx) (a b c : RegNum) (s : State) : Out :=
  scalarOp x s (rrBody (fun u y => if y = 0 then BitVec.allOnes 64 else BitVec.ofNat 64 (u.toNat / y.toNat)) a b c)
def execRem (x : Pfx) (a b c : RegNum) (s : State) : Out := scalarOp x s (rrBody remSigned a b c)
def execRemz (x : Pfx) (a b c : RegNum) (s : State) : Out :=
  scalarOp x s (rrBody (fun u y => if y = 0 then u else BitVec.ofNat 64 (u.toNat % y.toNat)) a b c)

/-! ## Bits (R101, R102) -/

/-- Leading zero bits among the low `n` bits of a value, from the top. -/
def leadZeros (v : Word) : Nat → Nat
  | 0 => 0
  | n + 1 => if v.getLsbD n then 0 else 1 + leadZeros v n
/-- Trailing zero bits of the `n` bits from bit `i`. -/
def trailZeros (v : Word) (i : Nat) : Nat → Nat
  | 0 => 0
  | n + 1 => if v.getLsbD i then 0 else 1 + trailZeros v (i + 1) n
def countOnes (v : Nat) : Nat → Nat
  | 0 => 0
  | n + 1 => v % 2 + countOnes (v / 2) n
/-- The low `n` bits in reverse order. -/
def revBits (v : Nat) : Nat → Nat
  | 0 => 0
  | n + 1 => (v % 2) * 2 ^ n + revBits (v / 2) n
def revBytes (v : Word) : Word := BitVec.ofNat 64 (natOf (bytesOf 8 v.toNat).reverse)

def execClz (x : Pfx) (a b : RegNum) (s : State) : Out := scalarOp x s (unBody (fun v => BitVec.ofNat 64 (leadZeros v 64)) a b)
def execCtz (x : Pfx) (a b : RegNum) (s : State) : Out := scalarOp x s (unBody (fun v => BitVec.ofNat 64 (trailZeros v 0 64)) a b)
def execPopc (x : Pfx) (a b : RegNum) (s : State) : Out := scalarOp x s (unBody (fun v => BitVec.ofNat 64 (countOnes v.toNat 64)) a b)
def execBrev (x : Pfx) (a b : RegNum) (s : State) : Out := scalarOp x s (unBody (fun v => BitVec.ofNat 64 (revBits v.toNat 64)) a b)
def execBswp (x : Pfx) (a b : RegNum) (s : State) : Out := scalarOp x s (unBody revBytes a b)

/-- BEXT and BINS: position y[5:0], width min(y[14:8], 64). -/
def fieldPos (y : Word) : Nat := (y.extractLsb' 0 6).toNat
def fieldWidth (y : Word) : Nat := min (y.extractLsb' 8 7).toNat 64
def bext (u y : Word) : Word := BitVec.ofNat 64 (bitsAt u.toNat (fieldPos y) (fieldWidth y))
def bins (z u y : Word) : Word :=
  let mask : Word := BitVec.ofNat 64 ((2 ^ fieldWidth y - 1) * 2 ^ fieldPos y)
  (z &&& ~~~mask) ||| ((u <<< fieldPos y) &&& mask)
def execBext (x : Pfx) (a b c : RegNum) (s : State) : Out := scalarOp x s (rrBody bext a b c)
def execBins (x : Pfx) (a b c : RegNum) (s : State) : Out := scalarOp x s fun s => do
  let s ← s.useG [a, c, b]
  return s.setInt a (bins (s.gint a) (s.gint c) (s.gint b))
def execRotl (x : Pfx) (a b c : RegNum) (s : State) : Out := scalarOp x s (rrBody (fun u y => u.rotateLeft (y &&& 63).toNat) a b c)
def execRotr (x : Pfx) (a b c : RegNum) (s : State) : Out := scalarOp x s (rrBody (fun u y => u.rotateRight (y &&& 63).toNat) a b c)

/-- R102. -/
def execSel (x : Pfx) (a b c : RegNum) (s : State) : Out := scalarOp x s fun s => do
  let s ← s.useG [a, c, b]
  return s.setG a (if s.gint a ≠ 0 then s.g c else s.g b)

/-! ## Capabilities (R103 to R109) -/

/-- R104: a cursor moved to an offset from the base: the tag is kept up to one byte past the top of an unsealed one. -/
def moveCursor (src : GReg) (d : Int) : GReg :=
  let cur : Addr := src.base + BitVec.ofInt 48 d
  if !src.isSealed && 0 ≤ d && d ≤ (src.length : Int) then src.setCursor cur else intReg (cur.setWidth 64)

/-- KINC and KINCI. -/
def kincResult (src : GReg) (inc : Word) : GReg :=
  if !src.tag then intReg (src.bits.setWidth 64 + inc) else moveCursor src ((src.offset : Int) + inc.toInt)

/-- KCUR: an address of more than 48 bits gives d = −1, and the cursor one below the base. -/
def kcurResult (src : GReg) (y : Word) : GReg :=
  if !src.tag then intReg y
  else moveCursor src (if y.extractLsb' 48 16 ≠ 0 then -1 else ((y.setWidth 48 - src.base : Addr).toNat : Int))

def execKinc (x : Pfx) (a b c : RegNum) (s : State) : Out := scalarOp x s fun s => do
  let s ← s.useG [c, b]
  return s.setG a (kincResult (s.g c) (s.gint b))
def execKinci (x : Pfx) (a c : RegNum) (imm : Word) (s : State) : Out := scalarOp x s fun s => do
  let s ← s.useG [c]
  return s.setG a (kincResult (s.g c) imm)
def execKcur (x : Pfx) (a b c : RegNum) (s : State) : Out := scalarOp x s fun s => do
  let s ← s.useG [c, b]
  return s.setG a (kcurResult (s.g c) (s.gint b))

/-- KTAG on an untagged source, KSEAL on a sealed one. -/
def needOpen (src : GReg) (n : RegNum) : R Unit :=
  if !src.tag then trap cKTAG n.toNat else if src.isSealed then trap cKSEAL n.toNat else .ok ()

/-- A capability with other bounds, starting at its cursor. -/
def GReg.narrow (src : GReg) (m : BitVec 16) (e : BitVec 6) : GReg :=
  mkCap src.colour false src.perms m e src.cursor src.cursor
def GReg.withPerms (src : GReg) (p : BitVec 5) : GReg := mkCap src.colour src.isSealed p src.m src.e src.base src.cursor
def GReg.withColour (src : GReg) (c : BitVec 4) : GReg := mkCap c src.isSealed src.perms src.m src.e src.base src.cursor
def GReg.withSeal (src : GReg) (b : Bool) : GReg := mkCap src.colour b src.perms src.m src.e src.base src.cursor

/-- R105. -/
def kbndResult (src : GReg) (len : Nat) : Option GReg :=
  let (m, e) := lengthCode len
  if 2 ^ 48 < len then none
  else if src.length < src.offset + (m.toNat <<< e.toNat) then none
  else some (src.narrow m e)
def execKbnd (x : Pfx) (a b c : RegNum) (s : State) : Out := scalarOp x s fun s => do
  let s ← s.useG [c, b]
  needOpen (s.g c) c
  match kbndResult (s.g c) (s.gint b).toNat with
  | some r => return s.setG a r
  | none => trap cKBND c.toNat

/-- R106. -/
def execKprm (x : Pfx) (a b c : RegNum) (s : State) : Out := scalarOp x s fun s => do
  let s ← s.useG [c, b]
  needOpen (s.g c) c
  return s.setG a ((s.g c).withPerms ((s.g c).perms &&& (s.gint b).setWidth 5))
def execKcol (x : Pfx) (a b c : RegNum) (s : State) : Out := scalarOp x s fun s => do
  let s ← s.useG [c, b]
  let src := s.g c
  needOpen src c
  let col : BitVec 4 := (s.gint b).setWidth 4
  if col ≠ src.colour && !src.permT then trap cKPRM c.toNat
  else return s.setG a (src.withColour col)

/-- R108: the fields that KGET reads, tagged or not. -/
def kgetValue (src : GReg) (sel : BitVec 4) : Word :=
  match sel with
  | 0#4 => src.cursor.setWidth 64
  | 1#4 => src.base.setWidth 64
  | 2#4 => BitVec.ofNat 64 src.length
  | 3#4 => BitVec.ofNat 64 src.offset
  | 4#4 => (src.bits.extractLsb' 118 6).setWidth 64
  | 5#4 => src.colour.setWidth 64
  | 6#4 => boolWord src.tag
  | 7#4 => src.e.setWidth 64
  | _ => src.m.setWidth 64
def execKget (x : Pfx) (a c : RegNum) (sel : BitVec 4) (s : State) : Out :=
  .next (s.scalarInstr (9 ≤ sel.toNat) false x fun s => do
    let s ← s.useG [c]
    return s.setInt a (kgetValue (s.g c) sel))

/-- R109: `y` could have been derived from `z`. -/
def derivable (y z : GReg) : Bool :=
  z.tag && y.tag && !z.isSealed && !y.isSealed && y.within z && y.perms &&& z.perms = y.perms && y.colour = z.colour
def execKtst (x : Pfx) (a b c : RegNum) (s : State) : Out := scalarOp x s fun s => do
  let s ← s.useG [c, b]
  return s.setInt a (boolWord (derivable (s.g b) (s.g c)))

/-- R107. -/
def execKseal (x : Pfx) (a b : RegNum) (s : State) : Out := scalarOp x s fun s => do
  let s ← s.useG [b]
  if !(s.g b).tag then trap cKTAG b.toNat else return s.setG a ((s.g b).withSeal true)
/-- R107. DESIGN CHOICE (assumption 9): DETAIL of KTAG names C where both are untagged, and DETAIL of KPRM names B, the
authority. -/
def execKuns (x : Pfx) (a b c : RegNum) (s : State) : Out := scalarOp x s fun s => do
  let s ← s.useG [c, b]
  let src := s.g c
  let auth := s.g b
  if !src.tag then trap cKTAG c.toNat
  else if !auth.tag then trap cKTAG b.toNat
  else if auth.isSealed then trap cKSEAL b.toNat
  else if !(src.within auth && src.perms &&& auth.perms = src.perms && src.colour = auth.colour) then trap cKPRM b.toNat
  else return s.setG a (src.withSeal false)
def execKclr (x : Pfx) (a b : RegNum) (s : State) : Out := scalarOp x s (unBody id a b)

/-! ## Memory colours (R110) -/

/-- The granules of a run, one access each; the bounds are those of the whole run. -/
def runAccesses (cap : GReg) (b : RegNum) (ea : Addr) (inB : Bool) (mk : Access → Access) : Nat → List Access
  | 0 => []
  | n + 1 => { mk (memAccess cap b ea 32) with colour := false, inB := inB } :: runAccesses cap b (ea + 32) inB mk n
def runOf (cap : GReg) (b : RegNum) (mk : Access → Access) (n : Nat) : List Access :=
  runAccesses cap b cap.cursor (cap.inBounds cap.cursor (32 * n)) mk n

/-- A granule that holds no colour: TCM, a host or a peer window. -/
def uncoloured (p : Place) : Bool :=
  match p.region with
  | .tcm => true | .window => true | .host => true | .peer _ => true | .spad => false | .sram => false | .dev => false | .mount => false

def firstUncoloured : List Place → Option Place
  | [] => none
  | p :: rest => if uncoloured p then some p else firstUncoloured rest

/-- The checked places of a run. -/
def State.checkRun (s : State) (as : List Access) : R (State × List Place) := do
  let (s, ps) ← s.checkAll as
  match firstUncoloured ps with
  | some p => trap cTRANS (transDetail 0 3) (p.va.setWidth 64)
  | none => .ok (s, ps)

def storeColours (s : State) (c : BitVec 4) : List Place → State
  | [] => s
  | p :: rest => storeColours (s.storeColour p c) c rest

/-- The colours of a run, four bits each. -/
def State.colours4 (s : State) : List Place → Nat
  | [] => 0
  | p :: rest => (s.colourOf p 0).toNat + 16 * State.colours4 s rest

/-- Earlier writes of the agent to the granules come first. -/
def State.settleAll (s : State) : List Place → State
  | [] => s
  | p :: rest => State.settleAll (s.beforeAccess p 32) rest

def execStg (x : Pfx) (a b : RegNum) (s : State) : Out := scalarOp x s fun s => do
  let s ← s.useG [b, a]
  let n := 1 + ((s.gint a).extractLsb' 4 4).toNat
  let (s, ps) ← s.checkRun (runOf (s.g b) b (fun a => { a with w := true, t := true }) n)
  return storeColours s ((s.gint a).setWidth 4) ps
def execLdg (x : Pfx) (a b : RegNum) (s : State) : Out := scalarOp x s fun s => do
  let s ← s.useG [b, a]
  let n := 1 + ((s.gint a).extractLsb' 0 4).toNat
  let (s, ps) ← s.checkRun (runOf (s.g b) b Access.load n)
  let s := s.settleAll ps
  return s.setInt a (BitVec.ofNat 64 (s.colours4 ps))

/-! ## CSRs (R68, R71, R117) -/

/-- The CSR addresses of R68. -/
def csrKnown (n : Word) : Bool :=
  n = 0x001 || n = 0x010 || n = 0x011 || n = 0x012 || n = 0x013 || n = 0x020 || n = 0x021 || n = 0x030 || n = 0x040 || n = 0x050

/-- The bits of a CSR that a write reaches (R68 to R70). SMPL is written by SMPC alone (R407). DESIGN CHOICE (assumption
94): bits [63:48] of TEPC, SOVP and SOVL ignore writes and read zero, as R68 says of TVEC. -/
def csrMask (n : Word) : Word :=
  if n = 0x001 then 0x3FF7
  else if n = 0x010 || n = 0x013 || n = 0x020 || n = 0x021 then 0xFFFFFFFFFFFF
  else if n = 0x011 then 0xFF
  else if n = 0x050 then 0xE7
  else if n = 0x040 then 0
  else BitVec.allOnes 64

def Csrs.get (r : Csrs) (n : Word) : Word :=
  if n = 0x001 then r.fcsr else if n = 0x010 then r.tvec else if n = 0x011 then r.tcause
  else if n = 0x012 then r.trec.bits.setWidth 64 else if n = 0x013 then r.tepc else if n = 0x020 then r.sovp
  else if n = 0x021 then r.sovl else if n = 0x030 then r.klead else if n = 0x040 then r.smpl else r.mstat

def Csrs.set (r : Csrs) (n v : Word) : Csrs :=
  let w := (r.get n &&& ~~~(csrMask n)) ||| (v &&& csrMask n)
  if n = 0x001 then { r with fcsr := w } else if n = 0x010 then { r with tvec := w } else if n = 0x011 then { r with tcause := w }
  else if n = 0x012 then r else if n = 0x013 then { r with tepc := w } else if n = 0x020 then { r with sovp := w }
  else if n = 0x021 then { r with sovl := w } else if n = 0x030 then { r with klead := w } else if n = 0x040 then { r with smpl := w }
  else { r with mstat := w }

/-- R71: an address that names no CSR, or a write to TREC. -/
def csrIll (n : Word) (write : Bool) : Bool := !csrKnown n || write && n = 0x012
/-- R71: KLEAD, and writes to SMPL, in item mode. -/
def csrPriv (s : State) (n : Word) (write : Bool) : Bool := s.itemMode && (n = 0x030 || write && n = 0x040)

/-- R118: an access to MSTAT waits for the agent's earlier drains. -/
def State.csrWait (s : State) (n : Word) : R Unit :=
  if n = 0x050 && s.core.mx.queue.any (fun c => match c with | .mdrain _ _ _ _ => true | _ => false) then .error (.wait (.room none))
  else .ok ()

/-- R117: what the instruction writes to A. -/
def csrOld (s : State) (n : Word) : GReg := if n = 0x012 then s.core.csr.trec else intReg (s.core.csr.get n)

def State.setCsr (s : State) (n v : Word) : State := { s with core := { s.core with csr := s.core.csr.set n v } }

def csrBody (f : Word → Word → Word) (a c : RegNum) (n : Word) (s : State) : R State := do
  let s ← s.useG [c]
  s.csrWait n
  let old := csrOld s n
  return (s.setCsr n (f (old.bits.setWidth 64) (s.gint c))).setG a old

def execCsrr (x : Pfx) (a : RegNum) (csr : Word) (s : State) : Out :=
  .next (s.scalarInstr (csrIll csr false) (csrPriv s csr false) x fun s => do
    s.csrWait csr
    return s.setG a (csrOld s csr))
def execCsrw (x : Pfx) (a c : RegNum) (csr : Word) (s : State) : Out :=
  .next (s.scalarInstr (csrIll csr true) (csrPriv s csr true) x (csrBody (fun _ v => v) a c csr))
def execCsrs (x : Pfx) (a c : RegNum) (csr : Word) (s : State) : Out :=
  .next (s.scalarInstr (csrIll csr true) (csrPriv s csr true) x (csrBody (· ||| ·) a c csr))
def execCsrc (x : Pfx) (a c : RegNum) (csr : Word) (s : State) : Out :=
  .next (s.scalarInstr (csrIll csr true) (csrPriv s csr true) x (csrBody (fun o v => o &&& ~~~v) a c csr))

/-! ## Random numbers (R119) -/

/-- R119: one draw of the counter-based generator. -/
def draw (c k : Word) : BitVec 32 :=
  let z := c * 0x9E3779B97F4A7C15 + k
  let z := (z ^^^ (z >>> 30)) * 0xBF58476D1CE4E5B9
  let z := (z ^^^ (z >>> 27)) * 0x94D049BB133111EB
  let z := z ^^^ (z >>> 31)
  z.extractLsb' 32 32
def execSrnd (x : Pfx) (a b c : RegNum) (s : State) : Out := scalarOp x s (rrBody (fun u y => (draw u y).setWidth 64) a b c)

end Sys2Proof.Machine
end

