-- ==== Sys2Proof/Machine/ScalarFloat.lean ====
section
/-! DEFINITION. Page 1: scalar floating point (R112 to R116). -/

namespace Sys2Proof.Machine

/-! ## Reading and writing floating values (R112) -/

def State.rm (s : State) : Rm := fcsrRm s.core.csr.fcsr
def State.ftz (s : State) : Bool := fcsrFtz s.core.csr.fcsr

/-- A floating value in the low bits of a general register. -/
def State.fval (s : State) (f : Fmt) (n : RegNum) : Fp := f.read s.ftz (s.gint n).toNat

/-- R112, R115: an exact result rounded, its flags raised, and the value written with zeros above it. -/
def State.fput (s : State) (f : Fmt) (a : RegNum) (r : Exact) : R State := do
  let (bits, x) := f.finish s.rm s.ftz r
  let s ← s.raise x
  return s.setInt a (BitVec.ofNat 64 bits)

/-- Forms with two sources: x the value of C, y the value of B. -/
def frBody (t : FTy) (op : Rm → Fp → Fp → Exact) (a b c : RegNum) (s : State) : R State := do
  let s ← s.useG [c, b]
  s.fput (fmtOf t) a (op s.rm (s.fval (fmtOf t) c) (s.fval (fmtOf t) b))

def execFadd (x : Pfx) (t : FTy) (a b c : RegNum) (s : State) : Out := scalarOp x s (frBody t (fun rm u y => u.add rm y) a b c)
def execFsub (x : Pfx) (t : FTy) (a b c : RegNum) (s : State) : Out := scalarOp x s (frBody t (fun rm u y => u.add rm y.neg) a b c)
def execFmul (x : Pfx) (t : FTy) (a b c : RegNum) (s : State) : Out := scalarOp x s (frBody t (fun _ u y => u.mul y) a b c)
def execFdiv (x : Pfx) (t : FTy) (a b c : RegNum) (s : State) : Out := scalarOp x s (frBody t (fun _ u y => u.div y) a b c)
def execFfma (x : Pfx) (t : FTy) (a b c : RegNum) (s : State) : Out := scalarOp x s fun s => do
  let s ← s.useG [c, b, a]
  let v := s.fval (fmtOf t)
  s.fput (fmtOf t) a ((v c).fma s.rm (v b) (v a))
def execFsqrt (x : Pfx) (t : FTy) (a b : RegNum) (s : State) : Out := scalarOp x s fun s => do
  let s ← s.useG [b]
  s.fput (fmtOf t) a (s.fval (fmtOf t) b).sqrt

/-- FMIN and FMAX: one of the operands, or the canonical NaN. -/
def fselBody (t : FTy) (op : Fp → Fp → Fp × Exc) (a b c : RegNum) (s : State) : R State := do
  let s ← s.useG [c, b]
  let (r, x) := op (s.fval (fmtOf t) c) (s.fval (fmtOf t) b)
  let s ← s.raise x
  return s.setInt a (BitVec.ofNat 64 ((fmtOf t).write r))
def execFmin (x : Pfx) (t : FTy) (a b c : RegNum) (s : State) : Out := scalarOp x s (fselBody t Fp.min a b c)
def execFmax (x : Pfx) (t : FTy) (a b c : RegNum) (s : State) : Out := scalarOp x s (fselBody t Fp.max a b c)

/-- FEQ, FLT, FLE: an integer 0 or 1. -/
def fcmpBody (t : FTy) (op : Fp → Fp → Bool × Exc) (a b c : RegNum) (s : State) : R State := do
  let s ← s.useG [c, b]
  let (r, x) := op (s.fval (fmtOf t) c) (s.fval (fmtOf t) b)
  let s ← s.raise x
  return s.setInt a (boolWord r)
def execFeq (x : Pfx) (t : FTy) (a b c : RegNum) (s : State) : Out := scalarOp x s (fcmpBody t Fp.eqF a b c)
def execFlt (x : Pfx) (t : FTy) (a b c : RegNum) (s : State) : Out := scalarOp x s (fcmpBody t Fp.ltF a b c)
def execFle (x : Pfx) (t : FTy) (a b c : RegNum) (s : State) : Out := scalarOp x s (fcmpBody t Fp.leF a b c)

/-! ## Conversions (R116) -/

def execFcvti (x : Pfx) (src : FTy) (dst : ITy) (rtz : Bool) (a b : RegNum) (s : State) : Out := scalarOp x s fun s => do
  let s ← s.useG [b]
  let (v, e) := (s.fval (fmtOf src) b).toInt (if rtz then .rtz else s.rm) (ITy.minVal dst) (ITy.maxVal dst)
  let s ← s.raise e
  return s.setInt a (BitVec.ofInt 64 v)
def execFcvtf (x : Pfx) (dst : FTy) (src : ITy) (a b : RegNum) (s : State) : Out := scalarOp x s fun s => do
  let s ← s.useG [b]
  s.fput (fmtOf dst) a (Fp.ofInt (ITy.read src (s.gint b).toNat)).exact
/-- The value of a conversion between floating types: unchanged for one type, but for the flush and the NaN. -/
def convertFp (dst : Fmt) (same : Bool) (rm : Rm) (ftz : Bool) (v : Fp) : Nat × Exc :=
  if same then (dst.write v, v.snan) else dst.finish rm ftz v.exact
def execFcvtw (x : Pfx) (dst src : FTy) (a b : RegNum) (s : State) : Out := scalarOp x s fun s => do
  let s ← s.useG [b]
  let (bits, e) := convertFp (fmtOf dst) (dst = src) s.rm s.ftz (s.fval (fmtOf src) b)
  let s ← s.raise e
  return s.setInt a (BitVec.ofNat 64 bits)

end Sys2Proof.Machine
end

