-- ==== Sys2Proof/Machine/Transcend.lean ====
section
/-! DEFINITION. The unary functions of R175 whose values are irrational, in fixed point of 256 fraction bits: a bound
from below with a remainder left over. -/

namespace Sys2Proof.Machine

/-- Fraction bits of the fixed point. -/
abbrev fxBits : Nat := 256

/-- The sum of 1 / (k 2^k) for k from `k` on: ln 2 from k = 1 (300 terms leave less than 2^-300). -/
def ln2From : Nat → Nat → Nat
  | 0, _ => 0
  | n + 1, k => 2 ^ fxBits / (k * 2 ^ k) + ln2From n (k + 1)
def ln2 : Nat := ln2From 300 1

/-- The sum of the terms t^k / k! from the term given on. -/
def expFrom (t : Nat) : Nat → Nat → Nat → Nat
  | 0, _, _ => 0
  | n + 1, k, term => term + expFrom t n (k + 1) (((term * t) >>> fxBits) / k)

/-- 2^f for a fraction f given in fixed point. -/
def exp2Fixed (f : Nat) : Nat := expFrom ((f * ln2) >>> fxBits) 80 1 (2 ^ fxBits)

/-- The sum of u^(2k+1) / (2k+1) from the power given on: the inverse hyperbolic tangent. -/
def atanhFrom (u2 : Nat) : Nat → Nat → Nat → Nat
  | 0, _, _ => 0
  | n + 1, k, p => p / (2 * k + 1) + atanhFrom u2 n (k + 1) ((p * u2) >>> fxBits)

/-- log₂ z for z in [1, 2) given in fixed point. -/
def log2Fixed (z : Nat) : Nat :=
  let u := ((z - 2 ^ fxBits) <<< fxBits) / (z + 2 ^ fxBits)
  ((2 * atanhFrom ((u * u) >>> fxBits) 100 0 u) <<< fxBits) / ln2

/-- 1 / y (R175). -/
def Fp.rcp (y : Fp) : Exact := Fp.div (.fin false 1 0) y

/-- 1 / √y (R175). -/
def Fp.rsq : Fp → Exact
  | .nan s => .nan (Fp.nan s).snan
  | .inf neg => if neg then .nan eNV else .num false 0 0 false 0
  | .fin neg m e =>
    if m = 0 then .inf neg eDZ
    else if neg then .nan eNV
    else
      let odd := e % 2 ≠ 0
      let m' := if odd then 2 * m else m
      let e' := if odd then e - 1 else e
      let k := 64 + bitLen m'
      let r := isqrt (2 ^ (2 * k) / m')
      .num false r (-(k : Int) - e' / 2) (r * r * m' ≠ 2 ^ (2 * k)) 0

/-- 2^y (R175): exact for an integer y, within bounds that every format of a vector overflows or underflows. -/
def Fp.exp2 : Fp → Exact
  | .nan s => .nan (Fp.nan s).snan
  | .inf neg => if neg then .num false 0 0 false 0 else .inf false 0
  | .fin neg m e =>
    if m = 0 then .num false 1 0 false 0
    else if (12 : Int) < e + bitLen m then (if neg then .num false 1 (-4096) false 0 else .num false 1 4096 false 0)
    else
      -- y in units of 2^-256, exact for every vector format
      let v : Int := scaled neg m (e + fxBits) 0
      let n := v / (2 ^ fxBits : Nat)
      let f := (v % (2 ^ fxBits : Nat)).toNat
      if f = 0 then .num false 1 n false 0 else .num false (exp2Fixed f) (n - fxBits) true 0

/-- log₂ y (R175): exact for a power of two. -/
def Fp.log2 : Fp → Exact
  | .nan s => .nan (Fp.nan s).snan
  | .inf neg => if neg then .nan eNV else .inf false 0
  | .fin neg m e =>
    if m = 0 then .inf true eDZ
    else if neg then .nan eNV
    else
      let b := bitLen m - 1
      let k : Int := e + b
      if m = 2 ^ b then Fp.exact (Fp.ofInt k)
      else
        let v : Int := k * (2 ^ fxBits : Nat) + log2Fixed ((m <<< fxBits) >>> b)
        if v < 0 then .num true (v.natAbs - 1) (-(fxBits : Int)) true 0 else .num false v.toNat (-(fxBits : Int)) true 0

end Sys2Proof.Machine
end

