-- ==== Sys2Proof/Machine/Page2.lean ====
section
/-! DEFINITION. Page 2: vector arithmetic, logic, compares, conversions, reductions and predicates (R168 to R190). -/

namespace Sys2Proof.Machine

/-! ## One element (R172 to R177) -/

/-- A result of the floating class. -/
def State.fres (s : State) (t : FTy) (r : Exact) : Nat × Exc := (fmtOf t).finish s.rm s.ftz r
def State.fread (s : State) (t : FTy) (v : Nat) : Fp := (fmtOf t).read s.ftz v
/-- A result of the integer class, modulo 2^w. -/
def ires (t : ITy) (v : Int) : Nat × Exc := (ITy.write t v, 0)

/-- The two classes of an operation with two sources. -/
def State.elem2 (s : State) (t : ETy) (fp : Rm → Fp → Fp → Exact) (int : Int → Int → Int) (x y : Nat) : Nat × Exc :=
  match t with
  | .fp t => s.fres t (fp s.rm (s.fread t x) (s.fread t y))
  | .int t => ires t (int (ITy.read t x) (ITy.read t y))
def State.elem3 (s : State) (t : ETy) (fp : Rm → Fp → Fp → Fp → Exact) (int : Int → Int → Int → Int) (x y z : Nat) :
    Nat × Exc :=
  match t with
  | .fp t => s.fres t (fp s.rm (s.fread t x) (s.fread t y) (s.fread t z))
  | .int t => ires t (int (ITy.read t x) (ITy.read t y) (ITy.read t z))
/-- VMIN, VMAX: one of the operands. -/
def State.elemSel (s : State) (t : ETy) (fp : Fp → Fp → Fp × Exc) (int : Int → Int → Int) (x y : Nat) : Nat × Exc :=
  match t with
  | .fp t => let (r, e) := fp (s.fread t x) (s.fread t y); ((fmtOf t).write r, e)
  | .int t => ires t (int (ITy.read t x) (ITy.read t y))

def ETy.isFp : ETy → Bool
  | .fp _ => true
  | .int _ => false

/-! ## The element-wise frame (R170) -/

/-- Form VV: x := C[i], y := B[i]. -/
def vvBody (x : Pfx) (w : Nat) (fp : Bool) (op : State → Nat → Nat → Nat × Exc) (a b c : RegNum) (s : State) :
    R State := do
  let s ← s.useVec x [c, b] a (Pfx.keeps x)
  s.putFlagged x w a fp (List.zipWith (op s) (elems w (s.v c)) (elems w (s.v b)))

/-- Form VF: the destination is the addend. -/
def vfBody (x : Pfx) (t : ETy) (op : State → Nat → Nat → Nat → Nat × Exc) (a b c : RegNum) (s : State) : R State := do
  let w := ETy.width t
  let s ← s.useVec x [c, b, a] a (Pfx.keeps x)
  let xy := List.zip (elems w (s.v c)) (elems w (s.v b))
  s.putFlagged x w a (ETy.isFp t) (List.zipWith (fun q z => op s q.1 q.2 z) xy (elems w (s.v a)))

/-- Form VU: y := B[i]. -/
def vuBody (x : Pfx) (w : Nat) (fp : Bool) (op : State → Nat → Nat × Exc) (a b : RegNum) (s : State) : R State := do
  let s ← s.useVec x [b] a (Pfx.keeps x)
  s.putFlagged x w a fp ((elems w (s.v b)).map (op s))

/-! ## Arithmetic (R172, R174) -/

def vArith (x : Pfx) (t : ETy) (fp : Rm → Fp → Fp → Exact) (int : Int → Int → Int) (a b c : RegNum) (s : State) : Out :=
  vectorOp x s (vvBody x (ETy.width t) (ETy.isFp t) (fun s u v => s.elem2 t fp int u v) a b c)
def execVadd (x : Pfx) (t : ETy) (a b c : RegNum) (s : State) : Out := vArith x t Fp.add (· + ·) a b c s
def execVsub (x : Pfx) (t : ETy) (a b c : RegNum) (s : State) : Out :=
  vArith x t (fun rm u v => u.add rm v.neg) (· - ·) a b c s
def execVmul (x : Pfx) (t : ETy) (a b c : RegNum) (s : State) : Out := vArith x t (fun _ => Fp.mul) (· * ·) a b c s

def vFused (x : Pfx) (t : ETy) (fp : Rm → Fp → Fp → Fp → Exact) (int : Int → Int → Int → Int) (a b c : RegNum)
    (s : State) : Out :=
  vectorOp x s (vfBody x t (fun s u v z => s.elem3 t fp int u v z) a b c)
def execVfma (x : Pfx) (t : ETy) (a b c : RegNum) (s : State) : Out :=
  vFused x t Fp.fma (fun u v z => u * v + z) a b c s
def execVfms (x : Pfx) (t : ETy) (a b c : RegNum) (s : State) : Out :=
  vFused x t (fun rm u v z => u.fma rm v z.neg) (fun u v z => u * v - z) a b c s
def execVfnma (x : Pfx) (t : ETy) (a b c : RegNum) (s : State) : Out :=
  vFused x t (fun rm u v z => u.neg.fma rm v z) (fun u v z => z - u * v) a b c s

def vSelect (x : Pfx) (t : ETy) (fp : Fp → Fp → Fp × Exc) (int : Int → Int → Int) (a b c : RegNum) (s : State) : Out :=
  vectorOp x s (vvBody x (ETy.width t) (ETy.isFp t) (fun s u v => s.elemSel t fp int u v) a b c)
def execVmin (x : Pfx) (t : ETy) (a b c : RegNum) (s : State) : Out := vSelect x t Fp.min min a b c s
def execVmax (x : Pfx) (t : ETy) (a b c : RegNum) (s : State) : Out := vSelect x t Fp.max max a b c s

/-! ## Unary forms (R175, R176) -/

/-- R176: a change of the sign bit alone; a NaN becomes the canonical NaN, FTZ not applying. -/
def signOnly (t : FTy) (set : Bool → Bool) (y : Nat) : Nat × Exc :=
  let f := fmtOf t
  let v := f.read false y
  if v.isNan then (f.nanBits, v.snan)
  else (f.sign (set ((y >>> (f.width - 1)) % 2 = 1)) + y % 2 ^ (f.width - 1), 0)
def vSign (x : Pfx) (t : ETy) (set : Bool → Bool) (int : Int → Int) (a b : RegNum) (s : State) : Out :=
  let op := fun y : Nat => match t with
    | .fp t => signOnly t set y
    | .int t => ires t (int (ITy.read t y))
  vectorOp x s (vuBody x (ETy.width t) (ETy.isFp t) (fun _ => op) a b)
def execVabs (x : Pfx) (t : ETy) (a b : RegNum) (s : State) : Out := vSign x t (fun _ => false) (fun v => v.natAbs) a b s
def execVneg (x : Pfx) (t : ETy) (a b : RegNum) (s : State) : Out := vSign x t (fun n => !n) (fun v => -v) a b s

def execVdiv (x : Pfx) (t : FTy) (a b c : RegNum) (s : State) : Out :=
  vArith x (.fp t) (fun _ => Fp.div) (fun u _ => u) a b c s
def vFunction (x : Pfx) (t : FTy) (op : Fp → Exact) (a b : RegNum) (s : State) : Out :=
  vectorOp x s (vuBody x (fmtOf t).width true (fun s y => s.fres t (op (s.fread t y))) a b)
def execVsqrt (x : Pfx) (t : FTy) (a b : RegNum) (s : State) : Out := vFunction x t Fp.sqrt a b s
def execVrcp (x : Pfx) (t : FTy) (a b : RegNum) (s : State) : Out := vFunction x t Fp.rcp a b s
def execVrsq (x : Pfx) (t : FTy) (a b : RegNum) (s : State) : Out := vFunction x t Fp.rsq a b s
def execVexp2 (x : Pfx) (t : FTy) (a b : RegNum) (s : State) : Out := vFunction x t Fp.exp2 a b s
def execVlog2 (x : Pfx) (t : FTy) (a b : RegNum) (s : State) : Out := vFunction x t Fp.log2 a b s

/-! ## Logic, shifts, immediates (R177, R178) -/

def vBits (x : Pfx) (t : ITy) (op : Nat → Nat → Nat) (a b c : RegNum) (s : State) : Out :=
  vectorOp x s (vvBody x (ITy.width t) false (fun _ u v => (op u v, 0)) a b c)
def execVand (x : Pfx) (t : ITy) (a b c : RegNum) (s : State) : Out := vBits x t (· &&& ·) a b c s
def execVor (x : Pfx) (t : ITy) (a b c : RegNum) (s : State) : Out := vBits x t (· ||| ·) a b c s
def execVxor (x : Pfx) (t : ITy) (a b c : RegNum) (s : State) : Out := vBits x t (· ^^^ ·) a b c s
def execVnot (x : Pfx) (t : ITy) (a b : RegNum) (s : State) : Out :=
  vectorOp x s (vuBody x (ITy.width t) false (fun _ y => (2 ^ ITy.width t - 1 - y, 0)) a b)
def execVshl (x : Pfx) (t : ITy) (a b c : RegNum) (s : State) : Out :=
  vBits x t (fun u v => (u <<< (v % ITy.width t)) % 2 ^ ITy.width t) a b c s
def execVshr (x : Pfx) (t : ITy) (a b c : RegNum) (s : State) : Out := vBits x t (fun u v => u >>> (v % ITy.width t)) a b c s
/-- The integer of a type's width, read signed whatever the type. -/
def signedAt (w v : Nat) : Int := if 2 ^ (w - 1) ≤ v then (v : Int) - (2 ^ w : Nat) else v
def execVsar (x : Pfx) (t : ITy) (a b c : RegNum) (s : State) : Out :=
  vBits x t (fun u v => ITy.write t (signedAt (ITy.width t) u >>> (v % ITy.width t))) a b c s

def vImm (x : Pfx) (t : ITy) (op : Nat → Nat → Nat) (a c : RegNum) (imm : Word) (s : State) : Out :=
  vectorOp x s (vuBody x (ITy.width t) false
    (fun _ u => (op u (imm.toNat % 2 ^ ITy.width t) % 2 ^ ITy.width t, 0)) a c)
def execVaddi (x : Pfx) (t : ITy) (a c : RegNum) (imm : Word) (s : State) : Out := vImm x t (· + ·) a c imm s
def execVmuli (x : Pfx) (t : ITy) (a c : RegNum) (imm : Word) (s : State) : Out := vImm x t (· * ·) a c imm s

/-! ## Compare, select, move, broadcast (R179 to R181) -/

def vCompare (x : Pfx) (t : ETy) (fp : Fp → Fp → Bool × Exc) (int : Int → Int → Bool) (a : PredNum) (b c : RegNum)
    (s : State) : Out :=
  vectorOp x s fun s => do
    let w := ETy.width t
    let s ← s.useV [c, b]
    let s ← s.usePred x [] a
    let op := fun u v : Nat => match t with
      | .fp t => fp (s.fread t u) (s.fread t v)
      | .int t => (int (ITy.read t u) (ITy.read t v), 0)
    let rs := List.zipWith op (elems w (s.v c)) (elems w (s.v b))
    let s ← if ETy.isFp t then s.raise (activeFlags (s.active x) 0 (rs.map fun r => (0, r.2))) else .ok s
    return s.putPred x (2048 / w) a (BitVec.ofNat 256 (predOf (rs.map fun r => r.1)))
def execVceq (x : Pfx) (t : ETy) (a : PredNum) (b c : RegNum) (s : State) : Out :=
  vCompare x t Fp.eqF (fun u v => u = v) a b c s
def execVclt (x : Pfx) (t : ETy) (a : PredNum) (b c : RegNum) (s : State) : Out :=
  vCompare x t Fp.ltF (fun u v => u < v) a b c s
def execVcle (x : Pfx) (t : ETy) (a : PredNum) (b c : RegNum) (s : State) : Out :=
  vCompare x t Fp.leF (fun u v => u ≤ v) a b c s

/-- R180: element i of C where the predicate selects it, else of B. -/
def selElems (act : Nat → Bool) : Nat → List Nat → List Nat → List Nat
  | i, u :: us, v :: vs => (if act i then u else v) :: selElems act (i + 1) us vs
  | _, _, _ => []
def execVsel (x : Pfx) (t : ETy) (a b c : RegNum) (s : State) : Out := vectorOp x s fun s => do
  let w := ETy.width t
  let s ← s.useVec x [c, b] a false
  return s.setV a (ofElems w (selElems (s.active x) 0 (elems w (s.v c)) (elems w (s.v b))))

def execVmov (x : Pfx) (t : ETy) (a b : RegNum) (s : State) : Out :=
  vectorOp x s (vuBody x (ETy.width t) false (fun _ y => (y, 0)) a b)
def execVbc (x : Pfx) (t : ETy) (a b : RegNum) (s : State) : Out := vectorOp x s fun s => do
  let w := ETy.width t
  let s ← s.useG [b]
  let s ← s.useVec x [] a (Pfx.keeps x)
  return s.putElems x w a (List.replicate (2048 / w) (some (s.gint b).toNat))

/-! ## Conversions (R182, R183) -/

/-- R182: one element from the source type to the destination type. -/
def State.convert (s : State) (dst src : ETy) (rtz : Bool) (y : Nat) : Nat × Exc :=
  match src, dst with
  | .fp u, .fp t => convertFp (fmtOf t) (t = u) s.rm s.ftz (s.fread u y)
  | .fp u, .int t =>
    let (v, e) := (s.fread u y).toInt (if rtz then .rtz else s.rm) (ITy.minVal t) (ITy.maxVal t)
    (ITy.write t v, e)
  | .int u, .fp t => s.fres t (Fp.ofInt (ITy.read u y)).exact
  | .int u, .int t => ires t (ITy.read u y)

/-- R183: one element narrowed with saturation. -/
def State.saturate (s : State) (dst src : ETy) (y : Nat) : Nat × Exc :=
  match src, dst with
  | .int u, .int t => ires t (max (ITy.minVal t) (min (ITy.maxVal t) (ITy.read u y)))
  | .fp u, .fp t =>
    let f := fmtOf t
    match s.fread u y with
    | .inf neg => (f.sign neg + f.maxBits, eNX)
    | .fin neg m e =>
      let (b, x) := f.round s.rm s.ftz neg m e false
      if x &&& eOF ≠ 0 then (f.sign neg + f.maxBits, x) else (b, x)
    | .nan sg => (f.nanBits, (Fp.nan sg).snan)
  | _, _ => (0, 0)

/-- R182: pairs of elements; the destination elements from `n` on have no source. DEDUCED (assumption 17): in merge mode
vA is read where elements from `n` on are kept, that is where the destination is the narrower; a widening keeps none. -/
def vConvert (x : Pfx) (dst src : ETy) (fp : Bool) (op : State → Nat → Nat × Exc) (a b : RegNum) (s : State) : Out :=
  vectorOp x s fun s => do
    let wd := ETy.width dst
    let ws := ETy.width src
    let n := 2048 / max ws wd
    let s ← s.useVec x [b] a ((Pfx.keeps x) || !x.zero && wd < ws)
    s.putFlagged x wd a fp (((elems ws (s.v b)).take n).map (op s))
def execVcvt (x : Pfx) (dst src : ETy) (rtz : Bool) (a b : RegNum) (s : State) : Out :=
  vConvert x dst src (ETy.isFp dst || ETy.isFp src) (fun s => s.convert dst src rtz) a b s
def execVsatn (x : Pfx) (dst src : ETy) (a b : RegNum) (s : State) : Out :=
  vConvert x dst src (ETy.isFp dst) (fun s => s.saturate dst src) a b s

/-! ## Random numbers (R184) -/

def execVrand (x : Pfx) (a b c : RegNum) (s : State) : Out := vectorOp x s fun s => do
  let s ← s.useG [c, b]
  let s ← s.useVec x [] a (Pfx.keeps x)
  let ctr := s.gint c
  let key := s.gint b
  return s.putElems x 32 a ((upFrom 0 64).map fun i => some (draw (ctr + BitVec.ofNat 64 i) key).toNat)

/-! ## Reductions and scan (R166, R167, R185, R186) -/

/-- R166: a combination; an identity yields the other operand unchanged. DEDUCED (assumption 134): a NaN that is not canonical
too, which R152 would replace had an operation produced it. -/
def combine (op : Nat → Nat → Nat × Exc) : Option Nat → Option Nat → Option Nat × Exc
  | none, y => (y, 0)
  | x, none => (x, 0)
  | some x, some y => let (r, e) := op x y; (some r, e)

/-- One level of the tree. -/
def reduceLevel (op : Nat → Nat → Nat × Exc) : List (Option Nat) → List (Option Nat) × Exc
  | x :: y :: rest =>
    let (r, e) := combine op x y
    let (rs, es) := reduceLevel op rest
    (r :: rs, e ||| es)
  | l => (l, 0)

/-- The levels of the tree. -/
def reduceTree (op : Nat → Nat → Nat × Exc) : Nat → List (Option Nat) → Option Nat × Exc
  | 0, l => (l.headD none, 0)
  | n + 1, l =>
    let (l', e) := reduceLevel op l
    let (r, es) := reduceTree op n l'
    (r, e ||| es)

/-- R166: what element 0 receives when no element is active. `hi` says the largest, none +0. -/
def emptyValue (t : ETy) : Option Bool → Nat
  | none => 0
  | some hi => match t with
    | .fp t => (fmtOf t).sign (!hi) + (if (fmtOf t).e4m3 then (fmtOf t).maxBits else (fmtOf t).infBits)
    | .int t => ITy.write t (if hi then ITy.maxVal t else ITy.minVal t)

def vReduce (x : Pfx) (t : ETy) (op : State → Nat → Nat → Nat × Exc) (empty : Option Bool) (a b : RegNum) (s : State) : Out :=
  vectorOp x s fun s => do
    let w := ETy.width t
    let s ← s.useVec x [b] a false
    let (r, e) := reduceTree (op s) (Nat.log2 (2048 / w)) (activeElems (s.active x) 0 (elems w (s.v b)))
    let s ← if ETy.isFp t then s.raise e else .ok s
    return s.setV a (BitVec.ofNat 2048 (r.getD (emptyValue t empty)))
def execVradd (x : Pfx) (t : ETy) (a b : RegNum) (s : State) : Out :=
  vReduce x t (fun s u v => s.elem2 t Fp.add (· + ·) u v) none a b s
def execVrmin (x : Pfx) (t : ETy) (a b : RegNum) (s : State) : Out :=
  vReduce x t (fun s u v => s.elemSel t Fp.min min u v) (some true) a b s
def execVrmax (x : Pfx) (t : ETy) (a b : RegNum) (s : State) : Out :=
  vReduce x t (fun s u v => s.elemSel t Fp.max max u v) (some false) a b s

/-- R167: the running sum after each element, with the flags of its steps. -/
def scanElems (op : Nat → Nat → Nat × Exc) : Option Nat → List (Option Nat) → List (Option Nat) × Exc
  | _, [] => ([], 0)
  | acc, v :: rest =>
    let (r, e) := combine op acc v
    let (rs, es) := scanElems op r rest
    (r :: rs, e ||| es)
def execVscan (x : Pfx) (t : ETy) (a b : RegNum) (s : State) : Out := vectorOp x s fun s => do
  let w := ETy.width t
  let s ← s.useVec x [b] a (Pfx.keeps x)
  let (rs, e) := scanElems (fun u v => s.elem2 t Fp.add (· + ·) u v) none (activeElems (s.active x) 0 (elems w (s.v b)))
  let s ← if ETy.isFp t then s.raise e else .ok s
  return s.putElems x w a rs

/-! ## Dot product (R187) -/

/-- A product in the floating class; a NaN or 0 × ∞ gives NV. -/
def dotTerm (x y : Fp) : Exact :=
  match x.mul y with
  | .nan _ => .nan eNV
  | r => r

/-- The exact sum of numbers; `zeroNeg` is the sign of a zero sum. -/
def dotSum : List Exact → Exact
  | [] => .num true 0 0 false 0
  | .nan _ :: _ => .nan eNV
  | .inf n _ :: rest => match dotSum rest with
    | .inf n' _ => if n = n' then .inf n 0 else .nan eNV
    | .nan _ => .nan eNV
    | .num _ _ _ _ _ => .inf n 0
  | .num n m e _ _ :: rest => match dotSum rest with
    | .num n' m' e' _ _ =>
      let lo := min e e'
      let v := scaled n m e lo + scaled n' m' e' lo
      .num (v < 0) v.natAbs lo false 0
    | r => r

def Exact.isZero (neg : Bool) : Exact → Bool
  | .num n m _ _ _ => m = 0 && n = neg
  | _ => false

/-- The sum of four products and the addend, with the sign of an exact zero (R174). DESIGN CHOICE (assumption 19): five zeros
of one sign give that sign, and any other exact zero is +0, or -0 under RDN. -/
def dotExact (rm : Rm) (terms : List Exact) : Exact :=
  match dotSum terms with
  | .num n m e st x =>
    if m = 0 then
      .num (if terms.all (Exact.isZero true) then true else if terms.all (Exact.isZero false) then false else rm = .rdn)
        0 0 false 0
    else .num n m e st x
  | r => r

/-- One 32-bit element of VDOT4. -/
def State.dot4 (s : State) (t : ETy) (u v z : Nat) : Nat × Exc :=
  match t with
  | .int t =>
    let sum := (List.zipWith (fun p q => ITy.read t p * ITy.read t q) (splitN 8 4 u) (splitN 8 4 v)).foldr (· + ·) 0
    (ITy.write .z32 ((z : Int) + sum), 0)
  | .fp t =>
    let terms := List.zipWith (fun p q => dotTerm (s.fread t p) (s.fread t q)) (splitN 8 4 u) (splitN 8 4 v)
    let addend := match s.fread .f32 z with
      | .nan _ => .nan eNV
      | r => r.exact
    s.fres .f32 (dotExact s.rm (addend :: terms))
def execVdot4 (x : Pfx) (t : ETy) (a b c : RegNum) (s : State) : Out := vectorOp x s fun s => do
  let s ← s.useVec x [c, b, a] a (Pfx.keeps x)
  let xy := List.zip (elems 32 (s.v c)) (elems 32 (s.v b))
  s.putFlagged x 32 a (ETy.isFp t) (List.zipWith (fun q z => s.dot4 t q.1 q.2 z) xy (elems 32 (s.v a)))

/-! ## Predicates (R188 to R190) -/

def pLogic (x : Pfx) (op : PReg → PReg → PReg) (a b c : PredNum) (s : State) : Out := vectorOp x s fun s => do
  let s ← s.usePred x [c, b] a
  return s.putPred x 256 a (op (s.p c) (s.p b))
def execPand (x : Pfx) (a b c : PredNum) (s : State) : Out := pLogic x (· &&& ·) a b c s
def execPor (x : Pfx) (a b c : PredNum) (s : State) : Out := pLogic x (· ||| ·) a b c s
def execPxor (x : Pfx) (a b c : PredNum) (s : State) : Out := pLogic x (· ^^^ ·) a b c s
def execPnot (x : Pfx) (a b : PredNum) (s : State) : Out := pLogic x (fun _ q => ~~~q) a b b s
def execPmov (x : Pfx) (a b : PredNum) (s : State) : Out := pLogic x (fun _ q => q) a b b s

def execPset (x : Pfx) (t : ETy) (a : PredNum) (b : RegNum) (s : State) : Out := vectorOp x s fun s => do
  let n := 2048 / ETy.width t
  let s ← s.useG [b]
  let s ← s.usePred x [] a
  return s.putPred x n a (lowBits (min (s.gint b).toNat n))

/-- R190: the bits below `n` of pB that the predicate selects. -/
def State.counted (s : State) (x : Pfx) (n : Nat) (b : PredNum) : Nat := (s.p b &&& s.activeBits x &&& lowBits n).toNat
def execPcnt (x : Pfx) (t : ETy) (a : RegNum) (b : PredNum) (s : State) : Out := vectorOp x s fun s => do
  let s ← s.useP [b, x.pred]
  return s.setInt a (BitVec.ofNat 64 ((splitN 1 256 (s.counted x (2048 / ETy.width t) b)).foldr (· + ·) 0))
/-- The least bit that is set, or the length of the list. -/
def firstSet : List Nat → Nat
  | [] => 0
  | b :: rest => if b = 1 then 0 else firstSet rest + 1
def execPfst (x : Pfx) (t : ETy) (a : RegNum) (b : PredNum) (s : State) : Out := vectorOp x s fun s => do
  let n := 2048 / ETy.width t
  let s ← s.useP [b, x.pred]
  return s.setInt a (BitVec.ofNat 64 (firstSet (splitN 1 n (s.counted x n b))))

end Sys2Proof.Machine
end

