-- ==== Sys2Proof/Machine/Page7.lean ====
section
/-! DEFINITION. Page 7: the security core's ciphers on vector registers (R403). -/

namespace Sys2Proof.Machine

/-- R403: 128-bit lanes of two registers combined into a third. -/
def lanes2 (f : Nat → Nat → Nat) (u v : VReg) : VReg := ofElems 128 (List.zipWith f (elems 128 u) (elems 128 v))

/-- Vectors are read in full, then the destination is written. -/
def cipherBody (rs : List RegNum) (a : RegNum) (f : State → VReg) (s : State) : R State := do
  let s ← s.useV rs
  return s.setV a (f s)

def execKeccak (x : Pfx) (a : RegNum) (s : State) : Out := securityOp x s <| cipherBody [a] a fun s =>
  BitVec.ofNat 2048 ((s.v a).toNat >>> 1600 <<< 1600 + keccak1600 ((s.v a).toNat % 2 ^ 1600))
def execAese (x : Pfx) (last : Bool) (a b : RegNum) (s : State) : Out := securityOp x s <| cipherBody [a, b] a fun s =>
  lanes2 (aesEnc last) (s.v a) (s.v b)
def execAesd (x : Pfx) (last : Bool) (a b : RegNum) (s : State) : Out := securityOp x s <| cipherBody [a, b] a fun s =>
  lanes2 (aesDec last) (s.v a) (s.v b)
def execAesk (x : Pfx) (rc : BitVec 3) (a b : RegNum) (s : State) : Out := securityOp x s <| cipherBody [b] a fun s =>
  ofElems 256 ((elems 256 (s.v b)).map (aesKeys rc.toNat))
def execGfmul (x : Pfx) (a b c : RegNum) (s : State) : Out := securityOp x s <| cipherBody [c, b] a fun s =>
  lanes2 gf128 (s.v c) (s.v b)
def execClmul (x : Pfx) (a b c : RegNum) (s : State) : Out := securityOp x s <| cipherBody [c, b] a fun s =>
  lanes2 (fun u v => clmul64 (u % 2 ^ 64) (v % 2 ^ 64)) (s.v c) (s.v b)

end Sys2Proof.Machine
end

