-- ==== Sys2Proof/Machine/Dispatch.lean ====
section
/-! DEFINITION. The meaning of each instruction, by constructor. -/

namespace Sys2Proof.Machine

/-- What an instruction does. -/
def exec (i : Instr) (s : State) : Host.Outcome State Fault Refusal :=
  match i with
  | .add x a b c => Sys2Proof.Machine.execAdd x a b c s
  | .sub x a b c => Sys2Proof.Machine.execSub x a b c s
  | .and x a b c => Sys2Proof.Machine.execAnd x a b c s
  | .or x a b c => Sys2Proof.Machine.execOr x a b c s
  | .xor x a b c => Sys2Proof.Machine.execXor x a b c s
  | .shl x a b c => Sys2Proof.Machine.execShl x a b c s
  | .shr x a b c => Sys2Proof.Machine.execShr x a b c s
  | .sar x a b c => Sys2Proof.Machine.execSar x a b c s
  | .min x a b c => Sys2Proof.Machine.execMin x a b c s
  | .max x a b c => Sys2Proof.Machine.execMax x a b c s
  | .minz x a b c => Sys2Proof.Machine.execMinz x a b c s
  | .maxz x a b c => Sys2Proof.Machine.execMaxz x a b c s
  | .slt x a b c => Sys2Proof.Machine.execSlt x a b c s
  | .sltz x a b c => Sys2Proof.Machine.execSltz x a b c s
  | .seq x a b c => Sys2Proof.Machine.execSeq x a b c s
  | .mov x a b => Sys2Proof.Machine.execMov x a b s
  | .addi x a c imm => Sys2Proof.Machine.execAddi x a c imm s
  | .andi x a c imm => Sys2Proof.Machine.execAndi x a c imm s
  | .ori x a c imm => Sys2Proof.Machine.execOri x a c imm s
  | .xori x a c imm => Sys2Proof.Machine.execXori x a c imm s
  | .shli x a c imm => Sys2Proof.Machine.execShli x a c imm s
  | .shri x a c imm => Sys2Proof.Machine.execShri x a c imm s
  | .sari x a c imm => Sys2Proof.Machine.execSari x a c imm s
  | .slti x a c imm => Sys2Proof.Machine.execSlti x a c imm s
  | .li x a imm => Sys2Proof.Machine.execLi x a imm s
  | .lea x a b off => Sys2Proof.Machine.execLea x a b off s
  | .br x off => Sys2Proof.Machine.execBr x off s
  | .call x off => Sys2Proof.Machine.execCall x off s
  | .beq x a b off => Sys2Proof.Machine.execBeq x a b off s
  | .bne x a b off => Sys2Proof.Machine.execBne x a b off s
  | .blt x a b off => Sys2Proof.Machine.execBlt x a b off s
  | .bge x a b off => Sys2Proof.Machine.execBge x a b off s
  | .blo x a b off => Sys2Proof.Machine.execBlo x a b off s
  | .bhs x a b off => Sys2Proof.Machine.execBhs x a b off s
  | .callr x a => Sys2Proof.Machine.execCallr x a s
  | .jmpr x a => Sys2Proof.Machine.execJmpr x a s
  | .loop x a off => Sys2Proof.Machine.execLoop x a off s
  | .ld x o size a b off => Sys2Proof.Machine.execLd x o size a b off s
  | .ldz x o size a b off => Sys2Proof.Machine.execLdz x o size a b off s
  | .st x o size a b off => Sys2Proof.Machine.execSt x o size a b off s
  | .ldk x o a b off => Sys2Proof.Machine.execLdk x o a b off s
  | .stk x o a b off => Sys2Proof.Machine.execStk x o a b off s
  | .ldx x o size a b c off => Sys2Proof.Machine.execLdx x o size a b c off s
  | .stx x o size a b c off => Sys2Proof.Machine.execStx x o size a b c off s
  | .aadd x o wide a b c off => Sys2Proof.Machine.execAadd x o wide a b c off s
  | .aand x o wide a b c off => Sys2Proof.Machine.execAand x o wide a b c off s
  | .aor x o wide a b c off => Sys2Proof.Machine.execAor x o wide a b c off s
  | .axor x o wide a b c off => Sys2Proof.Machine.execAxor x o wide a b c off s
  | .amin x o wide a b c off => Sys2Proof.Machine.execAmin x o wide a b c off s
  | .amax x o wide a b c off => Sys2Proof.Machine.execAmax x o wide a b c off s
  | .aswp x o wide a b c off => Sys2Proof.Machine.execAswp x o wide a b c off s
  | .acas x o wide a b c off => Sys2Proof.Machine.execAcas x o wide a b c off s
  | .stat x o size a b c off => Sys2Proof.Machine.execStat x o size a b c off s
  | .ldnb x o size a b c off => Sys2Proof.Machine.execLdnb x o size a b c off s
  | .pushs x f l => Sys2Proof.Machine.execPushs x f l s
  | .pops x f l => Sys2Proof.Machine.execPops x f l s
  | .trap x code => Sys2Proof.Machine.execTrap x code s
  | .rdid x a sel => Sys2Proof.Machine.execRdid x a sel s
  | .tnow x a => Sys2Proof.Machine.execTnow x a s
  | .fence x o => Sys2Proof.Machine.execFence x o s
  | .fenceI x => Sys2Proof.Machine.execFenceI x s
  | .mul x a b c => Sys2Proof.Machine.execMul x a b c s
  | .mulh x a b c => Sys2Proof.Machine.execMulh x a b c s
  | .mulhz x a b c => Sys2Proof.Machine.execMulhz x a b c s
  | .div x a b c => Sys2Proof.Machine.execDiv x a b c s
  | .divz x a b c => Sys2Proof.Machine.execDivz x a b c s
  | .rem x a b c => Sys2Proof.Machine.execRem x a b c s
  | .remz x a b c => Sys2Proof.Machine.execRemz x a b c s
  | .clz x a b => Sys2Proof.Machine.execClz x a b s
  | .ctz x a b => Sys2Proof.Machine.execCtz x a b s
  | .popc x a b => Sys2Proof.Machine.execPopc x a b s
  | .brev x a b => Sys2Proof.Machine.execBrev x a b s
  | .bswp x a b => Sys2Proof.Machine.execBswp x a b s
  | .bext x a b c => Sys2Proof.Machine.execBext x a b c s
  | .bins x a b c => Sys2Proof.Machine.execBins x a b c s
  | .rotl x a b c => Sys2Proof.Machine.execRotl x a b c s
  | .rotr x a b c => Sys2Proof.Machine.execRotr x a b c s
  | .sel x a b c => Sys2Proof.Machine.execSel x a b c s
  | .kinc x a b c => Sys2Proof.Machine.execKinc x a b c s
  | .kinci x a c imm => Sys2Proof.Machine.execKinci x a c imm s
  | .kbnd x a b c => Sys2Proof.Machine.execKbnd x a b c s
  | .kprm x a b c => Sys2Proof.Machine.execKprm x a b c s
  | .kcol x a b c => Sys2Proof.Machine.execKcol x a b c s
  | .kget x a c sel => Sys2Proof.Machine.execKget x a c sel s
  | .ktst x a b c => Sys2Proof.Machine.execKtst x a b c s
  | .kseal x a b => Sys2Proof.Machine.execKseal x a b s
  | .kuns x a b c => Sys2Proof.Machine.execKuns x a b c s
  | .kclr x a b => Sys2Proof.Machine.execKclr x a b s
  | .kcur x a b c => Sys2Proof.Machine.execKcur x a b c s
  | .stg x a b => Sys2Proof.Machine.execStg x a b s
  | .ldg x a b => Sys2Proof.Machine.execLdg x a b s
  | .fadd x t a b c => Sys2Proof.Machine.execFadd x t a b c s
  | .fsub x t a b c => Sys2Proof.Machine.execFsub x t a b c s
  | .fmul x t a b c => Sys2Proof.Machine.execFmul x t a b c s
  | .ffma x t a b c => Sys2Proof.Machine.execFfma x t a b c s
  | .fdiv x t a b c => Sys2Proof.Machine.execFdiv x t a b c s
  | .fsqrt x t a b => Sys2Proof.Machine.execFsqrt x t a b s
  | .fmin x t a b c => Sys2Proof.Machine.execFmin x t a b c s
  | .fmax x t a b c => Sys2Proof.Machine.execFmax x t a b c s
  | .feq x t a b c => Sys2Proof.Machine.execFeq x t a b c s
  | .flt x t a b c => Sys2Proof.Machine.execFlt x t a b c s
  | .fle x t a b c => Sys2Proof.Machine.execFle x t a b c s
  | .fcvti x src dst rtz a b => Sys2Proof.Machine.execFcvti x src dst rtz a b s
  | .fcvtf x dst src a b => Sys2Proof.Machine.execFcvtf x dst src a b s
  | .fcvtw x dst src a b => Sys2Proof.Machine.execFcvtw x dst src a b s
  | .csrr x a csr => Sys2Proof.Machine.execCsrr x a csr s
  | .csrw x a c csr => Sys2Proof.Machine.execCsrw x a c csr s
  | .csrs x a c csr => Sys2Proof.Machine.execCsrs x a c csr s
  | .csrc x a c csr => Sys2Proof.Machine.execCsrc x a c csr s
  | .srnd x a b c => Sys2Proof.Machine.execSrnd x a b c s
  | .vadd x t a b c => Sys2Proof.Machine.execVadd x t a b c s
  | .vsub x t a b c => Sys2Proof.Machine.execVsub x t a b c s
  | .vmul x t a b c => Sys2Proof.Machine.execVmul x t a b c s
  | .vfma x t a b c => Sys2Proof.Machine.execVfma x t a b c s
  | .vfms x t a b c => Sys2Proof.Machine.execVfms x t a b c s
  | .vfnma x t a b c => Sys2Proof.Machine.execVfnma x t a b c s
  | .vmin x t a b c => Sys2Proof.Machine.execVmin x t a b c s
  | .vmax x t a b c => Sys2Proof.Machine.execVmax x t a b c s
  | .vabs x t a b => Sys2Proof.Machine.execVabs x t a b s
  | .vneg x t a b => Sys2Proof.Machine.execVneg x t a b s
  | .vdiv x t a b c => Sys2Proof.Machine.execVdiv x t a b c s
  | .vsqrt x t a b => Sys2Proof.Machine.execVsqrt x t a b s
  | .vrcp x t a b => Sys2Proof.Machine.execVrcp x t a b s
  | .vrsq x t a b => Sys2Proof.Machine.execVrsq x t a b s
  | .vexp2 x t a b => Sys2Proof.Machine.execVexp2 x t a b s
  | .vlog2 x t a b => Sys2Proof.Machine.execVlog2 x t a b s
  | .vand x t a b c => Sys2Proof.Machine.execVand x t a b c s
  | .vor x t a b c => Sys2Proof.Machine.execVor x t a b c s
  | .vxor x t a b c => Sys2Proof.Machine.execVxor x t a b c s
  | .vnot x t a b => Sys2Proof.Machine.execVnot x t a b s
  | .vshl x t a b c => Sys2Proof.Machine.execVshl x t a b c s
  | .vshr x t a b c => Sys2Proof.Machine.execVshr x t a b c s
  | .vsar x t a b c => Sys2Proof.Machine.execVsar x t a b c s
  | .vceq x t a b c => Sys2Proof.Machine.execVceq x t a b c s
  | .vclt x t a b c => Sys2Proof.Machine.execVclt x t a b c s
  | .vcle x t a b c => Sys2Proof.Machine.execVcle x t a b c s
  | .vsel x t a b c => Sys2Proof.Machine.execVsel x t a b c s
  | .vcvt x dst src rtz a b => Sys2Proof.Machine.execVcvt x dst src rtz a b s
  | .vsatn x dst src a b => Sys2Proof.Machine.execVsatn x dst src a b s
  | .vmov x t a b => Sys2Proof.Machine.execVmov x t a b s
  | .vbc x t a b => Sys2Proof.Machine.execVbc x t a b s
  | .vrand x a b c => Sys2Proof.Machine.execVrand x a b c s
  | .vradd x t a b => Sys2Proof.Machine.execVradd x t a b s
  | .vrmin x t a b => Sys2Proof.Machine.execVrmin x t a b s
  | .vrmax x t a b => Sys2Proof.Machine.execVrmax x t a b s
  | .vscan x t a b => Sys2Proof.Machine.execVscan x t a b s
  | .vaddi x t a c imm => Sys2Proof.Machine.execVaddi x t a c imm s
  | .vmuli x t a c imm => Sys2Proof.Machine.execVmuli x t a c imm s
  | .vdot4 x t a b c => Sys2Proof.Machine.execVdot4 x t a b c s
  | .pand x a b c => Sys2Proof.Machine.execPand x a b c s
  | .por x a b c => Sys2Proof.Machine.execPor x a b c s
  | .pxor x a b c => Sys2Proof.Machine.execPxor x a b c s
  | .pnot x a b => Sys2Proof.Machine.execPnot x a b s
  | .pset x t a b => Sys2Proof.Machine.execPset x t a b s
  | .pcnt x t a b => Sys2Proof.Machine.execPcnt x t a b s
  | .pfst x t a b => Sys2Proof.Machine.execPfst x t a b s
  | .pmov x a b => Sys2Proof.Machine.execPmov x a b s
  | .vld x o w a b off => Sys2Proof.Machine.execVld x o w a b off s
  | .vst x o w a b off => Sys2Proof.Machine.execVst x o w a b off s
  | .vlds x o w a b c off => Sys2Proof.Machine.execVlds x o w a b c off s
  | .vsts x o w a b c off => Sys2Proof.Machine.execVsts x o w a b c off s
  | .vgth x o w a b c => Sys2Proof.Machine.execVgth x o w a b c s
  | .vsct x o w a b c => Sys2Proof.Machine.execVsct x o w a b c s
  | .vldx x o w a b c => Sys2Proof.Machine.execVldx x o w a b c s
  | .vstx x o w a b c => Sys2Proof.Machine.execVstx x o w a b c s
  | .vstat x o w a b c off => Sys2Proof.Machine.execVstat x o w a b c off s
  | .vldnb x o w a b c off => Sys2Proof.Machine.execVldnb x o w a b c off s
  | .vperm x w a b c => Sys2Proof.Machine.execVperm x w a b c s
  | .vzip x w a b c => Sys2Proof.Machine.execVzip x w a b c s
  | .vuzp x w a b c => Sys2Proof.Machine.execVuzp x w a b c s
  | .vrot x w a b c => Sys2Proof.Machine.execVrot x w a b c s
  | .vslid x w a b c => Sys2Proof.Machine.execVslid x w a b c s
  | .vext x w a b c => Sys2Proof.Machine.execVext x w a b c s
  | .vins x w a b c => Sys2Proof.Machine.execVins x w a b c s
  | .vcmpr x w a b => Sys2Proof.Machine.execVcmpr x w a b s
  | .vexpn x w a b => Sys2Proof.Machine.execVexpn x w a b s
  | .vtrn x w a b c => Sys2Proof.Machine.execVtrn x w a b c s
  | .vqnt x unsignedTy m a b => Sys2Proof.Machine.execVqnt x unsignedTy m a b s
  | .vdeq x unsignedTy m a b => Sys2Proof.Machine.execVdeq x unsignedTy m a b s
  | .vsprs x w a b c => Sys2Proof.Machine.execVsprs x w a b c s
  | .mfmt x a => Sys2Proof.Machine.execMfmt x a s
  | .mring x q a c => Sys2Proof.Machine.execMring x q a c s
  | .mprod x q a => Sys2Proof.Machine.execMprod x q a s
  | .mma x o acc ringA ringB keepA keepB transA transB c => Sys2Proof.Machine.execMma x o acc ringA ringB keepA keepB transA transB c s
  | .mmas x o acc ringA ringB ringM keepA keepB c => Sys2Proof.Machine.execMmas x o acc ringA ringB ringM keepA keepB c s
  | .mzero x acc => Sys2Proof.Machine.execMzero x acc s
  | .mdrain x fmt a acc => Sys2Proof.Machine.execMdrain x fmt a acc s
  | .mflag x a acc clr => Sys2Proof.Machine.execMflag x a acc clr s
  | .mwait x => Sys2Proof.Machine.execMwait x s
  | .mrst x a => Sys2Proof.Machine.execMrst x a s
  | .mrq x a q sel => Sys2Proof.Machine.execMrq x a q sel s
  | .cpy x o a b c => Sys2Proof.Machine.execCpy x o a b c s
  | .cpyw x a b => Sys2Proof.Machine.execCpyw x a b s
  | .cpyq x a b => Sys2Proof.Machine.execCpyq x a b s
  | .xgth x o a b c => Sys2Proof.Machine.execXgth x o a b c s
  | .xred x o a b c => Sys2Proof.Machine.execXred x o a b c s
  | .xcvt x o a b c => Sys2Proof.Machine.execXcvt x o a b c s
  | .flume x a b => Sys2Proof.Machine.execFlume x a b s
  | .flumw x a b c => Sys2Proof.Machine.execFlumw x a b c s
  | .arrive x a b => Sys2Proof.Machine.execArrive x a b s
  | .waitb x b => Sys2Proof.Machine.execWaitb x b s
  | .barq x a b => Sys2Proof.Machine.execBarq x a b s
  | .gauge x a b => Sys2Proof.Machine.execGauge x a b s
  | .twait x a => Sys2Proof.Machine.execTwait x a s
  | .tdead x a sel => Sys2Proof.Machine.execTdead x a sel s
  | .latq x a b => Sys2Proof.Machine.execLatq x a b s
  | .freeze x a b c => Sys2Proof.Machine.execFreeze x a b c s
  | .retire x => Sys2Proof.Machine.execRetire x s
  | .retireValue x a => Sys2Proof.Machine.execRetireValue x a s
  | .yield x => Sys2Proof.Machine.execYield x s
  | .launch x a b => Sys2Proof.Machine.execLaunch x a b s
  | .signal x a b => Sys2Proof.Machine.execSignal x a b s
  | .waitc x a b => Sys2Proof.Machine.execWaitc x a b s
  | .exq x a sel => Sys2Proof.Machine.execExq x a sel s
  | .eret x => Sys2Proof.Machine.execEret x s
  | .wfi x => Sys2Proof.Machine.execWfi x s
  | .halt x => Sys2Proof.Machine.execHalt x s
  | .trinv x a b c => Sys2Proof.Machine.execTrinv x a b c s
  | .kill x a b => Sys2Proof.Machine.execKill x a b s
  | .mount x a b c => Sys2Proof.Machine.execMount x a b c s
  | .clbl x a b c => Sys2Proof.Machine.execClbl x a b c s
  | .crd x a b c => Sys2Proof.Machine.execCrd x a b c s
  | .revive x a b c => Sys2Proof.Machine.execRevive x a b c s
  | .umnt x b => Sys2Proof.Machine.execUmnt x b s
  | .jrnl x a b c => Sys2Proof.Machine.execJrnl x a b c s
  | .tsync x a b => Sys2Proof.Machine.execTsync x a b s
  | .ownr x a b c => Sys2Proof.Machine.execOwnr x a b c s
  | .smpc x a b c => Sys2Proof.Machine.execSmpc x a b c s
  | .dbgb x a b => Sys2Proof.Machine.execDbgb x a b s
  | .keccak x a => Sys2Proof.Machine.execKeccak x a s
  | .aese x last a b => Sys2Proof.Machine.execAese x last a b s
  | .aesd x last a b => Sys2Proof.Machine.execAesd x last a b s
  | .aesk x rc a b => Sys2Proof.Machine.execAesk x rc a b s
  | .gfmul x a b c => Sys2Proof.Machine.execGfmul x a b c s
  | .clmul x a b c => Sys2Proof.Machine.execClmul x a b c s
  | .impreciseFaultTake c => Sys2Proof.Machine.execImpreciseFaultTake c s
  | .pageWalk c context va => Sys2Proof.Machine.execPageWalk c context va s
  | .homeAccessPerform k => Sys2Proof.Machine.execHomeAccessPerform k s
  | .scratchpadRmwSlot die cluster slot => Sys2Proof.Machine.execScratchpadRmwSlot die cluster slot s
  | .timedStoreArrival k => Sys2Proof.Machine.execTimedStoreArrival k s
  | .timedStoreApply die => Sys2Proof.Machine.execTimedStoreApply die s
  | .deadlineMissReport k => Sys2Proof.Machine.execDeadlineMissReport k s
  | .notBeforeLoadPerform c => Sys2Proof.Machine.execNotBeforeLoadPerform c s
  | .timedEngineStart c => Sys2Proof.Machine.execTimedEngineStart c s
  | .twaitExpiry c => Sys2Proof.Machine.execTwaitExpiry c s
  | .waitcSatisfied c => Sys2Proof.Machine.execWaitcSatisfied c s
  | .cpywSatisfied c => Sys2Proof.Machine.execCpywSatisfied c s
  | .wfiWake c => Sys2Proof.Machine.execWfiWake c s
  | .weirReleaseBroadcast c => Sys2Proof.Machine.execWeirReleaseBroadcast c s
  | .flumwReturn c => Sys2Proof.Machine.execFlumwReturn c s
  | .itemStart c => Sys2Proof.Machine.execItemStart c s
  | .culvertBeat u => Sys2Proof.Machine.execCulvertBeat u s
  | .culvertCompletion u => Sys2Proof.Machine.execCulvertCompletion u s
  | .culvertFault u => Sys2Proof.Machine.execCulvertFault u s
  | .cisternPiece stack => Sys2Proof.Machine.execCisternPiece stack s
  | .cisternCompletion stack => Sys2Proof.Machine.execCisternCompletion stack s
  | .mmaExecute die cluster => Sys2Proof.Machine.execMmaExecute die cluster s
  | .mzeroExecute die cluster => Sys2Proof.Machine.execMzeroExecute die cluster s
  | .mdrainExecute die cluster => Sys2Proof.Machine.execMdrainExecute die cluster s
  | .matrixTileError c => Sys2Proof.Machine.execMatrixTileError c s
  | .qtail f v => Sys2Proof.Machine.execQtail f v s
  | .chead f v => Sys2Proof.Machine.execChead f v s
  | .ehead f v => Sys2Proof.Machine.execEhead f v s
  | .ringConfigurationWrite f offset v => Sys2Proof.Machine.execRingConfigurationWrite f offset v s
  | .barRegisterWrite f offset v => Sys2Proof.Machine.execBarRegisterWrite f offset v s
  | .intakeLaunch q => Sys2Proof.Machine.execIntakeLaunch q s
  | .intakeKill q => Sys2Proof.Machine.execIntakeKill q s
  | .intakeSignal q => Sys2Proof.Machine.execIntakeSignal q s
  | .resync q => Sys2Proof.Machine.execResync q s
  | .intakeNop q => Sys2Proof.Machine.execIntakeNop q s
  | .internalQueueLaunch context => Sys2Proof.Machine.execInternalQueueLaunch context s
  | .headgateHandover q => Sys2Proof.Machine.execHeadgateHandover q s
  | .taskPlacement context task clusters => Sys2Proof.Machine.execTaskPlacement context task clusters s
  | .classRaise context task => Sys2Proof.Machine.execClassRaise context task s
  | .preemption context task => Sys2Proof.Machine.execPreemption context task s
  | .taskResume context task clusters => Sys2Proof.Machine.execTaskResume context task clusters s
  | .freezeInstant corpse => Sys2Proof.Machine.execFreezeInstant corpse s
  | .dieLinkLoss dieA dieB => Sys2Proof.Machine.execDieLinkLoss dieA dieB s
  | .flitReceive port f => Sys2Proof.Machine.execFlitReceive port f s
  | .portDown port => Sys2Proof.Machine.execPortDown port s
  | .portUp port r => Sys2Proof.Machine.execPortUp port r s
  | .peerUnreachable device => Sys2Proof.Machine.execPeerUnreachable device s
  | .hostCompletion c r => Sys2Proof.Machine.execHostCompletion c r s
  | .hostCompletionTimeout c => Sys2Proof.Machine.execHostCompletionTimeout c s
  | .disciplineLoss out => Sys2Proof.Machine.execDisciplineLoss out s
  | .throttleEnter die => Sys2Proof.Machine.execThrottleEnter die s
  | .throttleLeave die => Sys2Proof.Machine.execThrottleLeave die s
  | .coolantOutOfRange => Sys2Proof.Machine.execCoolantOutOfRange s
  | .feedWrite v => Sys2Proof.Machine.execFeedWrite v s
  | .powerCapWrite watts => Sys2Proof.Machine.execPowerCapWrite watts s
  | .sramSplitSet die mib => Sys2Proof.Machine.execSramSplitSet die mib s
  | .moduleReset images => Sys2Proof.Machine.execModuleReset images s
  | .dieReset die => Sys2Proof.Machine.execDieReset die s
  | .functionReset f => Sys2Proof.Machine.execFunctionReset f s
  | .powerLoss => Sys2Proof.Machine.execPowerLoss s
  | .taggedSample c b => Sys2Proof.Machine.execTaggedSample c b s
  | .monitorSample die channel cycle => Sys2Proof.Machine.execMonitorSample die channel cycle s
  | .getVersion f => Sys2Proof.Machine.execGetVersion f s
  | .getCapabilities request => Sys2Proof.Machine.execGetCapabilities request s
  | .negotiateAlgorithms offer => Sys2Proof.Machine.execNegotiateAlgorithms offer s
  | .getCertificate f slot offset length => Sys2Proof.Machine.execGetCertificate f slot offset length s
  | .challenge f slot nonce => Sys2Proof.Machine.execChallenge f slot nonce s
  | .getMeasurements f index signed nonce => Sys2Proof.Machine.execGetMeasurements f index signed nonce s
  | .keyExchange f slot exchange guest => Sys2Proof.Machine.execKeyExchange f slot exchange guest s
  | .finish f verify => Sys2Proof.Machine.execFinish f verify s
  | .endSession request => Sys2Proof.Machine.execEndSession request s
  | .spdmUnsupportedRequest f code => Sys2Proof.Machine.execSpdmUnsupportedRequest f code s
  | .doeAbort f => Sys2Proof.Machine.execDoeAbort f s
  | .rekeyQueue se q key => Sys2Proof.Machine.execRekeyQueue se q key s
  | .bindChannel se channel context key n => Sys2Proof.Machine.execBindChannel se channel context key n s
  | .grantCorpse se corpse context add => Sys2Proof.Machine.execGrantCorpse se corpse context add s
  | .discardCorpse se corpse => Sys2Proof.Machine.execDiscardCorpse se corpse s
  | .setQuota se context bytes => Sys2Proof.Machine.execSetQuota se context bytes s
  | .extend se block digest => Sys2Proof.Machine.execExtend se block digest s
  | .migrate se context device => Sys2Proof.Machine.execMigrate se context device s
  | .assign se target owner => Sys2Proof.Machine.execAssign se target owner s
  | .migrationInstall source context sealedState => Sys2Proof.Machine.execMigrationInstall source context sealedState s
  | .migrationReceipt context signature => Sys2Proof.Machine.execMigrationReceipt context signature s
  | .migrationConfirm context c => Sys2Proof.Machine.execMigrationConfirm context c s
  | .contextCreate context f root area areaPa trace tracePa traceLog => Sys2Proof.Machine.execContextCreate context f root area areaPa trace tracePa traceLog s
  | .contextDestroy context => Sys2Proof.Machine.execContextDestroy context s
  | .timingPortMessage fabricTime => Sys2Proof.Machine.execTimingPortMessage fabricTime s
  | .packageTimeStep delta => Sys2Proof.Machine.execPackageTimeStep delta s
  | .pcieLinkTraining flit => Sys2Proof.Machine.execPcieLinkTraining flit s
  | .busMasteringChange f enabled => Sys2Proof.Machine.execBusMasteringChange f enabled s
  | .vfEnableChange enabled => Sys2Proof.Machine.execVfEnableChange enabled s
  | .tdiStateChange f t => Sys2Proof.Machine.execTdiStateChange f t s
  | .intakeBadOpcode q => Sys2Proof.Machine.execIntakeBadOpcode q s
  | .dieFailure die failed stopsCount => Sys2Proof.Machine.execDieFailure die failed stopsCount s

end Sys2Proof.Machine
end

