-- ==== Sys2Proof/Machine/Agenda.lean ====
section
/-! DEFINITION. What is due before the agent in focus executes its next instruction, and what the background does
while it waits. Both are steps of the opcode table, and what a step does stands with its meaning. -/

namespace Sys2Proof.Machine

/-- R414: the item of the agent in focus is stopped, while another one of its task still awaits a value (R271); or its zone has
reached a freeze instant of its task (R360). -/
def State.heldStop (s : State) : Bool :=
  !s.core.issuedWait && s.core.run = .item
    && ((match s.ownTask with | some t => t.stopping | none => false)
      || s.pastFreeze s.core.owner s.core.ident.task s.core.agent.die)

/-- The agent in focus fetches its next instruction and executes it, or waits for it, or takes the fault that the fetch
or the decoding raises (R49); a pending imprecise fault comes first (R138). -/
def State.stepCore (s : State) : Out :=
  if s.heldStop then .next { s with stalled := true }.tick
  else if s.core.run = .item || s.core.run = .firmware then
    if s.core.takesPending then .next s.abandonMark.takePending.done
    else
      let s := s.beginInstr
      match s.fetchInstr with
      | .error e => Out.observed s (match s.parcels with | .ok (_, qs) => qs | .error _ => []) (.next (s.settleBody (.error e)))
      | .ok (s, i) => Out.observed s s.core.ir (exec i s)
  else .next (s.waits .event)

/-- The first of a list of choices that is open. -/
def firstOf : List (Option Out) → Option Out
  | [] => none
  | some r :: _ => some r
  | none :: rest => firstOf rest

/-! ## What is due -/

/-- R217, R218: a die with a timed store whose time has come. -/
def State.dueStores (s : State) : Option Out :=
  match s.timed.find? s.timedDue with
  | some x => some (execTimedStoreApply x.homeDie s)
  | none => none

/-- R222: a miss that its home has not reported. DESIGN CHOICE (assumption 122): its report lands when the surroundings say so,
and at the latest when they have nothing else to do (R290). -/
def State.dueMiss (s : State) : Option Out := if s.misses.isEmpty then none else some (execDeadlineMissReport 0 s)

/-- R360: a freeze whose instant has come; before it, a core of its target whose value has returned goes on. -/
def State.dueFreeze (s : State) : Option Out :=
  match s.freezing.find? s.freezeReady with
  | none => none
  | some z => match s.answeredCore (s.freezeTargets z) with
    | some c => some ((s.focus (.core c)).atInstant State.stepCore)
    | none => some (execFreezeInstant z.id s)

/-- R414: a task that a debug stop stops. -/
def State.dueStop (s : State) : Option Out :=
  match s.tasks.find? fun t => t.state = .running && t.stopping && !s.awaits t with
  | some t => some (execPreemption t.context t.num s)
  | none => none

/-- An agent waits for an instant that its zone, or a home's, has reached: its time, its command's start time, or a read at
a home (R220, R221, R224). -/
def State.reached (s : State) (c : Core) : Bool :=
  let zone := fun (d : BitVec 2) => (s.dieAt d).atime
  match c.wait with
  | some (.time t) => t ≤ zone c.agent.die
  | some (.engine t k) => t ≤ zone (startDie c k)
  | some (.notBefore t []) => t ≤ zone c.agent.die
  | some (.notBefore t rs) => rs.any fun r => r.answer.isNone && (match r.home with | some d => t ≤ zone d | none => false)
  | _ => false
/-- What an agent waits for comes at its instant, before anything later. -/
def State.dueWait (s : State) : Option Out :=
  let ready := fun (c : Core) => (c.run = .item || c.run = .firmware) && !c.takesPending && s.reached c && !(s.focus c.agent).heldStop
  match (s.core :: s.parked).find? ready with
  | some c => some ((s.focus c.agent).atInstant State.stepCore)
  | none => none

/-- R360, R363: a recorded item whose requests have all ended: the registers that they leave at its boundary. Where one was never
answered the item stays as it was recorded; where one failed its instruction has not been executed. -/
def State.settleRecord (s : State) (k : Corpse) (r : ItemRec) : State :=
  let c := r.core
  let put := fun (x : Core) (resolved : Bool) => { s with corpses := corpseMap k.id (Corpse.settled r x resolved) s.corpses }
  match c.wait, c.ir, decode c.ir with
  | some (.host rs), ir, .ok i =>
    let before := c.pcc.setCursor (c.pcc.cursor - BitVec.ofNat 48 (2 * ir.length))
    if rs.any Request.never then put c false
    else if !Instr.loads i then put c true
    else if rs.any Request.failed then put { c with pcc := before } true
    else match ({ s with core := { c with pcc := before } }).atInstant (exec i) with
      | .next u => put u.core true
      | _ => put c true
  | _, _, _ => put c false
/-- R384: once no item of a corpse awaits a value, the records of the revivals among its tasks become final. -/
def State.settleRevivals (s : State) (id : BitVec 32) : State :=
  match corpseFind id s.corpses with
  | none => s
  | some k =>
    if k.awaiting then s
    else
      let s := { s with corpses := corpseMap id (fun k => { k with revivals := [] }) s.corpses }
      k.revivals.foldl (fun s t => s.endKilled t (k.frozenItems t.num) k.freeze id) s
def State.dueRecord (s : State) : Option Out :=
  s.corpses.findSome? fun k => k.answeredItem.map fun r => .next ((s.settleRecord k r).settleRevivals k.id)

/-- Whether the slot of an idle core has an item to start. -/
def State.hasItem (s : State) (c : CoreId) : Bool :=
  match taskOn c s.tasks with
  | some t => !s.leftBusy c && !s.pastFreeze t.context t.num c.die && (match indexIn c t.slots with | some i => !(assocGetD t.queues i []).isEmpty | none => false)
  | none => false

/-- R238, R277: the next item of the core in focus, or the superstep count that its task has reached. -/
def State.dueCore (s : State) : Option Out :=
  match s.core.agent with
  | .core c =>
    if s.core.run = .idle then (if s.hasItem c then some (execItemStart c s) else none)
    else match s.ownTask with
      | some t => if s.core.run = .item && !t.stopping && s.core.ident.step ≠ t.step then some (execWeirReleaseBroadcast c s) else none
      | none => none
  | _ => none

/-- R406, R409: the entry of an overflow, lowest channel first, or of a marked instruction that has left the pipeline. DESIGN
CHOICE (assumption 82): its counts and misses are free values. -/
def State.dueSample (s : State) : Option Out :=
  let full := (upFrom 0 16).filter fun k => !((s.dieAt (BitVec.ofNat 2 (k / 4))).monitors[k % 4]).spills.isEmpty
  match full with
  | k :: _ => some (execMonitorSample (BitVec.ofNat 2 (k / 4)) (BitVec.ofNat 2 k) s.pace s)
  | [] =>
    match (s.core :: s.parked).findSome? fun c => match c.agent, c.mark with
      | .core i, some m => if m.left.isSome then some i else none
      | _, _ => none with
    | some i =>
      let body : SampleBody :=
        ⟨(upFrom 0 6).map fun j => BitVec.ofNat 32 (natOf ((upFrom (s.free + 4 * j) 4).map Config.freeByte)), Config.freeByte (s.free + 24)⟩
      some (execTaggedSample i body { s with free := s.free + 25 })
    | none => none

/-- The step of the surroundings that is due now. -/
def State.due (s : State) : Option Out := firstOf [s.dueSample, s.dueStores, s.dueFreeze, s.dueStop, s.dueWait, s.dueRecord, s.dueCore]

/-! ## The background -/

/-- Accesses on their way, and atomics that wait for their slot (R123, R130, R217). -/
def State.backMemory (s : State) : Option Out :=
  match s.flights.findIdx? fun f => !s.refuses f with
  | some k => some (execHomeAccessPerform k s)
  | none => match s.timed.findIdx? fun x => x.arrival.isNone with
    | some k => some (execTimedStoreArrival k s)
    | none =>
      let waits := fun (c : Core) => match c.wait with | some (.rmw l va _ _ _ _ none) => !s.refusesAt c.owner c.ident.task l va | _ => false
      match (s.core :: s.parked).find? waits with
      | some c =>
        match AgentId.cluster c.agent, slotOf c.agent with
        | some k, some slot => some (execScratchpadRmwSlot (BitVec.ofNat 2 (k / 128)) (BitVec.ofNat 7 k) (BitVec.ofNat 4 slot) s)
        | _, _ => none
      | none => none

/-- The command that a cluster's matrix unit executes next (R327). -/
def State.backUnit (s : State) (k : Nat) : Option Out :=
  let die := BitVec.ofNat 2 (k / 128)
  let cluster := BitVec.ofNat 7 k
  match s.matNext k with
  | none => none
  | some (j, _) =>
    match (s.agent (clusterCore k j)).mx.queue with
    | [] => none
    | cmd :: _ =>
      some (if cmd.isMma then execMmaExecute die cluster s else if cmd.isZero then execMzeroExecute die cluster s
        else execMdrainExecute die cluster s)
def State.backMatrix (s : State) : Option Out :=
  match (s.core :: s.parked).find? fun c => !c.mx.queue.isEmpty with
  | some c => match c.agent with | .core i => s.backUnit i.clusterKey | _ => none
  | none => none

/-- R297, R299: the command that a culvert has in hand; a full ring holds its MPROD. -/
def State.backCulvert (s : State) (u : CulvertId) : Option Out :=
  match s.headCmd (.culvert u) with
  | none => none
  | some c =>
    if (c.requests.any fun r => r.answer.isNone) || s.cmdStopped (.culvert u) c
      || s.cmdHeld (.culvert u) c (if c.beats < c.total then c.beatReach else c.endReach) then none
    else if c.beats < c.total then some (execCulvertBeat u s)
    else
      let full := c.ended && c.flags.getLsbD flagRing
        && (match (s.agent c.issuer).mx.ring c.ring with | some r => r.full | none => false)
      if full then none else some (execCulvertCompletion u s)
def State.backCulverts (s : State) : Option Out :=
  firstOf (s.clusters.flatMap fun p => [s.backCulvert (culvertOf p.1 0), s.backCulvert (culvertOf p.1 1)])

/-- R308: the command that a cistern has in hand. -/
def State.backCistern (s : State) (k : BitVec 4) : Option Out :=
  match s.headCmd (.cistern k) with
  | none => none
  | some c =>
    if s.cmdStopped (.cistern k) c then none
    else if c.beats < c.pieces then some (execCisternPiece k s)
    else if s.mailboxAway c || !c.mbx.isNone && s.cmdHeld (.cistern k) c [c.mbx.cursor] then none else some (execCisternCompletion k s)
def State.backCisterns (s : State) : Option Out := firstOf ((upFrom 0 16).map fun k => s.backCistern (BitVec.ofNat 4 k))

/-- R256: the step that handles a command of an opcode. -/
def State.intakeStep (s : State) (q : BitVec 6) (opcode : BitVec 16) : Out :=
  if opcode = 1 then execIntakeLaunch q s else if opcode = 2 then execIntakeKill q s else if opcode = 3 then execIntakeSignal q s
  else if opcode = 4 then execResync q s else if opcode = 5 then execIntakeNop q s else execIntakeBadOpcode q s
def State.backIntake (s : State) : Option Out :=
  firstOf (s.fns.map fun p =>
    match s.nextSlot p.1 with
    | some b =>
      let c := openCommand p.1 p.2.key.toNat b
      if c.opcode = 1 && s.launchWaits p.1 c then none else some (s.intakeStep (BitVec.ofNat 6 p.1) c.opcode)
    | none => none)
def State.backInternal (s : State) : Option Out :=
  firstOf (s.contexts.map fun p =>
    match p.2.internal with
    | [] => none
    | l :: _ =>
      if p.2.migrating.isSome || (s.leaderFor (64 + p.1)).isNone || (match s.internalReading p.2 l with | .waits => true | _ => false)
      then none else some (execInternalQueueLaunch p.2.num s))

/-- R263, R265, R271: a task that starts or goes on. -/
def State.backPlace (s : State) : Option Out :=
  let s := s.raiseAll
  firstOf (s.tasks.map fun t =>
    match s.pickTeam t, s.turn t with
    | some team, some _ =>
      some (if t.state = .waiting then execTaskPlacement t.context t.num team s else execTaskResume t.context t.num team s)
    | _, _ => none)

/-- R266: a task of class 1 to 3 that makes room for a task of class 0. -/
def State.backPreempt (s : State) : Option Out :=
  match (s.tasks.flatMap s.displaced).find? fun u => !s.awaits u with
  | some u => some (execPreemption u.context u.num s)
  | none => none

/-- Another agent that has a program to run. -/
def State.backAgent (s : State) : Option Out :=
  let ready := fun (c : Core) => c.run = .item || c.run = .firmware ||
    (match c.agent with | .core i => c.run = .idle && s.hasItem i | _ => false)
  match s.parked.find? ready with
  | some c => some (.next (s.focus c.agent))
  | none => none

/-- What the background does while the agent in focus waits or has nothing to run. -/
def State.background (s : State) : Option Out :=
  firstOf [s.backMemory, s.backMatrix, s.backCulverts, s.backCisterns, s.backIntake, s.backInternal, s.backPlace, s.backPreempt,
    s.backAgent]

end Sys2Proof.Machine
end

