-- ==== Sys2Proof/Machine/Step.lean ====
section
/-! DEFINITION. One step of the module, and where a program is placed for it to run next. -/

namespace Sys2Proof.Machine

/-- R135: a parcel leaves an agent's instruction cache. -/
def State.evict (s : State) (a : AgentId) (l : Nat) : State :=
  let c := s.agent a
  s.setAgent { c with icache := assocDel c.icache l }
/-- R135: a parcel of the module is fetched ahead of its use, and kept. -/
def State.prefetch (s : State) (a : AgentId) (va : Addr) : State :=
  let t := s.focus a
  match t.access (t.fetchAccess va) with
  | .ok p =>
    if isAway p.loc || (assocGet t.core.icache p.loc).isSome then s
    else (t.cacheParcel p.loc (BitVec.ofNat 16 (natOf (t.placeBytes p 2)))).focus s.core.agent
  | .error _ => s
/-- R266: a die's firmware sets the clusters that it reserves for class 0, before block 5 measures them (R392). -/
def State.reserve (s : State) (d : BitVec 2) (eights : Nat) : State :=
  if s.sec.fresh && eights ≤ 16 then s.setDie d { s.dieAt d with reserved := 8 * eights } else s

/-- R402: the security core holds a session with another one, each having verified the other's measurements, or no more
(DESIGN CHOICE, assumption 132). -/
def State.deviceSession (s : State) (d : BitVec 19) (up : Bool) : State :=
  let others := s.sec.sessions.filter (· ≠ d)
  { s with sec := { s.sec with sessions := if up then others ++ [d] else others } }

/-- One choice of the surroundings is carried out. -/
def move (m : Move) (s : State) : Host.Outcome State Fault Refusal :=
  match m with
  | .event i => exec i s
  | .run => s.stepCore
  | .focus a => .next (s.focus a)
  | .pace n => .next { s with pace := n }
  | .evict a l => .next (s.evict a l)
  | .prefetch a va => .next (s.prefetch a va)
  | .reserve d n => .next (s.reserve d n)
  | .session d up => .next (s.deviceSession d up)

/-- A module that does not run waits for its reset. -/
def stepFrozen (s : State) : Host.Outcome State Fault Refusal :=
  match s.script with
  | .event (.moduleReset images) :: rest => exec (.moduleReset images) { s with script := rest }
  | _ => .fault .moduleHalted

/-- What follows when nothing is due: the script of the surroundings, what the background does while the agent in focus
waits, or the next instruction of the agent in focus. -/
def stepOn (s : State) : Host.Outcome State Fault Refusal :=
  match s.script with
  | m :: rest => move m { s with script := rest }
  | [] =>
    match s.dueMiss with
    | some r => r
    | none =>
    match if s.stalled then { s with stalled := false }.background else none with
    | some r => r
    | none => s.stepCore

/-- One step of the module. -/
def step (s : State) : Host.Outcome State Fault Refusal :=
  if s.frozen then stepFrozen s
  else match s.due with
    | some r => r
    | none => stepOn s

/-- The location from which `step` fetches the parcel at an address. -/
def State.fetchLoc (s : State) (a : Addr) : Nat :=
  match s.access (s.fetchAccess a) with
  | .ok p => p.loc
  | .error _ => tcmLoc s.core.agent.memIndex a.toNat

/-- Parcels stored, low byte first, where they are fetched from. -/
def placeParcels (s : State) (a : Addr) : List Parcel → State
  | [] => s
  | q :: rest => placeParcels (s.writeBytes (s.fetchLoc a) (bytesOf 2 q.toNat)) (a + 2) rest

/-- The parcels of a word of the opcode table: 16 bits at a time, zero above `nbits`, five of them, as many as the
longest instruction has. -/
def tableParcels (nbits w : Nat) : List Parcel :=
  (upFrom 0 5).map fun k => BitVec.ofNat 16 ((w % 2 ^ nbits) >>> (16 * k))

/-- The state with an instruction where `step` fetches next: at the PC of the agent in focus, with nothing before it. -/
def State.withFetchWord (s : State) (nbits w : Nat) : State :=
  let c := { s.core with wait := none, icache := [], ir := [] }
  placeParcels { s with script := [], stalled := false, core := c } s.pc (tableParcels nbits w)

end Sys2Proof.Machine
end

