-- ==== Sys2Proof/Safety.lean ====
section
/-! DEFINITION. What counts as a safe run, and the words in which claims about instructions are stated. -/

namespace Sys2Proof

open Sys2Proof.Machine

/-- An outcome from which the machine goes on. -/
def goesOn (o : Host.Outcome State Fault Refusal) : Prop := ∃ t, o = .next t

/-- A run of `n` steps in which the machine never stops. -/
def SafeRun : Nat → State → Prop
  | 0, _ => True
  | n + 1, s => ∃ t, step s = .next t ∧ SafeRun n t

end Sys2Proof

namespace Sys2Proof.Machine

/-! ## When an instruction has its effect -/

/-- None of the general registers is poisoned (R236); g0 never is. -/
abbrev State.readable (s : State) (rs : List RegNum) : Prop :=
  ∀ n ∈ rs, n = 0 ∨ s.core.gPois.getLsbD n.toNat = false
/-- The same of vector registers and of predicate registers. -/
abbrev State.readableV (s : State) (rs : List RegNum) : Prop := ∀ n ∈ rs, s.core.vPois.getLsbD n.toNat = false
abbrev State.readableP (s : State) (rs : List PredNum) : Prop :=
  ∀ n ∈ rs, n = 0 ∨ s.core.pPois.getLsbD n.toNat = false

/-- R35: a scalar instruction has its effect: it has no predicate, or one that can be read and is true. -/
abbrev State.runs (s : State) (x : Pfx) : Prop :=
  x.p = true → s.readableP [x.pred] ∧ (s.p x.pred).getLsbD 0 = !x.neg

/-- Nothing is on its way to its home (R123, R133, R362). -/
abbrev State.quiet (s : State) : Prop := s.flights = [] ∧ s.posted = [] ∧ ∀ y ∈ s.timed, y.arrival.isSome = true

/-- R49: the instruction begins. It is not one that goes on with accesses that it has issued (R136, R197, R220), with the
block of a command or a command that its engine has taken (R294, R298, R302), or after it has dropped translations (R149). -/
def Core.begins (c : Core) : Bool :=
  match c.wait with
  | some (.host _) => false
  | some (.rmw _ _ _ _ _ _ _) => false
  | some (.notBefore _ (_ :: _)) => false
  | some (.engine _ (some _)) => false
  | some (.room (some _)) => false
  | some (.aad _ _) => false
  | some .trinv => false
  | _ => true

/-- The place stands in the module's own memory as it is now: TCM, scratchpad, die SRAM or device memory. -/
abbrev Place.inModule (p : Place) : Prop :=
  p.store = .live ∧ p.copy = false ∧ isHostLoc p.loc = false ∧ isPeerLoc p.loc = false ∧ (p.region = .tcm ∨ p.region = .spad ∨ p.region = .sram ∨ p.region = .dev)

/-- Writes are performed at once, no check word is bad, no home refuses a task that a freeze stops (R361), and memory and
its tags are in their canonical form. -/
abbrev State.plainMemory (s : State) : Prop :=
  s.quiet ∧ s.hold = false ∧ s.bad = [] ∧ (∀ c t d, s.pastFreeze c t d = false) ∧ Memory.wf s.mem = true
    ∧ s.tags.Pairwise (· < ·)

/-- `n` bytes of a little-endian value as a signed integer (SExt). -/
def signedOf (n v : Nat) : Int := if v % 2 ^ (8 * n) < 2 ^ (8 * n - 1) then (v % 2 ^ (8 * n) : Nat) else (v % 2 ^ (8 * n) : Nat) - (2 ^ (8 * n) : Nat)

/-! ## The state after registers have been read: what they inherit has been fetched (R241) -/

def State.took (s : State) : List RegNum → State
  | [] => s
  | n :: rest => State.took (s.gotG n) rest
def State.tookV (s : State) : List RegNum → State
  | [] => s
  | n :: rest => State.tookV (s.gotV n) rest
def State.tookP (s : State) : List PredNum → State
  | [] => s
  | n :: rest => State.tookP (s.gotP n) rest
/-- After the predicate of a scalar instruction has been read. -/
def State.tookPfx (s : State) (x : Pfx) : State := if x.p then s.tookP [x.pred] else s

/-- The state after a scalar instruction that reads these general registers has read them. -/
def State.after (s : State) (x : Pfx) (rs : List RegNum) : State := (s.tookPfx x).took rs

/-- An instruction ends with the PC at an address, and time moves on. -/
def State.ends (s : State) (a : Addr) : State := (s.setPc a).done

/-- The instruction reads the general registers `rs`, writes register `a` and ends at the next instruction. -/
def writesReg (i : Instr) (s : State) (x : Pfx) (rs : List RegNum) (a : RegNum) (r : GReg) : Prop :=
  exec i s = .next (((s.after x rs).setG a r).ends (s.next x))
/-- The same where it writes an integer (R76). -/
def writesInt (i : Instr) (s : State) (x : Pfx) (rs : List RegNum) (a : RegNum) (r : Word) : Prop :=
  writesReg i s x rs a (intReg r)
/-- The instruction raises a precise fault: none of its effect remains, and the fault is taken
(R137). -/
def raises (i : Instr) (s : State) (t : Trap) : Prop := exec i s = .next (s.takeTrap t).done

/-- The registers that an instruction may write. -/
structure Written where
  g : List RegNum := []
  v : List RegNum := []
  p : List PredNum := []
  csr : Bool := false
  mx : Bool := false
  dead : Bool := false

/-- R49: of the agent in focus nothing else has changed but the PC, what is fetched and what it waits for. -/
structure Untouched (w : Written) (s t : State) : Prop where
  g       : ∀ n, n ∉ w.g → t.g n = s.g n
  v       : ∀ n, n ∉ w.v → t.v n = s.v n
  p       : ∀ n, n ∉ w.p → t.p n = s.p n
  csr     : w.csr = false → t.core.csr = s.core.csr
  handler : t.core.handler = s.core.handler
  pending : t.core.pending = s.core.pending
  pccRest : t.core.pcc.bits.extractLsb' 48 80 = s.core.pcc.bits.extractLsb' 48 80 ∧ t.core.pcc.tag = s.core.pcc.tag
  dead    : w.dead = false → t.core.dead = s.core.dead
  mx      : w.mx = false → t.core.mx = s.core.mx
  mode    : t.core.run = s.core.run ∧ t.core.agent = s.core.agent ∧ t.core.owner = s.core.owner ∧ t.core.ident = s.core.ident

/-- Nothing of memory has changed: bytes, tags, colours, what is on its way. -/
structure SameMemory (s t : State) : Prop where
  bytes   : ∀ l, t.byteAt l = s.byteAt l
  tags    : ∀ l, t.tagAt l = s.tagAt l
  colours : ∀ l, t.colourAt l = s.colourAt l
  flights : t.flights = s.flights
  timed   : t.timed = s.timed

/-- What a store of `bytes` with the tag `tag` at a checked place leaves, where nothing is held back: the bytes stand
there, its granules carry the tag, and every other byte reads as it did, through the same mapping where the line was
written under another one, whose tags then do not stay (R57, R400). -/
structure Stored (s t : State) (p : Place) (bytes : List Byte) (tag : Bool) : Prop where
  written : t.readBytes p.loc bytes.length = bytes
  others  : ∀ l, l < p.loc ∨ p.loc + bytes.length ≤ l →
    t.byteAt l = (match s.keyOf p with
      | some k => if l / 64 ∈ unitsOf 64 p.loc bytes.length then s.viewByte k l else s.byteAt l
      | none => s.byteAt l)
  tags    : ∀ l, t.tagAt l =
    if p.loc / 16 ≤ l / 16 ∧ l / 16 ≤ (p.loc + bytes.length - 1) / 16 then tag && holdsTags p.loc
    else match s.keyOf p with
      | some k => s.tagAt l && !(decide (l / 64 ∈ unitsOf 64 p.loc bytes.length) && s.foreignLine k l)
      | none => s.tagAt l
  colours : ∀ l, t.colourAt l = s.colourAt l

/-! ## Vectors -/

/-- Element `i` of a vector register with elements of `w` bits. -/
def elemAt (w : Nat) (v : VReg) (i : Nat) : Nat := v.toNat / 2 ^ (w * i) % 2 ^ w

/-- R171: what a vector instruction reads can be read: its sources, its predicate, and the destination where inactive
elements are kept. -/
abbrev State.vecReadable (s : State) (x : Pfx) (srcs : List RegNum) (a : RegNum) : Prop :=
  s.readableV srcs ∧ s.readableP [x.pred] ∧ ((Pfx.keeps x) = true → s.readableV [a])

/-- The exceptions of the active elements together (R157). -/
def State.flagsOf (s : State) (x : Pfx) (n : Nat) (e : Nat → Exc) : Exc :=
  (List.range n).foldr (fun i f => (if s.active x i then e i else 0) ||| f) 0

/-- What an agent does at an instant at which its wait ends: no time passes with it (R210). -/
def State.instantly (u : State) (f : State → State) : State := { f { u with still := true } with still := false }

/-- The superstep count that the broadcast of a release brings to the core in focus (R277, R282). -/
def State.seesRelease (s : State) : State :=
  match s.ownTask with
  | some t => if t.stopping then s else { s with core := { s.core with ident := { s.core.ident with step := t.step } } }
  | none => s

/-- R170: a vector instruction has written its destination: the results of the active elements, and under the predicate's
mode zero or the previous contents elsewhere; the exceptions stick in FCSR. -/
structure VecWritten (s t : State) (x : Pfx) (w : Nat) (a : RegNum) (r : Nat → Nat) (e : Exc) : Prop where
  elems : ∀ i, i < 2048 / w →
    elemAt w (t.v a) i = if s.active x i then r i % 2 ^ w else if x.zero then 0 else elemAt w (s.v a) i
  fcsr  : t.core.csr = { s.core.csr with fcsr := fcsrRaise s.core.csr.fcsr e }
  rest  : Untouched { v := [a], csr := true } s t
  pc    : t.pc = s.next x

/-- The instruction computes `op i` for each active element, or raises FPX where an exception is enabled (R157). -/
def vecComputes (i : Instr) (s : State) (x : Pfx) (w : Nat) (a : RegNum) (op : Nat → Nat × Exc) : Prop :=
  let e := s.flagsOf x (2048 / w) fun k => (op k).2
  (e &&& fcsrEnables s.core.csr.fcsr = 0 → ∃ t, exec i s = .next t ∧ VecWritten s t x w a (fun k => (op k).1) e)
  ∧ (e &&& fcsrEnables s.core.csr.fcsr ≠ 0 → raises i s ⟨cFPX, 0, e.setWidth 64⟩)

/-- The instruction writes `r i` to each active element, and FCSR has no part in it. -/
def vecWrites (i : Instr) (s : State) (x : Pfx) (w : Nat) (a : RegNum) (r : Nat → Nat) : Prop :=
  ∃ t, exec i s = .next t ∧ VecWritten s t x w a r 0

/-- R188: a predicate register has been written bit by bit below `n`, with zeros from `n` on. -/
structure PredWritten (s t : State) (x : Pfx) (n : Nat) (a : PredNum) (r : Nat → Bool) : Prop where
  bits : a ≠ 0 → ∀ i, i < 256 → (t.p a).getLsbD i =
    (decide (i < n) && if s.active x i then r i else !x.zero && (s.p a).getLsbD i)
  rest : Untouched { p := [a], csr := true } s t
  pc   : t.pc = s.next x

/-! ## Engines -/

/-- The command that an engine has just accepted: it stands last in the engine's queue, and A holds its ticket (R294, R304). -/
structure Accepted (s t : State) (i : EngineId) (a : RegNum) (p : Cmd → Prop) : Prop where
  ticket : a ≠ 0 → t.g a = intReg (ticketOf i (s.engine i).count)
  queue  : ∃ c, (t.engine i).queue = (s.engine i).queue ++ [c] ∧ c.ticket = ticketOf i (s.engine i).count ∧ p c
  count  : (t.engine i).count = (s.engine i).count + 1

/-- R224, R298: what becomes of a command that has passed its checks. `s` is the state before the instruction, `u` the one
after the checks, `t` the time of the three-operand form, `start` the block's; `p` says what the command holds. -/
def engineTakes (s u : State) (ins : Instr) (x : Pfx) (i : EngineId) (a : RegNum) (timed : Bool) (t start : Word)
    (p : Cmd → Prop) : Prop :=
  let due := if timed then t else start
  (timed = true → start ≠ 0 → raises ins s ⟨cTIMING, 0, 2⟩)
  ∧ (timed = false → start = 0 →
      ∃ v, exec ins s = .next v ∧ v.pc = s.next x ∧ Accepted u v i a fun d => d.state = .queued ∧ d.start = none ∧ p d)
  ∧ ((timed = true ∧ start = 0) ∨ (timed = false ∧ start ≠ 0) →
      (due ≤ (u.dieAt i.die).atime → raises ins s ⟨cTIMING, 0, 1⟩)
      ∧ ((u.dieAt i.die).atime < due → ∃ v c, exec ins s = .next v ∧ v.pc = s.pc
          ∧ v.core.wait = some (.engine due (some (ticketOf i (u.engine i).count)))
          ∧ (v.engine i).queue = (u.engine i).queue ++ [c] ∧ c.start = some due ∧ p c))

/-- Where an address of a command lies, for the engine that carries it out. -/
def State.cmdSees (s : State) (i : EngineId) (c : Cmd) (ea : Addr) : Option Place :=
  (s.asCmd i c fun w => (w, w.cmdPlace c ea)).2

/-- R299, R304, R308: the command has left its engine's queue, and the engine that gave it its ticket remembers how it ended. -/
structure Ended (s t : State) (i : EngineId) (c d : Cmd) : Prop where
  queue : (t.engine i).queue = (s.engine i).queue.filter fun e => e.ticket ≠ c.ticket
  done  : ticketEngine c.ticket = some i → (t.engine i).done = lastAccepted (s.engine i).count ((s.engine i).done ++ [d])

/-- R298: at its start time a command that was accepted earlier starts, where its engine executes none; before it the
instruction waits, and where the engine is busy it raises TIMING. -/
def engineStarts (s : State) (ins : Instr) (x : Pfx) (a : RegNum) : Prop :=
  ∀ (t : Tick) (k : Word) (i : EngineId), s.core.wait = some (.engine t (some k)) → ticketEngine k = some i →
    ((s.dieAt i.die).atime < t → exec ins s = .next ((s.after x []).waits (.engine t (some k))))
    ∧ (t ≤ (s.dieAt i.die).atime →
        ((s.headCmd i).isSome = true → raises ins s ⟨cTIMING, 0, 0⟩)
        ∧ (∀ d, s.headCmd i = none → cmdFind k (s.engine i).queue = some d → exec ins s =
            .next (((((s.after x []).cmdUpdate i { d with state := .running }).loadOwner i).setInt a k).ends (s.next x))))

/-! ## Every form of a page

The instructions of each page with any operands, for what R35, R48, R236 and R293 say of whole pages. -/

/-- Operands of an instruction, of every kind: prefixes, ordering, registers, types, small fields, flags, immediates. -/
structure Fields where
  x : Pfx
  o : Ordering
  a : RegNum
  b : RegNum
  c : RegNum
  p : PredNum
  q : PredNum
  r : PredNum
  e : ETy
  d : ETy
  f : FTy
  g : FTy
  i : ITy
  m : BitVec 2
  n : BitVec 2
  s : BitVec 2
  t : BitVec 2
  z : BitVec 3
  j : BitVec 4
  code : BitVec 8
  y0 : Bool
  y1 : Bool
  y2 : Bool
  y3 : Bool
  imm : Word
  deriving DecidableEq, Repr

/-- Pages 0 and 1: what reads no general register and has no field that must hold one of some values. -/
def Fields.plain (k : Fields) : List Instr :=
  [.li k.x k.a k.imm, .br k.x k.imm, .call k.x k.imm, .trap k.x k.code, .tnow k.x k.a, .fenceI k.x]

/-- Pages 0 and 1: what reads a general register and has no such field. -/
def Fields.reads (k : Fields) : List Instr :=
  [.add k.x k.a k.b k.c, .sub k.x k.a k.b k.c, .and k.x k.a k.b k.c, .or k.x k.a k.b k.c, .xor k.x k.a k.b k.c,
   .shl k.x k.a k.b k.c, .shr k.x k.a k.b k.c, .sar k.x k.a k.b k.c, .min k.x k.a k.b k.c, .max k.x k.a k.b k.c,
   .minz k.x k.a k.b k.c, .maxz k.x k.a k.b k.c, .slt k.x k.a k.b k.c, .sltz k.x k.a k.b k.c, .seq k.x k.a k.b k.c,
   .mov k.x k.a k.b, .addi k.x k.a k.c k.imm, .andi k.x k.a k.c k.imm, .ori k.x k.a k.c k.imm,
   .xori k.x k.a k.c k.imm, .slti k.x k.a k.c k.imm, .lea k.x k.a k.b k.imm, .beq k.x k.a k.b k.imm,
   .bne k.x k.a k.b k.imm, .blt k.x k.a k.b k.imm, .bge k.x k.a k.b k.imm, .blo k.x k.a k.b k.imm,
   .bhs k.x k.a k.b k.imm, .callr k.x k.a, .jmpr k.x k.a, .loop k.x k.a k.imm, .ld k.x k.o k.m k.a k.b k.imm,
   .ldz k.x k.o k.m k.a k.b k.imm, .st k.x k.o k.m k.a k.b k.imm, .ldk k.x k.o k.a k.b k.imm,
   .stk k.x k.o k.a k.b k.imm, .ldx k.x k.o k.m k.a k.b k.c k.imm, .stx k.x k.o k.m k.a k.b k.c k.imm,
   .aadd k.x k.o k.y0 k.a k.b k.c k.imm, .aand k.x k.o k.y0 k.a k.b k.c k.imm, .aor k.x k.o k.y0 k.a k.b k.c k.imm,
   .axor k.x k.o k.y0 k.a k.b k.c k.imm, .amin k.x k.o k.y0 k.a k.b k.c k.imm,
   .amax k.x k.o k.y0 k.a k.b k.c k.imm, .aswp k.x k.o k.y0 k.a k.b k.c k.imm,
   .acas k.x k.o k.y0 k.a k.b k.c k.imm, .stat k.x k.o k.z k.a k.b k.c k.imm, .ldnb k.x k.o k.z k.a k.b k.c k.imm,
   .mul k.x k.a k.b k.c, .mulh k.x k.a k.b k.c, .mulhz k.x k.a k.b k.c, .div k.x k.a k.b k.c,
   .divz k.x k.a k.b k.c, .rem k.x k.a k.b k.c, .remz k.x k.a k.b k.c, .clz k.x k.a k.b, .ctz k.x k.a k.b,
   .popc k.x k.a k.b, .brev k.x k.a k.b, .bswp k.x k.a k.b, .bext k.x k.a k.b k.c, .bins k.x k.a k.b k.c,
   .rotl k.x k.a k.b k.c, .rotr k.x k.a k.b k.c, .sel k.x k.a k.b k.c, .kinc k.x k.a k.b k.c,
   .kinci k.x k.a k.c k.imm, .kbnd k.x k.a k.b k.c, .kprm k.x k.a k.b k.c, .kcol k.x k.a k.b k.c,
   .ktst k.x k.a k.b k.c, .kseal k.x k.a k.b, .kuns k.x k.a k.b k.c, .kclr k.x k.a k.b, .kcur k.x k.a k.b k.c,
   .stg k.x k.a k.b, .ldg k.x k.a k.b, .fadd k.x k.f k.a k.b k.c, .fsub k.x k.f k.a k.b k.c,
   .fmul k.x k.f k.a k.b k.c, .ffma k.x k.f k.a k.b k.c, .fdiv k.x k.f k.a k.b k.c, .fsqrt k.x k.f k.a k.b,
   .fmin k.x k.f k.a k.b k.c, .fmax k.x k.f k.a k.b k.c, .feq k.x k.f k.a k.b k.c, .flt k.x k.f k.a k.b k.c,
   .fle k.x k.f k.a k.b k.c, .fcvti k.x k.f k.i k.y0 k.a k.b, .fcvtf k.x k.f k.i k.a k.b,
   .fcvtw k.x k.f k.g k.a k.b, .srnd k.x k.a k.b k.c]

/-- Page 2: what reads vector registers first. -/
def Fields.vectors (k : Fields) : List Instr :=
  [.vadd k.x k.e k.a k.b k.c, .vsub k.x k.e k.a k.b k.c, .vmul k.x k.e k.a k.b k.c, .vfma k.x k.e k.a k.b k.c,
   .vfms k.x k.e k.a k.b k.c, .vfnma k.x k.e k.a k.b k.c, .vmin k.x k.e k.a k.b k.c, .vmax k.x k.e k.a k.b k.c,
   .vabs k.x k.e k.a k.b, .vneg k.x k.e k.a k.b, .vdiv k.x k.f k.a k.b k.c, .vsqrt k.x k.f k.a k.b,
   .vrcp k.x k.f k.a k.b, .vrsq k.x k.f k.a k.b, .vexp2 k.x k.f k.a k.b, .vlog2 k.x k.f k.a k.b,
   .vand k.x k.i k.a k.b k.c, .vor k.x k.i k.a k.b k.c, .vxor k.x k.i k.a k.b k.c, .vnot k.x k.i k.a k.b,
   .vshl k.x k.i k.a k.b k.c, .vshr k.x k.i k.a k.b k.c, .vsar k.x k.i k.a k.b k.c, .vceq k.x k.e k.p k.b k.c,
   .vclt k.x k.e k.p k.b k.c, .vcle k.x k.e k.p k.b k.c, .vsel k.x k.e k.a k.b k.c, .vcvt k.x k.e k.d k.y0 k.a k.b,
   .vsatn k.x k.e k.d k.a k.b, .vmov k.x k.e k.a k.b, .vradd k.x k.e k.a k.b, .vrmin k.x k.e k.a k.b,
   .vrmax k.x k.e k.a k.b, .vscan k.x k.e k.a k.b, .vaddi k.x k.i k.a k.c k.imm, .vmuli k.x k.i k.a k.c k.imm,
   .vdot4 k.x k.e k.a k.b k.c]

/-- Page 2: what reads general registers first. -/
def Fields.general (k : Fields) : List Instr :=
  [.vbc k.x k.e k.a k.b, .vrand k.x k.a k.b k.c, .pset k.x k.e k.p k.b]

/-- Page 2: what reads a predicate register first. -/
def Fields.predicates (k : Fields) : List Instr :=
  [.pand k.x k.p k.q k.r, .por k.x k.p k.q k.r, .pxor k.x k.p k.q k.r, .pnot k.x k.p k.q, .pcnt k.x k.e k.a k.q,
   .pfst k.x k.e k.a k.q, .pmov k.x k.p k.q]

/-- Page 3: loads and stores. -/
def Fields.memory (k : Fields) : List Instr :=
  [.vld k.x k.o k.i k.a k.b k.imm, .vst k.x k.o k.i k.a k.b k.imm, .vlds k.x k.o k.i k.a k.b k.c k.imm,
   .vsts k.x k.o k.i k.a k.b k.c k.imm, .vgth k.x k.o k.i k.a k.b k.c, .vsct k.x k.o k.i k.a k.b k.c,
   .vldx k.x k.o k.i k.a k.b k.c, .vstx k.x k.o k.i k.a k.b k.c, .vstat k.x k.o k.i k.a k.b k.c k.imm,
   .vldnb k.x k.o k.i k.a k.b k.c k.imm]

/-- Page 3: what reads general and vector registers. -/
def Fields.moves (k : Fields) : List Instr :=
  [.vrot k.x k.i k.a k.b k.c, .vslid k.x k.i k.a k.b k.c, .vext k.x k.i k.a k.b k.c, .vins k.x k.i k.a k.b k.c]

/-- Page 3: what reads vector registers alone. -/
def Fields.permutes (k : Fields) : List Instr :=
  [.vperm k.x k.i k.a k.b k.c, .vzip k.x k.i k.a k.b k.c, .vuzp k.x k.i k.a k.b k.c, .vcmpr k.x k.i k.a k.b,
   .vexpn k.x k.i k.a k.b, .vtrn k.x k.i k.a k.b k.c, .vqnt k.x k.y0 k.j k.a k.b, .vdeq k.x k.y0 k.j k.a k.b,
   .vsprs k.x k.i k.a k.b k.r]

/-- Page 4 but for MPROD, which a culvert executes under a register. -/
def Fields.matrix (k : Fields) : List Instr :=
  [.mfmt k.x k.a, .mring k.x k.m k.a k.c, .mdrain k.x k.z k.a k.m, .mrst k.x k.a,
   .mma k.x k.o k.m k.n k.s k.y0 k.y1 k.y2 k.y3 k.c, .mmas k.x k.o k.m k.n k.s k.t k.y0 k.y1 k.c, .mzero k.x k.m,
   .mflag k.x k.a k.m k.y0, .mwait k.x, .mrq k.x k.a k.m k.z]

/-- Page 4: the commands of culverts and cisterns. -/
def Fields.engines (k : Fields) : List Instr :=
  [.cpy k.x k.o k.a k.b k.c, .cpyw k.x k.a k.b, .cpyq k.x k.a k.b, .xgth k.x k.o k.a k.b k.c,
   .xred k.x k.o k.a k.b k.c, .xcvt k.x k.o k.a k.b k.c]

/-- Page 4: the flumes, vector instructions. -/
def Fields.flumes (k : Fields) : List Instr :=
  [.flume k.x k.a k.b, .flumw k.x k.a k.b k.c]

/-- Page 5: what reads a general register, but for TWAIT, which a culvert executes. -/
def Fields.waits (k : Fields) : List Instr :=
  [.arrive k.x k.a k.b, .waitb k.x k.b, .barq k.x k.a k.b, .gauge k.x k.a k.b, .latq k.x k.a k.b,
   .freeze k.x k.a k.b k.c, .retireValue k.x k.a, .launch k.x k.a k.b, .signal k.x k.a k.b, .waitc k.x k.a k.b]

/-- Page 5: the others but for TDEAD and EXQ, which have a selector. -/
def Fields.ends (k : Fields) : List Instr :=
  [.retire k.x, .yield k.x]

/-- Page 6: the corpse instructions. -/
def Fields.corpses (k : Fields) : List Instr :=
  [.kill k.x k.a k.b, .mount k.x k.a k.b k.c, .clbl k.x k.a k.b k.c, .crd k.x k.a k.b k.c, .revive k.x k.a k.b k.c,
   .umnt k.x k.b]

/-- Page 6: what firmware alone executes, but for WFI, which a culvert executes too, and OWNR. -/
def Fields.firmware (k : Fields) : List Instr :=
  [.halt k.x, .trinv k.x k.a k.b k.c, .jrnl k.x k.a k.b k.c, .tsync k.x k.a k.b, .smpc k.x k.a k.b k.c,
   .dbgb k.x k.a k.b]

/-- Page 7. -/
def Fields.ciphers (k : Fields) : List Instr :=
  [.keccak k.x k.a, .aese k.x k.y0 k.a k.b, .aesd k.x k.y0 k.a k.b, .aesk k.x k.z k.a k.b, .gfmul k.x k.a k.b k.c,
   .clmul k.x k.a k.b k.c]

end Sys2Proof.Machine
end

