-- ==== Sys2Proof/Certificates/Slice0/Obligations.lean ====
section
/-! DEFINITION. The statements about the model, by the numbered rules of the manual. -/

open Sys2Proof Sys2Proof.Machine

/-! ## Page 0: integer operations and control transfer -/

/-- R78 to R80: the RR, MV, RI and LI forms; a count outside 0 to 63 of an immediate shift raises ILL whatever the predicate
says. Completes: add, sub, and, or, xor, shl, shr, sar, min, max, minz, maxz, slt, sltz, seq, mov, addi, andi, ori, xori, slti,
shli, shri, sari, li. -/
def Obligations.IntegerOpsWriteTheirResults : Prop :=
  (∀ (s : State) (x : Pfx) (a b c : RegNum), s.runs x → s.readable [c, b] →
    let u := s.gint c
    let y := s.gint b
    let k := y.toNat % 64
    let gives := fun (i : Instr) (r : Word) => writesInt i s x [c, b] a r
    gives (.add x a b c) (BitVec.ofNat 64 (u.toNat + y.toNat))
    ∧ gives (.sub x a b c) (BitVec.ofNat 64 (u.toNat + 2 ^ 64 - y.toNat))
    ∧ gives (.and x a b c) (u &&& y)
    ∧ gives (.or x a b c) (u ||| y)
    ∧ gives (.xor x a b c) (u ^^^ y)
    ∧ gives (.shl x a b c) (BitVec.ofNat 64 (u.toNat * 2 ^ k))
    ∧ gives (.shr x a b c) (BitVec.ofNat 64 (u.toNat / 2 ^ k))
    ∧ gives (.sar x a b c) (BitVec.ofInt 64 (u.toInt / 2 ^ k))
    ∧ gives (.min x a b c) (if u.toInt ≤ y.toInt then u else y)
    ∧ gives (.max x a b c) (if u.toInt ≤ y.toInt then y else u)
    ∧ gives (.minz x a b c) (if u.toNat ≤ y.toNat then u else y)
    ∧ gives (.maxz x a b c) (if u.toNat ≤ y.toNat then y else u)
    ∧ gives (.slt x a b c) (if u.toInt < y.toInt then 1 else 0)
    ∧ gives (.sltz x a b c) (if u.toNat < y.toNat then 1 else 0)
    ∧ gives (.seq x a b c) (if u = y then 1 else 0))
  ∧ (∀ (s : State) (x : Pfx) (a b : RegNum), s.runs x → s.readable [b] →
      writesReg (.mov x a b) s x [b] a (s.g b))
  ∧ (∀ (s : State) (x : Pfx) (a c : RegNum) (imm : Word), s.runs x → s.readable [c] →
    let u := s.gint c
    let gives := fun (i : Instr) (r : Word) => writesInt i s x [c] a r
    gives (.addi x a c imm) (BitVec.ofInt 64 (u.toInt + imm.toInt))
    ∧ gives (.andi x a c imm) (u &&& imm)
    ∧ gives (.ori x a c imm) (u ||| imm)
    ∧ gives (.xori x a c imm) (u ^^^ imm)
    ∧ gives (.slti x a c imm) (if u.toInt < imm.toInt then 1 else 0)
    ∧ (imm.toNat < 64 →
        gives (.shli x a c imm) (BitVec.ofNat 64 (u.toNat * 2 ^ imm.toNat))
        ∧ gives (.shri x a c imm) (BitVec.ofNat 64 (u.toNat / 2 ^ imm.toNat))
        ∧ gives (.sari x a c imm) (BitVec.ofInt 64 (u.toInt / 2 ^ imm.toNat))))
  ∧ (∀ (s : State) (x : Pfx) (a : RegNum) (imm : Word), s.runs x → writesInt (.li x a imm) s x [] a imm)
  ∧ ∀ (s : State) (x : Pfx) (a c : RegNum) (imm : Word), 64 ≤ imm.toNat →
      raises (.shli x a c imm) s ⟨cILL, 0, 0⟩ ∧ raises (.shri x a c imm) s ⟨cILL, 0, 0⟩
      ∧ raises (.sari x a c imm) s ⟨cILL, 0, 0⟩

/-- R153, R155, R156: the one rounding of a finite result. Of the exact value M × 2^E (given as its leading bits m, with a flag
for what is left below them, which has at least a bit more than the format's fraction where anything is left), what is written
is the format's nearest value, an even one on a tie, or the nearest one in the mode's direction; NX says that it differs. OF is
raised only beyond the largest finite number, and R156's table says what is then written. FTZ replaces a tiny result alone, by a
zero. -/
def Obligations.ResultsRoundToTheNearestOrDirectedValue : Prop :=
  ∀ (ty : FTy) (rm : Rm) (neg : Bool) (M j : Nat) (E lo : Int),
    let f := fmtOf ty
    let m := M / 2 ^ j
    let left := decide (M % 2 ^ j ≠ 0)
    (left = true → 2 ^ (f.fbits + 1) ≤ m) → lo ≤ E → lo ≤ 1 - (f.bias : Int) - f.fbits →
    let v := scaled neg M E lo
    let r := f.round rm false neg m (E + j) left
    let encodes := fun (bits : Nat) (y : Int) => ∃ n k e, f.read false bits = .fin n k e ∧ y = scaled n k e lo
    (r.2 &&& eOF = 0 → ∃ y, encodes r.1 y ∧ 0 ≤ y * v ∧ (r.2 &&& eNX ≠ 0 ↔ y ≠ v) ∧ ∀ bits z, encodes bits z →
      match rm with
      | .rne => (y - v).natAbs ≤ (z - v).natAbs ∧ ((z - v).natAbs = (y - v).natAbs → z = y ∨ r.1 % 2 = 0)
      | .rtz => y.natAbs ≤ v.natAbs ∧ (z.natAbs ≤ v.natAbs → z.natAbs ≤ y.natAbs)
      | .rdn => y ≤ v ∧ (z ≤ v → z ≤ y)
      | .rup => v ≤ y ∧ (v ≤ z → y ≤ z))
    ∧ (r.2 &&& eOF ≠ 0 → r.2 = eOF ||| eNX ∧ (∀ bits z, encodes bits z → z.natAbs < v.natAbs)
      ∧ r.1 = f.sign neg + (if ty = .e4m3 then 0x7E else match rm with
          | .rne => f.infBits
          | .rtz => f.infBits - 1
          | .rdn => if neg then f.infBits else f.infBits - 1
          | .rup => if neg then f.infBits - 1 else f.infBits))
    ∧ (let z := f.round rm true neg m (E + j) left
       z = r ∨ f.flushes = true ∧ z = (f.sign neg, eUF ||| eNX))

/-- R81, R104: LEA, KINC, KINCI and KCUR move a cursor, keep the tag up to one byte past the top of an unsealed capability, and
raise no fault of their own. Completes: lea, kinc, kinci, kcur. -/
def Obligations.PointersKeepTheirTagInBounds : Prop :=
  (∀ (s : State) (x : Pfx) (a b : RegNum) (off : Word), s.runs x → s.readable [b] →
     let src := if b = 0 then s.core.pcc else s.g b
     let cur : Addr := src.cursor + off.setWidth 48
     let gives := fun (r : GReg) => writesReg (.lea x a b off) s x [b] a r
     (src.tag = false → gives (intReg (s.gint b + off)))
     ∧ (src.tag = true → src.isSealed = false → (cur - src.base).toNat ≤ src.length → gives (src.setCursor cur))
     ∧ (src.tag = true → (src.isSealed = true ∨ src.length < (cur - src.base).toNat) → gives (intReg (cur.setWidth 64))))
  ∧ (∀ (s : State) (x : Pfx) (a b c : RegNum) (imm : Word), s.runs x → s.readable [c, b] →
       let src := s.g c
       let y := s.gint b
       let moved := fun (d : Int) =>
         let cur : Addr := BitVec.ofInt 48 (src.base.toNat + d)
         if src.isSealed = false ∧ 0 ≤ d ∧ d ≤ src.length then src.setCursor cur else intReg (cur.setWidth 64)
       (src.tag = false →
         writesInt (.kinc x a b c) s x [c, b] a (src.bits.setWidth 64 + y)
         ∧ writesInt (.kinci x a c imm) s x [c] a (src.bits.setWidth 64 + imm)
         ∧ writesInt (.kcur x a b c) s x [c, b] a y)
       ∧ (src.tag = true →
         writesReg (.kinc x a b c) s x [c, b] a (moved ((src.cursor - src.base).toNat + y.toInt))
         ∧ writesReg (.kinci x a c imm) s x [c] a (moved ((src.cursor - src.base).toNat + imm.toInt))
         ∧ writesReg (.kcur x a b c) s x [c, b] a
             (moved (if 2 ^ 48 ≤ y.toNat then -1 else (((y.setWidth 48 : Addr) - src.base).toNat : Int)))))

/-- R82 to R84: branches count parcels from their own first parcel; CALL, CALLR and JMPR, with the link in g30 and the checks
of a register target. Completes: br, beq, bne, blt, bge, blo, bhs, loop, call, callr, jmpr. -/
def Obligations.ControlTransfersMoveThePc : Prop :=
  ((∀ (s : State) (x : Pfx) (off : Word), s.runs x →
     exec (.br x off) s = .next ((s.after x []).ends (BitVec.ofInt 48 (s.pc.toNat + 2 * off.toInt))))
   ∧ (∀ (s : State) (x : Pfx) (a b : RegNum) (off : Word), s.runs x → s.readable [a, b] →
     let u := s.gint a
     let y := s.gint b
     let goes := fun (i : Instr) (c : Prop) [Decidable c] =>
       exec i s = .next ((s.after x [a, b]).ends (if c then BitVec.ofInt 48 (s.pc.toNat + 2 * off.toInt) else s.next x))
     goes (.beq x a b off) (u = y) ∧ goes (.bne x a b off) (u ≠ y)
     ∧ goes (.blt x a b off) (u.toInt < y.toInt) ∧ goes (.bge x a b off) (y.toInt ≤ u.toInt)
     ∧ goes (.blo x a b off) (u.toNat < y.toNat) ∧ goes (.bhs x a b off) (y.toNat ≤ u.toNat))
   ∧ ∀ (s : State) (x : Pfx) (a : RegNum) (off : Word), s.runs x → s.readable [a] →
     let n := s.gint a - 1
     exec (.loop x a off) s = .next (((s.after x [a]).setInt a n).ends
       (if n = 0 then s.next x else BitVec.ofInt 48 (s.pc.toNat + 2 * off.toInt))))
  ∧ ((∀ (s : State) (x : Pfx) (off : Word), s.runs x →
       exec (.call x off) s = .next (((s.after x []).setG 30 (s.core.pcc.setCursor (s.next x))).ends
         (BitVec.ofInt 48 (s.pc.toNat + 2 * off.toInt))))
     ∧ ∀ (s : State) (x : Pfx) (a : RegNum), s.runs x → s.readable [a] →
       let t := s.g a
       (t.tag = true → t.isSealed = false →
         exec (.callr x a) s = .next (((s.after x [a]).setG 30 (s.core.pcc.setCursor (s.next x))).setPcc t).done
         ∧ exec (.jmpr x a) s = .next ((s.after x [a]).setPcc t).done)
       ∧ (t.tag = false → raises (.callr x a) s ⟨cKTAG, 0, a.setWidth 64⟩ ∧ raises (.jmpr x a) s ⟨cKTAG, 0, a.setWidth 64⟩)
       ∧ (t.tag = true → t.isSealed = true →
         raises (.callr x a) s ⟨cKSEAL, 0, a.setWidth 64⟩ ∧ raises (.jmpr x a) s ⟨cKSEAL, 0, a.setWidth 64⟩))

/-- R95 to R97: TRAP raises SWTRAP with its code and length; RDID reads the identity; TNOW reads the zone's time. Completes:
trap, tnow, rdid. -/
def Obligations.TrapIdentityAndTime : Prop :=
  (∀ (s : State) (x : Pfx) (code : BitVec 8), s.runs x →
    raises (.trap x code) s ⟨cSWTRAP, 0, BitVec.ofNat 64 (code.toNat + 256 * (2 * x.parcels))⟩)
  ∧ (∀ (s : State) (x : Pfx) (a : RegNum), s.runs x → writesInt (.tnow x a) s x [] a s.now)
  ∧ (∀ (s : State) (x : Pfx) (a : RegNum), s.runs x →
    let id := s.core.ident
    let reads := fun (sel : BitVec 4) (v : Word) => writesInt (.rdid x a sel) s x [] a v
    (∀ c, s.core.agent = .core c → reads 0 (c.core.setWidth 64)
        ∧ reads 1 (BitVec.ofNat 64 (c.core.toNat / 64 * 8 + c.core.toNat % 32 / 4)) ∧ reads 2 (c.die.setWidth 64))
    ∧ reads 3 (s.device.setWidth 64) ∧ reads 4 (BitVec.ofNat 64 id.item) ∧ reads 5 (BitVec.ofNat 64 id.items)
    ∧ reads 6 (id.task.setWidth 64) ∧ reads 7 (s.core.owner.setWidth 64) ∧ reads 8 (id.level.setWidth 64) ∧ reads 9 id.step
    ∧ reads 10 (BitVec.ofNat 64 id.team) ∧ reads 11 (BitVec.ofNat 64 id.slot) ∧ reads 12 (s.feed.setWidth 64)
    ∧ reads 13 (id.cls.setWidth 64))
  ∧ ∀ (s : State) (x : Pfx) (a : RegNum) (sel : BitVec 4), 14 ≤ sel.toNat → raises (.rdid x a sel) s ⟨cILL, 0, 0⟩

/-! ## Page 0: memory -/

/-- R85 to R87, R346: LD, LDZ, LDX and LDK read the bytes at their checked place; nothing else changes but what the walk
buffers. A load of host or peer memory waits for its completion, and goes on with what it returned, untagged. Completes: ld,
ldz, ldx, ldk. -/
def Obligations.LoadsReadTheirBytes : Prop :=
  (∀ (s : State) (x : Pfx) (o : Sys2Proof.Ordering) (size : BitVec 2) (a b c : RegNum) (off : Word) (p : Place),
    s.runs x → s.quiet → s.core.begins = true → isAway p.loc = false →
    let cap := s.g b
    let n := 2 ^ size.toNat
    let ea : Addr := cap.cursor + off.setWidth 48
    let gives := fun (i : Instr) (rs : List RegNum) (r : GReg) =>
      exec i s = .next ((((s.after x rs).fillTlb p).setG a r).ends (s.next x))
    let v := natOf (s.placeBytes p n)
    (s.readable [b] → s.access (memAccess cap b ea n).load = .ok p →
      gives (.ld x o size a b off) [b] (intReg (BitVec.ofInt 64 (signedOf n v)))
      ∧ gives (.ldz x o size a b off) [b] (intReg (BitVec.ofNat 64 v)))
    ∧ (s.readable [b, c] → s.access (indexAccess cap b (s.gint c) n off).load = .ok p →
      gives (.ldx x o size a b c off) [b, c, b] (intReg (BitVec.ofInt 64 (signedOf n v))))
    ∧ (s.readable [b] → s.access (memAccess cap b ea 16).load = .ok p →
      let w := natOf (s.placeBytes p 16)
      (s.placeTag p = true → cap.permK = true → gives (.ldk x o a b off) [b] ⟨BitVec.ofNat 128 w, true⟩)
      ∧ ((s.placeTag p = false ∨ cap.permK = false) → gives (.ldk x o a b off) [b] (intReg (BitVec.ofNat 64 w)))))
  ∧ (∀ (s : State) (x : Pfx) (o : Sys2Proof.Ordering) (size : BitVec 2) (a b c : RegNum) (off : Word) (p : Place),
      s.runs x → s.quiet → s.core.begins = true → isAway p.loc = true → s.awayRefused s.core.owner p.loc = none →
      s.peerHeld p.loc = false →
      let ea : Addr := (s.g b).cursor + off.setWidth 48
      let n := 2 ^ size.toNat
      let waits := fun (i : Instr) (rs : List RegNum) (n : Nat) =>
        let u := (s.after x rs).fillTlb p
        exec i s = .next (u.waits (.host [u.request p n none]))
      (s.readable [b] → s.access (memAccess (s.g b) b ea n).load = .ok p →
        waits (.ld x o size a b off) [b] n ∧ waits (.ldz x o size a b off) [b] n)
      ∧ (s.readable [b, c] → s.access (indexAccess (s.g b) b (s.gint c) n off).load = .ok p →
        waits (.ldx x o size a b c off) [b, c, b] n)
      ∧ (s.readable [b] → s.access (memAccess (s.g b) b ea 16).load = .ok p → waits (.ldk x o a b off) [b] 16))
  ∧ ∀ (s : State) (x : Pfx) (o : Sys2Proof.Ordering) (size : BitVec 2) (a b c : RegNum) (off : Word) (r : Request) (bytes : List Byte),
      s.runs x → s.core.wait = some (.host [r]) → r.answer = some (.returned bytes) →
      let v := natOf bytes
      (s.readable [b] → writesInt (.ld x o size a b off) s x [b] a (BitVec.ofInt 64 (signedOf (2 ^ size.toNat) v))
        ∧ writesInt (.ldz x o size a b off) s x [b] a (BitVec.ofNat 64 (v % 2 ^ (8 * 2 ^ size.toNat)))
        ∧ writesInt (.ldk x o a b off) s x [b] a (BitVec.ofNat 64 v))
      ∧ (s.readable [b, c] → writesInt (.ldx x o size a b c off) s x [b, c, b] a (BitVec.ofInt 64 (signedOf (2 ^ size.toNat) v)))

/-- R58, R85 to R87: ST, STX and STK write their bytes at their checked place and nothing else. Completes: st, stx, stk. -/
def Obligations.StoresWriteTheirBytesAlone : Prop :=
  ∀ (s : State) (x : Pfx) (o : Sys2Proof.Ordering) (size : BitVec 2) (a b c : RegNum) (off : Word) (p : Place),
    s.runs x → s.plainMemory → p.inModule →
    let cap := s.g b
    let n := 2 ^ size.toNat
    let ea : Addr := cap.cursor + off.setWidth 48
    let stores := fun (i : Instr) (bytes : List Byte) (tag : Bool) =>
      ∃ t, exec i s = .next t ∧ Stored s t p bytes tag ∧ Untouched {} s t ∧ t.pc = s.next x
    (s.readable [b, a] → s.access (memAccess cap b ea n).store = .ok p →
      stores (.st x o size a b off) (bytesOf n (s.gint a).toNat) false)
    ∧ (s.readable [b, c, a] → s.access (indexAccess cap b (s.gint c) n off).store = .ok p →
      stores (.stx x o size a b c off) (bytesOf n (s.gint a).toNat) false)
    ∧ (s.readable [b, a] → s.access ((memAccess cap b ea 16).storeCap (s.g a).tag) = .ok p → p.loc % 16 = 0 →
      stores (.stk x o a b off) (bytesOf 16 (s.g a).bits.toNat) (s.g a).tag)

/-- R90, R92: every atomic reads, modifies and writes its place in one step, and A takes the old value; a failed ACAS writes
nothing. Completes: aadd, aand, aor, axor, amin, amax, aswp, acas. -/
def Obligations.AtomicsReadModifyWrite : Prop :=
  ∀ (s : State) (x : Pfx) (o : Sys2Proof.Ordering) (wide : Bool) (a b c : RegNum) (off : Word) (p : Place),
    s.runs x → s.plainMemory → p.inModule → s.core.begins = true → s.readable [b, c] →
    let n := if wide then 8 else 4
    s.access (memAccess (s.g b) b ((s.g b).cursor + off.setWidth 48) n).atomic = .ok p →
    let old := natOf (s.placeBytes p n)
    let w := (s.gint c).toNat % 2 ^ (8 * n)
    let ends := fun (t : State) =>
      (a ≠ 0 → t.g a = intReg (BitVec.ofInt 64 (signedOf n old))) ∧ Untouched { g := [a] } s t ∧ t.pc = s.next x
    let does := fun (i : Instr) (new : Nat) => ∃ t, exec i s = .next t ∧ Stored s t p (bytesOf n new) false ∧ ends t
    does (.aadd x o wide a b c off) (old + w)
    ∧ does (.aand x o wide a b c off) (old &&& w)
    ∧ does (.aor x o wide a b c off) (old ||| w)
    ∧ does (.axor x o wide a b c off) (old ^^^ w)
    ∧ does (.amin x o wide a b c off) (if signedOf n w < signedOf n old then w else old)
    ∧ does (.amax x o wide a b c off) (if signedOf n old < signedOf n w then w else old)
    ∧ does (.aswp x o wide a b c off) w
    ∧ (s.readable [a] →
        (old = (s.gint a).toNat % 2 ^ (8 * n) → does (.acas x o wide a b c off) w)
        ∧ (old ≠ (s.gint a).toNat % 2 ^ (8 * n) →
            ∃ t, exec (.acas x o wide a b c off) s = .next t ∧ SameMemory s t ∧ ends t))

/-- R89, R216, R217, R220: a feasible STAT is accepted with its value and its visible-at time and changes no byte; an
infeasible one raises DLINF. LDNB reads once its home's zone has reached T, and waits before; one of a peer goes out to its
home at once, which answers it; where its place is no home, the zone of its agent counts. Completes: stat, ldnb. -/
def Obligations.TimedFormsWaitForTheirTime : Prop :=
  ∀ (s : State) (x : Pfx) (o : Sys2Proof.Ordering) (size : BitVec 3) (a b c : RegNum) (off : Word) (p : Place),
    s.runs x → s.quiet → s.core.begins = true →
    let n := if size = 4 then 16 else 2 ^ (size.toNat % 4)
    let ea : Addr := (s.g b).cursor + off.setWidth 48
    let t := s.gint c
    (s.readable [b, a, c] →
      let tag := size = 4 && (s.g a).tag
      s.access ((memAccess (s.g b) b ea n).storeCap tag) = .ok p → p.inModule →
      (∀ lat, s.latency p = some lat → s.now.toNat + lat ≤ t.toNat →
        (s.hold = false ∨ o.ord.getLsbD 0 = false ∧ p.sc = false) →
        ∃ u y, exec (.stat x o size a b c off) s = .next u ∧ u.timed = s.timed ++ [y] ∧ y.loc = p.loc
          ∧ y.bytes = bytesOf n (s.g a).bits.toNat ∧ y.t = t ∧ y.cap = (tag && holdsTags p.loc)
          ∧ (∀ l, u.byteAt l = s.byteAt l) ∧ Untouched {} s u ∧ u.pc = s.next x)
      ∧ (∀ lat, s.latency p = some lat → t.toNat < s.now.toNat + lat →
        raises (.stat x o size a b c off) s ⟨cDLINF, p.va.setWidth 64, dlinfDetail t s.now (some lat)⟩)
      ∧ (s.latency p = none →
        raises (.stat x o size a b c off) s ⟨cDLINF, p.va.setWidth 64, dlinfDetail t s.now none⟩))
    ∧ (s.readable [b, c] → s.access (memAccess (s.g b) b ea n).load = .ok p → isAway p.loc = false →
      let u := (s.after x [b, c]).fillTlb p
      let zone := match s.homeDie p with | some d => (s.dieAt d).atime | none => s.now
      (zone < t → exec (.ldnb x o size a b c off) s = .next (match s.homeDie p with
        | some _ => u.waits (.notBefore t [u.request p n none])
        | none => s.waits (.notBefore t [])))
      ∧ (t ≤ zone →
        let v := natOf (s.placeBytes p n)
        let r := if size = 4 then (if s.placeTag p && (s.g b).permK then ⟨BitVec.ofNat 128 v, true⟩ else intReg (BitVec.ofNat 64 v))
          else intReg (BitVec.ofInt 64 (signedOf n v))
        exec (.ldnb x o size a b c off) s = .next ((u.setG a r).ends (s.next x))))
    ∧ (s.readable [b, c] → s.access (memAccess (s.g b) b ea n).load = .ok p → isAway p.loc = true → s.homeDie p = none →
      s.awayRefused s.core.owner p.loc = none → s.peerHeld p.loc = false →
      let u := (s.after x [b, c]).fillTlb p
      let sent := u.waits (.notBefore t [u.request p n none])
      (isPeerLoc p.loc = true → exec (.ldnb x o size a b c off) s = .next sent)
      ∧ (isHostLoc p.loc = true → s.now < t → exec (.ldnb x o size a b c off) s = .next (s.waits (.notBefore t [])))
      ∧ (isHostLoc p.loc = true → t ≤ s.now → exec (.ldnb x o size a b c off) s = .next sent))

/-- R94: PUSHS and POPS check every slot before any moves, gF at the lowest address, and move the cursor of g29. Completes:
pushs, pops. -/
def Obligations.SumpMovesAreAllOrNothing : Prop :=
  ∀ (s : State) (x : Pfx) (f l : RegNum), s.runs x →
    (l.toNat < f.toNat ∨ f.toNat ≤ 29 ∧ 29 ≤ l.toNat →
      raises (.pushs x f l) s ⟨cILL, 0, 0⟩ ∧ raises (.pops x f l) s ⟨cILL, 0, 0⟩)
    ∧ (f.toNat ≤ l.toNat → (29 < f.toNat ∨ l.toNat < 29) →
      let rs := (upFrom f.toNat (l.toNat + 1 - f.toNat)).map (BitVec.ofNat 5)
      let sp := s.g 29
      let new := sp.cursor - BitVec.ofNat 48 (16 * rs.length)
      (s.readable (29 :: rs) →
        let s1 := s.after x (29 :: rs)
        let as := slotAccesses sp new (fun v a => a.storeCap v.tag) (rs.map s.g)
        (∀ s2 ps, s1.checkEach as = .ok (s2, ps) →
          (s.busMaster s.core.owner = true ∨ (∀ p ∈ ps, isHostLoc p.loc = false) → (∀ p ∈ ps, s.peerHeld p.loc = false) →
            exec (.pushs x f l) s =
            .next ((((List.zip ps (rs.map s.g)).foldl (fun u q => u.store q.1 q.2.bytes q.2.tag) s2).setG 29
              (sp.setCursor new)).ends (s.next x)))
          ∧ (∀ p, s.busMaster s.core.owner = false → (∀ p ∈ ps, s.peerHeld p.loc = false) →
            ps.find? (fun p => isHostLoc p.loc) = some p →
            raises (.pushs x f l) s ⟨cHOST, p.va.setWidth 64, 0x20⟩))
        ∧ (∀ t, s1.checkEach as = .error (.trap t) → raises (.pushs x f l) s t))
      ∧ (s.readable [29] → s.quiet → s.core.begins = true →
        let s1 := s.after x [29]
        let as := slotAccesses sp sp.cursor (fun _ a => a.load) (rs.map fun _ => .null)
        (∀ s2 ps, s1.checkEach as = .ok (s2, ps) → (∀ p ∈ ps, isAway p.loc = false) →
          exec (.pops x f l) s = .next ((((List.zip ps rs).foldl
            (fun u q => u.setG q.2 (regOf (s2.placeBytes q.1 16) (s2.placeTag q.1 && sp.permK))) s2).setG 29
              (sp.setCursor (sp.cursor + BitVec.ofNat 48 (16 * rs.length)))).ends (s.next x)))
        ∧ (∀ t, s1.checkEach as = .error (.trap t) → raises (.pops x f l) s t)))

/-- R128, R133 to R135: every FENCE with an ordering completes, and so does FENCE.I, in every state. A release or sequential
one performs the accesses of its agent that the scope covers, after those that they follow, and leaves none of them on its way
but what a home refuses after a freeze instant (R361), and no timed store that its home has not buffered; an acquire has
nothing to wait for; FENCE.I waits for all of the agent's stores and drops its cached parcels. While no sector is bad (an
uncorrectable sector under a store in part adds its imprecise fault), memory then holds what the performed accesses leave,
every line that none of them writes is as before, and no register has changed. FENCE without ORD raises ILL. Completes: fence,
fenceI. -/
def Obligations.FencesDrainTheirScope : Prop :=
  let drained := fun (s t : State) (scope : BitVec 3) =>
    ∃ done : List Flight, done.Sublist s.flights
    ∧ (∀ f ∈ s.flights, f.agent = s.core.agent → scopeCovers scope f.loc = true → s.refuses f = false → f ∈ done)
    ∧ (∀ f ∈ t.flights, f ∈ s.flights ∧ (f.agent = s.core.agent → scopeCovers scope f.loc = true → s.refuses f = true))
    ∧ (∀ y ∈ t.timed, y.issuedBy s s.core.agent = true → (y.peer = none ∨ 4 ≤ scope.toNat) → y.arrival.isSome = true)
    ∧ (s.bad = [] → Untouched {} s t
      ∧ (∀ l, t.byteAt l = (s.performAll done).byteAt l ∧ t.tagAt l = (s.performAll done).tagAt l
          ∧ t.colourAt l = (s.performAll done).colourAt l)
      ∧ ∀ l, (∀ f ∈ done, f.colour = none → l / 64 < f.loc / 64 ∨ (f.loc + f.bytes.length - 1) / 64 < l / 64) →
          t.byteAt l = s.byteAt l)
  (∀ (s : State) (x : Pfx) (o : Sys2Proof.Ordering), s.runs x →
    (o.ord = 0 → raises (.fence x o) s ⟨cILL, 0, 0⟩)
    ∧ (o.ord = 1 → exec (.fence x o) s = .next ((s.after x []).ends (s.next x)))
    ∧ (o.ord = 2 ∨ o.ord = 3 → ∃ t, exec (.fence x o) s = .next t ∧ t.pc = s.next x ∧ drained s t o.scope))
  ∧ ∀ (s : State) (x : Pfx), s.runs x →
      ∃ t, exec (.fenceI x) s = .next t ∧ t.pc = s.next x ∧ drained s t 5 ∧ t.core.icache = []

/-- R49, R59, R67, R137: the checks of an access come in their order, the first that fails names the fault, and every form of
memory instruction raises it precisely; PUSHS and POPS are stated with their effect. That a redirected access is checked against
g29's permissions at step 6 is the model's reading (log entry 91), and so is that its fault names the address at which it is
performed (log entry 10). -/
def Obligations.ChecksComeInTheirOrder : Prop :=
  (∀ (s : State) (a : Access),
     let cap := a.cap
     let perms := (a.r = true → cap.permR = true) ∧ (a.w = true → cap.permW = true) ∧ (a.x = true → cap.permX = true)
       ∧ (a.k = true → cap.permK = true) ∧ (a.t = true → cap.permT = true)
     let fails := fun (code : BitVec 8) => ∃ k e, s.access a = .error (k, e) ∧ e.code = code ∧ e.addr = a.ea.setWidth 64
     (cap.tag = false → fails cKTAG)
     ∧ (cap.tag = true → cap.isSealed = true → fails cKSEAL)
     ∧ (cap.tag = true → cap.isSealed = false → ¬perms → fails cKPRM)
     ∧ (cap.tag = true → cap.isSealed = false → perms → a.inB = false → fails cKBND)
     ∧ (cap.tag = true → cap.isSealed = false → perms → a.inB = true → s.exemplarStore a = false →
         (a.ea.toNat % a.align ≠ 0 → fails cALIGN)
         ∧ (a.ea.toNat % a.align = 0 → 2 ^ 48 - 2 ^ 31 ≤ a.ea.toNat → s.redirect a.ea = none → fails cSUMP)
         ∧ (∀ va, a.ea.toNat % a.align = 0 → 2 ^ 48 - 2 ^ 31 ≤ a.ea.toNat → s.redirect a.ea = some va →
             (a.x = true ∨ a.t = true) → ∃ k e, s.access a = .error (k, e) ∧ e.code = cKPRM ∧ e.addr = va.setWidth 64)))
  ∧ (∀ (s : State) (x : Pfx) (o : Sys2Proof.Ordering) (size : BitVec 2) (sz : BitVec 3) (wide : Bool) (a b c : RegNum) (off : Word)
       (k : Nat) (t : Trap), s.runs x → s.readable [a, b, c] → s.core.begins = true →
       let cap := s.g b
       let n := 2 ^ size.toNat
       let m := if wide then 8 else 4
       let ea : Addr := cap.cursor + off.setWidth 48
       (s.access (memAccess cap b ea n).load = .error (k, t) →
         raises (.ld x o size a b off) s t ∧ raises (.ldz x o size a b off) s t)
       ∧ (s.access (memAccess cap b ea n).store = .error (k, t) → raises (.st x o size a b off) s t)
       ∧ (s.access (indexAccess cap b (s.gint c) n off).load = .error (k, t) → raises (.ldx x o size a b c off) s t)
       ∧ (s.access (indexAccess cap b (s.gint c) n off).store = .error (k, t) → raises (.stx x o size a b c off) s t)
       ∧ (s.access (memAccess cap b ea 16).load = .error (k, t) → raises (.ldk x o a b off) s t)
       ∧ (s.access ((memAccess cap b ea 16).storeCap (s.g a).tag) = .error (k, t) → raises (.stk x o a b off) s t)
       ∧ (let tn := if sz = 4 then 16 else 2 ^ (sz.toNat % 4)
         (s.access ((memAccess cap b ea tn).storeCap (sz = 4 && (s.g a).tag)) = .error (k, t) → raises (.stat x o sz a b c off) s t)
         ∧ (s.access (memAccess cap b ea tn).load = .error (k, t) → raises (.ldnb x o sz a b c off) s t))
       ∧ (s.access (memAccess cap b ea m).atomic = .error (k, t) →
         raises (.aadd x o wide a b c off) s t ∧ raises (.aand x o wide a b c off) s t
         ∧ raises (.aor x o wide a b c off) s t ∧ raises (.axor x o wide a b c off) s t
         ∧ raises (.amin x o wide a b c off) s t ∧ raises (.amax x o wide a b c off) s t
         ∧ raises (.aswp x o wide a b c off) s t ∧ raises (.acas x o wide a b c off) s t))

/-! ## Page 1 -/

/-- R100, R101, R119: multiply, divide, the bit instructions, and SRND with the manual's three examples. Completes: mul, mulh,
mulhz, div, divz, rem, remz, bext, rotl, rotr, clz, ctz, popc, brev, bswp, bins, sel, srnd. -/
def Obligations.MultiplyDivideBitsAndDraws : Prop :=
  ((∀ (s : State) (x : Pfx) (a b c : RegNum), s.runs x → s.readable [c, b] →
     let u := s.gint c
     let y := s.gint b
     let gives := fun (i : Instr) (r : Word) => writesInt i s x [c, b] a r
     let pos := y.toNat % 64
     let w := min (y.toNat / 256 % 128) 64
     gives (.mul x a b c) (BitVec.ofNat 64 (u.toNat * y.toNat))
     ∧ gives (.mulh x a b c) (BitVec.ofInt 64 (u.toInt * y.toInt / 2 ^ 64))
     ∧ gives (.mulhz x a b c) (BitVec.ofNat 64 (u.toNat * y.toNat / 2 ^ 64))
     ∧ gives (.div x a b c) (if y = 0 then BitVec.allOnes 64 else BitVec.ofInt 64 (u.toInt.tdiv y.toInt))
     ∧ gives (.divz x a b c) (if y = 0 then BitVec.allOnes 64 else BitVec.ofNat 64 (u.toNat / y.toNat))
     ∧ gives (.rem x a b c) (if y = 0 then u else BitVec.ofInt 64 (u.toInt - y.toInt * u.toInt.tdiv y.toInt))
     ∧ gives (.remz x a b c) (if y = 0 then u else BitVec.ofNat 64 (u.toNat % y.toNat))
     ∧ gives (.bext x a b c) (BitVec.ofNat 64 (u.toNat / 2 ^ pos % 2 ^ w))
     ∧ gives (.rotl x a b c) (u.rotateLeft pos)
     ∧ gives (.rotr x a b c) (u.rotateRight pos))
   ∧ (∀ (s : State) (x : Pfx) (a b : RegNum), s.runs x → s.readable [b] →
     let u := s.gint b
     let is := fun (i : Instr) (good : Word → Prop) => ∃ r, writesInt i s x [b] a r ∧ good r
     is (.clz x a b) (fun r => (u = 0 → r = 64) ∧ (u ≠ 0 → r.toNat = 63 - u.toNat.log2))
     ∧ is (.ctz x a b) (fun r => (u = 0 → r = 64) ∧ (u ≠ 0 → u.toNat % 2 ^ (r.toNat + 1) = 2 ^ r.toNat))
     ∧ is (.popc x a b) (fun r => r.toNat = ((List.range 64).filter fun i => u.getLsbD i).length)
     ∧ is (.brev x a b) (fun r => ∀ i, i < 64 → r.getLsbD i = u.getLsbD (63 - i))
     ∧ is (.bswp x a b) (fun r => ∀ j, j < 8 → r.extractLsb' (8 * j) 8 = u.extractLsb' (8 * (7 - j)) 8))
   ∧ (∀ (s : State) (x : Pfx) (a b c : RegNum), s.runs x → s.readable [a, c, b] →
     let z := s.gint a
     let u := s.gint c
     let y := s.gint b
     let pos := y.toNat % 64
     let w := min (y.toNat / 256 % 128) 64
     (∃ r, writesInt (.bins x a b c) s x [a, c, b] a r
       ∧ ∀ i, i < 64 → r.getLsbD i = if pos ≤ i ∧ i < pos + w then u.getLsbD (i - pos) else z.getLsbD i)
     ∧ writesReg (.sel x a b c) s x [a, c, b] a (if z ≠ 0 then s.g c else s.g b)))
  ∧ ((∀ (s : State) (x : Pfx) (a b c : RegNum), s.runs x → s.readable [c, b] →
       let z0 := s.gint c * 0x9E3779B97F4A7C15 + s.gint b
       let z1 := (z0 ^^^ (z0 >>> 30)) * 0xBF58476D1CE4E5B9
       let z2 := (z1 ^^^ (z1 >>> 27)) * 0x94D049BB133111EB
       let z3 := z2 ^^^ (z2 >>> 31)
       writesInt (.srnd x a b c) s x [c, b] a (z3 >>> 32))
     ∧ draw 1 0 = 0xE220A839 ∧ draw 2 0 = 0x6E789E6A ∧ draw 0 0 = 0)

/-- R105 to R109: narrowing, permissions, colour, seals, reading and comparing capabilities, and the faults that they name, in
their order. Completes: kbnd, kprm, kcol, kuns, kseal, ktst, kclr, kget. -/
def Obligations.CapabilitiesOnlyNarrow : Prop :=
  ∀ (s : State) (x : Pfx) (a b c : RegNum) (sel : BitVec 4), s.runs x → s.readable [c, b] →
    let src := s.g c
    let auth := s.g b
    let y := s.gint b
    let at_ := fun (n : RegNum) => (n.setWidth 64 : Word)
    let good := src.tag = true ∧ src.isSealed = false
    let inside := (src.base - auth.base).toNat + src.length ≤ auth.length ∧ src.perms &&& auth.perms = src.perms
      ∧ src.colour = auth.colour
    let derived := src.tag = true ∧ auth.tag = true ∧ src.isSealed = false ∧ auth.isSealed = false
      ∧ (auth.base - src.base).toNat + auth.length ≤ src.length ∧ auth.perms &&& src.perms = auth.perms
      ∧ auth.colour = src.colour
    (src.tag = false →
      raises (.kbnd x a b c) s ⟨cKTAG, 0, at_ c⟩ ∧ raises (.kprm x a b c) s ⟨cKTAG, 0, at_ c⟩
      ∧ raises (.kcol x a b c) s ⟨cKTAG, 0, at_ c⟩ ∧ raises (.kuns x a b c) s ⟨cKTAG, 0, at_ c⟩)
    ∧ (src.tag = true → src.isSealed = true →
      raises (.kbnd x a b c) s ⟨cKSEAL, 0, at_ c⟩ ∧ raises (.kprm x a b c) s ⟨cKSEAL, 0, at_ c⟩
      ∧ raises (.kcol x a b c) s ⟨cKSEAL, 0, at_ c⟩)
    ∧ (good → ∀ m : BitVec 16, ∀ e : BitVec 6, lengthCode y.toNat = (m, e) →
      (y.toNat ≤ 2 ^ 48 → (src.cursor - src.base).toNat + (m.toNat <<< e.toNat) ≤ src.length →
        writesReg (.kbnd x a b c) s x [c, b] a (mkCap src.colour false src.perms m e src.cursor src.cursor))
      ∧ (2 ^ 48 < y.toNat ∨ src.length < (src.cursor - src.base).toNat + (m.toNat <<< e.toNat) →
        raises (.kbnd x a b c) s ⟨cKBND, 0, at_ c⟩))
    ∧ (good → writesReg (.kprm x a b c) s x [c, b] a
        (mkCap src.colour false (src.perms &&& y.setWidth 5) src.m src.e src.base src.cursor))
    ∧ (good → (src.permT = true ∨ (y.setWidth 4 : BitVec 4) = src.colour) → writesReg (.kcol x a b c) s x [c, b] a
        (mkCap (y.setWidth 4) false src.perms src.m src.e src.base src.cursor))
    ∧ (good → src.permT = false → (y.setWidth 4 : BitVec 4) ≠ src.colour → raises (.kcol x a b c) s ⟨cKPRM, 0, at_ c⟩)
    ∧ (auth.tag = true → writesReg (.kseal x a b) s x [b] a
        (mkCap auth.colour true auth.perms auth.m auth.e auth.base auth.cursor))
    ∧ (auth.tag = false → raises (.kseal x a b) s ⟨cKTAG, 0, at_ b⟩)
    ∧ (src.tag = true → auth.tag = false → raises (.kuns x a b c) s ⟨cKTAG, 0, at_ b⟩)
    ∧ (src.tag = true → auth.tag = true → auth.isSealed = true → raises (.kuns x a b c) s ⟨cKSEAL, 0, at_ b⟩)
    ∧ (src.tag = true → auth.tag = true → auth.isSealed = false →
        (inside → writesReg (.kuns x a b c) s x [c, b] a
          (mkCap src.colour false src.perms src.m src.e src.base src.cursor))
        ∧ (¬inside → raises (.kuns x a b c) s ⟨cKPRM, 0, at_ b⟩))
    ∧ (derived → writesInt (.ktst x a b c) s x [c, b] a 1) ∧ (¬derived → writesInt (.ktst x a b c) s x [c, b] a 0)
    ∧ writesInt (.kclr x a b) s x [b] a y
    ∧ (9 ≤ sel.toNat → raises (.kget x a c sel) s ⟨cILL, 0, 0⟩)
    ∧ (let reads := fun (sel : BitVec 4) (v : Word) => writesInt (.kget x a c sel) s x [c] a v
      reads 0 (src.cursor.setWidth 64) ∧ reads 1 (src.base.setWidth 64) ∧ reads 2 (BitVec.ofNat 64 (src.m.toNat * 2 ^ src.e.toNat))
      ∧ reads 3 (((src.cursor - src.base : Addr)).setWidth 64) ∧ reads 4 ((src.bits.extractLsb' 118 6).setWidth 64)
      ∧ reads 5 (src.colour.setWidth 64) ∧ reads 6 (if src.tag then 1 else 0) ∧ reads 7 (src.e.setWidth 64)
      ∧ reads 8 (src.m.setWidth 64))

/-- R110: STG colours every granule of its run and changes no byte and no tag; LDG reads the colours of its run; both check the
whole run first, and raise TRANS where a granule holds no colour. Completes: stg, ldg. -/
def Obligations.ColoursOfARun : Prop :=
  ∀ (s : State) (x : Pfx) (a b : RegNum), s.runs x → s.readable [b, a] →
    let cap := s.g b
    let run := fun (n : Nat) (mk : Access → Access) => (List.range n).map fun j =>
      { mk (memAccess cap b (cap.cursor + BitVec.ofNat 48 (32 * j)) 32) with colour := false, inB := cap.inBounds cap.cursor (32 * n) }
    let stg := run (1 + (s.gint a).toNat / 16 % 16) (fun k => { k with w := true, t := true })
    let ldg := run (1 + (s.gint a).toNat % 16) Access.load
    let s1 := s.after x [b, a]
    (∀ s2 ps, s1.checkAll stg = .ok (s2, ps) → s.plainMemory → assocSorted s.colours = true →
      (∀ p ∈ ps, p.inModule ∧ (p.region = .dev ∨ p.region = .sram ∨ p.region = .spad)) → (∀ p ∈ ps, holdsColours p.loc = true) →
      ∃ t, exec (.stg x a b) s = .next t ∧ t.pc = s.next x ∧ Untouched {} s t
        ∧ (∀ p ∈ ps, t.colourAt p.loc = (s.gint a).setWidth 4)
        ∧ (∀ l, (∀ p ∈ ps, p.loc / 32 ≠ l / 32) → t.colourAt l = s.colourAt l)
        ∧ (∀ l, t.byteAt l = s.byteAt l) ∧ (∀ l, t.tagAt l = s.tagAt l))
    ∧ (∀ s2 ps, s1.checkAll ldg = .ok (s2, ps) → s.quiet →
      (∀ p ∈ ps, p.inModule ∧ (p.region = .dev ∨ p.region = .sram ∨ p.region = .spad)) →
      exec (.ldg x a b) s = .next ((s2.setInt a (BitVec.ofNat 64
        ((ps.foldr (fun p v => (s.colourAt p.loc).toNat + 16 * v) 0)))).ends (s.next x)))
    ∧ (∀ s2 ps p, s1.checkAll stg = .ok (s2, ps) → ps.find? uncoloured = some p → raises (.stg x a b) s ⟨cTRANS, p.va.setWidth 64, 12⟩)
    ∧ (∀ s2 ps p, s1.checkAll ldg = .ok (s2, ps) → ps.find? uncoloured = some p → raises (.ldg x a b) s ⟨cTRANS, p.va.setWidth 64, 12⟩)
    ∧ (∀ t, s1.checkAll stg = .error (.trap t) → raises (.stg x a b) s t)
    ∧ (∀ t, s1.checkAll ldg = .error (.trap t) → raises (.ldg x a b) s t)

/-- R112 to R115: a floating operation computes on the values of its registers, rounds once, ORs its exceptions into FCSR, and
writes its result with zeros above it; with an exception enabled it raises FPX and leaves A and FCSR. Completes: fadd, fsub,
fmul, fdiv, ffma, fsqrt, fmin, fmax, feq, flt, fle. -/
def Obligations.FloatingOpsRoundOnceAndStick : Prop :=
  ∀ (s : State) (x : Pfx) (t : FTy) (a b c : RegNum), s.runs x → s.readable [c, b, a] →
    let f := fmtOf t
    let rm := fcsrRm s.core.csr.fcsr
    let ftz := fcsrFtz s.core.csr.fcsr
    let val := fun n => f.read ftz (s.gint n).toNat
    let gives := fun (i : Instr) (rs : List RegNum) (bits : Nat) (e : Exc) =>
      (e &&& fcsrEnables s.core.csr.fcsr = 0 → exec i s = .next
        ((((s.after x rs).setFcsr (fcsrRaise s.core.csr.fcsr e)).setInt a (BitVec.ofNat 64 bits)).ends (s.next x)))
      ∧ (e &&& fcsrEnables s.core.csr.fcsr ≠ 0 → raises i s ⟨cFPX, 0, e.setWidth 64⟩)
    let rounds := fun (i : Instr) (rs : List RegNum) (r : Exact) => gives i rs (f.finish rm ftz r).1 (f.finish rm ftz r).2
    rounds (.fadd x t a b c) [c, b] ((val c).add rm (val b))
    ∧ rounds (.fsub x t a b c) [c, b] ((val c).add rm (val b).neg)
    ∧ rounds (.fmul x t a b c) [c, b] ((val c).mul (val b))
    ∧ rounds (.fdiv x t a b c) [c, b] ((val c).div (val b))
    ∧ rounds (.ffma x t a b c) [c, b, a] ((val c).fma rm (val b) (val a))
    ∧ rounds (.fsqrt x t a b) [b] (val b).sqrt
    ∧ gives (.fmin x t a b c) [c, b] (f.write ((val c).min (val b)).1) ((val c).min (val b)).2
    ∧ gives (.fmax x t a b c) [c, b] (f.write ((val c).max (val b)).1) ((val c).max (val b)).2
    ∧ gives (.feq x t a b c) [c, b] (if ((val c).eqF (val b)).1 then 1 else 0) ((val c).eqF (val b)).2
    ∧ gives (.flt x t a b c) [c, b] (if ((val c).ltF (val b)).1 then 1 else 0) ((val c).ltF (val b)).2
    ∧ gives (.fle x t a b c) [c, b] (if ((val c).leF (val b)).1 then 1 else 0) ((val c).leF (val b)).2

/-- R116: the conversions, with their saturation, their NaN and their flags. Completes: fcvti, fcvtf, fcvtw. -/
def Obligations.ScalarConversions : Prop :=
  ∀ (s : State) (x : Pfx) (src dst : FTy) (it : ITy) (rtz : Bool) (a b : RegNum), s.runs x → s.readable [b] →
    let rm := fcsrRm s.core.csr.fcsr
    let ftz := fcsrFtz s.core.csr.fcsr
    let v := (fmtOf src).read ftz (s.gint b).toNat
    let gives := fun (i : Instr) (r : Word) (e : Exc) =>
      (e &&& fcsrEnables s.core.csr.fcsr = 0 → exec i s = .next
        ((((s.after x [b]).setFcsr (fcsrRaise s.core.csr.fcsr e)).setInt a r).ends (s.next x)))
      ∧ (e &&& fcsrEnables s.core.csr.fcsr ≠ 0 → raises i s ⟨cFPX, 0, e.setWidth 64⟩)
    let n := v.toInt (if rtz then .rtz else rm) (ITy.minVal it) (ITy.maxVal it)
    gives (.fcvti x src it rtz a b) (BitVec.ofInt 64 n.1) n.2
    ∧ (v.isNan = true → n = (0, eNV))
    ∧ (ITy.minVal it ≤ n.1 ∨ v.isNan = true) ∧ (n.1 ≤ ITy.maxVal it ∨ v.isNan = true)
    ∧ (let r := (fmtOf dst).finish rm ftz (Fp.ofInt (ITy.read it (s.gint b).toNat)).exact
       gives (.fcvtf x dst it a b) (BitVec.ofNat 64 r.1) r.2)
    ∧ (dst ≠ src →
        gives (.fcvtw x dst src a b) (BitVec.ofNat 64 ((fmtOf dst).finish rm ftz v.exact).1) ((fmtOf dst).finish rm ftz v.exact).2)
    ∧ (dst = src → gives (.fcvtw x dst src a b) (BitVec.ofNat 64 ((fmtOf dst).write v)) v.snan)

/-- R68 to R71, R117: a CSR access answers the old value and writes only the bits that the CSR has, and no other CSR; KLEAD and
a write of SMPL are PRIV in item mode, a write of TREC and an unknown address are ILL. That bits [63:48] of TEPC, SOVP and SOVL
take no write, as R68 says of TVEC, is the model's choice (log entry 94). Completes: csrr, csrw, csrs, csrc. -/
def Obligations.CsrAccessesReadThenWrite : Prop :=
  (∀ (s : State) (x : Pfx) (a c : RegNum) (n : Word), s.runs x → s.readable [c] →
     let old := s.core.csr.get n
     let src := s.gint c
     let known := n ∈ [0x001, 0x010, 0x011, 0x012, 0x013, 0x020, 0x021, 0x030, 0x040, 0x050]
     let free := ∀ q ∈ s.core.mx.queue, ∀ k d f g, q ≠ .mdrain k d f g
     let writes := fun (i : Instr) (v : Word) => exec i s = .next ((((s.after x [c]).setCsr n v).setInt a old).ends (s.next x))
     (¬known → raises (.csrr x a n) s ⟨cILL, 0, 0⟩ ∧ raises (.csrw x a c n) s ⟨cILL, 0, 0⟩
       ∧ raises (.csrs x a c n) s ⟨cILL, 0, 0⟩ ∧ raises (.csrc x a c n) s ⟨cILL, 0, 0⟩)
     ∧ (n = 0x012 → raises (.csrw x a c n) s ⟨cILL, 0, 0⟩ ∧ raises (.csrs x a c n) s ⟨cILL, 0, 0⟩
       ∧ raises (.csrc x a c n) s ⟨cILL, 0, 0⟩ ∧ writesReg (.csrr x a n) s x [] a s.core.csr.trec)
     ∧ (s.itemMode = true → (n = 0x030 → raises (.csrr x a n) s ⟨cPRIV, 0, 0⟩)
       ∧ (n = 0x030 ∨ n = 0x040 → raises (.csrw x a c n) s ⟨cPRIV, 0, 0⟩ ∧ raises (.csrs x a c n) s ⟨cPRIV, 0, 0⟩
         ∧ raises (.csrc x a c n) s ⟨cPRIV, 0, 0⟩))
     ∧ (known → n ≠ 0x012 → (s.itemMode = false ∨ n ≠ 0x030) → (n = 0x050 → free) →
       writesInt (.csrr x a n) s x [] a old)
     ∧ (known → n ≠ 0x012 → (s.itemMode = false ∨ n ≠ 0x030 ∧ n ≠ 0x040) → (n = 0x050 → free) →
       writes (.csrw x a c n) src ∧ writes (.csrs x a c n) (old ||| src) ∧ writes (.csrc x a c n) (old &&& ~~~src)))
  ∧ (∀ (r : Csrs) (n m v : Word), csrKnown n = true → csrKnown m = true → n ≠ 0x012 →
       (m ≠ n → (r.set n v).get m = r.get m)
       ∧ (r.fcsr &&& ~~~(0x3FF7 : Word) = 0 → (r.set n v).fcsr &&& ~~~(0x3FF7 : Word) = 0)
       ∧ (r.mstat &&& ~~~(0xE7 : Word) = 0 → (r.set n v).mstat &&& ~~~(0xE7 : Word) = 0))
  ∧ ∀ (r : Csrs) (v : Word),
       let takes := fun (n mask : Word) => (r.set n v).get n = (r.get n &&& ~~~mask) ||| (v &&& mask)
       takes 0x001 0x3FF7 ∧ takes 0x010 0xFFFFFFFFFFFF ∧ takes 0x011 0xFF ∧ takes 0x012 0 ∧ takes 0x013 0xFFFFFFFFFFFF
       ∧ takes 0x020 0xFFFFFFFFFFFF ∧ takes 0x021 0xFFFFFFFFFFFF ∧ takes 0x030 0xFFFFFFFFFFFFFFFF ∧ takes 0x040 0 ∧ takes 0x050 0xE7

/-! ## Page 2: vectors -/

/-- R157, R170 to R176, R187: the element-wise operations of both classes, each rounded once, with the flags of the active
elements. Completes: vadd, vsub, vmul, vmin, vmax, vabs, vneg, vdiv, vsqrt, vrcp, vrsq, vexp2, vlog2, vfma, vfms, vfnma, vdot4.
-/
def Obligations.VectorArithmeticByElement : Prop :=
  ∀ (s : State) (x : Pfx) (t : ETy) (f : FTy) (a b c : RegNum), s.onCulvert = false → s.vecReadable x [c, b] a →
    let rm := fcsrRm s.core.csr.fcsr
    let ftz := fcsrFtz s.core.csr.fcsr
    let w := Machine.ETy.width t
    let wf := (fmtOf f).width
    let rd := fun (f : FTy) (v : Nat) => (fmtOf f).read ftz v
    let two := fun (fp : Fp → Fp → Exact) (int : Int → Int → Int) (k : Nat) =>
      let u := elemAt w (s.v c) k
      let y := elemAt w (s.v b) k
      (match t with
      | .fp f => (fmtOf f).finish rm ftz (fp (rd f u) (rd f y))
      | .int i => (ITy.write i (int (ITy.read i u) (ITy.read i y)), 0) : Nat × Exc)
    let three := fun (fp : Fp → Fp → Fp → Exact) (int : Int → Int → Int → Int) (k : Nat) =>
      let u := elemAt w (s.v c) k
      let y := elemAt w (s.v b) k
      let z := elemAt w (s.v a) k
      (match t with
      | .fp f => (fmtOf f).finish rm ftz (fp (rd f u) (rd f y) (rd f z))
      | .int i => (ITy.write i (int (ITy.read i u) (ITy.read i y) (ITy.read i z)), 0) : Nat × Exc)
    let pick := fun (fp : Fp → Fp → Fp × Exc) (int : Int → Int → Int) (k : Nat) =>
      let u := elemAt w (s.v c) k
      let y := elemAt w (s.v b) k
      (match t with
      | .fp f => ((fmtOf f).write (fp (rd f u) (rd f y)).1, (fp (rd f u) (rd f y)).2)
      | .int i => (ITy.write i (int (ITy.read i u) (ITy.read i y)), 0) : Nat × Exc)
    let one := fun (op : Fp → Exact) (k : Nat) => (fmtOf f).finish rm ftz (op (rd f (elemAt wf (s.v b) k)))
    let signed := fun (set : Bool → Bool) (int : Int → Int) (k : Nat) =>
      let y := elemAt w (s.v b) k
      (match t with
      | .fp f => signOnly f set y
      | .int i => (ITy.write i (int (ITy.read i y)), 0) : Nat × Exc)
    vecComputes (.vadd x t a b c) s x w a (two (Fp.add rm) (· + ·))
    ∧ vecComputes (.vsub x t a b c) s x w a (two (fun u y => u.add rm y.neg) (· - ·))
    ∧ vecComputes (.vmul x t a b c) s x w a (two Fp.mul (· * ·))
    ∧ vecComputes (.vmin x t a b c) s x w a (pick Fp.min min)
    ∧ vecComputes (.vmax x t a b c) s x w a (pick Fp.max max)
    ∧ vecComputes (.vabs x t a b) s x w a (signed (fun _ => false) (fun v => v.natAbs))
    ∧ vecComputes (.vneg x t a b) s x w a (signed (fun n => !n) (fun v => -v))
    ∧ vecComputes (.vdiv x f a b c) s x wf a
        (fun k => (fmtOf f).finish rm ftz ((rd f (elemAt wf (s.v c) k)).div (rd f (elemAt wf (s.v b) k))))
    ∧ vecComputes (.vsqrt x f a b) s x wf a (one Fp.sqrt)
    ∧ vecComputes (.vrcp x f a b) s x wf a (one Fp.rcp)
    ∧ vecComputes (.vrsq x f a b) s x wf a (one Fp.rsq)
    ∧ vecComputes (.vexp2 x f a b) s x wf a (one Fp.exp2)
    ∧ vecComputes (.vlog2 x f a b) s x wf a (one Fp.log2)
    ∧ (s.readableV [a] →
        vecComputes (.vfma x t a b c) s x w a (three (Fp.fma rm) (fun u y z => u * y + z))
        ∧ vecComputes (.vfms x t a b c) s x w a (three (fun u y z => u.fma rm y z.neg) (fun u y z => u * y - z))
        ∧ vecComputes (.vfnma x t a b c) s x w a (three (fun u y z => u.neg.fma rm y z) (fun u y z => z - u * y))
        ∧ vecComputes (.vdot4 x t a b c) s x 32 a
            (fun k => s.dot4 t (elemAt 32 (s.v c) k) (elemAt 32 (s.v b) k) (elemAt 32 (s.v a) k)))

/-- R119, R177, R178, R180, R181, R184: logic, shifts, immediates, moves, broadcast, select and random numbers. Completes:
vand, vor, vxor, vnot, vshl, vshr, vsar, vaddi, vmuli, vmov, vbc, vrand, vsel. -/
def Obligations.VectorBitsAndMovesByElement : Prop :=
  ∀ (s : State) (x : Pfx) (t : ETy) (i : ITy) (a b c : RegNum) (imm : Word), s.onCulvert = false →
    s.vecReadable x [c, b] a → s.readable [c, b] →
    let w := Machine.ITy.width i
    let wt := Machine.ETy.width t
    let u := elemAt w (s.v c)
    let y := elemAt w (s.v b)
    let k := imm.toNat % 2 ^ w
    vecWrites (.vand x i a b c) s x w a (fun j => u j &&& y j)
    ∧ vecWrites (.vor x i a b c) s x w a (fun j => u j ||| y j)
    ∧ vecWrites (.vxor x i a b c) s x w a (fun j => u j ^^^ y j)
    ∧ vecWrites (.vnot x i a b) s x w a (fun j => 2 ^ w - 1 - y j)
    ∧ vecWrites (.vshl x i a b c) s x w a (fun j => u j * 2 ^ (y j % w))
    ∧ vecWrites (.vshr x i a b c) s x w a (fun j => u j / 2 ^ (y j % w))
    ∧ vecWrites (.vsar x i a b c) s x w a (fun j => (signedAt w (u j) / 2 ^ (y j % w) % 2 ^ w).toNat)
    ∧ vecWrites (.vaddi x i a c imm) s x w a (fun j => u j + k)
    ∧ vecWrites (.vmuli x i a c imm) s x w a (fun j => u j * k)
    ∧ vecWrites (.vmov x t a b) s x wt a (elemAt wt (s.v b))
    ∧ vecWrites (.vbc x t a b) s x wt a (fun _ => (s.gint b).toNat)
    ∧ vecWrites (.vrand x a b c) s x 32 a (fun j => (draw (s.gint c + BitVec.ofNat 64 j) (s.gint b)).toNat)
    ∧ ∃ z, exec (.vsel x t a b c) s = .next z ∧ Untouched { v := [a] } s z ∧ z.pc = s.next x
        ∧ ∀ j, j < 2048 / wt → elemAt wt (z.v a) j = if s.active x j then elemAt wt (s.v c) j else elemAt wt (s.v b) j

/-- R179, R188 to R190: compares and predicate instructions write their bits below n, and zeros above. Completes: vceq, vclt,
vcle, pand, por, pxor, pnot, pmov, pset, pcnt, pfst. -/
def Obligations.ComparesAndPredicates : Prop :=
  ∀ (s : State) (x : Pfx) (t : ETy) (a b c : PredNum) (g u v : RegNum), s.onCulvert = false →
    s.readableP [x.pred, b, c] → ((Pfx.keeps x) = true → s.readableP [a]) → s.readable [g] → s.readableV [u, v] →
    let ftz := fcsrFtz s.core.csr.fcsr
    let w := Machine.ETy.width t
    let n := 2048 / w
    let cmp := fun (fp : Fp → Fp → Bool × Exc) (int : Int → Int → Bool) (k : Nat) =>
      let l := elemAt w (s.v v) k
      let r := elemAt w (s.v u) k
      (match t with
      | .fp f => fp ((fmtOf f).read ftz l) ((fmtOf f).read ftz r)
      | .int i => (int (ITy.read i l) (ITy.read i r), 0) : Bool × Exc)
    let compares := fun (i : Instr) (op : Nat → Bool × Exc) =>
      let e := s.flagsOf x n fun k => (op k).2
      (e &&& fcsrEnables s.core.csr.fcsr = 0 → ∃ z, exec i s = .next z ∧ PredWritten s z x n a (fun k => (op k).1)
        ∧ z.core.csr = { s.core.csr with fcsr := fcsrRaise s.core.csr.fcsr e })
      ∧ (e &&& fcsrEnables s.core.csr.fcsr ≠ 0 → raises i s ⟨cFPX, 0, e.setWidth 64⟩)
    let logic := fun (i : Instr) (n : Nat) (r : Nat → Bool) =>
      ∃ z, exec i s = .next z ∧ PredWritten s z x n a r ∧ z.core.csr = s.core.csr
    let counted := (List.range n).filter fun k => (s.p b).getLsbD k && s.active x k
    let counts := fun (i : Instr) (r : Nat) => ∃ z, exec i s = .next z ∧ Untouched { g := [g] } s z ∧ z.pc = s.next x
      ∧ (g ≠ 0 → z.g g = intReg (BitVec.ofNat 64 r))
    compares (.vceq x t a u v) (cmp Fp.eqF (fun l r => l = r))
    ∧ compares (.vclt x t a u v) (cmp Fp.ltF (fun l r => l < r))
    ∧ compares (.vcle x t a u v) (cmp Fp.leF (fun l r => l ≤ r))
    ∧ logic (.pand x a b c) 256 (fun k => (s.p c).getLsbD k && (s.p b).getLsbD k)
    ∧ logic (.por x a b c) 256 (fun k => (s.p c).getLsbD k || (s.p b).getLsbD k)
    ∧ logic (.pxor x a b c) 256 (fun k => (s.p c).getLsbD k ^^ (s.p b).getLsbD k)
    ∧ logic (.pnot x a b) 256 (fun k => !(s.p b).getLsbD k)
    ∧ logic (.pmov x a b) 256 (fun k => (s.p b).getLsbD k)
    ∧ logic (.pset x t a g) n (fun k => decide (k < min (s.gint g).toNat n))
    ∧ counts (.pcnt x t g b) counted.length
    ∧ counts (.pfst x t g b) (counted.headD n)

/-- R182, R183: conversions pair elements of two widths; destination elements with no source count as inactive. Completes:
vcvt, vsatn. -/
def Obligations.VectorConversionsPairElements : Prop :=
  ∀ (s : State) (x : Pfx) (dst src : ETy) (rtz : Bool) (a b : RegNum), s.onCulvert = false →
    s.readableV [b] → s.readableP [x.pred] → (x.zero = false → s.readableV [a]) →
    let wd := Machine.ETy.width dst
    let ws := Machine.ETy.width src
    let n := 2048 / max ws wd
    let pairs := fun (i : Instr) (fp : Bool) (op : Nat → Nat × Exc) =>
      let e := if fp then s.flagsOf x n fun k => (op (elemAt ws (s.v b) k)).2 else 0
      (e &&& fcsrEnables s.core.csr.fcsr = 0 → ∃ t, exec i s = .next t
        ∧ (∀ k, k < 2048 / wd → elemAt wd (t.v a) k =
            if k < n ∧ s.active x k then (op (elemAt ws (s.v b) k)).1 % 2 ^ wd else if x.zero then 0 else elemAt wd (s.v a) k)
        ∧ t.core.csr = { s.core.csr with fcsr := fcsrRaise s.core.csr.fcsr e }
        ∧ Untouched { v := [a], csr := true } s t ∧ t.pc = s.next x)
      ∧ (e &&& fcsrEnables s.core.csr.fcsr ≠ 0 → raises i s ⟨cFPX, 0, e.setWidth 64⟩)
    pairs (.vcvt x dst src rtz a b) (ETy.isFp dst || ETy.isFp src) (s.convert dst src rtz)
    ∧ pairs (.vsatn x dst src a b) (ETy.isFp dst) (s.saturate dst src)

/-- R166, R167, R185, R186: a reduction is the fixed pairwise tree over the active elements, a scan the running sum, with
identities for the inactive ones. Completes: vradd, vrmin, vrmax, vscan. -/
def Obligations.ReductionsFollowTheFixedTree : Prop :=
  ∀ (s : State) (x : Pfx) (t : ETy) (a b : RegNum), s.onCulvert = false → s.readableV [b] → s.readableP [x.pred] →
    let w := Machine.ETy.width t
    let src := (List.range (2048 / w)).map fun k => if s.active x k then some (elemAt w (s.v b) k) else none
    let sum := fun u y => s.elem2 t Fp.add (· + ·) u y
    let reduces := fun (i : Instr) (op : Nat → Nat → Nat × Exc) (empty : Nat) =>
      let r := reduceTree op (Nat.log2 (2048 / w)) src
      let e := if ETy.isFp t then r.2 else 0
      (e &&& fcsrEnables s.core.csr.fcsr = 0 → ∃ z, exec i s = .next z ∧ z.v a = BitVec.ofNat 2048 (r.1.getD empty)
        ∧ z.core.csr = { s.core.csr with fcsr := fcsrRaise s.core.csr.fcsr e }
        ∧ Untouched { v := [a], csr := true } s z ∧ z.pc = s.next x)
      ∧ (e &&& fcsrEnables s.core.csr.fcsr ≠ 0 → raises i s ⟨cFPX, 0, e.setWidth 64⟩)
    reduces (.vradd x t a b) sum 0
    ∧ reduces (.vrmin x t a b) (fun u y => s.elemSel t Fp.min min u y) (emptyValue t (some true))
    ∧ reduces (.vrmax x t a b) (fun u y => s.elemSel t Fp.max max u y) (emptyValue t (some false))
    ∧ ((Pfx.keeps x = true → s.readableV [a]) →
        let r := scanElems sum none src
        let e := if ETy.isFp t then r.2 else 0
        (e &&& fcsrEnables s.core.csr.fcsr = 0 → ∃ z, exec (.vscan x t a b) s = .next z
          ∧ VecWritten s z x w a (fun k => (r.1.getD k none).getD 0) e)
        ∧ (e &&& fcsrEnables s.core.csr.fcsr ≠ 0 → raises (.vscan x t a b) s ⟨cFPX, 0, e.setWidth 64⟩))

/-! ## Page 3: vector memory, permutes and block formats -/

/-- R193 to R195, R346: a vector load checks the access of every active element before it reads any, and writes the elements in
their places; it waits for those of the host or of peers; where a check fails it raises that fault and nothing is loaded.
Completes: vld, vlds, vldx, vgth. -/
def Obligations.VectorLoadsCheckEveryElement : Prop :=
  ∀ (s : State) (x : Pfx) (o : Sys2Proof.Ordering) (w : ITy) (a b c : RegNum) (off : Word), s.onCulvert = false → s.quiet →
    s.core.begins = true → s.readable [b, c] → s.readableP [x.pred] → ((Pfx.keeps x) = true → s.readableV [a]) →
    let n := 2048 / Machine.ITy.width w
    let z := Machine.ITy.width w / 8
    let cap := s.g b
    let act := (List.range n).filter fun i => s.active x i
    let loads := fun (i : Instr) (as : Nat → Access) =>
      (∀ (s2 : State) (ps : List Place), s.checkAll (act.map fun k => (as k).load) = .ok (s2, ps) → (∀ p ∈ ps, isAway p.loc = false) →
        ∃ t, exec i s = .next t ∧ Untouched { v := [a] } s t ∧ t.pc = s.next x ∧ SameMemory s t
          ∧ (∀ k, k < n → s.active x k = false →
              elemAt (8 * z) (t.v a) k = if x.zero then 0 else elemAt (8 * z) (s.v a) k)
          ∧ ∀ (j k : Nat) (p : Place), act[j]? = some k → ps[j]? = some p → elemAt (8 * z) (t.v a) k = natOf (s.placeBytes p z))
      ∧ (∀ (s2 : State) (ps : List Place), s.checkAll (act.map fun k => (as k).load) = .ok (s2, ps) → (∃ p ∈ ps, isAway p.loc = true) →
        (∀ p ∈ ps, s.awayRefused s.core.owner p.loc = none ∧ s.peerHeld p.loc = false) →
        ∃ t rs, exec i s = .next t ∧ t.core.wait = some (.host rs) ∧ rs.map (·.loc) = ps.map (·.loc) ∧ Untouched {} s t ∧ t.pc = s.pc
          ∧ ∀ r ∈ rs, r.answer = none ↔ isAway r.loc = true)
      ∧ (∀ e, s.checkAll (act.map fun k => (as k).load) = .error (.trap e) → raises i s e)
    loads (.vld x o w a b off) (fun k => memAccess cap b (cap.cursor + off.setWidth 48 + BitVec.ofNat 48 (k * z)) z)
    ∧ loads (.vlds x o w a b c off)
        (fun k => offsetAccess cap b ((cap.cursor - cap.base).toNat + off.toInt + k * (s.gint c).toInt) z)
    ∧ loads (.vldx x o w a b c)
        (fun k => offsetAccess cap b ((cap.cursor - cap.base).toNat + ((s.gint c).toInt + k) * z) z)
    ∧ (s.readableV [c] → loads (.vgth x o w a b c)
        (fun k => offsetAccess cap b ((cap.cursor - cap.base).toNat + signedAt (8 * z) (elemAt (8 * z) (s.v c) k) * z) z))

/-- R193 to R195, R383: a vector store checks the access of every active element, with the sectors that the elements cover
together, before it stores any, and stores the active elements in ascending order. Completes: vst, vsts, vstx, vsct. -/
def Obligations.VectorStoresCheckEveryElement : Prop :=
  ∀ (s : State) (x : Pfx) (o : Sys2Proof.Ordering) (w : ITy) (a b c : RegNum) (off : Word), s.onCulvert = false → s.quiet →
    s.readable [b, c] → s.readableP [x.pred] → s.readableV [a] →
    let n := 2048 / Machine.ITy.width w
    let z := Machine.ITy.width w / 8
    let cap := s.g b
    let act := (List.range n).filter fun i => s.active x i
    let vals := act.map fun k => elemAt (8 * z) (s.v a) k
    let line := fun (k : Nat) => memAccess cap b (cap.cursor + off.setWidth 48 + BitVec.ofNat 48 (k * z)) z
    let stores := fun (i : Instr) (as : Nat → Access) =>
      let checks := s.checkAll (coverAll (act.map fun k => (as k).store))
      (∀ (s2 : State) (ps : List Place), checks = .ok (s2, ps) → (∀ p ∈ ps, p.inModule) →
        let one := fun (v : State) (q : Place × Nat) =>
          v.storeWhole q.1 (bytesOf z q.2) (v.wholeSectors z (ps.map fun p => p.loc) q.1.loc)
        ∃ t u, exec i s = .next (t.ends (s.next x)) ∧ u.core.agent = s.core.agent
          ∧ t = (((List.zip ps vals).foldl one u).clearCovered (ps.map fun p => (p.va.toNat, z))).orderAfterAll o z ps
          ∧ SameMemory s u ∧ Untouched {} s u)
      ∧ (∀ e, checks = .error (.trap e) → raises i s e)
    stores (.vst x o w a b off) line
    ∧ stores (.vsts x o w a b c off)
        (fun k => offsetAccess cap b ((cap.cursor - cap.base).toNat + off.toInt + k * (s.gint c).toInt) z)
    ∧ stores (.vstx x o w a b c)
        (fun k => offsetAccess cap b ((cap.cursor - cap.base).toNat + ((s.gint c).toInt + k) * z) z)
    ∧ (s.readableV [c] → stores (.vsct x o w a b c)
        (fun k => offsetAccess cap b ((cap.cursor - cap.base).toNat + signedAt (8 * z) (elemAt (8 * z) (s.v c) k) * z) z))

/-- R199, R216, R220: VSTAT accepts every active element under one visible-at time once all are feasible, and raises DLINF of
the first that is not; each element of a VLDNB is read once its own home has reached the time, and it completes with the last;
an instruction without a home among its elements waits at its core; both raise what their checks find. That elements at no home
are read once the issuing zone has reached the time is the model's choice (log entry 20). Completes: vstat, vldnb. -/
def Obligations.VectorTimedForms : Prop :=
  ∀ (s : State) (x : Pfx) (o : Sys2Proof.Ordering) (w : ITy) (a b c : RegNum) (off : Word) (s2 : State) (ps : List Place),
    s.onCulvert = false → s.quiet → s.readable [b, c] → s.readableP [x.pred] → s.readableV [a] →
    let n := 2048 / Machine.ITy.width w
    let z := Machine.ITy.width w / 8
    let t := s.gint c
    let act := (List.range n).filter fun i => s.active x i
    let line := fun (k : Nat) => memAccess (s.g b) b ((s.g b).cursor + off.setWidth 48 + BitVec.ofNat 48 (k * z)) z
    let stores := s.checkAll (coverAll (act.map fun k => (line k).store))
    let loads := s.checkAll (act.map fun k => (line k).load)
    (stores = .ok (s2, ps) → (∀ p ∈ ps, p.inModule) →
      (s.hold = false ∨ o.ord.getLsbD 0 = false ∧ ∀ p ∈ ps, p.sc = false) →
      (∀ p ∈ ps, ∃ l, s.latency p = some l ∧ s.now.toNat + l ≤ t.toNat) →
      ∃ u ys, exec (.vstat x o w a b c off) s = .next u ∧ u.timed = s.timed ++ ys ∧ Untouched {} s u ∧ u.pc = s.next x
        ∧ ys.length = ps.length ∧ (∀ l, u.byteAt l = s.byteAt l)
        ∧ ∀ (j k : Nat) (p : Place) (y : Timed), act[j]? = some k → ps[j]? = some p → ys[j]? = some y →
            y.loc = p.loc ∧ y.t = t ∧ y.element = k ∧ y.order = s.core.issued ∧ y.bytes = bytesOf z (elemAt (8 * z) (s.v a) k))
    ∧ (stores = .ok (s2, ps) → (∀ e, s.feasibleAll t ps = .error e → raises (.vstat x o w a b c off) s e))
    ∧ (∀ e, stores = .error (.trap e) → raises (.vstat x o w a b c off) s e)
    ∧ (s.core.begins = true →
      let zone := fun (p : Place) => match s.homeDie p with | some d => (s.dieAt d).atime | none => s.now
      let home := fun (p : Place) => s.homeDie p ≠ none ∨ isPeerLoc p.loc = true
      (loads = .ok (s2, ps) → (∀ p ∈ ps, s.awayRefused s.core.owner p.loc = none ∧ s.peerHeld p.loc = false) →
        ((∀ p ∈ ps, isAway p.loc = false ∧ t ≤ zone p) →
          ∃ u, exec (.vldnb x o w a b c off) s = .next u ∧ Untouched { v := [a] } s u ∧ u.pc = s.next x ∧ SameMemory s u
            ∧ ∀ (j k : Nat) (p : Place), act[j]? = some k → ps[j]? = some p → elemAt (8 * z) (u.v a) k = natOf (s.placeBytes p z))
        ∧ ((∃ p ∈ ps, isAway p.loc = true ∧ s.homeDie p = none ∨ zone p < t) →
          ((∀ p ∈ ps, ¬home p) → s.now < t → exec (.vldnb x o w a b c off) s = .next (s.waits (.notBefore t [])))
          ∧ ((∃ p ∈ ps, home p) ∨ t ≤ s.now → ∃ u rs, exec (.vldnb x o w a b c off) s = .next u
              ∧ u.core.wait = some (.notBefore t rs) ∧ rs.map (·.loc) = ps.map (·.loc) ∧ Untouched {} s u ∧ u.pc = s.pc)))
      ∧ (∀ e, loads = .error (.trap e) → raises (.vldnb x o w a b c off) s e))

/-- R200 to R203: the permutes, slides, extracts and the moves of active elements. Completes: vperm, vzip, vuzp, vtrn, vrot,
vslid, vext, vins, vcmpr, vexpn. -/
def Obligations.PermutesMoveElements : Prop :=
  ∀ (s : State) (x : Pfx) (i : ITy) (a b c : RegNum), s.onCulvert = false → s.vecReadable x [c, b] a → s.readable [b, c] →
    let w := Machine.ITy.width i
    let n := 2048 / w
    let u := elemAt w (s.v c)
    let y := elemAt w (s.v b)
    let both := fun (k : Nat) => if k < n then u k else y (k - n)
    let act := (List.range n).filter fun k => s.active x k
    vecWrites (.vperm x i a b c) s x w a (fun k => both (y k % n))
    ∧ vecWrites (.vzip x i a b c) s x w a (fun k => both (if k % 2 = 0 then k / 2 else n + k / 2))
    ∧ vecWrites (.vuzp x i a b c) s x w a (fun k => both (if k < n / 2 then 2 * k else n + 2 * (k - n / 2)))
    ∧ vecWrites (.vtrn x i a b c) s x w a (fun k => both (if k % 2 = 0 then k else n + (k - 1)))
    ∧ vecWrites (.vrot x i a b c) s x w a (fun k => u ((k + (s.gint b).toNat) % n))
    ∧ (s.readableV [a] → vecWrites (.vslid x i a b c) s x w a
        (fun k => let j := k + min (s.gint b).toNat n; if j < n then u j else elemAt w (s.v a) (j - n)))
    ∧ (let k := (s.gint c).toNat
       (∃ t, exec (.vext x i a b c) s = .next t ∧ Untouched { g := [a] } s t ∧ t.pc = s.next x
          ∧ (a ≠ 0 → t.g a = intReg (BitVec.ofNat 64 (if k < n ∧ s.active x k = true then y k else 0))))
       ∧ (s.readableV [a] → ∃ t, exec (.vins x i a b c) s = .next t ∧ Untouched { v := [a] } s t ∧ t.pc = s.next x
          ∧ ∀ j, j < n → elemAt w (t.v a) j =
              if j = k ∧ s.active x k = true then (s.gint b).toNat % 2 ^ w else elemAt w (s.v a) j))
    ∧ (s.readableV [a] →
        (∃ t, exec (.vcmpr x i a b) s = .next t ∧ Untouched { v := [a] } s t ∧ t.pc = s.next x
          ∧ ∀ j, j < n → elemAt w (t.v a) j =
              match act[j]? with | some k => y k | none => if x.zero then 0 else elemAt w (s.v a) j)
        ∧ (∃ t, exec (.vexpn x i a b) s = .next t ∧ Untouched { v := [a] } s t ∧ t.pc = s.next x
          ∧ ∀ j, j < n → elemAt w (t.v a) j =
              if s.active x j then y ((act.filter fun k => k < j).length) else if x.zero then 0 else elemAt w (s.v a) j))

/-- R159 to R161, R204 to R207: the block formats and two-of-four sparsity. Completes: vqnt, vdeq, vsprs. -/
def Obligations.BlockFormatsAndSparsity : Prop :=
  ∀ (s : State) (x : Pfx) (z : Bool) (i : ITy) (m : BitVec 4) (a b : RegNum) (p : PredNum), s.onCulvert = false →
    s.readableV [b] → s.readableP [x.pred] →
    let src := fun (w : Nat) => (List.range (2048 / w)).map fun k => if s.active x k then elemAt w (s.v b) k else 0
    let lo := quantBlock m.toNat ((src 32).take 32)
    let hi := quantBlock m.toNat ((src 32).drop 32)
    let e := lo.2.2 ||| hi.2.2
    (e &&& fcsrEnables s.core.csr.fcsr = 0 → ∃ t, exec (.vqnt x z m a b) s = .next t
      ∧ t.v a = BitVec.ofNat 2048 (lo.1 + hi.1 * 256 + (joinN m.toNat lo.2.1 + joinN m.toNat hi.2.1 * 2 ^ (32 * m.toNat)) * 2 ^ 256)
      ∧ t.core.csr = { s.core.csr with fcsr := fcsrRaise s.core.csr.fcsr e }
      ∧ Untouched { v := [a], csr := true } s t ∧ t.pc = s.next x)
    ∧ (e &&& fcsrEnables s.core.csr.fcsr ≠ 0 → raises (.vqnt x z m a b) s ⟨cFPX, 0, e.setWidth 64⟩)
    ∧ ((Pfx.keeps x = true → s.readableV [a]) → vecWrites (.vdeq x z m a b) s x 32 a
        (fun k => dequantise m.toNat ((s.v b).toNat / 2 ^ (8 * (k / 32)) % 256)
          ((s.v b).toNat / 2 ^ (256 + m.toNat * k) % 2 ^ m.toNat)))
    ∧ (let w := Machine.ITy.width i
       let r := compactGroups w (2048 / w / 4) (src w)
       ∃ t, exec (.vsprs x i a b p) s = .next t ∧ t.v a = ofElems w r.1 ∧ (p ≠ 0 → t.p p = BitVec.ofNat 256 (joinN 2 r.2))
        ∧ Untouched { v := [a], p := [p] } s t ∧ t.pc = s.next x)

/-! ## Page 4: the matrix unit -/

/-- R316, R321, R322, R330 to R333, R338: the format context, the rings, the restart label and what is read of the unit.
Completes: mfmt, mring, mprod, mflag, mwait, mrst, mrq. -/
def Obligations.MatrixContextAndRings : Prop :=
  ∀ (s : State) (x : Pfx) (a c : RegNum) (q acc : BitVec 2) (sel : BitVec 3) (clr : Bool), s.runs x → s.onCulvert = false →
    let m := s.core.mx
    let w := s.gint a
    let mfmtTrap := fun (reason which : Nat) => (⟨cMFMT, 0, BitVec.ofNat 64 (reason + 16 * which)⟩ : Trap)
    let becomes := fun (i : Instr) (rs : List RegNum) (m' : MatCore) => exec i s = .next (((s.after x rs).setMx m').ends (s.next x))
    (s.readable [a] → (fmtValid w = true → becomes (.mfmt x a) [a] { m with fmt := ⟨w, m.fmt.gen + 1⟩ })
      ∧ (fmtValid w = false → raises (.mfmt x a) s (mfmtTrap 1 0)))
    ∧ (s.readable [a, c] → m.queue = [] → s.ringCopied q = false →
        (m.restart ≠ none → raises (.mring x q a c) s (mfmtTrap 8 q.toNat))
        ∧ (m.restart = none → s.gint c = 0 → becomes (.mring x q a c) [a, c] (m.setRing q none))
        ∧ (m.restart = none → s.gint c ≠ 0 → geometry (s.gint c) = none → raises (.mring x q a c) s (mfmtTrap 7 q.toNat))
        ∧ (∀ slots slotB va, m.restart = none → s.gint c ≠ 0 → geometry (s.gint c) = some (slots, slotB) →
            s.checkCap { memAccess (s.g a) a (s.g a).cursor (slots * slotB) with align := 1, r := true } = .ok va →
            0x100000 ≤ (s.g a).cursor.toNat → (s.g a).cursor.toNat + slots * slotB ≤ 0x200000 → (s.g a).cursor.toNat % 256 = 0 →
            becomes (.mring x q a c) [a, c] (m.setRing q (some ⟨s.g a, (s.g a).cursor, slots, slotB, 0, 0, 0, 0, List.replicate slots none⟩))))
    ∧ (s.itemMode = false → raises (.mprod x q 0) s (mfmtTrap 9 q.toNat))
    ∧ (s.itemMode = true → m.ring q = none → raises (.mprod x q 0) s (mfmtTrap 5 q.toNat))
    ∧ (∀ r, s.itemMode = true → m.ring q = some r → r.full = false →
        exec (.mprod x q 0) s = .next ((((s.after x [0]).release 1).produceRing s.core.agent q).ends (s.next x)))
    ∧ (∀ r, s.itemMode = true → m.ring q = some r → r.full = true →
        raises (.mprod x q 0) s ⟨cRSEQ, 0, BitVec.ofNat 64 (q.toNat + 12)⟩)
    ∧ (a ≠ 0 → s.readable [a] →
      (∀ k, w.toNat < 8 → s.core.agent.cluster = some k →
        let target := AgentId.core (coreOf s.core.agent.die (k % 128) w.toNat)
        ((s.agent target).run ≠ .item → raises (.mprod x q a) s (mfmtTrap 9 q.toNat))
        ∧ ((s.agent target).run = .item → (s.agent target).owner ≠ s.core.owner →
            raises (.mprod x q a) s ⟨cOWNER, 0, (s.agent target).owner.setWidth 64⟩)
        ∧ ∀ r, (s.agent target).run = .item → (s.agent target).owner = s.core.owner → (s.agent target).mx.ring q = some r →
            r.full = false → exec (.mprod x q a) s = .next ((((s.after x [a]).release 1).produceRing target q).ends (s.next x)))
      ∧ (8 ≤ w.toNat → raises (.mprod x q a) s (mfmtTrap 9 q.toNat)))
    ∧ ((∀ k ∈ m.queue, k.acc ≠ acc) → exec (.mflag x a acc clr) s = .next
        ((((if clr then (s.after x []).setMx (m.setAcc acc { m.acc acc with ov := false, sat := false, nv := false })
            else s.after x []).setInt a (m.acc acc).word)).ends (s.next x)))
    ∧ (m.queue = [] → exec (.mwait x) s = .next ((s.after x []).ends (s.next x)))
    ∧ (m.queue ≠ [] → exec (.mwait x) s = .next (s.waits (.room none)))
    ∧ (s.readable [a] → m.queue = [] → m.anyLive = false → w.getLsbD 0 = false →
        let m' := if m.restart.isSome then m.releaseAll else m
        becomes (.mrst x a) [a] { m' with restart := some ⟨w.setWidth 48, m'.rings.map (Option.map Ring.cons)⟩ })
    ∧ writesInt (.mrq x a q sel) s x [] a (m.query q sel)

/-- R314, R323, R324, R326, R328, R329: a matrix command joins its core's queue with the context at issue, its slots are
reserved and its accumulator becomes live; with its queue full it waits; a timed MMA or MMAS starts at its time, or raises
TIMING; what a form may not name raises MFMT. Completes: mma, mmas, mzero, mdrain. -/
def Obligations.MatrixCommandsQueueAtIssue : Prop :=
  ∀ (s : State) (x : Pfx) (o : Sys2Proof.Ordering) (acc qa qb qm : BitVec 2) (ka kb ta tb : Bool) (fmt : BitVec 3) (a c : RegNum),
    s.runs x → s.onCulvert = false → (o.timed = true → s.readable [c]) →
    let m := s.core.mx
    let f := m.fmt
    let t := s.gint c
    let rs := if o.timed then [c] else []
    let fits := (m.acc acc).live = true → (m.acc acc).type = fmtAcc f.word
    let busy := m.queue ≠ [] ∨ ∃ k, s.core.agent.cluster = some k ∧ s.unitBusy k = true
    let at_ := (fmtA f.word).getD (.fp .bf16)
    let bt := (fmtB f.word).getD (.fp .bf16)
    let mfmtTrap := fun (reason : Nat) (which : BitVec 2) => (⟨cMFMT, 0, BitVec.ofNat 64 (reason + 16 * which.toNat)⟩ : Trap)
    let wants := [(⟨qa, ka, at_.tile, 0, 0⟩ : Want), ⟨qb, kb, bt.tile, 1, 0⟩]
    let wantsS := [(⟨qa, ka, at_.tile, 0, 0⟩ : Want), ⟨qm, ka, 1024, 2, 0⟩, ⟨qb, kb, bt.tile, 1, 0⟩, ⟨qb, kb, bt.tile, 3, kb.toNat⟩]
    let slot := fun (l : List Slot) (k : Nat) => l.getD k ⟨0, 0, false⟩
    let issues := fun (i : Instr) (ws : List Want) (mk : List Slot → MatCmd) =>
      (¬fits → raises i s (mfmtTrap 3 acc))
      ∧ (fits → o.timed = false →
        (4 ≤ m.queue.length → exec i s = .next (s.waits (.room none)))
        ∧ (m.queue.length < 4 →
          (∀ l, s.takeSlots false [] ws = .ok l → exec i s = .next (((s.after x rs).enqueue (mk l) l true).ends (s.next x)))
          ∧ (∀ e, s.takeSlots false [] ws = .error (.trap e) → raises i s e)
          ∧ ∀ e, s.takeSlots false [] ws = .error (.wait e) → exec i s = .next (s.waits e)))
      ∧ (fits → o.timed = true →
        (t ≤ s.now → s.core.wait ≠ some (.engine t none) → raises i s ⟨cTIMING, 0, 1⟩)
        ∧ (s.now < t → exec i s = .next (s.waits (.engine t none)))
        ∧ (t ≤ s.now → s.core.wait = some (.engine t none) →
          (busy → raises i s ⟨cTIMING, 0, 0x40⟩)
          ∧ (¬busy → (∀ l, s.takeSlots true [] ws = .ok l → exec i s = .next
                ((((s.after x rs).enqueue (mk l) l true).execHead s.core.agent).ends (s.next x)))
              ∧ ∀ e, s.takeSlots true [] ws = .error (.trap e) → raises i s e)))
    let mma := Instr.mma x o acc qa qb ka kb ta tb c
    let mmas := Instr.mmas x o acc qa qb qm ka kb c
    ((ta = false ∨ at_.isSeb = false) → (tb = false ∨ bt.isSeb = false) →
      issues mma wants fun l => .mma acc (slot l 0) (slot l 1) ta tb f)
    ∧ (ta = true → at_.isSeb = true → raises mma s (mfmtTrap 2 qa))
    ∧ ((ta = false ∨ at_.isSeb = false) → tb = true → bt.isSeb = true → raises mma s (mfmtTrap 2 qb))
    ∧ (at_.isSeb = false → issues mmas wantsS fun l => .mmas acc (slot l 0) (slot l 1) (slot l 2) (slot l 3) f)
    ∧ (at_.isSeb = true → raises mmas s (mfmtTrap 4 qa))
    ∧ (fits → m.queue.length < 4 →
        exec (.mzero x acc) s = .next (((s.after x []).enqueue (.mzero acc f) [] true).ends (s.next x)))
    ∧ (fits → 4 ≤ m.queue.length → exec (.mzero x acc) s = .next (s.waits (.room none)))
    ∧ (¬fits → raises (.mzero x acc) s (mfmtTrap 3 acc))
    ∧ (s.readable [a] →
      let n := 4096 * drainBytes fmt
      let ea := (s.g a).cursor
      let drain := Instr.mdrain x fmt a acc
      let dest := (s.after x [a]).checkAll (Access.pieces { memAccess (s.g a) a ea n with align := 1, w := true, data := false })
      let suits := (drainFmt fmt).isNone = true ↔ (m.acc acc).type = .s32
      (∀ e, dest = .error (.trap e) → raises drain s e)
      ∧ ∀ s2 ps, dest = .ok (s2, ps) →
        (ea.toNat % 256 ≠ 0 → raises drain s ⟨cALIGN, ea.setWidth 64, 0⟩)
        ∧ (ea.toNat % 256 = 0 → inLocal ea.toNat n = false → raises drain s (mfmtTrap 7 acc))
        ∧ (ea.toNat % 256 = 0 → inLocal ea.toNat n = true → ¬suits → raises drain s (mfmtTrap 6 acc))
        ∧ (ea.toNat % 256 = 0 → inLocal ea.toNat n = true → suits → 4 ≤ m.queue.length →
            exec drain s = .next (s.waits (.room none)))
        ∧ (ea.toNat % 256 = 0 → inLocal ea.toNat n = true → suits → m.queue.length < 4 →
            exec drain s = .next ((s2.enqueue (.mdrain acc (s.g a) fmt f) [] false).ends (s.next x))))

/-- R324, R327 to R329, R334, R337: the unit executes the head command of the core whose turn it is: its accumulator takes the
products or zero, a drain writes its bytes and MSTAT, and an uncorrectable tile discards the queue. Completes: mmaExecute,
mzeroExecute, mdrainExecute, matrixTileError. -/
def Obligations.MatrixUnitExecutesItsQueue : Prop :=
  ∀ (s : State) (die : BitVec 2) (cluster : BitVec 7) (j turn : Nat) (rest : List MatCmd),
    let k := die.toNat * 128 + cluster.toNat
    let id := clusterCore k j
    let c := s.agent id
    let m := { c.mx with queue := rest }
    let tile := fun (w : Slot) (n : Nat) => s.readNat (c.slotLoc w) n
    (s.matNext k = some (j, turn) →
    (∀ acc a b ta tb f, c.mx.queue = .mma acc a b ta tb f :: rest → s.badTile c (MatCmd.tiles (.mma acc a b ta tb f)) = none →
      ∃ t, exec (.mmaExecute die cluster) s = .next t ∧ t.mem = s.mem
        ∧ (t.agent id).mx = ((m.setAcc acc ((m.acc acc).mma f.word ta tb (tile a ((fmtA f.word).getD (.fp .bf16)).tile)
            [tile b ((fmtB f.word).getD (.fp .bf16)).tile] none)).consume [a, b]).followRel
        ∧ ∀ i, i ≠ id → (t.agent i).mx = (s.agent i).mx)
    ∧ (∀ acc a md b b2 f, c.mx.queue = .mmas acc a md b b2 f :: rest → s.badTile c (MatCmd.tiles (.mmas acc a md b b2 f)) = none →
      ∃ t, exec (.mmaExecute die cluster) s = .next t ∧ t.mem = s.mem
        ∧ (t.agent id).mx = ((m.setAcc acc ((m.acc acc).mma f.word false false (tile a ((fmtA f.word).getD (.fp .bf16)).tile)
            [tile b ((fmtB f.word).getD (.fp .bf16)).tile, tile b2 ((fmtB f.word).getD (.fp .bf16)).tile]
            (some (tile md 1024)))).consume [a, md, b, b2]).followRel
        ∧ ∀ i, i ≠ id → (t.agent i).mx = (s.agent i).mx)
    ∧ (∀ acc f, c.mx.queue = .mzero acc f :: rest →
      ∃ t, exec (.mzeroExecute die cluster) s = .next t ∧ t.mem = s.mem
        ∧ (t.agent id).mx = m.setAcc acc ⟨fmtAcc f.word, [], false, false, false, true⟩)
    ∧ (∀ acc dest fmt f, c.mx.queue = .mdrain acc dest fmt f :: rest → Memory.wf s.mem = true →
      let d := drainElems fmt f.word (m.acc acc).elems 0 4096
      let l := c.drainLoc dest.cursor
      ∃ t, exec (.mdrainExecute die cluster) s = .next t ∧ t.readBytes l d.1.length = d.1
        ∧ (∀ k, k < l ∨ l + d.1.length ≤ k → t.byteAt k = s.byteAt k)
        ∧ ((t.agent id).mx.acc acc).ov = ((m.acc acc).ov || d.2.ov)
        ∧ ((t.agent id).mx.acc acc).live = ((m.acc acc).live && rest.any fun q => q.acc = acc)
        ∧ (t.agent id).csr.mstat = (c.csr.mstat &&& 0x80) ||| BitVec.ofNat 64 (acc.toNat * 32
            + 4 * ((m.acc acc).nv || d.2.nv).toNat + 2 * ((m.acc acc).sat || d.2.sat).toNat + ((m.acc acc).ov || d.2.ov).toNat)))
    ∧ (s.matNext k = none → exec (.mmaExecute die cluster) s = .next s ∧ exec (.mzeroExecute die cluster) s = .next s
      ∧ exec (.mdrainExecute die cluster) s = .next s)
    ∧ (∀ i cmd w n ws, (s.agent (.core i)).mx.queue = cmd :: rest → cmd.tiles = (w, n) :: ws →
      ∃ t, exec (.matrixTileError i) s = .next t ∧ (t.agent (.core i)).mx.queue = []
        ∧ (t.agent (.core i)).csr.mstat = (s.agent (.core i)).csr.mstat ||| 0x80
        ∧ (let c := s.agent (.core i)
          c.agent = .core i → c.acts = none → c.run ≠ .idle → c.pending.length < 16 →
            ∃ r, (t.agent (.core i)).pending = c.pending ++ [r] ∧ r.code = cINTEG ∧ r.addr = (c.slotAddr w).setWidth 64 ∧ r.detail = 0
              ∧ r.flags = 0 ∧ r.context = c.owner ∧ r.task = c.ident.task ∧ r.core = i.core ∧ r.die = i.die))

/-! ## Page 4: engines -/

/-- R224, R294 to R298, R302 to R304: CPY reads its block, checks its fields and every byte of its operands, and the culvert
accepts the command: with no start time A takes its ticket at once; with one the instruction waits for it and then starts it.
The first bad field raises ILL with its offset; a full culvert holds the core with its block. Completes: cpy. -/
def Obligations.CpyIsAcceptedByItsCulvert : Prop :=
  (∀ (s s1 s2 s3 s4 s5 : State) (x : Pfx) (o : Sys2Proof.Ordering) (a b c : RegNum) (blk : Block) (ps qs ms : List Place) (aad : Nat),
    s.runs x → s.onCulvert = false → (o.timed = true → s.readable [c]) → (∀ t k, s.core.wait ≠ some (.engine t (some k))) →
    (s.after x (if o.timed then [c] else [])).readBlock b = .ok (s1, blk) →
    let flags := blk.field 68 4
    let len := blk.field 48 8
    let rows := blk.field 56 4
    let ss := if rows = 1 then 0 else signedField (blk.field 60 4) 32
    let ds := if rows = 1 then 0 else signedField (blk.field 64 4) 32
    let i : EngineId := .culvert (culvertOf (AgentId.clusterOf s.core.agent) (flags / 16 % 2))
    let start := BitVec.ofNat 64 (blk.field 80 8)
    (16 ≤ (s1.engine i).queue.length → exec (.cpy x o a b c) s = .next (s1.waits (.room (some blk))))
    ∧ ((s1.engine i).queue.length < 16 →
      (∀ off, firstBad (copyRules blk) = some off → raises (.cpy x o a b c) s ⟨cILL, 0, BitVec.ofNat 64 off⟩)
      ∧ (firstBad (copyRules blk) = none →
        (s1.release 3).checkOperand false (copyRows (blk.cap 0) 1 ss (len + if flags.testBit 0 then 32 else 0) 16 rows true false)
          = .ok (s2, ps) →
        s2.checkOperand false (copyRows (blk.cap 16) 2 ds len 32 rows false true) = .ok (s3, qs) →
        s3.checkMailbox (blk.cap 32) = .ok (s4, ms) →
        (flags.testBit 1 = true → s4.mirrorCheck qs = .ok ()) →
        (flags.testBit 2 = true → s.core.mx.ring (BitVec.ofNat 2 (blk.field 76 4)) ≠ none) →
        s4.acceptDecrypt blk ps = .ok (s5, aad) →
        (s5.engine i).queue.length = (s1.engine i).queue.length →
        engineTakes s s5 (.cpy x o a b c) x i a o.timed (s.gint c) start fun d => d.kind = .copy
          ∧ d.src = blk.cap 0 ∧ d.dst = blk.cap 16 ∧ d.mbx = blk.cap 32 ∧ d.length = len ∧ d.rows = rows ∧ d.sstride = ss
          ∧ d.dstride = ds ∧ d.beats = 0 ∧ d.issuer = s.core.agent ∧ d.context = s.core.owner)))
  ∧ ∀ (s : State) (x : Pfx) (o : Sys2Proof.Ordering) (a b c : RegNum), s.runs x → s.onCulvert = false →
    engineStarts s (.cpy x o a b c) x a

/-- R224, R308 to R312: XGTH, XRED and XCVT are accepted by the cistern of the stack that holds the granule at DST, and start
at their time. Completes: xgth, xred, xcvt. -/
def Obligations.CisternCommandsAreAccepted : Prop :=
  (∀ (s s1 s2 s3 s4 s5 s6 : State) (x : Pfx) (o : Sys2Proof.Ordering) (a b c : RegNum) (blk : Block) (ir pr qr mr nr : List Place)
    (idx : List Nat),
    s.runs x → s.onCulvert = false → (o.timed = true → s.readable [c]) → (∀ t k, s.core.wait ≠ some (.engine t (some k))) →
    (s.after x (if o.timed then [c] else [])).readBlock b = .ok (s1, blk) →
    let len := blk.field 80 4
    let rows := blk.field 84 4
    let i : EngineId := .cistern (s1.cisternOf (blk.cap 16).cursor)
    let accepts := fun (ins : Instr) (sh : Shape) =>
      (64 ≤ (s1.engine i).queue.length → exec ins s = .next (s1.waits (.room (some blk))))
      ∧ ((s1.engine i).queue.length < 64 →
        (∀ off, firstBad (cisternRules blk (sh.rowBad blk) (sh.fmtBad blk) sh.noIdx sh.noCnt) = some off →
          raises ins s ⟨cILL, 0, BitVec.ofNat 64 off⟩)
        ∧ (firstBad (cisternRules blk (sh.rowBad blk) (sh.fmtBad blk) sh.noIdx sh.noCnt) = none →
          (if sh.useIdx blk then (s1.release 3).readIndex (blk.cap 48) rows else .ok (s1.release 3, [], [])) = .ok (s2, ir, idx) →
          s2.checkOperand true (rowOperands (blk.cap 0) 1 16 len true false (sh.src blk idx)) = .ok (s3, pr) →
          s3.checkOperand true (coverAll ((sh.dst blk idx).map fun e =>
            operand (blk.cap 16) 2 (((blk.cap 16).offset : Int) + e.1) e.2.1 e.2.2 sh.dstRead true).flatten) = .ok (s4, qr) →
          s4.checkMailbox (blk.cap 32) = .ok (s5, mr) →
          (if (blk.cap 64).isNone then .ok (s5, []) else s5.checkOperand true (rowOperands (blk.cap 64) 2 4 4 true true
            ((distinct [] (rowTargets (sh.useIdx blk) idx rows)).map (4 * ·)))) = .ok (s6, nr) →
          engineTakes s s6 ins x i a o.timed (s.gint c) (BitVec.ofNat 64 (blk.field 96 8)) fun d => d.kind = sh.kind
            ∧ d.src = blk.cap 0 ∧ d.dst = blk.cap 16 ∧ d.mbx = blk.cap 32 ∧ d.length = len ∧ d.rows = rows
            ∧ d.idx = idx ∧ d.beats = 0 ∧ d.issuer = s.core.agent ∧ d.context = s.core.owner))
    accepts (.xgth x o a b c) gatherShape ∧ accepts (.xred x o a b c) reduceShape ∧ accepts (.xcvt x o a b c) convertShape)
  ∧ ∀ (s : State) (x : Pfx) (o : Sys2Proof.Ordering) (a b c : RegNum), s.runs x → s.onCulvert = false →
    engineStarts s (.xgth x o a b c) x a ∧ engineStarts s (.xred x o a b c) x a ∧ engineStarts s (.xcvt x o a b c) x a

/-- R305, R306: CPYW waits until the mailbox holds the value; CPYQ reads a ticket's status or the code window. Completes: cpyw,
cpyq. -/
def Obligations.CpywWaitsAndCpyqAsks : Prop :=
  ∀ (s : State) (x : Pfx) (a b : RegNum), s.runs x → s.onCulvert = false →
    (∀ p, s.readable [a, b] → s.quiet → s.core.begins = true → s.access (memAccess (s.g a) a (s.g a).cursor 8).load = .ok p →
      let u := (s.after x [a, b]).fillTlb p
      (isAway p.loc = false →
        ((s.gint b).toNat ≤ natOf (s.placeBytes p 8) → exec (.cpyw x a b) s = .next (u.ends (s.next x)))
        ∧ (natOf (s.placeBytes p 8) < (s.gint b).toNat →
          exec (.cpyw x a b) s = .next (u.waits (.mailbox (s.g a) (s.gint b)))))
      ∧ (isAway p.loc = true → s.awayRefused s.core.owner p.loc = none → s.peerHeld p.loc = false →
          exec (.cpyw x a b) s = .next (u.waits (.host [u.request p 8 none]))))
    ∧ (s.readable [b] →
      let v := s.gint b
      (v.getLsbD 63 = false → writesInt (.cpyq x a b) s x [b] a (s.ticketStatus v))
      ∧ (v.getLsbD 63 = true → v.toNat / 2 ^ 16 % 2 ^ 47 = 0 → v.toNat % 8 = 0 → writesInt (.cpyq x a b) s x [b] a
          (BitVec.ofNat 64 (s.readNat (windowLoc s.core.agent.die.toNat (v.toNat % 2 ^ 16)) 8)))
      ∧ (v.getLsbD 63 = true → v.toNat / 2 ^ 16 % 2 ^ 47 ≠ 0 → raises (.cpyq x a b) s ⟨cILL, 0, 0⟩)
      ∧ (v.getLsbD 63 = true → v.toNat / 2 ^ 16 % 2 ^ 47 = 0 → v.toNat % 8 ≠ 0 → raises (.cpyq x a b) s ⟨cALIGN, 0, 0⟩))

/-! ## Encoding and the step -/

/-- R22 to R33, R46: words that the worked programs of the manual write out decode to the instructions they stand for. -/
def Obligations.WordsDecodeToTheirInstructions : Prop :=
  let plain : Pfx := ⟨0, false, false, false, 0, false, false⟩
  let withR : Pfx := { plain with r := true }
  let withP : Pfx := { plain with p := true }
  let withRP : Pfx := { plain with r := true, p := true }
  decode [0x9D52] = .ok (.st plain ⟨0, 0, false, 0⟩ 2 5 4 0)
  ∧ decode [0xF430, 0x4606] = .ok (.andi withR 8 6 6)
  ∧ decode [0xF440, 0xF880, 0x02E0] = .ok (.mul withRP 11 8 8)
  ∧ decode [0xF002, 0x7A28] = .ok (.bge { plain with nx := 1 } 8 10 8)
  ∧ decode [0xF448, 0xFFA0, 0xB20F] = .ok (.aadd { withR with m := true } ⟨3, 5, false, 0⟩ true 8 3 9 0)
  ∧ decode [0xF909, 0x0884] = .ok (.vmul { withP with pred := 1, zero := true } (.fp .f32) 2 1 2)
  ∧ decode [0xF448, 0xF990, 0x1EC8] = .ok (.vstx { withRP with pred := 2 } ⟨0, 0, false, 0⟩ .s32 11 2 9)
  ∧ decode [0xFA00, 0x0C04] = .ok (.mma withP ⟨0, 0, false, 0⟩ 0 0 1 false false false false 0)
  ∧ decode [0xFA80, 0x031C] = .ok (.arrive withP 12 7)
  ∧ decode [0xF438, 0xFB00, 0x1658] = .ok (.mount withRP 9 6 7)
  ∧ decode [0xF408, 0xFB80, 0x048C] = .ok (.aese withRP true 2 3)

/-- R22 to R48: for every well-formed instruction, decoding the parcels that it is encoded as gives it back, whatever
follows it. -/
def Obligations.EncodingsRoundTrip : Prop :=
  ∀ (i : Instr) (rest : List Parcel), i.WellFormed = true → decode (encode i ++ rest) = .ok i

/-- R28, R38, R39: what the decoder answers is well formed, so no step of the surroundings is a word; a prefix that stands
too often, and a fifth prefix, raise PFXC. -/
def Obligations.DecodingRefusesByName : Prop :=
  (∀ (qs : List Parcel) (i : Instr), decode qs = .ok i → i.WellFormed = true)
  ∧ (∀ qs : List Parcel, 5 ≤ qs.length → (∀ q ∈ qs.take 5, q.isPrefix = true) → decode qs = .error .pfxc)
  ∧ ∀ (ps rest : List Parcel) (op : BitVec 6), ps.length ≤ 4 → (∀ q ∈ ps, q.isPrefix = true) → 0x3D ≤ op.toNat →
      2 ≤ (ps.filter fun q => q.op = op).length → decode (ps ++ rest) = .error .pfxc

/-- R49, R135: where nothing is due and nothing is pending, a step fetches through PCC, decodes and executes, or takes the
fault that the fetch or the decoding raises; a fetch from the host or a peer waits; a pending imprecise fault is taken first
(R138), but for an instruction that goes on with accesses that it has issued, which is the one that was fetched (R136, R197).
What sampling and monitors note beside it (`beginInstr`, `Out.observed`) changes the mark and the channels alone, and nothing
where both are off. The model's choices: a parcel in the instruction cache is used and not read again (log entry 14); an event of
the surroundings is executed as it stands in the script (log entry 3); what is marked and counted (log entry 82). -/
def Obligations.StepRunsTheDecodedInstruction : Prop :=
  (∀ s : State, s.frozen = false → s.script = [] → s.stalled = false → s.due = none → s.dueMiss = none → s.heldStop = false →
    (s.core.run = .item ∨ s.core.run = .firmware) →
    (s.core.pending = [] ∨ s.core.handler = true ∨ s.core.issuedWait = true →
      let b := s.beginInstr
      (∀ (u : State) (qs : List Parcel), b.parcels = .ok (u, qs) →
        u = { b with tlb := u.tlb, core := { b.core with icache := u.core.icache, ir := u.core.ir } } ∧ u.core.ir = qs
        ∧ (∀ i, decode qs = .ok i → step s = Out.observed u qs (exec i u))
        ∧ (decode qs = .error .pfxc → step s = Out.observed b qs (.next (b.takeTrap ⟨cPFXC, 0, 0⟩).done))
        ∧ ∀ e, e ≠ .pfxc → decode qs = .error e → step s = Out.observed b qs (.next (b.takeTrap ⟨cILL, 0, 0⟩).done))
      ∧ (∀ t, b.parcels = .error (.trap t) → step s = Out.observed b [] (.next (b.takeTrap t).done))
      ∧ (∀ w, b.parcels = .error (.wait w) → step s = Out.observed b [] (.next (b.waits w)))
      ∧ ∀ u w, b.parcels = .error (.hold u w) → step s = Out.observed b [] (.next (u.waits w)))
    ∧ (∀ (r : FaultRec) (rest : List FaultRec), s.core.pending = r :: rest → s.core.handler = false → s.core.issuedWait = false →
        let m := s.abandonMark
        step s = .next (({ m with core := { m.core with pending := rest } }.takeFault r 1).done)))
  ∧ (∀ (s : State) (i : Instr) (rest : List Move), s.frozen = false → s.script = .event i :: rest → s.due = none →
      step s = exec i { s with script := rest })
  ∧ (∀ s : State,
      s.beginInstr = { s with core := { s.core with lfsr := s.beginInstr.core.lfsr, gap := s.beginInstr.core.gap,
                                                    mark := s.beginInstr.core.mark } }
      ∧ (s.core.csr.smpl.getLsbD 0 = false ∨ s.core.wait ≠ none → s.beginInstr = s))
  ∧ (∀ (s t : State) (qs : List Parcel), t.core.agent = s.core.agent →
      let o := s.observe qs t
      Out.observed s qs (.next t) = .next o
      ∧ o = { t with core := { t.core with mark := o.core.mark }, dies := o.dies, free := o.free }
      ∧ (∀ d, o.dieAt d = { t.dieAt d with monitors := (o.dieAt d).monitors })
      ∧ (t.core.mark = none → (∀ d, ∀ m ∈ (t.dieAt d).monitors.toList, m.config.getLsbD 8 = false) → o = t))
  ∧ ∀ s : State,
    (s.core.issuedWait = true → s.parcels = .ok (s, s.core.ir))
    ∧ (s.core.issuedWait = false →
      (∀ u qs, s.fetch s.pc 5 = .ok (u, qs) → s.parcels = .ok ({ u with core := { u.core with ir := qs } }, qs))
      ∧ ∀ e, s.fetch s.pc 5 = .error e → s.parcels = .error e)
    ∧ (∀ a : Addr, a.getLsbD 0 = true → s.fetchParcel a = .error (.trap ⟨cALIGN, a.setWidth 64, 0⟩))
    ∧ (∀ (a : Addr) (n : Nat) (t : Trap), a.getLsbD 0 = false → s.access (s.fetchAccess a) = .error (n, t) →
        s.fetchParcel a = .error (.trap t))
    ∧ ∀ (a : Addr) (p : Place), a.getLsbD 0 = false → s.access (s.fetchAccess a) = .ok p →
      let u := s.fillTlb p
      (∀ q, assocGet s.core.icache p.loc = some q → s.fetchParcel a = .ok (u, q))
      ∧ (assocGet s.core.icache p.loc = none → isAway p.loc = false →
        let q : Parcel := BitVec.ofNat 16 (natOf (s.placeBytes p 2))
        s.fetchParcel a = .ok ({ u with core := { u.core with icache := assocPut s.core.icache p.loc q } }, q))
      ∧ (assocGet s.core.icache p.loc = none → isAway p.loc = true → (∀ r, s.core.wait ≠ some (.fetch r)) →
          s.awayRefused s.core.owner p.loc = none →
          (s.peerHeld p.loc = false → s.fetchParcel a = .error (.hold (u.beforeAccess p 2) (.fetch (u.request p 2 none))))
          ∧ (s.peerHeld p.loc = true → s.fetchParcel a = .error (.wait (.room none))))

/-- A step of any state keeps memory in its canonical form: addresses rise, and no byte is listed that an unlisted one
reads as. -/
def Obligations.MemoryStaysCanonical : Prop :=
  ∀ s t : State, Memory.wf s.mem = true → step s = .next t → Memory.wf t.mem = true

/-! ## Reset, exceptions, who may execute what -/

/-- R68, R211, R227, R313, R344, R392: the state after reset; the values of registers that the manual gives no reset value
are the model's (log entry 1). -/
def Obligations.ResetLeavesTheSpecifiedState : Prop :=
  let s := State.reset
  Memory.wf s.mem = true
  ∧ (s.core.agent = .security ∧ s.core.run = .firmware ∧ s.core.handler = false ∧ s.core.pending = [])
  ∧ (∀ d : BitVec 2, (s.dieAt d).atime = 0 ∧ (s.dieAt d).sync = true ∧ (s.dieAt d).counting = true)
  ∧ (∀ a : AgentId, (s.agent a).csr = ⟨0, 0, 0, .null, 0, 0, 0, 0x7D00, 0, 0⟩)
  ∧ (∀ c : CoreId, (s.agent (.core c)).run = .idle ∧ (s.agent (.core c)).owner = 0
      ∧ (s.agent (.core c)).mx.fmt = ⟨0, 0⟩ ∧ (s.agent (.core c)).mx.restart = none ∧ (s.agent (.core c)).mx.queue = [])
  ∧ (∀ off n : Nat, s.barRead 0 off n = 0)
  ∧ (∀ n : BitVec 8, s.ctx n = none) ∧ s.tasks = [] ∧ s.corpses = [] ∧ s.tlb = [] ∧ s.flights = [] ∧ s.timed = []
  ∧ (∀ l : Nat, s.tagAt l = false ∧ s.colourAt l = 0)

/-- R137, R140 to R145: a precise fault enters the handler and changes nothing else; with no handler, or inside one, the policy
of the task stops the item; ERET goes back. The model's readings: the kill policy stops the core at once (log entry 77, DEDUCED);
the retire policy leaves it idle, to go on with the next item of its slot (log entries 77, 79); a firmware core with no handler
halts (log entry 87, DESIGN CHOICE). Completes: eret. -/
def Obligations.FaultsEnterTheHandler : Prop :=
  ∀ (s : State) (t : Trap), s.onCulvert = false →
    let u := s.takeTrap t
    (s.core.csr.tvec.setWidth 48 ≠ (0 : Addr) → s.core.handler = false →
      u.core.csr = { s.core.csr with tepc := s.pc.setWidth 64, tcause := t.code.setWidth 64, trec := s.recordCap }
      ∧ u.core.handler = true ∧ u.pc = s.core.csr.tvec.setWidth 48
      ∧ (∀ n, u.g n = s.g n) ∧ (∀ n, u.v n = s.v n) ∧ (∀ n, u.p n = s.p n)
      ∧ u.core.mx = s.core.mx ∧ u.core.dead = s.core.dead ∧ u.core.run = s.core.run
      ∧ ∃ r, u.core.last = some r ∧ r.code = t.code ∧ r.flags = fHND ∧ r.addr = t.addr ∧ r.detail = t.detail
        ∧ r.pc = s.pc.setWidth 64 ∧ r.atime = s.now ∧ r.task = s.core.ident.task)
    ∧ (s.core.csr.tvec.setWidth 48 = (0 : Addr) ∨ s.core.handler = true →
      (s.itemMode = false → u.core.run = .halted)
      ∧ (∀ k, s.itemMode = true → s.ownTask = some k → k.desc.flags.getLsbD 0 = false →
          u.core.run = .halted ∧ (freezeFind k.context (some k.num) u.freezing).isSome = true)
      ∧ (∀ k, s.itemMode = true → s.ownTask = some k → k.desc.flags.getLsbD 0 = true → u.core.run = .idle))
    ∧ (∀ x : Pfx, s.runs x → (s.itemMode = false ∨ s.core.handler = true) →
      let w := s.after x []
      exec (.eret x) s = .next { w with core := { w.core with
        pcc := s.core.pcc.setCursor (s.core.csr.tepc.setWidth 48), handler := false } }.done)

/-- R35, R48, R236, R293: privilege, the instructions that a culvert lacks, predicated-off instructions, and poisoned registers,
of every constructor of the pages concerned. -/
def Obligations.WhoMayExecuteWhat : Prop :=
  ∀ (s : State) (k : Fields),
    let x := k.x
    let lacks := k.vectors ++ k.general ++ k.predicates ++ k.memory ++ k.moves ++ k.permutes ++ k.matrix ++ k.engines ++ k.flumes
      ++ k.waits ++ k.ends ++ k.corpses ++ k.firmware
      ++ [.mprod x k.m 0, .tdead x k.a k.j, .exq x k.a k.j, .eret x, .ownr x k.a k.b k.c]
    let off := fun (i : Instr) => exec i s = .next ((s.after x []).ends (s.next x))
    (s.onCulvert = true → ∀ i ∈ lacks, raises i s ⟨cILL, 0, 0⟩)
    ∧ (s.onSecurity = false → ∀ i ∈ k.ciphers, raises i s ⟨cILL, 0, 0⟩)
    ∧ (s.itemMode = true → raises (.wfi x) s ⟨cPRIV, 0, 0⟩)
    ∧ (s.itemMode = true → s.onCulvert = false → ∀ i ∈ k.firmware, raises i s ⟨cPRIV, 0, 0⟩)
    ∧ (s.itemMode = true → s.onCulvert = false → s.core.handler = false → raises (.eret x) s ⟨cPRIV, 0, 0⟩)
    ∧ (s.onSecurity = false → s.onCulvert = false → raises (.ownr x k.a k.b k.c) s ⟨cPRIV, 0, 0⟩)
    ∧ (x.p = true → s.readableP [x.pred] → (s.p x.pred).getLsbD 0 = x.neg →
      (∀ i ∈ k.plain ++ k.reads ++ [.twait x k.a], off i)
      ∧ (k.imm.toNat < 64 → ∀ i ∈ [Instr.shli x k.a k.c k.imm, .shri x k.a k.c k.imm, .sari x k.a k.c k.imm], off i)
      ∧ (k.o.ord ≠ 0 → off (.fence x k.o))
      ∧ (k.a.toNat ≤ k.b.toNat → (29 < k.a.toNat ∨ k.b.toNat < 29) → off (.pushs x k.a k.b) ∧ off (.pops x k.a k.b))
      ∧ (k.j.toNat < 14 → off (.rdid x k.a k.j)) ∧ (k.j.toNat < 9 → off (.kget x k.a k.c k.j))
      ∧ (∀ n ∈ [(0x001 : Word), 0x010, 0x011, 0x013, 0x020, 0x021, 0x050],
          off (.csrr x k.a n) ∧ off (.csrw x k.a k.c n) ∧ off (.csrs x k.a k.c n) ∧ off (.csrc x k.a k.c n))
      ∧ (s.onCulvert = false →
        (∀ i ∈ k.matrix ++ k.engines ++ k.waits ++ k.ends ++ k.corpses ++ [.mprod x k.m k.a], off i)
        ∧ (k.j.toNat % 8 < 6 → off (.tdead x k.a k.j)) ∧ (k.j.toNat < 12 → off (.exq x k.a k.j))
        ∧ (s.itemMode = false → ∀ i ∈ k.firmware ++ [.wfi x, .eret x], off i)
        ∧ (s.onSecurity = true → ∀ i ∈ k.ciphers ++ [.ownr x k.a k.b k.c], off i)))
    ∧ (∀ n : RegNum, n ≠ 0 → s.core.gPois.getLsbD n.toNat = true → k.a = n → k.b = n → k.c = n →
      let copy := fun (i : Instr) => raises i s ⟨cCOPY, 0, BitVec.ofNat 64 (16 * n.toNat)⟩
      (s.runs x → (∀ i ∈ k.reads ++ [.twait x n], copy i)
        ∧ (k.imm.toNat < 64 → copy (.shli x n n k.imm) ∧ copy (.shri x n n k.imm) ∧ copy (.sari x n n k.imm))
        ∧ (k.j.toNat < 9 → copy (.kget x n n k.j))
        ∧ (s.onCulvert = false → (∀ i ∈ [Instr.mfmt x n, .mring x k.m n n, .mdrain x k.z n k.m, .mrst x n, .mprod x k.m n], copy i)
          ∧ (s.core.begins = true → s.core.ident.level ≠ 2 → ∀ i ∈ k.engines ++ k.waits ++ k.corpses, copy i)))
      ∧ (s.onCulvert = false → ∀ i ∈ k.general ++ k.memory ++ k.moves ++ k.flumes, copy i))
    ∧ (∀ n : RegNum, s.core.vPois.getLsbD n.toNat = true → s.readable [n] → k.a = n → k.b = n → k.c = n → s.onCulvert = false →
      ∀ i ∈ k.vectors ++ k.moves ++ k.permutes ++ [.vst x k.o k.i n n k.imm, .vsts x k.o k.i n n n k.imm, .vstx x k.o k.i n n n,
          .vgth x k.o k.i n n n, .vsct x k.o k.i n n n, .vstat x k.o k.i n n n k.imm, .flume x n n],
        raises i s ⟨cCOPY, 0, BitVec.ofNat 64 (512 + 16 * n.toNat)⟩)
    ∧ (∀ n : PredNum, n ≠ 0 → s.core.pPois.getLsbD n.toNat = true →
      let copy := fun (i : Instr) => raises i s ⟨cCOPY, 0, BitVec.ofNat 64 (1024 + 16 * n.toNat)⟩
      (x.p = true → x.pred = n → ∀ i ∈ k.plain ++ k.reads ++ [.twait x k.a], copy i)
      ∧ (k.q = n → k.r = n → s.onCulvert = false → ∀ i ∈ k.predicates, copy i))

/-! ## Steps of the engines -/

/-- R132, R293, R297, R299, R300, R302, R308, R310 to R312, R346, R350 to R352, R360: a culvert moves one beat at a time in
order, checks, verifies and completes; reads of the host or of a peer wait for their completions; data that cannot be read faults
the command; its MPROD waits for room in the ring, and where R322 lets one raise a fault the culvert's program has faulted
(DEDUCED, assumption 117); a cistern does one piece at a time. A freeze instant of the command's task stops it. That a mailbox
in memory of an item that is away is waited for is the reading of log entry 58 (DEDUCED), and how an access refused at issue
ends a command that of entry 101. Completes: culvertBeat, culvertCompletion, culvertFault, cisternPiece, cisternCompletion. -/
def Obligations.EnginesCarryOutTheirCommands : Prop :=
  (∀ (s : State) (u : CulvertId) (c : Cmd), s.headCmd (.culvert u) = some c →
    let i : EngineId := .culvert u
    let src := Cmd.rowAddr c.src c.sstride c.length c.beats + (if c.decrypts then 16 else 0)
    let dst := Cmd.rowAddr c.dst c.dstride c.length c.beats
    let moves := fun (t : State) => exec (.culvertBeat u) s = .next t
    let ends := fun (t : State) => exec (.culvertCompletion u) s = .next t
    let noWay := c.mbx.isNone = false ∧ s.cmdBarred i c c.mbx.cursor = true
    (c.beats < c.total →
      let barred := s.cmdBarred i c dst = true ∨ (c.mbx.isNone = false ∧ s.cmdLost i c c.mbx.cursor = true)
      ends s
      ∧ (s.cmdStopped i c = true → moves s)
      ∧ (s.cmdStopped i c = false → barred → moves (s.cmdRefused i c))
      ∧ (s.cmdStopped i c = false → ¬barred → s.cmdHeld i c [src, src + 16, dst] = true → moves s)
      ∧ (s.cmdStopped i c = false → ¬barred → s.cmdHeld i c [src, src + 16, dst] = false →
        ∀ (s1 : State) (r : Fetched), s.cmdFetch i c (beatParts src) = (s1, r) →
        (∀ a b, r = .got [some a, some b] →
          let w := if c.decrypts then s1.openBeat c (a ++ b) else (a ++ b, c.ghash)
          moves ((s1.putBeat i c dst w.1).cmdUpdate i
            { c with state := .running, beats := c.beats + 1, ghash := w.2, requests := [],
                     wrote := if c.flags.getLsbD 3 then c.wrote ++ w.1 else c.wrote }))
        ∧ (∀ xs, r = .got xs → none ∈ xs → moves (s1.cmdFault i c src 0))
        ∧ (∀ rs, r = .waits rs → moves (s1.cmdUpdate i { c with state := .running, requests := rs }))
        ∧ (r = .refused → moves (s1.cmdRefused i c)))
      ∧ (c.beats ≠ 0 → c.decrypts = false → c.requests = [] → s.plainMemory → s.fabric.lost = [] →
        ∀ p q d : Place, s.cmdSees i c src = some p → s.cmdSees i c (src + 16) = some q → s.cmdSees i c dst = some d →
          p.inModule → q.inModule → d.inModule → s.dataBad p 16 = false → s.dataBad q 16 = false →
          ∃ t, moves t ∧ Stored s t d (s.placeBytes p 16 ++ s.placeBytes q 16) false))
    ∧ (c.total ≤ c.beats →
      let goesOn := s.cmdStopped i c = false ∧ ¬noWay ∧ s.cmdHeld i c c.endReach = false
      moves s
      ∧ (s.cmdStopped i c = true → ends s)
      ∧ (s.cmdStopped i c = false → noWay → ends (s.cmdRefused i c))
      ∧ (s.cmdStopped i c = false → ¬noWay → s.cmdHeld i c c.endReach = true → ends s)
      ∧ (goesOn → c.ended = false → ∀ (s1 : State) (r : Fetched), (s.cmdSettled i c).cmdFetch i c c.endParts = (s1, r) →
        (∀ parts, r = .got parts →
          (c.decrypts = true → s1.tagFails c (parts.headD none) = true → ends (s1.tagFault i c))
          ∧ (c.decrypts = true → s1.tagFails c (parts.headD none) = false → ends (s1.copyVerified i c (parts.drop 1)))
          ∧ (c.decrypts = false → ends (s1.copyVerified i c parts)))
        ∧ (∀ rs, r = .waits rs → ends (s1.cmdUpdate i { c with requests := rs }))
        ∧ (r = .refused → ends (s1.cmdRefused i c)))
      ∧ (goesOn → c.ended = true →
        (c.flags.getLsbD 2 = false → ∃ t, ends t ∧ Ended s t i c { c with state := .complete }
          ∧ (∀ m : Place, c.mbx.isNone = false → s.plainMemory → s.cmdSees i c c.mbx.cursor = some m → m.inModule →
              Stored s t m (bytesOf 8 c.mbxval.toNat) false))
        ∧ (let issuer := s.agent c.issuer
          let suits := issuer.run = .item ∧ issuer.owner = c.context
          (c.flags.getLsbD 2 = true → (issuer.mx.ring c.ring = none ∨ ¬suits) → ends (s.engineFault i))
          ∧ ∀ r, c.flags.getLsbD 2 = true → issuer.mx.ring c.ring = some r → suits →
            (r.full = true → ends s)
            ∧ (r.full = false → ends (((((s.cmdSettled i c).releaseBy (s.agent (.culvert u)) 1).produceRing c.issuer c.ring).cmdMailbox
                i c).cmdEnd i { c with state := .complete }))))))
  ∧ (∀ (s : State) (u : CulvertId), ∃ t, exec (.culvertFault u) s = .next t ∧ .culvert u ∈ t.deviceErrors
      ∧ (t.agent (.culvert u)).run = .idle
      ∧ ∀ c, s.headCmd (.culvert u) = some c → Ended s t (.culvert u) c { c with state := .faulted, code := cINTEG })
  ∧ (∀ (s : State) (k : BitVec 4) (c : Cmd), s.headCmd (.cistern k) = some c →
    let j : EngineId := .cistern k
    let moves := fun (t : State) => exec (.cisternPiece k) s = .next t
    let ends := fun (t : State) => exec (.cisternCompletion k) s = .next t
    let noWay := c.mbx.isNone = false ∧ s.cmdBarred j c c.mbx.cursor = true
    let piece := fun (r : State × Except PieceStop Bool) => s.cmdStopped j c = false →
      (∀ fl, r.2 = .ok fl → moves ((r.1.convertCovered j c).cmdUpdate j
        { c with state := .running, beats := c.beats + 1, cflag := c.cflag || fl }))
      ∧ ∀ e, r.2 = .error e → moves (r.1.cmdFault j { c with beats := c.beats + e.beats, cflag := c.cflag || e.flagged } e.addr 0)
    (s.cmdStopped j c = true → moves s ∧ ends s)
    ∧ (c.beats < c.pieces →
      ends s
      ∧ (c.kind = .gather → piece (s.asCmd j c fun w => w.gatherPiece c c.beats))
      ∧ (c.kind = .convert → piece (s.asCmd j c fun w => w.convertPiece c c.beats))
      ∧ (c.kind = .reduce → piece (let r := s.asCmd j c fun w => w.reducePiece c c.beats; (r.1.cmdDrain j c, r.2)))
      ∧ (c.kind = .gather → s.plainMemory → ∀ p q d : Place,
          let per := c.length / 32
          let src := c.src.cursor + BitVec.ofNat 48 (c.idx.getD (c.beats / per) 0 * c.length + c.beats % per * 32)
          let dst := c.dst.cursor + BitVec.ofNat 48 (c.beats / per * c.length + c.beats % per * 32)
          s.cmdSees j c src = some p → s.cmdSees j c (src + 16) = some q → s.cmdSees j c dst = some d →
          p.inModule → q.inModule → d.inModule → s.dataBad p 16 = false → s.dataBad q 16 = false →
          ∃ t, moves t ∧ Stored s t d (s.placeBytes p 16 ++ s.placeBytes q 16) false))
    ∧ (c.pieces ≤ c.beats → moves s
      ∧ (s.mailboxAway c = true → ends s)
      ∧ (s.cmdStopped j c = false → s.mailboxAway c = false → noWay → ends (s.cmdRefused j c))
      ∧ (s.mailboxAway c = false → ¬noWay → c.mbx.isNone = false → s.cmdHeld j c [c.mbx.cursor] = true → ends s)
      ∧ (s.cmdStopped j c = false → s.mailboxAway c = false → ¬noWay →
        (c.mbx.isNone = true ∨ s.cmdHeld j c [c.mbx.cursor] = false) → ∃ t, ends t ∧ Ended s t j c { c with state := .complete }
          ∧ (∀ m : Place, c.mbx.isNone = false → s.plainMemory → s.cmdSees j c c.mbx.cursor = some m → m.inModule →
              Stored s t m (bytesOf 8 c.mbxval.toNat) false))))
  ∧ ∀ s : State,
    (∀ u, s.headCmd (.culvert u) = none → exec (.culvertBeat u) s = .next s ∧ exec (.culvertCompletion u) s = .next s)
    ∧ ∀ k, s.headCmd (.cistern k) = none → exec (.cisternPiece k) s = .next s ∧ exec (.cisternCompletion k) s = .next s

/-! ## Weirs and flumes -/

/-- R272 to R283: ARRIVE, WAITB, BARQ, GAUGE, and the completion of a generation. That a weir number above 255 shows in DETAIL
modulo 256 is the model's choice (log entry 30), and that GAUGE writes its 64 bytes as eight accesses of 8 is its reading (log
entry 32, DEDUCED). Completes: arrive, waitb, barq, gauge. -/
def Obligations.WeirsCompleteOnTheLastArrival : Prop :=
  (∀ (s : State) (x : Pfx) (a b : RegNum), s.runs x → s.onCulvert = false → s.readable [b] →
    let n := (s.gint b).toNat
    let barTrap := fun (reason : Nat) => (⟨cBAR, 0, BitVec.ofNat 64 (reason + n % 256 * 256)⟩ : Trap)
    (80 ≤ n → s.checkWeir n = .error (.trap (barTrap 2)))
    ∧ (∀ e, s.checkWeir n = .error (.trap e) → raises (.arrive x a b) s e ∧ raises (.waitb x b) s e ∧ raises (.barq x a b) s e
        ∧ (s.readable [a] → raises (.gauge x a b) s e))
    ∧ (∀ key id, s.checkWeir n = .ok (key, id) →
      let w := s.weir key
      let s1 := (s.after x [b]).release (weirScope key)
      let s2 := s1.setWeir key { s1.weir key with arrived := (s1.weir key).arrived ++ [⟨id, s1.now⟩] }
      let s3 := { s2 with core := { s2.core with lastArr := assocPut s2.core.lastArr key (s1.weir key).gen } }
      (w.hasArrived id = false → exec (.arrive x a b) s =
        .next (((s3.setInt a (BitVec.ofNat 64 (s1.weir key).gen)).settleWeir key).ends (s.next x)))
      ∧ (w.hasArrived id = true → raises (.arrive x a b) s (barTrap 6))
      ∧ (∀ g, assocGet s.core.lastArr key = some g →
          (g < w.gen → exec (.waitb x b) s = .next (((s.after x [b]).seeStep key).ends (s.next x)))
          ∧ (w.gen ≤ g → exec (.waitb x b) s = .next (s.waits (.weir key g))))
      ∧ (assocGet s.core.lastArr key = none → raises (.waitb x b) s (barTrap 7))
      ∧ writesInt (.barq x a b) s x [b] a (barqWord w (w.hasArrived id) (assocGet s.core.lastArr key))
      ∧ (s.readable [a] → ∀ s4 ps s5, (s.after x [b, a]).checkAll (extentAccesses (s.g a) a 8 8 8 Access.store) = .ok (s4, ps) →
          storePieces 8 s4 ps (match (s4.weir key).last with | some g => g.bytes | none => List.replicate 64 0) = .ok s5 →
          exec (.gauge x a b) s = .next (s5.ends (s.next x)))
      ∧ (s.readable [a] → ∀ e, (s.after x [b, a]).checkAll (extentAccesses (s.g a) a 8 8 8 Access.store) = .error (.trap e) →
          raises (.gauge x a b) s e)))
  ∧ ∀ (s : State) (key : Nat),
    let w := s.weir key
    let full := w.arrived ≠ [] ∧ ∀ c ∈ w.members, ∃ a ∈ w.arrived, a.core = c
    let t := s.settleWeir key
    (full → (t.weir key).gen = w.gen + 1 ∧ (t.weir key).arrived = [] ∧ (t.weir key).leaving = []
      ∧ (t.weir key).members = w.members.filter (fun c => !w.leaving.contains c)
      ∧ (∀ k, k ≠ key → t.weir k = s.weir k)
      ∧ ∀ u v, w.task = some u → s.task u.1 u.2 = some v → ∃ g, (t.weir key).last = some g
          ∧ (∀ a ∈ w.arrived, g.earliest ≤ a.time ∧ a.time ≤ g.latest) ∧ g.members = BitVec.ofNat 32 w.arrived.length
          ∧ g.gen = BitVec.ofNat 64 (w.gen + 1) ∧ g.latest ≤ g.release)
    ∧ (¬ full → t = s)

/-- R284 to R288: FLUME contributes once a round, FLUMW takes the result; what the channel forbids raises BAR; a round
completes with every member's contribution folded along the fixed tree. Completes: flume, flumw. -/
def Obligations.FlumesCombineTheirRound : Prop :=
  (∀ (s s1 : State) (x : Pfx) (a b c : RegNum) (e : Trap), s.onCulvert = false → s1.checkFlume (s.gint b).toNat = .error (.trap e) →
    ((s.useG [b] >>= fun w => w.useVec x [a] a false) = .ok s1 → raises (.flume x a b) s e)
    ∧ ((s.useG [b] >>= fun w => w.useVec x [] a (Pfx.keeps x)) = .ok s1 → raises (.flumw x a b c) s e))
  ∧ (∀ (s s1 : State) (x : Pfx) (a b : RegNum) (key : Nat) (id : CoreId) (cfg : FlumeCfg) (receiver : Bool), s.onCulvert = false →
    (s.useG [b] >>= fun w => w.useVec x [a] a false) = .ok s1 →
    let n := (s.gint b).toNat
    s1.checkFlume n = .ok (key, id, cfg, receiver) →
    let f := s1.flume key
    let s2 := s1.release 2
    let g := s2.flume key
    (f.contributed id = false → (receiver = true → takeResult id f.results = none) → exec (.flume x a b) s = .next
      (((s2.setFlume key { g with round := g.round ++ [⟨id, contribution (s2.active x) (s2.v a)⟩] }).settleFlume key).ends (s.next x)))
    ∧ (receiver = true → f.contributed id = true ∨ takeResult id f.results ≠ none →
        raises (.flume x a b) s ⟨cBAR, 0, BitVec.ofNat 64 (8 + n % 256 * 256)⟩)
    ∧ (receiver = false → f.contributed id = true → exec (.flume x a b) s = .next (s.waits (.flume key))))
  ∧ (∀ (s s1 : State) (x : Pfx) (a b c : RegNum) (key : Nat) (id : CoreId) (cfg : FlumeCfg), s.onCulvert = false →
    (s.useG [b] >>= fun w => w.useVec x [] a (Pfx.keeps x)) = .ok s1 →
    s1.checkFlume (s.gint b).toNat = .ok (key, id, cfg, true) →
    let f := s1.flume key
    (∀ vals count rest, takeResult id f.results = some ((vals, count), rest) → exec (.flumw x a b c) s = .next
      ((((s1.setFlume key { f with results := rest }).putElems x 32 a (vals.map fun v => some v.toNat)).setInt c
        (BitVec.ofNat 64 count)).ends (s.next x)))
    ∧ (takeResult id f.results = none → f.contributed id = true →
        exec (.flumw x a b c) s = .next (s.waits (.flume key)))
    ∧ (takeResult id f.results = none → f.contributed id = false →
        raises (.flumw x a b c) s ⟨cBAR, 0, BitVec.ofNat 64 (7 + (s.gint b).toNat % 256 * 256)⟩))
  ∧ (∀ (s s1 : State) (x : Pfx) (a b c : RegNum) (key : Nat) (id : CoreId) (cfg : FlumeCfg), s.onCulvert = false →
    (s.useG [b] >>= fun w => w.useVec x [] a (Pfx.keeps x)) = .ok s1 →
    s1.checkFlume (s.gint b).toNat = .ok (key, id, cfg, false) →
    raises (.flumw x a b c) s ⟨cBAR, 0, BitVec.ofNat 64 (7 + (s.gint b).toNat % 256 * 256)⟩)
  ∧ ∀ (s : State) (key : Nat) (cfg : FlumeCfg) (u : BitVec 8 × BitVec 32) (v : Task) (root : CoreId),
    let w := s.flume key
    let die : BitVec 2 := BitVec.ofNat 2 (key / 16)
    w.config = some cfg → w.task = some u → s.task u.1 u.2 = some v → v.flumeRoot cfg die = some root → w.round ≠ [] →
    let t := s.settleFlume key
    let result := (List.range 64).map fun i => (flumeElem cfg die root w.round i).getD (flumeEmpty cfg)
    ((∀ c ∈ w.members, ∃ r ∈ w.round, r.core = c) →
      (t.flume key).round = [] ∧ (t.flume key).results =
        w.results ++ (if cfg.all then w.round.map (·.core) else [root]).map (fun c => (c, result, w.round.length))
      ∧ ∀ k, k ≠ key → t.flume k = s.flume k)
    ∧ ((∃ c ∈ w.members, ∀ r ∈ w.round, r.core ≠ c) → t = s)

/-! ## Time, waits and accesses at their homes -/

/-- R145, R215, R220, R221, R223 to R226, R269, R277, R288, R293, R298, R305: time instructions, SIGNAL and WAITC; an event that
ends a wait carries the waiting instruction on at its instant, unless a pending fault ends the wait. That LATQ of an overflow
address answers all ones, and that WFI_WAKE is itself the event that WFI waits for, are the model's readings (log entries 33, 43,
DEDUCED); what sampling notes beside it is log entry 82. Completes: twait, tdead,
latq, signal, waitc, twaitExpiry, waitcSatisfied, cpywSatisfied, wfiWake, notBeforeLoadPerform, timedEngineStart, flumwReturn,
weirReleaseBroadcast. -/
def Obligations.TimeInstructionsAndWaits : Prop :=
  (∀ (s : State) (x : Pfx) (a : RegNum), s.runs x → s.readable [a] →
      (s.gint a ≤ s.now → exec (.twait x a) s = .next ((s.after x [a]).ends (s.next x)))
      ∧ (s.now < s.gint a → exec (.twait x a) s = .next (s.waits (.time (s.gint a)))))
  ∧ (∀ (s : State) (x : Pfx) (a b : RegNum) (sel : BitVec 4), s.runs x → s.onCulvert = false →
    (sel.toNat % 8 < 6 → let u := s.after x []
        let d := s.core.dead
        exec (.tdead x a sel) s = .next ((((if sel.getLsbD 3 then { u with core := { u.core with dead := .clear } } else u).setInt a
          (match sel.toNat % 8 with | 0 => d.count | 1 => d.time | 2 => d.arrive | 3 => d.addr | 4 => d.pc | _ => d.home)).ends (s.next x))))
    ∧ (6 ≤ sel.toNat % 8 → raises (.tdead x a sel) s ⟨cILL, 0, 0⟩)
    ∧ (s.readable [b] →
      let ad : Addr := (s.gint b).setWidth 48
      (inOverflow ad.toNat = true → writesInt (.latq x a b) s x [b] a (BitVec.allOnes 64))
      ∧ (inOverflow ad.toNat = false → ∀ p, s.resolve false false ad = .ok p → (∀ l, p.leaf = some l → l.owner = s.core.owner) →
          writesInt (.latq x a b) s x [b] a (match s.latency p with | some n => BitVec.ofNat 64 n | none => BitVec.allOnes 64))
      ∧ (inOverflow ad.toNat = false → ∀ d, s.resolve false false ad = .error d →
          raises (.latq x a b) s ⟨cTRANS, ad.setWidth 64, d⟩))
    ∧ (s.readable [a, b] →
      let k : BitVec 12 := (s.gint a).setWidth 12
      exec (.signal x a b) s = .next ((((s.after x [a, b]).release 3).signalCounter s.core.owner k (s.gint b)).ends (s.next x))
      ∧ (s.gint b ≤ s.counter s.core.owner k → exec (.waitc x a b) s = .next ((s.after x [a, b]).ends (s.next x)))
      ∧ (s.counter s.core.owner k < s.gint b → exec (.waitc x a b) s = .next (s.waits (.counter k (s.gint b))))))
  ∧ (∀ (s : State) (n : BitVec 8) (c : Ctx) (k : BitVec 12) (v : Word), s.ctx n = some c → c.num = n →
      (s.signalCounter n k v).counter n k =
        if (s.counter n k).toNat + v.toNat < 2 ^ 64 then s.counter n k + v else BitVec.allOnes 64)
  ∧ (∀ (s u : State) (ag : AgentId) (i : Instr), (s.focus ag).core.wait ≠ none → (s.focus ag).core.takesPending = false →
      (s.focus ag).fetchInstr = .ok (u, i) →
      let n := u.next
      let wait := u.core.wait
      let notes := u.observe u.core.ir
      let goes := fun (e : Instr) (f : State → State) => exec e s = .next (notes (u.instantly f))
      let again := fun (e : Instr) => ∃ t, exec i { u with still := true } = .next t ∧ exec e s = .next (notes { t with still := false })
      (∀ x a, i = .twait x a → again (.twaitExpiry ag) ∧ (u.runs x → u.readable [a] → u.gint a ≤ u.now →
          goes (.twaitExpiry ag) fun v => (v.after x [a]).ends (n x)))
      ∧ (∀ x a b, i = .waitc x a b → again (.waitcSatisfied ag) ∧ (u.runs x → u.onCulvert = false → u.readable [a, b] →
          u.gint b ≤ u.counter u.core.owner ((u.gint a).setWidth 12) →
          goes (.waitcSatisfied ag) fun v => (v.after x [a, b]).ends (n x)))
      ∧ (∀ x a b, i = .cpyw x a b → again (.cpywSatisfied ag) ∧ ∀ p, u.runs x → u.onCulvert = false → u.readable [a, b] →
          u.quiet → u.core.begins = true → u.access (memAccess (u.g a) a (u.g a).cursor 8).load = .ok p → isAway p.loc = false →
          (u.gint b).toNat ≤ natOf (u.placeBytes p 8) →
          goes (.cpywSatisfied ag) fun v => ((v.after x [a, b]).fillTlb p).ends (n x))
      ∧ (∀ x, i = .wfi x → u.runs x → u.itemMode = false → goes (.wfiWake ag) fun v => (v.after x []).ends (n x))
      ∧ (∀ x o z a b r off, i = .ldnb x o z a b r off → again (.notBeforeLoadPerform ag)
          ∧ ∀ q d bytes tag, u.runs x → u.readable [b, r] → wait = some (.notBefore (u.gint r) [q]) → q.answer = none →
            q.home = some d → isHostLoc q.loc = false → inMount q.va.toNat = false → u.gint r ≤ (u.dieAt d).atime →
            u.readRequest q = .local bytes tag →
            goes (.notBeforeLoadPerform ag) fun v =>
              (if z = 4 then (v.after x [b, r]).setG a (loadCapValue (u.g b) bytes tag)
                else (v.after x [b, r]).setInt a (sextBytes (timedSize z) (natOf bytes))).ends (n x))
      ∧ (∀ x o w a b r off, i = .vldnb x o w a b r off → again (.notBeforeLoadPerform ag))
      ∧ (∀ x o a b r, i = .cpy x o a b r ∨ i = .xgth x o a b r ∨ i = .xred x o a b r ∨ i = .xcvt x o a b r →
          again (.timedEngineStart ag) ∧ ∀ t k j d, u.runs x → u.onCulvert = false → wait = some (.engine t (some k)) →
            ticketEngine k = some j → t ≤ (u.dieAt j.die).atime → u.headCmd j = none → cmdFind k (u.engine j).queue = some d →
            goes (.timedEngineStart ag) fun v =>
              ((((v.after x []).cmdUpdate j { d with state := .running }).loadOwner j).setInt a k).ends (n x))
      ∧ (∀ x o acc qa qb ka kb ta tb r, i = .mma x o acc qa qb ka kb ta tb r → again (.timedEngineStart ag))
      ∧ (∀ x o acc qa qb qm ka kb r, i = .mmas x o acc qa qb qm ka kb r → again (.timedEngineStart ag))
      ∧ (∀ x a b r c, ag = .core c → i = .flumw x a b r → again (.flumwReturn c)
          ∧ ∀ (v : State) key id cfg vals count rest, u.onCulvert = false →
            (({ u with still := true } : State).useG [b] >>= fun w => w.useVec x [] a (Pfx.keeps x)) = .ok v →
            v.checkFlume (u.gint b).toNat = .ok (key, id, cfg, true) →
            takeResult id (v.flume key).results = some ((vals, count), rest) →
            exec (.flumwReturn c) s = .next (notes { ((((v.setFlume key { v.flume key with results := rest }).putElems x 32 a
              (vals.map fun w => some w.toNat)).setInt r (BitVec.ofNat 64 count)).ends (n x)) with still := false })))
  ∧ (∀ (s u : State) (c : CoreId) (x : Pfx) (b : RegNum),
      let f := (s.focus (.core c)).seesRelease
      f.core.wait ≠ none → f.core.takesPending = false → f.fetchInstr = .ok (u, .waitb x b) →
      (∃ t, exec (.waitb x b) { u with still := true } = .next t
        ∧ exec (.weirReleaseBroadcast c) s = .next (u.observe u.core.ir { t with still := false }))
      ∧ ∀ key id g, u.runs x → u.onCulvert = false → u.readable [b] → u.checkWeir (u.gint b).toNat = .ok (key, id) →
        assocGet u.core.lastArr key = some g → g < (u.weir key).gen →
        exec (.weirReleaseBroadcast c) s =
          .next (u.observe u.core.ir (u.instantly fun v => ((v.after x [b]).seeStep key).ends (u.next x))))
  ∧ ∀ (s : State) (ag : AgentId) (c : CoreId),
      let f := (s.focus (.core c)).seesRelease
      ((s.focus ag).core.wait = none ∨ (s.focus ag).core.takesPending = true →
        ∀ e ∈ [Instr.twaitExpiry ag, .waitcSatisfied ag, .cpywSatisfied ag, .wfiWake ag, .notBeforeLoadPerform ag,
               .timedEngineStart ag], exec e s = .next (s.focus ag))
      ∧ ((s.focus (.core c)).core.wait = none ∨ (s.focus (.core c)).core.takesPending = true →
          exec (.flumwReturn c) s = .next (s.focus (.core c)) ∧ exec (.weirReleaseBroadcast c) s = .next f)

/-- R199, R217, R218, R222, R223, R351: timed stores arrive, are placed in the order of their keys, or are missed; the misses of
one instruction are reported together. Completes: timedStoreArrival, timedStoreApply, deadlineMissReport. -/
def Obligations.TimedStoresArriveApplyOrMiss : Prop :=
  (∀ (s : State) (k : Nat) (y : Timed), listAt s.timed k = some y →
    let sel := fun (z : Timed) => z.arrival = none ∧ z.together y = true ∧ z.element = y.element
    let a := fun (z : Timed) => let next := (s.dieAt z.homeDie).atime + 1; if next < z.least then z.least else next
    ∃ t, exec (.timedStoreArrival k) s = .next t ∧ t = { s with timed := t.timed, misses := t.misses }
      ∧ (∀ z ∈ s.timed, sel z → a z ≤ z.t → { z with arrival := some (a z) } ∈ t.timed)
      ∧ (∀ z ∈ s.timed, sel z → z.t < a z → (⟨z, a z, false⟩ : Miss) ∈ t.misses)
      ∧ (∀ z ∈ s.timed, ¬sel z → z ∈ t.timed) ∧ (∀ m ∈ s.misses, m ∈ t.misses)
      ∧ t.timed.length + t.misses.length = s.timed.length + s.misses.length)
  ∧ (∀ (s : State) (die : BitVec 2),
    let sel := fun (y : Timed) => y.homeDie = die && s.timedDue y
    let due := timedSort (s.timed.filter sel)
    due.Perm (s.timed.filter sel) ∧ due.Pairwise (fun y z => y.rank ≤ z.rank)
    ∧ ∃ t, exec (.timedStoreApply die) s = .next t ∧ t.mem = (s.applyAll due).mem ∧ (∀ y ∈ t.timed, sel y = false)
      ∧ (∀ y, due = [y] → s.bad = [] → Memory.wf s.mem = true → t.readBytes y.loc y.bytes.length = y.bytes))
  ∧ (∀ (s : State) (k : Nat) (m : Miss), listAt s.misses k = some m → m.store.device ≠ s.device →
    exec (.deadlineMissReport k) s = .next { s with misses := removeAt k s.misses, fabric := { s.fabric with
      replies := s.fabric.replies ++ [⟨m.store.device, m.store.seq, .missed m.a⟩] } })
  ∧ ∀ (s : State) (k : Nat) (m : Miss), listAt s.misses k = some m → m.store.device = s.device → s.core.agent = m.store.issuer →
    s.core.holds m.store.origin = true →
    let d := s.core.dead
    let s1 := ({ s with misses := removeAt k s.misses } : State).arriveAll fun z => z.together m.store
    let ms := s1.misses.filter fun n => n.store.together m.store
    let low := lowestMiss m ms
    ∃ t, exec (.deadlineMissReport k) s = .next t ∧ t.misses = s1.misses.filter (fun n => !n.store.together m.store)
      ∧ t.core.dead = (Core.missed s.device s.core (m :: ms)).dead
      ∧ (d.count = 0 → ms = [] →
          t.core.dead = ⟨1, m.store.t, m.a, m.store.va.setWidth 64, m.store.pc.setWidth 64, homeWord m.store s.device⟩)
      ∧ (d.count ≠ 0 → ms = [] → t.core.dead = { d with count := if d.count = BitVec.allOnes 64 then d.count else d.count + 1 })
      ∧ (m.store.quiet = true ∨ (∃ r ∈ s.core.pending, r.code = cDLMISS) → t.core.pending = s.core.pending)
      ∧ (m.store.quiet = false → (∀ r ∈ s.core.pending, r.code ≠ cDLMISS) → s.core.pending.length < 16 →
          ∃ r, t.core.pending = s.core.pending ++ [r] ∧ r.code = cDLMISS ∧ r.addr = low.store.va.setWidth 64 ∧ r.detail = missDetail low)
      ∧ (low = m ∨ low ∈ ms) ∧ ∀ n, n = m ∨ n ∈ ms → low.store.element ≤ n.store.element

/-- R122 to R130, R138, R147, R148, R361: page walks, writes performed at their homes unless those refuse them, atomics in
their slots, imprecise faults taken at the boundary. Completes: pageWalk, homeAccessPerform, scratchpadRmwSlot, impreciseFaultTake. -/
def Obligations.AccessesArePerformedAtTheirHomes : Prop :=
  (∀ (s : State) (c : CoreId) (n : BitVec 8) (va : Addr) (k : Ctx), assocGet s.contexts n.toNat = some k →
    let held := s.tlbLookup n va.toNat (buffersOf (.core c))
    (∀ l, held = none → s.mapOf k va.toNat = .ok l → (inWindow va.toNat = true ∨ aliasFind l va.toNat s.tlb = none) →
      ∃ t, exec (.pageWalk c n va) s = .next t ∧ t = { s with tlb := t.tlb }
        ∧ t.tlbLookup n va.toNat (buffersOf (.core c)) = some l
        ∧ ∀ e ∈ t.tlb, e ∈ s.tlb ∨ e.buffer ∈ buffersOf (.core c) ∧ e.context = n ∧ e.va = l.pageOf va.toNat ∧ e.leaf = l)
    ∧ (∀ l, s.mapOf k va.toNat = .ok l → inWindow va.toNat = false → aliasFind l va.toNat s.tlb ≠ none →
        exec (.pageWalk c n va) s = .next s)
    ∧ (∀ e, s.mapOf k va.toNat = .error e → exec (.pageWalk c n va) s = .next s)
    ∧ (held ≠ none → exec (.pageWalk c n va) s = .next s))
  ∧ (∀ (s : State) (k : Nat) (f : Flight) (go keep : List Flight), listAt s.flights k = some f →
    splitDue (fun _ => false) [f] (s.flights.take k) = (go, keep) →
    exec (.homeAccessPerform k) s = .next { s.performAll (go.filter fun g => !s.refuses g) with
      flights := go.filter s.refuses ++ (keep ++ s.flights.drop (k + 1)) }
    ∧ (∀ g, s.refuses g = true ↔ isHostLoc g.loc = false ∧ s.pastFreeze g.context g.task (s.zoneAt g.loc g.va) = true)
    ∧ (go ++ keep).Perm (s.flights.take (k + 1)) ∧ (∀ g ∈ keep, Flight.ordered g f = false)
    ∧ (go = [f] → f.colour = none → s.bad = [] → Memory.wf s.mem = true →
        (s.performAll go).readBytes f.loc f.bytes.length = f.bytes))
  ∧ (∀ (s : State) (k : Nat), listAt s.flights k = none → exec (.homeAccessPerform k) s = .next s)
  ∧ (∀ (s : State) (die : BitVec 2) (cluster : BitVec 7) (slot : BitVec 4) (ag : AgentId) (loc : Nat) (va : Addr) (wide : Bool) (op : BitVec 3)
      (arg cmp : Word),
    let k := die.toNat * 128 + cluster.toNat
    let first := (s.cluster k).frame
    let u := s.rmwFrame k first ((slot.toNat + 10 - first) % 10)
    slot.toNat < 10 → first < 10 → slotAgent k slot.toNat = ag → (u.agent ag).wait = some (.rmw loc va wide op arg cmp none) →
    let refused := u.refusesAt (u.agent ag).owner (u.agent ag).ident.task loc va
    (refused = false → u.bad = [] → Memory.wf u.mem = true →
      let n := if wide then 8 else 4
      let old := u.readNat loc n
      ∃ t, exec (.scratchpadRmwSlot die cluster slot) s = .next t
        ∧ (t.agent ag).wait = some (.rmw loc va wide op arg cmp (some (BitVec.ofNat 64 old)))
        ∧ t.readNat loc n = (match atomicNew op n old arg.toNat cmp.toNat with | some v => v % 2 ^ (8 * n) | none => old)
        ∧ (t.cluster k).frame = (slot.toNat + 1) % 10)
    ∧ (refused = true → ∃ t, exec (.scratchpadRmwSlot die cluster slot) s = .next t ∧ t.mem = u.mem
        ∧ (t.agent ag).wait = some (.rmw loc va wide op arg cmp none) ∧ (t.cluster k).frame = (slot.toNat + 1) % 10))
  ∧ (∀ (s : State) (die : BitVec 2) (cluster : BitVec 7) (slot : BitVec 4), 10 ≤ slot.toNat →
      exec (.scratchpadRmwSlot die cluster slot) s = .next s)
  ∧ ∀ (s : State) (ag : AgentId),
    let f := s.focus ag
    (∀ r rest, f.core.pending = r :: rest → f.core.handler = false → f.core.issuedWait = false → exec (.impreciseFaultTake ag) s =
      .next ((({ f.abandonMark with core := { f.abandonMark.core with pending := rest } } : State).takeFault r 1).done))
    ∧ (f.core.pending = [] ∨ f.core.handler = true ∨ f.core.issuedWait = true → exec (.impreciseFaultTake ag) s = .next f)

/-! ## Items and tasks -/

/-- R66, R74, R144, R231, R240, R242, R360: the item that ITEM_START starts holds what the manual gives it; none starts while
commands of the last one run on, or once the zone has reached a freeze instant of the task. That SOVP and SOVL of the descriptor
are cut to 48 bits is the model's choice (log entry 94), as are values that the manual leaves open (log entry 1). Completes:
itemStart. -/
def Obligations.ItemsStartAsTheManualSays : Prop :=
  ∀ (s : State) (c : CoreId) (t : Task) (slot : Nat) (q : Queued) (rest : List Queued),
    let f := s.focus (.core c)
    f.core.run = .idle → taskOn c f.tasks = some t → indexIn c t.slots = some slot →
    assocGetD t.queues slot [] = q :: rest →
    let held := f.leftBusy c = true ∨ f.pastFreeze t.context t.num c.die = true
    (held → exec (.itemStart c) s = .next f)
    ∧ (¬held → q.saved = none → q.level = 0 → ∃ u, exec (.itemStart c) s = .next u ∧ u.core.agent = .core c ∧ u.core.run = .item
      ∧ u.core.pcc = t.desc.code.setCursor (t.desc.entry.setWidth 48)
      ∧ (∀ n : RegNum, u.g n = if n = 0 then .null else if n = 1 then t.desc.arg else if n = 28 then taskCap t.num
          else if n = 29 then sumpCap t.desc.sumpBytes else if n = 31 then dataRoot else .null)
      ∧ (∀ n, u.v n = 0) ∧ u.core.csr.sovp = low48 t.desc.sovp ∧ u.core.csr.sovl = low48 t.desc.sovl ∧ u.core.csr.fcsr = 0
      ∧ u.core.csr.tvec = 0 ∧ u.core.csr.klead = f.core.csr.klead ∧ u.core.handler = false ∧ u.core.pending = []
      ∧ u.core.ident.level = 0 ∧ u.core.ident.item = 0 ∧ u.core.ident.task = t.num ∧ u.core.dead = ⟨0, 0, 0, 0, 0, 0⟩
      ∧ (∀ a, a < 0x80000 → u.byteAt (tcmLoc c.index a) = 0))
    ∧ (∀ e, ¬held → q.saved = none → q.level ≠ 0 → (f.cluster c.clusterKey).half q.level = some e → ∃ u, exec (.itemStart c) s = .next u
      ∧ u.core.run = .item ∧ u.core.pcc = e.pcc ∧ u.core.ident.item = q.index ∧ u.core.ident.items = e.n
      ∧ u.core.ident.level = q.level ∧ (∀ n, u.v n = e.v[n.toNat])
      ∧ (∀ n : RegNum, u.g n = if n = 0 then .null else if n = e.dest then intReg (BitVec.ofNat 64 q.index) else e.g[n.toNat])
      ∧ (∀ n : RegNum, u.core.gPois.getLsbD n.toNat = !(e.gMask.getLsbD n.toNat || n = 0 || n = e.dest))
      ∧ (∀ n : RegNum, u.core.gInh.getLsbD n.toNat = (e.gMask.getLsbD n.toNat && n ≠ 0 && n ≠ e.dest))
      ∧ u.core.csr.fcsr = e.csr.fcsr ∧ u.core.csr.tvec = e.csr.tvec ∧ u.core.handler = false ∧ u.core.regionBase = e.base
      ∧ u.core.regionLen = e.len)
    ∧ (∀ v, ¬held → q.saved = some v → q.spill = none → ∃ u, exec (.itemStart c) s = .next u ∧ u.core.agent = .core c
      ∧ u.core.run = v.run ∧ u.core.pcc = v.pcc ∧ u.core.g = v.g ∧ u.core.v = v.v ∧ u.core.p = v.p ∧ u.core.pending = v.pending
      ∧ u.core.handler = v.handler ∧ u.core.ident = { v.ident with cls := t.cls } ∧ u.core.csr.klead = f.core.csr.klead)

/-- R232 to R250: FREEZE, RETIRE, YIELD and EXQ; what FREEZE makes of a level, and what the end of an item leaves where no write
is on its way. That an agent
with no task becomes item 0 alone, and that a FREEZE of level 0 waits for arrivals after its checks, is log entry 34 (DESIGN
CHOICE). Completes: freeze, retire, retireValue, yield, exq. -/
def Obligations.ItemsFreezeYieldAndRetire : Prop :=
  (∀ (s : State) (x : Pfx) (a b c : RegNum) (sel : BitVec 4), s.runs x → s.onCulvert = false →
    (s.core.ident.level = 2 → raises (.freeze x a b c) s ⟨cCOPY, 0, 2⟩)
    ∧ (s.core.ident.level ≠ 2 → s.readable [c, b] → ∀ e, (s.after x [c, b]).freezePlace b = .error (.trap e) →
        raises (.freeze x a b c) s e)
    ∧ (s.core.ident.level ≠ 2 → s.readable [c, b] → ∀ p, (s.after x [c, b]).freezePlace b = .ok p →
      let n := (s.gint c).toNat
      let s1 := (s.after x [c, b]).beforeAccess p 64
      let d := freezeDesc (natOf (s1.placeBytes p 64))
      let dest : BitVec 32 := BitVec.twoPow 32 a.toNat ||| 1
      (d.ok = false → raises (.freeze x a b c) s ⟨cCOPY, 0, 1⟩)
      ∧ (d.ok = true → (n = 0 ∨ 2 ^ 32 < n) → raises (.freeze x a b c) s ⟨cCOPY, 0, 5⟩)
      ∧ (d.ok = true → 0 < n → n ≤ 2 ^ 32 → ∀ t id, s1.ownTask = some t → s1.core.agent = .core id →
        (∀ e, s1.freezeFits t d n id = .error (.trap e) → raises (.freeze x a b c) s e)
        ∧ (∀ w, s1.freezeFits t d n id = .error (.wait w) → exec (.freeze x a b c) s = .next (s.waits w)))
      ∧ (d.ok = true → 0 < n → n ≤ 2 ^ 32 → ∀ s2 s3 s4, s1.useG (maskRegs (d.gmask &&& ~~~dest)) = .ok s2 →
        s2.useV (maskRegs d.vmask) = .ok s3 → s3.useP (maskPreds (d.pmask &&& ~~~1)) = .ok s4 →
        (s1.ownTask = none → exec (.freeze x a b c) s =
          .next ((((s4.release 3).freezeAlone x a d n).setInt a 0).ends (s.next x)))
        ∧ (∀ t id, s1.ownTask = some t → s1.core.agent = .core id →
          (s1.freezeFits t d n id = .ok () → exec (.freeze x a b c) s =
            .next ((((s4.release 3).freezeTeam x a d n t id).setInt a 0).ends (s.next x)))
          ∧ (s.core.ident.level = 0 → t.desc.result.length < 16 * n → raises (.freeze x a b c) s ⟨cCOPY, 0, 6⟩))))
    ∧ (s.core.mx.queue = [] → s.enginesBusy = false →
      (∀ p, (s.after x []).resultPlace = .ok p → exec (.retire x) s = .next (((s.after x []).retireWith p 0 0 0).ends (s.next x)))
      ∧ (s.readable [a] → ∀ p, (s.after x [a]).resultPlace = .ok p → exec (.retireValue x a) s =
          .next (((s.after x [a]).retireWith p (s.gint a) 1 0).ends (s.next x))))
    ∧ ((s.core.mx.queue ≠ [] ∨ s.enginesBusy = true) → exec (.retire x) s = .next (s.waits (.room none))
        ∧ (s.readable [a] → exec (.retireValue x a) s = .next (s.waits (.room none))))
    ∧ (s.core.mx.queue = [] → s.enginesBusy = false →
        (∀ e, (s.after x []).resultPlace = .error (.trap e) → raises (.retire x) s e)
        ∧ (s.readable [a] → ∀ e, (s.after x [a]).resultPlace = .error (.trap e) → raises (.retireValue x a) s e))
    ∧ (s.ownQueue = none ∨ s.core.resident = true ∨ (∃ t i, s.ownQueue = some (t, i, [])) →
        exec (.yield x) s = .next ((s.after x []).ends (s.next x)))
    ∧ (∀ t i q rest v cs, s.ownQueue = some (t, i, q :: rest) → s.core.resident = false →
      let u := (s.after x []).release 5
      u.liftCommands u.core.kicked [AgentId.clusterOf u.core.agent] = (v, cs) →
      let w := v.setTask { t with queues := assocPut t.queues i (q :: rest ++ [v.yieldEntry x cs]) }
      exec (.yield x) s = .next ({ w with core := w.core.rest }.ends (s.next x)))
    ∧ (let k := (s.after x []).core
      let l := k.ident.level
      let answers := fun (n : BitVec 4) (w : Word) => writesInt (.exq x a n) s x [] a w
      (∀ t i q, (s.after x []).ownQueue = some (t, i, q) → answers 0 (BitVec.ofNat 64 ((q.filter fun e => e.level = l).map (·.count)).sum))
      ∧ (∀ t, (s.after x []).ownTask = some t →
          answers 1 (BitVec.ofNat 64 (if l = 2 then t.retired2 else if l = 1 then t.retired1 else 0)))
      ∧ answers 2 (if l = 2 then BitVec.ofNat 64 k.ident.parent else 0) ∧ answers 3 (BitVec.ofNat 64 k.own.length)
      ∧ answers 4 (k.gInh.setWidth 64) ∧ answers 5 (k.gPois.setWidth 64) ∧ answers 6 (k.vInh.setWidth 64)
      ∧ answers 7 (k.vPois.setWidth 64) ∧ answers 8 (k.pInh.setWidth 64 ||| k.pPois.setWidth 64 <<< 16)
      ∧ answers 9 (if k.resident = true then 1 else 0) ∧ answers 10 (BitVec.ofNat 64 k.regionBase)
      ∧ answers 11 (BitVec.ofNat 64 (k.regionLen / 256)) ∧ (sel.toNat < 12 → ∃ w, answers sel w))
    ∧ (12 ≤ sel.toNat → raises (.exq x a sel) s ⟨cILL, 0, 0⟩))
  ∧ (∀ (s : State) (x : Pfx) (a : RegNum) (d : FreezeDesc) (n : Nat) (t : Task) (id : CoreId), s.ownTask = some t →
    let u := s.freezeTeam x a d n t id
    let k := u.core
    let size := t.slots.length
    let top := s.core.ident.level = 0
    let fills := fun (e : Exemplar) => e.n = n ∧ e.left = n ∧ e.pcc = s.core.pcc.setCursor (s.next x) ∧ e.base = d.base ∧ e.len = d.len
      ∧ e.g = s.core.g ∧ e.v = s.core.v ∧ e.p = s.core.p ∧ e.dest = a
    k.ident = { s.core.ident with level := if top then 1 else 2, item := 0, items := n, parent := if top then 0 else s.core.ident.item }
    ∧ (∀ r : RegNum, k.gPois.getLsbD r.toNat = (s.core.gPois.getLsbD r.toNat || (!d.gmask.getLsbD r.toNat && r ≠ 0 && r ≠ a)))
    ∧ k.regionBase = d.base ∧ k.regionLen = d.len ∧ k.g = s.core.g
    ∧ ∃ v, u.task t.context t.num = some v ∧ v.live = t.live + (n - 1)
      ∧ (top → v.level = 1 ∧ v.n1 = n ∧ (∀ c ∈ t.clusterKeys, ∃ e, (u.cluster c).half1 = some e ∧ fills e)
        ∧ (∀ i, i < min n size → let first := if i = 0 then size else i
            assocGetD v.queues i [] = assocGetD t.queues i [] ++ (if n ≤ first then [] else
              [⟨1, first, size, (n - first + size - 1) / size, 0, none, none, none, []⟩]))
        ∧ (t.revival = none → ∀ w ∈ t.weirKeys, (u.weir w).resident = d.res ∧ (u.weir w).members =
            ((if d.res then t.slots.take n else []).filter fun c => 256 ≤ w || c.die.toNat = w / 64)))
      ∧ (¬top → (∃ e, (u.cluster id.clusterKey).half2 = some e ∧ fills e) ∧ (∀ w, u.weir w = s.weir w)))
  ∧ (∀ (new q : List Queued), ∃ before after, q = before ++ after ∧ queueInsert new q = before ++ new ++ after
      ∧ (∀ e ∈ before, e.level = 2 ∨ e.saved.isSome = true) ∧ ∀ e rest, after = e :: rest → e.level ≠ 2 ∧ e.saved = none)
  ∧ (∀ (s : State) (p : Option Place) (value : Word) (status code : Nat),
      s.retireWith p value status code = (match p with
        | some p => (s.release 3).store p (resultBytes value status code) false
        | none => s.release 3).leaveItem
      ∧ resultBytes value status code = bytesOf 8 value.toNat ++ [BitVec.ofNat 8 status, BitVec.ofNat 8 code, 0, 0, 0, 0, 0, 0])
  ∧ ∀ (s : State) (t : Task) (id : CoreId), s.ownTask = some t → s.core.agent = .core id → s.flights = [] →
    let u := s.leaveItem
    let k := s.core.ident
    let whole := k.level = 1 ∨ k.level = 2 ∧ k.item = 0
    u.core.run = .idle ∧ u.core.pending = [] ∧ u.core.mx.queue = []
    ∧ (∃ v, u.task t.context t.num = some v ∧ v.live = t.live - 1 ∧ v.retired1 = (if whole then t.retired1 + 1 else t.retired1)
        ∧ v.retired2 = (if k.level = 2 then t.retired2 + 1 else t.retired2) ∧ (t.live ≤ 1 → v.state = .done))
    ∧ (¬(k.level = 2 ∧ k.item ≠ 0) → ∀ w ∈ t.weirKeys, id ∉ (u.weir w).members ∨ id ∈ (u.weir w).leaving)

/-- R228, R255, R256, R258 to R262, R270, R346, R402: the headgate: verdicts of the table, commands that are accepted, LAUNCH
from an item and from an internal queue. Descriptors and flume configurations are read by requests, which wait for their
completions where they lie in host or peer memory. The model's readings: the internal queue of a context that migrates launches
nothing (log entry 50, DEDUCED from R402); it comes before a LAUNCH of the intake queue (log entry 105, DEDUCED); unused bits of
LAUNCH and SIGNAL are ignored (log entry 125, DESIGN CHOICE). Completes: intakeLaunch, intakeKill, intakeSignal, resync, intakeNop, intakeBadOpcode,
headgateHandover, internalQueueLaunch, launch. -/
def Obligations.CommandsPassTheHeadgate : Prop :=
  (∀ (e a n : Word) (r : Bool), verdict .retired e a r n = .reject 5 .retired
    ∧ (verdict .stopped e a r n = if r = true ∧ e.toNat ≤ a.toNat ∧ a.toNat < n.toNat then .accept else .reject 4 .stopped)
    ∧ (verdict .isOpen e a r n = if a.toNat < e.toNat then .reject 2 .isOpen else if e.toNat < a.toNat then .reject 3 .stopped
        else if r = true ∧ n.toNat ≤ a.toNat then .badResync else .accept))
  ∧ (∀ (s : State) (q : BitVec 6) (b : Nat), s.nextSlot q.toNat = some b →
    let f := q.toNat
    let c := openCommand f (s.fn f).key.toNat b
    let u := s.handover f
    let read := u.setFn f { u.fn f with qhead := low32 ((u.fn f).qhead + 1) }
    let done := fun (w : State) => w.journalBy f (c.entry f w.packageTime 2 0 0)
    let event := if c.opcode = 1 then Instr.intakeLaunch q else if c.opcode = 2 then .intakeKill q
      else if c.opcode = 3 then .intakeSignal q else if c.opcode = 4 then .resync q else if c.opcode = 5 then .intakeNop q
      else .intakeBadOpcode q
    (c.authentic = false → exec event s = .next (read.reject f c.accession 1))
    ∧ (c.authentic = true → ∀ reason st, verdict (u.fn f).qstate (u.fn f).expect c.accession (c.opcode = 4) (BitVec.ofNat 64 c.payload)
          = .reject reason st →
        let w := read.reject f c.accession reason
        exec event s = .next (w.setFn f { w.fn f with qstate := st }))
    ∧ (c.authentic = true → verdict (u.fn f).qstate (u.fn f).expect c.accession (c.opcode = 4) (BitVec.ofNat 64 c.payload) = .badResync →
        exec event s = .next ((read.reject f c.accession 8).consume f c.accession))
    ∧ (c.authentic = true → verdict (u.fn f).qstate (u.fn f).expect c.accession (c.opcode = 4) (BitVec.ofNat 64 c.payload) = .accept →
      (read.contextBound f c = false → exec event s = .next ((read.reject f c.accession 7).consume f c.accession))
      ∧ (read.contextBound f c = true →
        (c.opcode = 1 → s.accepts f c = true →
          let v := u.internalAll c.context 256
          let w := v.handover f
          let took := w.setFn f { w.fn f with qhead := low32 ((w.fn f).qhead + 1) }
          let queued := ∃ k, v.ctx c.context = some k ∧ k.internal ≠ []
          (queued → exec (.intakeLaunch q) s = .next v)
          ∧ (¬queued → v.launchReading f c = .waits → exec (.intakeLaunch q) s = .next v)
          ∧ (∀ rs, ¬queued → v.launchReading f c = .sends rs →
              exec (.intakeLaunch q) s = .next (v.setFn f { v.fn f with reading := (v.fn f).reading ++ rs }))
          ∧ (¬queued → ((∃ d rest, v.launchReading f c = .got d rest) ∨ ∃ code, v.launchReading f c = .fault code) →
              verdict (w.fn f).qstate (w.fn f).expect c.accession false (BitVec.ofNat 64 c.payload) = .accept →
              took.contextBound f c = true →
              exec (.intakeLaunch q) s = .next ((took.consume f c.accession).intakeLaunch f c)))
        ∧ (c.opcode = 2 → exec (.intakeKill q) s = .next ((read.consume f c.accession).intakeKill f c))
        ∧ (c.opcode = 3 → exec (.intakeSignal q) s = .next ((done (read.consume f c.accession)).signalCounter c.context
            (BitVec.ofNat 12 c.payload) (BitVec.ofNat 64 (c.payload >>> 64))))
        ∧ (c.opcode = 4 → exec (.resync q) s = .next
            (done (read.setFn f { read.fn f with expect := BitVec.ofNat 64 c.payload, qstate := .isOpen })))
        ∧ (c.opcode = 5 → exec (.intakeNop q) s = .next (done (read.consume f c.accession)))
        ∧ (c.opcode = 0 ∨ 5 < c.opcode.toNat → exec (.intakeBadOpcode q) s =
            .next ((read.reject f c.accession 6).consume f c.accession)))))
  ∧ (∀ (s : State) (q : Nat),
      let r := match s.leading q with
        | some d => if s.leaderFor q = some d then s else s.releaseScheduler d
        | none => s
      (q < 64 → exec (.headgateHandover q) s = .next (r.setFn q { r.fn q with leader := r.leaderFor q }))
      ∧ (64 ≤ q → q < 320 → ∃ t, exec (.headgateHandover q) s = .next t ∧ t = { r with internalLeader := t.internalLeader }
          ∧ assocGet t.internalLeader (q - 64) = r.leaderFor q)
      ∧ (320 ≤ q → exec (.headgateHandover q) s = .next s))
  ∧ (∀ (s : State) (n : BitVec 8) (k : Ctx) (l : Launch) (rest : List Launch), s.ctx n = some k → k.internal = l :: rest →
      ((s.leaderFor (64 + n.toNat)).isSome = true → k.migrating = none →
        let becomes := fun (t : State) => exec (.internalQueueLaunch n) s = .next t
        (∀ cfgs rest, s.internalReading k l = .got cfgs rest → becomes (s.internalLaunch k l cfgs))
        ∧ (∀ code, s.internalReading k l ≠ .fault code)
        ∧ (∀ rs, s.internalReading k l = .sends rs → becomes (s.setCtx { k with reading := k.reading ++ rs }))
        ∧ (s.internalReading k l = .waits → becomes s))
      ∧ (s.leaderFor (64 + n.toNat) = none ∨ k.migrating ≠ none → exec (.internalQueueLaunch n) s = .next s))
  ∧ (∀ (s : State) (q : Nat) (j : Journal) (t : Task), s.refusal t = none → ∃ u, s.acceptTask q j t = u
      ∧ u.task t.context t.num = some { t with seq := s.nextSeq } ∧ u.nextSeq = s.nextSeq + 1)
  ∧ ∀ (s : State) (x : Pfx) (a b : RegNum), s.runs x → s.onCulvert = false → s.readable [b] → s.core.begins = true →
    let checks := (s.after x [b]).checkAll (extentAccesses (s.g b) b 64 3 64 Access.load)
    (∀ e, checks = .error (.trap e) → raises (.launch x a b) s e)
    ∧ ∀ s1 ps, checks = .ok (s1, ps) →
      let w := s1.release 3
      (∀ k, w.ctx w.core.owner = some k → 256 ≤ k.internal.length → exec (.launch x a b) s = .next (w.waits (.room none)))
      ∧ ∀ k s2 rs, w.ctx w.core.owner = some k → k.internal.length < 256 → w.issueLoads (descGranules ps) = .ok (s2, rs) →
        (∀ xs, (∀ r ∈ rs, r.answer.isSome = true) → gather rs = .ok xs → s2.ctx s2.core.owner = some k →
          let r := s2.queueLaunch k (descOf (blockOf (s.g b).permK xs)) none none
          exec (.launch x a b) s = .next ((r.1.setInt a (r.2.setWidth 64)).ends (s.next x)))
        ∧ ((∃ r ∈ rs, r.answer = none) → exec (.launch x a b) s = .next (s2.waits (.host rs)))

/-! ## System, corpse and security instructions -/

/-- R145, R149, R226, R260, R398, R408, R412 to R414: what firmware alone may execute. The model's readings: what DBGB QUERY
answers of no task is a free value (log entry 36, DESIGN CHOICE); what SMPC accepts (37); that JRNL answers 1 or 2 without checking
its capability (38); that TSYNC sets no zone back (41); the targets of OWNR and what a scrub clears (42); the events that end WFI
(43); all DEDUCED.
Completes: wfi (on a culvert too), halt, trinv, tsync, jrnl, smpc, dbgb, ownr. -/
def Obligations.SystemInstructionsHaveTheirEffect : Prop :=
  (∀ (s : State) (x : Pfx), s.runs x → s.itemMode = false →
    (s.eventPending = true → exec (.wfi x) s = .next ((s.after x []).ends (s.next x)))
    ∧ (s.eventPending = false → exec (.wfi x) s = .next (s.waits .event)))
  ∧ ∀ (s : State) (x : Pfx) (a b c : RegNum), s.runs x → s.onCulvert = false →
    let u := s.gint a
    let y := s.gint b
    let z := s.gint c
    let ends := fun (i : Instr) (t : State) => exec i s = .next (t.ends (s.next x))
    (s.itemMode = false →
      (∃ t, exec (.halt x) s = .next t ∧ t.core.run = .halted ∧ t.pc = s.next x ∧ t.mem = s.mem
          ∧ t.deviceErrors = s.deviceErrors ++ (match s.core.agent with
              | .archivist _ => [s.core.agent] | .security => [s.core.agent] | _ => []))
      ∧ (s.readable [a, b, c] →
        let how := z.toNat
        let scope := how / 256 % 8
        (u.toNat % 65536 = 0 → u.toNat < 2 ^ 48 → how < 2 ^ 11 → 1 ≤ scope → scope ≤ 3 →
          let v : Invalidation := ⟨scope, how % 256, u.toNat, y.toNat⟩
          let w := (((s.after x [a, b, c]).release 5).dropTlb v).finishThrough v
          (w.heldThrough v = false → ends (.trinv x a b c) w)
          ∧ (w.heldThrough v = true → exec (.trinv x a b c) s = .next (w.waits .trinv))
          ∧ ∀ e, e ∈ (s.dropTlb v).tlb ↔ e ∈ s.tlb ∧ ¬ (s.bufferInScope scope e.buffer = true
              ∧ (how % 256 = 0 ∨ e.context.toNat = how % 256)
              ∧ (y.toNat = 0 ∨ e.va < u.toNat + y.toNat * 65536 ∧ u.toNat < e.va + e.leaf.size)))
        ∧ ((u.toNat % 65536 ≠ 0 ∨ 2 ^ 48 ≤ u.toNat ∨ 2 ^ 11 ≤ how ∨ scope = 0 ∨ 3 < scope) →
            raises (.trinv x a b c) s ⟨cILL, 0, 0⟩))
      ∧ (s.readable [b] →
        let d : BitVec 2 := y.setWidth 2
        let gives := fun (r : Word) => writesInt (.tsync x a b) s x [b] a r
        (4 ≤ y.toNat → raises (.tsync x a b) s ⟨cILL, 0, 0⟩)
        ∧ (y.toNat < 4 → (d = s.core.agent.die ∨ (s.dieAt d).sync = true) → gives 1)
        ∧ (y.toNat < 4 → d ≠ s.core.agent.die → (s.dieAt d).sync = false → s.die.sync = false → gives 2)
        ∧ (y.toNat < 4 → d ≠ s.core.agent.die → (s.dieAt d).sync = false → s.die.sync = true → ends (.tsync x a b)
            (((s.after x [b]).setDie d
              { s.dieAt d with atime := (if s.now < (s.dieAt d).atime then (s.dieAt d).atime else s.now), sync := true, counting := true }).setInt a 0)))
      ∧ (s.readable [c, b] →
        let seq := z.toNat
        (s.nextSeq ≤ seq → writesInt (.jrnl x a b c) s x [c, b] a 2)
        ∧ (seq < s.nextSeq → journalFind seq s.journal = none → writesInt (.jrnl x a b c) s x [c, b] a 1)
        ∧ (∀ j p, seq < s.nextSeq → journalFind seq s.journal = some j → s.plainMemory → p.inModule →
            s.access (memAccess (s.g b) b (s.g b).cursor 64).store = .ok p → ∃ t, exec (.jrnl x a b c) s = .next t
              ∧ Stored s t p j.bytes false ∧ Untouched { g := [a] } s t ∧ (a ≠ 0 → t.g a = intReg 0) ∧ t.pc = s.next x))
      ∧ (s.readable [c, b] →
        let die : BitVec 2 := BitVec.ofNat 2 (y.toNat / 8)
        let n := y.toNat / 65536
        let shape := y.toNat < 2 ^ 26 ∧ y.toNat / 32 % 2048 = 0
        (shape → y.toNat % 8 = 0 → sampleOk z.toNat = true → ends (.smpc x a b c)
          (((s.after x [c, b]).setAgent (((s.after x [c, b]).agent (.core ⟨die, BitVec.ofNat 10 n⟩)).setSample z)).setInt a
            (s.agent (.core ⟨die, BitVec.ofNat 10 n⟩)).csr.smpl))
        ∧ (shape → y.toNat % 8 = 1 → n < 4 → monitorOk z.toNat = true → ends (.smpc x a b c)
          (((s.after x [c, b]).setDie die { s.dieAt die with monitors := vecSet (s.dieAt die).monitors n ⟨z, 0, []⟩ }).setInt a
            (vecAt (s.dieAt die).monitors n ⟨0, 0, []⟩).config))
        ∧ ((¬ shape ∨ 2 ≤ y.toNat % 8 ∨ y.toNat % 8 = 1 ∧ 4 ≤ n ∨ y.toNat % 8 = 0 ∧ sampleOk z.toNat = false
            ∨ y.toNat % 8 = 1 ∧ monitorOk z.toNat = false) → raises (.smpc x a b c) s ⟨cILL, 0, 0⟩))
      ∧ (s.readable [b] →
        let task := (s.task (y.setWidth 8) (y.extractLsb' 8 32)).bind fun t => if t.alive then some t else none
        let op := y.toNat / 2 ^ 40
        let gives := fun (r : Word) => writesInt (.dbgb x a b) s x [b] a r
        (y.toNat < 2 ^ 42 →
          (task = none → op ≠ 3 → gives 1)
          ∧ (task = none → op = 3 → ∃ r, ends (.dbgb x a b) (({ s.after x [b] with free := s.free + 8 }).setInt a r))
          ∧ (∀ t, task = some t →
            (op = 0 → t.stopState ≠ 0 → gives 2) ∧ (op = 0 → t.stopState = 0 → t.stepWeir = none → gives 3)
            ∧ (op = 0 → t.stopState = 0 → t.stepWeir ≠ none →
                ends (.dbgb x a b) (((s.after x [b]).setTask { t with armed := true }).setInt a 0))
            ∧ (op = 1 → t.state = .stopped →
                ends (.dbgb x a b) (((s.after x [b]).setTask { t with state := .preempted }).setInt a 0))
            ∧ (op = 1 → t.state ≠ .stopped → gives 2)
            ∧ (op = 2 → t.stopState = 1 → ends (.dbgb x a b) (((s.after x [b]).setTask { t with armed := false }).setInt a 0))
            ∧ (op = 2 → t.stopState ≠ 1 → gives 2)
            ∧ (op = 3 → gives (BitVec.ofNat 64 (t.stopState + (if t.stopState = 2 then t.step.toNat * 4 else 0))))))
        ∧ (2 ^ 42 ≤ y.toNat → raises (.dbgb x a b) s ⟨cILL, 0, 0⟩)))
    ∧ (s.onSecurity = true → s.readable [c, b] →
      (∀ o, ownTarget y.toNat = some o → z.toNat < 256 →
        let old := s.ownerOf o
        let new : BitVec 8 := z.setWidth 8
        let there := ∀ k, o = .core k → k ∉ s.absent
        let gives := fun (r : Word) => writesInt (.ownr x a b c) s x [c, b] a r
        (¬ there → gives 0x8000000000000003)
        ∧ (there → new = old → gives (old.setWidth 64))
        ∧ (there → new ≠ old → old ≠ 0 → new ≠ 0 → gives 0x8000000000000001)
        ∧ (there → new ≠ old → (old = 0 ∨ new = 0) → s.inHand o = true → gives 0x8000000000000002)
        ∧ (there → new ≠ old → (old = 0 ∨ new = 0) → s.inHand o = false →
          ∃ t, exec (.ownr x a b c) s = .next t ∧ t.ownerOf o = new ∧ t.pc = s.next x
            ∧ (a ≠ 0 → t.g a = intReg (old.setWidth 64))
            ∧ (∀ k, o = .core k → new = 0 → ∀ l, l < 0x80000 → t.byteAt (tcmLoc k.index l) = 0)))
      ∧ ((ownTarget y.toNat = none ∨ 256 ≤ z.toNat) → raises (.ownr x a b c) s ⟨cILL, 0, 0⟩))

/-- R375 to R384: KILL, MOUNT, CLBL, CRD, REVIVE and UMNT. The model's readings (DEDUCED): UMNT waits while a command holds its
slot (log entry 113); CLBL and CRD raise the mount capability's fault before a selector that is ILL (45); reason 3 of REVIVE is
for a task whose items have all retired, and one without items is revived (46); a corpse is mounted once the requests of its items
have ended (120). Completes: kill, mount, clbl, crd, revive, umnt. -/
def Obligations.CorpseInstructionsHaveTheirEffect : Prop :=
  ∀ (s : State) (x : Pfx) (a b c : RegNum), s.runs x → s.onCulvert = false →
    let y := s.gint b
    let z := s.gint c
    let ends := fun (i : Instr) (t : State) => exec i s = .next (t.ends (s.next x))
    (s.readable [b] →
      let k := s.g b
      let die := s.core.agent.die
      let owner := s.core.owner
      (k.tag = false → raises (.kill x a b) s ⟨cKTAG, 0, b.setWidth 64⟩)
      ∧ (∀ t, k.tag = true → taskNamed owner k s.tasks = some t →
        let r := (s.after x [b]).startFreeze die owner (some t.num) 0 0 owner
        ends (.kill x a b) (r.1.setInt a (r.2.setWidth 64)))
      ∧ (k.tag = true → taskNamed owner k s.tasks = none → (s.ctx owner).isSome = true → k.base = dataRoot.base → k.length = dataRoot.length →
        let r := (s.after x [b]).startFreeze die owner none 0 0 owner
        ends (.kill x a b) (r.1.setInt a (r.2.setWidth 64)))
      ∧ (k.tag = true → taskNamed owner k s.tasks = none → (s.ctx owner = none ∨ k.base ≠ dataRoot.base ∨ k.length ≠ dataRoot.length) →
        raises (.kill x a b) s ⟨cKPRM, 0, b.setWidth 64⟩))
    ∧ (s.readable [c, b] → 2 ^ 32 ≤ y.toNat → raises (.mount x a b c) s ⟨cILL, 0, 0⟩)
    ∧ (s.readable [c, b] → y.toNat < 2 ^ 32 →
      let ownerTrap := fun (n reason : Nat) => (⟨cOWNER, 0, BitVec.ofNat 64 (n + reason * 256)⟩ : Trap)
      (corpseFind (y.setWidth 32) s.corpses = none → raises (.mount x a b c) s (ownerTrap 0 1))
      ∧ (∀ k ctx, corpseFind (y.setWidth 32) s.corpses = some k → s.ctx s.core.owner = some ctx →
        (k.grantsTo ctx = false → raises (.mount x a b c) s (ownerTrap k.context.toNat 0))
        ∧ (k.grantsTo ctx = true → (z.toNat % 2 ^ 31 ≠ 0 ∨ 2 ^ 48 ≤ z.toNat) → raises (.mount x a b c) s ⟨cILL, 0, 0⟩)
        ∧ (k.grantsTo ctx = true → z.toNat % 2 ^ 31 = 0 → z.toNat < 2 ^ 48 → k.awaiting = true →
          exec (.mount x a b c) s = .next (s.waits (.room none)))
        ∧ (k.grantsTo ctx = true → z.toNat % 2 ^ 31 = 0 → z.toNat < 2 ^ 48 → k.awaiting = false →
          (∀ slot, freeSlot ctx.mounts (match ctx.lastSlot with | some l => l + 1 | none => 0) 4096 = some slot →
            ends (.mount x a b c) (((s.after x [c, b]).setCtx
              { ctx with mounts := assocPut ctx.mounts slot (k.id, z.setWidth 48), lastSlot := some slot }).setG a (mountCap slot)))
          ∧ (freeSlot ctx.mounts (match ctx.lastSlot with | some l => l + 1 | none => 0) 4096 = none →
              raises (.mount x a b c) s (ownerTrap 0 2)))))
    ∧ (s.readable [b] → ∀ e, s.mountOf b = .error (.trap e) → raises (.umnt x b) s e)
    ∧ (s.readable [c, b] → ∀ e, s.mountOf c = .error (.trap e) → raises (.clbl x a b c) s e ∧ raises (.crd x a b c) s e)
    ∧ (s.readable [a, c, b] → ∀ e, s.mountOf c = .error (.trap e) → raises (.revive x a b c) s e)
    ∧ (s.readable [b] → ∀ slot k, s.mountOf b = .ok (slot, k) → s.slotHeld slot = true →
        exec (.umnt x b) s = .next (s.waits .trinv))
    ∧ (s.readable [b] → ∀ slot k ctx, s.mountOf b = .ok (slot, k) → s.slotHeld slot = false → s.ctx s.core.owner = some ctx →
        ends (.umnt x b) ((s.after x [b]).setCtx { ctx with mounts := assocDel ctx.mounts slot }))
    ∧ (s.readable [c, b] → ∀ slot k, s.mountOf c = .ok (slot, k) →
      (∀ w, k.label s.fitted y.toNat = some w → writesInt (.clbl x a b c) s x [c, b] a w)
      ∧ (k.label s.fitted y.toNat = none → raises (.clbl x a b c) s ⟨cILL, 0, 0⟩)
      ∧ (∀ r, y.toNat % 256 ≤ 0x68 → k.item (y.toNat / 2 ^ 40) (y.toNat / 256 % 2 ^ 32) = some r → r.state ≠ 3 →
          writesInt (.crd x a b c) s x [c, b] a (r.read (y.toNat % 256)))
      ∧ (y.toNat % 256 ≤ 0x68 → (∀ r, k.item (y.toNat / 2 ^ 40) (y.toNat / 256 % 2 ^ 32) = some r → r.state = 3) →
          writesInt (.crd x a b c) s x [c, b] a (if y.toNat % 256 = 0x68 then 3 else 0))
      ∧ (0x68 < y.toNat % 256 → raises (.crd x a b c) s ⟨cILL, 0, 0⟩))
    ∧ (s.readable [a, c, b] → ∀ slot k, s.mountOf c = .ok (slot, k) →
      (freezeRecord (y.setWidth 32) 0 k.records = none ∨ descOfTask (y.setWidth 32) k.descs = none) →
      raises (.revive x a b c) s ⟨cREVIVE, 0, 4⟩)
    ∧ (s.readable [a, c, b] → ∀ slot k i r d, s.mountOf c = .ok (slot, k) →
      freezeRecord (y.setWidth 32) 0 k.records = some (i, r) → descOfTask (y.setWidth 32) k.descs = some d →
      let fails := fun (n : Nat) => raises (.revive x a b c) s ⟨cREVIVE, 0, BitVec.ofNat 64 n⟩
      (r.label = 1 → fails 1) ∧ (r.label = 2 → fails 2)
      ∧ (r.label = 0 → r.items ≠ [] → (∀ e ∈ r.items, e.state = 1) → fails 3)
      ∧ (r.label = 0 ∨ r.label = 3 → (r.items = [] ∨ ∃ e ∈ r.items, e.state ≠ 1) → 4096 ≤ k.records.length → fails 5)
      ∧ (∀ ctx, r.label = 0 → (r.items = [] ∨ ∃ e ∈ r.items, e.state ≠ 1) → k.records.length < 4096 →
        ((s.after x [a, c, b]).release 3).ctx ((s.after x [a, c, b]).release 3).core.owner = some ctx → 256 ≤ ctx.internal.length →
        exec (.revive x a b c) s = .next (s.waits (.room none)))
      ∧ (∀ ctx, r.label = 0 → (r.items = [] ∨ ∃ e ∈ r.items, e.state ≠ 1) → k.records.length < 4096 →
        ((s.after x [a, c, b]).release 3).ctx ((s.after x [a, c, b]).release 3).core.owner = some ctx → ctx.internal.length < 256 →
        let w := (s.after x [a, c, b]).release 3
        let v : Revival := ⟨k.id, i, k.records.length, (s.gint a).setWidth 12, w.core.owner⟩
        let entry := revivalRecord (y.setWidth 32) w.core.owner i
        let reserved := corpseMap k.id (fun k => { k with records := k.records ++ [entry] }) w.corpses
        let queued := ({ w with corpses := reserved }.queueLaunch ctx d none (some v)).1
        ends (.revive x a b c) (queued.setInt a (BitVec.ofNat 64 k.records.length))))

/-- R403: the ciphers of the security core, lane by lane. Completes: keccak, aese, aesd, aesk, gfmul, clmul. -/
def Obligations.CiphersWorkLaneByLane : Prop :=
  ∀ (s : State) (x : Pfx) (a b c : RegNum) (last : Bool) (rc : BitVec 3), s.runs x → s.onSecurity = true →
    let writes := fun (i : Instr) (r : VReg → Prop) =>
      ∃ t, exec i s = .next t ∧ r (t.v a) ∧ Untouched { v := [a] } s t ∧ t.pc = s.next x
    let lanes := fun (i : Instr) (f : Nat → Nat) => writes i fun v => ∀ k, k < 16 → elemAt 128 v k = f k % 2 ^ 128
    (s.readableV [a] → writes (.keccak x a) fun v =>
      v.toNat % 2 ^ 1600 = keccak1600 ((s.v a).toNat % 2 ^ 1600) % 2 ^ 1600 ∧ v.toNat / 2 ^ 1600 = (s.v a).toNat / 2 ^ 1600)
    ∧ (s.readableV [a, b] →
      lanes (.aese x last a b) (fun k => aesEnc last (elemAt 128 (s.v a) k) (elemAt 128 (s.v b) k))
      ∧ lanes (.aesd x last a b) (fun k => aesDec last (elemAt 128 (s.v a) k) (elemAt 128 (s.v b) k)))
    ∧ (s.readableV [b] → writes (.aesk x rc a b) fun v =>
        ∀ k, k < 8 → elemAt 256 v k = aesKeys rc.toNat (elemAt 256 (s.v b) k) % 2 ^ 256)
    ∧ (s.readableV [c, b] →
      lanes (.gfmul x a b c) (fun k => gf128 (elemAt 128 (s.v c) k) (elemAt 128 (s.v b) k))
      ∧ lanes (.clmul x a b c) (fun k => clmul64 (elemAt 128 (s.v c) k % 2 ^ 64) (elemAt 128 (s.v b) k % 2 ^ 64)))

/-! ## Scheduling and freezing -/

/-- R248, R259, R263 to R271, R358 to R361, R385, R414: what starts, stops and ends tasks. The model's readings: a class rises
for a waiting task alone, in package time (log entry 88, DEDUCED); every unit stops as its own zone reaches the freeze instant,
which the archivist sets in package time, and the record is made once each zone that counts has reached it (log entries 52, 121);
a commit point of a migration and a debug stop preempt as R266 does (log entry 57). Completes: taskPlacement, taskResume, classRaise, preemption, freezeInstant, dieLinkLoss. -/
def Obligations.SchedulersStartStopAndFreeze : Prop :=
  (∀ (s : State) (n : BitVec 8) (num : BitVec 32) (cl : List (BitVec 2 × BitVec 7)) (t : Task), s.raiseAll.task n num = some t →
    let r := s.raiseAll
    let team := teamOrder cl
    (∀ p, t.state = .waiting → r.mayStart t team = some p →
      exec (.taskPlacement n num cl) s = .next (({ r with pattern := p }.place t team).journalSet t.seq 1 0 0))
    ∧ ((r.mayStart t team = none ∨ t.state ≠ .waiting) → exec (.taskPlacement n num cl) s = .next r))
  ∧ (∀ (s : State) (n : BitVec 8) (num : BitVec 32) (cl : List (BitVec 2 × BitVec 7)) (t : Task), s.raiseAll.task n num = some t →
    let r := s.raiseAll
    let team := teamOrder cl
    (∀ p, t.state = .preempted → r.mayStart t team = some p →
      exec (.taskResume n num cl) s = .next ({ r with pattern := p }.resumeTask t team))
    ∧ ((r.mayStart t team = none ∨ t.state ≠ .preempted) → exec (.taskResume n num cl) s = .next r))
  ∧ (∀ (s : State) (u t : Task), t ∈ s.displaced u → u.cls = 0 ∧ t.cls ≠ 0 ∧ t.state = .running ∧ t ∈ s.tasks)
  ∧ (∀ (s : State) (n : BitVec 8) (num : BitVec 32) (cl : List (BitVec 2 × BitVec 7)) (t : Task), s.task n num = some t →
    let team := teamOrder cl
    ((s.mayStart t team).isSome = true → s.coolantOk = true ∧ s.placeable t = true ∧ s.blocked t = false ∧ s.diesReady t = true
      ∧ (∀ c, s.ctx t.context = some c → c.migrating = none) ∧ ∀ p ∈ team, s.clusterFree t.context (clusterNumber p) = true)
    ∧ (let waits := t.state = .waiting ∧ t.desc.cls.toNat % 4 ≠ 0
      let raised := max 1 (t.desc.cls.toNat % 4 - (s.packageTime - t.accepted).toNat / 160000000)
      (waits → exec (.classRaise n num) s = .next (s.setTask { t with cls := BitVec.ofNat 2 raised }))
      ∧ (¬ waits → exec (.classRaise n num) s = .next (s.setTask t)))
    ∧ (s.mayPreempt t = true → (∃ c ∈ t.slots, (s.agent (.core c)).issuedWait = true) → exec (.preemption n num) s = .next s)
    ∧ (s.mayPreempt t = true → (∀ c ∈ t.slots, (s.agent (.core c)).issuedWait = false) →
      ∃ u v, exec (.preemption n num) s = .next u ∧ u.task n num = some v
        ∧ v.state = (if t.stopping then .stopped else .preempted) ∧ v.stopping = false ∧ v.slots = t.slots
        ∧ ∀ c ∈ t.slots, (u.agent (.core c)).run = .idle)
    ∧ (s.mayPreempt t = false → exec (.preemption n num) s = .next s))
  ∧ (∀ (s : State) (id : BitVec 32),
    let ready := fun (z : Freezing) => ∀ d, (s.dieAt d).counting = true → z.instant ≤ (s.dieAt d).atime
    (∀ z, s.readyFreeze id = some z → z ∈ s.freezing ∧ z.id = id ∧ ready z
      ∧ (s.answeredCore (s.freezeTargets z) = none → ∃ u, exec (.freezeInstant id) s = .next u ∧ z ∉ u.freezing
        ∧ (∀ c, s.ctx z.context = some c → z.id ≠ 0 → ∃ k ∈ u.corpses, k.id = z.id ∧ k.context = z.context
            ∧ k.cause = z.cause ∧ k.freeze = z.instant))
      ∧ (s.answeredCore (s.freezeTargets z) ≠ none → exec (.freezeInstant id) s = .next s))
    ∧ (s.readyFreeze id = none → exec (.freezeInstant id) s = .next s ∧ ∀ z ∈ s.freezing, z.id = id → ¬ready z))
  ∧ (∀ (s : State) (die n killer : BitVec _) (task : Option (BitVec 32)) (cause code : Nat),
    freezeFind n task s.freezing = none →
    ∃ z, (s.startFreeze die n task cause code killer).1.freezing = s.freezing ++ [z]
      ∧ z.id = (s.startFreeze die n task cause code killer).2 ∧ z.context = n ∧ z.tasks = task.map (fun k => [k])
      ∧ z.instant = s.packageTime + (s.agent (.archivist die)).csr.klead)
  ∧ ∀ (s : State) (a b : BitVec 2), a ≠ b → ∃ u, exec (.dieLinkLoss a b) s = .next u
    ∧ (∀ f, f ∈ u.flights ↔ f ∈ s.flights ∧ ∀ d, s.dieOfLoc f.loc f.va = some d →
        ¬ (f.agent.die = a ∧ d = b.toNat ∨ f.agent.die = b ∧ d = a.toNat))
    ∧ ∀ t ∈ s.tasks, t.state = .running → (∃ c ∈ t.slots, c.die = a) → (∃ c ∈ t.slots, c.die = b) →
        (freezeFind t.context (some t.num) u.freezing).isSome = true

/-! ## The host's registers, the link and the fabric -/

/-- R253, R342 to R345, R401: the registers of BAR0 and the PCIe function: a doorbell or a head takes its value and changes
nothing else, but that a head makes room for what is held for its ring. That a binding lasts until the TDI is unlocked is the
model's choice (log entry 131). Completes: qtail, chead, ehead, ringConfigurationWrite, barRegisterWrite, pcieLinkTraining,
busMasteringChange, vfEnableChange, tdiStateChange. -/
def Obligations.HostRegistersTakeWrites : Prop :=
  ∀ (s : State) (f : BitVec 6) (v : Word) (off : BitVec 12) (on : Bool) (m : Nat) (d : TdiState),
    let x := s.fn f.toNat
    let after := fun (i : Instr) (p : State → Prop) => ∃ t, exec i s = .next t ∧ p t
    let put := fun (y : Fn) => s.setFn f.toNat y
    exec (.qtail f v) s = .next (put { x with qtail := v &&& 0xFFFFFFFF })
    ∧ exec (.chead f v) s = .next ((put { x with chead := v }).flushRings f.toNat)
    ∧ exec (.ehead f v) s = .next ((put { x with ehead := v }).flushRings f.toNat)
    ∧ (∀ (u : State) (k : Nat),
      let t := u.flushRings k
      let y := u.fn k
      t = { u with mem := t.mem, fns := t.fns } ∧ (∀ j, j ≠ k → t.fn j = u.fn j)
      ∧ t.fn k = { y with ctail := (t.fn k).ctail, completions := (t.fn k).completions, etail := (t.fn k).etail, events := (t.fn k).events }
      ∧ (y.completions = [] → y.events = [] → t = u) ∧ (y.master = false → t = u))
    ∧ (isRingReg off.toNat = true →
      (ringValueOk off.toNat v = true → s.ringBusy f.toNat = false → after (.ringConfigurationWrite f off v) fun t =>
        t.barRead f.toNat off.toNat 8 = v ∧ (t.fn f.toNat).refused = false)
      ∧ (ringValueOk off.toNat v = true → s.ringBusy f.toNat = true → exec (.ringConfigurationWrite f off v) s = .next s)
      ∧ (ringValueOk off.toNat v = false → after (.ringConfigurationWrite f off v) fun t =>
        t.barRead f.toNat off.toNat 8 = s.barRead f.toNat off.toNat 8 ∧ (t.fn f.toNat).refused = true))
    ∧ (isRingReg off.toNat = false → exec (.ringConfigurationWrite f off v) s = .next s)
    ∧ (∀ n, n ≠ 8 → s.barRead f.toNat off.toNat n = 0)
    ∧ (off = 0x080 → exec (.barRegisterWrite f off v) s = .next (put { x with jsel := v }) ∧ (put { x with jsel := v }).barRead f.toNat 0x080 8 = v)
    ∧ (off ≠ 0x080 → exec (.barRegisterWrite f off v) s = .next s)
    ∧ after (.pcieLinkTraining on) (fun t => t = { s with flitMode := on })
    ∧ exec (.busMasteringChange f on) s = .next ((put { x with master := on }).flushRings f.toNat)
    ∧ after (.vfEnableChange m) (fun t => t = { s with fns := t.fns } ∧ t.fn 0 = s.fn 0
        ∧ ∀ k, 1 ≤ k → k < 64 → t.fn k = { s.fn k with enabled := decide (k ≤ m) })
    ∧ after (.tdiStateChange f d) (fun t => (∀ k, k ≠ f.toNat → t.fn k = s.fn k)
        ∧ t.fn f.toNat = { x with tdi := d, binding := (t.fn f.toNat).binding }
        ∧ (d ≠ .unlocked → (t.fn f.toNat).binding.isSome = true ∧ ∀ g, x.binding = some g → (t.fn f.toNat).binding = some g)
        ∧ (d = .unlocked → (t.fn f.toNat).binding = if x.tdi = .unlocked then x.binding else none))
    ∧ (x.completions ≠ [] → x.events = [] → x.master = true → ringSlots x.csize 16 = 0 → (s.flushRings f.toNat).mem = s.mem)

/-- R92, R209, R212, R346 to R353: host completions, flits, ports, peers, discipline and time. The model's choices: host and peer
completions come as events (log entry 7); package time and its corrections (59); that a peer's timed store carries its issuer's
die, agent, order and element (61); the ninth CRC failure in a row (62); a flit above 240 bytes does nothing, and one that no route
reaches is not forwarded (111). Completes: hostCompletion,
hostCompletionTimeout, flitReceive, portDown, portUp, peerUnreachable, disciplineLoss, timingPortMessage, packageTimeStep. -/
def Obligations.FabricAndHostAnswer : Prop :=
  (∀ (s : State) (a : AgentId) (k : Asker) (r : Request), s.asker a = some (k, r) →
    let ends := fun (c : Completion) (u : State) (o : Outcome) => exec (.hostCompletion a c) s = .next (u.answer a k o)
    (∀ v, r.atomic = none →
      ends (.data v) (s.writeBytes r.loc (bytesOf r.n v.toNat)) (.returned (bytesOf r.n v.toNat)))
    ∧ (∀ v op w e, r.atomic = some (op, w, e) →
      (isHostLoc r.loc = true → s.hostAtomics = false → ends (.data v) s (.failed .unsupported))
      ∧ ((isHostLoc r.loc = false ∨ s.hostAtomics = true) →
        let old := bytesOf r.n v.toNat
        let u := s.writeBytes r.loc old
        ends (.data v) (match atomicNew op r.n (natOf old) w.toNat e.toNat with
          | some new => u.writeBytes r.loc (bytesOf r.n new) | none => u) (.returned old)))
    ∧ (∀ c, (∀ v, c ≠ .data v) → ends c s (.failed c))
    ∧ (isHostLoc r.loc = true → exec (.hostCompletionTimeout a) s = .next (s.answer a k .timeout))
    ∧ (isHostLoc r.loc = false → exec (.hostCompletionTimeout a) s = .next s))
  ∧ (∀ (s : State) (a : AgentId) (c : Completion), s.asker a = none →
      exec (.hostCompletion a c) s = .next s ∧ exec (.hostCompletionTimeout a) s = .next s)
  ∧ (∀ (s : State) (a : AgentId) (before rest : List Request) (r : Request),
      (s.agent a).wait = some (.host (before ++ r :: rest)) → (∀ q ∈ before, q.answer.isSome = true) → r.answer = none →
      (∀ k ∈ s.corpses, k.waiting a = none) →
      s.asker a = some (.self, r) ∧ ∀ o, ((s.answer a .self o).agent a).wait =
        some (.host (before ++ { r with answer := some o } :: rest)))
  ∧ (∀ (s : State) (u : CulvertId) (c : Cmd) (before rest : List Request) (r : Request), s.headCmd (.culvert u) = some c →
      c.requests = before ++ r :: rest → (∀ q ∈ before, q.answer.isSome = true) → r.answer = none →
      (s.agent (.culvert u)).wait = none → (∀ k ∈ s.corpses, k.waiting (.culvert u) = none) →
      s.asker (.culvert u) = some (.command (.culvert u) c, r) ∧ ∀ o, s.answer (.culvert u) (.command (.culvert u) c) o =
        s.cmdUpdate (.culvert u) { c with requests := before ++ { r with answer := some o } :: rest })
  ∧ (∀ (s : State) (port : BitVec 4) (f : Flit),
    let up := s.fabric.up[port.toNat] = true
    let fits := f.size ≤ 240 ∧ (∀ b, f.kind = .store b → b.length ≤ 240)
      ∧ ∀ b tm d ag o e, f.kind = .timedStore b tm d ag o e → b.length ≤ 240
    let l := devLoc f.addr.toNat
    let reply := fun (t : State) (a : Answer) => t.fabric.replies = s.fabric.replies ++ [⟨f.source, f.seq, a⟩]
    let after := fun (p : State → Prop) => ∃ t, exec (.flitReceive port f) s = .next t ∧ p t
    (¬ (up ∧ fits) → exec (.flitReceive port f) s = .next s)
    ∧ (up → fits → f.crcOk = false → s.fabric.replays[port.toNat] + 1 < 9 →
        after fun t => t.fabric.replays[port.toNat] = s.fabric.replays[port.toNat] + 1 ∧ t.fabric.up = s.fabric.up)
    ∧ (up → fits → f.crcOk = false → 9 ≤ s.fabric.replays[port.toNat] + 1 → after fun t => t.fabric.up[port.toNat] = false)
    ∧ (up → fits → f.crcOk = true → f.dest ≠ s.device →
      (∀ p, s.fabric.portFor f.dest = some p → (f.dest, p) ∈ s.fabric.routes
        ∧ after fun t => t.fabric.forwarded = s.fabric.forwarded ++ [(p, f)] ∧ t.mem = s.mem)
      ∧ (s.fabric.portFor f.dest = none → (∀ p, (f.dest, p) ∉ s.fabric.routes)
        ∧ after fun t => t.fabric.forwarded = s.fabric.forwarded ∧ t.mem = s.mem))
    ∧ (up → fits → f.crcOk = true → f.dest = s.device →
      (f.kind = .load → s.imported f false true = true → after fun t => reply t (.data (s.readBytes l f.size)) ∧ t.mem = s.mem)
      ∧ (f.kind = .load → s.imported f false true = false → after fun t => reply t .refused ∧ t.mem = s.mem)
      ∧ (∀ bytes, f.kind = .store bytes → s.imported f true false = true → Memory.wf s.mem = true →
          after fun t => reply t .ack ∧ t.readBytes l bytes.length = bytes
            ∧ ∀ k, k < l ∨ l + bytes.length ≤ k → t.byteAt k = s.byteAt k)
      ∧ (∀ bytes, f.kind = .store bytes → s.imported f true false = false → after fun t => reply t .refused ∧ t.mem = s.mem)
      ∧ (∀ bytes tm d ag o e, f.kind = .timedStore bytes tm d ag o e → s.imported f true false = true →
          let a := (s.dieAt (s.dieOfPa f.addr.toNat)).atime + 1
          (a.toNat ≤ tm.toNat → after fun t => reply t .ack ∧ t.mem = s.mem ∧ ∃ y, t.timed = s.timed ++ [y] ∧ y.t = tm
            ∧ y.bytes = bytes ∧ y.loc = l ∧ y.arrival = some a ∧ y.device = f.source ∧ y.die = d ∧ y.agent = ag ∧ y.order = o
            ∧ y.element = e)
          ∧ (tm.toNat < a.toNat → after fun t => reply t (.missed a) ∧ t.timed = s.timed))
      ∧ (∀ bytes tm d ag o e, f.kind = .timedStore bytes tm d ag o e → s.imported f true false = false →
          after fun t => reply t .refused ∧ t.timed = s.timed)
      ∧ (∀ op wide w cmp, f.kind = .atomic op wide w cmp → s.imported f true true = true →
          let n := if wide then 8 else 4
          after fun t => reply t (.data (bytesOf n (s.readNat l n)))
            ∧ t.mem = (match atomicNew op n (s.readNat l n) w.toNat cmp.toNat with
                | some v => memWrite s.mem l (bytesOf n v) | none => s.mem))
      ∧ (∀ op wide w cmp, f.kind = .atomic op wide w cmp → s.imported f true true = false →
          after fun t => reply t .refused ∧ t.mem = s.mem)
      ∧ (∀ n,
          let sent := (s.posted ++ s.flights).filter fun (g : Flight) =>
            isPeerLoc g.loc && !g.dropped && g.loc / spaceSize - 16 = f.source.toNat
          let same := after fun t => t.flights = s.flights ∧ t.posted = s.posted ∧ t.mem = s.mem
          (f.kind = .ack n → ∀ g, listAt sent n = some g → s.heldBehind g (sent.take n) = false → s.refuses g = false →
            after fun t => g ∉ t.flights ∧ g ∉ t.posted ∧ ∀ h ∈ t.flights, h ∈ s.flights)
          ∧ (f.kind = .ack n → ∀ g, listAt sent n = some g → s.heldBehind g (sent.take n) = true → same)
          ∧ (f.kind = .refused n → ∀ g, listAt sent n = some g → g ∈ s.flights → AgentId.engine g.agent = none →
            after fun t => { g with dropped := true } ∈ t.posted)
          ∧ (f.kind = .ack n ∨ f.kind = .refused n → listAt sent n = none → same))))
  ∧ ∀ (s : State) (port : BitVec 4) (r : PortReport) (dev : BitVec 19) (tm : Tick) (dt : BitVec 64),
    let after := fun (i : Instr) (p : State → Prop) => ∃ t, exec i s = .next t ∧ p t
    let toDev := fun (l : Nat) => isPeerLoc l = true ∧ l / spaceSize - 16 = dev.toNat
    let offset := (tm - s.packageTime).toInt
    after (.portDown port) (fun t => t.fabric.up[port.toNat] = false ∧ t.fabric.ports[port.toNat] = none
        ∧ ∀ q, q ∈ t.fabric.routes ↔ q ∈ s.fabric.routes ∧ q.2 ≠ port)
    ∧ after (.portUp port r) (fun t => t.fabric.up[port.toNat] = true ∧ t.fabric.ports[port.toNat] = some r
        ∧ r.device ∉ t.fabric.lost ∧ (r.device, port) ∈ t.fabric.routes
        ∧ (s.fabric.disciplined = true → t.peerLatency r.device =
            some (r.latency + if r.domain = s.device.extractLsb' 10 9 then 32 else 128))
        ∧ (r.feed ≠ 0xFFFF → (r.device, r.feed) ∈ t.fabric.feeds))
    ∧ after (.peerUnreachable dev) (fun t => dev ∈ t.fabric.lost ∧ t.peerLatency dev = none
        ∧ (∀ p, (dev, p) ∉ t.fabric.routes)
        ∧ (∀ y, y ∈ t.timed ↔ y ∈ s.timed ∧ y.awaitsPeer dev s.now = false)
        ∧ (∀ y ∈ s.timed, y.awaitsPeer dev s.now = true → ⟨y, BitVec.allOnes 64, false⟩ ∈ t.misses)
        ∧ ∀ f, f ∈ t.flights ↔ f ∈ s.flights ∧ ¬ toDev f.loc)
    ∧ after (.disciplineLoss true) (fun t => t.fabric.disciplined = false ∧ (∀ d, t.peerLatency d = none)
        ∧ t.fabric.withdrawn = s.fabric.latency ++ s.fabric.withdrawn)
    ∧ (s.fabric.slew.natAbs ≤ 32 → after (.disciplineLoss false) fun t => t.fabric.disciplined = true
        ∧ t.fabric.latency = s.fabric.latency ++ s.fabric.withdrawn ∧ t.fabric.withdrawn = [])
    ∧ (32 < s.fabric.slew.natAbs → exec (.disciplineLoss false) s = .next s)
    ∧ after (.timingPortMessage tm) (fun t => t.fabric.slew = offset ∧ t.dies = s.dies
        ∧ t.fabric.disciplined = decide (offset.natAbs ≤ 32)
        ∧ (32 < offset.natAbs → s.fabric.disciplined = true → t.fabric.withdrawn = s.fabric.latency ++ s.fabric.withdrawn)
        ∧ (offset.natAbs ≤ 32 → s.fabric.disciplined = false → t.fabric.latency = s.fabric.latency ++ s.fabric.withdrawn))
    ∧ (s.sec.fresh = true → dt.toNat < 2 ^ 63 → after (.packageTimeStep dt) fun t => ∀ d, (t.dieAt d).atime =
        if (s.dieAt d).sync then (s.dieAt d).atime + dt else (s.dieAt d).atime)
    ∧ ((s.sec.fresh = false ∨ 2 ^ 63 ≤ dt.toNat) → exec (.packageTimeStep dt) s = .next s)

/-! ## Resets, failures, power and samples -/

/-- R5, R211, R219, R225, R353 to R355, R358, R368, R392, R406, R409: resets, power, cooling, the physical function's settings,
failures of dies, and samples. Completes: moduleReset, dieReset, functionReset, powerLoss, throttleEnter, throttleLeave,
coolantOutOfRange, feedWrite, powerCapWrite, sramSplitSet, dieFailure, taggedSample, monitorSample. The model's choices: a die's
ATIME goes on from where it stands at its reset (log entry 108); cores of a die whose count has stopped go on (118); the layout of
block 4 (126); how the distance to the next mark is drawn and what is counted (82). -/
def Obligations.ResetsFailuresAndSamples : Prop :=
  ∀ (s : State) (images : List Image) (die ch : BitVec 2) (f : BitVec 6) (v : BitVec 16) (w : Nat) (failed stops : Bool)
      (c : CoreId) (b : SampleBody) (cycle : Nat),
    let after := fun (i : Instr) (p : State → Prop) => ∃ t, exec i s = .next t ∧ p t
    (if Config.vendorAccepts ((listAt images 0).getD []) = true then after (.moduleReset images) fun t =>
      t.frozen = false ∧ t.contexts = [] ∧ t.tasks = [] ∧ t.tlb = [] ∧ t.timed = [] ∧ t.corpses = s.corpses
      ∧ t.core.agent = .security ∧ t.core.run = .firmware
      ∧ (∀ d, (t.dieAt d).atime = 0 ∧ (t.dieAt d).sync = (s.dieAt d).healthy)
      ∧ (let measured := fun (i : Nat) (bytes : List Byte) => vecAt t.sec.blocks i 0 = extendBlock 0 (digestOf (sha3_384 bytes))
        (∀ i, i < 3 → measured i ((listAt images i).getD [])) ∧ measured 3 (((listAt images 3).getD []).take 0x40000)
        ∧ measured 4 (Config.fuses ++ coreMaps s.absent))
      ∧ ∀ i, 5 ≤ i → i < 16 → vecAt t.sec.blocks i 0 = 0
    else after (.moduleReset images) fun t => t.frozen = true ∧ ((∀ im rest, t.script ≠ .event (.moduleReset im) :: rest) → step t = .fault .moduleHalted))
    ∧ after (.dieReset die) (fun t => (t.dieAt die).sync = false ∧ (∀ d, d ≠ die → t.dieAt d = s.dieAt d)
        ∧ (t.dieAt die).atime = (s.dieAt die).atime
        ∧ (let buffered := fun (y : Timed) => y.homeDie = die ∧ y.peer = none ∧ ∃ at_, y.arrival = some at_ ∧ at_ ≤ (s.dieAt die).atime
          (∀ y, y ∈ t.timed ↔ y ∈ s.timed ∧ ¬buffered y)
          ∧ ∀ y ∈ s.timed, buffered y → (⟨y, BitVec.allOnes 64, false⟩ : Miss) ∈ t.misses)
        ∧ (t.agent (.scheduler die)).run = .firmware ∧ (t.agent (.archivist die)).csr = .reset ∧ t.mem = s.mem)
    ∧ after (.functionReset f) (fun t => (∀ off, off < 0x060 → t.barRead f.toNat off 8 = 0)
        ∧ (t.fn f.toNat).qstate = (s.fn f.toNat).qstate ∧ (t.fn f.toNat).expect = (s.fn f.toNat).expect
        ∧ ∀ k c, (k, c) ∈ s.contexts → c.fn = f → (freezeFind c.num none t.freezing).isSome = true)
    ∧ after .powerLoss (fun t => t.frozen = true ∧ t.corpses = [] ∧ t.contexts = []
        ∧ ∀ l, isHostLoc l = false → isPeerLoc l = false → Memory.wf s.mem = true → t.byteAt l = 0)
    ∧ after (.throttleEnter die) (fun t => (t.dieAt die).throttled = true ∧ (t.dieAt die).events = (s.dieAt die).events + 1)
    ∧ after (.throttleLeave die) (fun t => (t.dieAt die).throttled = false ∧ (t.dieAt die).events = (s.dieAt die).events + 1)
    ∧ after .coolantOutOfRange (fun t => t = { s with coolantOk := false })
    ∧ after (.feedWrite v) (fun t => t.feed = if s.sec.fresh then v else s.feed)
    ∧ after (.powerCapWrite w) (fun t => t.powerCap = if 1200 ≤ w ∧ w ≤ 2800 ∧ w % 50 = 0 then w else s.powerCap)
    ∧ after (.sramSplitSet die w) (fun t => (t.dieAt die).splitMib = if s.sec.fresh = true ∧ w ≤ 64 ∧ w % 8 = 0 then w else (s.dieAt die).splitMib)
    ∧ after (.dieFailure die true stops) (fun t => (t.dieAt die).healthy = false
        ∧ (t.dieAt die).counting = ((s.dieAt die).counting && !stops) ∧ (t.dieAt die).sync = (s.dieAt die).sync)
    ∧ after (.dieFailure die false stops) (fun t => (t.dieAt die).healthy = true ∧ (t.dieAt die).counting = true
        ∧ (t.dieAt die).sync = ((s.dieAt die).sync && (s.dieAt die).counting))
    ∧ (let k := s.agent (.core c)
      let out := ∃ m, k.mark = some m ∧ m.left.isSome = true
      (¬out → exec (.taggedSample c b) s = .next s)
      ∧ (out → after (.taggedSample c b) fun t => (t.agent (.core c)).mark = none)
      ∧ (∀ m x, out → k.mark = some m → s.ctx m.of.owner = some x → x.num = m.of.owner →
        after (.taggedSample c b) fun t => (t.agent (.core c)).mark = none ∧ ∃ y, t.ctx x.num = some y ∧ y.written = x.written + 1))
    ∧ (let m := (s.dieAt die).monitors[ch.toNat]
      (m.spills = [] → exec (.monitorSample die ch cycle) s = .next s)
      ∧ ∀ o rest, m.spills = o :: rest → after (.monitorSample die ch cycle) fun t =>
        (t.dieAt die).monitors[ch.toNat] = { m with spills := rest }
        ∧ ∀ x, s.ctx o.owner = some x → x.num = o.owner → ∃ y, t.ctx x.num = some y ∧ y.written = x.written + 1)
    ∧ (∀ (k : Core) (i : Sampled),
      let counts := k.csr.smpl.getLsbD 0 = true ∧ k.wait = none
      let t := k.countDown i
      (¬counts → t = k)
      ∧ (counts → 1 < k.gap → t = { k with gap := k.gap - 1 })
      ∧ (counts → k.gap = 1 → t.gap = 0 ∧ t.mark = (if k.mark = none then some ⟨i, 0, false, false, none⟩ else k.mark))
      ∧ (counts → k.gap = 0 → t.lfsr = Config.lfsrNext k.lfsr ∧ t.gap < 2 ^ (k.csr.smpl.toNat / 2 % 32 + 1) - 1))
    ∧ ∀ (m : Monitor) (i : Sampled) (n : Nat),
      let period := m.config.toNat / 2 ^ 32
      (m.count + n < period → m.add (some i) n = { m with count := m.count + n })
      ∧ (period ≤ m.count + n → 0 < period → m.add (some i) n =
          { m with count := (m.count + n) % period, spills := m.spills ++ List.replicate ((m.count + n) / period) i })

/-! ## The security core's services -/

/-- R393 to R396, R401: the connection states of SPDM, certificates, challenges, measurements and sessions. The model's readings:
KEY_EXCHANGE replaces an open session (log entry 72, DEDUCED); what ends a session beside END_SESSION is log entry 71; an offer
without Ed448 or SHA3-384 and a key exchange without the session's algorithms are invalid requests (128); the layout of session
records (129); the draws of the DRBG (130) and the guest of a session (131). Completes: getVersion, getCapabilities,
negotiateAlgorithms, getCertificate, challenge, getMeasurements, keyExchange, finish, endSession, spdmUnsupportedRequest,
doeAbort. -/
def Obligations.SpdmFollowsItsStates : Prop :=
  ∀ (s : State) (f : BitVec 6) (flags : BitVec 32) (more : List Byte) (offer : AlgOffer) (slot : BitVec 4) (off len : Nat)
      (nonce : BitVec 256) (index : BitVec 8) (signed guest : Bool) (ex : BitVec 768) (verify : BitVec 384) (record : List Byte)
      (code : BitVec 8),
    let x := s.spdmOf f
    let chain := s.certificateChain
    let from_ := fun (u : State) (i : Instr) (p : Spdm → Prop) =>
      ∃ t, exec i s = .next t ∧ t = u.setSpdm f (t.spdmOf f) ∧ p (t.spdmOf f)
    let after := from_ s
    let refuses := fun (i : Instr) (e : BitVec 8) => exec i s = .next (s.setSpdm f { x with response := spdmError e })
    let unexpected : BitVec 8 := 0x04
    let invalid : BitVec 8 := 0x01
    let undecipherable : BitVec 8 := 0x06
    after (.getVersion f) (fun y => y.state = .versioned ∧ y.session = none ∧ y.meas = [] ∧ y.certs = []
      ∧ y.vca = Config.spdmBytes 0x84 [] ++ y.response)
    ∧ (x.state = .versioned → after (.getCapabilities ⟨f, flags, more⟩) fun y => y.state = .capable ∧ y.session = x.session
        ∧ y.response = Config.spdmBytes 0x61 (bytesOf 4 0x216)
        ∧ y.vca = x.vca ++ Config.spdmBytes 0xE1 (bytesOf 4 flags.toNat ++ more) ++ y.response)
    ∧ (x.state ≠ .versioned → refuses (.getCapabilities ⟨f, flags, more⟩) unexpected)
    ∧ (let offered := offer.asym.getLsbD 11 = true ∧ offer.hash.getLsbD 4 = true
      (x.state = .capable → offered → after (.negotiateAlgorithms { offer with fn := f }) fun y => y.state = .negotiated
        ∧ y.secure = (offer.dhe.getLsbD 4 && offer.aead.getLsbD 1)
        ∧ y.vca = x.vca ++ Config.spdmBytes 0xE3 (offerBytes offer) ++ y.response)
      ∧ (x.state = .capable → ¬offered → refuses (.negotiateAlgorithms { offer with fn := f }) invalid)
      ∧ (x.state ≠ .capable → refuses (.negotiateAlgorithms { offer with fn := f }) unexpected))
    ∧ (x.state ≠ .negotiated → ∀ i ∈ [Instr.getCertificate f slot off len, .challenge f slot nonce,
        .getMeasurements f index signed nonce, .keyExchange f slot ex guest, .finish f verify, .endSession ⟨f, record⟩], refuses i unexpected)
    ∧ (x.state = .negotiated →
      (slot = 0 → off < chain.length → after (.getCertificate f slot off len) fun y => ∃ part, part = (chain.drop off).take (min len 1024)
        ∧ y.response = Config.spdmBytes 0x02 (0 :: bytesOf 2 part.length ++ bytesOf 2 (chain.length - off - part.length) ++ part))
      ∧ ((slot ≠ 0 ∨ chain.length ≤ off) → refuses (.getCertificate f slot off len) invalid)
      ∧ (slot = 0 → from_ (s.drawn 1) (.challenge f slot nonce) fun y =>
          let rsp := Config.spdmBytes 0x03 (0 :: sha3_384 chain ++ nonceBytes (Config.drbg s.sec.draws))
          y.response = rsp ++ s.signTranscript 0x03 (x.vca ++ x.certs ++ Config.spdmBytes 0x83 (0 :: nonceBytes nonce) ++ rsp))
      ∧ (slot ≠ 0 → refuses (.challenge f slot nonce) invalid ∧ refuses (.keyExchange f slot ex guest) invalid)
      ∧ (∀ body, s.measured index = some body → from_ (s.drawn 1) (.getMeasurements f index signed nonce) fun y =>
          let req := Config.spdmBytes 0xE0 ([if signed then 1 else 0, index] ++ (if signed then nonceBytes nonce else []))
          let rsp := Config.spdmBytes 0x60 (body ++ nonceBytes (Config.drbg s.sec.draws))
          (signed = true → y.meas = [] ∧ y.response = rsp ++ s.signTranscript 0x60 (x.vca ++ (x.meas ++ req ++ rsp)))
          ∧ (signed = false → y.meas = x.meas ++ req ++ rsp ∧ y.response = rsp))
      ∧ (s.measured index = none → refuses (.getMeasurements f index signed nonce) invalid)
      ∧ (slot = 0 → x.secure = false → refuses (.keyExchange f slot ex guest) invalid)
      ∧ (slot = 0 → x.secure = true → from_ ((if guest then s.bindGuest f.toNat else s).drawn 2) (.keyExchange f slot ex guest) fun y =>
          y.finished = false ∧ y.sent = 0 ∧ y.received = 0 ∧ y.guest.isSome = guest
          ∧ (guest = true → ∀ g, (s.fn f.toNat).binding = some g → y.guest = some g)
          ∧ y.session = some (Config.ecdheSecret (Config.drbg s.sec.draws) ex))
      ∧ (∀ secret, x.session = some secret → x.finished = false →
        (verify = x.verifyData secret → after (.finish f verify) fun y => y.finished = true ∧ y.session = x.session)
        ∧ (verify ≠ x.verifyData secret → after (.finish f verify) fun y => y.session = none))
      ∧ ((x.session = none ∨ x.finished = true) → refuses (.finish f verify) unexpected)
      ∧ (x.inSession = false → refuses (.endSession ⟨f, record⟩) unexpected)
      ∧ (x.inSession = true → x.opens record (Config.spdmBytes 0xEC []) = false → refuses (.endSession ⟨f, record⟩) undecipherable)
      ∧ (x.inSession = true → x.opens record (Config.spdmBytes 0xEC []) = true → after (.endSession ⟨f, record⟩) fun y =>
          y.session = none ∧ y.finished = false ∧ y.guest = none ∧ y.response = x.sealed true x.sent (Config.spdmBytes 0x6C [])))
    ∧ (supportedCodes.contains code = false → refuses (.spdmUnsupportedRequest f code) 0x07)
    ∧ exec (.doeAbort f) s = .next s

/-- R61, R141, R253, R302, R367, R368, R370, R392, R397, R399, R401, R402, R404: vendor commands, the life of contexts, migration.
The model's choices: blocks 5 and 6 are extended as the first context is created (log entry 107); the bytes and the records of
vendor commands (129); which guest a function is bound to (131); the session of the security cores and how the receipt travels
(132). Completes: rekeyQueue, bindChannel, grantCorpse, discardCorpse, setQuota, extend, migrate, assign, contextCreate,
contextDestroy, migrationInstall, migrationReceipt, migrationConfirm. -/
def Obligations.VendorCommandsAndContexts : Prop :=
  ∀ (s : State) (x : Session) (q : BitVec 6) (key : BitVec 256) (ch : BitVec 10) (n : BitVec 8) (w : Word) (id : BitVec 32)
      (bytes : Nat) (block : BitVec 4) (digest : BitVec 384) (dev : BitVec 19) (owner : BitVec 8) (add : Bool),
    let after := fun (i : Instr) (p : State → Prop) => ∃ t, exec i s = .next t ∧ p t
    let m := s.spdmOf x.box
    let tells := fun (c : BitVec 8) (fields : List Byte) => m.opens x.record (Config.spdmBytes 0xFE (BitVec.ofNat 8 x.fn.toNat :: c :: fields))
    let accepted := (x.box = x.fn ∨ x.box = 0) ∧ ((s.fn x.fn.toNat).tdi = .unlocked ∨
      x.box = x.fn ∧ ∃ g, (s.fn x.fn.toNat).binding = some g ∧ m.guest = some g)
    let ofGuest := fun (k : Corpse) => ∀ g, k.guest = some g → x.box = x.fn ∧ m.guest = some g
    let rekey := tells 0x01 (BitVec.ofNat 8 q.toNat :: bytesOf 32 key.toNat)
    let bind := tells 0x02 (bytesOf 2 ch.toNat ++ n :: bytesOf 32 key.toNat ++ bytesOf 8 w.toNat)
    let grant := tells 0x03 (bytesOf 4 id.toNat ++ [n, if add then 1 else 0])
    let discard := tells 0x04 (bytesOf 4 id.toNat)
    let quota := tells 0x05 (n :: bytesOf 8 bytes)
    let extend := tells 0x06 (BitVec.ofNat 8 block.toNat :: digestBytes digest)
    let migrate := tells 0x07 (n :: bytesOf 3 dev.toNat)
    let assign := tells 0x08 (bytesOf 8 w.toNat ++ [owner])
    let commands := [(Instr.rekeyQueue x q key, rekey), (.bindChannel x ch n key w, bind), (.grantCorpse x id n add, grant),
      (.discardCorpse x id, discard), (.setQuota x n bytes, quota), (.extend x block digest, extend), (.migrate x n dev, migrate),
      (.assign x w owner, assign)]
    let rejects := fun (i : Instr) => exec i s = .next (s.sessionAnswer x.box (spdmError 0x01))
    let answered := fun (c : BitVec 8) (t : State) => (t.spdmOf x.box).response = m.sealed true m.sent (Config.spdmBytes 0x7E [c])
      ∧ (t.spdmOf x.box).received = m.received + 1
    (∀ c ∈ commands, m.inSession = false → exec c.1 s = .next (s.setSpdm x.box { m with response := spdmError 0x04 }))
    ∧ (∀ c ∈ commands, m.inSession = true → c.2 = false → exec c.1 s = .next (s.setSpdm x.box { m with response := spdmError 0x06 }))
    ∧ (∀ c ∈ commands, m.inSession = true → c.2 = true → ¬accepted → exec c.1 s = .next (s.sessionAnswer x.box (spdmError 0x04)))
    ∧ (m.inSession = true → accepted →
      (rekey = true →
        (q ≠ x.fn → rejects (.rekeyQueue x q key))
        ∧ (q = x.fn → after (.rekeyQueue x q key) fun t => (t.fn q.toNat).key = key ∧ (t.fn q.toNat).expect = 0
            ∧ (t.fn q.toNat).qstate = .isOpen ∧ answered 0x01 t))
      ∧ (bind = true →
        let ours := (∃ c, s.ctx n = some c ∧ c.fn = x.fn)
          ∧ ∀ k, assocGet s.sec.channels ch.toNat = some k → ∃ d, s.ctx k.context = some d ∧ d.fn = x.fn
        (¬ours → rejects (.bindChannel x ch n key w))
        ∧ (ours → after (.bindChannel x ch n key w) fun t =>
            assocGet t.sec.channels ch.toNat = some ⟨n, key, w, false⟩ ∧ answered 0x02 t))
      ∧ (grant = true → ∀ k, corpseFind id s.corpses = some k → k.fn = x.fn →
        (¬ofGuest k → rejects (.grantCorpse x id n add))
        ∧ (ofGuest k → add = false → after (.grantCorpse x id n add) fun t => answered 0x03 t
            ∧ ∃ k', corpseFind id t.corpses = some k' ∧ ∀ e, e ∈ k'.grants ↔ e ∈ k.grants ∧ e.1 ≠ n)
        ∧ (ofGuest k → add = true → s.ctx n = none → rejects (.grantCorpse x id n add))
        ∧ (∀ c, ofGuest k → add = true → s.ctx n = some c →
          ((c.num, c.serial) ∉ k.grants → 8 ≤ k.grants.length → rejects (.grantCorpse x id n add))
          ∧ ((c.num, c.serial) ∈ k.grants ∨ k.grants.length < 8 → after (.grantCorpse x id n add) fun t => answered 0x03 t
              ∧ ∃ k', corpseFind id t.corpses = some k' ∧ ∀ e, e ∈ k'.grants ↔ e ∈ k.grants ∨ e = (c.num, c.serial))))
      ∧ (grant = true → (∀ k, corpseFind id s.corpses = some k → k.fn ≠ x.fn) → rejects (.grantCorpse x id n add))
      ∧ (discard = true → ∀ k, corpseFind id s.corpses = some k → k.fn = x.fn →
        (s.mounted id = true → rejects (.discardCorpse x id))
        ∧ (s.mounted id = false → after (.discardCorpse x id) fun t => corpseFind id t.corpses = none))
      ∧ (quota = true → ∀ c, s.ctx n = some c → c.num = n → c.fn = x.fn →
        (bytes % 2 ^ 26 = 0 → after (.setQuota x n bytes) fun t => answered 0x05 t ∧ ∃ c', t.ctx n = some c' ∧ c'.quota = bytes)
        ∧ (bytes % 2 ^ 26 ≠ 0 → rejects (.setQuota x n bytes)))
      ∧ (extend = true →
        (7 ≤ block.toNat → after (.extend x block digest) fun t => answered 0x06 t
          ∧ vecAt t.sec.blocks block.toNat 0 = extendBlock (vecAt s.sec.blocks block.toNat 0) digest)
        ∧ (block.toNat < 7 → rejects (.extend x block digest)))
      ∧ (migrate = true → ∀ c, s.ctx n = some c → c.num = n → c.fn = x.fn →
        let may := (c.migrating = none ∨ c.migrating = some dev) ∧ migrationFind n s.migrations = none ∧ dev ∈ s.sec.sessions
        (¬may → rejects (.migrate x n dev))
        ∧ (may → after (.migrate x n dev) fun t => (∃ c', t.ctx n = some c' ∧ c'.migrating = some dev)
            ∧ ((∀ e ∈ s.tasks, e.context = n → e.state = .running → s.awaits e = false) →
              ∃ k, migrationFind n t.migrations = some k ∧ k.stage = .atSource ∧ k.device = dev ∧ k.serial = c.serial)))
      ∧ (assign = true → ∀ o, ownTarget w.toNat = some o → s.ownerOf o = 0 → (∀ c, o = .core c → c ∉ s.absent) → s.inHand o = false →
          ∀ c, s.ctx owner = some c → c.fn = x.fn → owner ≠ 0 → after (.assign x w owner) fun t => t.ownerOf o = owner))
    ∧ (∀ f root area areaPa trace tracePa log (e : Ctx), e.num = n → e.root = root.toNat → e.area = area → e.areaPa = areaPa.toNat →
        e.trace = trace → e.tracePa = tracePa.toNat → e.traceLog = log →
        let create := Instr.contextCreate n f root area areaPa trace tracePa log
        let may := n ≠ 0 ∧ s.ctx n = none ∧ e.placed s.fitted = true ∧ s.ownsNothing n = true ∧ s.givable (s.ownPages e) = true
        (e.placed s.fitted = true ↔ area.toNat % 65536 = 0 ∧ areaPa.toNat % 65536 = 0
          ∧ trace.toNat % 65536 = tracePa.toNat % 65536 ∧ 10 ≤ log ∧ log ≤ 20 ∧ ∀ y ∈ e.fixed, y.holds s.fitted = true)
        ∧ (¬may → exec create s = .next s)
        ∧ (may → Memory.wf s.mem = true →
          after create fun t => (∃ c, t.ctx n = some c ∧ c.fn = f ∧ c.root = root.toNat ∧ c.serial = s.sec.serials + 1
              ∧ c.area = area ∧ c.areaPa = areaPa.toNat)
            ∧ t.sec.serials = s.sec.serials + 1 ∧ t.sec.fresh = false
            ∧ (s.sec.fresh = true → vecAt t.sec.blocks 5 0 = extendBlock (vecAt s.sec.blocks 5 0) (digestOf (sha3_384
                (Config.splitRecord (s.dies.toList.map fun (d : Die) => (d.splitMib, d.reserved))))))
            ∧ (s.sec.fresh = false → t.sec.blocks = s.sec.blocks)
            ∧ t.readBytes (devLoc tracePa.toNat) 12 = bytesOf 8 0 ++ bytesOf 4 log))
    ∧ (∀ c, s.ctx n = some c → s.ownsNothing n = true → after (.contextDestroy n) fun t =>
        t.corpses = s.corpses ∧ (∀ k ∈ t.tasks, k.context ≠ n) ∧ (∀ e ∈ t.tlb, e.context ≠ n)
        ∧ ∀ p ∈ s.ownPages c, ∀ l, p.2.1 ≤ l → l < p.2.1 + p.2.2 →
            t.byteAt l = 0 ∧ (p.2.1 % 32 = 0 → p.2.2 % 32 = 0 → t.colourAt l = 0))
    ∧ ((s.ownsNothing n = false ∨ s.ctx n = none) → exec (.contextDestroy n) s = .next s)
    ∧ (∀ text,
        let may := n ≠ 0 ∧ s.ctx n = none ∧ migrationFind n s.migrations = none ∧ dev ∈ s.sec.sessions ∧ s.ownsNothing n = true
        let opened := (Config.openState dev text).bind (Config.contextOf s)
        (¬may → exec (.migrationInstall dev n text) s = .next s)
        ∧ (may → after (.migrationInstall dev n text) fun t => if opened = none then t = s else
            (∃ c, t.ctx n = some c ∧ c.migrating = some dev ∧ c.serial = s.sec.serials + 1)
            ∧ ∃ sig, t.fabric.replies = s.fabric.replies ++ [⟨dev, 0, .receipt n sig⟩]
              ∧ (s.sec.fresh = false → sig = ed448Sign s.aliasKey (digestBytes (digestOf (sha3_384 text))))))
    ∧ (∀ k sig, migrationFind n s.migrations = some k → k.stage = .atSource →
        let valid := ed448Verify (Config.deviceKeyOf k.device) (digestBytes k.digest) sig
        after (.migrationReceipt n sig) fun t => if valid = true then (∀ e ∈ t.tasks, e.context ≠ n)
          ∧ migrationFind n t.migrations = some { k with stage := .committed } else t = s)
    ∧ (migrationFind n s.migrations = none → ∀ sig c, exec (.migrationReceipt n sig) s = .next s
        ∧ exec (.migrationConfirm n c) s = .next s)
    ∧ (∀ k com, migrationFind n s.migrations = some k →
        let lost := fun (t : State) => ∀ j ∈ t.journal, j.context = n → j.serial = k.serial → j.outcome = 5
        let going := fun (t : State) => ∃ c', t.ctx n = some c' ∧ c'.migrating = none
        (∀ c, k.stage = .atSource → s.ctx n = some c → c.num = n → exec (.migrationConfirm n .delivered) s = .next s
          ∧ (c.migrating.isSome = true → after (.migrationConfirm n (.failed com)) going))
        ∧ (∀ c, k.stage = .installed → s.ctx n = some c → c.num = n → after (.migrationConfirm n .delivered) going
          ∧ after (.migrationConfirm n (.failed com)) fun t => (∀ e ∈ t.tasks, e.context ≠ n)
            ∧ (com = true → lost t) ∧ (com = false → t.journal = s.journal))
        ∧ (k.stage = .committed → after (.migrationConfirm n .delivered) (fun t => migrationFind n t.migrations = none)
          ∧ after (.migrationConfirm n (.failed com)) fun t => migrationFind n t.migrations = none ∧ lost t))
end

