-- ==== Sys2Proof/Laws/State.lean ====
section
/-! SUPPORT. What each update of the state leaves as it was, one lemma per field. -/

namespace Sys2Proof.Machine

@[simp] theorem State.setCore_core (s : State) (c : Core) : (s.setCore c).core = c := rfl
@[simp] theorem State.setCore_parked (s : State) (c : Core) : (s.setCore c).parked = s.parked := rfl
@[simp] theorem State.setCore_script (s : State) (c : Core) : (s.setCore c).script = s.script := rfl
@[simp] theorem State.setCore_pace (s : State) (c : Core) : (s.setCore c).pace = s.pace := rfl
@[simp] theorem State.setCore_stalled (s : State) (c : Core) : (s.setCore c).stalled = s.stalled := rfl
@[simp] theorem State.setCore_still (s : State) (c : Core) : (s.setCore c).still = s.still := rfl
@[simp] theorem State.setCore_hold (s : State) (c : Core) : (s.setCore c).hold = s.hold := rfl
@[simp] theorem State.setCore_free (s : State) (c : Core) : (s.setCore c).free = s.free := rfl
@[simp] theorem State.setCore_mem (s : State) (c : Core) : (s.setCore c).mem = s.mem := rfl
@[simp] theorem State.setCore_tags (s : State) (c : Core) : (s.setCore c).tags = s.tags := rfl
@[simp] theorem State.setCore_colours (s : State) (c : Core) : (s.setCore c).colours = s.colours := rfl
@[simp] theorem State.setCore_lines (s : State) (c : Core) : (s.setCore c).lines = s.lines := rfl
@[simp] theorem State.setCore_bad (s : State) (c : Core) : (s.setCore c).bad = s.bad := rfl
@[simp] theorem State.setCore_tlb (s : State) (c : Core) : (s.setCore c).tlb = s.tlb := rfl
@[simp] theorem State.setCore_flights (s : State) (c : Core) : (s.setCore c).flights = s.flights := rfl
@[simp] theorem State.setCore_posted (s : State) (c : Core) : (s.setCore c).posted = s.posted := rfl
@[simp] theorem State.setCore_timed (s : State) (c : Core) : (s.setCore c).timed = s.timed := rfl
@[simp] theorem State.setCore_misses (s : State) (c : Core) : (s.setCore c).misses = s.misses := rfl
@[simp] theorem State.setCore_dies (s : State) (c : Core) : (s.setCore c).dies = s.dies := rfl
@[simp] theorem State.setCore_clusters (s : State) (c : Core) : (s.setCore c).clusters = s.clusters := rfl
@[simp] theorem State.setCore_cisterns (s : State) (c : Core) : (s.setCore c).cisterns = s.cisterns := rfl
@[simp] theorem State.setCore_contexts (s : State) (c : Core) : (s.setCore c).contexts = s.contexts := rfl
@[simp] theorem State.setCore_tasks (s : State) (c : Core) : (s.setCore c).tasks = s.tasks := rfl
@[simp] theorem State.setCore_journal (s : State) (c : Core) : (s.setCore c).journal = s.journal := rfl
@[simp] theorem State.setCore_nextSeq (s : State) (c : Core) : (s.setCore c).nextSeq = s.nextSeq := rfl
@[simp] theorem State.setCore_pattern (s : State) (c : Core) : (s.setCore c).pattern = s.pattern := rfl
@[simp] theorem State.setCore_fns (s : State) (c : Core) : (s.setCore c).fns = s.fns := rfl
@[simp] theorem State.setCore_internalLeader (s : State) (c : Core) : (s.setCore c).internalLeader = s.internalLeader := rfl
@[simp] theorem State.setCore_weirs (s : State) (c : Core) : (s.setCore c).weirs = s.weirs := rfl
@[simp] theorem State.setCore_flumes (s : State) (c : Core) : (s.setCore c).flumes = s.flumes := rfl
@[simp] theorem State.setCore_owners (s : State) (c : Core) : (s.setCore c).owners = s.owners := rfl
@[simp] theorem State.setCore_corpses (s : State) (c : Core) : (s.setCore c).corpses = s.corpses := rfl
@[simp] theorem State.setCore_freezing (s : State) (c : Core) : (s.setCore c).freezing = s.freezing := rfl
@[simp] theorem State.setCore_placedIds (s : State) (c : Core) : (s.setCore c).placedIds = s.placedIds := rfl
@[simp] theorem State.setCore_overlays (s : State) (c : Core) : (s.setCore c).overlays = s.overlays := rfl
@[simp] theorem State.setCore_fabric (s : State) (c : Core) : (s.setCore c).fabric = s.fabric := rfl
@[simp] theorem State.setCore_sec (s : State) (c : Core) : (s.setCore c).sec = s.sec := rfl
@[simp] theorem State.setCore_device (s : State) (c : Core) : (s.setCore c).device = s.device := rfl
@[simp] theorem State.setCore_feed (s : State) (c : Core) : (s.setCore c).feed = s.feed := rfl
@[simp] theorem State.setCore_reference (s : State) (c : Core) : (s.setCore c).reference = s.reference := rfl
@[simp] theorem State.setCore_absent (s : State) (c : Core) : (s.setCore c).absent = s.absent := rfl
@[simp] theorem State.setCore_hbms (s : State) (c : Core) : (s.setCore c).hbms = s.hbms := rfl
@[simp] theorem State.setCore_withheld (s : State) (c : Core) : (s.setCore c).withheld = s.withheld := rfl
@[simp] theorem State.setCore_powerCap (s : State) (c : Core) : (s.setCore c).powerCap = s.powerCap := rfl
@[simp] theorem State.setCore_hostAtomics (s : State) (c : Core) : (s.setCore c).hostAtomics = s.hostAtomics := rfl
@[simp] theorem State.setCore_flitMode (s : State) (c : Core) : (s.setCore c).flitMode = s.flitMode := rfl
@[simp] theorem State.setCore_coolantOk (s : State) (c : Core) : (s.setCore c).coolantOk = s.coolantOk := rfl
@[simp] theorem State.setCore_deviceErrors (s : State) (c : Core) : (s.setCore c).deviceErrors = s.deviceErrors := rfl
@[simp] theorem State.setCore_migrations (s : State) (c : Core) : (s.setCore c).migrations = s.migrations := rfl
@[simp] theorem State.setCore_frozen (s : State) (c : Core) : (s.setCore c).frozen = s.frozen := rfl

@[simp] theorem State.setPc_core (s : State) (a : Addr) : (s.setPc a).core = { s.core with pcc := s.core.pcc.setCursor a } := rfl
@[simp] theorem State.setPc_parked (s : State) (a : Addr) : (s.setPc a).parked = s.parked := rfl
@[simp] theorem State.setPc_script (s : State) (a : Addr) : (s.setPc a).script = s.script := rfl
@[simp] theorem State.setPc_pace (s : State) (a : Addr) : (s.setPc a).pace = s.pace := rfl
@[simp] theorem State.setPc_stalled (s : State) (a : Addr) : (s.setPc a).stalled = s.stalled := rfl
@[simp] theorem State.setPc_still (s : State) (a : Addr) : (s.setPc a).still = s.still := rfl
@[simp] theorem State.setPc_hold (s : State) (a : Addr) : (s.setPc a).hold = s.hold := rfl
@[simp] theorem State.setPc_free (s : State) (a : Addr) : (s.setPc a).free = s.free := rfl
@[simp] theorem State.setPc_mem (s : State) (a : Addr) : (s.setPc a).mem = s.mem := rfl
@[simp] theorem State.setPc_tags (s : State) (a : Addr) : (s.setPc a).tags = s.tags := rfl
@[simp] theorem State.setPc_colours (s : State) (a : Addr) : (s.setPc a).colours = s.colours := rfl
@[simp] theorem State.setPc_lines (s : State) (a : Addr) : (s.setPc a).lines = s.lines := rfl
@[simp] theorem State.setPc_bad (s : State) (a : Addr) : (s.setPc a).bad = s.bad := rfl
@[simp] theorem State.setPc_tlb (s : State) (a : Addr) : (s.setPc a).tlb = s.tlb := rfl
@[simp] theorem State.setPc_flights (s : State) (a : Addr) : (s.setPc a).flights = s.flights := rfl
@[simp] theorem State.setPc_posted (s : State) (a : Addr) : (s.setPc a).posted = s.posted := rfl
@[simp] theorem State.setPc_timed (s : State) (a : Addr) : (s.setPc a).timed = s.timed := rfl
@[simp] theorem State.setPc_misses (s : State) (a : Addr) : (s.setPc a).misses = s.misses := rfl
@[simp] theorem State.setPc_dies (s : State) (a : Addr) : (s.setPc a).dies = s.dies := rfl
@[simp] theorem State.setPc_clusters (s : State) (a : Addr) : (s.setPc a).clusters = s.clusters := rfl
@[simp] theorem State.setPc_cisterns (s : State) (a : Addr) : (s.setPc a).cisterns = s.cisterns := rfl
@[simp] theorem State.setPc_contexts (s : State) (a : Addr) : (s.setPc a).contexts = s.contexts := rfl
@[simp] theorem State.setPc_tasks (s : State) (a : Addr) : (s.setPc a).tasks = s.tasks := rfl
@[simp] theorem State.setPc_journal (s : State) (a : Addr) : (s.setPc a).journal = s.journal := rfl
@[simp] theorem State.setPc_nextSeq (s : State) (a : Addr) : (s.setPc a).nextSeq = s.nextSeq := rfl
@[simp] theorem State.setPc_pattern (s : State) (a : Addr) : (s.setPc a).pattern = s.pattern := rfl
@[simp] theorem State.setPc_fns (s : State) (a : Addr) : (s.setPc a).fns = s.fns := rfl
@[simp] theorem State.setPc_internalLeader (s : State) (a : Addr) : (s.setPc a).internalLeader = s.internalLeader := rfl
@[simp] theorem State.setPc_weirs (s : State) (a : Addr) : (s.setPc a).weirs = s.weirs := rfl
@[simp] theorem State.setPc_flumes (s : State) (a : Addr) : (s.setPc a).flumes = s.flumes := rfl
@[simp] theorem State.setPc_owners (s : State) (a : Addr) : (s.setPc a).owners = s.owners := rfl
@[simp] theorem State.setPc_corpses (s : State) (a : Addr) : (s.setPc a).corpses = s.corpses := rfl
@[simp] theorem State.setPc_freezing (s : State) (a : Addr) : (s.setPc a).freezing = s.freezing := rfl
@[simp] theorem State.setPc_placedIds (s : State) (a : Addr) : (s.setPc a).placedIds = s.placedIds := rfl
@[simp] theorem State.setPc_overlays (s : State) (a : Addr) : (s.setPc a).overlays = s.overlays := rfl
@[simp] theorem State.setPc_fabric (s : State) (a : Addr) : (s.setPc a).fabric = s.fabric := rfl
@[simp] theorem State.setPc_sec (s : State) (a : Addr) : (s.setPc a).sec = s.sec := rfl
@[simp] theorem State.setPc_device (s : State) (a : Addr) : (s.setPc a).device = s.device := rfl
@[simp] theorem State.setPc_feed (s : State) (a : Addr) : (s.setPc a).feed = s.feed := rfl
@[simp] theorem State.setPc_reference (s : State) (a : Addr) : (s.setPc a).reference = s.reference := rfl
@[simp] theorem State.setPc_absent (s : State) (a : Addr) : (s.setPc a).absent = s.absent := rfl
@[simp] theorem State.setPc_hbms (s : State) (a : Addr) : (s.setPc a).hbms = s.hbms := rfl
@[simp] theorem State.setPc_withheld (s : State) (a : Addr) : (s.setPc a).withheld = s.withheld := rfl
@[simp] theorem State.setPc_powerCap (s : State) (a : Addr) : (s.setPc a).powerCap = s.powerCap := rfl
@[simp] theorem State.setPc_hostAtomics (s : State) (a : Addr) : (s.setPc a).hostAtomics = s.hostAtomics := rfl
@[simp] theorem State.setPc_flitMode (s : State) (a : Addr) : (s.setPc a).flitMode = s.flitMode := rfl
@[simp] theorem State.setPc_coolantOk (s : State) (a : Addr) : (s.setPc a).coolantOk = s.coolantOk := rfl
@[simp] theorem State.setPc_deviceErrors (s : State) (a : Addr) : (s.setPc a).deviceErrors = s.deviceErrors := rfl
@[simp] theorem State.setPc_migrations (s : State) (a : Addr) : (s.setPc a).migrations = s.migrations := rfl
@[simp] theorem State.setPc_frozen (s : State) (a : Addr) : (s.setPc a).frozen = s.frozen := rfl

@[simp] theorem State.setPcc_core (s : State) (c : GReg) : (s.setPcc c).core = { s.core with pcc := c } := rfl
@[simp] theorem State.setPcc_parked (s : State) (c : GReg) : (s.setPcc c).parked = s.parked := rfl
@[simp] theorem State.setPcc_script (s : State) (c : GReg) : (s.setPcc c).script = s.script := rfl
@[simp] theorem State.setPcc_pace (s : State) (c : GReg) : (s.setPcc c).pace = s.pace := rfl
@[simp] theorem State.setPcc_stalled (s : State) (c : GReg) : (s.setPcc c).stalled = s.stalled := rfl
@[simp] theorem State.setPcc_still (s : State) (c : GReg) : (s.setPcc c).still = s.still := rfl
@[simp] theorem State.setPcc_hold (s : State) (c : GReg) : (s.setPcc c).hold = s.hold := rfl
@[simp] theorem State.setPcc_free (s : State) (c : GReg) : (s.setPcc c).free = s.free := rfl
@[simp] theorem State.setPcc_mem (s : State) (c : GReg) : (s.setPcc c).mem = s.mem := rfl
@[simp] theorem State.setPcc_tags (s : State) (c : GReg) : (s.setPcc c).tags = s.tags := rfl
@[simp] theorem State.setPcc_colours (s : State) (c : GReg) : (s.setPcc c).colours = s.colours := rfl
@[simp] theorem State.setPcc_lines (s : State) (c : GReg) : (s.setPcc c).lines = s.lines := rfl
@[simp] theorem State.setPcc_bad (s : State) (c : GReg) : (s.setPcc c).bad = s.bad := rfl
@[simp] theorem State.setPcc_tlb (s : State) (c : GReg) : (s.setPcc c).tlb = s.tlb := rfl
@[simp] theorem State.setPcc_flights (s : State) (c : GReg) : (s.setPcc c).flights = s.flights := rfl
@[simp] theorem State.setPcc_posted (s : State) (c : GReg) : (s.setPcc c).posted = s.posted := rfl
@[simp] theorem State.setPcc_timed (s : State) (c : GReg) : (s.setPcc c).timed = s.timed := rfl
@[simp] theorem State.setPcc_misses (s : State) (c : GReg) : (s.setPcc c).misses = s.misses := rfl
@[simp] theorem State.setPcc_dies (s : State) (c : GReg) : (s.setPcc c).dies = s.dies := rfl
@[simp] theorem State.setPcc_clusters (s : State) (c : GReg) : (s.setPcc c).clusters = s.clusters := rfl
@[simp] theorem State.setPcc_cisterns (s : State) (c : GReg) : (s.setPcc c).cisterns = s.cisterns := rfl
@[simp] theorem State.setPcc_contexts (s : State) (c : GReg) : (s.setPcc c).contexts = s.contexts := rfl
@[simp] theorem State.setPcc_tasks (s : State) (c : GReg) : (s.setPcc c).tasks = s.tasks := rfl
@[simp] theorem State.setPcc_journal (s : State) (c : GReg) : (s.setPcc c).journal = s.journal := rfl
@[simp] theorem State.setPcc_nextSeq (s : State) (c : GReg) : (s.setPcc c).nextSeq = s.nextSeq := rfl
@[simp] theorem State.setPcc_pattern (s : State) (c : GReg) : (s.setPcc c).pattern = s.pattern := rfl
@[simp] theorem State.setPcc_fns (s : State) (c : GReg) : (s.setPcc c).fns = s.fns := rfl
@[simp] theorem State.setPcc_internalLeader (s : State) (c : GReg) : (s.setPcc c).internalLeader = s.internalLeader := rfl
@[simp] theorem State.setPcc_weirs (s : State) (c : GReg) : (s.setPcc c).weirs = s.weirs := rfl
@[simp] theorem State.setPcc_flumes (s : State) (c : GReg) : (s.setPcc c).flumes = s.flumes := rfl
@[simp] theorem State.setPcc_owners (s : State) (c : GReg) : (s.setPcc c).owners = s.owners := rfl
@[simp] theorem State.setPcc_corpses (s : State) (c : GReg) : (s.setPcc c).corpses = s.corpses := rfl
@[simp] theorem State.setPcc_freezing (s : State) (c : GReg) : (s.setPcc c).freezing = s.freezing := rfl
@[simp] theorem State.setPcc_placedIds (s : State) (c : GReg) : (s.setPcc c).placedIds = s.placedIds := rfl
@[simp] theorem State.setPcc_overlays (s : State) (c : GReg) : (s.setPcc c).overlays = s.overlays := rfl
@[simp] theorem State.setPcc_fabric (s : State) (c : GReg) : (s.setPcc c).fabric = s.fabric := rfl
@[simp] theorem State.setPcc_sec (s : State) (c : GReg) : (s.setPcc c).sec = s.sec := rfl
@[simp] theorem State.setPcc_device (s : State) (c : GReg) : (s.setPcc c).device = s.device := rfl
@[simp] theorem State.setPcc_feed (s : State) (c : GReg) : (s.setPcc c).feed = s.feed := rfl
@[simp] theorem State.setPcc_reference (s : State) (c : GReg) : (s.setPcc c).reference = s.reference := rfl
@[simp] theorem State.setPcc_absent (s : State) (c : GReg) : (s.setPcc c).absent = s.absent := rfl
@[simp] theorem State.setPcc_hbms (s : State) (c : GReg) : (s.setPcc c).hbms = s.hbms := rfl
@[simp] theorem State.setPcc_withheld (s : State) (c : GReg) : (s.setPcc c).withheld = s.withheld := rfl
@[simp] theorem State.setPcc_powerCap (s : State) (c : GReg) : (s.setPcc c).powerCap = s.powerCap := rfl
@[simp] theorem State.setPcc_hostAtomics (s : State) (c : GReg) : (s.setPcc c).hostAtomics = s.hostAtomics := rfl
@[simp] theorem State.setPcc_flitMode (s : State) (c : GReg) : (s.setPcc c).flitMode = s.flitMode := rfl
@[simp] theorem State.setPcc_coolantOk (s : State) (c : GReg) : (s.setPcc c).coolantOk = s.coolantOk := rfl
@[simp] theorem State.setPcc_deviceErrors (s : State) (c : GReg) : (s.setPcc c).deviceErrors = s.deviceErrors := rfl
@[simp] theorem State.setPcc_migrations (s : State) (c : GReg) : (s.setPcc c).migrations = s.migrations := rfl
@[simp] theorem State.setPcc_frozen (s : State) (c : GReg) : (s.setPcc c).frozen = s.frozen := rfl

@[simp] theorem State.setV_parked (s : State) (n : RegNum) (x : VReg) : (s.setV n x).parked = s.parked := rfl
@[simp] theorem State.setV_script (s : State) (n : RegNum) (x : VReg) : (s.setV n x).script = s.script := rfl
@[simp] theorem State.setV_pace (s : State) (n : RegNum) (x : VReg) : (s.setV n x).pace = s.pace := rfl
@[simp] theorem State.setV_stalled (s : State) (n : RegNum) (x : VReg) : (s.setV n x).stalled = s.stalled := rfl
@[simp] theorem State.setV_still (s : State) (n : RegNum) (x : VReg) : (s.setV n x).still = s.still := rfl
@[simp] theorem State.setV_hold (s : State) (n : RegNum) (x : VReg) : (s.setV n x).hold = s.hold := rfl
@[simp] theorem State.setV_free (s : State) (n : RegNum) (x : VReg) : (s.setV n x).free = s.free := rfl
@[simp] theorem State.setV_mem (s : State) (n : RegNum) (x : VReg) : (s.setV n x).mem = s.mem := rfl
@[simp] theorem State.setV_tags (s : State) (n : RegNum) (x : VReg) : (s.setV n x).tags = s.tags := rfl
@[simp] theorem State.setV_colours (s : State) (n : RegNum) (x : VReg) : (s.setV n x).colours = s.colours := rfl
@[simp] theorem State.setV_lines (s : State) (n : RegNum) (x : VReg) : (s.setV n x).lines = s.lines := rfl
@[simp] theorem State.setV_bad (s : State) (n : RegNum) (x : VReg) : (s.setV n x).bad = s.bad := rfl
@[simp] theorem State.setV_tlb (s : State) (n : RegNum) (x : VReg) : (s.setV n x).tlb = s.tlb := rfl
@[simp] theorem State.setV_flights (s : State) (n : RegNum) (x : VReg) : (s.setV n x).flights = s.flights := rfl
@[simp] theorem State.setV_posted (s : State) (n : RegNum) (x : VReg) : (s.setV n x).posted = s.posted := rfl
@[simp] theorem State.setV_timed (s : State) (n : RegNum) (x : VReg) : (s.setV n x).timed = s.timed := rfl
@[simp] theorem State.setV_misses (s : State) (n : RegNum) (x : VReg) : (s.setV n x).misses = s.misses := rfl
@[simp] theorem State.setV_dies (s : State) (n : RegNum) (x : VReg) : (s.setV n x).dies = s.dies := rfl
@[simp] theorem State.setV_clusters (s : State) (n : RegNum) (x : VReg) : (s.setV n x).clusters = s.clusters := rfl
@[simp] theorem State.setV_cisterns (s : State) (n : RegNum) (x : VReg) : (s.setV n x).cisterns = s.cisterns := rfl
@[simp] theorem State.setV_contexts (s : State) (n : RegNum) (x : VReg) : (s.setV n x).contexts = s.contexts := rfl
@[simp] theorem State.setV_tasks (s : State) (n : RegNum) (x : VReg) : (s.setV n x).tasks = s.tasks := rfl
@[simp] theorem State.setV_journal (s : State) (n : RegNum) (x : VReg) : (s.setV n x).journal = s.journal := rfl
@[simp] theorem State.setV_nextSeq (s : State) (n : RegNum) (x : VReg) : (s.setV n x).nextSeq = s.nextSeq := rfl
@[simp] theorem State.setV_pattern (s : State) (n : RegNum) (x : VReg) : (s.setV n x).pattern = s.pattern := rfl
@[simp] theorem State.setV_fns (s : State) (n : RegNum) (x : VReg) : (s.setV n x).fns = s.fns := rfl
@[simp] theorem State.setV_internalLeader (s : State) (n : RegNum) (x : VReg) : (s.setV n x).internalLeader = s.internalLeader := rfl
@[simp] theorem State.setV_weirs (s : State) (n : RegNum) (x : VReg) : (s.setV n x).weirs = s.weirs := rfl
@[simp] theorem State.setV_flumes (s : State) (n : RegNum) (x : VReg) : (s.setV n x).flumes = s.flumes := rfl
@[simp] theorem State.setV_owners (s : State) (n : RegNum) (x : VReg) : (s.setV n x).owners = s.owners := rfl
@[simp] theorem State.setV_corpses (s : State) (n : RegNum) (x : VReg) : (s.setV n x).corpses = s.corpses := rfl
@[simp] theorem State.setV_freezing (s : State) (n : RegNum) (x : VReg) : (s.setV n x).freezing = s.freezing := rfl
@[simp] theorem State.setV_placedIds (s : State) (n : RegNum) (x : VReg) : (s.setV n x).placedIds = s.placedIds := rfl
@[simp] theorem State.setV_overlays (s : State) (n : RegNum) (x : VReg) : (s.setV n x).overlays = s.overlays := rfl
@[simp] theorem State.setV_fabric (s : State) (n : RegNum) (x : VReg) : (s.setV n x).fabric = s.fabric := rfl
@[simp] theorem State.setV_sec (s : State) (n : RegNum) (x : VReg) : (s.setV n x).sec = s.sec := rfl
@[simp] theorem State.setV_device (s : State) (n : RegNum) (x : VReg) : (s.setV n x).device = s.device := rfl
@[simp] theorem State.setV_feed (s : State) (n : RegNum) (x : VReg) : (s.setV n x).feed = s.feed := rfl
@[simp] theorem State.setV_reference (s : State) (n : RegNum) (x : VReg) : (s.setV n x).reference = s.reference := rfl
@[simp] theorem State.setV_absent (s : State) (n : RegNum) (x : VReg) : (s.setV n x).absent = s.absent := rfl
@[simp] theorem State.setV_hbms (s : State) (n : RegNum) (x : VReg) : (s.setV n x).hbms = s.hbms := rfl
@[simp] theorem State.setV_withheld (s : State) (n : RegNum) (x : VReg) : (s.setV n x).withheld = s.withheld := rfl
@[simp] theorem State.setV_powerCap (s : State) (n : RegNum) (x : VReg) : (s.setV n x).powerCap = s.powerCap := rfl
@[simp] theorem State.setV_hostAtomics (s : State) (n : RegNum) (x : VReg) : (s.setV n x).hostAtomics = s.hostAtomics := rfl
@[simp] theorem State.setV_flitMode (s : State) (n : RegNum) (x : VReg) : (s.setV n x).flitMode = s.flitMode := rfl
@[simp] theorem State.setV_coolantOk (s : State) (n : RegNum) (x : VReg) : (s.setV n x).coolantOk = s.coolantOk := rfl
@[simp] theorem State.setV_deviceErrors (s : State) (n : RegNum) (x : VReg) : (s.setV n x).deviceErrors = s.deviceErrors := rfl
@[simp] theorem State.setV_migrations (s : State) (n : RegNum) (x : VReg) : (s.setV n x).migrations = s.migrations := rfl
@[simp] theorem State.setV_frozen (s : State) (n : RegNum) (x : VReg) : (s.setV n x).frozen = s.frozen := rfl

@[simp] theorem State.setG_parked (s : State) (n : RegNum) (x : GReg) : (s.setG n x).parked = s.parked := by unfold State.setG; split <;> rfl
@[simp] theorem State.setG_script (s : State) (n : RegNum) (x : GReg) : (s.setG n x).script = s.script := by unfold State.setG; split <;> rfl
@[simp] theorem State.setG_pace (s : State) (n : RegNum) (x : GReg) : (s.setG n x).pace = s.pace := by unfold State.setG; split <;> rfl
@[simp] theorem State.setG_stalled (s : State) (n : RegNum) (x : GReg) : (s.setG n x).stalled = s.stalled := by unfold State.setG; split <;> rfl
@[simp] theorem State.setG_still (s : State) (n : RegNum) (x : GReg) : (s.setG n x).still = s.still := by unfold State.setG; split <;> rfl
@[simp] theorem State.setG_hold (s : State) (n : RegNum) (x : GReg) : (s.setG n x).hold = s.hold := by unfold State.setG; split <;> rfl
@[simp] theorem State.setG_free (s : State) (n : RegNum) (x : GReg) : (s.setG n x).free = s.free := by unfold State.setG; split <;> rfl
@[simp] theorem State.setG_mem (s : State) (n : RegNum) (x : GReg) : (s.setG n x).mem = s.mem := by unfold State.setG; split <;> rfl
@[simp] theorem State.setG_tags (s : State) (n : RegNum) (x : GReg) : (s.setG n x).tags = s.tags := by unfold State.setG; split <;> rfl
@[simp] theorem State.setG_colours (s : State) (n : RegNum) (x : GReg) : (s.setG n x).colours = s.colours := by unfold State.setG; split <;> rfl
@[simp] theorem State.setG_lines (s : State) (n : RegNum) (x : GReg) : (s.setG n x).lines = s.lines := by unfold State.setG; split <;> rfl
@[simp] theorem State.setG_bad (s : State) (n : RegNum) (x : GReg) : (s.setG n x).bad = s.bad := by unfold State.setG; split <;> rfl
@[simp] theorem State.setG_tlb (s : State) (n : RegNum) (x : GReg) : (s.setG n x).tlb = s.tlb := by unfold State.setG; split <;> rfl
@[simp] theorem State.setG_flights (s : State) (n : RegNum) (x : GReg) : (s.setG n x).flights = s.flights := by unfold State.setG; split <;> rfl
@[simp] theorem State.setG_posted (s : State) (n : RegNum) (x : GReg) : (s.setG n x).posted = s.posted := by unfold State.setG; split <;> rfl
@[simp] theorem State.setG_timed (s : State) (n : RegNum) (x : GReg) : (s.setG n x).timed = s.timed := by unfold State.setG; split <;> rfl
@[simp] theorem State.setG_misses (s : State) (n : RegNum) (x : GReg) : (s.setG n x).misses = s.misses := by unfold State.setG; split <;> rfl
@[simp] theorem State.setG_dies (s : State) (n : RegNum) (x : GReg) : (s.setG n x).dies = s.dies := by unfold State.setG; split <;> rfl
@[simp] theorem State.setG_clusters (s : State) (n : RegNum) (x : GReg) : (s.setG n x).clusters = s.clusters := by unfold State.setG; split <;> rfl
@[simp] theorem State.setG_cisterns (s : State) (n : RegNum) (x : GReg) : (s.setG n x).cisterns = s.cisterns := by unfold State.setG; split <;> rfl
@[simp] theorem State.setG_contexts (s : State) (n : RegNum) (x : GReg) : (s.setG n x).contexts = s.contexts := by unfold State.setG; split <;> rfl
@[simp] theorem State.setG_tasks (s : State) (n : RegNum) (x : GReg) : (s.setG n x).tasks = s.tasks := by unfold State.setG; split <;> rfl
@[simp] theorem State.setG_journal (s : State) (n : RegNum) (x : GReg) : (s.setG n x).journal = s.journal := by unfold State.setG; split <;> rfl
@[simp] theorem State.setG_nextSeq (s : State) (n : RegNum) (x : GReg) : (s.setG n x).nextSeq = s.nextSeq := by unfold State.setG; split <;> rfl
@[simp] theorem State.setG_pattern (s : State) (n : RegNum) (x : GReg) : (s.setG n x).pattern = s.pattern := by unfold State.setG; split <;> rfl
@[simp] theorem State.setG_fns (s : State) (n : RegNum) (x : GReg) : (s.setG n x).fns = s.fns := by unfold State.setG; split <;> rfl
@[simp] theorem State.setG_internalLeader (s : State) (n : RegNum) (x : GReg) : (s.setG n x).internalLeader = s.internalLeader := by unfold State.setG; split <;> rfl
@[simp] theorem State.setG_weirs (s : State) (n : RegNum) (x : GReg) : (s.setG n x).weirs = s.weirs := by unfold State.setG; split <;> rfl
@[simp] theorem State.setG_flumes (s : State) (n : RegNum) (x : GReg) : (s.setG n x).flumes = s.flumes := by unfold State.setG; split <;> rfl
@[simp] theorem State.setG_owners (s : State) (n : RegNum) (x : GReg) : (s.setG n x).owners = s.owners := by unfold State.setG; split <;> rfl
@[simp] theorem State.setG_corpses (s : State) (n : RegNum) (x : GReg) : (s.setG n x).corpses = s.corpses := by unfold State.setG; split <;> rfl
@[simp] theorem State.setG_freezing (s : State) (n : RegNum) (x : GReg) : (s.setG n x).freezing = s.freezing := by unfold State.setG; split <;> rfl
@[simp] theorem State.setG_placedIds (s : State) (n : RegNum) (x : GReg) : (s.setG n x).placedIds = s.placedIds := by unfold State.setG; split <;> rfl
@[simp] theorem State.setG_overlays (s : State) (n : RegNum) (x : GReg) : (s.setG n x).overlays = s.overlays := by unfold State.setG; split <;> rfl
@[simp] theorem State.setG_fabric (s : State) (n : RegNum) (x : GReg) : (s.setG n x).fabric = s.fabric := by unfold State.setG; split <;> rfl
@[simp] theorem State.setG_sec (s : State) (n : RegNum) (x : GReg) : (s.setG n x).sec = s.sec := by unfold State.setG; split <;> rfl
@[simp] theorem State.setG_device (s : State) (n : RegNum) (x : GReg) : (s.setG n x).device = s.device := by unfold State.setG; split <;> rfl
@[simp] theorem State.setG_feed (s : State) (n : RegNum) (x : GReg) : (s.setG n x).feed = s.feed := by unfold State.setG; split <;> rfl
@[simp] theorem State.setG_reference (s : State) (n : RegNum) (x : GReg) : (s.setG n x).reference = s.reference := by unfold State.setG; split <;> rfl
@[simp] theorem State.setG_absent (s : State) (n : RegNum) (x : GReg) : (s.setG n x).absent = s.absent := by unfold State.setG; split <;> rfl
@[simp] theorem State.setG_hbms (s : State) (n : RegNum) (x : GReg) : (s.setG n x).hbms = s.hbms := by unfold State.setG; split <;> rfl
@[simp] theorem State.setG_withheld (s : State) (n : RegNum) (x : GReg) : (s.setG n x).withheld = s.withheld := by unfold State.setG; split <;> rfl
@[simp] theorem State.setG_powerCap (s : State) (n : RegNum) (x : GReg) : (s.setG n x).powerCap = s.powerCap := by unfold State.setG; split <;> rfl
@[simp] theorem State.setG_hostAtomics (s : State) (n : RegNum) (x : GReg) : (s.setG n x).hostAtomics = s.hostAtomics := by unfold State.setG; split <;> rfl
@[simp] theorem State.setG_flitMode (s : State) (n : RegNum) (x : GReg) : (s.setG n x).flitMode = s.flitMode := by unfold State.setG; split <;> rfl
@[simp] theorem State.setG_coolantOk (s : State) (n : RegNum) (x : GReg) : (s.setG n x).coolantOk = s.coolantOk := by unfold State.setG; split <;> rfl
@[simp] theorem State.setG_deviceErrors (s : State) (n : RegNum) (x : GReg) : (s.setG n x).deviceErrors = s.deviceErrors := by unfold State.setG; split <;> rfl
@[simp] theorem State.setG_migrations (s : State) (n : RegNum) (x : GReg) : (s.setG n x).migrations = s.migrations := by unfold State.setG; split <;> rfl
@[simp] theorem State.setG_frozen (s : State) (n : RegNum) (x : GReg) : (s.setG n x).frozen = s.frozen := by unfold State.setG; split <;> rfl

@[simp] theorem State.setInt_parked (s : State) (n : RegNum) (x : Word) : (s.setInt n x).parked = s.parked := State.setG_parked s n (intReg x)
@[simp] theorem State.setInt_script (s : State) (n : RegNum) (x : Word) : (s.setInt n x).script = s.script := State.setG_script s n (intReg x)
@[simp] theorem State.setInt_pace (s : State) (n : RegNum) (x : Word) : (s.setInt n x).pace = s.pace := State.setG_pace s n (intReg x)
@[simp] theorem State.setInt_stalled (s : State) (n : RegNum) (x : Word) : (s.setInt n x).stalled = s.stalled := State.setG_stalled s n (intReg x)
@[simp] theorem State.setInt_still (s : State) (n : RegNum) (x : Word) : (s.setInt n x).still = s.still := State.setG_still s n (intReg x)
@[simp] theorem State.setInt_hold (s : State) (n : RegNum) (x : Word) : (s.setInt n x).hold = s.hold := State.setG_hold s n (intReg x)
@[simp] theorem State.setInt_free (s : State) (n : RegNum) (x : Word) : (s.setInt n x).free = s.free := State.setG_free s n (intReg x)
@[simp] theorem State.setInt_mem (s : State) (n : RegNum) (x : Word) : (s.setInt n x).mem = s.mem := State.setG_mem s n (intReg x)
@[simp] theorem State.setInt_tags (s : State) (n : RegNum) (x : Word) : (s.setInt n x).tags = s.tags := State.setG_tags s n (intReg x)
@[simp] theorem State.setInt_colours (s : State) (n : RegNum) (x : Word) : (s.setInt n x).colours = s.colours := State.setG_colours s n (intReg x)
@[simp] theorem State.setInt_lines (s : State) (n : RegNum) (x : Word) : (s.setInt n x).lines = s.lines := State.setG_lines s n (intReg x)
@[simp] theorem State.setInt_bad (s : State) (n : RegNum) (x : Word) : (s.setInt n x).bad = s.bad := State.setG_bad s n (intReg x)
@[simp] theorem State.setInt_tlb (s : State) (n : RegNum) (x : Word) : (s.setInt n x).tlb = s.tlb := State.setG_tlb s n (intReg x)
@[simp] theorem State.setInt_flights (s : State) (n : RegNum) (x : Word) : (s.setInt n x).flights = s.flights := State.setG_flights s n (intReg x)
@[simp] theorem State.setInt_posted (s : State) (n : RegNum) (x : Word) : (s.setInt n x).posted = s.posted := State.setG_posted s n (intReg x)
@[simp] theorem State.setInt_timed (s : State) (n : RegNum) (x : Word) : (s.setInt n x).timed = s.timed := State.setG_timed s n (intReg x)
@[simp] theorem State.setInt_misses (s : State) (n : RegNum) (x : Word) : (s.setInt n x).misses = s.misses := State.setG_misses s n (intReg x)
@[simp] theorem State.setInt_dies (s : State) (n : RegNum) (x : Word) : (s.setInt n x).dies = s.dies := State.setG_dies s n (intReg x)
@[simp] theorem State.setInt_clusters (s : State) (n : RegNum) (x : Word) : (s.setInt n x).clusters = s.clusters := State.setG_clusters s n (intReg x)
@[simp] theorem State.setInt_cisterns (s : State) (n : RegNum) (x : Word) : (s.setInt n x).cisterns = s.cisterns := State.setG_cisterns s n (intReg x)
@[simp] theorem State.setInt_contexts (s : State) (n : RegNum) (x : Word) : (s.setInt n x).contexts = s.contexts := State.setG_contexts s n (intReg x)
@[simp] theorem State.setInt_tasks (s : State) (n : RegNum) (x : Word) : (s.setInt n x).tasks = s.tasks := State.setG_tasks s n (intReg x)
@[simp] theorem State.setInt_journal (s : State) (n : RegNum) (x : Word) : (s.setInt n x).journal = s.journal := State.setG_journal s n (intReg x)
@[simp] theorem State.setInt_nextSeq (s : State) (n : RegNum) (x : Word) : (s.setInt n x).nextSeq = s.nextSeq := State.setG_nextSeq s n (intReg x)
@[simp] theorem State.setInt_pattern (s : State) (n : RegNum) (x : Word) : (s.setInt n x).pattern = s.pattern := State.setG_pattern s n (intReg x)
@[simp] theorem State.setInt_fns (s : State) (n : RegNum) (x : Word) : (s.setInt n x).fns = s.fns := State.setG_fns s n (intReg x)
@[simp] theorem State.setInt_internalLeader (s : State) (n : RegNum) (x : Word) : (s.setInt n x).internalLeader = s.internalLeader := State.setG_internalLeader s n (intReg x)
@[simp] theorem State.setInt_weirs (s : State) (n : RegNum) (x : Word) : (s.setInt n x).weirs = s.weirs := State.setG_weirs s n (intReg x)
@[simp] theorem State.setInt_flumes (s : State) (n : RegNum) (x : Word) : (s.setInt n x).flumes = s.flumes := State.setG_flumes s n (intReg x)
@[simp] theorem State.setInt_owners (s : State) (n : RegNum) (x : Word) : (s.setInt n x).owners = s.owners := State.setG_owners s n (intReg x)
@[simp] theorem State.setInt_corpses (s : State) (n : RegNum) (x : Word) : (s.setInt n x).corpses = s.corpses := State.setG_corpses s n (intReg x)
@[simp] theorem State.setInt_freezing (s : State) (n : RegNum) (x : Word) : (s.setInt n x).freezing = s.freezing := State.setG_freezing s n (intReg x)
@[simp] theorem State.setInt_placedIds (s : State) (n : RegNum) (x : Word) : (s.setInt n x).placedIds = s.placedIds := State.setG_placedIds s n (intReg x)
@[simp] theorem State.setInt_overlays (s : State) (n : RegNum) (x : Word) : (s.setInt n x).overlays = s.overlays := State.setG_overlays s n (intReg x)
@[simp] theorem State.setInt_fabric (s : State) (n : RegNum) (x : Word) : (s.setInt n x).fabric = s.fabric := State.setG_fabric s n (intReg x)
@[simp] theorem State.setInt_sec (s : State) (n : RegNum) (x : Word) : (s.setInt n x).sec = s.sec := State.setG_sec s n (intReg x)
@[simp] theorem State.setInt_device (s : State) (n : RegNum) (x : Word) : (s.setInt n x).device = s.device := State.setG_device s n (intReg x)
@[simp] theorem State.setInt_feed (s : State) (n : RegNum) (x : Word) : (s.setInt n x).feed = s.feed := State.setG_feed s n (intReg x)
@[simp] theorem State.setInt_reference (s : State) (n : RegNum) (x : Word) : (s.setInt n x).reference = s.reference := State.setG_reference s n (intReg x)
@[simp] theorem State.setInt_absent (s : State) (n : RegNum) (x : Word) : (s.setInt n x).absent = s.absent := State.setG_absent s n (intReg x)
@[simp] theorem State.setInt_hbms (s : State) (n : RegNum) (x : Word) : (s.setInt n x).hbms = s.hbms := State.setG_hbms s n (intReg x)
@[simp] theorem State.setInt_withheld (s : State) (n : RegNum) (x : Word) : (s.setInt n x).withheld = s.withheld := State.setG_withheld s n (intReg x)
@[simp] theorem State.setInt_powerCap (s : State) (n : RegNum) (x : Word) : (s.setInt n x).powerCap = s.powerCap := State.setG_powerCap s n (intReg x)
@[simp] theorem State.setInt_hostAtomics (s : State) (n : RegNum) (x : Word) : (s.setInt n x).hostAtomics = s.hostAtomics := State.setG_hostAtomics s n (intReg x)
@[simp] theorem State.setInt_flitMode (s : State) (n : RegNum) (x : Word) : (s.setInt n x).flitMode = s.flitMode := State.setG_flitMode s n (intReg x)
@[simp] theorem State.setInt_coolantOk (s : State) (n : RegNum) (x : Word) : (s.setInt n x).coolantOk = s.coolantOk := State.setG_coolantOk s n (intReg x)
@[simp] theorem State.setInt_deviceErrors (s : State) (n : RegNum) (x : Word) : (s.setInt n x).deviceErrors = s.deviceErrors := State.setG_deviceErrors s n (intReg x)
@[simp] theorem State.setInt_migrations (s : State) (n : RegNum) (x : Word) : (s.setInt n x).migrations = s.migrations := State.setG_migrations s n (intReg x)
@[simp] theorem State.setInt_frozen (s : State) (n : RegNum) (x : Word) : (s.setInt n x).frozen = s.frozen := State.setG_frozen s n (intReg x)

@[simp] theorem State.setP_parked (s : State) (n : PredNum) (x : PReg) : (s.setP n x).parked = s.parked := by unfold State.setP; split <;> rfl
@[simp] theorem State.setP_script (s : State) (n : PredNum) (x : PReg) : (s.setP n x).script = s.script := by unfold State.setP; split <;> rfl
@[simp] theorem State.setP_pace (s : State) (n : PredNum) (x : PReg) : (s.setP n x).pace = s.pace := by unfold State.setP; split <;> rfl
@[simp] theorem State.setP_stalled (s : State) (n : PredNum) (x : PReg) : (s.setP n x).stalled = s.stalled := by unfold State.setP; split <;> rfl
@[simp] theorem State.setP_still (s : State) (n : PredNum) (x : PReg) : (s.setP n x).still = s.still := by unfold State.setP; split <;> rfl
@[simp] theorem State.setP_hold (s : State) (n : PredNum) (x : PReg) : (s.setP n x).hold = s.hold := by unfold State.setP; split <;> rfl
@[simp] theorem State.setP_free (s : State) (n : PredNum) (x : PReg) : (s.setP n x).free = s.free := by unfold State.setP; split <;> rfl
@[simp] theorem State.setP_mem (s : State) (n : PredNum) (x : PReg) : (s.setP n x).mem = s.mem := by unfold State.setP; split <;> rfl
@[simp] theorem State.setP_tags (s : State) (n : PredNum) (x : PReg) : (s.setP n x).tags = s.tags := by unfold State.setP; split <;> rfl
@[simp] theorem State.setP_colours (s : State) (n : PredNum) (x : PReg) : (s.setP n x).colours = s.colours := by unfold State.setP; split <;> rfl
@[simp] theorem State.setP_lines (s : State) (n : PredNum) (x : PReg) : (s.setP n x).lines = s.lines := by unfold State.setP; split <;> rfl
@[simp] theorem State.setP_bad (s : State) (n : PredNum) (x : PReg) : (s.setP n x).bad = s.bad := by unfold State.setP; split <;> rfl
@[simp] theorem State.setP_tlb (s : State) (n : PredNum) (x : PReg) : (s.setP n x).tlb = s.tlb := by unfold State.setP; split <;> rfl
@[simp] theorem State.setP_flights (s : State) (n : PredNum) (x : PReg) : (s.setP n x).flights = s.flights := by unfold State.setP; split <;> rfl
@[simp] theorem State.setP_posted (s : State) (n : PredNum) (x : PReg) : (s.setP n x).posted = s.posted := by unfold State.setP; split <;> rfl
@[simp] theorem State.setP_timed (s : State) (n : PredNum) (x : PReg) : (s.setP n x).timed = s.timed := by unfold State.setP; split <;> rfl
@[simp] theorem State.setP_misses (s : State) (n : PredNum) (x : PReg) : (s.setP n x).misses = s.misses := by unfold State.setP; split <;> rfl
@[simp] theorem State.setP_dies (s : State) (n : PredNum) (x : PReg) : (s.setP n x).dies = s.dies := by unfold State.setP; split <;> rfl
@[simp] theorem State.setP_clusters (s : State) (n : PredNum) (x : PReg) : (s.setP n x).clusters = s.clusters := by unfold State.setP; split <;> rfl
@[simp] theorem State.setP_cisterns (s : State) (n : PredNum) (x : PReg) : (s.setP n x).cisterns = s.cisterns := by unfold State.setP; split <;> rfl
@[simp] theorem State.setP_contexts (s : State) (n : PredNum) (x : PReg) : (s.setP n x).contexts = s.contexts := by unfold State.setP; split <;> rfl
@[simp] theorem State.setP_tasks (s : State) (n : PredNum) (x : PReg) : (s.setP n x).tasks = s.tasks := by unfold State.setP; split <;> rfl
@[simp] theorem State.setP_journal (s : State) (n : PredNum) (x : PReg) : (s.setP n x).journal = s.journal := by unfold State.setP; split <;> rfl
@[simp] theorem State.setP_nextSeq (s : State) (n : PredNum) (x : PReg) : (s.setP n x).nextSeq = s.nextSeq := by unfold State.setP; split <;> rfl
@[simp] theorem State.setP_pattern (s : State) (n : PredNum) (x : PReg) : (s.setP n x).pattern = s.pattern := by unfold State.setP; split <;> rfl
@[simp] theorem State.setP_fns (s : State) (n : PredNum) (x : PReg) : (s.setP n x).fns = s.fns := by unfold State.setP; split <;> rfl
@[simp] theorem State.setP_internalLeader (s : State) (n : PredNum) (x : PReg) : (s.setP n x).internalLeader = s.internalLeader := by unfold State.setP; split <;> rfl
@[simp] theorem State.setP_weirs (s : State) (n : PredNum) (x : PReg) : (s.setP n x).weirs = s.weirs := by unfold State.setP; split <;> rfl
@[simp] theorem State.setP_flumes (s : State) (n : PredNum) (x : PReg) : (s.setP n x).flumes = s.flumes := by unfold State.setP; split <;> rfl
@[simp] theorem State.setP_owners (s : State) (n : PredNum) (x : PReg) : (s.setP n x).owners = s.owners := by unfold State.setP; split <;> rfl
@[simp] theorem State.setP_corpses (s : State) (n : PredNum) (x : PReg) : (s.setP n x).corpses = s.corpses := by unfold State.setP; split <;> rfl
@[simp] theorem State.setP_freezing (s : State) (n : PredNum) (x : PReg) : (s.setP n x).freezing = s.freezing := by unfold State.setP; split <;> rfl
@[simp] theorem State.setP_placedIds (s : State) (n : PredNum) (x : PReg) : (s.setP n x).placedIds = s.placedIds := by unfold State.setP; split <;> rfl
@[simp] theorem State.setP_overlays (s : State) (n : PredNum) (x : PReg) : (s.setP n x).overlays = s.overlays := by unfold State.setP; split <;> rfl
@[simp] theorem State.setP_fabric (s : State) (n : PredNum) (x : PReg) : (s.setP n x).fabric = s.fabric := by unfold State.setP; split <;> rfl
@[simp] theorem State.setP_sec (s : State) (n : PredNum) (x : PReg) : (s.setP n x).sec = s.sec := by unfold State.setP; split <;> rfl
@[simp] theorem State.setP_device (s : State) (n : PredNum) (x : PReg) : (s.setP n x).device = s.device := by unfold State.setP; split <;> rfl
@[simp] theorem State.setP_feed (s : State) (n : PredNum) (x : PReg) : (s.setP n x).feed = s.feed := by unfold State.setP; split <;> rfl
@[simp] theorem State.setP_reference (s : State) (n : PredNum) (x : PReg) : (s.setP n x).reference = s.reference := by unfold State.setP; split <;> rfl
@[simp] theorem State.setP_absent (s : State) (n : PredNum) (x : PReg) : (s.setP n x).absent = s.absent := by unfold State.setP; split <;> rfl
@[simp] theorem State.setP_hbms (s : State) (n : PredNum) (x : PReg) : (s.setP n x).hbms = s.hbms := by unfold State.setP; split <;> rfl
@[simp] theorem State.setP_withheld (s : State) (n : PredNum) (x : PReg) : (s.setP n x).withheld = s.withheld := by unfold State.setP; split <;> rfl
@[simp] theorem State.setP_powerCap (s : State) (n : PredNum) (x : PReg) : (s.setP n x).powerCap = s.powerCap := by unfold State.setP; split <;> rfl
@[simp] theorem State.setP_hostAtomics (s : State) (n : PredNum) (x : PReg) : (s.setP n x).hostAtomics = s.hostAtomics := by unfold State.setP; split <;> rfl
@[simp] theorem State.setP_flitMode (s : State) (n : PredNum) (x : PReg) : (s.setP n x).flitMode = s.flitMode := by unfold State.setP; split <;> rfl
@[simp] theorem State.setP_coolantOk (s : State) (n : PredNum) (x : PReg) : (s.setP n x).coolantOk = s.coolantOk := by unfold State.setP; split <;> rfl
@[simp] theorem State.setP_deviceErrors (s : State) (n : PredNum) (x : PReg) : (s.setP n x).deviceErrors = s.deviceErrors := by unfold State.setP; split <;> rfl
@[simp] theorem State.setP_migrations (s : State) (n : PredNum) (x : PReg) : (s.setP n x).migrations = s.migrations := by unfold State.setP; split <;> rfl
@[simp] theorem State.setP_frozen (s : State) (n : PredNum) (x : PReg) : (s.setP n x).frozen = s.frozen := by unfold State.setP; split <;> rfl

@[simp] theorem State.setAgent_script (s : State) (c : Core) : (s.setAgent c).script = s.script := by unfold State.setAgent; split <;> rfl
@[simp] theorem State.setAgent_pace (s : State) (c : Core) : (s.setAgent c).pace = s.pace := by unfold State.setAgent; split <;> rfl
@[simp] theorem State.setAgent_stalled (s : State) (c : Core) : (s.setAgent c).stalled = s.stalled := by unfold State.setAgent; split <;> rfl
@[simp] theorem State.setAgent_still (s : State) (c : Core) : (s.setAgent c).still = s.still := by unfold State.setAgent; split <;> rfl
@[simp] theorem State.setAgent_hold (s : State) (c : Core) : (s.setAgent c).hold = s.hold := by unfold State.setAgent; split <;> rfl
@[simp] theorem State.setAgent_free (s : State) (c : Core) : (s.setAgent c).free = s.free := by unfold State.setAgent; split <;> rfl
@[simp] theorem State.setAgent_mem (s : State) (c : Core) : (s.setAgent c).mem = s.mem := by unfold State.setAgent; split <;> rfl
@[simp] theorem State.setAgent_tags (s : State) (c : Core) : (s.setAgent c).tags = s.tags := by unfold State.setAgent; split <;> rfl
@[simp] theorem State.setAgent_colours (s : State) (c : Core) : (s.setAgent c).colours = s.colours := by unfold State.setAgent; split <;> rfl
@[simp] theorem State.setAgent_lines (s : State) (c : Core) : (s.setAgent c).lines = s.lines := by unfold State.setAgent; split <;> rfl
@[simp] theorem State.setAgent_bad (s : State) (c : Core) : (s.setAgent c).bad = s.bad := by unfold State.setAgent; split <;> rfl
@[simp] theorem State.setAgent_tlb (s : State) (c : Core) : (s.setAgent c).tlb = s.tlb := by unfold State.setAgent; split <;> rfl
@[simp] theorem State.setAgent_flights (s : State) (c : Core) : (s.setAgent c).flights = s.flights := by unfold State.setAgent; split <;> rfl
@[simp] theorem State.setAgent_posted (s : State) (c : Core) : (s.setAgent c).posted = s.posted := by unfold State.setAgent; split <;> rfl
@[simp] theorem State.setAgent_timed (s : State) (c : Core) : (s.setAgent c).timed = s.timed := by unfold State.setAgent; split <;> rfl
@[simp] theorem State.setAgent_misses (s : State) (c : Core) : (s.setAgent c).misses = s.misses := by unfold State.setAgent; split <;> rfl
@[simp] theorem State.setAgent_dies (s : State) (c : Core) : (s.setAgent c).dies = s.dies := by unfold State.setAgent; split <;> rfl
@[simp] theorem State.setAgent_clusters (s : State) (c : Core) : (s.setAgent c).clusters = s.clusters := by unfold State.setAgent; split <;> rfl
@[simp] theorem State.setAgent_cisterns (s : State) (c : Core) : (s.setAgent c).cisterns = s.cisterns := by unfold State.setAgent; split <;> rfl
@[simp] theorem State.setAgent_contexts (s : State) (c : Core) : (s.setAgent c).contexts = s.contexts := by unfold State.setAgent; split <;> rfl
@[simp] theorem State.setAgent_tasks (s : State) (c : Core) : (s.setAgent c).tasks = s.tasks := by unfold State.setAgent; split <;> rfl
@[simp] theorem State.setAgent_journal (s : State) (c : Core) : (s.setAgent c).journal = s.journal := by unfold State.setAgent; split <;> rfl
@[simp] theorem State.setAgent_nextSeq (s : State) (c : Core) : (s.setAgent c).nextSeq = s.nextSeq := by unfold State.setAgent; split <;> rfl
@[simp] theorem State.setAgent_pattern (s : State) (c : Core) : (s.setAgent c).pattern = s.pattern := by unfold State.setAgent; split <;> rfl
@[simp] theorem State.setAgent_fns (s : State) (c : Core) : (s.setAgent c).fns = s.fns := by unfold State.setAgent; split <;> rfl
@[simp] theorem State.setAgent_internalLeader (s : State) (c : Core) : (s.setAgent c).internalLeader = s.internalLeader := by unfold State.setAgent; split <;> rfl
@[simp] theorem State.setAgent_weirs (s : State) (c : Core) : (s.setAgent c).weirs = s.weirs := by unfold State.setAgent; split <;> rfl
@[simp] theorem State.setAgent_flumes (s : State) (c : Core) : (s.setAgent c).flumes = s.flumes := by unfold State.setAgent; split <;> rfl
@[simp] theorem State.setAgent_owners (s : State) (c : Core) : (s.setAgent c).owners = s.owners := by unfold State.setAgent; split <;> rfl
@[simp] theorem State.setAgent_corpses (s : State) (c : Core) : (s.setAgent c).corpses = s.corpses := by unfold State.setAgent; split <;> rfl
@[simp] theorem State.setAgent_freezing (s : State) (c : Core) : (s.setAgent c).freezing = s.freezing := by unfold State.setAgent; split <;> rfl
@[simp] theorem State.setAgent_placedIds (s : State) (c : Core) : (s.setAgent c).placedIds = s.placedIds := by unfold State.setAgent; split <;> rfl
@[simp] theorem State.setAgent_overlays (s : State) (c : Core) : (s.setAgent c).overlays = s.overlays := by unfold State.setAgent; split <;> rfl
@[simp] theorem State.setAgent_fabric (s : State) (c : Core) : (s.setAgent c).fabric = s.fabric := by unfold State.setAgent; split <;> rfl
@[simp] theorem State.setAgent_sec (s : State) (c : Core) : (s.setAgent c).sec = s.sec := by unfold State.setAgent; split <;> rfl
@[simp] theorem State.setAgent_device (s : State) (c : Core) : (s.setAgent c).device = s.device := by unfold State.setAgent; split <;> rfl
@[simp] theorem State.setAgent_feed (s : State) (c : Core) : (s.setAgent c).feed = s.feed := by unfold State.setAgent; split <;> rfl
@[simp] theorem State.setAgent_reference (s : State) (c : Core) : (s.setAgent c).reference = s.reference := by unfold State.setAgent; split <;> rfl
@[simp] theorem State.setAgent_absent (s : State) (c : Core) : (s.setAgent c).absent = s.absent := by unfold State.setAgent; split <;> rfl
@[simp] theorem State.setAgent_hbms (s : State) (c : Core) : (s.setAgent c).hbms = s.hbms := by unfold State.setAgent; split <;> rfl
@[simp] theorem State.setAgent_withheld (s : State) (c : Core) : (s.setAgent c).withheld = s.withheld := by unfold State.setAgent; split <;> rfl
@[simp] theorem State.setAgent_powerCap (s : State) (c : Core) : (s.setAgent c).powerCap = s.powerCap := by unfold State.setAgent; split <;> rfl
@[simp] theorem State.setAgent_hostAtomics (s : State) (c : Core) : (s.setAgent c).hostAtomics = s.hostAtomics := by unfold State.setAgent; split <;> rfl
@[simp] theorem State.setAgent_flitMode (s : State) (c : Core) : (s.setAgent c).flitMode = s.flitMode := by unfold State.setAgent; split <;> rfl
@[simp] theorem State.setAgent_coolantOk (s : State) (c : Core) : (s.setAgent c).coolantOk = s.coolantOk := by unfold State.setAgent; split <;> rfl
@[simp] theorem State.setAgent_deviceErrors (s : State) (c : Core) : (s.setAgent c).deviceErrors = s.deviceErrors := by unfold State.setAgent; split <;> rfl
@[simp] theorem State.setAgent_migrations (s : State) (c : Core) : (s.setAgent c).migrations = s.migrations := by unfold State.setAgent; split <;> rfl
@[simp] theorem State.setAgent_frozen (s : State) (c : Core) : (s.setAgent c).frozen = s.frozen := by unfold State.setAgent; split <;> rfl

@[simp] theorem State.setShot_core (s : State) (x : Snapshot) : (s.setShot x).core = s.core := rfl
@[simp] theorem State.setShot_parked (s : State) (x : Snapshot) : (s.setShot x).parked = s.parked := rfl
@[simp] theorem State.setShot_script (s : State) (x : Snapshot) : (s.setShot x).script = s.script := rfl
@[simp] theorem State.setShot_pace (s : State) (x : Snapshot) : (s.setShot x).pace = s.pace := rfl
@[simp] theorem State.setShot_stalled (s : State) (x : Snapshot) : (s.setShot x).stalled = s.stalled := rfl
@[simp] theorem State.setShot_still (s : State) (x : Snapshot) : (s.setShot x).still = s.still := rfl
@[simp] theorem State.setShot_hold (s : State) (x : Snapshot) : (s.setShot x).hold = s.hold := rfl
@[simp] theorem State.setShot_free (s : State) (x : Snapshot) : (s.setShot x).free = s.free := rfl
@[simp] theorem State.setShot_mem (s : State) (x : Snapshot) : (s.setShot x).mem = x.mem := rfl
@[simp] theorem State.setShot_tags (s : State) (x : Snapshot) : (s.setShot x).tags = x.tags := rfl
@[simp] theorem State.setShot_colours (s : State) (x : Snapshot) : (s.setShot x).colours = x.colours := rfl
@[simp] theorem State.setShot_lines (s : State) (x : Snapshot) : (s.setShot x).lines = s.lines := rfl
@[simp] theorem State.setShot_bad (s : State) (x : Snapshot) : (s.setShot x).bad = s.bad := rfl
@[simp] theorem State.setShot_tlb (s : State) (x : Snapshot) : (s.setShot x).tlb = s.tlb := rfl
@[simp] theorem State.setShot_flights (s : State) (x : Snapshot) : (s.setShot x).flights = s.flights := rfl
@[simp] theorem State.setShot_posted (s : State) (x : Snapshot) : (s.setShot x).posted = s.posted := rfl
@[simp] theorem State.setShot_timed (s : State) (x : Snapshot) : (s.setShot x).timed = s.timed := rfl
@[simp] theorem State.setShot_misses (s : State) (x : Snapshot) : (s.setShot x).misses = s.misses := rfl
@[simp] theorem State.setShot_dies (s : State) (x : Snapshot) : (s.setShot x).dies = s.dies := rfl
@[simp] theorem State.setShot_clusters (s : State) (x : Snapshot) : (s.setShot x).clusters = s.clusters := rfl
@[simp] theorem State.setShot_cisterns (s : State) (x : Snapshot) : (s.setShot x).cisterns = s.cisterns := rfl
@[simp] theorem State.setShot_contexts (s : State) (x : Snapshot) : (s.setShot x).contexts = s.contexts := rfl
@[simp] theorem State.setShot_tasks (s : State) (x : Snapshot) : (s.setShot x).tasks = s.tasks := rfl
@[simp] theorem State.setShot_journal (s : State) (x : Snapshot) : (s.setShot x).journal = s.journal := rfl
@[simp] theorem State.setShot_nextSeq (s : State) (x : Snapshot) : (s.setShot x).nextSeq = s.nextSeq := rfl
@[simp] theorem State.setShot_pattern (s : State) (x : Snapshot) : (s.setShot x).pattern = s.pattern := rfl
@[simp] theorem State.setShot_fns (s : State) (x : Snapshot) : (s.setShot x).fns = s.fns := rfl
@[simp] theorem State.setShot_internalLeader (s : State) (x : Snapshot) : (s.setShot x).internalLeader = s.internalLeader := rfl
@[simp] theorem State.setShot_weirs (s : State) (x : Snapshot) : (s.setShot x).weirs = s.weirs := rfl
@[simp] theorem State.setShot_flumes (s : State) (x : Snapshot) : (s.setShot x).flumes = s.flumes := rfl
@[simp] theorem State.setShot_owners (s : State) (x : Snapshot) : (s.setShot x).owners = s.owners := rfl
@[simp] theorem State.setShot_corpses (s : State) (x : Snapshot) : (s.setShot x).corpses = s.corpses := rfl
@[simp] theorem State.setShot_freezing (s : State) (x : Snapshot) : (s.setShot x).freezing = s.freezing := rfl
@[simp] theorem State.setShot_placedIds (s : State) (x : Snapshot) : (s.setShot x).placedIds = s.placedIds := rfl
@[simp] theorem State.setShot_overlays (s : State) (x : Snapshot) : (s.setShot x).overlays = s.overlays := rfl
@[simp] theorem State.setShot_fabric (s : State) (x : Snapshot) : (s.setShot x).fabric = s.fabric := rfl
@[simp] theorem State.setShot_sec (s : State) (x : Snapshot) : (s.setShot x).sec = s.sec := rfl
@[simp] theorem State.setShot_device (s : State) (x : Snapshot) : (s.setShot x).device = s.device := rfl
@[simp] theorem State.setShot_feed (s : State) (x : Snapshot) : (s.setShot x).feed = s.feed := rfl
@[simp] theorem State.setShot_reference (s : State) (x : Snapshot) : (s.setShot x).reference = s.reference := rfl
@[simp] theorem State.setShot_absent (s : State) (x : Snapshot) : (s.setShot x).absent = s.absent := rfl
@[simp] theorem State.setShot_hbms (s : State) (x : Snapshot) : (s.setShot x).hbms = s.hbms := rfl
@[simp] theorem State.setShot_withheld (s : State) (x : Snapshot) : (s.setShot x).withheld = s.withheld := rfl
@[simp] theorem State.setShot_powerCap (s : State) (x : Snapshot) : (s.setShot x).powerCap = s.powerCap := rfl
@[simp] theorem State.setShot_hostAtomics (s : State) (x : Snapshot) : (s.setShot x).hostAtomics = s.hostAtomics := rfl
@[simp] theorem State.setShot_flitMode (s : State) (x : Snapshot) : (s.setShot x).flitMode = s.flitMode := rfl
@[simp] theorem State.setShot_coolantOk (s : State) (x : Snapshot) : (s.setShot x).coolantOk = s.coolantOk := rfl
@[simp] theorem State.setShot_deviceErrors (s : State) (x : Snapshot) : (s.setShot x).deviceErrors = s.deviceErrors := rfl
@[simp] theorem State.setShot_migrations (s : State) (x : Snapshot) : (s.setShot x).migrations = s.migrations := rfl
@[simp] theorem State.setShot_frozen (s : State) (x : Snapshot) : (s.setShot x).frozen = s.frozen := rfl

@[simp] theorem State.setCtx_core (s : State) (c : Ctx) : (s.setCtx c).core = s.core := rfl
@[simp] theorem State.setCtx_parked (s : State) (c : Ctx) : (s.setCtx c).parked = s.parked := rfl
@[simp] theorem State.setCtx_script (s : State) (c : Ctx) : (s.setCtx c).script = s.script := rfl
@[simp] theorem State.setCtx_pace (s : State) (c : Ctx) : (s.setCtx c).pace = s.pace := rfl
@[simp] theorem State.setCtx_stalled (s : State) (c : Ctx) : (s.setCtx c).stalled = s.stalled := rfl
@[simp] theorem State.setCtx_still (s : State) (c : Ctx) : (s.setCtx c).still = s.still := rfl
@[simp] theorem State.setCtx_hold (s : State) (c : Ctx) : (s.setCtx c).hold = s.hold := rfl
@[simp] theorem State.setCtx_free (s : State) (c : Ctx) : (s.setCtx c).free = s.free := rfl
@[simp] theorem State.setCtx_mem (s : State) (c : Ctx) : (s.setCtx c).mem = s.mem := rfl
@[simp] theorem State.setCtx_tags (s : State) (c : Ctx) : (s.setCtx c).tags = s.tags := rfl
@[simp] theorem State.setCtx_colours (s : State) (c : Ctx) : (s.setCtx c).colours = s.colours := rfl
@[simp] theorem State.setCtx_lines (s : State) (c : Ctx) : (s.setCtx c).lines = s.lines := rfl
@[simp] theorem State.setCtx_bad (s : State) (c : Ctx) : (s.setCtx c).bad = s.bad := rfl
@[simp] theorem State.setCtx_tlb (s : State) (c : Ctx) : (s.setCtx c).tlb = s.tlb := rfl
@[simp] theorem State.setCtx_flights (s : State) (c : Ctx) : (s.setCtx c).flights = s.flights := rfl
@[simp] theorem State.setCtx_posted (s : State) (c : Ctx) : (s.setCtx c).posted = s.posted := rfl
@[simp] theorem State.setCtx_timed (s : State) (c : Ctx) : (s.setCtx c).timed = s.timed := rfl
@[simp] theorem State.setCtx_misses (s : State) (c : Ctx) : (s.setCtx c).misses = s.misses := rfl
@[simp] theorem State.setCtx_dies (s : State) (c : Ctx) : (s.setCtx c).dies = s.dies := rfl
@[simp] theorem State.setCtx_clusters (s : State) (c : Ctx) : (s.setCtx c).clusters = s.clusters := rfl
@[simp] theorem State.setCtx_cisterns (s : State) (c : Ctx) : (s.setCtx c).cisterns = s.cisterns := rfl
@[simp] theorem State.setCtx_contexts (s : State) (c : Ctx) : (s.setCtx c).contexts = assocPut s.contexts c.num.toNat c := rfl
@[simp] theorem State.setCtx_tasks (s : State) (c : Ctx) : (s.setCtx c).tasks = s.tasks := rfl
@[simp] theorem State.setCtx_journal (s : State) (c : Ctx) : (s.setCtx c).journal = s.journal := rfl
@[simp] theorem State.setCtx_nextSeq (s : State) (c : Ctx) : (s.setCtx c).nextSeq = s.nextSeq := rfl
@[simp] theorem State.setCtx_pattern (s : State) (c : Ctx) : (s.setCtx c).pattern = s.pattern := rfl
@[simp] theorem State.setCtx_fns (s : State) (c : Ctx) : (s.setCtx c).fns = s.fns := rfl
@[simp] theorem State.setCtx_internalLeader (s : State) (c : Ctx) : (s.setCtx c).internalLeader = s.internalLeader := rfl
@[simp] theorem State.setCtx_weirs (s : State) (c : Ctx) : (s.setCtx c).weirs = s.weirs := rfl
@[simp] theorem State.setCtx_flumes (s : State) (c : Ctx) : (s.setCtx c).flumes = s.flumes := rfl
@[simp] theorem State.setCtx_owners (s : State) (c : Ctx) : (s.setCtx c).owners = s.owners := rfl
@[simp] theorem State.setCtx_corpses (s : State) (c : Ctx) : (s.setCtx c).corpses = s.corpses := rfl
@[simp] theorem State.setCtx_freezing (s : State) (c : Ctx) : (s.setCtx c).freezing = s.freezing := rfl
@[simp] theorem State.setCtx_placedIds (s : State) (c : Ctx) : (s.setCtx c).placedIds = s.placedIds := rfl
@[simp] theorem State.setCtx_overlays (s : State) (c : Ctx) : (s.setCtx c).overlays = s.overlays := rfl
@[simp] theorem State.setCtx_fabric (s : State) (c : Ctx) : (s.setCtx c).fabric = s.fabric := rfl
@[simp] theorem State.setCtx_sec (s : State) (c : Ctx) : (s.setCtx c).sec = s.sec := rfl
@[simp] theorem State.setCtx_device (s : State) (c : Ctx) : (s.setCtx c).device = s.device := rfl
@[simp] theorem State.setCtx_feed (s : State) (c : Ctx) : (s.setCtx c).feed = s.feed := rfl
@[simp] theorem State.setCtx_reference (s : State) (c : Ctx) : (s.setCtx c).reference = s.reference := rfl
@[simp] theorem State.setCtx_absent (s : State) (c : Ctx) : (s.setCtx c).absent = s.absent := rfl
@[simp] theorem State.setCtx_hbms (s : State) (c : Ctx) : (s.setCtx c).hbms = s.hbms := rfl
@[simp] theorem State.setCtx_withheld (s : State) (c : Ctx) : (s.setCtx c).withheld = s.withheld := rfl
@[simp] theorem State.setCtx_powerCap (s : State) (c : Ctx) : (s.setCtx c).powerCap = s.powerCap := rfl
@[simp] theorem State.setCtx_hostAtomics (s : State) (c : Ctx) : (s.setCtx c).hostAtomics = s.hostAtomics := rfl
@[simp] theorem State.setCtx_flitMode (s : State) (c : Ctx) : (s.setCtx c).flitMode = s.flitMode := rfl
@[simp] theorem State.setCtx_coolantOk (s : State) (c : Ctx) : (s.setCtx c).coolantOk = s.coolantOk := rfl
@[simp] theorem State.setCtx_deviceErrors (s : State) (c : Ctx) : (s.setCtx c).deviceErrors = s.deviceErrors := rfl
@[simp] theorem State.setCtx_migrations (s : State) (c : Ctx) : (s.setCtx c).migrations = s.migrations := rfl
@[simp] theorem State.setCtx_frozen (s : State) (c : Ctx) : (s.setCtx c).frozen = s.frozen := rfl

@[simp] theorem State.setFn_core (s : State) (f : Nat) (x : Fn) : (s.setFn f x).core = s.core := rfl
@[simp] theorem State.setFn_parked (s : State) (f : Nat) (x : Fn) : (s.setFn f x).parked = s.parked := rfl
@[simp] theorem State.setFn_script (s : State) (f : Nat) (x : Fn) : (s.setFn f x).script = s.script := rfl
@[simp] theorem State.setFn_pace (s : State) (f : Nat) (x : Fn) : (s.setFn f x).pace = s.pace := rfl
@[simp] theorem State.setFn_stalled (s : State) (f : Nat) (x : Fn) : (s.setFn f x).stalled = s.stalled := rfl
@[simp] theorem State.setFn_still (s : State) (f : Nat) (x : Fn) : (s.setFn f x).still = s.still := rfl
@[simp] theorem State.setFn_hold (s : State) (f : Nat) (x : Fn) : (s.setFn f x).hold = s.hold := rfl
@[simp] theorem State.setFn_free (s : State) (f : Nat) (x : Fn) : (s.setFn f x).free = s.free := rfl
@[simp] theorem State.setFn_mem (s : State) (f : Nat) (x : Fn) : (s.setFn f x).mem = s.mem := rfl
@[simp] theorem State.setFn_tags (s : State) (f : Nat) (x : Fn) : (s.setFn f x).tags = s.tags := rfl
@[simp] theorem State.setFn_colours (s : State) (f : Nat) (x : Fn) : (s.setFn f x).colours = s.colours := rfl
@[simp] theorem State.setFn_lines (s : State) (f : Nat) (x : Fn) : (s.setFn f x).lines = s.lines := rfl
@[simp] theorem State.setFn_bad (s : State) (f : Nat) (x : Fn) : (s.setFn f x).bad = s.bad := rfl
@[simp] theorem State.setFn_tlb (s : State) (f : Nat) (x : Fn) : (s.setFn f x).tlb = s.tlb := rfl
@[simp] theorem State.setFn_flights (s : State) (f : Nat) (x : Fn) : (s.setFn f x).flights = s.flights := rfl
@[simp] theorem State.setFn_posted (s : State) (f : Nat) (x : Fn) : (s.setFn f x).posted = s.posted := rfl
@[simp] theorem State.setFn_timed (s : State) (f : Nat) (x : Fn) : (s.setFn f x).timed = s.timed := rfl
@[simp] theorem State.setFn_misses (s : State) (f : Nat) (x : Fn) : (s.setFn f x).misses = s.misses := rfl
@[simp] theorem State.setFn_dies (s : State) (f : Nat) (x : Fn) : (s.setFn f x).dies = s.dies := rfl
@[simp] theorem State.setFn_clusters (s : State) (f : Nat) (x : Fn) : (s.setFn f x).clusters = s.clusters := rfl
@[simp] theorem State.setFn_cisterns (s : State) (f : Nat) (x : Fn) : (s.setFn f x).cisterns = s.cisterns := rfl
@[simp] theorem State.setFn_contexts (s : State) (f : Nat) (x : Fn) : (s.setFn f x).contexts = s.contexts := rfl
@[simp] theorem State.setFn_tasks (s : State) (f : Nat) (x : Fn) : (s.setFn f x).tasks = s.tasks := rfl
@[simp] theorem State.setFn_journal (s : State) (f : Nat) (x : Fn) : (s.setFn f x).journal = s.journal := rfl
@[simp] theorem State.setFn_nextSeq (s : State) (f : Nat) (x : Fn) : (s.setFn f x).nextSeq = s.nextSeq := rfl
@[simp] theorem State.setFn_pattern (s : State) (f : Nat) (x : Fn) : (s.setFn f x).pattern = s.pattern := rfl
@[simp] theorem State.setFn_fns (s : State) (f : Nat) (x : Fn) : (s.setFn f x).fns = assocPut s.fns f x := rfl
@[simp] theorem State.setFn_internalLeader (s : State) (f : Nat) (x : Fn) : (s.setFn f x).internalLeader = s.internalLeader := rfl
@[simp] theorem State.setFn_weirs (s : State) (f : Nat) (x : Fn) : (s.setFn f x).weirs = s.weirs := rfl
@[simp] theorem State.setFn_flumes (s : State) (f : Nat) (x : Fn) : (s.setFn f x).flumes = s.flumes := rfl
@[simp] theorem State.setFn_owners (s : State) (f : Nat) (x : Fn) : (s.setFn f x).owners = s.owners := rfl
@[simp] theorem State.setFn_corpses (s : State) (f : Nat) (x : Fn) : (s.setFn f x).corpses = s.corpses := rfl
@[simp] theorem State.setFn_freezing (s : State) (f : Nat) (x : Fn) : (s.setFn f x).freezing = s.freezing := rfl
@[simp] theorem State.setFn_placedIds (s : State) (f : Nat) (x : Fn) : (s.setFn f x).placedIds = s.placedIds := rfl
@[simp] theorem State.setFn_overlays (s : State) (f : Nat) (x : Fn) : (s.setFn f x).overlays = s.overlays := rfl
@[simp] theorem State.setFn_fabric (s : State) (f : Nat) (x : Fn) : (s.setFn f x).fabric = s.fabric := rfl
@[simp] theorem State.setFn_sec (s : State) (f : Nat) (x : Fn) : (s.setFn f x).sec = s.sec := rfl
@[simp] theorem State.setFn_device (s : State) (f : Nat) (x : Fn) : (s.setFn f x).device = s.device := rfl
@[simp] theorem State.setFn_feed (s : State) (f : Nat) (x : Fn) : (s.setFn f x).feed = s.feed := rfl
@[simp] theorem State.setFn_reference (s : State) (f : Nat) (x : Fn) : (s.setFn f x).reference = s.reference := rfl
@[simp] theorem State.setFn_absent (s : State) (f : Nat) (x : Fn) : (s.setFn f x).absent = s.absent := rfl
@[simp] theorem State.setFn_hbms (s : State) (f : Nat) (x : Fn) : (s.setFn f x).hbms = s.hbms := rfl
@[simp] theorem State.setFn_withheld (s : State) (f : Nat) (x : Fn) : (s.setFn f x).withheld = s.withheld := rfl
@[simp] theorem State.setFn_powerCap (s : State) (f : Nat) (x : Fn) : (s.setFn f x).powerCap = s.powerCap := rfl
@[simp] theorem State.setFn_hostAtomics (s : State) (f : Nat) (x : Fn) : (s.setFn f x).hostAtomics = s.hostAtomics := rfl
@[simp] theorem State.setFn_flitMode (s : State) (f : Nat) (x : Fn) : (s.setFn f x).flitMode = s.flitMode := rfl
@[simp] theorem State.setFn_coolantOk (s : State) (f : Nat) (x : Fn) : (s.setFn f x).coolantOk = s.coolantOk := rfl
@[simp] theorem State.setFn_deviceErrors (s : State) (f : Nat) (x : Fn) : (s.setFn f x).deviceErrors = s.deviceErrors := rfl
@[simp] theorem State.setFn_migrations (s : State) (f : Nat) (x : Fn) : (s.setFn f x).migrations = s.migrations := rfl
@[simp] theorem State.setFn_frozen (s : State) (f : Nat) (x : Fn) : (s.setFn f x).frozen = s.frozen := rfl

@[simp] theorem State.setCluster_core (s : State) (k : Nat) (c : Cluster) : (s.setCluster k c).core = s.core := rfl
@[simp] theorem State.setCluster_parked (s : State) (k : Nat) (c : Cluster) : (s.setCluster k c).parked = s.parked := rfl
@[simp] theorem State.setCluster_script (s : State) (k : Nat) (c : Cluster) : (s.setCluster k c).script = s.script := rfl
@[simp] theorem State.setCluster_pace (s : State) (k : Nat) (c : Cluster) : (s.setCluster k c).pace = s.pace := rfl
@[simp] theorem State.setCluster_stalled (s : State) (k : Nat) (c : Cluster) : (s.setCluster k c).stalled = s.stalled := rfl
@[simp] theorem State.setCluster_still (s : State) (k : Nat) (c : Cluster) : (s.setCluster k c).still = s.still := rfl
@[simp] theorem State.setCluster_hold (s : State) (k : Nat) (c : Cluster) : (s.setCluster k c).hold = s.hold := rfl
@[simp] theorem State.setCluster_free (s : State) (k : Nat) (c : Cluster) : (s.setCluster k c).free = s.free := rfl
@[simp] theorem State.setCluster_mem (s : State) (k : Nat) (c : Cluster) : (s.setCluster k c).mem = s.mem := rfl
@[simp] theorem State.setCluster_tags (s : State) (k : Nat) (c : Cluster) : (s.setCluster k c).tags = s.tags := rfl
@[simp] theorem State.setCluster_colours (s : State) (k : Nat) (c : Cluster) : (s.setCluster k c).colours = s.colours := rfl
@[simp] theorem State.setCluster_lines (s : State) (k : Nat) (c : Cluster) : (s.setCluster k c).lines = s.lines := rfl
@[simp] theorem State.setCluster_bad (s : State) (k : Nat) (c : Cluster) : (s.setCluster k c).bad = s.bad := rfl
@[simp] theorem State.setCluster_tlb (s : State) (k : Nat) (c : Cluster) : (s.setCluster k c).tlb = s.tlb := rfl
@[simp] theorem State.setCluster_flights (s : State) (k : Nat) (c : Cluster) : (s.setCluster k c).flights = s.flights := rfl
@[simp] theorem State.setCluster_posted (s : State) (k : Nat) (c : Cluster) : (s.setCluster k c).posted = s.posted := rfl
@[simp] theorem State.setCluster_timed (s : State) (k : Nat) (c : Cluster) : (s.setCluster k c).timed = s.timed := rfl
@[simp] theorem State.setCluster_misses (s : State) (k : Nat) (c : Cluster) : (s.setCluster k c).misses = s.misses := rfl
@[simp] theorem State.setCluster_dies (s : State) (k : Nat) (c : Cluster) : (s.setCluster k c).dies = s.dies := rfl
@[simp] theorem State.setCluster_clusters (s : State) (k : Nat) (c : Cluster) : (s.setCluster k c).clusters = assocPut s.clusters k c := rfl
@[simp] theorem State.setCluster_cisterns (s : State) (k : Nat) (c : Cluster) : (s.setCluster k c).cisterns = s.cisterns := rfl
@[simp] theorem State.setCluster_contexts (s : State) (k : Nat) (c : Cluster) : (s.setCluster k c).contexts = s.contexts := rfl
@[simp] theorem State.setCluster_tasks (s : State) (k : Nat) (c : Cluster) : (s.setCluster k c).tasks = s.tasks := rfl
@[simp] theorem State.setCluster_journal (s : State) (k : Nat) (c : Cluster) : (s.setCluster k c).journal = s.journal := rfl
@[simp] theorem State.setCluster_nextSeq (s : State) (k : Nat) (c : Cluster) : (s.setCluster k c).nextSeq = s.nextSeq := rfl
@[simp] theorem State.setCluster_pattern (s : State) (k : Nat) (c : Cluster) : (s.setCluster k c).pattern = s.pattern := rfl
@[simp] theorem State.setCluster_fns (s : State) (k : Nat) (c : Cluster) : (s.setCluster k c).fns = s.fns := rfl
@[simp] theorem State.setCluster_internalLeader (s : State) (k : Nat) (c : Cluster) : (s.setCluster k c).internalLeader = s.internalLeader := rfl
@[simp] theorem State.setCluster_weirs (s : State) (k : Nat) (c : Cluster) : (s.setCluster k c).weirs = s.weirs := rfl
@[simp] theorem State.setCluster_flumes (s : State) (k : Nat) (c : Cluster) : (s.setCluster k c).flumes = s.flumes := rfl
@[simp] theorem State.setCluster_owners (s : State) (k : Nat) (c : Cluster) : (s.setCluster k c).owners = s.owners := rfl
@[simp] theorem State.setCluster_corpses (s : State) (k : Nat) (c : Cluster) : (s.setCluster k c).corpses = s.corpses := rfl
@[simp] theorem State.setCluster_freezing (s : State) (k : Nat) (c : Cluster) : (s.setCluster k c).freezing = s.freezing := rfl
@[simp] theorem State.setCluster_placedIds (s : State) (k : Nat) (c : Cluster) : (s.setCluster k c).placedIds = s.placedIds := rfl
@[simp] theorem State.setCluster_overlays (s : State) (k : Nat) (c : Cluster) : (s.setCluster k c).overlays = s.overlays := rfl
@[simp] theorem State.setCluster_fabric (s : State) (k : Nat) (c : Cluster) : (s.setCluster k c).fabric = s.fabric := rfl
@[simp] theorem State.setCluster_sec (s : State) (k : Nat) (c : Cluster) : (s.setCluster k c).sec = s.sec := rfl
@[simp] theorem State.setCluster_device (s : State) (k : Nat) (c : Cluster) : (s.setCluster k c).device = s.device := rfl
@[simp] theorem State.setCluster_feed (s : State) (k : Nat) (c : Cluster) : (s.setCluster k c).feed = s.feed := rfl
@[simp] theorem State.setCluster_reference (s : State) (k : Nat) (c : Cluster) : (s.setCluster k c).reference = s.reference := rfl
@[simp] theorem State.setCluster_absent (s : State) (k : Nat) (c : Cluster) : (s.setCluster k c).absent = s.absent := rfl
@[simp] theorem State.setCluster_hbms (s : State) (k : Nat) (c : Cluster) : (s.setCluster k c).hbms = s.hbms := rfl
@[simp] theorem State.setCluster_withheld (s : State) (k : Nat) (c : Cluster) : (s.setCluster k c).withheld = s.withheld := rfl
@[simp] theorem State.setCluster_powerCap (s : State) (k : Nat) (c : Cluster) : (s.setCluster k c).powerCap = s.powerCap := rfl
@[simp] theorem State.setCluster_hostAtomics (s : State) (k : Nat) (c : Cluster) : (s.setCluster k c).hostAtomics = s.hostAtomics := rfl
@[simp] theorem State.setCluster_flitMode (s : State) (k : Nat) (c : Cluster) : (s.setCluster k c).flitMode = s.flitMode := rfl
@[simp] theorem State.setCluster_coolantOk (s : State) (k : Nat) (c : Cluster) : (s.setCluster k c).coolantOk = s.coolantOk := rfl
@[simp] theorem State.setCluster_deviceErrors (s : State) (k : Nat) (c : Cluster) : (s.setCluster k c).deviceErrors = s.deviceErrors := rfl
@[simp] theorem State.setCluster_migrations (s : State) (k : Nat) (c : Cluster) : (s.setCluster k c).migrations = s.migrations := rfl
@[simp] theorem State.setCluster_frozen (s : State) (k : Nat) (c : Cluster) : (s.setCluster k c).frozen = s.frozen := rfl

@[simp] theorem State.setDie_core (s : State) (d : BitVec 2) (x : Die) : (s.setDie d x).core = s.core := rfl
@[simp] theorem State.setDie_parked (s : State) (d : BitVec 2) (x : Die) : (s.setDie d x).parked = s.parked := rfl
@[simp] theorem State.setDie_script (s : State) (d : BitVec 2) (x : Die) : (s.setDie d x).script = s.script := rfl
@[simp] theorem State.setDie_pace (s : State) (d : BitVec 2) (x : Die) : (s.setDie d x).pace = s.pace := rfl
@[simp] theorem State.setDie_stalled (s : State) (d : BitVec 2) (x : Die) : (s.setDie d x).stalled = s.stalled := rfl
@[simp] theorem State.setDie_still (s : State) (d : BitVec 2) (x : Die) : (s.setDie d x).still = s.still := rfl
@[simp] theorem State.setDie_hold (s : State) (d : BitVec 2) (x : Die) : (s.setDie d x).hold = s.hold := rfl
@[simp] theorem State.setDie_free (s : State) (d : BitVec 2) (x : Die) : (s.setDie d x).free = s.free := rfl
@[simp] theorem State.setDie_mem (s : State) (d : BitVec 2) (x : Die) : (s.setDie d x).mem = s.mem := rfl
@[simp] theorem State.setDie_tags (s : State) (d : BitVec 2) (x : Die) : (s.setDie d x).tags = s.tags := rfl
@[simp] theorem State.setDie_colours (s : State) (d : BitVec 2) (x : Die) : (s.setDie d x).colours = s.colours := rfl
@[simp] theorem State.setDie_lines (s : State) (d : BitVec 2) (x : Die) : (s.setDie d x).lines = s.lines := rfl
@[simp] theorem State.setDie_bad (s : State) (d : BitVec 2) (x : Die) : (s.setDie d x).bad = s.bad := rfl
@[simp] theorem State.setDie_tlb (s : State) (d : BitVec 2) (x : Die) : (s.setDie d x).tlb = s.tlb := rfl
@[simp] theorem State.setDie_flights (s : State) (d : BitVec 2) (x : Die) : (s.setDie d x).flights = s.flights := rfl
@[simp] theorem State.setDie_posted (s : State) (d : BitVec 2) (x : Die) : (s.setDie d x).posted = s.posted := rfl
@[simp] theorem State.setDie_timed (s : State) (d : BitVec 2) (x : Die) : (s.setDie d x).timed = s.timed := rfl
@[simp] theorem State.setDie_misses (s : State) (d : BitVec 2) (x : Die) : (s.setDie d x).misses = s.misses := rfl
@[simp] theorem State.setDie_dies (s : State) (d : BitVec 2) (x : Die) : (s.setDie d x).dies = s.dies.set d.toNat x := rfl
@[simp] theorem State.setDie_clusters (s : State) (d : BitVec 2) (x : Die) : (s.setDie d x).clusters = s.clusters := rfl
@[simp] theorem State.setDie_cisterns (s : State) (d : BitVec 2) (x : Die) : (s.setDie d x).cisterns = s.cisterns := rfl
@[simp] theorem State.setDie_contexts (s : State) (d : BitVec 2) (x : Die) : (s.setDie d x).contexts = s.contexts := rfl
@[simp] theorem State.setDie_tasks (s : State) (d : BitVec 2) (x : Die) : (s.setDie d x).tasks = s.tasks := rfl
@[simp] theorem State.setDie_journal (s : State) (d : BitVec 2) (x : Die) : (s.setDie d x).journal = s.journal := rfl
@[simp] theorem State.setDie_nextSeq (s : State) (d : BitVec 2) (x : Die) : (s.setDie d x).nextSeq = s.nextSeq := rfl
@[simp] theorem State.setDie_pattern (s : State) (d : BitVec 2) (x : Die) : (s.setDie d x).pattern = s.pattern := rfl
@[simp] theorem State.setDie_fns (s : State) (d : BitVec 2) (x : Die) : (s.setDie d x).fns = s.fns := rfl
@[simp] theorem State.setDie_internalLeader (s : State) (d : BitVec 2) (x : Die) : (s.setDie d x).internalLeader = s.internalLeader := rfl
@[simp] theorem State.setDie_weirs (s : State) (d : BitVec 2) (x : Die) : (s.setDie d x).weirs = s.weirs := rfl
@[simp] theorem State.setDie_flumes (s : State) (d : BitVec 2) (x : Die) : (s.setDie d x).flumes = s.flumes := rfl
@[simp] theorem State.setDie_owners (s : State) (d : BitVec 2) (x : Die) : (s.setDie d x).owners = s.owners := rfl
@[simp] theorem State.setDie_corpses (s : State) (d : BitVec 2) (x : Die) : (s.setDie d x).corpses = s.corpses := rfl
@[simp] theorem State.setDie_freezing (s : State) (d : BitVec 2) (x : Die) : (s.setDie d x).freezing = s.freezing := rfl
@[simp] theorem State.setDie_placedIds (s : State) (d : BitVec 2) (x : Die) : (s.setDie d x).placedIds = s.placedIds := rfl
@[simp] theorem State.setDie_overlays (s : State) (d : BitVec 2) (x : Die) : (s.setDie d x).overlays = s.overlays := rfl
@[simp] theorem State.setDie_fabric (s : State) (d : BitVec 2) (x : Die) : (s.setDie d x).fabric = s.fabric := rfl
@[simp] theorem State.setDie_sec (s : State) (d : BitVec 2) (x : Die) : (s.setDie d x).sec = s.sec := rfl
@[simp] theorem State.setDie_device (s : State) (d : BitVec 2) (x : Die) : (s.setDie d x).device = s.device := rfl
@[simp] theorem State.setDie_feed (s : State) (d : BitVec 2) (x : Die) : (s.setDie d x).feed = s.feed := rfl
@[simp] theorem State.setDie_reference (s : State) (d : BitVec 2) (x : Die) : (s.setDie d x).reference = s.reference := rfl
@[simp] theorem State.setDie_absent (s : State) (d : BitVec 2) (x : Die) : (s.setDie d x).absent = s.absent := rfl
@[simp] theorem State.setDie_hbms (s : State) (d : BitVec 2) (x : Die) : (s.setDie d x).hbms = s.hbms := rfl
@[simp] theorem State.setDie_withheld (s : State) (d : BitVec 2) (x : Die) : (s.setDie d x).withheld = s.withheld := rfl
@[simp] theorem State.setDie_powerCap (s : State) (d : BitVec 2) (x : Die) : (s.setDie d x).powerCap = s.powerCap := rfl
@[simp] theorem State.setDie_hostAtomics (s : State) (d : BitVec 2) (x : Die) : (s.setDie d x).hostAtomics = s.hostAtomics := rfl
@[simp] theorem State.setDie_flitMode (s : State) (d : BitVec 2) (x : Die) : (s.setDie d x).flitMode = s.flitMode := rfl
@[simp] theorem State.setDie_coolantOk (s : State) (d : BitVec 2) (x : Die) : (s.setDie d x).coolantOk = s.coolantOk := rfl
@[simp] theorem State.setDie_deviceErrors (s : State) (d : BitVec 2) (x : Die) : (s.setDie d x).deviceErrors = s.deviceErrors := rfl
@[simp] theorem State.setDie_migrations (s : State) (d : BitVec 2) (x : Die) : (s.setDie d x).migrations = s.migrations := rfl
@[simp] theorem State.setDie_frozen (s : State) (d : BitVec 2) (x : Die) : (s.setDie d x).frozen = s.frozen := rfl

@[simp] theorem State.setTask_core (s : State) (t : Task) : (s.setTask t).core = s.core := rfl
@[simp] theorem State.setTask_parked (s : State) (t : Task) : (s.setTask t).parked = s.parked := rfl
@[simp] theorem State.setTask_script (s : State) (t : Task) : (s.setTask t).script = s.script := rfl
@[simp] theorem State.setTask_pace (s : State) (t : Task) : (s.setTask t).pace = s.pace := rfl
@[simp] theorem State.setTask_stalled (s : State) (t : Task) : (s.setTask t).stalled = s.stalled := rfl
@[simp] theorem State.setTask_still (s : State) (t : Task) : (s.setTask t).still = s.still := rfl
@[simp] theorem State.setTask_hold (s : State) (t : Task) : (s.setTask t).hold = s.hold := rfl
@[simp] theorem State.setTask_free (s : State) (t : Task) : (s.setTask t).free = s.free := rfl
@[simp] theorem State.setTask_mem (s : State) (t : Task) : (s.setTask t).mem = s.mem := rfl
@[simp] theorem State.setTask_tags (s : State) (t : Task) : (s.setTask t).tags = s.tags := rfl
@[simp] theorem State.setTask_colours (s : State) (t : Task) : (s.setTask t).colours = s.colours := rfl
@[simp] theorem State.setTask_lines (s : State) (t : Task) : (s.setTask t).lines = s.lines := rfl
@[simp] theorem State.setTask_bad (s : State) (t : Task) : (s.setTask t).bad = s.bad := rfl
@[simp] theorem State.setTask_tlb (s : State) (t : Task) : (s.setTask t).tlb = s.tlb := rfl
@[simp] theorem State.setTask_flights (s : State) (t : Task) : (s.setTask t).flights = s.flights := rfl
@[simp] theorem State.setTask_posted (s : State) (t : Task) : (s.setTask t).posted = s.posted := rfl
@[simp] theorem State.setTask_timed (s : State) (t : Task) : (s.setTask t).timed = s.timed := rfl
@[simp] theorem State.setTask_misses (s : State) (t : Task) : (s.setTask t).misses = s.misses := rfl
@[simp] theorem State.setTask_dies (s : State) (t : Task) : (s.setTask t).dies = s.dies := rfl
@[simp] theorem State.setTask_clusters (s : State) (t : Task) : (s.setTask t).clusters = s.clusters := rfl
@[simp] theorem State.setTask_cisterns (s : State) (t : Task) : (s.setTask t).cisterns = s.cisterns := rfl
@[simp] theorem State.setTask_contexts (s : State) (t : Task) : (s.setTask t).contexts = s.contexts := rfl
@[simp] theorem State.setTask_tasks (s : State) (t : Task) : (s.setTask t).tasks = taskPut t s.tasks := rfl
@[simp] theorem State.setTask_journal (s : State) (t : Task) : (s.setTask t).journal = s.journal := rfl
@[simp] theorem State.setTask_nextSeq (s : State) (t : Task) : (s.setTask t).nextSeq = s.nextSeq := rfl
@[simp] theorem State.setTask_pattern (s : State) (t : Task) : (s.setTask t).pattern = s.pattern := rfl
@[simp] theorem State.setTask_fns (s : State) (t : Task) : (s.setTask t).fns = s.fns := rfl
@[simp] theorem State.setTask_internalLeader (s : State) (t : Task) : (s.setTask t).internalLeader = s.internalLeader := rfl
@[simp] theorem State.setTask_weirs (s : State) (t : Task) : (s.setTask t).weirs = s.weirs := rfl
@[simp] theorem State.setTask_flumes (s : State) (t : Task) : (s.setTask t).flumes = s.flumes := rfl
@[simp] theorem State.setTask_owners (s : State) (t : Task) : (s.setTask t).owners = s.owners := rfl
@[simp] theorem State.setTask_corpses (s : State) (t : Task) : (s.setTask t).corpses = s.corpses := rfl
@[simp] theorem State.setTask_freezing (s : State) (t : Task) : (s.setTask t).freezing = s.freezing := rfl
@[simp] theorem State.setTask_placedIds (s : State) (t : Task) : (s.setTask t).placedIds = s.placedIds := rfl
@[simp] theorem State.setTask_overlays (s : State) (t : Task) : (s.setTask t).overlays = s.overlays := rfl
@[simp] theorem State.setTask_fabric (s : State) (t : Task) : (s.setTask t).fabric = s.fabric := rfl
@[simp] theorem State.setTask_sec (s : State) (t : Task) : (s.setTask t).sec = s.sec := rfl
@[simp] theorem State.setTask_device (s : State) (t : Task) : (s.setTask t).device = s.device := rfl
@[simp] theorem State.setTask_feed (s : State) (t : Task) : (s.setTask t).feed = s.feed := rfl
@[simp] theorem State.setTask_reference (s : State) (t : Task) : (s.setTask t).reference = s.reference := rfl
@[simp] theorem State.setTask_absent (s : State) (t : Task) : (s.setTask t).absent = s.absent := rfl
@[simp] theorem State.setTask_hbms (s : State) (t : Task) : (s.setTask t).hbms = s.hbms := rfl
@[simp] theorem State.setTask_withheld (s : State) (t : Task) : (s.setTask t).withheld = s.withheld := rfl
@[simp] theorem State.setTask_powerCap (s : State) (t : Task) : (s.setTask t).powerCap = s.powerCap := rfl
@[simp] theorem State.setTask_hostAtomics (s : State) (t : Task) : (s.setTask t).hostAtomics = s.hostAtomics := rfl
@[simp] theorem State.setTask_flitMode (s : State) (t : Task) : (s.setTask t).flitMode = s.flitMode := rfl
@[simp] theorem State.setTask_coolantOk (s : State) (t : Task) : (s.setTask t).coolantOk = s.coolantOk := rfl
@[simp] theorem State.setTask_deviceErrors (s : State) (t : Task) : (s.setTask t).deviceErrors = s.deviceErrors := rfl
@[simp] theorem State.setTask_migrations (s : State) (t : Task) : (s.setTask t).migrations = s.migrations := rfl
@[simp] theorem State.setTask_frozen (s : State) (t : Task) : (s.setTask t).frozen = s.frozen := rfl

@[simp] theorem State.setWeir_core (s : State) (k : Nat) (w : Weir) : (s.setWeir k w).core = s.core := rfl
@[simp] theorem State.setWeir_parked (s : State) (k : Nat) (w : Weir) : (s.setWeir k w).parked = s.parked := rfl
@[simp] theorem State.setWeir_script (s : State) (k : Nat) (w : Weir) : (s.setWeir k w).script = s.script := rfl
@[simp] theorem State.setWeir_pace (s : State) (k : Nat) (w : Weir) : (s.setWeir k w).pace = s.pace := rfl
@[simp] theorem State.setWeir_stalled (s : State) (k : Nat) (w : Weir) : (s.setWeir k w).stalled = s.stalled := rfl
@[simp] theorem State.setWeir_still (s : State) (k : Nat) (w : Weir) : (s.setWeir k w).still = s.still := rfl
@[simp] theorem State.setWeir_hold (s : State) (k : Nat) (w : Weir) : (s.setWeir k w).hold = s.hold := rfl
@[simp] theorem State.setWeir_free (s : State) (k : Nat) (w : Weir) : (s.setWeir k w).free = s.free := rfl
@[simp] theorem State.setWeir_mem (s : State) (k : Nat) (w : Weir) : (s.setWeir k w).mem = s.mem := rfl
@[simp] theorem State.setWeir_tags (s : State) (k : Nat) (w : Weir) : (s.setWeir k w).tags = s.tags := rfl
@[simp] theorem State.setWeir_colours (s : State) (k : Nat) (w : Weir) : (s.setWeir k w).colours = s.colours := rfl
@[simp] theorem State.setWeir_lines (s : State) (k : Nat) (w : Weir) : (s.setWeir k w).lines = s.lines := rfl
@[simp] theorem State.setWeir_bad (s : State) (k : Nat) (w : Weir) : (s.setWeir k w).bad = s.bad := rfl
@[simp] theorem State.setWeir_tlb (s : State) (k : Nat) (w : Weir) : (s.setWeir k w).tlb = s.tlb := rfl
@[simp] theorem State.setWeir_flights (s : State) (k : Nat) (w : Weir) : (s.setWeir k w).flights = s.flights := rfl
@[simp] theorem State.setWeir_posted (s : State) (k : Nat) (w : Weir) : (s.setWeir k w).posted = s.posted := rfl
@[simp] theorem State.setWeir_timed (s : State) (k : Nat) (w : Weir) : (s.setWeir k w).timed = s.timed := rfl
@[simp] theorem State.setWeir_misses (s : State) (k : Nat) (w : Weir) : (s.setWeir k w).misses = s.misses := rfl
@[simp] theorem State.setWeir_dies (s : State) (k : Nat) (w : Weir) : (s.setWeir k w).dies = s.dies := rfl
@[simp] theorem State.setWeir_clusters (s : State) (k : Nat) (w : Weir) : (s.setWeir k w).clusters = s.clusters := rfl
@[simp] theorem State.setWeir_cisterns (s : State) (k : Nat) (w : Weir) : (s.setWeir k w).cisterns = s.cisterns := rfl
@[simp] theorem State.setWeir_contexts (s : State) (k : Nat) (w : Weir) : (s.setWeir k w).contexts = s.contexts := rfl
@[simp] theorem State.setWeir_tasks (s : State) (k : Nat) (w : Weir) : (s.setWeir k w).tasks = s.tasks := rfl
@[simp] theorem State.setWeir_journal (s : State) (k : Nat) (w : Weir) : (s.setWeir k w).journal = s.journal := rfl
@[simp] theorem State.setWeir_nextSeq (s : State) (k : Nat) (w : Weir) : (s.setWeir k w).nextSeq = s.nextSeq := rfl
@[simp] theorem State.setWeir_pattern (s : State) (k : Nat) (w : Weir) : (s.setWeir k w).pattern = s.pattern := rfl
@[simp] theorem State.setWeir_fns (s : State) (k : Nat) (w : Weir) : (s.setWeir k w).fns = s.fns := rfl
@[simp] theorem State.setWeir_internalLeader (s : State) (k : Nat) (w : Weir) : (s.setWeir k w).internalLeader = s.internalLeader := rfl
@[simp] theorem State.setWeir_weirs (s : State) (k : Nat) (w : Weir) : (s.setWeir k w).weirs = assocPut s.weirs k w := rfl
@[simp] theorem State.setWeir_flumes (s : State) (k : Nat) (w : Weir) : (s.setWeir k w).flumes = s.flumes := rfl
@[simp] theorem State.setWeir_owners (s : State) (k : Nat) (w : Weir) : (s.setWeir k w).owners = s.owners := rfl
@[simp] theorem State.setWeir_corpses (s : State) (k : Nat) (w : Weir) : (s.setWeir k w).corpses = s.corpses := rfl
@[simp] theorem State.setWeir_freezing (s : State) (k : Nat) (w : Weir) : (s.setWeir k w).freezing = s.freezing := rfl
@[simp] theorem State.setWeir_placedIds (s : State) (k : Nat) (w : Weir) : (s.setWeir k w).placedIds = s.placedIds := rfl
@[simp] theorem State.setWeir_overlays (s : State) (k : Nat) (w : Weir) : (s.setWeir k w).overlays = s.overlays := rfl
@[simp] theorem State.setWeir_fabric (s : State) (k : Nat) (w : Weir) : (s.setWeir k w).fabric = s.fabric := rfl
@[simp] theorem State.setWeir_sec (s : State) (k : Nat) (w : Weir) : (s.setWeir k w).sec = s.sec := rfl
@[simp] theorem State.setWeir_device (s : State) (k : Nat) (w : Weir) : (s.setWeir k w).device = s.device := rfl
@[simp] theorem State.setWeir_feed (s : State) (k : Nat) (w : Weir) : (s.setWeir k w).feed = s.feed := rfl
@[simp] theorem State.setWeir_reference (s : State) (k : Nat) (w : Weir) : (s.setWeir k w).reference = s.reference := rfl
@[simp] theorem State.setWeir_absent (s : State) (k : Nat) (w : Weir) : (s.setWeir k w).absent = s.absent := rfl
@[simp] theorem State.setWeir_hbms (s : State) (k : Nat) (w : Weir) : (s.setWeir k w).hbms = s.hbms := rfl
@[simp] theorem State.setWeir_withheld (s : State) (k : Nat) (w : Weir) : (s.setWeir k w).withheld = s.withheld := rfl
@[simp] theorem State.setWeir_powerCap (s : State) (k : Nat) (w : Weir) : (s.setWeir k w).powerCap = s.powerCap := rfl
@[simp] theorem State.setWeir_hostAtomics (s : State) (k : Nat) (w : Weir) : (s.setWeir k w).hostAtomics = s.hostAtomics := rfl
@[simp] theorem State.setWeir_flitMode (s : State) (k : Nat) (w : Weir) : (s.setWeir k w).flitMode = s.flitMode := rfl
@[simp] theorem State.setWeir_coolantOk (s : State) (k : Nat) (w : Weir) : (s.setWeir k w).coolantOk = s.coolantOk := rfl
@[simp] theorem State.setWeir_deviceErrors (s : State) (k : Nat) (w : Weir) : (s.setWeir k w).deviceErrors = s.deviceErrors := rfl
@[simp] theorem State.setWeir_migrations (s : State) (k : Nat) (w : Weir) : (s.setWeir k w).migrations = s.migrations := rfl
@[simp] theorem State.setWeir_frozen (s : State) (k : Nat) (w : Weir) : (s.setWeir k w).frozen = s.frozen := rfl

@[simp] theorem State.setFlume_core (s : State) (k : Nat) (w : Flume) : (s.setFlume k w).core = s.core := rfl
@[simp] theorem State.setFlume_parked (s : State) (k : Nat) (w : Flume) : (s.setFlume k w).parked = s.parked := rfl
@[simp] theorem State.setFlume_script (s : State) (k : Nat) (w : Flume) : (s.setFlume k w).script = s.script := rfl
@[simp] theorem State.setFlume_pace (s : State) (k : Nat) (w : Flume) : (s.setFlume k w).pace = s.pace := rfl
@[simp] theorem State.setFlume_stalled (s : State) (k : Nat) (w : Flume) : (s.setFlume k w).stalled = s.stalled := rfl
@[simp] theorem State.setFlume_still (s : State) (k : Nat) (w : Flume) : (s.setFlume k w).still = s.still := rfl
@[simp] theorem State.setFlume_hold (s : State) (k : Nat) (w : Flume) : (s.setFlume k w).hold = s.hold := rfl
@[simp] theorem State.setFlume_free (s : State) (k : Nat) (w : Flume) : (s.setFlume k w).free = s.free := rfl
@[simp] theorem State.setFlume_mem (s : State) (k : Nat) (w : Flume) : (s.setFlume k w).mem = s.mem := rfl
@[simp] theorem State.setFlume_tags (s : State) (k : Nat) (w : Flume) : (s.setFlume k w).tags = s.tags := rfl
@[simp] theorem State.setFlume_colours (s : State) (k : Nat) (w : Flume) : (s.setFlume k w).colours = s.colours := rfl
@[simp] theorem State.setFlume_lines (s : State) (k : Nat) (w : Flume) : (s.setFlume k w).lines = s.lines := rfl
@[simp] theorem State.setFlume_bad (s : State) (k : Nat) (w : Flume) : (s.setFlume k w).bad = s.bad := rfl
@[simp] theorem State.setFlume_tlb (s : State) (k : Nat) (w : Flume) : (s.setFlume k w).tlb = s.tlb := rfl
@[simp] theorem State.setFlume_flights (s : State) (k : Nat) (w : Flume) : (s.setFlume k w).flights = s.flights := rfl
@[simp] theorem State.setFlume_posted (s : State) (k : Nat) (w : Flume) : (s.setFlume k w).posted = s.posted := rfl
@[simp] theorem State.setFlume_timed (s : State) (k : Nat) (w : Flume) : (s.setFlume k w).timed = s.timed := rfl
@[simp] theorem State.setFlume_misses (s : State) (k : Nat) (w : Flume) : (s.setFlume k w).misses = s.misses := rfl
@[simp] theorem State.setFlume_dies (s : State) (k : Nat) (w : Flume) : (s.setFlume k w).dies = s.dies := rfl
@[simp] theorem State.setFlume_clusters (s : State) (k : Nat) (w : Flume) : (s.setFlume k w).clusters = s.clusters := rfl
@[simp] theorem State.setFlume_cisterns (s : State) (k : Nat) (w : Flume) : (s.setFlume k w).cisterns = s.cisterns := rfl
@[simp] theorem State.setFlume_contexts (s : State) (k : Nat) (w : Flume) : (s.setFlume k w).contexts = s.contexts := rfl
@[simp] theorem State.setFlume_tasks (s : State) (k : Nat) (w : Flume) : (s.setFlume k w).tasks = s.tasks := rfl
@[simp] theorem State.setFlume_journal (s : State) (k : Nat) (w : Flume) : (s.setFlume k w).journal = s.journal := rfl
@[simp] theorem State.setFlume_nextSeq (s : State) (k : Nat) (w : Flume) : (s.setFlume k w).nextSeq = s.nextSeq := rfl
@[simp] theorem State.setFlume_pattern (s : State) (k : Nat) (w : Flume) : (s.setFlume k w).pattern = s.pattern := rfl
@[simp] theorem State.setFlume_fns (s : State) (k : Nat) (w : Flume) : (s.setFlume k w).fns = s.fns := rfl
@[simp] theorem State.setFlume_internalLeader (s : State) (k : Nat) (w : Flume) : (s.setFlume k w).internalLeader = s.internalLeader := rfl
@[simp] theorem State.setFlume_weirs (s : State) (k : Nat) (w : Flume) : (s.setFlume k w).weirs = s.weirs := rfl
@[simp] theorem State.setFlume_flumes (s : State) (k : Nat) (w : Flume) : (s.setFlume k w).flumes = assocPut s.flumes k w := rfl
@[simp] theorem State.setFlume_owners (s : State) (k : Nat) (w : Flume) : (s.setFlume k w).owners = s.owners := rfl
@[simp] theorem State.setFlume_corpses (s : State) (k : Nat) (w : Flume) : (s.setFlume k w).corpses = s.corpses := rfl
@[simp] theorem State.setFlume_freezing (s : State) (k : Nat) (w : Flume) : (s.setFlume k w).freezing = s.freezing := rfl
@[simp] theorem State.setFlume_placedIds (s : State) (k : Nat) (w : Flume) : (s.setFlume k w).placedIds = s.placedIds := rfl
@[simp] theorem State.setFlume_overlays (s : State) (k : Nat) (w : Flume) : (s.setFlume k w).overlays = s.overlays := rfl
@[simp] theorem State.setFlume_fabric (s : State) (k : Nat) (w : Flume) : (s.setFlume k w).fabric = s.fabric := rfl
@[simp] theorem State.setFlume_sec (s : State) (k : Nat) (w : Flume) : (s.setFlume k w).sec = s.sec := rfl
@[simp] theorem State.setFlume_device (s : State) (k : Nat) (w : Flume) : (s.setFlume k w).device = s.device := rfl
@[simp] theorem State.setFlume_feed (s : State) (k : Nat) (w : Flume) : (s.setFlume k w).feed = s.feed := rfl
@[simp] theorem State.setFlume_reference (s : State) (k : Nat) (w : Flume) : (s.setFlume k w).reference = s.reference := rfl
@[simp] theorem State.setFlume_absent (s : State) (k : Nat) (w : Flume) : (s.setFlume k w).absent = s.absent := rfl
@[simp] theorem State.setFlume_hbms (s : State) (k : Nat) (w : Flume) : (s.setFlume k w).hbms = s.hbms := rfl
@[simp] theorem State.setFlume_withheld (s : State) (k : Nat) (w : Flume) : (s.setFlume k w).withheld = s.withheld := rfl
@[simp] theorem State.setFlume_powerCap (s : State) (k : Nat) (w : Flume) : (s.setFlume k w).powerCap = s.powerCap := rfl
@[simp] theorem State.setFlume_hostAtomics (s : State) (k : Nat) (w : Flume) : (s.setFlume k w).hostAtomics = s.hostAtomics := rfl
@[simp] theorem State.setFlume_flitMode (s : State) (k : Nat) (w : Flume) : (s.setFlume k w).flitMode = s.flitMode := rfl
@[simp] theorem State.setFlume_coolantOk (s : State) (k : Nat) (w : Flume) : (s.setFlume k w).coolantOk = s.coolantOk := rfl
@[simp] theorem State.setFlume_deviceErrors (s : State) (k : Nat) (w : Flume) : (s.setFlume k w).deviceErrors = s.deviceErrors := rfl
@[simp] theorem State.setFlume_migrations (s : State) (k : Nat) (w : Flume) : (s.setFlume k w).migrations = s.migrations := rfl
@[simp] theorem State.setFlume_frozen (s : State) (k : Nat) (w : Flume) : (s.setFlume k w).frozen = s.frozen := rfl

@[simp] theorem State.writeBytes_core (s : State) (l : Nat) (b : List Byte) : (s.writeBytes l b).core = s.core := rfl
@[simp] theorem State.writeBytes_parked (s : State) (l : Nat) (b : List Byte) : (s.writeBytes l b).parked = s.parked := rfl
@[simp] theorem State.writeBytes_script (s : State) (l : Nat) (b : List Byte) : (s.writeBytes l b).script = s.script := rfl
@[simp] theorem State.writeBytes_pace (s : State) (l : Nat) (b : List Byte) : (s.writeBytes l b).pace = s.pace := rfl
@[simp] theorem State.writeBytes_stalled (s : State) (l : Nat) (b : List Byte) : (s.writeBytes l b).stalled = s.stalled := rfl
@[simp] theorem State.writeBytes_still (s : State) (l : Nat) (b : List Byte) : (s.writeBytes l b).still = s.still := rfl
@[simp] theorem State.writeBytes_hold (s : State) (l : Nat) (b : List Byte) : (s.writeBytes l b).hold = s.hold := rfl
@[simp] theorem State.writeBytes_free (s : State) (l : Nat) (b : List Byte) : (s.writeBytes l b).free = s.free := rfl
@[simp] theorem State.writeBytes_mem (s : State) (l : Nat) (b : List Byte) : (s.writeBytes l b).mem = memWrite s.mem l b := rfl
@[simp] theorem State.writeBytes_colours (s : State) (l : Nat) (b : List Byte) : (s.writeBytes l b).colours = s.colours := rfl
@[simp] theorem State.writeBytes_lines (s : State) (l : Nat) (b : List Byte) : (s.writeBytes l b).lines = s.lines := rfl
@[simp] theorem State.writeBytes_tlb (s : State) (l : Nat) (b : List Byte) : (s.writeBytes l b).tlb = s.tlb := rfl
@[simp] theorem State.writeBytes_flights (s : State) (l : Nat) (b : List Byte) : (s.writeBytes l b).flights = s.flights := rfl
@[simp] theorem State.writeBytes_posted (s : State) (l : Nat) (b : List Byte) : (s.writeBytes l b).posted = s.posted := rfl
@[simp] theorem State.writeBytes_timed (s : State) (l : Nat) (b : List Byte) : (s.writeBytes l b).timed = s.timed := rfl
@[simp] theorem State.writeBytes_misses (s : State) (l : Nat) (b : List Byte) : (s.writeBytes l b).misses = s.misses := rfl
@[simp] theorem State.writeBytes_dies (s : State) (l : Nat) (b : List Byte) : (s.writeBytes l b).dies = s.dies := rfl
@[simp] theorem State.writeBytes_clusters (s : State) (l : Nat) (b : List Byte) : (s.writeBytes l b).clusters = s.clusters := rfl
@[simp] theorem State.writeBytes_cisterns (s : State) (l : Nat) (b : List Byte) : (s.writeBytes l b).cisterns = s.cisterns := rfl
@[simp] theorem State.writeBytes_contexts (s : State) (l : Nat) (b : List Byte) : (s.writeBytes l b).contexts = s.contexts := rfl
@[simp] theorem State.writeBytes_tasks (s : State) (l : Nat) (b : List Byte) : (s.writeBytes l b).tasks = s.tasks := rfl
@[simp] theorem State.writeBytes_journal (s : State) (l : Nat) (b : List Byte) : (s.writeBytes l b).journal = s.journal := rfl
@[simp] theorem State.writeBytes_nextSeq (s : State) (l : Nat) (b : List Byte) : (s.writeBytes l b).nextSeq = s.nextSeq := rfl
@[simp] theorem State.writeBytes_pattern (s : State) (l : Nat) (b : List Byte) : (s.writeBytes l b).pattern = s.pattern := rfl
@[simp] theorem State.writeBytes_fns (s : State) (l : Nat) (b : List Byte) : (s.writeBytes l b).fns = s.fns := rfl
@[simp] theorem State.writeBytes_internalLeader (s : State) (l : Nat) (b : List Byte) : (s.writeBytes l b).internalLeader = s.internalLeader := rfl
@[simp] theorem State.writeBytes_weirs (s : State) (l : Nat) (b : List Byte) : (s.writeBytes l b).weirs = s.weirs := rfl
@[simp] theorem State.writeBytes_flumes (s : State) (l : Nat) (b : List Byte) : (s.writeBytes l b).flumes = s.flumes := rfl
@[simp] theorem State.writeBytes_owners (s : State) (l : Nat) (b : List Byte) : (s.writeBytes l b).owners = s.owners := rfl
@[simp] theorem State.writeBytes_corpses (s : State) (l : Nat) (b : List Byte) : (s.writeBytes l b).corpses = s.corpses := rfl
@[simp] theorem State.writeBytes_freezing (s : State) (l : Nat) (b : List Byte) : (s.writeBytes l b).freezing = s.freezing := rfl
@[simp] theorem State.writeBytes_placedIds (s : State) (l : Nat) (b : List Byte) : (s.writeBytes l b).placedIds = s.placedIds := rfl
@[simp] theorem State.writeBytes_overlays (s : State) (l : Nat) (b : List Byte) : (s.writeBytes l b).overlays = s.overlays := rfl
@[simp] theorem State.writeBytes_fabric (s : State) (l : Nat) (b : List Byte) : (s.writeBytes l b).fabric = s.fabric := rfl
@[simp] theorem State.writeBytes_sec (s : State) (l : Nat) (b : List Byte) : (s.writeBytes l b).sec = s.sec := rfl
@[simp] theorem State.writeBytes_device (s : State) (l : Nat) (b : List Byte) : (s.writeBytes l b).device = s.device := rfl
@[simp] theorem State.writeBytes_feed (s : State) (l : Nat) (b : List Byte) : (s.writeBytes l b).feed = s.feed := rfl
@[simp] theorem State.writeBytes_reference (s : State) (l : Nat) (b : List Byte) : (s.writeBytes l b).reference = s.reference := rfl
@[simp] theorem State.writeBytes_absent (s : State) (l : Nat) (b : List Byte) : (s.writeBytes l b).absent = s.absent := rfl
@[simp] theorem State.writeBytes_hbms (s : State) (l : Nat) (b : List Byte) : (s.writeBytes l b).hbms = s.hbms := rfl
@[simp] theorem State.writeBytes_withheld (s : State) (l : Nat) (b : List Byte) : (s.writeBytes l b).withheld = s.withheld := rfl
@[simp] theorem State.writeBytes_powerCap (s : State) (l : Nat) (b : List Byte) : (s.writeBytes l b).powerCap = s.powerCap := rfl
@[simp] theorem State.writeBytes_hostAtomics (s : State) (l : Nat) (b : List Byte) : (s.writeBytes l b).hostAtomics = s.hostAtomics := rfl
@[simp] theorem State.writeBytes_flitMode (s : State) (l : Nat) (b : List Byte) : (s.writeBytes l b).flitMode = s.flitMode := rfl
@[simp] theorem State.writeBytes_coolantOk (s : State) (l : Nat) (b : List Byte) : (s.writeBytes l b).coolantOk = s.coolantOk := rfl
@[simp] theorem State.writeBytes_deviceErrors (s : State) (l : Nat) (b : List Byte) : (s.writeBytes l b).deviceErrors = s.deviceErrors := rfl
@[simp] theorem State.writeBytes_migrations (s : State) (l : Nat) (b : List Byte) : (s.writeBytes l b).migrations = s.migrations := rfl
@[simp] theorem State.writeBytes_frozen (s : State) (l : Nat) (b : List Byte) : (s.writeBytes l b).frozen = s.frozen := rfl

@[simp] theorem State.tick_core (s : State) : (s.tick).core = s.core := rfl
@[simp] theorem State.tick_parked (s : State) : (s.tick).parked = s.parked := rfl
@[simp] theorem State.tick_script (s : State) : (s.tick).script = s.script := rfl
@[simp] theorem State.tick_pace (s : State) : (s.tick).pace = s.pace := rfl
@[simp] theorem State.tick_stalled (s : State) : (s.tick).stalled = s.stalled := rfl
@[simp] theorem State.tick_still (s : State) : (s.tick).still = s.still := rfl
@[simp] theorem State.tick_hold (s : State) : (s.tick).hold = s.hold := rfl
@[simp] theorem State.tick_free (s : State) : (s.tick).free = s.free := rfl
@[simp] theorem State.tick_mem (s : State) : (s.tick).mem = s.mem := rfl
@[simp] theorem State.tick_tags (s : State) : (s.tick).tags = s.tags := rfl
@[simp] theorem State.tick_colours (s : State) : (s.tick).colours = s.colours := rfl
@[simp] theorem State.tick_lines (s : State) : (s.tick).lines = s.lines := rfl
@[simp] theorem State.tick_bad (s : State) : (s.tick).bad = s.bad := rfl
@[simp] theorem State.tick_tlb (s : State) : (s.tick).tlb = s.tlb := rfl
@[simp] theorem State.tick_flights (s : State) : (s.tick).flights = s.flights := rfl
@[simp] theorem State.tick_posted (s : State) : (s.tick).posted = s.posted := rfl
@[simp] theorem State.tick_timed (s : State) : (s.tick).timed = s.timed := rfl
@[simp] theorem State.tick_misses (s : State) : (s.tick).misses = s.misses := rfl
@[simp] theorem State.tick_clusters (s : State) : (s.tick).clusters = s.clusters := rfl
@[simp] theorem State.tick_cisterns (s : State) : (s.tick).cisterns = s.cisterns := rfl
@[simp] theorem State.tick_contexts (s : State) : (s.tick).contexts = s.contexts := rfl
@[simp] theorem State.tick_tasks (s : State) : (s.tick).tasks = s.tasks := rfl
@[simp] theorem State.tick_journal (s : State) : (s.tick).journal = s.journal := rfl
@[simp] theorem State.tick_nextSeq (s : State) : (s.tick).nextSeq = s.nextSeq := rfl
@[simp] theorem State.tick_pattern (s : State) : (s.tick).pattern = s.pattern := rfl
@[simp] theorem State.tick_fns (s : State) : (s.tick).fns = s.fns := rfl
@[simp] theorem State.tick_internalLeader (s : State) : (s.tick).internalLeader = s.internalLeader := rfl
@[simp] theorem State.tick_weirs (s : State) : (s.tick).weirs = s.weirs := rfl
@[simp] theorem State.tick_flumes (s : State) : (s.tick).flumes = s.flumes := rfl
@[simp] theorem State.tick_owners (s : State) : (s.tick).owners = s.owners := rfl
@[simp] theorem State.tick_corpses (s : State) : (s.tick).corpses = s.corpses := rfl
@[simp] theorem State.tick_freezing (s : State) : (s.tick).freezing = s.freezing := rfl
@[simp] theorem State.tick_placedIds (s : State) : (s.tick).placedIds = s.placedIds := rfl
@[simp] theorem State.tick_overlays (s : State) : (s.tick).overlays = s.overlays := rfl
@[simp] theorem State.tick_sec (s : State) : (s.tick).sec = s.sec := rfl
@[simp] theorem State.tick_device (s : State) : (s.tick).device = s.device := rfl
@[simp] theorem State.tick_feed (s : State) : (s.tick).feed = s.feed := rfl
@[simp] theorem State.tick_reference (s : State) : (s.tick).reference = s.reference := rfl
@[simp] theorem State.tick_absent (s : State) : (s.tick).absent = s.absent := rfl
@[simp] theorem State.tick_hbms (s : State) : (s.tick).hbms = s.hbms := rfl
@[simp] theorem State.tick_withheld (s : State) : (s.tick).withheld = s.withheld := rfl
@[simp] theorem State.tick_powerCap (s : State) : (s.tick).powerCap = s.powerCap := rfl
@[simp] theorem State.tick_hostAtomics (s : State) : (s.tick).hostAtomics = s.hostAtomics := rfl
@[simp] theorem State.tick_flitMode (s : State) : (s.tick).flitMode = s.flitMode := rfl
@[simp] theorem State.tick_coolantOk (s : State) : (s.tick).coolantOk = s.coolantOk := rfl
@[simp] theorem State.tick_deviceErrors (s : State) : (s.tick).deviceErrors = s.deviceErrors := rfl
@[simp] theorem State.tick_migrations (s : State) : (s.tick).migrations = s.migrations := rfl
@[simp] theorem State.tick_frozen (s : State) : (s.tick).frozen = s.frozen := rfl

@[simp] theorem State.done_core (s : State) : (s.done).core = { s.core with wait := none } := rfl
@[simp] theorem State.done_parked (s : State) : (s.done).parked = s.parked := rfl
@[simp] theorem State.done_script (s : State) : (s.done).script = s.script := rfl
@[simp] theorem State.done_pace (s : State) : (s.done).pace = s.pace := rfl
@[simp] theorem State.done_stalled (s : State) : (s.done).stalled = false := rfl
@[simp] theorem State.done_still (s : State) : (s.done).still = s.still := rfl
@[simp] theorem State.done_hold (s : State) : (s.done).hold = s.hold := rfl
@[simp] theorem State.done_free (s : State) : (s.done).free = s.free := rfl
@[simp] theorem State.done_mem (s : State) : (s.done).mem = s.mem := rfl
@[simp] theorem State.done_tags (s : State) : (s.done).tags = s.tags := rfl
@[simp] theorem State.done_colours (s : State) : (s.done).colours = s.colours := rfl
@[simp] theorem State.done_lines (s : State) : (s.done).lines = s.lines := rfl
@[simp] theorem State.done_bad (s : State) : (s.done).bad = s.bad := rfl
@[simp] theorem State.done_tlb (s : State) : (s.done).tlb = s.tlb := rfl
@[simp] theorem State.done_flights (s : State) : (s.done).flights = s.flights := rfl
@[simp] theorem State.done_posted (s : State) : (s.done).posted = s.posted := rfl
@[simp] theorem State.done_timed (s : State) : (s.done).timed = s.timed := rfl
@[simp] theorem State.done_misses (s : State) : (s.done).misses = s.misses := rfl
@[simp] theorem State.done_clusters (s : State) : (s.done).clusters = s.clusters := rfl
@[simp] theorem State.done_cisterns (s : State) : (s.done).cisterns = s.cisterns := rfl
@[simp] theorem State.done_contexts (s : State) : (s.done).contexts = s.contexts := rfl
@[simp] theorem State.done_tasks (s : State) : (s.done).tasks = s.tasks := rfl
@[simp] theorem State.done_journal (s : State) : (s.done).journal = s.journal := rfl
@[simp] theorem State.done_nextSeq (s : State) : (s.done).nextSeq = s.nextSeq := rfl
@[simp] theorem State.done_pattern (s : State) : (s.done).pattern = s.pattern := rfl
@[simp] theorem State.done_fns (s : State) : (s.done).fns = s.fns := rfl
@[simp] theorem State.done_internalLeader (s : State) : (s.done).internalLeader = s.internalLeader := rfl
@[simp] theorem State.done_weirs (s : State) : (s.done).weirs = s.weirs := rfl
@[simp] theorem State.done_flumes (s : State) : (s.done).flumes = s.flumes := rfl
@[simp] theorem State.done_owners (s : State) : (s.done).owners = s.owners := rfl
@[simp] theorem State.done_corpses (s : State) : (s.done).corpses = s.corpses := rfl
@[simp] theorem State.done_freezing (s : State) : (s.done).freezing = s.freezing := rfl
@[simp] theorem State.done_placedIds (s : State) : (s.done).placedIds = s.placedIds := rfl
@[simp] theorem State.done_overlays (s : State) : (s.done).overlays = s.overlays := rfl
@[simp] theorem State.done_sec (s : State) : (s.done).sec = s.sec := rfl
@[simp] theorem State.done_device (s : State) : (s.done).device = s.device := rfl
@[simp] theorem State.done_feed (s : State) : (s.done).feed = s.feed := rfl
@[simp] theorem State.done_reference (s : State) : (s.done).reference = s.reference := rfl
@[simp] theorem State.done_absent (s : State) : (s.done).absent = s.absent := rfl
@[simp] theorem State.done_hbms (s : State) : (s.done).hbms = s.hbms := rfl
@[simp] theorem State.done_withheld (s : State) : (s.done).withheld = s.withheld := rfl
@[simp] theorem State.done_powerCap (s : State) : (s.done).powerCap = s.powerCap := rfl
@[simp] theorem State.done_hostAtomics (s : State) : (s.done).hostAtomics = s.hostAtomics := rfl
@[simp] theorem State.done_flitMode (s : State) : (s.done).flitMode = s.flitMode := rfl
@[simp] theorem State.done_coolantOk (s : State) : (s.done).coolantOk = s.coolantOk := rfl
@[simp] theorem State.done_deviceErrors (s : State) : (s.done).deviceErrors = s.deviceErrors := rfl
@[simp] theorem State.done_migrations (s : State) : (s.done).migrations = s.migrations := rfl
@[simp] theorem State.done_frozen (s : State) : (s.done).frozen = s.frozen := rfl
/-! Reading a register after writing one. -/

@[simp] theorem State.g_zero (s : State) : s.g 0 = .null := rfl
@[simp] theorem State.p_zero (s : State) : s.p 0 = BitVec.allOnes 256 := rfl

end Sys2Proof.Machine
end

