-- ==== Sys2Proof/Laws/Ops.lean ====
section
/-! SUPPORT. What the shared operations of instructions do: reading registers, the frame of an instruction. -/

namespace Sys2Proof.Machine

/-! ## Reading registers -/

theorem State.useG_eq {s : State} {rs : List RegNum} (h : s.readable rs) : s.useG rs = .ok (s.took rs) := by
  induction rs generalizing s with
  | nil => rfl
  | cons n rest ih =>
    have hn := h n List.mem_cons_self
    have hr : (s.gotG n).readable rest :=
      fun m hm => h m (List.mem_cons_of_mem _ hm)
    rcases hn with rfl | hn
    · simpa [State.useG, State.took] using ih hr
    · simp [State.useG, State.took, hn, ih hr]

theorem State.useV_eq {s : State} {rs : List RegNum} (h : s.readableV rs) : s.useV rs = .ok (s.tookV rs) := by
  induction rs generalizing s with
  | nil => rfl
  | cons n rest ih =>
    have hn := h n List.mem_cons_self
    have hr : (s.gotV n).readableV rest :=
      fun m hm => h m (List.mem_cons_of_mem _ hm)
    simp [State.useV, State.tookV, hn, ih hr]

theorem State.useP_eq {s : State} {rs : List PredNum} (h : s.readableP rs) : s.useP rs = .ok (s.tookP rs) := by
  induction rs generalizing s with
  | nil => rfl
  | cons n rest ih =>
    have hn := h n List.mem_cons_self
    have hr : (s.gotP n).readableP rest :=
      fun m hm => h m (List.mem_cons_of_mem _ hm)
    rcases hn with rfl | hn
    · simpa [State.useP, State.tookP] using ih hr
    · simp [State.useP, State.tookP, hn, ih hr]

/-- Reading registers changes which of them are inherited, and nothing else. -/
theorem State.took_eq (s : State) (rs : List RegNum) :
    ∃ m, s.took rs = { s with core := { s.core with gInh := m } } := by
  induction rs generalizing s with
  | nil => exact ⟨_, rfl⟩
  | cons n rest ih =>
    obtain ⟨m, hm⟩ := ih (s.gotG n)
    exact ⟨m, hm⟩
theorem State.tookV_eq (s : State) (rs : List RegNum) :
    ∃ m, s.tookV rs = { s with core := { s.core with vInh := m } } := by
  induction rs generalizing s with
  | nil => exact ⟨_, rfl⟩
  | cons n rest ih =>
    obtain ⟨m, hm⟩ := ih (s.gotV n)
    exact ⟨m, hm⟩
theorem State.tookP_eq (s : State) (rs : List PredNum) :
    ∃ m, s.tookP rs = { s with core := { s.core with pInh := m } } := by
  induction rs generalizing s with
  | nil => exact ⟨_, rfl⟩
  | cons n rest ih =>
    obtain ⟨m, hm⟩ := ih (s.gotP n)
    exact ⟨m, hm⟩
theorem State.tookPfx_eq (s : State) (x : Pfx) :
    ∃ m, s.tookPfx x = { s with core := { s.core with pInh := m } } := by
  unfold State.tookPfx
  split
  · exact s.tookP_eq _
  · exact ⟨_, rfl⟩

/-! Reading registers leaves every register's value and everything else that an instruction looks at. -/

@[simp] theorem State.took_g (s : State) (rs : List RegNum) (n : RegNum) : (s.took rs).g n = s.g n := by
  obtain ⟨m, h⟩ := s.took_eq rs; rw [h]; rfl
@[simp] theorem State.took_gint (s : State) (rs : List RegNum) (n : RegNum) : (s.took rs).gint n = s.gint n := by
  obtain ⟨m, h⟩ := s.took_eq rs; rw [h]; rfl
@[simp] theorem State.took_v (s : State) (rs : List RegNum) (n : RegNum) : (s.took rs).v n = s.v n := by
  obtain ⟨m, h⟩ := s.took_eq rs; rw [h]; rfl
@[simp] theorem State.took_p (s : State) (rs : List RegNum) (n : PredNum) : (s.took rs).p n = s.p n := by
  obtain ⟨m, h⟩ := s.took_eq rs; rw [h]; rfl
@[simp] theorem State.took_pc (s : State) (rs : List RegNum) : (s.took rs).pc = s.pc := by
  obtain ⟨m, h⟩ := s.took_eq rs; rw [h]; rfl
@[simp] theorem State.took_now (s : State) (rs : List RegNum) : (s.took rs).now = s.now := by
  obtain ⟨m, h⟩ := s.took_eq rs; rw [h]; rfl
@[simp] theorem State.took_itemMode (s : State) (rs : List RegNum) : (s.took rs).itemMode = s.itemMode := by
  obtain ⟨m, h⟩ := s.took_eq rs; rw [h]; rfl
@[simp] theorem State.took_onCulvert (s : State) (rs : List RegNum) : (s.took rs).onCulvert = s.onCulvert := by
  obtain ⟨m, h⟩ := s.took_eq rs; rw [h]; rfl
@[simp] theorem State.took_onSecurity (s : State) (rs : List RegNum) : (s.took rs).onSecurity = s.onSecurity := by
  obtain ⟨m, h⟩ := s.took_eq rs; rw [h]; rfl
@[simp] theorem State.took_identity (s : State) (rs : List RegNum) (sel : BitVec 4) : (s.took rs).identity sel = s.identity sel := by
  obtain ⟨m, h⟩ := s.took_eq rs; rw [h]; rfl
@[simp] theorem State.took_busMaster (s : State) (rs : List RegNum) : (s.took rs).busMaster = s.busMaster := by
  obtain ⟨m, h⟩ := s.took_eq rs; rw [h]; rfl
@[simp] theorem State.took_ownTask (s : State) (rs : List RegNum) : (s.took rs).ownTask = s.ownTask := by
  obtain ⟨m, h⟩ := s.took_eq rs; rw [h]; rfl
@[simp] theorem State.took_core_pcc (s : State) (rs : List RegNum) : (s.took rs).core.pcc = s.core.pcc := by
  obtain ⟨m, h⟩ := s.took_eq rs; rw [h]
@[simp] theorem State.took_core_csr (s : State) (rs : List RegNum) : (s.took rs).core.csr = s.core.csr := by
  obtain ⟨m, h⟩ := s.took_eq rs; rw [h]
@[simp] theorem State.took_core_agent (s : State) (rs : List RegNum) : (s.took rs).core.agent = s.core.agent := by
  obtain ⟨m, h⟩ := s.took_eq rs; rw [h]
@[simp] theorem State.took_core_owner (s : State) (rs : List RegNum) : (s.took rs).core.owner = s.core.owner := by
  obtain ⟨m, h⟩ := s.took_eq rs; rw [h]
@[simp] theorem State.took_core_run (s : State) (rs : List RegNum) : (s.took rs).core.run = s.core.run := by
  obtain ⟨m, h⟩ := s.took_eq rs; rw [h]
@[simp] theorem State.took_core_gPois (s : State) (rs : List RegNum) : (s.took rs).core.gPois = s.core.gPois := by
  obtain ⟨m, h⟩ := s.took_eq rs; rw [h]
@[simp] theorem State.took_core_vPois (s : State) (rs : List RegNum) : (s.took rs).core.vPois = s.core.vPois := by
  obtain ⟨m, h⟩ := s.took_eq rs; rw [h]
@[simp] theorem State.took_core_pPois (s : State) (rs : List RegNum) : (s.took rs).core.pPois = s.core.pPois := by
  obtain ⟨m, h⟩ := s.took_eq rs; rw [h]
@[simp] theorem State.took_core_handler (s : State) (rs : List RegNum) : (s.took rs).core.handler = s.core.handler := by
  obtain ⟨m, h⟩ := s.took_eq rs; rw [h]
@[simp] theorem State.took_core_pending (s : State) (rs : List RegNum) : (s.took rs).core.pending = s.core.pending := by
  obtain ⟨m, h⟩ := s.took_eq rs; rw [h]
@[simp] theorem State.took_core_dead (s : State) (rs : List RegNum) : (s.took rs).core.dead = s.core.dead := by
  obtain ⟨m, h⟩ := s.took_eq rs; rw [h]
@[simp] theorem State.took_core_last (s : State) (rs : List RegNum) : (s.took rs).core.last = s.core.last := by
  obtain ⟨m, h⟩ := s.took_eq rs; rw [h]
@[simp] theorem State.took_core_ident (s : State) (rs : List RegNum) : (s.took rs).core.ident = s.core.ident := by
  obtain ⟨m, h⟩ := s.took_eq rs; rw [h]
@[simp] theorem State.took_core_mx (s : State) (rs : List RegNum) : (s.took rs).core.mx = s.core.mx := by
  obtain ⟨m, h⟩ := s.took_eq rs; rw [h]
@[simp] theorem State.took_core_wait (s : State) (rs : List RegNum) : (s.took rs).core.wait = s.core.wait := by
  obtain ⟨m, h⟩ := s.took_eq rs; rw [h]
@[simp] theorem State.took_core_regionBase (s : State) (rs : List RegNum) : (s.took rs).core.regionBase = s.core.regionBase := by
  obtain ⟨m, h⟩ := s.took_eq rs; rw [h]
@[simp] theorem State.took_core_regionLen (s : State) (rs : List RegNum) : (s.took rs).core.regionLen = s.core.regionLen := by
  obtain ⟨m, h⟩ := s.took_eq rs; rw [h]
@[simp] theorem State.took_core_resident (s : State) (rs : List RegNum) : (s.took rs).core.resident = s.core.resident := by
  obtain ⟨m, h⟩ := s.took_eq rs; rw [h]
@[simp] theorem State.took_core_own (s : State) (rs : List RegNum) : (s.took rs).core.own = s.core.own := by
  obtain ⟨m, h⟩ := s.took_eq rs; rw [h]
@[simp] theorem State.took_core_lastArr (s : State) (rs : List RegNum) : (s.took rs).core.lastArr = s.core.lastArr := by
  obtain ⟨m, h⟩ := s.took_eq rs; rw [h]
@[simp] theorem State.took_core_issued (s : State) (rs : List RegNum) : (s.took rs).core.issued = s.core.issued := by
  obtain ⟨m, h⟩ := s.took_eq rs; rw [h]
@[simp] theorem State.took_mem (s : State) (rs : List RegNum) : (s.took rs).mem = s.mem := by
  obtain ⟨m, h⟩ := s.took_eq rs; rw [h]
@[simp] theorem State.took_tags (s : State) (rs : List RegNum) : (s.took rs).tags = s.tags := by
  obtain ⟨m, h⟩ := s.took_eq rs; rw [h]
@[simp] theorem State.took_colours (s : State) (rs : List RegNum) : (s.took rs).colours = s.colours := by
  obtain ⟨m, h⟩ := s.took_eq rs; rw [h]
@[simp] theorem State.took_lines (s : State) (rs : List RegNum) : (s.took rs).lines = s.lines := by
  obtain ⟨m, h⟩ := s.took_eq rs; rw [h]
@[simp] theorem State.took_bad (s : State) (rs : List RegNum) : (s.took rs).bad = s.bad := by
  obtain ⟨m, h⟩ := s.took_eq rs; rw [h]
@[simp] theorem State.took_tlb (s : State) (rs : List RegNum) : (s.took rs).tlb = s.tlb := by
  obtain ⟨m, h⟩ := s.took_eq rs; rw [h]
@[simp] theorem State.took_flights (s : State) (rs : List RegNum) : (s.took rs).flights = s.flights := by
  obtain ⟨m, h⟩ := s.took_eq rs; rw [h]
@[simp] theorem State.took_posted (s : State) (rs : List RegNum) : (s.took rs).posted = s.posted := by
  obtain ⟨m, h⟩ := s.took_eq rs; rw [h]
@[simp] theorem State.took_timed (s : State) (rs : List RegNum) : (s.took rs).timed = s.timed := by
  obtain ⟨m, h⟩ := s.took_eq rs; rw [h]
@[simp] theorem State.took_contexts (s : State) (rs : List RegNum) : (s.took rs).contexts = s.contexts := by
  obtain ⟨m, h⟩ := s.took_eq rs; rw [h]
@[simp] theorem State.took_tasks (s : State) (rs : List RegNum) : (s.took rs).tasks = s.tasks := by
  obtain ⟨m, h⟩ := s.took_eq rs; rw [h]
@[simp] theorem State.took_clusters (s : State) (rs : List RegNum) : (s.took rs).clusters = s.clusters := by
  obtain ⟨m, h⟩ := s.took_eq rs; rw [h]
@[simp] theorem State.took_dies (s : State) (rs : List RegNum) : (s.took rs).dies = s.dies := by
  obtain ⟨m, h⟩ := s.took_eq rs; rw [h]
@[simp] theorem State.took_fns (s : State) (rs : List RegNum) : (s.took rs).fns = s.fns := by
  obtain ⟨m, h⟩ := s.took_eq rs; rw [h]
@[simp] theorem State.took_overlays (s : State) (rs : List RegNum) : (s.took rs).overlays = s.overlays := by
  obtain ⟨m, h⟩ := s.took_eq rs; rw [h]
@[simp] theorem State.took_hold (s : State) (rs : List RegNum) : (s.took rs).hold = s.hold := by
  obtain ⟨m, h⟩ := s.took_eq rs; rw [h]
@[simp] theorem State.took_device (s : State) (rs : List RegNum) : (s.took rs).device = s.device := by
  obtain ⟨m, h⟩ := s.took_eq rs; rw [h]
@[simp] theorem State.took_weirs (s : State) (rs : List RegNum) : (s.took rs).weirs = s.weirs := by
  obtain ⟨m, h⟩ := s.took_eq rs; rw [h]
@[simp] theorem State.took_flumes (s : State) (rs : List RegNum) : (s.took rs).flumes = s.flumes := by
  obtain ⟨m, h⟩ := s.took_eq rs; rw [h]
@[simp] theorem State.tookV_g (s : State) (rs : List RegNum) (n : RegNum) : (s.tookV rs).g n = s.g n := by
  obtain ⟨m, h⟩ := s.tookV_eq rs; rw [h]; rfl
@[simp] theorem State.tookV_gint (s : State) (rs : List RegNum) (n : RegNum) : (s.tookV rs).gint n = s.gint n := by
  obtain ⟨m, h⟩ := s.tookV_eq rs; rw [h]; rfl
@[simp] theorem State.tookV_v (s : State) (rs : List RegNum) (n : RegNum) : (s.tookV rs).v n = s.v n := by
  obtain ⟨m, h⟩ := s.tookV_eq rs; rw [h]; rfl
@[simp] theorem State.tookV_p (s : State) (rs : List RegNum) (n : PredNum) : (s.tookV rs).p n = s.p n := by
  obtain ⟨m, h⟩ := s.tookV_eq rs; rw [h]; rfl
@[simp] theorem State.tookV_pc (s : State) (rs : List RegNum) : (s.tookV rs).pc = s.pc := by
  obtain ⟨m, h⟩ := s.tookV_eq rs; rw [h]; rfl
@[simp] theorem State.tookV_now (s : State) (rs : List RegNum) : (s.tookV rs).now = s.now := by
  obtain ⟨m, h⟩ := s.tookV_eq rs; rw [h]; rfl
@[simp] theorem State.tookV_itemMode (s : State) (rs : List RegNum) : (s.tookV rs).itemMode = s.itemMode := by
  obtain ⟨m, h⟩ := s.tookV_eq rs; rw [h]; rfl
@[simp] theorem State.tookV_onCulvert (s : State) (rs : List RegNum) : (s.tookV rs).onCulvert = s.onCulvert := by
  obtain ⟨m, h⟩ := s.tookV_eq rs; rw [h]; rfl
@[simp] theorem State.tookV_onSecurity (s : State) (rs : List RegNum) : (s.tookV rs).onSecurity = s.onSecurity := by
  obtain ⟨m, h⟩ := s.tookV_eq rs; rw [h]; rfl
@[simp] theorem State.tookV_identity (s : State) (rs : List RegNum) (sel : BitVec 4) : (s.tookV rs).identity sel = s.identity sel := by
  obtain ⟨m, h⟩ := s.tookV_eq rs; rw [h]; rfl
@[simp] theorem State.tookV_busMaster (s : State) (rs : List RegNum) : (s.tookV rs).busMaster = s.busMaster := by
  obtain ⟨m, h⟩ := s.tookV_eq rs; rw [h]; rfl
@[simp] theorem State.tookV_ownTask (s : State) (rs : List RegNum) : (s.tookV rs).ownTask = s.ownTask := by
  obtain ⟨m, h⟩ := s.tookV_eq rs; rw [h]; rfl
@[simp] theorem State.tookV_core_pcc (s : State) (rs : List RegNum) : (s.tookV rs).core.pcc = s.core.pcc := by
  obtain ⟨m, h⟩ := s.tookV_eq rs; rw [h]
@[simp] theorem State.tookV_core_csr (s : State) (rs : List RegNum) : (s.tookV rs).core.csr = s.core.csr := by
  obtain ⟨m, h⟩ := s.tookV_eq rs; rw [h]
@[simp] theorem State.tookV_core_agent (s : State) (rs : List RegNum) : (s.tookV rs).core.agent = s.core.agent := by
  obtain ⟨m, h⟩ := s.tookV_eq rs; rw [h]
@[simp] theorem State.tookV_core_owner (s : State) (rs : List RegNum) : (s.tookV rs).core.owner = s.core.owner := by
  obtain ⟨m, h⟩ := s.tookV_eq rs; rw [h]
@[simp] theorem State.tookV_core_run (s : State) (rs : List RegNum) : (s.tookV rs).core.run = s.core.run := by
  obtain ⟨m, h⟩ := s.tookV_eq rs; rw [h]
@[simp] theorem State.tookV_core_gPois (s : State) (rs : List RegNum) : (s.tookV rs).core.gPois = s.core.gPois := by
  obtain ⟨m, h⟩ := s.tookV_eq rs; rw [h]
@[simp] theorem State.tookV_core_vPois (s : State) (rs : List RegNum) : (s.tookV rs).core.vPois = s.core.vPois := by
  obtain ⟨m, h⟩ := s.tookV_eq rs; rw [h]
@[simp] theorem State.tookV_core_pPois (s : State) (rs : List RegNum) : (s.tookV rs).core.pPois = s.core.pPois := by
  obtain ⟨m, h⟩ := s.tookV_eq rs; rw [h]
@[simp] theorem State.tookV_core_handler (s : State) (rs : List RegNum) : (s.tookV rs).core.handler = s.core.handler := by
  obtain ⟨m, h⟩ := s.tookV_eq rs; rw [h]
@[simp] theorem State.tookV_core_pending (s : State) (rs : List RegNum) : (s.tookV rs).core.pending = s.core.pending := by
  obtain ⟨m, h⟩ := s.tookV_eq rs; rw [h]
@[simp] theorem State.tookV_core_dead (s : State) (rs : List RegNum) : (s.tookV rs).core.dead = s.core.dead := by
  obtain ⟨m, h⟩ := s.tookV_eq rs; rw [h]
@[simp] theorem State.tookV_core_last (s : State) (rs : List RegNum) : (s.tookV rs).core.last = s.core.last := by
  obtain ⟨m, h⟩ := s.tookV_eq rs; rw [h]
@[simp] theorem State.tookV_core_ident (s : State) (rs : List RegNum) : (s.tookV rs).core.ident = s.core.ident := by
  obtain ⟨m, h⟩ := s.tookV_eq rs; rw [h]
@[simp] theorem State.tookV_core_mx (s : State) (rs : List RegNum) : (s.tookV rs).core.mx = s.core.mx := by
  obtain ⟨m, h⟩ := s.tookV_eq rs; rw [h]
@[simp] theorem State.tookV_core_wait (s : State) (rs : List RegNum) : (s.tookV rs).core.wait = s.core.wait := by
  obtain ⟨m, h⟩ := s.tookV_eq rs; rw [h]
@[simp] theorem State.tookV_core_regionBase (s : State) (rs : List RegNum) : (s.tookV rs).core.regionBase = s.core.regionBase := by
  obtain ⟨m, h⟩ := s.tookV_eq rs; rw [h]
@[simp] theorem State.tookV_core_regionLen (s : State) (rs : List RegNum) : (s.tookV rs).core.regionLen = s.core.regionLen := by
  obtain ⟨m, h⟩ := s.tookV_eq rs; rw [h]
@[simp] theorem State.tookV_core_resident (s : State) (rs : List RegNum) : (s.tookV rs).core.resident = s.core.resident := by
  obtain ⟨m, h⟩ := s.tookV_eq rs; rw [h]
@[simp] theorem State.tookV_core_own (s : State) (rs : List RegNum) : (s.tookV rs).core.own = s.core.own := by
  obtain ⟨m, h⟩ := s.tookV_eq rs; rw [h]
@[simp] theorem State.tookV_core_lastArr (s : State) (rs : List RegNum) : (s.tookV rs).core.lastArr = s.core.lastArr := by
  obtain ⟨m, h⟩ := s.tookV_eq rs; rw [h]
@[simp] theorem State.tookV_core_issued (s : State) (rs : List RegNum) : (s.tookV rs).core.issued = s.core.issued := by
  obtain ⟨m, h⟩ := s.tookV_eq rs; rw [h]
@[simp] theorem State.tookV_mem (s : State) (rs : List RegNum) : (s.tookV rs).mem = s.mem := by
  obtain ⟨m, h⟩ := s.tookV_eq rs; rw [h]
@[simp] theorem State.tookV_tags (s : State) (rs : List RegNum) : (s.tookV rs).tags = s.tags := by
  obtain ⟨m, h⟩ := s.tookV_eq rs; rw [h]
@[simp] theorem State.tookV_colours (s : State) (rs : List RegNum) : (s.tookV rs).colours = s.colours := by
  obtain ⟨m, h⟩ := s.tookV_eq rs; rw [h]
@[simp] theorem State.tookV_lines (s : State) (rs : List RegNum) : (s.tookV rs).lines = s.lines := by
  obtain ⟨m, h⟩ := s.tookV_eq rs; rw [h]
@[simp] theorem State.tookV_bad (s : State) (rs : List RegNum) : (s.tookV rs).bad = s.bad := by
  obtain ⟨m, h⟩ := s.tookV_eq rs; rw [h]
@[simp] theorem State.tookV_tlb (s : State) (rs : List RegNum) : (s.tookV rs).tlb = s.tlb := by
  obtain ⟨m, h⟩ := s.tookV_eq rs; rw [h]
@[simp] theorem State.tookV_flights (s : State) (rs : List RegNum) : (s.tookV rs).flights = s.flights := by
  obtain ⟨m, h⟩ := s.tookV_eq rs; rw [h]
@[simp] theorem State.tookV_posted (s : State) (rs : List RegNum) : (s.tookV rs).posted = s.posted := by
  obtain ⟨m, h⟩ := s.tookV_eq rs; rw [h]
@[simp] theorem State.tookV_timed (s : State) (rs : List RegNum) : (s.tookV rs).timed = s.timed := by
  obtain ⟨m, h⟩ := s.tookV_eq rs; rw [h]
@[simp] theorem State.tookV_contexts (s : State) (rs : List RegNum) : (s.tookV rs).contexts = s.contexts := by
  obtain ⟨m, h⟩ := s.tookV_eq rs; rw [h]
@[simp] theorem State.tookV_tasks (s : State) (rs : List RegNum) : (s.tookV rs).tasks = s.tasks := by
  obtain ⟨m, h⟩ := s.tookV_eq rs; rw [h]
@[simp] theorem State.tookV_clusters (s : State) (rs : List RegNum) : (s.tookV rs).clusters = s.clusters := by
  obtain ⟨m, h⟩ := s.tookV_eq rs; rw [h]
@[simp] theorem State.tookV_dies (s : State) (rs : List RegNum) : (s.tookV rs).dies = s.dies := by
  obtain ⟨m, h⟩ := s.tookV_eq rs; rw [h]
@[simp] theorem State.tookV_fns (s : State) (rs : List RegNum) : (s.tookV rs).fns = s.fns := by
  obtain ⟨m, h⟩ := s.tookV_eq rs; rw [h]
@[simp] theorem State.tookV_overlays (s : State) (rs : List RegNum) : (s.tookV rs).overlays = s.overlays := by
  obtain ⟨m, h⟩ := s.tookV_eq rs; rw [h]
@[simp] theorem State.tookV_hold (s : State) (rs : List RegNum) : (s.tookV rs).hold = s.hold := by
  obtain ⟨m, h⟩ := s.tookV_eq rs; rw [h]
@[simp] theorem State.tookV_device (s : State) (rs : List RegNum) : (s.tookV rs).device = s.device := by
  obtain ⟨m, h⟩ := s.tookV_eq rs; rw [h]
@[simp] theorem State.tookV_weirs (s : State) (rs : List RegNum) : (s.tookV rs).weirs = s.weirs := by
  obtain ⟨m, h⟩ := s.tookV_eq rs; rw [h]
@[simp] theorem State.tookV_flumes (s : State) (rs : List RegNum) : (s.tookV rs).flumes = s.flumes := by
  obtain ⟨m, h⟩ := s.tookV_eq rs; rw [h]
@[simp] theorem State.tookP_g (s : State) (rs : List PredNum) (n : RegNum) : (s.tookP rs).g n = s.g n := by
  obtain ⟨m, h⟩ := s.tookP_eq rs; rw [h]; rfl
@[simp] theorem State.tookP_gint (s : State) (rs : List PredNum) (n : RegNum) : (s.tookP rs).gint n = s.gint n := by
  obtain ⟨m, h⟩ := s.tookP_eq rs; rw [h]; rfl
@[simp] theorem State.tookP_v (s : State) (rs : List PredNum) (n : RegNum) : (s.tookP rs).v n = s.v n := by
  obtain ⟨m, h⟩ := s.tookP_eq rs; rw [h]; rfl
@[simp] theorem State.tookP_p (s : State) (rs : List PredNum) (n : PredNum) : (s.tookP rs).p n = s.p n := by
  obtain ⟨m, h⟩ := s.tookP_eq rs; rw [h]; rfl
@[simp] theorem State.tookP_pc (s : State) (rs : List PredNum) : (s.tookP rs).pc = s.pc := by
  obtain ⟨m, h⟩ := s.tookP_eq rs; rw [h]; rfl
@[simp] theorem State.tookP_now (s : State) (rs : List PredNum) : (s.tookP rs).now = s.now := by
  obtain ⟨m, h⟩ := s.tookP_eq rs; rw [h]; rfl
@[simp] theorem State.tookP_itemMode (s : State) (rs : List PredNum) : (s.tookP rs).itemMode = s.itemMode := by
  obtain ⟨m, h⟩ := s.tookP_eq rs; rw [h]; rfl
@[simp] theorem State.tookP_onCulvert (s : State) (rs : List PredNum) : (s.tookP rs).onCulvert = s.onCulvert := by
  obtain ⟨m, h⟩ := s.tookP_eq rs; rw [h]; rfl
@[simp] theorem State.tookP_onSecurity (s : State) (rs : List PredNum) : (s.tookP rs).onSecurity = s.onSecurity := by
  obtain ⟨m, h⟩ := s.tookP_eq rs; rw [h]; rfl
@[simp] theorem State.tookP_identity (s : State) (rs : List PredNum) (sel : BitVec 4) : (s.tookP rs).identity sel = s.identity sel := by
  obtain ⟨m, h⟩ := s.tookP_eq rs; rw [h]; rfl
@[simp] theorem State.tookP_busMaster (s : State) (rs : List PredNum) : (s.tookP rs).busMaster = s.busMaster := by
  obtain ⟨m, h⟩ := s.tookP_eq rs; rw [h]; rfl
@[simp] theorem State.tookP_ownTask (s : State) (rs : List PredNum) : (s.tookP rs).ownTask = s.ownTask := by
  obtain ⟨m, h⟩ := s.tookP_eq rs; rw [h]; rfl
@[simp] theorem State.tookP_core_pcc (s : State) (rs : List PredNum) : (s.tookP rs).core.pcc = s.core.pcc := by
  obtain ⟨m, h⟩ := s.tookP_eq rs; rw [h]
@[simp] theorem State.tookP_core_csr (s : State) (rs : List PredNum) : (s.tookP rs).core.csr = s.core.csr := by
  obtain ⟨m, h⟩ := s.tookP_eq rs; rw [h]
@[simp] theorem State.tookP_core_agent (s : State) (rs : List PredNum) : (s.tookP rs).core.agent = s.core.agent := by
  obtain ⟨m, h⟩ := s.tookP_eq rs; rw [h]
@[simp] theorem State.tookP_core_owner (s : State) (rs : List PredNum) : (s.tookP rs).core.owner = s.core.owner := by
  obtain ⟨m, h⟩ := s.tookP_eq rs; rw [h]
@[simp] theorem State.tookP_core_run (s : State) (rs : List PredNum) : (s.tookP rs).core.run = s.core.run := by
  obtain ⟨m, h⟩ := s.tookP_eq rs; rw [h]
@[simp] theorem State.tookP_core_gPois (s : State) (rs : List PredNum) : (s.tookP rs).core.gPois = s.core.gPois := by
  obtain ⟨m, h⟩ := s.tookP_eq rs; rw [h]
@[simp] theorem State.tookP_core_vPois (s : State) (rs : List PredNum) : (s.tookP rs).core.vPois = s.core.vPois := by
  obtain ⟨m, h⟩ := s.tookP_eq rs; rw [h]
@[simp] theorem State.tookP_core_pPois (s : State) (rs : List PredNum) : (s.tookP rs).core.pPois = s.core.pPois := by
  obtain ⟨m, h⟩ := s.tookP_eq rs; rw [h]
@[simp] theorem State.tookP_core_handler (s : State) (rs : List PredNum) : (s.tookP rs).core.handler = s.core.handler := by
  obtain ⟨m, h⟩ := s.tookP_eq rs; rw [h]
@[simp] theorem State.tookP_core_pending (s : State) (rs : List PredNum) : (s.tookP rs).core.pending = s.core.pending := by
  obtain ⟨m, h⟩ := s.tookP_eq rs; rw [h]
@[simp] theorem State.tookP_core_dead (s : State) (rs : List PredNum) : (s.tookP rs).core.dead = s.core.dead := by
  obtain ⟨m, h⟩ := s.tookP_eq rs; rw [h]
@[simp] theorem State.tookP_core_last (s : State) (rs : List PredNum) : (s.tookP rs).core.last = s.core.last := by
  obtain ⟨m, h⟩ := s.tookP_eq rs; rw [h]
@[simp] theorem State.tookP_core_ident (s : State) (rs : List PredNum) : (s.tookP rs).core.ident = s.core.ident := by
  obtain ⟨m, h⟩ := s.tookP_eq rs; rw [h]
@[simp] theorem State.tookP_core_mx (s : State) (rs : List PredNum) : (s.tookP rs).core.mx = s.core.mx := by
  obtain ⟨m, h⟩ := s.tookP_eq rs; rw [h]
@[simp] theorem State.tookP_core_wait (s : State) (rs : List PredNum) : (s.tookP rs).core.wait = s.core.wait := by
  obtain ⟨m, h⟩ := s.tookP_eq rs; rw [h]
@[simp] theorem State.tookP_core_regionBase (s : State) (rs : List PredNum) : (s.tookP rs).core.regionBase = s.core.regionBase := by
  obtain ⟨m, h⟩ := s.tookP_eq rs; rw [h]
@[simp] theorem State.tookP_core_regionLen (s : State) (rs : List PredNum) : (s.tookP rs).core.regionLen = s.core.regionLen := by
  obtain ⟨m, h⟩ := s.tookP_eq rs; rw [h]
@[simp] theorem State.tookP_core_resident (s : State) (rs : List PredNum) : (s.tookP rs).core.resident = s.core.resident := by
  obtain ⟨m, h⟩ := s.tookP_eq rs; rw [h]
@[simp] theorem State.tookP_core_own (s : State) (rs : List PredNum) : (s.tookP rs).core.own = s.core.own := by
  obtain ⟨m, h⟩ := s.tookP_eq rs; rw [h]
@[simp] theorem State.tookP_core_lastArr (s : State) (rs : List PredNum) : (s.tookP rs).core.lastArr = s.core.lastArr := by
  obtain ⟨m, h⟩ := s.tookP_eq rs; rw [h]
@[simp] theorem State.tookP_core_issued (s : State) (rs : List PredNum) : (s.tookP rs).core.issued = s.core.issued := by
  obtain ⟨m, h⟩ := s.tookP_eq rs; rw [h]
@[simp] theorem State.tookP_mem (s : State) (rs : List PredNum) : (s.tookP rs).mem = s.mem := by
  obtain ⟨m, h⟩ := s.tookP_eq rs; rw [h]
@[simp] theorem State.tookP_tags (s : State) (rs : List PredNum) : (s.tookP rs).tags = s.tags := by
  obtain ⟨m, h⟩ := s.tookP_eq rs; rw [h]
@[simp] theorem State.tookP_colours (s : State) (rs : List PredNum) : (s.tookP rs).colours = s.colours := by
  obtain ⟨m, h⟩ := s.tookP_eq rs; rw [h]
@[simp] theorem State.tookP_lines (s : State) (rs : List PredNum) : (s.tookP rs).lines = s.lines := by
  obtain ⟨m, h⟩ := s.tookP_eq rs; rw [h]
@[simp] theorem State.tookP_bad (s : State) (rs : List PredNum) : (s.tookP rs).bad = s.bad := by
  obtain ⟨m, h⟩ := s.tookP_eq rs; rw [h]
@[simp] theorem State.tookP_tlb (s : State) (rs : List PredNum) : (s.tookP rs).tlb = s.tlb := by
  obtain ⟨m, h⟩ := s.tookP_eq rs; rw [h]
@[simp] theorem State.tookP_flights (s : State) (rs : List PredNum) : (s.tookP rs).flights = s.flights := by
  obtain ⟨m, h⟩ := s.tookP_eq rs; rw [h]
@[simp] theorem State.tookP_posted (s : State) (rs : List PredNum) : (s.tookP rs).posted = s.posted := by
  obtain ⟨m, h⟩ := s.tookP_eq rs; rw [h]
@[simp] theorem State.tookP_timed (s : State) (rs : List PredNum) : (s.tookP rs).timed = s.timed := by
  obtain ⟨m, h⟩ := s.tookP_eq rs; rw [h]
@[simp] theorem State.tookP_contexts (s : State) (rs : List PredNum) : (s.tookP rs).contexts = s.contexts := by
  obtain ⟨m, h⟩ := s.tookP_eq rs; rw [h]
@[simp] theorem State.tookP_tasks (s : State) (rs : List PredNum) : (s.tookP rs).tasks = s.tasks := by
  obtain ⟨m, h⟩ := s.tookP_eq rs; rw [h]
@[simp] theorem State.tookP_clusters (s : State) (rs : List PredNum) : (s.tookP rs).clusters = s.clusters := by
  obtain ⟨m, h⟩ := s.tookP_eq rs; rw [h]
@[simp] theorem State.tookP_dies (s : State) (rs : List PredNum) : (s.tookP rs).dies = s.dies := by
  obtain ⟨m, h⟩ := s.tookP_eq rs; rw [h]
@[simp] theorem State.tookP_fns (s : State) (rs : List PredNum) : (s.tookP rs).fns = s.fns := by
  obtain ⟨m, h⟩ := s.tookP_eq rs; rw [h]
@[simp] theorem State.tookP_overlays (s : State) (rs : List PredNum) : (s.tookP rs).overlays = s.overlays := by
  obtain ⟨m, h⟩ := s.tookP_eq rs; rw [h]
@[simp] theorem State.tookP_hold (s : State) (rs : List PredNum) : (s.tookP rs).hold = s.hold := by
  obtain ⟨m, h⟩ := s.tookP_eq rs; rw [h]
@[simp] theorem State.tookP_device (s : State) (rs : List PredNum) : (s.tookP rs).device = s.device := by
  obtain ⟨m, h⟩ := s.tookP_eq rs; rw [h]
@[simp] theorem State.tookP_weirs (s : State) (rs : List PredNum) : (s.tookP rs).weirs = s.weirs := by
  obtain ⟨m, h⟩ := s.tookP_eq rs; rw [h]
@[simp] theorem State.tookP_flumes (s : State) (rs : List PredNum) : (s.tookP rs).flumes = s.flumes := by
  obtain ⟨m, h⟩ := s.tookP_eq rs; rw [h]
@[simp] theorem State.tookPfx_g (s : State) (x : Pfx) (n : RegNum) : (s.tookPfx x).g n = s.g n := by
  obtain ⟨m, h⟩ := s.tookPfx_eq x; rw [h]; rfl
@[simp] theorem State.tookPfx_gint (s : State) (x : Pfx) (n : RegNum) : (s.tookPfx x).gint n = s.gint n := by
  obtain ⟨m, h⟩ := s.tookPfx_eq x; rw [h]; rfl
@[simp] theorem State.tookPfx_v (s : State) (x : Pfx) (n : RegNum) : (s.tookPfx x).v n = s.v n := by
  obtain ⟨m, h⟩ := s.tookPfx_eq x; rw [h]; rfl
@[simp] theorem State.tookPfx_p (s : State) (x : Pfx) (n : PredNum) : (s.tookPfx x).p n = s.p n := by
  obtain ⟨m, h⟩ := s.tookPfx_eq x; rw [h]; rfl
@[simp] theorem State.tookPfx_pc (s : State) (x : Pfx) : (s.tookPfx x).pc = s.pc := by
  obtain ⟨m, h⟩ := s.tookPfx_eq x; rw [h]; rfl
@[simp] theorem State.tookPfx_now (s : State) (x : Pfx) : (s.tookPfx x).now = s.now := by
  obtain ⟨m, h⟩ := s.tookPfx_eq x; rw [h]; rfl
@[simp] theorem State.tookPfx_itemMode (s : State) (x : Pfx) : (s.tookPfx x).itemMode = s.itemMode := by
  obtain ⟨m, h⟩ := s.tookPfx_eq x; rw [h]; rfl
@[simp] theorem State.tookPfx_onCulvert (s : State) (x : Pfx) : (s.tookPfx x).onCulvert = s.onCulvert := by
  obtain ⟨m, h⟩ := s.tookPfx_eq x; rw [h]; rfl
@[simp] theorem State.tookPfx_onSecurity (s : State) (x : Pfx) : (s.tookPfx x).onSecurity = s.onSecurity := by
  obtain ⟨m, h⟩ := s.tookPfx_eq x; rw [h]; rfl
@[simp] theorem State.tookPfx_identity (s : State) (x : Pfx) (sel : BitVec 4) : (s.tookPfx x).identity sel = s.identity sel := by
  obtain ⟨m, h⟩ := s.tookPfx_eq x; rw [h]; rfl
@[simp] theorem State.tookPfx_busMaster (s : State) (x : Pfx) : (s.tookPfx x).busMaster = s.busMaster := by
  obtain ⟨m, h⟩ := s.tookPfx_eq x; rw [h]; rfl
@[simp] theorem State.tookPfx_ownTask (s : State) (x : Pfx) : (s.tookPfx x).ownTask = s.ownTask := by
  obtain ⟨m, h⟩ := s.tookPfx_eq x; rw [h]; rfl
@[simp] theorem State.tookPfx_core_pcc (s : State) (x : Pfx) : (s.tookPfx x).core.pcc = s.core.pcc := by
  obtain ⟨m, h⟩ := s.tookPfx_eq x; rw [h]
@[simp] theorem State.tookPfx_core_csr (s : State) (x : Pfx) : (s.tookPfx x).core.csr = s.core.csr := by
  obtain ⟨m, h⟩ := s.tookPfx_eq x; rw [h]
@[simp] theorem State.tookPfx_core_agent (s : State) (x : Pfx) : (s.tookPfx x).core.agent = s.core.agent := by
  obtain ⟨m, h⟩ := s.tookPfx_eq x; rw [h]
@[simp] theorem State.tookPfx_core_owner (s : State) (x : Pfx) : (s.tookPfx x).core.owner = s.core.owner := by
  obtain ⟨m, h⟩ := s.tookPfx_eq x; rw [h]
@[simp] theorem State.tookPfx_core_run (s : State) (x : Pfx) : (s.tookPfx x).core.run = s.core.run := by
  obtain ⟨m, h⟩ := s.tookPfx_eq x; rw [h]
@[simp] theorem State.tookPfx_core_gPois (s : State) (x : Pfx) : (s.tookPfx x).core.gPois = s.core.gPois := by
  obtain ⟨m, h⟩ := s.tookPfx_eq x; rw [h]
@[simp] theorem State.tookPfx_core_vPois (s : State) (x : Pfx) : (s.tookPfx x).core.vPois = s.core.vPois := by
  obtain ⟨m, h⟩ := s.tookPfx_eq x; rw [h]
@[simp] theorem State.tookPfx_core_pPois (s : State) (x : Pfx) : (s.tookPfx x).core.pPois = s.core.pPois := by
  obtain ⟨m, h⟩ := s.tookPfx_eq x; rw [h]
@[simp] theorem State.tookPfx_core_handler (s : State) (x : Pfx) : (s.tookPfx x).core.handler = s.core.handler := by
  obtain ⟨m, h⟩ := s.tookPfx_eq x; rw [h]
@[simp] theorem State.tookPfx_core_pending (s : State) (x : Pfx) : (s.tookPfx x).core.pending = s.core.pending := by
  obtain ⟨m, h⟩ := s.tookPfx_eq x; rw [h]
@[simp] theorem State.tookPfx_core_dead (s : State) (x : Pfx) : (s.tookPfx x).core.dead = s.core.dead := by
  obtain ⟨m, h⟩ := s.tookPfx_eq x; rw [h]
@[simp] theorem State.tookPfx_core_last (s : State) (x : Pfx) : (s.tookPfx x).core.last = s.core.last := by
  obtain ⟨m, h⟩ := s.tookPfx_eq x; rw [h]
@[simp] theorem State.tookPfx_core_ident (s : State) (x : Pfx) : (s.tookPfx x).core.ident = s.core.ident := by
  obtain ⟨m, h⟩ := s.tookPfx_eq x; rw [h]
@[simp] theorem State.tookPfx_core_mx (s : State) (x : Pfx) : (s.tookPfx x).core.mx = s.core.mx := by
  obtain ⟨m, h⟩ := s.tookPfx_eq x; rw [h]
@[simp] theorem State.tookPfx_core_wait (s : State) (x : Pfx) : (s.tookPfx x).core.wait = s.core.wait := by
  obtain ⟨m, h⟩ := s.tookPfx_eq x; rw [h]
@[simp] theorem State.tookPfx_core_regionBase (s : State) (x : Pfx) : (s.tookPfx x).core.regionBase = s.core.regionBase := by
  obtain ⟨m, h⟩ := s.tookPfx_eq x; rw [h]
@[simp] theorem State.tookPfx_core_regionLen (s : State) (x : Pfx) : (s.tookPfx x).core.regionLen = s.core.regionLen := by
  obtain ⟨m, h⟩ := s.tookPfx_eq x; rw [h]
@[simp] theorem State.tookPfx_core_resident (s : State) (x : Pfx) : (s.tookPfx x).core.resident = s.core.resident := by
  obtain ⟨m, h⟩ := s.tookPfx_eq x; rw [h]
@[simp] theorem State.tookPfx_core_own (s : State) (x : Pfx) : (s.tookPfx x).core.own = s.core.own := by
  obtain ⟨m, h⟩ := s.tookPfx_eq x; rw [h]
@[simp] theorem State.tookPfx_core_lastArr (s : State) (x : Pfx) : (s.tookPfx x).core.lastArr = s.core.lastArr := by
  obtain ⟨m, h⟩ := s.tookPfx_eq x; rw [h]
@[simp] theorem State.tookPfx_core_issued (s : State) (x : Pfx) : (s.tookPfx x).core.issued = s.core.issued := by
  obtain ⟨m, h⟩ := s.tookPfx_eq x; rw [h]
@[simp] theorem State.tookPfx_mem (s : State) (x : Pfx) : (s.tookPfx x).mem = s.mem := by
  obtain ⟨m, h⟩ := s.tookPfx_eq x; rw [h]
@[simp] theorem State.tookPfx_tags (s : State) (x : Pfx) : (s.tookPfx x).tags = s.tags := by
  obtain ⟨m, h⟩ := s.tookPfx_eq x; rw [h]
@[simp] theorem State.tookPfx_colours (s : State) (x : Pfx) : (s.tookPfx x).colours = s.colours := by
  obtain ⟨m, h⟩ := s.tookPfx_eq x; rw [h]
@[simp] theorem State.tookPfx_lines (s : State) (x : Pfx) : (s.tookPfx x).lines = s.lines := by
  obtain ⟨m, h⟩ := s.tookPfx_eq x; rw [h]
@[simp] theorem State.tookPfx_bad (s : State) (x : Pfx) : (s.tookPfx x).bad = s.bad := by
  obtain ⟨m, h⟩ := s.tookPfx_eq x; rw [h]
@[simp] theorem State.tookPfx_tlb (s : State) (x : Pfx) : (s.tookPfx x).tlb = s.tlb := by
  obtain ⟨m, h⟩ := s.tookPfx_eq x; rw [h]
@[simp] theorem State.tookPfx_flights (s : State) (x : Pfx) : (s.tookPfx x).flights = s.flights := by
  obtain ⟨m, h⟩ := s.tookPfx_eq x; rw [h]
@[simp] theorem State.tookPfx_posted (s : State) (x : Pfx) : (s.tookPfx x).posted = s.posted := by
  obtain ⟨m, h⟩ := s.tookPfx_eq x; rw [h]
@[simp] theorem State.tookPfx_timed (s : State) (x : Pfx) : (s.tookPfx x).timed = s.timed := by
  obtain ⟨m, h⟩ := s.tookPfx_eq x; rw [h]
@[simp] theorem State.tookPfx_contexts (s : State) (x : Pfx) : (s.tookPfx x).contexts = s.contexts := by
  obtain ⟨m, h⟩ := s.tookPfx_eq x; rw [h]
@[simp] theorem State.tookPfx_tasks (s : State) (x : Pfx) : (s.tookPfx x).tasks = s.tasks := by
  obtain ⟨m, h⟩ := s.tookPfx_eq x; rw [h]
@[simp] theorem State.tookPfx_clusters (s : State) (x : Pfx) : (s.tookPfx x).clusters = s.clusters := by
  obtain ⟨m, h⟩ := s.tookPfx_eq x; rw [h]
@[simp] theorem State.tookPfx_dies (s : State) (x : Pfx) : (s.tookPfx x).dies = s.dies := by
  obtain ⟨m, h⟩ := s.tookPfx_eq x; rw [h]
@[simp] theorem State.tookPfx_fns (s : State) (x : Pfx) : (s.tookPfx x).fns = s.fns := by
  obtain ⟨m, h⟩ := s.tookPfx_eq x; rw [h]
@[simp] theorem State.tookPfx_overlays (s : State) (x : Pfx) : (s.tookPfx x).overlays = s.overlays := by
  obtain ⟨m, h⟩ := s.tookPfx_eq x; rw [h]
@[simp] theorem State.tookPfx_hold (s : State) (x : Pfx) : (s.tookPfx x).hold = s.hold := by
  obtain ⟨m, h⟩ := s.tookPfx_eq x; rw [h]
@[simp] theorem State.tookPfx_device (s : State) (x : Pfx) : (s.tookPfx x).device = s.device := by
  obtain ⟨m, h⟩ := s.tookPfx_eq x; rw [h]
@[simp] theorem State.tookPfx_weirs (s : State) (x : Pfx) : (s.tookPfx x).weirs = s.weirs := by
  obtain ⟨m, h⟩ := s.tookPfx_eq x; rw [h]
@[simp] theorem State.tookPfx_flumes (s : State) (x : Pfx) : (s.tookPfx x).flumes = s.flumes := by
  obtain ⟨m, h⟩ := s.tookPfx_eq x; rw [h]

/-! ## The frame of an instruction -/

theorem State.predicate_of_runs {s : State} {x : Pfx} (h : s.runs x) : (s.tookPfx x).predicate x = true := by
  obtain ⟨m, hm⟩ := s.tookPfx_eq x
  rw [hm]
  unfold State.predicate
  cases hp : x.p with
  | false => rfl
  | true =>
    have h2 := (h hp).2
    cases hn : x.neg <;> simp_all [State.p]

/-- A scalar instruction that has its effect: its body from the state in which its predicate has been read. -/
theorem State.jumpInstr_eq {s : State} {x : Pfx} (h : s.runs x) (body : State → R State) :
    s.jumpInstr false false x body = s.settleBody (body (s.tookPfx x)) := by
  have hq := State.predicate_of_runs h
  unfold State.jumpInstr
  unfold State.tookPfx at hq ⊢
  cases hp : x.p with
  | false =>
    simp only [hp, Bool.false_eq_true, if_false] at hq ⊢
    show s.settleBody (if s.predicate x = true then body s else _) = _
    rw [if_pos hq]
  | true =>
    have hu := State.useP_eq (h hp).1
    simp only [hp, if_true, Bool.false_eq_true, if_false] at hq ⊢
    rw [hu]
    show s.settleBody (if (s.tookP [x.pred]).predicate x = true then body (s.tookP [x.pred]) else _) = _
    rw [if_pos hq]

theorem State.next_tookPfx (s : State) (x y : Pfx) : (s.tookPfx x).next y = s.next y := by
  obtain ⟨m, hm⟩ := s.tookPfx_eq x
  rw [hm]
  rfl

/-- A scalar instruction whose body answers a state. -/
theorem scalarOp_ok {x : Pfx} {s t : State} {body : State → R State} (h : s.runs x) (hb : body (s.tookPfx x) = .ok t) :
    scalarOp x s body = .next (t.ends (s.next x)) := by
  unfold scalarOp State.scalarInstr
  rw [State.jumpInstr_eq h, hb, State.next_tookPfx]
  rfl
/-- A control transfer whose body answers a state. -/
theorem jumpOp_ok {x : Pfx} {s t : State} {body : State → R State} (h : s.runs x) (hb : body (s.tookPfx x) = .ok t) :
    jumpOp x s body = .next t.done := by
  unfold jumpOp
  rw [State.jumpInstr_eq h, hb]
  rfl

/-- The registers that an instruction reads can be read after its predicate has been. -/
theorem State.readable_tookPfx {s : State} {x : Pfx} {rs : List RegNum} (h : s.readable rs) : (s.tookPfx x).readable rs := by
  simpa [State.readable] using h

/-- The general registers that a body reads first. -/
theorem State.useG_after {s : State} {x : Pfx} {rs : List RegNum} (h : s.readable rs) :
    (s.tookPfx x).useG rs = .ok (s.after x rs) := State.useG_eq (State.readable_tookPfx h)

end Sys2Proof.Machine
end

