-- ==== Sys2Proof/Laws/Access.lean ====
section
/-! SUPPORT. What the checks of an access look at: not which registers are inherited. -/

namespace Sys2Proof.Machine

/-- Two states that the checks of R59 cannot tell apart. -/
structure SameView (s t : State) : Prop where
  core    : t.core.agent = s.core.agent ∧ t.core.owner = s.core.owner ∧ t.core.run = s.core.run ∧ t.core.csr = s.core.csr
    ∧ t.core.ident = s.core.ident ∧ t.core.acts = s.core.acts
  mem     : t.mem = s.mem
  colours : t.colours = s.colours
  lines   : t.lines = s.lines
  bad     : t.bad = s.bad
  tlb     : t.tlb = s.tlb
  dies    : t.dies = s.dies
  clusters : t.clusters = s.clusters
  contexts : t.contexts = s.contexts
  corpses : t.corpses = s.corpses
  overlays : t.overlays = s.overlays
  hbms    : t.hbms = s.hbms
  withheld : t.withheld = s.withheld
  flights : t.flights = s.flights

theorem SameView.tlbLookup {s t : State} (h : SameView s t) (context : BitVec 8) (va : Nat) (bs : List Buffer) :
    t.tlbLookup context va bs = s.tlbLookup context va bs := by
  induction bs with
  | nil => rfl
  | cons b r ih => simp only [State.tlbLookup, h.tlb, ih]

theorem SameView.colourFail {s t : State} (h : SameView s t) (p : Place) (c : BitVec 4) (j k : Nat) :
    t.colourFail p c j k = s.colourFail p c j k := by
  induction k generalizing j with
  | zero => rfl
  | succ k ih =>
    have hc : ∀ i, t.colourOf p i = s.colourOf p i := fun i => by
      simp only [State.colourOf, State.granuleColour, h.colours, h.flights, h.core.1]
    simp only [State.colourFail, hc, ih]

theorem SameView.checkCap {s t : State} (h : SameView s t) (a : Access) : t.checkCap a = s.checkCap a := by
  simp only [State.checkCap, State.exemplarStore, State.itemMode, State.redirect, h.core.1, h.core.2.2.1,
    h.core.2.2.2.1, h.core.2.2.2.2.1, h.clusters]

theorem SameView.overlay {s t : State} (h : SameView s t) : t.overlay = s.overlay := by
  simp only [State.overlay, h.core.2.1, h.core.2.2.2.2.1, h.overlays]

theorem SameView.fitted {s t : State} (h : SameView s t) : t.fitted = s.fitted := by
  simp only [State.fitted, h.hbms, h.withheld, h.dies]

theorem SameView.ownLeaf {s t : State} (h : SameView s t) (va : Nat) : t.ownLeaf va = s.ownLeaf va := by
  simp only [State.ownLeaf, h.tlbLookup, State.mapOf, h.fitted, h.contexts, h.core.1, h.core.2.1, h.mem]

theorem SameView.resolve {s t : State} (h : SameView s t) (f r : Bool) (va : Addr) :
    t.resolve f r va = s.resolve f r va := by
  have hz : t.zone f va.toNat = s.zone f va.toNat := by
    simp only [State.zone, State.regionZone, State.tcmIndex, State.spadIndex, h.core.1, h.core.2.2.2.2.2, h.dies]
  have ht : t.translate va = s.translate va := by
    simp only [State.translate, h.ownLeaf, h.overlay, h.fitted, h.core.2.1]
  have hm : ∀ slot off, t.mountPlace va slot off = s.mountPlace va slot off := fun slot off => by
    simp only [State.mountPlace, h.contexts, h.corpses, h.fitted, h.core.2.1]
  simp only [State.resolve, State.windowLeaf, hz, ht, hm, h.core.2.1]

theorem SameView.dataBad {s t : State} (h : SameView s t) (p : Place) (n : Nat) : t.dataBad p n = s.dataBad p n := by
  have hk : ∀ e o, t.lineKey e o = s.lineKey e o := fun e o => by simp only [State.lineKey, h.contexts]
  have hf : ∀ k l, t.foreignLine k l = s.foreignLine k l := fun k l => by simp only [State.foreignLine, h.lines]
  unfold State.dataBad
  simp only [h.bad, hf, hk]

/-- The checks of an access come out the same. -/
theorem SameView.access {s t : State} (h : SameView s t) (a : Access) : t.access a = s.access a := by
  simp only [State.access, h.checkCap, h.resolve, h.overlay, h.colourFail, h.dataBad, h.core.2.1, h.tlb]

theorem SameView.after (s : State) (x : Pfx) (rs : List RegNum) : SameView s (s.after x rs) := by
  obtain ⟨m, h1⟩ := s.tookPfx_eq x
  obtain ⟨k, h2⟩ := (s.tookPfx x).took_eq rs
  unfold State.after
  rw [h2, h1]
  exact ⟨⟨rfl, rfl, rfl, rfl, rfl, rfl⟩, rfl, rfl, rfl, rfl, rfl, rfl, rfl, rfl, rfl, rfl, rfl, rfl, rfl⟩

@[simp] theorem State.after_access (s : State) (x : Pfx) (rs : List RegNum) (a : Access) :
    (s.after x rs).access a = s.access a := (SameView.after s x rs).access a

/-- One access checked whole. -/
theorem State.check_eq {s : State} {a : Access} {p : Place} (h : s.access a = .ok p) : s.check a = .ok (s.fillTlb p, p) := by
  simp [State.check, h]
theorem State.check_error {s : State} {a : Access} {k : Nat} {t : Trap} (h : s.access a = .error (k, t)) :
    s.check a = .error (.trap t) := by
  simp [State.check, h]

/-! ## With nothing on its way -/

theorem State.drain_quiet {s : State} (h : s.flights = []) (sel : Flight → Bool) : s.drain sel = s := by
  simp [State.drain, h]
/-- R361: no home refuses anything while no freeze is under way. -/
theorem State.pastFreeze_nil {s : State} (h : s.freezing = []) (n : BitVec 8) (k : BitVec 32) (d : BitVec 2) :
    s.pastFreeze n k d = false := by
  simp [State.pastFreeze, h]
theorem State.refuses_nil {s : State} (h : s.freezing = []) (f : Flight) : s.refuses f = false := by
  simp [State.refuses, State.refusesAt, State.pastFreeze_nil h]
theorem State.arrivals_held (s : State) (sel : Timed → Bool) (l : List Timed) (h : ∀ y ∈ l, y.arrival.isSome = true) :
    s.arrivals sel l = (l, []) := by
  induction l with
  | nil => rfl
  | cons x r ih =>
    have hx : x.arrival.isNone = false := by simpa using h x (List.mem_cons_self ..)
    simp [State.arrivals, ih fun y hy => h y (List.mem_cons_of_mem _ hy), hx]
theorem State.arriveAll_quiet {s : State} (h : s.quiet) (sel : Timed → Bool) : s.arriveAll sel = s := by
  simp [State.arriveAll, s.arrivals_held sel s.timed h.2.2]
theorem State.releaseBy_quiet {s : State} (h : s.quiet) (c : Core) (scope : BitVec 3) : s.releaseBy c scope = s := by
  simp [State.releaseBy, State.drain_quiet h.1, State.arriveOwn, State.arriveAll_quiet h, State.resolvePosted, h.2.1]
theorem State.release_quiet {s : State} (h : s.quiet) (scope : BitVec 3) : s.release scope = s :=
  State.releaseBy_quiet h s.core scope
theorem State.orderBefore_quiet {s : State} (h : s.quiet) (o : Ordering) : s.orderBefore o = s := by
  simp [State.orderBefore, State.release_quiet h]
theorem State.settle_quiet {s : State} (h : s.quiet) (l n : Nat) : s.settle l n = s := State.drain_quiet h.1 _
theorem State.beforeAccess_quiet {s : State} (h : s.quiet) (p : Place) (n : Nat) : s.beforeAccess p n = s := by
  simp [State.beforeAccess, State.release_quiet h, State.settle_quiet h]

theorem State.fillTlb_eq (s : State) (p : Place) : ∃ l, s.fillTlb p = { s with tlb := l } := by
  unfold State.fillTlb
  split
  · exact ⟨_, rfl⟩
  · exact ⟨s.tlb, rfl⟩
@[simp] theorem State.fillTlb_core (s : State) (p : Place) : (s.fillTlb p).core = s.core := by
  obtain ⟨l, h⟩ := s.fillTlb_eq p
  rw [h]
theorem State.fillTlb_quiet {s : State} (h : s.quiet) (p : Place) : (s.fillTlb p).quiet := by
  obtain ⟨l, hl⟩ := s.fillTlb_eq p
  rw [hl]
  exact h
theorem State.after_quiet {s : State} (h : s.quiet) (x : Pfx) (rs : List RegNum) : (s.after x rs).quiet := by
  simpa [State.quiet, State.after] using h

end Sys2Proof.Machine
end

