-- ==== Sys2Proof/Laws/Frame.lean ====
section
/-! SUPPORT. How instructions of each kind end: with a next state, with a fault, or with a wait; what a fetch leaves; a
plain load. -/

namespace Sys2Proof.Machine

/-! ## The end of a body -/

/-- A body that raises a fault: the fault is taken, and nothing of the body remains. -/
theorem scalarOp_trap {x : Pfx} {s : State} {t : Trap} {body : State → R State} (h : s.runs x)
    (hb : body (s.tookPfx x) = .error (.trap t)) : scalarOp x s body = .next (s.takeTrap t).done := by
  unfold scalarOp State.scalarInstr
  rw [State.jumpInstr_eq h, hb]
  rfl

/-- A body that waits: the instruction is executed again. -/
theorem scalarOp_waits {x : Pfx} {s : State} {w : Wait} {body : State → R State} (h : s.runs x)
    (hb : body (s.tookPfx x) = .error (.wait w)) : scalarOp x s body = .next (s.waits w) := by
  unfold scalarOp State.scalarInstr
  rw [State.jumpInstr_eq h, hb]
  rfl

theorem jumpOp_trap {x : Pfx} {s : State} {t : Trap} {body : State → R State} (h : s.runs x)
    (hb : body (s.tookPfx x) = .error (.trap t)) : jumpOp x s body = .next (s.takeTrap t).done := by
  unfold jumpOp
  rw [State.jumpInstr_eq h, hb]
  rfl

/-- R35: a scalar instruction whose predicate is false only advances the PC. -/
theorem scalarOp_off {x : Pfx} {s : State} (body : State → R State) (hp : x.p = true) (hr : s.readableP [x.pred])
    (hf : (s.p x.pred).getLsbD 0 = x.neg) : scalarOp x s body = .next ((s.after x []).ends (s.next x)) := by
  have e : s.tookPfx x = s.tookP [x.pred] := by simp [State.tookPfx, hp]
  have hq : (s.tookPfx x).predicate x = false := by
    have hp' : (s.tookPfx x).p x.pred = s.p x.pred := by
      obtain ⟨m, hm⟩ := s.tookPfx_eq x
      rw [hm]
      rfl
    simpa [State.predicate, hp', hp] using hf
  show Host.Outcome.next (s.jumpInstr false false x _) = _
  unfold State.jumpInstr
  simp only [Bool.false_eq_true, if_false, hp, if_true, State.useP_eq hr]
  rw [e] at hq
  show Host.Outcome.next (s.settleBody (if (s.tookP [x.pred]).predicate x = true then _ else _)) = _
  rw [hq, ← e]
  show Host.Outcome.next ((s.tookPfx x).setPc ((s.tookPfx x).next x)).done = _
  rw [State.next_tookPfx]
  rfl

/-- R48, R293: where the agent may execute them, the instructions of pages 4 to 7 are scalar ones. -/
theorem itemOp_eq {x : Pfx} {s : State} (body : State → R State) (h : s.onCulvert = false) :
    itemOp x s body = scalarOp x s body := by
  simp [itemOp, scalarOp, h]
theorem firmwareOp_eq {x : Pfx} {s : State} (body : State → R State) (h : s.onCulvert = false) (hm : s.itemMode = false) :
    firmwareOp x s body = scalarOp x s body := by
  simp [firmwareOp, scalarOp, h, hm]
theorem securityOp_eq {x : Pfx} {s : State} (body : State → R State) (h : s.onSecurity = true) :
    securityOp x s body = scalarOp x s body := by
  simp [securityOp, scalarOp, h]

/-- Where it may not, ILL or PRIV is raised whatever the predicate says. -/
theorem itemOp_ill {x : Pfx} {s : State} (body : State → R State) (h : s.onCulvert = true) :
    itemOp x s body = .next (s.takeTrap ⟨cILL, 0, 0⟩).done := by
  simp [itemOp, State.scalarInstr, State.jumpInstr, h]
theorem firmwareOp_priv {x : Pfx} {s : State} (body : State → R State) (h : s.onCulvert = false) (hm : s.itemMode = true) :
    firmwareOp x s body = .next (s.takeTrap ⟨cPRIV, 0, 0⟩).done := by
  simp [firmwareOp, State.scalarInstr, State.jumpInstr, h, hm]
theorem securityOp_ill {x : Pfx} {s : State} (body : State → R State) (h : s.onSecurity = false) :
    securityOp x s body = .next (s.takeTrap ⟨cILL, 0, 0⟩).done := by
  simp [securityOp, State.scalarInstr, State.jumpInstr, h]

/-- A vector instruction whose body answers a state, and one whose body raises a fault. -/
theorem vectorOp_ok {x : Pfx} {s t : State} {body : State → R State} (h : s.onCulvert = false) (hb : body s = .ok t) :
    vectorOp x s body = .next (t.ends (s.next x)) := by
  unfold vectorOp State.vectorInstr
  rw [h, hb]
  rfl
theorem vectorOp_trap {x : Pfx} {s : State} {t : Trap} {body : State → R State} (h : s.onCulvert = false)
    (hb : body s = .error (.trap t)) : vectorOp x s body = .next (s.takeTrap t).done := by
  unfold vectorOp State.vectorInstr
  rw [h, hb]
  rfl

/-! ## What a fetch leaves (R49 step 1) -/

/-- A fetch of parcels changes the buffered translations and the instruction cache of the agent in focus alone. -/
def State.fetched (s u : State) : Prop := u = { s with tlb := u.tlb, core := { s.core with icache := u.core.icache } }

theorem State.fetched_refl (s : State) : s.fetched s := rfl
theorem State.fetched_trans {s t u : State} (h : s.fetched t) (h' : t.fetched u) : s.fetched u := by
  unfold State.fetched at *
  rw [h', h]
theorem State.fetched_fillTlb (s : State) (p : Place) : s.fetched (s.fillTlb p) := by
  obtain ⟨l, hl⟩ := s.fillTlb_eq p
  rw [hl]
  rfl
theorem State.fetched_cacheParcel (s : State) (l : Nat) (q : Parcel) : s.fetched (s.cacheParcel l q) := rfl

theorem State.sendFetch_ne {s u : State} {p : Place} {q : Parcel} : s.sendFetch p ≠ .ok (u, q) := by
  intro h
  unfold State.sendFetch at h
  cases hi : s.issueAway p with
  | error e => rw [hi] at h; cases h
  | ok v => rw [hi] at h; cases h

theorem State.fetchAway_fetched {s u : State} {p : Place} {q : Parcel} (h : s.fetchAway p = .ok (u, q)) : s.fetched u := by
  unfold State.fetchAway at h
  split at h
  · split at h
    · split at h
      · cases h
        exact s.fetched_cacheParcel _ _
      · split at h <;> cases h
      · cases h
    · exact absurd h State.sendFetch_ne
  · exact absurd h State.sendFetch_ne

theorem State.fetchParcel_fetched {s u : State} {a : Addr} {q : Parcel} (h : s.fetchParcel a = .ok (u, q)) : s.fetched u := by
  unfold State.fetchParcel at h
  split at h
  · cases h
  · split at h
    · cases h
    · rename_i p _
      have e := s.fetched_fillTlb p
      dsimp only at h
      split at h
      · cases h
        exact e
      · split at h
        · exact State.fetched_trans e (State.fetchAway_fetched h)
        · cases h
          exact State.fetched_trans e (State.fetched_cacheParcel _ _ _)

theorem State.fetch_fetched {n : Nat} {s u : State} {a : Addr} {qs : List Parcel} (h : s.fetch a n = .ok (u, qs)) :
    s.fetched u := by
  induction n generalizing s u a qs with
  | zero => cases h; exact s.fetched_refl
  | succ n ih =>
    unfold State.fetch at h
    split at h
    · cases h
    · rename_i s1 q h1
      have e := State.fetchParcel_fetched h1
      split at h
      · split at h
        · cases h
        · rename_i h2
          have e2 := ih h2
          cases h
          exact State.fetched_trans e e2
      · cases h
        exact e

/-- What the parcels of an instruction leave: the translations, and of the agent its cache and the parcels themselves. -/
theorem State.parcels_eq {s u : State} {qs : List Parcel} (h : s.parcels = .ok (u, qs)) :
    u = { s with tlb := u.tlb, core := { s.core with icache := u.core.icache, ir := u.core.ir } } := by
  unfold State.parcels at h
  split at h
  · cases h; rfl
  · split at h
    · cases h
    · rename_i v rs hf
      have e := State.fetch_fetched hf
      unfold State.fetched at e
      cases h
      rw [e]

/-! ## A plain load of the module's own memory -/

/-- What a place holds depends on memory, its lines, the contexts whose keys protect them and the device alone. -/
theorem State.placeBytes_congr {s t : State} (hm : t.mem = s.mem) (hl : t.lines = s.lines) (hd : t.device = s.device)
    (hc : t.contexts = s.contexts) (p : Place) (n : Nat) : t.placeBytes p n = s.placeBytes p n := by
  have view : ∀ k m j, State.viewBytes t k j m = s.viewBytes k j m := by
    intro k m
    induction m with
    | zero => intro j; rfl
    | succ m ih => intro j; simp only [State.viewBytes, ih, State.viewByte, State.byteAt, hm, hl]
  simp only [State.placeBytes, State.keyOf, State.lineKey, view, State.readBytes, hm, hd, hc]
theorem State.fillTlb_placeBytes (s : State) (q p : Place) (n : Nat) : (s.fillTlb q).placeBytes p n = s.placeBytes p n := by
  obtain ⟨l, hl⟩ := s.fillTlb_eq q
  rw [hl]
  exact State.placeBytes_congr (s := s) (t := { s with tlb := l }) rfl rfl rfl rfl p n
theorem State.fillTlb_placeTag (s : State) (q p : Place) : (s.fillTlb q).placeTag p = s.placeTag p := by
  obtain ⟨l, hl⟩ := s.fillTlb_eq q
  rw [hl]
  rfl

theorem Place.notAway {p : Place} (hp : p.inModule) : isAway p.loc = false := by
  simp [isAway, hp.2.2.1, hp.2.2.2.1]

theorem Core.begins_wait {c : Core} (h : c.begins = true) (rs : List Request) : c.wait ≠ some (.host rs) := by
  intro e
  rw [Core.begins, e] at h
  cases h

/-- Loads of places that are not the host's or a peer's, with nothing on its way: they are performed at once, in order. -/
theorem State.issueLoads_here {s : State} (hq : s.quiet) (ps : List (Place × Nat)) (hp : ∀ q ∈ ps, isAway q.1.loc = false) :
    s.issueLoads ps = .ok (s, ps.map fun q => { s.request q.1 q.2 none with answer := some (s.readLocal q.1 q.2) }) := by
  induction ps with
  | nil => rfl
  | cons q r ih =>
    obtain ⟨p, n⟩ := q
    have ha : isAway p.loc = false := hp (p, n) (List.mem_cons_self ..)
    unfold State.issueLoads
    simp only [State.beforeAccess_quiet hq, ha, Bool.false_eq_true, if_false]
    rw [ih fun x hx => hp x (List.mem_cons_of_mem _ hx)]
    rfl

theorem State.gather_local {s : State} (ps : List (Place × Nat)) :
    gather (ps.map fun q => { s.request q.1 q.2 none with answer := some (s.readLocal q.1 q.2) })
      = .ok (ps.map fun q => (s.placeBytes q.1 q.2, s.placeTag q.1)) := by
  induction ps with
  | nil => rfl
  | cons q r ih =>
    simp only [List.map_cons, gather, Request.fault, State.readLocal] at ih ⊢
    rw [ih]
    rfl

/-- R85, R136: with nothing on its way, the loads of an instruction that begins answer the bytes and tags of their places. -/
theorem State.loads_here {s t : State} {o : Sys2Proof.Ordering} {check : State → R (State × List (Place × Nat))}
    {ps : List (Place × Nat)} (hb : s.core.begins = true) (h : check s = .ok (t, ps)) (hq : t.quiet) (hp : ∀ q ∈ ps, isAway q.1.loc = false) :
    s.loads o check = .ok (t, ps.map fun q => (t.placeBytes q.1 q.2, t.placeTag q.1)) := by
  unfold State.loads
  split
  · rename_i rs hw
    exact absurd hw (Core.begins_wait hb rs)
  · rw [h]
    show ((t.orderBefore o).issueLoads ps >>= fun x => x.1.answers x.2) = _
    rw [State.orderBefore_quiet hq, State.issueLoads_here hq ps hp]
    show t.answers _ = _
    unfold State.answers
    have hn : (ps.map fun q => { t.request q.1 q.2 none with answer := some (t.readLocal q.1 q.2) }).any (fun r => r.answer.isNone) = false := by
      simp
    rw [hn, State.gather_local]
    rfl

/-- R85: with nothing on its way, a load of a checked place that is not the host's or a peer's answers its bytes and its tag, and
changes what a walk has buffered alone. -/
theorem State.loadMem_here {s : State} {o : Sys2Proof.Ordering} {a : Access} {p : Place} (hb : s.core.begins = true)
    (hp : isAway p.loc = false) (hq : s.quiet) (h : s.access a = .ok p) :
    s.loadMem o a = .ok (s.fillTlb p, s.placeBytes p a.n, s.placeTag p) := by
  unfold State.loadMem
  rw [State.loads_here (ps := [(p, a.n)]) hb (by rw [State.check_eq h]; rfl) (State.fillTlb_quiet hq p) (by simpa using hp)]
  show Except.ok _ = _
  simp [State.fillTlb_placeBytes, State.fillTlb_placeTag]

end Sys2Proof.Machine
end

