-- ==== Sys2Proof/Laws/Memory.lean ====
section
/-! SUPPORT. Memory: every operation keeps the canonical form, and a read after a write answers what was written or
what stood there before. -/

namespace Sys2Proof.Machine

/-! ## Bytes -/

@[simp] theorem length_bytesOf (n v : Nat) : (bytesOf n v).length = n := by
  induction n generalizing v with
  | zero => rfl
  | succ n ih => simp [bytesOf, ih]

/-! ## Rising lists -/

theorem assocSorted_iff {α : Type} (m : Assoc α) : assocSorted m = true ↔ m.Pairwise (fun a b => a.1 < b.1) := by
  induction m with
  | nil => simp [assocSorted]
  | cons a r ih =>
    cases r with
    | nil => simp [assocSorted]
    | cons b r =>
      obtain ⟨k, v⟩ := a
      obtain ⟨k', v'⟩ := b
      simp only [assocSorted, Bool.and_eq_true, decide_eq_true_eq, ih, List.pairwise_cons]
      constructor
      · rintro ⟨h, h1, h2⟩
        refine ⟨?_, h1, h2⟩
        intro c hc
        rcases List.mem_cons.1 hc with rfl | hc
        · exact h
        · exact lt_trans h (h1 c hc)
      · rintro ⟨h, h1, h2⟩
        exact ⟨h _ List.mem_cons_self, h1, h2⟩

theorem mem_assocPut {α : Type} {m : Assoc α} {i : Nat} {v : α} {c : Nat × α} (h : c ∈ assocPut m i v) :
    c = (i, v) ∨ c ∈ m := by
  induction m with
  | nil => simpa [assocPut] using h
  | cons a r ih =>
    obtain ⟨k, w⟩ := a
    simp only [assocPut] at h
    split_ifs at h with h1 h2
    · subst h1
      rcases List.mem_cons.1 h with h | h
      · exact .inl h
      · exact .inr (List.mem_cons_of_mem _ h)
    · rcases List.mem_cons.1 h with h | h
      · exact .inl h
      · exact .inr h
    · rcases List.mem_cons.1 h with h | h
      · exact .inr (h ▸ List.mem_cons_self)
      · rcases ih h with h | h
        · exact .inl h
        · exact .inr (List.mem_cons_of_mem _ h)

theorem mem_assocDel {α : Type} {m : Assoc α} {i : Nat} {c : Nat × α} (h : c ∈ assocDel m i) : c ∈ m := by
  induction m with
  | nil => exact h
  | cons a r ih =>
    obtain ⟨k, w⟩ := a
    simp only [assocDel] at h
    split_ifs at h
    · exact List.mem_cons_of_mem _ h
    · exact h
    · rcases List.mem_cons.1 h with h | h
      · exact h ▸ List.mem_cons_self
      · exact List.mem_cons_of_mem _ (ih h)

theorem assocSorted_put {α : Type} {m : Assoc α} (i : Nat) (v : α) (h : assocSorted m = true) :
    assocSorted (assocPut m i v) = true := by
  rw [assocSorted_iff] at h ⊢
  induction m with
  | nil => simp [assocPut]
  | cons a r ih =>
    obtain ⟨k, w⟩ := a
    rw [List.pairwise_cons] at h
    simp only [assocPut]
    split_ifs with h1 h2
    · exact List.pairwise_cons.2 ⟨h.1, h.2⟩
    · refine List.pairwise_cons.2 ⟨?_, List.pairwise_cons.2 h⟩
      intro c hc
      rcases List.mem_cons.1 hc with rfl | hc
      · exact h2
      · exact lt_trans h2 (h.1 c hc)
    · refine List.pairwise_cons.2 ⟨?_, ih h.2⟩
      intro c hc
      rcases mem_assocPut hc with rfl | hc
      · show k < i; omega
      · exact h.1 c hc

theorem assocSorted_del {α : Type} {m : Assoc α} (i : Nat) (h : assocSorted m = true) :
    assocSorted (assocDel m i) = true := by
  rw [assocSorted_iff] at h ⊢
  induction m with
  | nil => simp [assocDel]
  | cons a r ih =>
    obtain ⟨k, w⟩ := a
    have h' := List.pairwise_cons.1 h
    simp only [assocDel]
    split_ifs
    · exact h'.2
    · exact h
    · exact List.pairwise_cons.2 ⟨fun c hc => h'.1 c (mem_assocDel hc), ih h'.2⟩

theorem assocGet_of_lt {α : Type} {m : Assoc α} {i : Nat} (h : ∀ c ∈ m, i < c.1) : assocGet m i = none := by
  cases m with
  | nil => rfl
  | cons a r =>
    obtain ⟨k, w⟩ := a
    have hk : i < k := h _ List.mem_cons_self
    simp [assocGet, hk, Nat.ne_of_gt hk]

theorem assocGet_put_same {α : Type} (m : Assoc α) (i : Nat) (v : α) : assocGet (assocPut m i v) i = some v := by
  induction m with
  | nil => simp [assocPut, assocGet]
  | cons a r ih =>
    obtain ⟨k, w⟩ := a
    simp only [assocPut]
    split_ifs with h1 h2
    · simp [assocGet, h1]
    · simp [assocGet]
    · simp [assocGet, h1, h2, ih]

theorem assocGet_put_other {α : Type} (m : Assoc α) (i j : Nat) (v : α) (hij : j ≠ i) :
    assocGet (assocPut m i v) j = assocGet m j := by
  induction m with
  | nil => simp [assocPut, assocGet, hij.symm]
  | cons a r ih =>
    obtain ⟨k, w⟩ := a
    simp only [assocPut]
    split_ifs with h1 h2
    · have : k ≠ j := fun h => hij (h ▸ h1)
      simp [assocGet, this]
    · simp only [assocGet]
      split_ifs <;> first | rfl | omega
    · simp only [assocGet, ih]

theorem assocGet_del_same {α : Type} {m : Assoc α} (i : Nat) (h : assocSorted m = true) :
    assocGet (assocDel m i) i = none := by
  rw [assocSorted_iff] at h
  induction m with
  | nil => rfl
  | cons a r ih =>
    obtain ⟨k, w⟩ := a
    have h' := List.pairwise_cons.1 h
    simp only [assocDel]
    split_ifs with h1 h2
    · exact assocGet_of_lt fun c hc => h1 ▸ h'.1 c hc
    · simp [assocGet, h1, h2]
    · simp [assocGet, h1, h2, ih h'.2]

theorem assocGet_del_other {α : Type} {m : Assoc α} (i j : Nat) (h : assocSorted m = true) (hij : j ≠ i) :
    assocGet (assocDel m i) j = assocGet m j := by
  rw [assocSorted_iff] at h
  induction m with
  | nil => rfl
  | cons a r ih =>
    obtain ⟨k, w⟩ := a
    have h' := List.pairwise_cons.1 h
    simp only [assocDel]
    split_ifs with h1 h2
    · have hkj : k ≠ j := fun h => hij (h ▸ h1)
      simp only [assocGet, hkj, if_false]
      split_ifs with h3
      · exact assocGet_of_lt fun c hc => lt_trans h3 (h'.1 c hc)
      · rfl
    · rfl
    · simp only [assocGet, ih h'.2]

/-! ## The canonical form of memory -/

theorem Memory.wf_iff (m : List Host.Cell) :
    Memory.wf m = true ↔ assocSorted m = true ∧ ∀ c ∈ m, c.2 ≠ unlistedByte := by
  simp [Memory.wf]

/-- No operation lists a location twice, and none lists what an unlisted location reads as. -/
theorem memPut_wf {m : List Host.Cell} (l : Nat) (b : Byte) (h : Memory.wf m = true) :
    Memory.wf (memPut m l b) = true := by
  rw [Memory.wf_iff] at h ⊢
  unfold memPut
  split_ifs with hb
  · exact ⟨assocSorted_del l h.1, fun c hc => h.2 c (mem_assocDel hc)⟩
  · refine ⟨assocSorted_put l b h.1, fun c hc => ?_⟩
    rcases mem_assocPut hc with rfl | hc
    · exact hb
    · exact h.2 c hc

theorem memWrite_wf {m : List Host.Cell} (l : Nat) (bytes : List Byte) (h : Memory.wf m = true) :
    Memory.wf (memWrite m l bytes) = true := by
  induction bytes generalizing m l with
  | nil => exact h
  | cons b r ih => exact ih (l + 1) (memPut_wf l b h)

theorem memFilter_wf {m : List Host.Cell} (p : Host.Cell → Bool) (h : Memory.wf m = true) :
    Memory.wf (m.filter p) = true := by
  rw [Memory.wf_iff, assocSorted_iff] at h ⊢
  exact ⟨h.1.filter p, fun c hc => h.2 c (List.mem_filter.1 hc).1⟩

theorem memClear_wf {m : List Host.Cell} (lo n : Nat) (h : Memory.wf m = true) :
    Memory.wf (memClear m lo n) = true := memFilter_wf _ h

theorem memRange_wf {m : List Host.Cell} (lo n : Nat) (h : Memory.wf m = true) :
    Memory.wf (memRange m lo n) = true := memFilter_wf _ h

theorem memMerge_wf {m : List Host.Cell} (cells : List Host.Cell) (h : Memory.wf m = true) :
    Memory.wf (memMerge m cells) = true := by
  induction cells generalizing m with
  | nil => exact h
  | cons c r ih => exact ih (memPut_wf c.1 c.2 h)

/-! ## Reading after writing one byte -/

@[simp] theorem memGet_put_same {m : List Host.Cell} (l : Nat) (b : Byte) (h : Memory.wf m = true) :
    memGet (memPut m l b) l = b := by
  rw [Memory.wf_iff] at h
  unfold memGet memPut
  split_ifs with hb
  · simp [assocGet_del_same l h.1, hb]
  · simp [assocGet_put_same]

theorem memGet_put_other {m : List Host.Cell} (l k : Nat) (b : Byte) (h : Memory.wf m = true) (hk : k ≠ l) :
    memGet (memPut m l b) k = memGet m k := by
  rw [Memory.wf_iff] at h
  unfold memGet memPut
  split_ifs
  · rw [assocGet_del_other l k h.1 hk]
  · rw [assocGet_put_other m l k b hk]

/-! ## Reading after writing many bytes -/

/-- A write leaves every other location as it was. -/
theorem memGet_write_other {m : List Host.Cell} (l k : Nat) (bytes : List Byte) (h : Memory.wf m = true)
    (hk : k < l ∨ l + bytes.length ≤ k) : memGet (memWrite m l bytes) k = memGet m k := by
  induction bytes generalizing m l with
  | nil => rfl
  | cons b r ih =>
    simp only [List.length_cons] at hk
    rw [memWrite, ih (l + 1) (memPut_wf l b h) (by omega), memGet_put_other l k b h (by omega)]

/-- A read of the bytes just written answers them. -/
theorem memRead_write_same {m : List Host.Cell} (l : Nat) (bytes : List Byte) (h : Memory.wf m = true) :
    memRead (memWrite m l bytes) l bytes.length = bytes := by
  induction bytes generalizing m l with
  | nil => rfl
  | cons b r ih =>
    simp only [memWrite, List.length_cons, memRead]
    rw [memGet_write_other (l + 1) l r (memPut_wf l b h) (by omega), memGet_put_same l b h, ih (l + 1) (memPut_wf l b h)]

theorem memRead_write_other {m : List Host.Cell} (l k n : Nat) (bytes : List Byte) (h : Memory.wf m = true)
    (hk : k + n ≤ l ∨ l + bytes.length ≤ k) : memRead (memWrite m l bytes) k n = memRead m k n := by
  induction n generalizing k with
  | zero => rfl
  | succ n ih =>
    simp only [memRead]
    rw [memGet_write_other l k bytes h (by omega), ih (k + 1) (by omega)]

@[simp] theorem memRead_length (m : List Host.Cell) (l n : Nat) : (memRead m l n).length = n := by
  induction n generalizing l with
  | zero => rfl
  | succ n ih => simp [memRead, ih]

/-! ## Snapshots -/

theorem Snapshot.write_wf {x : Snapshot} (l : Nat) (bytes : List Byte) (h : Memory.wf x.mem = true) :
    Memory.wf (x.write l bytes).mem = true := memWrite_wf l bytes h

theorem Snapshot.writeCap_wf {x : Snapshot} (l : Nat) (bytes : List Byte) (tag : Bool) (h : Memory.wf x.mem = true) :
    Memory.wf (x.writeCap l bytes tag).mem = true := by
  unfold Snapshot.writeCap
  dsimp only
  split_ifs <;> exact memWrite_wf l bytes h

theorem Snapshot.setColour_mem (x : Snapshot) (l : Nat) (c : BitVec 4) : (x.setColour l c).mem = x.mem := by
  unfold Snapshot.setColour
  split_ifs <;> rfl

theorem Snapshot.copyFrom_wf {x : Snapshot} (src : Snapshot) (lo n dst : Nat) (h : Memory.wf x.mem = true) :
    Memory.wf (x.copyFrom src lo n dst).mem = true := memMerge_wf _ (memClear_wf dst n h)

theorem Snapshot.zero_wf {x : Snapshot} (lo n : Nat) (h : Memory.wf x.mem = true) :
    Memory.wf (x.zero lo n).mem = true := memClear_wf lo n h

theorem Snapshot.restore_wf {x : Snapshot} (v : Saved) (lo n : Nat) (h : Memory.wf x.mem = true) :
    Memory.wf (x.restore v lo n).mem = true := memMerge_wf _ (memClear_wf lo n h)

/-! ## The module's memory -/

theorem State.writeBytes_wf {s : State} (l : Nat) (bytes : List Byte) (h : Memory.wf s.mem = true) :
    Memory.wf (s.writeBytes l bytes).mem = true := memWrite_wf l bytes h

theorem State.writeCap_wf {s : State} (l : Nat) (bytes : List Byte) (tag : Bool) (h : Memory.wf s.mem = true) :
    Memory.wf (s.writeCap l bytes tag).mem = true := by
  unfold State.writeCap
  dsimp only
  split_ifs <;> exact memWrite_wf l bytes h

theorem State.setColourAt_mem (s : State) (l : Nat) (c : BitVec 4) : (s.setColourAt l c).mem = s.mem := by
  unfold State.setColourAt
  split_ifs <;> rfl

theorem State.takeLine_wf {s : State} (key : Nat) (line : Nat) (h : Memory.wf s.mem = true) :
    Memory.wf (s.takeLine key line).mem = true := by
  unfold State.takeLine
  dsimp only
  split_ifs
  · exact memWrite_wf _ _ h
  · exact h

theorem State.takeLines_wf {s : State} (key : Nat) (lines : List Nat) (h : Memory.wf s.mem = true) :
    Memory.wf (s.takeLines key lines).mem = true := by
  induction lines generalizing s with
  | nil => exact h
  | cons k r ih => exact ih (s.takeLine_wf key k h)

theorem State.markOwn_mem (s : State) (l n : Nat) : (s.markOwn l n).mem = s.mem := by
  unfold State.markOwn
  dsimp only
  split_ifs
  · rfl
  · split <;> rfl
  · rfl
  · rfl

/-- R58: a write of data reads back, and every other byte reads as before. -/
theorem State.readBytes_writeBytes_same {s : State} (l : Nat) (bytes : List Byte) (h : Memory.wf s.mem = true) :
    (s.writeBytes l bytes).readBytes l bytes.length = bytes := memRead_write_same l bytes h

theorem State.byteAt_writeBytes_other {s : State} (l k : Nat) (bytes : List Byte) (h : Memory.wf s.mem = true)
    (hk : k < l ∨ l + bytes.length ≤ k) : (s.writeBytes l bytes).byteAt k = s.byteAt k :=
  memGet_write_other l k bytes h hk

/-- R58: the granules that a write of data touches lose their tags. -/
theorem mem_tagsClear {t : List Nat} {l n g : Nat} :
    g ∈ tagsClear t l n ↔ g ∈ t ∧ ¬(granLo l 16 ≤ g ∧ g < granHi l n 16) := by
  simp [tagsClear]
  intro _
  omega

theorem State.reset_mem_wf : Memory.wf State.reset.mem = true := rfl

end Sys2Proof.Machine
end

