-- ==== Sys2Proof/Laws/Sampling.lean ====
section
/-! SUPPORT. What sampling and monitor channels note as an instruction begins and as it leaves the pipeline, and nothing
else (R405 to R409). -/

namespace Sys2Proof.Machine

/-- An instruction that begins counts the mark down, and of its core that alone changes. -/
theorem Core.countDown_eq (c : Core) (i : Sampled) :
    c.countDown i = { c with lfsr := (c.countDown i).lfsr, gap := (c.countDown i).gap, mark := (c.countDown i).mark } := by
  unfold Core.countDown
  split
  · rfl
  · split <;> rfl

/-- With sampling off, or for an instruction that goes on, nothing is counted. -/
theorem Core.countDown_off {c : Core} (h : c.csr.smpl.getLsbD 0 = false ∨ c.wait.isSome = true) (i : Sampled) : c.countDown i = c := by
  unfold Core.countDown
  have e : (!c.csr.smpl.getLsbD 0 || c.wait.isSome) = true := by
    rcases h with h | h
    · rw [h]; rfl
    · rw [h, Bool.or_true]
  rw [if_pos e]

/-- Each channel of the core's die may count, and nothing else changes but the free values drawn. -/
theorem State.countEvents_eq (s : State) (c : CoreId) (p : Progress) (i : Sampled) (b a : Core) :
    ∃ ds n, s.countEvents c p i b a = { s with dies := ds, free := n } := by
  simp only [State.countEvents]
  split
  · exact ⟨s.dies, s.free, rfl⟩
  · exact ⟨_, _, rfl⟩

/-- With no channel enabled on the die nothing is counted. -/
theorem State.countEvents_off {s : State} {c : CoreId} (h : ∀ m ∈ (s.dieAt c.die).monitors.toList, m.config.getLsbD 8 = false)
    (p : Progress) (i : Sampled) (b a : Core) : s.countEvents c p i b a = s := by
  have hn : (s.dieAt c.die).monitors.toList.any (Monitor.watches c.core) = false := by
    rw [List.any_eq_false]
    intro m hm
    unfold Monitor.watches
    rw [h m hm]
    rw [Bool.false_and]; exact Bool.false_ne_true
  unfold State.countEvents
  simp only [hn, Bool.not_false, if_true]

/-- An executed instruction changes a mark in no more than what it notes of it: which instruction it is stays. -/
theorem Mark.goOn_item (p : Progress) (before after : Core) (m : Mark) : (m.goOn p before after).of = m.of := by
  unfold Mark.goOn
  repeat' split
  all_goals rfl

end Sys2Proof.Machine
end

