-- ==== Sys2Proof/Laws/Sessions.lean ====
section
/-! SUPPORT. The connections of the security core: what an update of one changes, and the records of a session. -/

namespace Sys2Proof.Machine

/-- An update of a connection changes its function alone. -/
theorem State.setSpdm_eq (s : State) (f : BitVec 6) (x : Spdm) : s.setSpdm f x = { s with fns := (s.setSpdm f x).fns } := rfl
@[simp] theorem State.setSpdm_sec (s : State) (f : BitVec 6) (x : Spdm) : (s.setSpdm f x).sec = s.sec := rfl
@[simp] theorem State.setSpdm_core (s : State) (f : BitVec 6) (x : Spdm) : (s.setSpdm f x).core = s.core := rfl
@[simp] theorem State.setSpdm_mem (s : State) (f : BitVec 6) (x : Spdm) : (s.setSpdm f x).mem = s.mem := rfl
@[simp] theorem State.setSpdm_contexts (s : State) (f : BitVec 6) (x : Spdm) : (s.setSpdm f x).contexts = s.contexts := rfl
@[simp] theorem State.setSpdm_corpses (s : State) (f : BitVec 6) (x : Spdm) : (s.setSpdm f x).corpses = s.corpses := rfl

/-- A draw of the DRBG advances its counter alone. -/
@[simp] theorem State.drawn_fns (s : State) (n : Nat) : (s.drawn n).fns = s.fns := rfl
@[simp] theorem State.drawn_draws (s : State) (n : Nat) : (s.drawn n).sec.draws = s.sec.draws + n := rfl

/-- R394: a record opens as the request that it seals, and a longer one does not. -/
theorem Spdm.opens_sealed (x : Spdm) (request : List Byte) : x.opens (x.sealed false x.received request) request = true := by
  simp [Spdm.opens]
theorem Spdm.opens_not (x : Spdm) (b : Byte) (request : List Byte) :
    x.opens (b :: x.sealed false x.received request) request = false := by
  simp [Spdm.opens]

end Sys2Proof.Machine
end

