-- ==== Sys2Proof/Tests/Slice0.lean ====
section
/-! SUPPORT. Tests of the model: what the encodings cannot hold, words of the manual's encoding tables, effects that the manual
works out, and for every statement with hypotheses states that meet them. -/

open Sys2Proof Sys2Proof.Machine

namespace Sys2Proof.Tests

set_option Elab.async false

/-! ## States -/

/-- Prefixes: none; PFX.R; a predicate p1 with PFX.P. -/
def px : Pfx := ⟨0, false, false, false, 0, false, false⟩
def pp : Pfx := ⟨0, false, true, false, 1, false, false⟩
def o0 : Sys2Proof.Ordering := ⟨0, 0, false, 0⟩
def ot : Sys2Proof.Ordering := ⟨0, 0, true, 0⟩

def setReg (n : RegNum) (r : GReg) (s : State) : State := { s with core := { s.core with g := s.core.g.set n.toNat r } }
def setPred (n : PredNum) (r : PReg) (s : State) : State := { s with core := { s.core with p := s.core.p.set n.toNat r } }
/-- The whole space with the cursor at an address. -/
def at_ (a : Addr) : GReg := allSpace.setCursor a
def sealedAt (a : Addr) : GReg := mkCap 0 true 0x1F 0x8000 33 0 a

/-- Firmware of the security core: g1 = 7, g2 and g3 capabilities to its TCM, g4 sealed, g5 = 64, p1 true in element 0. -/
def fw : State :=
  setPred 1 1 (setReg 5 (intReg 64) (setReg 4 (sealedAt 0) (setReg 3 (at_ 0x2000) (setReg 2 (at_ 0x1000) (setReg 1 (intReg 7) State.reset)))))

def ctx1 : Ctx :=
  { num := 1, serial := 1, fn := 0, root := 0, counters := [], quota := 2 ^ 31, charged := 0, nextTask := 2, accession := 0,
    internal := [], mounts := [], lastSlot := none, area := 0, areaPa := 0x200000, trace := 0, tracePa := 0x400000, traceLog := 10,
    written := 0, migrating := none }
/-- A descriptor: one cluster of die 0, a prologue at 0x80000 with all of memory. -/
def desc1 : Desc :=
  { code := allSpace, arg := .null, entry := 0x80000, dies := 1, clusters := 1, cores := 1, cls := 1, sump := 4, flags := 0,
    sovp := 0, sovl := 0, result := allSpace, spad := [0x8100, 0, 0, 0], dweir := 1, pweir := 0, flumes := 1, step := 0, start := 0,
    waitctr := 0, waitval := 0, donectr := 0, flcfg := .null, zeros := true }
def c0 : CoreId := ⟨0, 0⟩
def task1 : Task :=
  { context := 1, num := 1, desc := desc1, flcfg := [], state := .running, cls := 1, seq := 0, accepted := 0, placed := [(0, 0)],
    shape := [8], slots := (upFrom 0 8).map fun k => coreOf 0 0 k, level := 0, n1 := 0, resident := false, queues := [(0, [])],
    retired1 := 0, retired2 := 0, live := 1, step := 0, armed := false, stopping := false, commands := [], weirs := [],
    flumes := [], saved := [], images := [], spads := [], halves := [], finished := [], revival := none, freezing := none }
/-- Core 0 of die 0 in the prologue of that task. -/
def item : State :=
  { fw with
    core := { fw.core with agent := .core c0, run := .item, owner := 1, ident := { Ident.none with task := 1 } },
    contexts := [(1, ctx1)], tasks := [task1], owners := [(0, 1)],
    clusters := [(0, { Cluster.reset with context := 1, inUse := true })] }

/-- What a check answers, or something else where it does not. -/
def okOr {ε α : Type} (d : α) (e : Except ε α) : α := match e with | .ok a => a | .error _ => d
def isOk {ε α : Type} (e : Except ε α) : Bool := match e with | .ok _ => true | .error _ => false
def nowhere : Place := ⟨0, .host, 0, none, .live, none, false⟩
def place (s : State) (a : Access) : Place := okOr nowhere (s.access a)
def load4 : Access := (memAccess (at_ 0x1000) 2 0x1000 4).load

/-- Pages of the host and of peer 5 in the host and peer window, as a core's buffers hold them; the function may master the bus. -/
def leafTo (host : Bool) (peer : BitVec 19) : Leaf :=
  { owner := 1, enc := 0, coloured := false, sc := false, x := true, w := true, r := true, host := host, peer := peer, pa := 0,
    size := 0x200000 }
def devAddr : Addr := 0x10000000000
def winAddr : Addr := 0x400000000000
def leads (l : Leaf) (s : State) : State :=
  ({ setReg 2 (at_ winAddr) s with tlb := [⟨.micro (.core c0), 1, winAddr.toNat, l⟩] }).setFn 0 { Fn.reset with master := true }
def toHost : State := leads (leafTo true 0) item
def toPeer : State := leads (leafTo false 5) item
def waitsFor (w : Wait) (s : State) : State := { s with core := { s.core with wait := some w } }
def pendingWith (rs : List FaultRec) (s : State) : State := { s with core := { s.core with pending := rs } }
/-- A request to the host, and its answer. -/
def requestOf (s : State) (a : Access) : Request := s.request (place s a) a.n none
def answered (r : Request) : Request := { r with answer := some (.returned (bytesOf r.n 9)) }

/-! ## What the encodings cannot hold (WellFormed)

Per check one ill-formed term, beside a well-formed one where they differ in one field. -/

def pr : Pfx := ⟨0, true, false, false, 0, false, false⟩
def p1 : Pfx := ⟨0, false, true, false, 0, false, false⟩
def pr1 : Pfx := ⟨0, true, true, false, 0, false, false⟩
def pm1 : Pfx := ⟨0, false, true, true, 0, false, false⟩
def pz1 : Pfx := ⟨0, false, true, false, 1, false, true⟩

/-- R25 to R29: registers 16 to 31, a third register and PFX.X need their prefixes; five prefixes do not exist; page 1
needs PFX.P; p0 is not negated. -/
theorem test_wf_refuses_registers_and_prefixes :
    (Instr.add px 1 2 1).WellFormed = true ∧ (Instr.add px 16 2 16).WellFormed = false ∧ (Instr.add px 1 2 3).WellFormed = false
      ∧ (Instr.mov px 1 16).WellFormed = false ∧ (Instr.mul px 1 2 1).WellFormed = false ∧ (Instr.mul p1 1 2 1).WellFormed = true
      ∧ (Instr.add ⟨1, false, false, false, 0, false, false⟩ 1 2 1).WellFormed = false
      ∧ (Instr.add ⟨0, false, true, false, 0, true, false⟩ 1 2 1).WellFormed = false
      ∧ (Instr.addi ⟨4, true, false, false, 0, false, false⟩ 1 2 0).WellFormed = false
      ∧ (Instr.callr px 16).WellFormed = false ∧ (Instr.trap pr 0).WellFormed = false ∧ (Instr.eret px).WellFormed = false
      ∧ (Instr.add pm1 1 2 1).WellFormed = false ∧ (Instr.add pz1 1 2 1).WellFormed = false := by decide
/-- R30, R31: immediates and offsets out of range, and a shift by 64. -/
theorem test_wf_refuses_immediates :
    (Instr.addi px 1 1 31).WellFormed = true ∧ (Instr.addi px 1 1 32).WellFormed = false ∧ (Instr.li px 1 (-32)).WellFormed = true
      ∧ (Instr.li px 1 (-33)).WellFormed = false ∧ (Instr.shli ⟨1, false, false, false, 0, false, false⟩ 1 1 64).WellFormed = false
      ∧ (Instr.shli ⟨1, false, false, false, 0, false, false⟩ 1 1 63).WellFormed = true
      ∧ (Instr.br px 32).WellFormed = false ∧ (Instr.br pr 0).WellFormed = false ∧ (Instr.beq px 1 2 2).WellFormed = false
      ∧ (Instr.beq px 1 2 1).WellFormed = true ∧ (Instr.ld px o0 2 1 2 1).WellFormed = false ∧ (Instr.ldk px o0 1 2 2).WellFormed = false
      ∧ (Instr.vaddi p1 .s32 1 1 32).WellFormed = false ∧ (Instr.vaddi p1 .s16 1 1 0).WellFormed = false := by decide
/-- R27, R37: the fields of PFX.M that a group does not accept. -/
theorem test_wf_refuses_orderings :
    (Instr.ld pm1 ⟨1, 5, false, 0⟩ 2 1 2 0).WellFormed = true ∧ (Instr.ld pm1 ⟨2, 5, false, 0⟩ 2 1 2 0).WellFormed = false
      ∧ (Instr.ld pm1 ⟨1, 6, false, 0⟩ 2 1 2 0).WellFormed = false ∧ (Instr.ld px ⟨1, 5, false, 0⟩ 2 1 2 0).WellFormed = false
      ∧ (Instr.st pm1 ⟨1, 5, false, 0⟩ 2 1 2 0).WellFormed = false ∧ (Instr.stx pm1 ⟨0, 1, false, 0⟩ 2 1 2 1 0).WellFormed = false
      ∧ (Instr.aadd pm1 ⟨3, 5, true, 0⟩ false 1 2 1 0).WellFormed = false ∧ (Instr.fence px o0).WellFormed = false
      ∧ (Instr.fence pm1 ⟨3, 5, false, 1⟩).WellFormed = false ∧ (Instr.fenceI pm1).WellFormed = false
      ∧ (Instr.mma pm1 ⟨0, 0, true, 0⟩ 0 0 0 0 0 false false 1).WellFormed = false
      ∧ (Instr.cpy p1 o0 1 2 3).WellFormed = false ∧ (Instr.cpy pm1 ⟨0, 0, true, 0⟩ 1 2 3).WellFormed = false := by decide
/-- Selectors, sizes, types and register runs that the manual does not assign. -/
theorem test_wf_refuses_fields :
    (Instr.rdid px 1 13).WellFormed = true ∧ (Instr.rdid px 1 14).WellFormed = false ∧ (Instr.tdead p1 1 6).WellFormed = false
      ∧ (Instr.exq p1 1 12).WellFormed = false ∧ (Instr.kget pr1 1 2 9).WellFormed = false ∧ (Instr.stat pr o0 5 1 2 1 0).WellFormed = false
      ∧ (Instr.stat px o0 2 1 2 1 0).WellFormed = false ∧ (Instr.pushs px 5 4).WellFormed = false ∧ (Instr.pushs pr 28 30).WellFormed = false
      ∧ (Instr.mdrain pr1 5 1 0).WellFormed = false ∧ (Instr.mdrain p1 4 1 0).WellFormed = false ∧ (Instr.mrq p1 1 0 4).WellFormed = false
      ∧ (Instr.aesk pr1 0 1 2).WellFormed = false ∧ (Instr.aese p1 false 1 2).WellFormed = false ∧ (Instr.trinv p1 1 2 3).WellFormed = false
      ∧ (Instr.mring p1 0 1 2).WellFormed = false ∧ (Instr.mma p1 o0 0 0 0 0 0 true false 0).WellFormed = false
      ∧ (Instr.mzero pr1 0).WellFormed = false := by decide
/-- R33, R34, R150: types that a form does not take. -/
theorem test_wf_refuses_types :
    (Instr.fadd pr1 .f64 1 2 1).WellFormed = true ∧ (Instr.fadd p1 .f64 1 2 1).WellFormed = false ∧ (Instr.fadd pr1 .e4m3 1 2 1).WellFormed = false
      ∧ (Instr.fsqrt pr1 .e5m2 1 2).WellFormed = false ∧ (Instr.fcvtf p1 .f64 .s64 1 2).WellFormed = false
      ∧ (Instr.vadd pr1 (.fp .f64) 1 2 1).WellFormed = false ∧ (Instr.vadd p1 (.fp .bf16) 1 2 1).WellFormed = false
      ∧ (Instr.vabs p1 (.int .s16) 1 2).WellFormed = false ∧ (Instr.vceq p1 (.int .s32) 1 2 3).WellFormed = false
      ∧ (Instr.vcvt pr1 (.fp .f32) (.int .s32) true 1 2).WellFormed = false ∧ (Instr.vcvt p1 (.fp .f32) (.int .s32) false 1 2).WellFormed = false
      ∧ (Instr.vsatn pr1 (.int .s32) (.int .s16) 1 2).WellFormed = false ∧ (Instr.vdot4 pr1 (.int .s32) 1 2 1).WellFormed = false
      ∧ (Instr.pand p1 1 2 3).WellFormed = false ∧ (Instr.vld p1 o0 .s16 1 2 0).WellFormed = false
      ∧ (Instr.vst pz1 o0 .s32 1 2 0).WellFormed = false ∧ (Instr.vlds p1 o0 .s32 1 2 3 0).WellFormed = false
      ∧ (Instr.vgth ⟨1, true, true, false, 0, false, false⟩ o0 .s32 1 2 3).WellFormed = false
      ∧ (Instr.vperm p1 .s32 1 2 3).WellFormed = false ∧ (Instr.vcmpr p1 .s64 1 2).WellFormed = false ∧ (Instr.vqnt pr1 false 9 1 2).WellFormed = false
      ∧ (Instr.vsprs pr1 .s64 1 2 3).WellFormed = false ∧ (Instr.vsel pz1 (.fp .f32) 1 2 1).WellFormed = false
      ∧ (Instr.flumw p1 1 2 3).WellFormed = false := by decide
/-- The steps that no word encodes. -/
theorem test_wf_refuses_events :
    (Instr.itemStart ⟨0, 0⟩).WellFormed = false ∧ (Instr.qtail 0 1).WellFormed = false ∧ (Instr.moduleReset []).WellFormed = false
      ∧ (Instr.culvertBeat ⟨0, 0, 0⟩).WellFormed = false ∧ (Instr.getVersion 0).WellFormed = false := by decide

/-! ## Decoding (R22 to R48)

Words put together bit by bit from the encoding tables of the instruction set chapters: OP, A, B, M of the base parcel, and the
fields of each prefix. One for every instruction that has a word. -/

theorem test_decode_words_1 :
    decode [0xF748, 0x00D4] = .ok (.add ⟨0, true, false, false, 0, false, false⟩ 19 21 9)
      ∧ decode [0xF748, 0x04D4] = .ok (.sub ⟨0, true, false, false, 0, false, false⟩ 19 21 9)
      ∧ decode [0xF748, 0x08D4] = .ok (.and ⟨0, true, false, false, 0, false, false⟩ 19 21 9)
      ∧ decode [0xF748, 0x0CD4] = .ok (.or ⟨0, true, false, false, 0, false, false⟩ 19 21 9)
      ∧ decode [0xF748, 0x10D4] = .ok (.xor ⟨0, true, false, false, 0, false, false⟩ 19 21 9)
      ∧ decode [0xF748, 0x14D4] = .ok (.shl ⟨0, true, false, false, 0, false, false⟩ 19 21 9)
      ∧ decode [0xF748, 0x18D4] = .ok (.shr ⟨0, true, false, false, 0, false, false⟩ 19 21 9)
      ∧ decode [0xF748, 0x1CD4] = .ok (.sar ⟨0, true, false, false, 0, false, false⟩ 19 21 9)
      ∧ decode [0xF748, 0x20D4] = .ok (.min ⟨0, true, false, false, 0, false, false⟩ 19 21 9)
      ∧ decode [0xF748, 0x24D4] = .ok (.max ⟨0, true, false, false, 0, false, false⟩ 19 21 9)
      ∧ decode [0xF748, 0x28D4] = .ok (.minz ⟨0, true, false, false, 0, false, false⟩ 19 21 9)
      ∧ decode [0xF748, 0x2CD4] = .ok (.maxz ⟨0, true, false, false, 0, false, false⟩ 19 21 9)
      ∧ decode [0xF748, 0x30D4] = .ok (.slt ⟨0, true, false, false, 0, false, false⟩ 19 21 9)
      ∧ decode [0xF748, 0x34D4] = .ok (.sltz ⟨0, true, false, false, 0, false, false⟩ 19 21 9)
      ∧ decode [0xF748, 0x38D4] = .ok (.seq ⟨0, true, false, false, 0, false, false⟩ 19 21 9)
      ∧ decode [0xF700, 0x3CD4] = .ok (.mov ⟨0, true, false, false, 0, false, false⟩ 19 21)
      ∧ decode [0xF3FE, 0xF648, 0x40FD] = .ok (.addi ⟨1, true, false, false, 0, false, false⟩ 19 9 (-67))
      ∧ decode [0xF3FE, 0xF648, 0x44FD] = .ok (.andi ⟨1, true, false, false, 0, false, false⟩ 19 9 (-67))
      ∧ decode [0xF3FE, 0xF648, 0x48FD] = .ok (.ori ⟨1, true, false, false, 0, false, false⟩ 19 9 (-67))
      ∧ decode [0xF3FE, 0xF648, 0x4CFD] = .ok (.xori ⟨1, true, false, false, 0, false, false⟩ 19 9 (-67))
      ∧ decode [0xF648, 0x50CD] = .ok (.shli ⟨0, true, false, false, 0, false, false⟩ 19 9 13)
      ∧ decode [0xF648, 0x54CD] = .ok (.shri ⟨0, true, false, false, 0, false, false⟩ 19 9 13)
      ∧ decode [0xF648, 0x58CD] = .ok (.sari ⟨0, true, false, false, 0, false, false⟩ 19 9 13)
      ∧ decode [0xF3FE, 0xF648, 0x5CFD] = .ok (.slti ⟨1, true, false, false, 0, false, false⟩ 19 9 (-67))
      ∧ decode [0x60FA] = .ok (.li ⟨0, false, false, false, 0, false, false⟩ 3 (-6))
      ∧ decode [0xF003, 0x64D7] = .ok (.lea ⟨1, false, false, false, 0, false, false⟩ 3 5 15)
      ∧ decode [0x6835] = .ok (.br ⟨0, false, false, false, 0, false, false⟩ (-11))
      ∧ decode [0x8435] = .ok (.call ⟨0, false, false, false, 0, false, false⟩ (-11))
      ∧ decode [0xF003, 0x6CD7] = .ok (.beq ⟨1, false, false, false, 0, false, false⟩ 3 5 15)
      ∧ decode [0xF003, 0x70D7] = .ok (.bne ⟨1, false, false, false, 0, false, false⟩ 3 5 15) := by and_intros <;> decide +kernel

theorem test_decode_words_2 :
    decode [0xF003, 0x74D7] = .ok (.blt ⟨1, false, false, false, 0, false, false⟩ 3 5 15)
      ∧ decode [0xF003, 0x78D7] = .ok (.bge ⟨1, false, false, false, 0, false, false⟩ 3 5 15)
      ∧ decode [0xF003, 0x7CD7] = .ok (.blo ⟨1, false, false, false, 0, false, false⟩ 3 5 15)
      ∧ decode [0xF003, 0x80D7] = .ok (.bhs ⟨1, false, false, false, 0, false, false⟩ 3 5 15)
      ∧ decode [0xF600, 0x88C0] = .ok (.callr ⟨0, true, false, false, 0, false, false⟩ 19)
      ∧ decode [0xF600, 0x8CC0] = .ok (.jmpr ⟨0, true, false, false, 0, false, false⟩ 19)
      ∧ decode [0x90FA] = .ok (.loop ⟨0, false, false, false, 0, false, false⟩ 3 (-6))
      ∧ decode [0xF3FC, 0xFD44, 0x94D6] = .ok (.ld ⟨1, false, false, true, 0, false, false⟩ ⟨1, 2, false, 1⟩ 2 3 5 (-4))
      ∧ decode [0xF3FC, 0xFD44, 0x98D6] = .ok (.ldz ⟨1, false, false, true, 0, false, false⟩ ⟨1, 2, false, 1⟩ 2 3 5 (-4))
      ∧ decode [0xF3FC, 0xFE44, 0x9CD6] = .ok (.st ⟨1, false, false, true, 0, false, false⟩ ⟨2, 2, false, 1⟩ 2 3 5 (-4))
      ∧ decode [0xFFA0, 0xA0D6] = .ok (.ldk ⟨0, false, false, true, 0, false, false⟩ ⟨3, 5, false, 0⟩ 3 5 (-2))
      ∧ decode [0xFFA0, 0xA4D6] = .ok (.stk ⟨0, false, false, true, 0, false, false⟩ ⟨3, 5, false, 0⟩ 3 5 (-2))
      ∧ decode [0xF748, 0xA8D5] = .ok (.ldx ⟨0, true, false, false, 0, false, false⟩ ⟨0, 0, false, 0⟩ 1 19 21 9 0)
      ∧ decode [0xF748, 0xACD5] = .ok (.stx ⟨0, true, false, false, 0, false, false⟩ ⟨0, 0, false, 0⟩ 1 19 21 9 0)
      ∧ decode [0xF007, 0xF748, 0xFF80, 0xB0D7] = .ok (.aadd ⟨1, true, false, true, 0, false, false⟩ ⟨3, 4, false, 0⟩ true 19 21 9 7)
      ∧ decode [0xF007, 0xF748, 0xFF80, 0xB4D7] = .ok (.aand ⟨1, true, false, true, 0, false, false⟩ ⟨3, 4, false, 0⟩ true 19 21 9 7)
      ∧ decode [0xF007, 0xF748, 0xFF80, 0xB8D7] = .ok (.aor ⟨1, true, false, true, 0, false, false⟩ ⟨3, 4, false, 0⟩ true 19 21 9 7)
      ∧ decode [0xF007, 0xF748, 0xFF80, 0xBCD7] = .ok (.axor ⟨1, true, false, true, 0, false, false⟩ ⟨3, 4, false, 0⟩ true 19 21 9 7)
      ∧ decode [0xF007, 0xF748, 0xFF80, 0xC0D7] = .ok (.amin ⟨1, true, false, true, 0, false, false⟩ ⟨3, 4, false, 0⟩ true 19 21 9 7)
      ∧ decode [0xF007, 0xF748, 0xFF80, 0xC4D7] = .ok (.amax ⟨1, true, false, true, 0, false, false⟩ ⟨3, 4, false, 0⟩ true 19 21 9 7)
      ∧ decode [0xF007, 0xF748, 0xFF80, 0xC8D7] = .ok (.aswp ⟨1, true, false, true, 0, false, false⟩ ⟨3, 4, false, 0⟩ true 19 21 9 7)
      ∧ decode [0xF007, 0xF748, 0xFF80, 0xCCD7] = .ok (.acas ⟨1, true, false, true, 0, false, false⟩ ⟨3, 4, false, 0⟩ true 19 21 9 7)
      ∧ decode [0xF54C, 0xD0D5] = .ok (.stat ⟨0, true, false, false, 0, false, false⟩ ⟨0, 0, false, 0⟩ 4 3 21 9 1)
      ∧ decode [0xF54C, 0xD4D5] = .ok (.ldnb ⟨0, true, false, false, 0, false, false⟩ ⟨0, 0, false, 0⟩ 4 3 21 9 1)
      ∧ decode [0xD8DC] = .ok (.pushs ⟨0, false, false, false, 0, false, false⟩ 3 7)
      ∧ decode [0xDCDC] = .ok (.pops ⟨0, false, false, false, 0, false, false⟩ 3 7)
      ∧ decode [0xE294] = .ok (.trap ⟨0, false, false, false, 0, false, false⟩ 0xA5)
      ∧ decode [0xF600, 0xE4EC] = .ok (.rdid ⟨0, true, false, false, 0, false, false⟩ 19 11)
      ∧ decode [0xF600, 0xE8C0] = .ok (.tnow ⟨0, true, false, false, 0, false, false⟩ 19)
      ∧ decode [0xFE60, 0xEC00] = .ok (.fence ⟨0, false, false, true, 0, false, false⟩ ⟨2, 3, false, 0⟩) := by and_intros <;> decide +kernel

theorem test_decode_words_3 :
    decode [0xEC04] = .ok (.fenceI ⟨0, false, false, false, 0, false, false⟩)
      ∧ decode [0xF748, 0xF880, 0x00D4] = .ok (.mul ⟨0, true, true, false, 0, false, false⟩ 19 21 9)
      ∧ decode [0xF748, 0xF880, 0x04D4] = .ok (.mulh ⟨0, true, true, false, 0, false, false⟩ 19 21 9)
      ∧ decode [0xF748, 0xF880, 0x08D4] = .ok (.mulhz ⟨0, true, true, false, 0, false, false⟩ 19 21 9)
      ∧ decode [0xF748, 0xF880, 0x0CD4] = .ok (.div ⟨0, true, true, false, 0, false, false⟩ 19 21 9)
      ∧ decode [0xF748, 0xF880, 0x10D4] = .ok (.divz ⟨0, true, true, false, 0, false, false⟩ 19 21 9)
      ∧ decode [0xF748, 0xF880, 0x14D4] = .ok (.rem ⟨0, true, true, false, 0, false, false⟩ 19 21 9)
      ∧ decode [0xF748, 0xF880, 0x18D4] = .ok (.remz ⟨0, true, true, false, 0, false, false⟩ 19 21 9)
      ∧ decode [0xF700, 0xF880, 0x1CD4] = .ok (.clz ⟨0, true, true, false, 0, false, false⟩ 19 21)
      ∧ decode [0xF700, 0xF880, 0x20D4] = .ok (.ctz ⟨0, true, true, false, 0, false, false⟩ 19 21)
      ∧ decode [0xF700, 0xF880, 0x24D4] = .ok (.popc ⟨0, true, true, false, 0, false, false⟩ 19 21)
      ∧ decode [0xF700, 0xF880, 0x28D4] = .ok (.brev ⟨0, true, true, false, 0, false, false⟩ 19 21)
      ∧ decode [0xF700, 0xF880, 0x2CD4] = .ok (.bswp ⟨0, true, true, false, 0, false, false⟩ 19 21)
      ∧ decode [0xF748, 0xF880, 0x30D4] = .ok (.bext ⟨0, true, true, false, 0, false, false⟩ 19 21 9)
      ∧ decode [0xF748, 0xF880, 0x34D4] = .ok (.bins ⟨0, true, true, false, 0, false, false⟩ 19 21 9)
      ∧ decode [0xF748, 0xF880, 0x38D4] = .ok (.rotl ⟨0, true, true, false, 0, false, false⟩ 19 21 9)
      ∧ decode [0xF748, 0xF880, 0x3CD4] = .ok (.rotr ⟨0, true, true, false, 0, false, false⟩ 19 21 9)
      ∧ decode [0xF748, 0xF880, 0x40D4] = .ok (.sel ⟨0, true, true, false, 0, false, false⟩ 19 21 9)
      ∧ decode [0xF748, 0xF880, 0x44D4] = .ok (.kinc ⟨0, true, true, false, 0, false, false⟩ 19 21 9)
      ∧ decode [0xF3FE, 0xF648, 0xF880, 0x48FD] = .ok (.kinci ⟨1, true, true, false, 0, false, false⟩ 19 9 (-67))
      ∧ decode [0xF748, 0xF880, 0x4CD4] = .ok (.kbnd ⟨0, true, true, false, 0, false, false⟩ 19 21 9)
      ∧ decode [0xF748, 0xF880, 0x50D4] = .ok (.kprm ⟨0, true, true, false, 0, false, false⟩ 19 21 9)
      ∧ decode [0xF748, 0xF880, 0x54D4] = .ok (.kcol ⟨0, true, true, false, 0, false, false⟩ 19 21 9)
      ∧ decode [0xF648, 0xF880, 0x58E0] = .ok (.kget ⟨0, true, true, false, 0, false, false⟩ 19 9 8)
      ∧ decode [0xF748, 0xF880, 0x5CD4] = .ok (.ktst ⟨0, true, true, false, 0, false, false⟩ 19 21 9)
      ∧ decode [0xF700, 0xF880, 0x60D4] = .ok (.kseal ⟨0, true, true, false, 0, false, false⟩ 19 21)
      ∧ decode [0xF748, 0xF880, 0x64D4] = .ok (.kuns ⟨0, true, true, false, 0, false, false⟩ 19 21 9)
      ∧ decode [0xF700, 0xF880, 0x68D4] = .ok (.kclr ⟨0, true, true, false, 0, false, false⟩ 19 21)
      ∧ decode [0xF748, 0xF880, 0x6CD4] = .ok (.kcur ⟨0, true, true, false, 0, false, false⟩ 19 21 9)
      ∧ decode [0xF700, 0xF880, 0x70D4] = .ok (.stg ⟨0, true, true, false, 0, false, false⟩ 19 21) := by and_intros <;> decide +kernel

theorem test_decode_words_4 :
    decode [0xF700, 0xF880, 0x74D4] = .ok (.ldg ⟨0, true, true, false, 0, false, false⟩ 19 21)
      ∧ decode [0xF74A, 0xF880, 0x78D4] = .ok (.fadd ⟨0, true, true, false, 0, false, false⟩ .f16 19 21 9)
      ∧ decode [0xF74A, 0xF880, 0x7CD4] = .ok (.fsub ⟨0, true, true, false, 0, false, false⟩ .f16 19 21 9)
      ∧ decode [0xF74A, 0xF880, 0x80D4] = .ok (.fmul ⟨0, true, true, false, 0, false, false⟩ .f16 19 21 9)
      ∧ decode [0xF74A, 0xF880, 0x84D4] = .ok (.ffma ⟨0, true, true, false, 0, false, false⟩ .f16 19 21 9)
      ∧ decode [0xF74A, 0xF880, 0x88D4] = .ok (.fdiv ⟨0, true, true, false, 0, false, false⟩ .f16 19 21 9)
      ∧ decode [0xF705, 0xF880, 0x8CD4] = .ok (.fsqrt ⟨0, true, true, false, 0, false, false⟩ .f64 19 21)
      ∧ decode [0xF74A, 0xF880, 0x90D4] = .ok (.fmin ⟨0, true, true, false, 0, false, false⟩ .f16 19 21 9)
      ∧ decode [0xF74A, 0xF880, 0x94D4] = .ok (.fmax ⟨0, true, true, false, 0, false, false⟩ .f16 19 21 9)
      ∧ decode [0xF74A, 0xF880, 0x98D4] = .ok (.feq ⟨0, true, true, false, 0, false, false⟩ .f16 19 21 9)
      ∧ decode [0xF74A, 0xF880, 0x9CD4] = .ok (.flt ⟨0, true, true, false, 0, false, false⟩ .f16 19 21 9)
      ∧ decode [0xF74A, 0xF880, 0xA0D4] = .ok (.fle ⟨0, true, true, false, 0, false, false⟩ .f16 19 21 9)
      ∧ decode [0xF772, 0xF880, 0xA4D4] = .ok (.fcvti ⟨0, true, true, false, 0, false, false⟩ .f16 .z8 true 19 21)
      ∧ decode [0xF719, 0xF880, 0xA8D4] = .ok (.fcvtf ⟨0, true, true, false, 0, false, false⟩ .bf16 .s64 19 21)
      ∧ decode [0xF715, 0xF880, 0xACD4] = .ok (.fcvtw ⟨0, true, true, false, 0, false, false⟩ .f64 .f16 19 21)
      ∧ decode [0xF880, 0xB0D1] = .ok (.csrr ⟨0, false, true, false, 0, false, false⟩ 3 0x11)
      ∧ decode [0xF001, 0xF648, 0xF880, 0xB4D0] = .ok (.csrw ⟨1, true, true, false, 0, false, false⟩ 19 9 0x50)
      ∧ decode [0xF001, 0xF648, 0xF880, 0xB8D0] = .ok (.csrs ⟨1, true, true, false, 0, false, false⟩ 19 9 0x50)
      ∧ decode [0xF001, 0xF648, 0xF880, 0xBCD0] = .ok (.csrc ⟨1, true, true, false, 0, false, false⟩ 19 9 0x50)
      ∧ decode [0xF748, 0xF880, 0xC0D4] = .ok (.srnd ⟨0, true, true, false, 0, false, false⟩ 19 21 9)
      ∧ decode [0xF74E, 0xF931, 0x00D5] = .ok (.vadd ⟨0, true, true, false, 6, false, true⟩ (.int .z8) 19 21 9)
      ∧ decode [0xF74E, 0xF931, 0x04D5] = .ok (.vsub ⟨0, true, true, false, 6, false, true⟩ (.int .z8) 19 21 9)
      ∧ decode [0xF74E, 0xF931, 0x08D5] = .ok (.vmul ⟨0, true, true, false, 6, false, true⟩ (.int .z8) 19 21 9)
      ∧ decode [0xF74E, 0xF931, 0x0CD5] = .ok (.vfma ⟨0, true, true, false, 6, false, true⟩ (.int .z8) 19 21 9)
      ∧ decode [0xF74E, 0xF931, 0x10D5] = .ok (.vfms ⟨0, true, true, false, 6, false, true⟩ (.int .z8) 19 21 9)
      ∧ decode [0xF74E, 0xF931, 0x14D5] = .ok (.vfnma ⟨0, true, true, false, 6, false, true⟩ (.int .z8) 19 21 9)
      ∧ decode [0xF74E, 0xF931, 0x18D5] = .ok (.vmin ⟨0, true, true, false, 6, false, true⟩ (.int .z8) 19 21 9)
      ∧ decode [0xF74E, 0xF931, 0x1CD5] = .ok (.vmax ⟨0, true, true, false, 6, false, true⟩ (.int .z8) 19 21 9)
      ∧ decode [0xF703, 0xF931, 0x20D4] = .ok (.vabs ⟨0, true, true, false, 6, false, true⟩ (.fp .e4m3) 19 21)
      ∧ decode [0xF703, 0xF931, 0x24D4] = .ok (.vneg ⟨0, true, true, false, 6, false, true⟩ (.fp .e4m3) 19 21) := by and_intros <;> decide +kernel

theorem test_decode_words_5 :
    decode [0xF749, 0xF934, 0x28D4] = .ok (.vdiv ⟨0, true, true, false, 6, true, false⟩ .bf16 19 21 9)
      ∧ decode [0xF704, 0xF931, 0x2CD4] = .ok (.vsqrt ⟨0, true, true, false, 6, false, true⟩ .e5m2 19 21)
      ∧ decode [0xF704, 0xF931, 0x30D4] = .ok (.vrcp ⟨0, true, true, false, 6, false, true⟩ .e5m2 19 21)
      ∧ decode [0xF704, 0xF931, 0x34D4] = .ok (.vrsq ⟨0, true, true, false, 6, false, true⟩ .e5m2 19 21)
      ∧ decode [0xF704, 0xF931, 0x38D4] = .ok (.vexp2 ⟨0, true, true, false, 6, false, true⟩ .e5m2 19 21)
      ∧ decode [0xF704, 0xF931, 0x3CD4] = .ok (.vlog2 ⟨0, true, true, false, 6, false, true⟩ .e5m2 19 21)
      ∧ decode [0xF74B, 0xF935, 0x40D5] = .ok (.vand ⟨0, true, true, false, 6, true, true⟩ .s64 19 21 9)
      ∧ decode [0xF74B, 0xF935, 0x44D5] = .ok (.vor ⟨0, true, true, false, 6, true, true⟩ .s64 19 21 9)
      ∧ decode [0xF74B, 0xF935, 0x48D5] = .ok (.vxor ⟨0, true, true, false, 6, true, true⟩ .s64 19 21 9)
      ∧ decode [0xF707, 0xF931, 0x4CD5] = .ok (.vnot ⟨0, true, true, false, 6, false, true⟩ .z64 19 21)
      ∧ decode [0xF74B, 0xF935, 0x50D5] = .ok (.vshl ⟨0, true, true, false, 6, true, true⟩ .s64 19 21 9)
      ∧ decode [0xF74B, 0xF935, 0x54D5] = .ok (.vshr ⟨0, true, true, false, 6, true, true⟩ .s64 19 21 9)
      ∧ decode [0xF74B, 0xF935, 0x58D5] = .ok (.vsar ⟨0, true, true, false, 6, true, true⟩ .s64 19 21 9)
      ∧ decode [0xF54A, 0xF931, 0x5CD4] = .ok (.vceq ⟨0, true, true, false, 6, false, true⟩ (.fp .f16) 3 21 9)
      ∧ decode [0xF54A, 0xF931, 0x60D4] = .ok (.vclt ⟨0, true, true, false, 6, false, true⟩ (.fp .f16) 3 21 9)
      ∧ decode [0xF54A, 0xF931, 0x64D4] = .ok (.vcle ⟨0, true, true, false, 6, false, true⟩ (.fp .f16) 3 21 9)
      ∧ decode [0xF74E, 0xF930, 0x68D5] = .ok (.vsel ⟨0, true, true, false, 6, false, false⟩ (.int .z8) 19 21 9)
      ∧ decode [0xF789, 0xF900, 0x6CD5] = .ok (.vcvt ⟨0, true, true, false, 0, false, false⟩ (.int .s16) (.fp .bf16) true 19 21)
      ∧ decode [0xF713, 0xF900, 0x70D4] = .ok (.vsatn ⟨0, true, true, false, 0, false, false⟩ (.fp .e4m3) (.fp .f16) 19 21)
      ∧ decode [0xF703, 0xF931, 0x74D4] = .ok (.vmov ⟨0, true, true, false, 6, false, true⟩ (.fp .e4m3) 19 21)
      ∧ decode [0xF703, 0xF931, 0x78D4] = .ok (.vbc ⟨0, true, true, false, 6, false, true⟩ (.fp .e4m3) 19 21)
      ∧ decode [0xF74C, 0xF931, 0x7CD5] = .ok (.vrand ⟨0, true, true, false, 6, false, true⟩ 19 21 9)
      ∧ decode [0xF703, 0xF930, 0x80D4] = .ok (.vradd ⟨0, true, true, false, 6, false, false⟩ (.fp .e4m3) 19 21)
      ∧ decode [0xF703, 0xF930, 0x84D4] = .ok (.vrmin ⟨0, true, true, false, 6, false, false⟩ (.fp .e4m3) 19 21)
      ∧ decode [0xF703, 0xF930, 0x88D4] = .ok (.vrmax ⟨0, true, true, false, 6, false, false⟩ (.fp .e4m3) 19 21)
      ∧ decode [0xF703, 0xF931, 0x8CD4] = .ok (.vscan ⟨0, true, true, false, 6, false, true⟩ (.fp .e4m3) 19 21)
      ∧ decode [0xF3FE, 0xF64A, 0xF900, 0x90FD] = .ok (.vaddi ⟨1, true, true, false, 0, false, false⟩ .s8 19 9 (-67))
      ∧ decode [0xF3FE, 0xF64A, 0xF900, 0x94FD] = .ok (.vmuli ⟨1, true, true, false, 0, false, false⟩ .s8 19 9 (-67))
      ∧ decode [0xF74A, 0xF931, 0x98D5] = .ok (.vdot4 ⟨0, true, true, false, 6, false, true⟩ (.int .s8) 19 21 9)
      ∧ decode [0xF448, 0xF900, 0x9CD4] = .ok (.pand ⟨0, true, true, false, 0, false, false⟩ 3 5 9) := by and_intros <;> decide +kernel

theorem test_decode_words_6 :
    decode [0xF448, 0xF900, 0xA0D4] = .ok (.por ⟨0, true, true, false, 0, false, false⟩ 3 5 9)
      ∧ decode [0xF448, 0xF900, 0xA4D4] = .ok (.pxor ⟨0, true, true, false, 0, false, false⟩ 3 5 9)
      ∧ decode [0xF931, 0xA8D4] = .ok (.pnot ⟨0, false, true, false, 6, false, true⟩ 3 5)
      ∧ decode [0xF501, 0xF931, 0xACD5] = .ok (.pset ⟨0, true, true, false, 6, false, true⟩ (.int .s16) 3 21)
      ∧ decode [0xF601, 0xF934, 0xB0D4] = .ok (.pcnt ⟨0, true, true, false, 6, true, false⟩ (.fp .bf16) 19 5)
      ∧ decode [0xF601, 0xF934, 0xB4D4] = .ok (.pfst ⟨0, true, true, false, 6, true, false⟩ (.fp .bf16) 19 5)
      ∧ decode [0xF931, 0xB8D4] = .ok (.pmov ⟨0, false, true, false, 6, false, true⟩ 3 5)
      ∧ decode [0xF701, 0xF9B0, 0xFD64, 0x00D6] = .ok (.vld ⟨0, true, true, true, 6, false, false⟩ ⟨1, 3, false, 1⟩ .s16 19 21 (-2))
      ∧ decode [0xF701, 0xF9B0, 0xFE64, 0x04D6] = .ok (.vst ⟨0, true, true, true, 6, false, false⟩ ⟨2, 3, false, 1⟩ .s16 19 21 (-2))
      ∧ decode [0xF74B, 0xF9B0, 0x08D5] = .ok (.vlds ⟨0, true, true, false, 6, false, false⟩ ⟨0, 0, false, 0⟩ .s64 19 21 9 1)
      ∧ decode [0xF74B, 0xF9B0, 0x0CD5] = .ok (.vsts ⟨0, true, true, false, 6, false, false⟩ ⟨0, 0, false, 0⟩ .s64 19 21 9 1)
      ∧ decode [0xF74A, 0xF9B4, 0x10D4] = .ok (.vgth ⟨0, true, true, false, 6, true, false⟩ ⟨0, 0, false, 0⟩ .s8 19 21 9)
      ∧ decode [0xF74A, 0xF9B4, 0x14D4] = .ok (.vsct ⟨0, true, true, false, 6, true, false⟩ ⟨0, 0, false, 0⟩ .s8 19 21 9)
      ∧ decode [0xF74A, 0xF9B4, 0x18D4] = .ok (.vldx ⟨0, true, true, false, 6, true, false⟩ ⟨0, 0, false, 0⟩ .s8 19 21 9)
      ∧ decode [0xF74A, 0xF9B4, 0x1CD4] = .ok (.vstx ⟨0, true, true, false, 6, true, false⟩ ⟨0, 0, false, 0⟩ .s8 19 21 9)
      ∧ decode [0xF74B, 0xF9B0, 0x20D5] = .ok (.vstat ⟨0, true, true, false, 6, false, false⟩ ⟨0, 0, false, 0⟩ .s64 19 21 9 1)
      ∧ decode [0xF74B, 0xF9B0, 0x24D5] = .ok (.vldnb ⟨0, true, true, false, 6, false, false⟩ ⟨0, 0, false, 0⟩ .s64 19 21 9 1)
      ∧ decode [0xF749, 0xF9B0, 0x28D4] = .ok (.vperm ⟨0, true, true, false, 6, false, false⟩ .s16 19 21 9)
      ∧ decode [0xF749, 0xF9B0, 0x2CD4] = .ok (.vzip ⟨0, true, true, false, 6, false, false⟩ .s16 19 21 9)
      ∧ decode [0xF749, 0xF9B0, 0x30D4] = .ok (.vuzp ⟨0, true, true, false, 6, false, false⟩ .s16 19 21 9)
      ∧ decode [0xF749, 0xF9B0, 0x34D4] = .ok (.vrot ⟨0, true, true, false, 6, false, false⟩ .s16 19 21 9)
      ∧ decode [0xF749, 0xF9B0, 0x38D4] = .ok (.vslid ⟨0, true, true, false, 6, false, false⟩ .s16 19 21 9)
      ∧ decode [0xF749, 0xF9B0, 0x3CD4] = .ok (.vext ⟨0, true, true, false, 6, false, false⟩ .s16 19 21 9)
      ∧ decode [0xF749, 0xF9B0, 0x40D4] = .ok (.vins ⟨0, true, true, false, 6, false, false⟩ .s16 19 21 9)
      ∧ decode [0xF701, 0xF9B1, 0x44D4] = .ok (.vcmpr ⟨0, true, true, false, 6, false, true⟩ .s16 19 21)
      ∧ decode [0xF701, 0xF9B1, 0x48D4] = .ok (.vexpn ⟨0, true, true, false, 6, false, true⟩ .s16 19 21)
      ∧ decode [0xF749, 0xF9B0, 0x4CD4] = .ok (.vtrn ⟨0, true, true, false, 6, false, false⟩ .s16 19 21 9)
      ∧ decode [0xF420, 0xF980, 0x52E8] = .ok (.vqnt ⟨0, true, true, false, 0, false, false⟩ false 4 11 10)
      ∧ decode [0xF744, 0xF980, 0x54D4] = .ok (.vdeq ⟨0, true, true, false, 0, false, false⟩ true 8 19 21)
      ∧ decode [0xF749, 0xF9B0, 0x58D4] = .ok (.vsprs ⟨0, true, true, false, 6, false, false⟩ .s16 19 21 9) := by and_intros <;> decide +kernel

theorem test_decode_words_7 :
    decode [0xF600, 0xFA00, 0x00C0] = .ok (.mfmt ⟨0, true, true, false, 0, false, false⟩ 19)
      ∧ decode [0xF648, 0xFA00, 0x04C8] = .ok (.mring ⟨0, true, true, false, 0, false, false⟩ 2 19 9)
      ∧ decode [0xF600, 0xFA00, 0x08C8] = .ok (.mprod ⟨0, true, true, false, 0, false, false⟩ 2 19)
      ∧ decode [0xF600, 0xFA00, 0x0DE8] = .ok (.mma ⟨0, true, true, false, 0, false, false⟩ ⟨0, 0, false, 0⟩ 3 1 2 false true true false 0)
      ∧ decode [0xF640, 0xFA00, 0xFC10, 0x1024] = .ok (.mmas ⟨0, true, true, true, 0, false, false⟩ ⟨0, 0, true, 0⟩ 0 0 1 2 true false 8)
      ∧ decode [0xFA00, 0x1408] = .ok (.mzero ⟨0, false, true, false, 0, false, false⟩ 2)
      ∧ decode [0xF500, 0xFA00, 0x1908] = .ok (.mdrain ⟨0, true, true, false, 0, false, false⟩ 4 4 2)
      ∧ decode [0xFA00, 0x1D54] = .ok (.mflag ⟨0, false, true, false, 0, false, false⟩ 5 1 true)
      ∧ decode [0xFA34, 0x2000] = .ok (.mwait ⟨0, false, true, false, 6, true, false⟩)
      ∧ decode [0xF600, 0xFA00, 0x24C0] = .ok (.mrst ⟨0, true, true, false, 0, false, false⟩ 19)
      ∧ decode [0xF500, 0xFA00, 0x29D4] = .ok (.mrq ⟨0, true, true, false, 0, false, false⟩ 7 1 5)
      ∧ decode [0xF748, 0xFA00, 0xFC10, 0x30D4] = .ok (.cpy ⟨0, true, true, true, 0, false, false⟩ ⟨0, 0, true, 0⟩ 19 21 9)
      ∧ decode [0xF700, 0xFA00, 0x34D4] = .ok (.cpyw ⟨0, true, true, false, 0, false, false⟩ 19 21)
      ∧ decode [0xF700, 0xFA00, 0x38D4] = .ok (.cpyq ⟨0, true, true, false, 0, false, false⟩ 19 21)
      ∧ decode [0xF748, 0xFA00, 0xFC10, 0x3CD4] = .ok (.xgth ⟨0, true, true, true, 0, false, false⟩ ⟨0, 0, true, 0⟩ 19 21 9)
      ∧ decode [0xF748, 0xFA00, 0xFC10, 0x40D4] = .ok (.xred ⟨0, true, true, true, 0, false, false⟩ ⟨0, 0, true, 0⟩ 19 21 9)
      ∧ decode [0xF748, 0xFA00, 0xFC10, 0x44D4] = .ok (.xcvt ⟨0, true, true, true, 0, false, false⟩ ⟨0, 0, true, 0⟩ 19 21 9)
      ∧ decode [0xF700, 0xFA00, 0x48D4] = .ok (.flume ⟨0, true, true, false, 0, false, false⟩ 19 21)
      ∧ decode [0xF748, 0xFA00, 0x4CD4] = .ok (.flumw ⟨0, true, true, false, 0, false, false⟩ 19 21 9)
      ∧ decode [0xF700, 0xFA80, 0x00D4] = .ok (.arrive ⟨0, true, true, false, 0, false, false⟩ 19 21)
      ∧ decode [0xF500, 0xFA80, 0x0414] = .ok (.waitb ⟨0, true, true, false, 0, false, false⟩ 21)
      ∧ decode [0xF700, 0xFA80, 0x08D4] = .ok (.barq ⟨0, true, true, false, 0, false, false⟩ 19 21)
      ∧ decode [0xF700, 0xFA80, 0x0CD4] = .ok (.gauge ⟨0, true, true, false, 0, false, false⟩ 19 21)
      ∧ decode [0xF600, 0xFA80, 0x10C0] = .ok (.twait ⟨0, true, true, false, 0, false, false⟩ 19)
      ∧ decode [0xF600, 0xFA80, 0x14F4] = .ok (.tdead ⟨0, true, true, false, 0, false, false⟩ 19 13)
      ∧ decode [0xF700, 0xFA80, 0x18D4] = .ok (.latq ⟨0, true, true, false, 0, false, false⟩ 19 21)
      ∧ decode [0xF748, 0xFA80, 0x1CD4] = .ok (.freeze ⟨0, true, true, false, 0, false, false⟩ 19 21 9)
      ∧ decode [0xFAB4, 0x2000] = .ok (.retire ⟨0, false, true, false, 6, true, false⟩)
      ∧ decode [0xF600, 0xFA80, 0x20C4] = .ok (.retireValue ⟨0, true, true, false, 0, false, false⟩ 19)
      ∧ decode [0xFAB4, 0x2400] = .ok (.yield ⟨0, false, true, false, 6, true, false⟩) := by and_intros <;> decide +kernel

theorem test_decode_words_8 :
    decode [0xF700, 0xFA80, 0x28D4] = .ok (.launch ⟨0, true, true, false, 0, false, false⟩ 19 21)
      ∧ decode [0xF700, 0xFA80, 0x2CD4] = .ok (.signal ⟨0, true, true, false, 0, false, false⟩ 19 21)
      ∧ decode [0xF700, 0xFA80, 0x30D4] = .ok (.waitc ⟨0, true, true, false, 0, false, false⟩ 19 21)
      ∧ decode [0xF600, 0xFA80, 0x34EC] = .ok (.exq ⟨0, true, true, false, 0, false, false⟩ 19 11)
      ∧ decode [0xFB34, 0x0000] = .ok (.eret ⟨0, false, true, false, 6, true, false⟩)
      ∧ decode [0xFB34, 0x0400] = .ok (.wfi ⟨0, false, true, false, 6, true, false⟩)
      ∧ decode [0xFB34, 0x0800] = .ok (.halt ⟨0, false, true, false, 6, true, false⟩)
      ∧ decode [0xF748, 0xFB00, 0x0CD4] = .ok (.trinv ⟨0, true, true, false, 0, false, false⟩ 19 21 9)
      ∧ decode [0xF700, 0xFB00, 0x10D4] = .ok (.kill ⟨0, true, true, false, 0, false, false⟩ 19 21)
      ∧ decode [0xF748, 0xFB00, 0x14D4] = .ok (.mount ⟨0, true, true, false, 0, false, false⟩ 19 21 9)
      ∧ decode [0xF748, 0xFB00, 0x18D4] = .ok (.clbl ⟨0, true, true, false, 0, false, false⟩ 19 21 9)
      ∧ decode [0xF748, 0xFB00, 0x1CD4] = .ok (.crd ⟨0, true, true, false, 0, false, false⟩ 19 21 9)
      ∧ decode [0xF748, 0xFB00, 0x20D4] = .ok (.revive ⟨0, true, true, false, 0, false, false⟩ 19 21 9)
      ∧ decode [0xF500, 0xFB00, 0x2414] = .ok (.umnt ⟨0, true, true, false, 0, false, false⟩ 21)
      ∧ decode [0xF748, 0xFB00, 0x28D4] = .ok (.jrnl ⟨0, true, true, false, 0, false, false⟩ 19 21 9)
      ∧ decode [0xF700, 0xFB00, 0x2CD4] = .ok (.tsync ⟨0, true, true, false, 0, false, false⟩ 19 21)
      ∧ decode [0xF748, 0xFB00, 0x30D4] = .ok (.ownr ⟨0, true, true, false, 0, false, false⟩ 19 21 9)
      ∧ decode [0xF748, 0xFB00, 0x34D4] = .ok (.smpc ⟨0, true, true, false, 0, false, false⟩ 19 21 9)
      ∧ decode [0xF700, 0xFB00, 0x38D4] = .ok (.dbgb ⟨0, true, true, false, 0, false, false⟩ 19 21)
      ∧ decode [0xF600, 0xFB80, 0x00C0] = .ok (.keccak ⟨0, true, true, false, 0, false, false⟩ 19)
      ∧ decode [0xF408, 0xFB80, 0x048C] = .ok (.aese ⟨0, true, true, false, 0, false, false⟩ true 2 3)
      ∧ decode [0xF400, 0xFB80, 0x088C] = .ok (.aesd ⟨0, true, true, false, 0, false, false⟩ false 2 3)
      ∧ decode [0xF418, 0xFB80, 0x0D14] = .ok (.aesk ⟨0, true, true, false, 0, false, false⟩ 3 4 5)
      ∧ decode [0xF748, 0xFB80, 0x10D4] = .ok (.gfmul ⟨0, true, true, false, 0, false, false⟩ 19 21 9)
      ∧ decode [0xF748, 0xFB80, 0x14D4] = .ok (.clmul ⟨0, true, true, false, 0, false, false⟩ 19 21 9) := by and_intros <;> decide +kernel

/-- The parcels that the manual writes out: R25's two examples, Fragment 3, and the item body of the worked program. -/
theorem test_decode_manual_words :
    decode [0xF004, 0xF234, 0xF159, 0x60F8] = .ok (.li ⟨3, false, false, false, 0, false, false⟩ 3 0x12345678)
      ∧ decode [0xF719, 0xF92D, 0x0C50] = .ok (.vfma ⟨0, true, true, false, 5, true, true⟩ (.fp .bf16) 17 20 3)
      ∧ decode [0xF719, 0xF92D, 0x0C51] = .ok (.vfma ⟨0, true, true, false, 5, true, true⟩ (.int .s16) 17 20 3)
      ∧ decode [0xF408, 0xF908, 0x0C80] = .ok (.vfma ⟨0, true, true, false, 1, false, false⟩ (.fp .f32) 2 0 1)
      ∧ decode [0xFA80, 0x1A50] = .ok (.latq ⟨0, false, true, false, 0, false, false⟩ 9 4)
      ∧ decode [0xF430, 0x5203] = .ok (.shli ⟨0, true, false, false, 0, false, false⟩ 8 6 3)
      ∧ decode [0xF440, 0xF989, 0x1888] = .ok (.vldx ⟨0, true, true, false, 1, false, true⟩ o0 .s32 2 2 8)
      ∧ decode [0xF909, 0x0884] = .ok (.vmul ⟨0, false, true, false, 1, false, true⟩ (.fp .f32) 2 1 2)
      ∧ decode [0xF908, 0x8088] = .ok (.vradd ⟨0, false, true, false, 1, false, false⟩ (.fp .f32) 2 2)
      ∧ decode [0xF400, 0xF980, 0x3E48] = .ok (.vext ⟨0, true, true, false, 0, false, false⟩ .s32 9 2 0)
      ∧ decode [0xF418, 0xF880, 0x46E8] = .ok (.kinc ⟨0, true, true, false, 0, false, false⟩ 11 10 3)
      ∧ decode [0xF42A, 0xD26C] = .ok (.stat ⟨0, true, false, false, 0, false, false⟩ o0 2 9 11 5 0)
      ∧ decode [0xFA80, 0x031C] = .ok (.arrive ⟨0, false, true, false, 0, false, false⟩ 12 7)
      ∧ decode [0xF003, 0x7183] = .ok (.bne ⟨1, false, false, false, 0, false, false⟩ 6 0 15)
      ∧ decode [0x93BA] = .ok (.loop px 14 (-6)) := by and_intros <;> decide
/-- R25: with TY 0b101 in the floating class the manual's example raises ILL. -/
theorem test_decode_reserved_type : (match decode [0xF71D, 0xF92D, 0x0C50] with | .ok _ => false | .error _ => true) = true := by decide

/-! ## States that meet the hypotheses of the statements -/

/-! ## Witnesses: states that meet what the statements assume -/

/-- With no freeze under way memory is plain where nothing is held back or bad. -/
theorem plain {s : State} (hf : s.freezing = [])
    (h : s.quiet ∧ s.hold = false ∧ s.bad = [] ∧ Memory.wf s.mem = true ∧ s.tags.Pairwise (· < ·)) : s.plainMemory :=
  ⟨h.1, h.2.1, h.2.2.1, State.pastFreeze_nil hf, h.2.2.2.1, h.2.2.2.2⟩

theorem witness_IntegerOpsWriteTheirResults :
    (fw.runs px ∧ fw.readable [1, 5] ∧ fw.readable [31, 0]) ∧ fw.runs pp ∧ item.runs px ∧ fw.readable [2]
      ∧ (63 : Word).toNat < 64 ∧ 64 ≤ (64 : Word).toNat ∧ 64 ≤ (0xFFFFFFFFFFFFFFFF : Word).toNat := by and_intros <;> decide
/-- R153, R155: 2^24 + 1/2 in FP32, and the same beyond its range. -/
theorem witness_ResultsRoundToTheNearestOrDirectedValue :
    let f := fmtOf .f32
    ((2 ^ 25 + 1) % 2 ^ 1 ≠ 0 ∧ 2 ^ (f.fbits + 1) ≤ (2 ^ 25 + 1) / 2 ^ 1 ∧ (-149 : Int) ≤ 1 - (f.bias : Int) - f.fbits)
      ∧ (f.round .rne false false (2 ^ 24) 0 true).2 &&& eOF = 0 ∧ (f.round .rne false false (2 ^ 24) 200 true).2 &&& eOF ≠ 0
      ∧ (f.round .rtz false true (2 ^ 24) 0 true).2 &&& eNX ≠ 0 := by and_intros <;> decide +kernel
theorem witness_ControlTransfersMoveThePc :
    fw.runs px ∧ fw.readable [1, 2] ∧ ((fw.g 2).tag = true ∧ (fw.g 2).isSealed = false) ∧ (fw.g 1).tag = false
      ∧ (fw.g 4).tag = true ∧ (fw.g 4).isSealed = true := by and_intros <;> decide
theorem witness_TrapIdentityAndTime :
    fw.runs px ∧ (13 : BitVec 4).toNat < 14 ∧ 14 ≤ (14 : BitVec 4).toNat ∧ 14 ≤ (15 : BitVec 4).toNat := by and_intros <;> decide

def idx : Access := indexAccess (fw.g 2) 2 (fw.gint 1) 4 0
def wide : Access := memAccess (fw.g 2) 2 0x1000 16
def out (s : State) (n : Nat) : Access := (memAccess (s.g 2) 2 winAddr n).load
/-- A granule with a tag where the access lies. -/
def tagged : State := { fw with tags := [(place fw wide.load).loc / 16], mem := memPut [] (place fw wide.load).loc 5 }
theorem witness_LoadsReadTheirBytes :
    (fw.runs px ∧ fw.quiet ∧ fw.core.begins = true ∧ isAway (place fw load4).loc = false ∧ fw.readable [2] ∧ fw.access load4 = .ok (place fw load4))
      ∧ (fw.readable [2, 1] ∧ fw.access idx.load = .ok (place fw idx.load) ∧ isAway (place fw idx.load).loc = false)
      ∧ (tagged.access wide.load = .ok (place tagged wide.load) ∧ tagged.placeTag (place tagged wide.load) = true
        ∧ (tagged.g 2).permK = true)
      ∧ fw.access wide.load = .ok (place fw wide.load) ∧ fw.placeTag (place fw wide.load) = false
      ∧ (∀ s ∈ [toHost, toPeer], s.runs px ∧ s.quiet ∧ s.core.begins = true ∧ s.readable [2, 1]
        ∧ (∀ n ∈ [1, 8, 16], s.access (out s n) = .ok (place s (out s n)) ∧ isAway (place s (out s n)).loc = true
          ∧ s.awayRefused s.core.owner (place s (out s n)).loc = none ∧ s.peerHeld (place s (out s n)).loc = false)
        ∧ s.access (indexAccess (s.g 2) 2 (s.gint 0) 4 0).load = .ok (place s (indexAccess (s.g 2) 2 (s.gint 0) 4 0).load))
      ∧ (let r := answered (requestOf toHost (out toHost 8))
        (waitsFor (.host [r]) toHost).runs px ∧ (waitsFor (.host [r]) toHost).core.wait = some (.host [r])
          ∧ r.answer = some (.returned (bytesOf 8 9))) := by and_intros <;> decide
theorem witness_StoresWriteTheirBytesAlone :
    fw.plainMemory ∧ fw.runs px ∧ fw.readable [2, 1] ∧ fw.readable [2, 1, 1]
      ∧ ((place fw wide.store).inModule ∧ fw.access wide.store = .ok (place fw wide.store))
      ∧ ((place fw idx.store).inModule ∧ fw.access idx.store = .ok (place fw idx.store))
      ∧ (fw.access (wide.storeCap true) = .ok (place fw (wide.storeCap true)) ∧ (place fw (wide.storeCap true)).loc % 16 = 0) :=
  ⟨plain rfl (by decide), by and_intros <;> decide⟩

def word8 : Access := (memAccess (fw.g 2) 2 0x1000 8).atomic
theorem witness_AtomicsReadModifyWrite :
    fw.plainMemory ∧ fw.runs px ∧ fw.core.begins = true ∧ fw.readable [2, 1] ∧ fw.readable [1]
      ∧ (place fw word8).inModule ∧ fw.access word8 = .ok (place fw word8)
      ∧ natOf (fw.placeBytes (place fw word8) 8) = (fw.gint 0).toNat % 2 ^ (8 * 8)
      ∧ natOf (fw.placeBytes (place fw word8) 8) ≠ (fw.gint 1).toNat % 2 ^ (8 * 8) :=
  ⟨plain rfl (by decide), by and_intros <;> decide⟩

def sp : State := setReg 6 (intReg 1000) (setReg 2 (at_ 0x100000) item)
def shared : Access := memAccess (sp.g 2) 2 0x100000 4
def zoneOf (s : State) (p : Place) : Tick := match s.homeDie p with | some d => (s.dieAt d).atime | none => s.now
def lat1 : Nat := (sp.latency (place sp (shared.storeCap false))).getD 0
theorem witness_TimedFormsWaitForTheirTime :
    sp.runs px ∧ sp.quiet ∧ sp.core.begins = true ∧ sp.hold = false ∧ sp.readable [2, 1, 6]
      ∧ (sp.access (shared.storeCap false) = .ok (place sp (shared.storeCap false)) ∧ (place sp (shared.storeCap false)).inModule
        ∧ sp.latency (place sp (shared.storeCap false)) = some lat1 ∧ sp.now.toNat + lat1 ≤ (sp.gint 6).toNat
        ∧ (sp.gint 0).toNat < sp.now.toNat + lat1 ∧ sp.now.toNat + lat1 ≤ (BitVec.ofNat 64 lat1).toNat)
      ∧ item.latency (place item load4) = none
      ∧ (sp.access shared.load = .ok (place sp shared.load) ∧ isAway (place sp shared.load).loc = false
        ∧ (sp.homeDie (place sp shared.load)).isSome = true ∧ zoneOf sp (place sp shared.load) < sp.gint 6
        ∧ sp.gint 0 ≤ zoneOf sp (place sp shared.load) ∧ sp.homeDie (place sp load4) = none)
      ∧ (toHost.quiet ∧ toHost.core.begins = true ∧ toHost.readable [2, 1, 0] ∧ isAway (place toHost (out toHost 4)).loc = true
        ∧ toHost.homeDie (place toHost (out toHost 4)) = none ∧ toHost.now < toHost.gint 1 ∧ toHost.gint 0 ≤ toHost.now
        ∧ toHost.awayRefused toHost.core.owner (place toHost (out toHost 4)).loc = none) := by and_intros <;> decide

/-- The sump of a core whose stack lies in host memory, without and with bus mastering. -/
def hostStack (master : Bool) : State := (setReg 29 (at_ (winAddr + 0x2000)) toHost).setFn 0 { Fn.reset with master := master }
def stack : State := setReg 29 (at_ 0x2000) fw
def slotsOf (s : State) (new : Addr) (mk : Access → Access) : List Access :=
  slotAccesses (s.g 29) new (fun _ a => mk a) [s.g 1, s.g 2]
def checked (s : State) (as : List Access) : State × List Place := okOr (s, []) (s.checkEach as)
theorem witness_SumpMovesAreAllOrNothing :
    stack.runs px ∧ (((1 : RegNum).toNat < (2 : RegNum).toNat) ∧ (28 : RegNum).toNat ≤ 29 ∧ 29 ≤ (29 : RegNum).toNat)
      ∧ ((1 : RegNum).toNat ≤ (2 : RegNum).toNat ∧ (2 : RegNum).toNat < 29 ∧ 29 < (30 : RegNum).toNat)
      ∧ (stack.readable [29, 1, 2] ∧ stack.quiet
        ∧ isOk (stack.checkEach (slotsOf stack 0x1FE0 fun a => a.storeCap true)) = true
        ∧ isOk (stack.checkEach (slotsOf stack 0x2000 Access.load)) = true
        ∧ (∀ p ∈ (checked stack (slotsOf stack 0x2000 Access.load)).2, isAway p.loc = false)
        ∧ (∀ p ∈ (checked stack (slotsOf stack 0x1FE0 fun a => a.storeCap true)).2, isHostLoc p.loc = false) ∧ stack.core.begins = true)
      ∧ ((hostStack true).busMaster (hostStack true).core.owner = true ∧ (hostStack false).busMaster (hostStack false).core.owner = false
        ∧ ((checked (hostStack false) (slotsOf (hostStack false) (winAddr + 0x1FE0) fun a => a.storeCap true)).2.find?
            fun p => isHostLoc p.loc).isSome = true)
      ∧ isOk (fw.checkEach (slotsOf fw 0 Access.load)) = false := by and_intros <;> decide
theorem witness_FencesDrainTheirScope :
    fw.runs px ∧ (⟨0, 0, false, 0⟩ : Sys2Proof.Ordering).ord = 0 ∧ (⟨1, 5, false, 0⟩ : Sys2Proof.Ordering).ord = 1
      ∧ (⟨2, 3, false, 0⟩ : Sys2Proof.Ordering).ord = 2 ∧ (⟨3, 5, false, 0⟩ : Sys2Proof.Ordering).ord = 3 ∧ fw.bad = [] := by and_intros <;> decide

def access8 (cap : GReg) (ea : Addr) : Access := (memAccess cap 2 ea 8).load
/-- A capability of 256 bytes at 0x1000 that may only be read. -/
def small : GReg := mkCap 0 false 1 256 0 0x1000 0x1000
/-- An item with 4 KiB of overflow memory. -/
def overflowing : State :=
  { item with core := { item.core with csr := { item.core.csr with sovp := (devAddr + 0x1000).setWidth 64, sovl := devAddr.setWidth 64 } } }
def storeTags (k : Access) : Access := { k with w := true, t := true }
def codeOf (s : State) (a : Access) : Option (BitVec 8) := match s.access a with | .ok _ => none | .error (_, e) => some e.code
theorem witness_ChecksComeInTheirOrder :
    (fw.g 1).tag = false ∧ ((fw.g 4).tag = true ∧ (fw.g 4).isSealed = true) ∧ (small.tag = true ∧ small.isSealed = false ∧ small.permW = false)
      ∧ ((access8 small 0x10F8).inB = true ∧ (access8 small 0x10F9).inB = false)
      ∧ (fw.exemplarStore (access8 small 0x1001) = false ∧ (access8 small 0x1001).inB = true ∧ (0x1001 : Addr).toNat % 8 ≠ 0)
      ∧ ((access8 allSpace 0xFFFFFFFFFFF8).inB = true ∧ 2 ^ 48 - 2 ^ 31 ≤ (0xFFFFFFFFFFF8 : Addr).toNat ∧ fw.redirect 0xFFFFFFFFFFF8 = none
        ∧ (0xFFFFFFFFFFF8 : Addr).toNat % 8 = 0 ∧ overflowing.redirect 0xFFFFFFFFFFF8 ≠ none ∧ (fw.fetchAccess 0).x = true
        ∧ (storeTags (access8 allSpace 0)).t = true)
      ∧ fw.runs px ∧ fw.readable [1, 2, 5] ∧ fw.core.begins = true ∧ codeOf fw (memAccess (fw.g 1) 1 0 4).load = some cKTAG
      ∧ codeOf fw (indexAccess (fw.g 4) 4 (fw.gint 1) 4 0).store = some cKSEAL
      ∧ codeOf fw (memAccess (fw.g 2) 2 0x1001 16).load = some cALIGN ∧ codeOf fw (memAccess (fw.g 2) 2 0x1004 8).atomic = some cALIGN
      ∧ codeOf fw ((memAccess (fw.g 1) 1 0 16).storeCap false) = some cKTAG := by and_intros <;> decide

theorem witness_MultiplyDivideBitsAndDraws :
    fw.runs px ∧ fw.readable [1, 5] ∧ fw.readable [1, 5, 2] := by and_intros <;> decide
theorem witness_PointersKeepTheirTagInBounds :
    fw.runs px ∧ fw.readable [2, 1] ∧ (fw.g 1).tag = false
      ∧ ((fw.g 2).tag = true ∧ (fw.g 2).isSealed = false ∧ ((0x3000 : Addr) - (fw.g 2).base).toNat ≤ (fw.g 2).length)
      ∧ ((fw.g 4).tag = true ∧ (fw.g 4).isSealed = true)
      ∧ (small.tag = true ∧ ((0x1100 : Addr) - small.base).toNat ≤ small.length ∧ small.length < ((0x1101 : Addr) - small.base).toNat) := by
  and_intros <;> decide

/-- A data capability of another colour, and one of the same that lies inside it. -/
def caps : State := setReg 6 (mkCap 3 false 1 256 0 0x1000 0x1000) (setReg 7 (mkCap 3 false 0x1F 0x2000 0 0 0) fw)
theorem witness_CapabilitiesOnlyNarrow :
    caps.runs px ∧ caps.readable [6, 1] ∧ (caps.g 1).tag = false ∧ ((caps.g 4).tag = true ∧ (caps.g 4).isSealed = true)
      ∧ ((caps.g 6).tag = true ∧ (caps.g 6).isSealed = false ∧ lengthCode 256 = (256, 0)
        ∧ ((caps.g 6).cursor - (caps.g 6).base).toNat + 256 ≤ (caps.g 6).length
        ∧ (caps.g 6).length < ((caps.g 6).cursor - (caps.g 6).base).toNat + 257 ∧ 2 ^ 48 < (2 ^ 48 + 1 : Word).toNat)
      ∧ ((caps.g 7).permT = true ∧ (caps.g 6).permT = false ∧ ((1 : Word).setWidth 4 : BitVec 4) ≠ (caps.g 6).colour
        ∧ ((3 : Word).setWidth 4 : BitVec 4) = (caps.g 6).colour)
      ∧ (((caps.g 6).base - (caps.g 7).base).toNat + (caps.g 6).length ≤ (caps.g 7).length
        ∧ (caps.g 6).perms &&& (caps.g 7).perms = (caps.g 6).perms ∧ (caps.g 6).colour = (caps.g 7).colour
        ∧ ¬ ((caps.g 6).colour = (caps.g 2).colour) ∧ ¬ ((caps.g 7).length ≤ (caps.g 6).length))
      ∧ 9 ≤ (9 : BitVec 4).toNat ∧ (8 : BitVec 4).toNat < 9 := by and_intros <;> decide

def runOf (s : State) (n : Nat) (mk : Access → Access) : List Access :=
  (List.range n).map fun j =>
    { mk (memAccess (s.g 2) 2 ((s.g 2).cursor + BitVec.ofNat 48 (32 * j)) 32) with colour := false, inB := (s.g 2).inBounds (s.g 2).cursor (32 * n) }
def all (s : State) (as : List Access) : State × List Place := okOr (s, []) (s.checkAll as)
theorem witness_ColoursOfARun :
    sp.plainMemory ∧ sp.runs px ∧ sp.readable [2, 1] ∧ sp.quiet ∧ assocSorted sp.colours = true ∧ 1 + (sp.gint 1).toNat / 16 % 16 = 1
      ∧ isOk (sp.checkAll (runOf sp 1 storeTags)) = true ∧ isOk (sp.checkAll (runOf sp 8 Access.load)) = true
      ∧ (∀ p ∈ (all sp (runOf sp 1 storeTags)).2, p.inModule ∧ (p.region = .dev ∨ p.region = .sram ∨ p.region = .spad))
      ∧ (∀ p ∈ (all sp (runOf sp 8 Access.load)).2, p.inModule ∧ (p.region = .dev ∨ p.region = .sram ∨ p.region = .spad))
      ∧ (∀ p ∈ (all sp (runOf sp 1 storeTags)).2, holdsColours p.loc = true)
      ∧ isOk ((setReg 2 .null sp).checkAll (runOf (setReg 2 .null sp) 1 storeTags)) = false
      ∧ isOk ((setReg 2 .null sp).checkAll (runOf (setReg 2 .null sp) 1 Access.load)) = false
      ∧ ((all toHost (runOf toHost 1 storeTags)).2.find? uncoloured).isSome = true
      ∧ ((all toHost (runOf toHost 1 Access.load)).2.find? uncoloured).isSome = true :=
  ⟨plain rfl (by decide), by and_intros <;> decide⟩

/-- Every exception enabled. -/
def strict : State := { fw with core := { fw.core with csr := { fw.core.csr with fcsr := 0x3E00 } } }
theorem witness_FloatingOpsRoundOnceAndStick :
    fw.runs px ∧ fw.readable [1, 5, 2] ∧ (eNX ||| eOF) &&& fcsrEnables fw.core.csr.fcsr = 0
      ∧ eNX &&& fcsrEnables strict.core.csr.fcsr ≠ 0 ∧ strict.runs px := by and_intros <;> decide
theorem witness_ScalarConversions :
    fw.runs px ∧ fw.readable [1] ∧ eNV &&& fcsrEnables fw.core.csr.fcsr = 0 ∧ eNV &&& fcsrEnables strict.core.csr.fcsr ≠ 0
      ∧ ((fmtOf .f32).read false 0x7FC00000).isNan = true ∧ ((fmtOf .f32).read false 0x3F800000).isNan = false
      ∧ FTy.f16 ≠ FTy.f32 := by and_intros <;> decide
theorem witness_CsrAccessesReadThenWrite :
    fw.runs px ∧ fw.readable [1] ∧ (0x014 : Word) ∉ ([0x001, 0x010, 0x011, 0x012, 0x013, 0x020, 0x021, 0x030, 0x040, 0x050] : List Word)
      ∧ (0x050 : Word) ∈ ([0x001, 0x010, 0x011, 0x012, 0x013, 0x020, 0x021, 0x030, 0x040, 0x050] : List Word)
      ∧ item.itemMode = true ∧ fw.itemMode = false ∧ (∀ q ∈ fw.core.mx.queue, q ∈ ([] : List MatCmd))
      ∧ csrKnown 0x040 = true ∧ csrKnown 0x001 = true ∧ fw.core.csr.fcsr &&& ~~~(0x3FF7 : Word) = 0
      ∧ fw.core.csr.mstat &&& ~~~(0xE7 : Word) = 0 := by and_intros <;> decide

/-! A zeroing predicate, a merging one, and none. -/
def pz : Pfx := ⟨0, false, true, false, 1, false, true⟩
theorem witness_VectorArithmeticByElement :
    fw.onCulvert = false ∧ fw.vecReadable pz [1, 2] 3 ∧ fw.vecReadable pp [1, 2] 3 ∧ fw.readableV [3]
      ∧ fw.flagsOf px 64 (fun _ => 0) &&& fcsrEnables fw.core.csr.fcsr = 0
      ∧ strict.flagsOf px 64 (fun _ => eNX) &&& fcsrEnables strict.core.csr.fcsr ≠ 0 := by and_intros <;> decide
theorem witness_VectorBitsAndMovesByElement :
    fw.onCulvert = false ∧ fw.vecReadable pz [1, 2] 3 ∧ fw.readable [1, 2] := by and_intros <;> decide
theorem witness_ComparesAndPredicates :
    fw.onCulvert = false ∧ fw.readableP [1, 2, 3] ∧ fw.readableP [15] ∧ Pfx.keeps pp = true ∧ fw.readable [1] ∧ fw.readableV [2, 31]
      ∧ fw.flagsOf pp 64 (fun _ => eNV) &&& fcsrEnables fw.core.csr.fcsr = 0
      ∧ strict.flagsOf pp 64 (fun _ => eNV) &&& fcsrEnables strict.core.csr.fcsr ≠ 0 := by and_intros <;> decide
theorem witness_VectorConversionsPairElements :
    fw.onCulvert = false ∧ fw.readableV [1] ∧ fw.readableP [1] ∧ pp.zero = false ∧ fw.readableV [2]
      ∧ strict.flagsOf px 32 (fun _ => eNX) &&& fcsrEnables strict.core.csr.fcsr ≠ 0 := by and_intros <;> decide
theorem witness_ReductionsFollowTheFixedTree :
    fw.onCulvert = false ∧ fw.readableV [1] ∧ fw.readableP [1] ∧ Pfx.keeps pp = true ∧ fw.readableV [2]
      ∧ (0 : Exc) &&& fcsrEnables fw.core.csr.fcsr = 0 ∧ eNX &&& fcsrEnables strict.core.csr.fcsr ≠ 0 := by and_intros <;> decide

/-- The accesses of a vector load or store of 32-bit elements with p1. -/
def line4 (s : State) (mk : Access → Access) : List Access :=
  ((List.range 64).filter fun i => s.active pp i).map fun k =>
    mk (memAccess (s.g 2) 2 ((s.g 2).cursor + BitVec.ofNat 48 (k * 4)) 4)
theorem witness_VectorLoadsCheckEveryElement :
    fw.onCulvert = false ∧ fw.quiet ∧ fw.core.begins = true ∧ fw.readable [2, 1] ∧ fw.readableP [1] ∧ Pfx.keeps pp = true ∧ fw.readableV [1, 2]
      ∧ isOk (fw.checkAll (line4 fw Access.load)) = true ∧ (∀ p ∈ (all fw (line4 fw Access.load)).2, isAway p.loc = false)
      ∧ ((List.range 64).filter fun i => fw.active pp i) = [0]
      ∧ isOk ((setReg 2 .null fw).checkAll (line4 (setReg 2 .null fw) Access.load)) = false
      ∧ (toHost.onCulvert = false ∧ toHost.quiet ∧ toHost.core.begins = true ∧ isOk (toHost.checkAll (line4 toHost Access.load)) = true
        ∧ (∃ p ∈ (all toHost (line4 toHost Access.load)).2, isAway p.loc = true)
        ∧ ∀ p ∈ (all toHost (line4 toHost Access.load)).2, toHost.awayRefused toHost.core.owner p.loc = none ∧ toHost.peerHeld p.loc = false) := by and_intros <;> decide
theorem witness_VectorStoresCheckEveryElement :
    fw.onCulvert = false ∧ fw.quiet ∧ fw.readable [2, 1] ∧ fw.readableP [1] ∧ fw.readableV [1] ∧ fw.readableV [2]
      ∧ isOk (fw.checkAll (coverAll (line4 fw Access.store))) = true ∧ (∀ p ∈ (all fw (coverAll (line4 fw Access.store))).2, p.inModule)
      ∧ isOk ((setReg 2 .null fw).checkAll (coverAll (line4 (setReg 2 .null fw) Access.store))) = false := by and_intros <;> decide
theorem witness_VectorTimedForms :
    (sp.onCulvert = false ∧ sp.quiet ∧ sp.core.begins = true ∧ sp.hold = false ∧ sp.readable [2, 6] ∧ sp.readableP [1] ∧ sp.readableV [1])
      ∧ (isOk (sp.checkAll (coverAll (line4 sp Access.store))) = true
        ∧ (∀ p ∈ (all sp (coverAll (line4 sp Access.store))).2, p.inModule ∧ sp.latency p = some lat1 ∧ sp.now.toNat + lat1 ≤ (sp.gint 6).toNat)
        ∧ isOk (sp.feasibleAll (sp.gint 0) (all sp (coverAll (line4 sp Access.store))).2) = false)
      ∧ isOk ((setReg 2 .null sp).checkAll (coverAll (line4 (setReg 2 .null sp) Access.store))) = false
      ∧ (isOk (sp.checkAll (line4 sp Access.load)) = true ∧ isOk ((setReg 2 .null sp).checkAll (line4 (setReg 2 .null sp) Access.load)) = false
        ∧ (∀ p ∈ (all sp (line4 sp Access.load)).2, isAway p.loc = false ∧ (sp.homeDie p).isSome = true ∧ sp.gint 0 ≤ zoneOf sp p)
        ∧ ∃ p ∈ (all sp (line4 sp Access.load)).2, zoneOf sp p < sp.gint 6)
      ∧ ((∀ p ∈ (all fw (line4 fw Access.load)).2, isAway p.loc = false) ∧ (∃ p ∈ (all fw (line4 fw Access.load)).2, fw.homeDie p = none)
        ∧ fw.gint 0 ≤ fw.now ∧ fw.now < fw.gint 1)
      ∧ (toHost.quiet ∧ isOk (toHost.checkAll (line4 toHost Access.load)) = true
        ∧ (∃ p ∈ (all toHost (line4 toHost Access.load)).2, isAway p.loc = true ∧ toHost.homeDie p = none)
        ∧ (∀ p ∈ (all toHost (line4 toHost Access.load)).2, toHost.awayRefused toHost.core.owner p.loc = none ∧ toHost.peerHeld p.loc = false)
        ∧ toHost.now < toHost.gint 1 ∧ toHost.gint 0 ≤ toHost.now) := by and_intros <;> decide
theorem witness_PermutesMoveElements :
    fw.onCulvert = false ∧ fw.vecReadable pz [1, 2] 3 ∧ fw.readable [1, 5] ∧ fw.readableV [3] := by and_intros <;> decide
theorem witness_BlockFormatsAndSparsity :
    fw.onCulvert = false ∧ fw.readableV [1] ∧ fw.readableP [1] ∧ Pfx.keeps pp = true ∧ fw.readableV [2]
      ∧ eNX &&& fcsrEnables fw.core.csr.fcsr = 0 ∧ eNX &&& fcsrEnables strict.core.csr.fcsr ≠ 0 := by and_intros <;> decide

/-! The matrix unit: a core with an empty and a full ring. -/
def ring2 (prod : BitVec 32) : Ring := ⟨at_ 0x100000, 0x100000, 2, 8192, prod, 0, 0, 0, [some 0, some 1]⟩
def withMx (f : MatCore → MatCore) (s : State) : State := { s with core := { s.core with mx := f s.core.mx } }
def geo : State := setReg 6 (intReg 0x102) (setReg 2 (at_ 0x100000) item)
def rings : State := withMx (fun m => m.setRing 0 (some (ring2 1))) geo
def fullRing : State := withMx (fun m => m.setRing 0 (some (ring2 2))) geo
def geoAccess : Access := { memAccess (geo.g 2) 2 (geo.g 2).cursor (2 * 256) with align := 1, r := true }
/-- Another core of the cluster runs an item of context `ow`. -/
def beside (ow : BitVec 8) : State :=
  { setReg 5 (intReg 1) geo with parked := [{ rings.core with agent := .core (coreOf 0 0 1), owner := ow }] }
def zero1 : MatCmd := .mzero 1 ⟨0, 0⟩
theorem witness_MatrixContextAndRings :
    geo.runs px ∧ geo.onCulvert = false ∧ geo.readable [1, 6]
      ∧ (fmtValid 0 = true ∧ fmtValid 0x200 = false)
      ∧ (geo.core.mx.queue = [] ∧ geo.ringCopied 0 = false ∧ geo.core.mx.restart = none ∧ geo.gint 0 = 0 ∧ geo.gint 6 ≠ 0
        ∧ geometry (geo.gint 6) = some (2, 256) ∧ geometry 1 = none ∧ isOk (geo.checkCap geoAccess) = true
        ∧ 0x100000 ≤ (geo.g 2).cursor.toNat ∧ (geo.g 2).cursor.toNat + 2 * 256 ≤ 0x200000 ∧ (geo.g 2).cursor.toNat % 256 = 0)
      ∧ (withMx (fun m => { m with restart := some ⟨0, Vector.replicate 4 none⟩ }) geo).core.mx.restart ≠ none
      ∧ (geo.itemMode = true ∧ fw.itemMode = false ∧ fw.onCulvert = false ∧ geo.core.mx.ring 0 = none) ∧ (rings.core.mx.ring 0 = some (ring2 1) ∧ (ring2 1).full = false)
      ∧ (fullRing.core.mx.ring 0 = some (ring2 2) ∧ (ring2 2).full = true)
      ∧ ((geo.gint 0).toNat < 8 ∧ (geo.gint 1).toNat < 8 ∧ 8 ≤ (geo.gint 6).toNat ∧ geo.core.agent.cluster = some 0
        ∧ (geo.agent (.core (coreOf geo.core.agent.die 0 7))).run ≠ .item
        ∧ (∀ ow ∈ [1, 2], (beside ow).gint 5 = 1 ∧ (beside ow).core.agent.cluster = some 0
          ∧ ((beside ow).agent (.core (coreOf 0 0 1))).run = .item ∧ ((beside ow).agent (.core (coreOf 0 0 1))).owner = ow
          ∧ ((beside ow).agent (.core (coreOf 0 0 1))).mx.ring 0 = some (ring2 1)) ∧ (beside 1).core.owner = 1)
      ∧ (∀ k ∈ geo.core.mx.queue, k.acc ≠ 0) ∧ (withMx (fun m => { m with queue := [zero1] }) geo).core.mx.queue ≠ []
      ∧ geo.core.mx.anyLive = false ∧ (8 : Word).getLsbD 0 = false := by and_intros <;> decide +kernel

def wantAB (keep : Bool) : List Want := [⟨0, keep, 8192, 0, 0⟩, ⟨1, keep, 8192, 1, 0⟩]
def wantS (keep : Bool) : List Want :=
  [⟨0, keep, 8192, 0, 0⟩, ⟨2, keep, 1024, 2, 0⟩, ⟨1, keep, 8192, 1, 0⟩, ⟨1, keep, 8192, 3, keep.toNat⟩]
def isTrap {α : Type} (e : R α) : Bool := match e with | .error (.trap _) => true | _ => false
def isWait {α : Type} (e : R α) : Bool := match e with | .error (.wait _) => true | _ => false
def ringOf (prod rel : BitVec 32) : Ring := ⟨at_ 0x100000, 0x100000, 2, 8192, prod, 0, 0, rel, [some 0, some 1]⟩
def withFmt (w : Word) (s : State) : State := withMx (fun m => { m with fmt := ⟨w, 1⟩ }) s
def fed : State := withFmt 0 (withMx (fun m => ((m.setRing 0 (some (ring2 1))).setRing 1 (some (ring2 2))).setRing 2 (some (ring2 1))) geo)
/-- Nothing has been produced into ring 0. -/
def unfed : State := withMx (fun m => m.setRing 0 (some (ring2 0))) fed
def queued (n : Nat) (s : State) : State := withMx (fun m => { m with queue := List.replicate n zero1 }) s
/-- Accumulator 0 is live and of the other type. -/
def mixed : State := withMx (fun m => m.setAcc 0 ⟨.s32, [], false, false, false, true⟩) fed
def timedAt (s : State) (t : Tick) : State := waitsFor (.engine t none) s
def drainOf (s : State) (ea : Addr) : R (State × List Place) :=
  (s.after px [2]).checkAll (Access.pieces { memAccess ((setReg 2 (at_ ea) s).g 2) 2 ea 16384 with align := 1, w := true, data := false })
theorem witness_MatrixCommandsQueueAtIssue :
    (fed.runs px ∧ fed.onCulvert = false ∧ o0.timed = false ∧ ot.timed = true ∧ fed.core.mx.queue.length < 4
      ∧ 4 ≤ (queued 4 fed).core.mx.queue.length)
      ∧ ((fed.core.mx.acc 0).live = false ∧ (mixed.core.mx.acc 0).live = true ∧ (mixed.core.mx.acc 0).type ≠ fmtAcc 0)
      ∧ (((fmtA 0).getD (.fp .bf16)).isSeb = false ∧ fmtValid 0x88 = true ∧ ((fmtA 0x88).getD (.fp .bf16)).isSeb = true
        ∧ ((fmtB 0x88).getD (.fp .bf16)).isSeb = true)
      ∧ (∀ k ∈ [true, false], isOk (fed.takeSlots false [] (wantAB k)) = true ∧ isOk (fed.takeSlots false [] (wantS k)) = true
        ∧ isOk ((timedAt fed 0).takeSlots true [] (wantAB k)) = true ∧ isOk ((timedAt fed 0).takeSlots true [] (wantS k)) = true)
      ∧ (isWait (unfed.takeSlots false [] (wantAB false)) = true ∧ isWait (unfed.takeSlots false [] (wantS false)) = true
        ∧ isTrap (geo.takeSlots false [] (wantAB false)) = true ∧ isTrap (geo.takeSlots false [] (wantS false)) = true
        ∧ isTrap ((timedAt unfed 0).takeSlots true [] (wantAB false)) = true ∧ isTrap ((timedAt unfed 0).takeSlots true [] (wantS false)) = true)
      ∧ (fed.readable [0, 6] ∧ (fed.gint 0 ≤ fed.now ∧ fed.core.wait ≠ some (.engine (fed.gint 0) none)) ∧ fed.now < fed.gint 6
        ∧ (timedAt fed 0).core.wait = some (.engine (fed.gint 0) none) ∧ (timedAt fed 0).core.mx.queue = []
        ∧ (timedAt (queued 1 fed) 0).core.mx.queue ≠ [] ∧ fed.core.agent.cluster = some 0 ∧ fed.unitBusy 0 = false)
      ∧ (isOk (drainOf geo 0x100000) = true ∧ isOk (drainOf geo 0x100001) = true ∧ isOk (drainOf geo 0x1FF000) = false
        ∧ isOk (drainOf toHost winAddr) = true ∧ inLocal winAddr.toNat 16384 = false ∧ winAddr.toNat % 256 = 0
        ∧ (0x100000 : Addr).toNat % 256 = 0 ∧ (0x100001 : Addr).toNat % 256 ≠ 0
        ∧ inLocal 0x100000 16384 = true ∧ inLocal 0x10000 16384 = true ∧ (drainFmt 0).isNone = false ∧ (drainFmt 4).isNone = true
        ∧ (geo.core.mx.acc 0).type ≠ .s32) := by and_intros <;> decide +kernel

def busy (c : MatCmd) : State := withMx (fun m => { m with queue := [c] }) fed
def slot0 : Slot := ⟨0, 0, true⟩
theorem witness_MatrixUnitExecutesItsQueue :
    ((busy zero1).matNext 0).isSome = true ∧ (busy zero1).agent (.core c0) = (busy zero1).core
      ∧ ((busy (.mma 0 slot0 slot0 false false ⟨0, 1⟩)).matNext 0).isSome = true
      ∧ fed.badTile fed.core (MatCmd.tiles (.mma 0 slot0 slot0 false false ⟨0, 1⟩)) = none
      ∧ ((busy (.mmas 0 slot0 slot0 slot0 slot0 ⟨0, 1⟩)).matNext 0).isSome = true
      ∧ fed.badTile fed.core (MatCmd.tiles (.mmas 0 slot0 slot0 slot0 slot0 ⟨0, 1⟩)) = none ∧ fed.matNext 0 = none
      ∧ ((busy (.mdrain 0 (at_ 0x140000) 1 ⟨0, 1⟩)).matNext 0).isSome = true ∧ Memory.wf fed.mem = true
      ∧ MatCmd.tiles (.mma 0 slot0 slot0 false false ⟨0, 1⟩) ≠ []
      ∧ (let c := (busy (.mma 0 slot0 slot0 false false ⟨0, 1⟩)).agent (.core c0)
         c.agent = .core c0 ∧ c.acts = none ∧ c.run ≠ .idle ∧ c.pending.length < 16) := by and_intros <;> decide +kernel

/-! Engine commands: a command block in the TCM, and a page of device memory that the core's buffers hold. -/
def leaf1 : Leaf :=
  { owner := 1, enc := 0, coloured := false, sc := false, x := true, w := true, r := true, host := false, peer := 0, pa := 0,
    size := 0x200000 }
def dev (a : Nat) : GReg := at_ (BitVec.ofNat 48 (0x10000000000 + a))
def blockLoc : Nat := tcmLoc 0 0x1000
def putCap (off : Nat) (c : GReg) (s : State) : State :=
  let t := s.writeBytes (blockLoc + off) (bytesOf 16 c.bits.toNat)
  { t with tags := setAdd t.tags (blockLoc / 16 + off / 16) }
def putNum (off n v : Nat) (s : State) : State := s.writeBytes (blockLoc + off) (bytesOf n v)
def engines : State := { item with tlb := [⟨.micro (.core c0), 1, 0x10000000000, leaf1⟩] }
def copyBlock : State := putNum 56 4 1 (putNum 48 8 32 (putCap 16 (at_ 0x100100) (putCap 0 (at_ 0x100000) engines)))
def okState {α : Type} (e : R (State × α)) (d : α) : State × α := okOr (State.reset, d) e
def blkOf (s : State) : State × Block := okState ((s.after px []).readBlock 2) ⟨0, []⟩
def copyK : State × Block := blkOf copyBlock
def copySrc : State × List Place := okState ((copyK.1.release 3).checkOperand false (copyRows (copyK.2.cap 0) 1 0 32 16 1 true false)) []
def copyDst : State × List Place := okState (copySrc.1.checkOperand false (copyRows (copyK.2.cap 16) 2 0 32 32 1 false true)) []
def copyMbx : State × List Place := okState (copyDst.1.checkMailbox (copyK.2.cap 32)) []
def engine0 : EngineId := .culvert (culvertOf (AgentId.clusterOf item.core.agent) 0)
def copyEnd : State × Nat := okState (copyMbx.1.acceptDecrypt copyK.2 copySrc.2) 0
def heldCmd : Cmd :=
  { item.newCmd .copy (at_ 0x100000) (at_ 0x100100) .null 1 [] with start := some 5, ticket := ticketOf engine0 0 }
/-- A culvert that holds a timed command, behind `n` that it has in hand. -/
def holding (n : Nat) : State :=
  waitsFor (.engine 5 (some (ticketOf engine0 0)))
    (item.setEngine engine0 ⟨(List.range n).map (fun j => { heldCmd with start := none, ticket := ticketOf engine0 (1 + BitVec.ofNat 32 j) })
      ++ [heldCmd], 1, []⟩)
def zoneAt (t : Tick) (s : State) : State := { s with dies := s.dies.set 0 { s.dies[0] with atime := t } }
theorem witness_CpyIsAcceptedByItsCulvert :
    (copyBlock.runs px ∧ copyBlock.onCulvert = false ∧ o0.timed = false ∧ ot.timed = true ∧ copyBlock.core.wait = none
      ∧ isOk ((copyBlock.after px []).readBlock 2) = true ∧ isOk ((copyBlock.after px [1]).readBlock 2) = true)
      ∧ (firstBad (copyRules copyK.2) = none ∧ copyK.2.field 48 8 = 32 ∧ copyK.2.field 56 4 = 1 ∧ copyK.2.field 68 4 = 0
        ∧ firstBad (copyRules (blkOf engines).2) = some 48)
      ∧ (isOk ((copyK.1.release 3).checkOperand false (copyRows (copyK.2.cap 0) 1 0 32 16 1 true false)) = true
        ∧ isOk (copySrc.1.checkOperand false (copyRows (copyK.2.cap 16) 2 0 32 32 1 false true)) = true
        ∧ isOk (copyDst.1.checkMailbox (copyK.2.cap 32)) = true ∧ isOk (copyMbx.1.acceptDecrypt copyK.2 copySrc.2) = true
        ∧ (copyEnd.1.engine engine0).queue.length = (copyK.1.engine engine0).queue.length
        ∧ (copyK.1.engine engine0).queue.length < 16 ∧ 16 ≤ ((holding 15).engine engine0).queue.length)
      ∧ (copyK.2.field 80 8 = 0 ∧ (blkOf (putNum 80 8 7 copyBlock)).2.field 80 8 = 7
        ∧ (0 : Word) ≤ (copyEnd.1.dieAt engine0.die).atime ∧ (copyEnd.1.dieAt engine0.die).atime < 7)
      ∧ (engine0 = .culvert ⟨0, 0, 0⟩ ∧ (holding 0).core.wait = some (.engine 5 (some (ticketOf engine0 0)))
        ∧ ticketEngine (ticketOf engine0 0) = some engine0
        ∧ ((holding 0).dieAt engine0.die).atime < 5 ∧ 5 ≤ ((zoneAt 5 (holding 0)).dieAt engine0.die).atime
        ∧ ((zoneAt 5 (holding 1)).headCmd engine0).isSome = true ∧ (zoneAt 5 (holding 0)).headCmd engine0 = none
        ∧ cmdFind (ticketOf engine0 0) ((zoneAt 5 (holding 0)).engine engine0).queue = some heldCmd) := by
  and_intros <;> decide +kernel

def rowsBlock : State := putNum 84 4 1 (putNum 80 4 32 (putCap 16 (dev 0x100) (putCap 0 (dev 0) engines)))
def gatherBlock : State := putCap 48 (dev 0xFFFC) rowsBlock
def kOf (s : State) (sh : Shape) : State × Block × List Nat :=
  let k := blkOf s
  let r : State × List Place × List Nat := okOr (State.reset, [], [])
    (if sh.useIdx k.2 then (k.1.release 3).readIndex (k.2.cap 48) (k.2.field 84 4) else .ok (k.1.release 3, [], []))
  (r.1, k.2, r.2.2)
def srcOf (s : State) (sh : Shape) : State × List Place :=
  let (t, b, idx) := kOf s sh
  okState (t.checkOperand true (rowOperands (b.cap 0) 1 16 32 true false (sh.src b idx))) []
def dstOf (s : State) (sh : Shape) : R (State × List Place) :=
  let (_, b, idx) := kOf s sh
  (srcOf s sh).1.checkOperand true ((sh.dst b idx).map fun e =>
    operand (b.cap 16) 2 (((b.cap 16).offset : Int) + e.1) e.2.1 e.2.2 sh.dstRead true).flatten
def mailOf (s : State) (sh : Shape) : R (State × List Place) := (okState (dstOf s sh) []).1.checkMailbox ((kOf s sh).2.1.cap 32)
def countOf (s : State) (sh : Shape) : R (State × List Place) :=
  let (_, b, idx) := kOf s sh
  let t := (okState (mailOf s sh) []).1
  if (b.cap 64).isNone then .ok (t, []) else
    t.checkOperand true (rowOperands (b.cap 64) 2 4 4 true true ((distinct [] (rowTargets (sh.useIdx b) idx (b.field 84 4))).map (4 * ·)))
def accepted (s : State) (sh : Shape) : Bool :=
  let (t, b, idx) := kOf s sh
  let i : EngineId := .cistern ((blkOf s).1.cisternOf (b.cap 16).cursor)
  decide (firstBad (cisternRules b (sh.rowBad b) (sh.fmtBad b) sh.noIdx sh.noCnt) = none)
    && isOk (t.checkOperand true (rowOperands (b.cap 0) 1 16 32 true false (sh.src b idx))) && isOk (dstOf s sh)
    && isOk (mailOf s sh) && isOk (countOf s sh) && decide (((blkOf s).1.engine i).queue.length < 64)
/-- A row count stands beside the rows. -/
def countBlock : State := putCap 64 (dev 0x200) rowsBlock
/-- A cistern that holds 64 commands. -/
def fullCistern (s : State) : State :=
  s.setEngine (.cistern ((blkOf s).1.cisternOf ((blkOf s).2.cap 16).cursor)) ⟨List.replicate 64 heldCmd, 64, []⟩
def cistern1 : EngineId := .cistern 1
def heldCistern : State :=
  waitsFor (.engine 5 (some (ticketOf cistern1 0))) (item.setEngine cistern1 ⟨[{ heldCmd with ticket := ticketOf cistern1 0 }], 1, []⟩)
theorem witness_CisternCommandsAreAccepted :
    gatherBlock.runs px ∧ gatherBlock.onCulvert = false ∧ isOk ((gatherBlock.after px []).readBlock 2) = true
      ∧ accepted gatherBlock gatherShape = true ∧ accepted gatherBlock reduceShape = true ∧ accepted rowsBlock reduceShape = true
      ∧ accepted rowsBlock convertShape = true ∧ accepted countBlock reduceShape = true ∧ (kOf gatherBlock gatherShape).2.2 = [0]
      ∧ (∀ s ∈ [gatherBlock, rowsBlock], 64 ≤ (((blkOf (fullCistern s)).1).engine
          (.cistern ((blkOf (fullCistern s)).1.cisternOf ((blkOf (fullCistern s)).2.cap 16).cursor))).queue.length)
      ∧ ((blkOf gatherBlock).2.field 96 8 = 0 ∧ (blkOf (putNum 96 8 7 gatherBlock)).2.field 96 8 = 7 ∧ gatherBlock.core.wait = none)
      ∧ (ticketEngine (ticketOf cistern1 0) = some cistern1 ∧ heldCistern.core.wait = some (.engine 5 (some (ticketOf cistern1 0)))
        ∧ (heldCistern.dieAt cistern1.die).atime < 5 ∧ 5 ≤ ((zoneAt 5 heldCistern).dieAt cistern1.die).atime
        ∧ heldCistern.headCmd cistern1 = none ∧ (cmdFind (ticketOf cistern1 0) (heldCistern.engine cistern1).queue).isSome = true)
      ∧ firstBad (cisternRules (blkOf engines).2 false false false false) = some 80 := by and_intros <;> decide +kernel

def mail : Access := (memAccess (item.g 2) 2 (item.g 2).cursor 8).load
theorem witness_CpywWaitsAndCpyqAsks :
    item.runs px ∧ item.onCulvert = false ∧ item.readable [2, 1] ∧ item.quiet ∧ item.core.begins = true
      ∧ (item.access mail = .ok (place item mail) ∧ isAway (place item mail).loc = false
        ∧ (item.gint 0).toNat ≤ natOf (item.placeBytes (place item mail) 8) ∧ natOf (item.placeBytes (place item mail) 8) < (item.gint 1).toNat)
      ∧ (toHost.access (out toHost 8) = .ok (place toHost (out toHost 8)) ∧ toHost.quiet ∧ toHost.core.begins = true
        ∧ isAway (place toHost (out toHost 8)).loc = true ∧ toHost.awayRefused toHost.core.owner (place toHost (out toHost 8)).loc = none)
      ∧ ((7 : Word).getLsbD 63 = false ∧ (0x8000000000000008 : Word).getLsbD 63 = true ∧ (0x8000000000000008 : Word).toNat / 2 ^ 16 % 2 ^ 47 = 0
        ∧ (0x8000000000000008 : Word).toNat % 8 = 0 ∧ (0x8000000000000009 : Word).toNat % 8 ≠ 0
        ∧ (0x8000000000010000 : Word).toNat / 2 ^ 16 % 2 ^ 47 ≠ 0) := by and_intros <;> decide +kernel
theorem witness_EncodingsRoundTrip : (Instr.add px 3 5 3).WellFormed = true ∧ (Instr.halt ⟨0, false, true, false, 0, false, false⟩).WellFormed = true := by
  decide
theorem witness_DecodingRefusesByName :
    decode [0xFFFF, 0xFFFF, 0xFFFF, 0xFFFF, 0xFFFF] = .error .pfxc ∧ decode [0x0000] = .ok (.add px 0 0 0)
      ∧ 5 ≤ [(0xFFFF : Parcel), 0xFFFF, 0xFFFF, 0xFFFF, 0xFFFF].length ∧ (0xFFFF : Parcel).isPrefix = true
      ∧ 2 ≤ ([(0xF400 : Parcel), 0xF400].filter fun q => q.op = 0x3D).length ∧ 0x3D ≤ (0x3D : BitVec 6).toNat := by and_intros <;> decide

def fetched : State × List Parcel := okOr (State.reset, []) State.reset.parcels
def isHold {α : Type} (e : R α) : Bool := match e with | .error (.hold _ _) => true | _ => false
def pcAt (a : Addr) (s : State) : State := { s with core := { s.core with pcc := allSpace.setCursor a } }
def cached (s : State) : State :=
  { s with core := { s.core with icache := [((okOr nowhere (s.access (s.fetchAccess 0x1000))).loc, 0x1234)] } }
def faultRec : FaultRec := ⟨cINTEG, 0, 1, 0, 0, 0, 1, 0, 0, 0, 0, 0, 0, 0, 0⟩
theorem witness_StepRunsTheDecodedInstruction :
    (∀ s ∈ [State.reset, item], s.frozen = false ∧ s.script = [] ∧ s.stalled = false ∧ s.due.isNone = true
        ∧ s.dueMiss.isNone = true ∧ s.heldStop = false ∧ (s.core.run = .firmware ∨ s.core.run = .item) ∧ s.core.pending = [])
      ∧ (isOk State.reset.parcels = true ∧ decode fetched.2 = .ok (.add px 0 0 0) ∧ isTrap (pcAt 0x1001 item).parcels = true
        ∧ isHold (pcAt winAddr toHost).parcels = true
        ∧ decode [0xFFFF, 0xFFFF, 0xFFFF, 0xFFFF, 0xFFFF] = .error .pfxc
        ∧ (match decode [0xF43F, 0x0000] with | .error .pfxc => false | .error _ => true | .ok _ => false) = true)
      ∧ ((pendingWith [faultRec] item).core.pending = [faultRec] ∧ (pendingWith [faultRec] item).core.handler = false
        ∧ (pendingWith [faultRec] item).core.issuedWait = false ∧ (pendingWith [faultRec] item).due.isNone = true
        ∧ (waitsFor (.host [requestOf toHost (out toHost 8)]) toHost).core.issuedWait = true)
      ∧ ({ item with script := [.event (.doeAbort 0)] }.script = [.event (.doeAbort 0)]
        ∧ { item with script := [.event (.doeAbort 0)] }.due.isNone = true)
      ∧ ((0x1001 : Addr).getLsbD 0 = true ∧ (0x1000 : Addr).getLsbD 0 = false
        ∧ isOk (State.reset.access (State.reset.fetchAccess 0x1000)) = true
        ∧ isOk (State.reset.access (State.reset.fetchAccess 0xFFFF80000000)) = false
        ∧ isOk (State.reset.fetch State.reset.pc 5) = true ∧ isTrap (State.reset.fetch 0x1001 5) = true
        ∧ (assocGet (cached item).core.icache (okOr nowhere (item.access (item.fetchAccess 0x1000))).loc) = some 0x1234
        ∧ isAway (okOr nowhere (item.access (item.fetchAccess 0x1000))).loc = false
        ∧ isAway (okOr nowhere (toHost.access (toHost.fetchAccess winAddr))).loc = true
        ∧ toHost.awayRefused toHost.core.owner (okOr nowhere (toHost.access (toHost.fetchAccess winAddr))).loc = none) := by
  and_intros <;> decide +kernel
theorem witness_MemoryStaysCanonical :
    Memory.wf State.reset.mem = true ∧ (match step State.reset with | .next _ => true | _ => false) = true := by and_intros <;> decide +kernel

/-! Faults, privilege, engines. -/
def withHandler (s : State) : State := { s with core := { s.core with csr := { s.core.csr with tvec := 0x80100 } } }
def killing : State := { item with tasks := [{ task1 with desc := { desc1 with flags := 1 } }] }
theorem witness_FaultsEnterTheHandler :
    (fw.onCulvert = false ∧ item.onCulvert = false)
      ∧ ((withHandler fw).core.csr.tvec.setWidth 48 ≠ (0 : Addr) ∧ (withHandler item).core.handler = false)
      ∧ (fw.core.csr.tvec.setWidth 48 = (0 : Addr) ∧ fw.itemMode = false ∧ fw.runs px)
      ∧ (item.itemMode = true ∧ item.ownTask = some task1 ∧ task1.desc.flags.getLsbD 0 = false)
      ∧ (killing.itemMode = true ∧ (killing.ownTask.map fun k => k.desc.flags.getLsbD 0) = some true) := by and_intros <;> decide +kernel

def culvertAgent : State := { item with core := { item.core with agent := .culvert (culvertOf 0 0), run := .idle } }
def predOff : State := setPred 1 0 item
def poisoned : State := { item with core := { item.core with gPois := 0x20 } }
def fields : Fields :=
  ⟨pp, ⟨1, 0, false, 0⟩, 5, 5, 5, 1, 1, 1, .fp .f32, .int .s32, .f32, .f16, .s32, 0, 1, 2, 3, 0, 3, 0, false, false, false, false, 3⟩
theorem witness_WhoMayExecuteWhat :
    (item.itemMode = true ∧ item.onCulvert = false ∧ item.core.handler = false ∧ item.onSecurity = false)
      ∧ culvertAgent.onCulvert = true
      ∧ (pp.p = true ∧ predOff.readableP [pp.pred] ∧ (predOff.p pp.pred).getLsbD 0 = pp.neg ∧ predOff.onCulvert = false)
      ∧ ((5 : RegNum) ≠ 0 ∧ poisoned.core.gPois.getLsbD (5 : RegNum).toNat = true ∧ poisoned.runs px ∧ poisoned.onCulvert = false
        ∧ fields.a = 5 ∧ fields.b = 5 ∧ fields.c = 5 ∧ poisoned.core.begins = true ∧ poisoned.core.ident.level ≠ 2 ∧ poisoned.runs fields.x)
      ∧ (fields.imm.toNat < 64 ∧ fields.o.ord ≠ 0 ∧ fields.a.toNat ≤ fields.b.toNat ∧ fields.b.toNat < 29 ∧ fields.j.toNat < 9
        ∧ fields.j.toNat % 8 < 6 ∧ (predOff.itemMode = true ∧ fw.itemMode = false ∧ fw.onSecurity = true ∧ fw.onCulvert = false)
        ∧ predOff.readableP [fields.x.pred] ∧ (predOff.p fields.x.pred).getLsbD 0 = fields.x.neg)
      ∧ (let s := { item with core := { item.core with vPois := 0x20, pPois := 2 } }
         s.core.vPois.getLsbD 5 = true ∧ s.readable [5] ∧ s.onCulvert = false ∧ s.core.pPois.getLsbD 1 = true ∧ fields.x.pred = 1
          ∧ fields.q = 1 ∧ fields.r = 1) := by
  and_intros <;> decide +kernel

def heldLeaf : Leaf :=
  { owner := 1, enc := 0, coloured := false, sc := false, x := true, w := true, r := true, host := false, peer := 0, pa := 0,
    size := 0x200000 }
def culvert0 : EngineId := .culvert ⟨0, 0, 0⟩
def cistern0 : EngineId := .cistern 0
def cmdOf (flags : BitVec 32) : Cmd := { item.newCmd .copy (at_ 0x100000) (at_ 0x100100) .null 1 [] with flags := flags }
def gatherCmd : Cmd :=
  { item.newCmd .gather (at_ 0x10000000000) (at_ 0x10000001000) .null 1 [(0x1000000, heldLeaf)] with kind := .gather, idx := [2] }
def culv (c : Cmd) : State := item.setEngine culvert0 ⟨[c], 1, []⟩
def cist (c : Cmd) : State := item.setEngine cistern0 ⟨[c], 1, []⟩
def moved (c : Cmd) : Cmd := { c with beats := 1 }
def nowBeat (c : Cmd) : Addr := Cmd.rowAddr c.src c.sstride c.length c.beats + (if c.decrypts then 16 else 0)
def readsBeat (s : State) (c : Cmd) : Fetched := (s.cmdFetch culvert0 c (beatParts (nowBeat c))).2
def readsEnd (s : State) (c : Cmd) : Fetched := ((s.cmdSettled culvert0 c).cmdFetch culvert0 c c.endParts).2
/-- What a read of a command ends in: its parts, a wait, a refusal. -/
def kindOf : Fetched → Nat
  | .got parts => if parts.all Option.isSome then 0 else 1
  | .waits _ => 2
  | .refused => 3
/-- A command whose source, destination and mailbox are the window pages that another leaf maps. -/
def awayCmd (c : Cmd) (l : Leaf) : Cmd := { c with src := at_ winAddr, pages := [(winAddr.toNat / 65536, l)] }
def awayMbx (c : Cmd) (l : Leaf) : Cmd := { c with mbx := at_ winAddr, pages := [(winAddr.toNat / 65536, l)] }
def master (s : State) : State := s.setFn 0 { Fn.reset with master := true }
def lostPeer (s : State) : State := { s with fabric := { s.fabric with lost := [5] } }
def spoiled (s : State) : State := { s with bad := [spadLoc 0 0 / 32] }
/-- The zone of die 0 has reached the instant of a freeze of the command's task. -/
def froze (s : State) : State :=
  { s with freezing := [⟨7, 1, some [1], 0, 0, 0, 0, [], [], none, []⟩] }
/-- A write to peer 5 was sent on port 4, and its route now takes port 3. -/
def rerouted (s : State) : State :=
  { s with flights := [⟨peerLoc 5 0x40, [1], false, none, none, .core c0, 0, item.core.origin, 0, some 4, 0x40, 0x80000, [], false⟩],
           fabric := { s.fabric with routes := [(5, 3)] } }
def idleIssuer : State := { culv (cmdOf 4) with core := { item.core with run := .idle } }
def doneRing (prod : BitVec 32) : State :=
  let s := culv { moved (cmdOf 4) with ended := true }
  { s with core := { s.core with mx := s.core.mx.setRing 0 (some ⟨at_ 0x100000, 0x100000, 2, 8192, prod, 0, 0, 0, [some 0, some 1]⟩) } }
theorem witness_EnginesCarryOutTheirCommands :
    (culv (cmdOf 0)).plainMemory ∧ ((culv (cmdOf 0)).headCmd culvert0 = some (cmdOf 0) ∧ (cmdOf 0).beats < (cmdOf 0).total
        ∧ (culv (cmdOf 0)).cmdStopped culvert0 (cmdOf 0) = false ∧ (froze (culv (cmdOf 0))).cmdStopped culvert0 (cmdOf 0) = true
        ∧ (culv (cmdOf 0)).cmdHeld culvert0 (cmdOf 0) [0x100000, 0x100010, 0x100100] = false
        ∧ (rerouted (culv (cmdOf 0))).cmdHeld culvert0 (awayCmd (cmdOf 0) (leafTo false 5)) [winAddr] = true
        ∧ (culv (cmdOf 0)).cmdBarred culvert0 (cmdOf 0) 0x100100 = false ∧ (cmdOf 0).mbx.isNone = true
        ∧ kindOf (readsBeat (culv (cmdOf 0)) (cmdOf 0)) = 0 ∧ kindOf (readsBeat (spoiled (culv (cmdOf 0))) (cmdOf 0)) = 1
        ∧ kindOf (readsBeat (master (culv (cmdOf 0))) (awayCmd (cmdOf 0) (leafTo true 0))) = 2
        ∧ kindOf (readsBeat (culv (cmdOf 0)) (awayCmd (cmdOf 0) (leafTo true 0))) = 3)
      ∧ ((lostPeer (culv (cmdOf 0))).cmdLost culvert0 (awayMbx (cmdOf 0) (leafTo false 5)) winAddr = true
        ∧ (awayMbx (cmdOf 0) (leafTo false 5)).mbx.isNone = false)
      ∧ ((moved (cmdOf 0)).decrypts = false ∧ (cmdOf 1).decrypts = true ∧ (cmdOf 0).requests = []
        ∧ (culv (cmdOf 0)).fabric.lost = [] ∧ ([0x100000, 0x100010, 0x100100].all fun ea => ((culv (cmdOf 0)).cmdSees culvert0 (cmdOf 0) ea).any fun p =>
            decide p.inModule && !(culv (cmdOf 0)).dataBad p 16) = true
        ∧ { cmdOf 0 with length := 64, beats := 1 }.beats < { cmdOf 0 with length := 64, beats := 1 }.total)
      ∧ ((moved (cmdOf 0)).total ≤ (moved (cmdOf 0)).beats ∧ (moved (cmdOf 0)).ended = false
        ∧ kindOf (readsEnd (culv (moved (cmdOf 0))) (moved (cmdOf 0))) = 0
        ∧ kindOf (readsEnd (master (culv (moved (cmdOf 1)))) (awayCmd (moved (cmdOf 1)) (leafTo true 0))) = 2
        ∧ kindOf (readsEnd (culv (moved (cmdOf 1))) (awayCmd (moved (cmdOf 1)) (leafTo true 0))) = 3
        ∧ (culv (moved (cmdOf 1))).tagFails (moved (cmdOf 1)) none = true)
      ∧ ((culv (cmdOf 0)).cmdBarred culvert0 (awayMbx (moved (cmdOf 0)) (leafTo true 0)) winAddr = true
        ∧ (master (culv (cmdOf 0))).cmdBarred culvert0 (awayMbx (moved (cmdOf 0)) (leafTo true 0)) winAddr = false
        ∧ (moved (cmdOf 0)).endReach = [] ∧ (cmdOf 0).flags.getLsbD 2 = false ∧ (cmdOf 4).flags.getLsbD 2 = true)
      ∧ ((culv (cmdOf 0)).cmdSees culvert0 { cmdOf 0 with mbx := at_ 0x100200 } 0x100200).map (fun p => decide p.inModule) = some true :=
  ⟨plain rfl (by decide +kernel), by and_intros <;> decide +kernel⟩
/-- R297, R299, R302: the counts of a ring, a tag that holds, and the pieces of a cistern. -/
theorem witness_EnginesEndTheirCommands :
    (cist gatherCmd).plainMemory
      ∧ (((doneRing 0).agent (cmdOf 4).issuer).run = .item ∧ ((doneRing 0).agent (cmdOf 4).issuer).owner = (cmdOf 4).context
        ∧ ((culv (cmdOf 4)).agent (cmdOf 4).issuer).run = .item ∧ (idleIssuer.agent (cmdOf 4).issuer).run ≠ .item)
      ∧ (((doneRing 0).agent (cmdOf 4).issuer).mx.ring (cmdOf 4).ring = some ⟨at_ 0x100000, 0x100000, 2, 8192, 0, 0, 0, 0, [some 0, some 1]⟩
        ∧ ((doneRing 2).agent (cmdOf 4).issuer).mx.ring (cmdOf 4).ring = some ⟨at_ 0x100000, 0x100000, 2, 8192, 2, 0, 0, 0, [some 0, some 1]⟩)
      ∧ (Ring.full ⟨at_ 0x100000, 0x100000, 2, 8192, 0, 0, 0, 0, [some 0, some 1]⟩ = false
        ∧ Ring.full ⟨at_ 0x100000, 0x100000, 2, 8192, 2, 0, 0, 0, [some 0, some 1]⟩ = true
        ∧ ((culv (cmdOf 4)).agent (cmdOf 4).issuer).mx.ring (cmdOf 4).ring = none)
      ∧ ((cist gatherCmd).headCmd cistern0 = some gatherCmd ∧ gatherCmd.beats < gatherCmd.pieces ∧ (cist gatherCmd).cmdStopped cistern0 gatherCmd = false
        ∧ isOk ((cist gatherCmd).asCmd cistern0 gatherCmd fun w => w.gatherPiece gatherCmd 0).2 = true
        ∧ ([0x10000000040, 0x10000000050, 0x10000001000].all fun ea => ((cist gatherCmd).cmdSees cistern0 gatherCmd ea).any fun p =>
            decide p.inModule && !(cist gatherCmd).dataBad p 16) = true)
      ∧ ((moved gatherCmd).pieces ≤ (moved gatherCmd).beats ∧ (cist (moved gatherCmd)).mailboxAway (moved gatherCmd) = false
        ∧ (moved gatherCmd).mbx.isNone = true
        ∧ (cist (moved gatherCmd)).cmdBarred cistern0 (awayMbx (moved gatherCmd) (leafTo true 0)) winAddr = true)
      ∧ (item.headCmd culvert0 = none ∧ item.headCmd cistern0 = none) :=
  ⟨plain rfl (by decide +kernel), by and_intros <;> decide +kernel⟩
theorem witness_DecryptionVerifies :
    let c := { moved (cmdOf 1) with channel := 3 }
    let s := { culv c with sec := { item.sec with channels := [(3, ⟨1, 0, 0, false⟩)] } }
    s.tagFails c (some (bytesOf 16 (gcmTag (s.channelKey c) c.iv (aes256 (s.channelKey c) 0) c.ghash.toNat c.length))) = false := by
  decide +kernel

/-! Barriers. -/
def weirOf (arrived : List Arrival) (members : List CoreId) : Weir := ⟨1, some (1, 1), 3, arrived, members, [], true, none⟩
def atWeir (w : Weir) : State := setReg 5 (intReg 80) { item with weirs := [(0, w)] }
def arrivedAt (g : Nat) : State :=
  let s := atWeir (weirOf [⟨c0, 5⟩] [c0, ⟨0, 1⟩])
  { s with core := { s.core with lastArr := [(0, g)] } }
def gaugePlaces (s : State) : R (State × List Place) :=
  (s.after px [0, 2]).checkAll (extentAccesses (s.g 2) 2 8 8 8 Access.store)
theorem witness_WeirsCompleteOnTheLastArrival :
    (item.runs px ∧ item.onCulvert = false ∧ item.readable [5, 0, 2] ∧ 80 ≤ ((atWeir (weirOf [] [c0])).gint 5).toNat)
      ∧ (((atWeir (weirOf [] [c0])).checkWeir ((atWeir (weirOf [] [c0])).gint 0).toNat = .ok (0, c0))
        ∧ (weirOf [] [c0]).hasArrived c0 = false)
      ∧ ((arrivedAt 2).checkWeir 0 = .ok (0, c0) ∧ ((arrivedAt 2).weir 0).hasArrived c0 = true
        ∧ assocGet (arrivedAt 2).core.lastArr 0 = some 2 ∧ 2 < ((arrivedAt 2).weir 0).gen)
      ∧ (assocGet (arrivedAt 3).core.lastArr 0 = some 3 ∧ ((arrivedAt 3).weir 0).gen ≤ 3)
      ∧ assocGet (atWeir (weirOf [] [c0])).core.lastArr 0 = none
      ∧ isOk (gaugePlaces (arrivedAt 2)) = true ∧ isOk (gaugePlaces (setReg 2 .null (arrivedAt 2))) = false
      ∧ (atWeir (weirOf [] [c0])).readable [0, 2, 5]
      ∧ isOk (storePieces 8 (okOr (item, []) (gaugePlaces (arrivedAt 2))).1 (okOr (item, []) (gaugePlaces (arrivedAt 2))).2
          (List.replicate 64 0)) = true
      ∧ (weirOf [⟨c0, 5⟩] [c0]).arrived ≠ [] ∧ (∀ c ∈ (weirOf [⟨c0, 5⟩] [c0]).members, ∃ a ∈ (weirOf [⟨c0, 5⟩] [c0]).arrived, a.core = c)
      ∧ ((atWeir (weirOf [⟨c0, 5⟩] [c0])).weir 0).task = some (1, 1) ∧ (atWeir (weirOf [⟨c0, 5⟩] [c0])).task 1 1 = some task1
      ∧ ¬ (∀ c ∈ ((arrivedAt 2).weir 0).members, ∃ a ∈ ((arrivedAt 2).weir 0).arrived, a.core = c) := by and_intros <;> decide +kernel

def cfgOf (all : Bool) (root : Nat) : FlumeCfg := ⟨0, 0, false, all, 0xFF, 0, root, 1, true⟩
def atFlume (all : Bool) (root : Nat) (round : List Contribution) (results : List (CoreId × List (BitVec 32) × Nat)) : State :=
  { item with flumes := [(0, ⟨1, some (1, 1), some (cfgOf all root), [c0], [], true, round, results⟩)] }
def given : List Contribution := [⟨c0, List.replicate 64 (some 0x3F800000)⟩]
theorem witness_FlumesCombineTheirRound :
    (item.onCulvert = false ∧ isOk (item.useG [0] >>= fun w => w.useVec px [1] 1 false) = true
        ∧ isOk (item.useG [0] >>= fun w => w.useVec px [] 1 (Pfx.keeps px)) = true)
      ∧ (isTrap (item.checkFlume 0) = true ∧ isTrap (item.checkFlume 80) = true)
      ∧ ((atFlume true 0 [] []).checkFlume 0 = .ok (0, c0, cfgOf true 0, true) ∧ ((atFlume true 0 [] []).flume 0).contributed c0 = false
        ∧ takeResult c0 ((atFlume true 0 [] []).flume 0).results = none)
      ∧ ((atFlume true 0 given []).checkFlume 0 = .ok (0, c0, cfgOf true 0, true) ∧ ((atFlume true 0 given []).flume 0).contributed c0 = true
        ∧ takeResult c0 ((atFlume true 0 given []).flume 0).results = none)
      ∧ ((atFlume false 1 given []).checkFlume 0 = .ok (0, c0, cfgOf false 1, false) ∧ ((atFlume false 1 given []).flume 0).contributed c0 = true)
      ∧ (takeResult c0 ((atFlume true 0 [] [(c0, [], 1)]).flume 0).results = some (([], 1), []))
      ∧ (((atFlume true 0 given []).flume 0).config = some (cfgOf true 0) ∧ ((atFlume true 0 given []).flume 0).task = some (1, 1)
        ∧ (atFlume true 0 given []).task 1 1 = some task1 ∧ task1.flumeRoot (cfgOf true 0) 0 = some c0
        ∧ ((atFlume true 0 given []).flume 0).round ≠ []
        ∧ ∀ c ∈ ((atFlume true 0 given []).flume 0).members, ∃ r ∈ ((atFlume true 0 given []).flume 0).round, r.core = c)
      ∧ ∃ c ∈ [c0, ⟨0, 1⟩], ∀ r ∈ given, r.core ≠ c := by and_intros <;> decide +kernel

/-! Time, accesses at their homes. -/
def pq : Pfx := ⟨0, true, true, false, 0, false, false⟩
def waiting (i : Instr) : State :=
  { (item.writeBytes (tcmLoc 0 0x3000) ((encode i).map fun p => bytesOf 2 p.toNat).flatten) with
    core := { item.core with pcc := allSpace.setCursor 0x3000, wait := some (.counter 0 1) } }
def fetchedAs (i : Instr) : Bool :=
  match ((waiting i).focus (.core c0)).fetchInstr with | .ok (_, j) => decide (j = i) | .error _ => false
/-- The same once the superstep count has been seen, for WAITB. -/
def releasedAs (i : Instr) : Bool :=
  match ((waiting i).focus (.core c0)).seesRelease.fetchInstr with | .ok (_, j) => decide (j = i) | .error _ => false
def readAtHome : Request := { requestOf item load4 with home := some 0 }
def timedCmd : Word := ticketOf (.cistern 1) 0
def weirDone : State := { item with core := { item.core with lastArr := [(0, 2)] }, weirs := [(0, ⟨1, some (1, 1), 3, [], [c0], [], true, none⟩)] }
theorem witness_TimeInstructionsAndWaits :
    (item.runs px ∧ item.onCulvert = false ∧ item.readable [1, 2, 0])
      ∧ (item.gint 0 ≤ item.now ∧ item.now < item.gint 1)
      ∧ ((5 : BitVec 4).toNat % 8 < 6 ∧ (13 : BitVec 4).toNat % 8 < 6 ∧ 6 ≤ (6 : BitVec 4).toNat % 8 ∧ 6 ≤ (14 : BitVec 4).toNat % 8)
      ∧ (inOverflow 0 = false ∧ isOk (item.resolve false false 0) = true
        ∧ (match item.resolve false false 0 with | .ok p => p.leaf | .error _ => some heldLeaf) = none
        ∧ isOk (item.resolve false false 0x300000) = false ∧ inOverflow 0x300000 = false ∧ inOverflow 0xFFFF80000000 = true)
      ∧ (item.gint 0 ≤ item.counter item.core.owner 0 ∧ item.counter item.core.owner 0 < item.gint 1)
      ∧ (item.ctx 1 = some ctx1 ∧ ctx1.num = 1)
      ∧ ([Instr.twait pq 19, .waitc pq 19 21, .cpyw pq 19 21, .wfi ⟨0, false, true, false, 6, true, false⟩, .flumw pq 19 21 9,
            .cpy ⟨0, true, true, true, 0, false, false⟩ ot 19 21 9, .xgth ⟨0, true, true, true, 0, false, false⟩ ot 19 21 9,
            .xred ⟨0, true, true, true, 0, false, false⟩ ot 19 21 9, .xcvt ⟨0, true, true, true, 0, false, false⟩ ot 19 21 9,
            .waitb pq 21, .ldnb ⟨0, true, false, false, 0, false, false⟩ o0 4 3 21 9 1,
            .mma ⟨0, true, true, true, 0, false, false⟩ ot 0 1 2 false false false false 9,
            .mmas ⟨0, true, true, true, 0, false, false⟩ ot 0 1 2 3 false false 9, .vldnb ⟨0, true, true, false, 0, false, false⟩ o0 .s32 3 21 9 1].all
          fun i => ((waiting i).focus (.core c0)).core.wait.isSome && fetchedAs i && releasedAs i) = true := by
  and_intros <;> decide +kernel
/-- What ends each wait, and what does not. -/
theorem witness_WaitsEnd :
    ((∀ i ∈ [Instr.wfi px], ((waiting i).focus (.core c0)).core.takesPending = false)
        ∧ ((pendingWith [faultRec] (waiting (.wfi px))).focus (.core c0)).core.takesPending = true
        ∧ (item.focus (.core c0)).core.wait = none)
      ∧ (fw.runs ⟨0, false, true, false, 6, true, false⟩ ∧ fw.itemMode = false ∧ item.readable [19, 21, 9] ∧ item.gint 19 ≤ item.now
        ∧ item.gint 21 ≤ item.counter item.core.owner ((item.gint 19).setWidth 12))
      ∧ ((waitsFor (.notBefore 0 [readAtHome]) item).core.wait = some (.notBefore (item.gint 0) [readAtHome]) ∧ readAtHome.answer = none
        ∧ readAtHome.home = some 0 ∧ item.gint 0 ≤ (item.dieAt 0).atime
        ∧ (match item.readRequest readAtHome with | .local _ _ => true | _ => false) = true)
      ∧ (ticketEngine timedCmd = some (.cistern 1) ∧ (0 : Tick) ≤ (heldCistern.dieAt (EngineId.cistern 1).die).atime
        ∧ heldCistern.headCmd (.cistern 1) = none ∧ (cmdFind timedCmd (heldCistern.engine (.cistern 1)).queue).isSome = true)
      ∧ ((atFlume true 0 [] [(c0, [], 1)]).onCulvert = false
        ∧ (match ({ atFlume true 0 [] [(c0, [], 1)] with still := true } : State).useG [0] >>= fun w => w.useVec px [] 1 (Pfx.keeps px) with
            | .ok v => decide (v.checkFlume 0 = .ok (0, c0, cfgOf true 0, true)) && (takeResult c0 (v.flume 0).results).isSome
            | .error _ => false) = true)
      ∧ (weirDone.checkWeir 0 = .ok (0, c0) ∧ assocGet weirDone.core.lastArr 0 = some 2 ∧ 2 < (weirDone.weir 0).gen ∧ weirDone.readable [0]) := by
  and_intros <;> decide +kernel

def timedOf (t least : Tick) (arrival : Option Tick) : Timed :=
  { loc := tcmLoc 0 0x40, bytes := [1, 2, 3, 4], cap := false, key := none, t := t, device := 0, die := 0, agent := 0, order := 0,
    element := 0, homeDie := 0, peer := none, seq := 0, quiet := false, origin := item.core.origin, va := 0x40, pc := 0x80000, least := least, arrival := arrival }
def sent (y : Timed) : State := { item with timed := [y] }
def missed (pending : List FaultRec) (d : Deadline) : State :=
  { item with misses := [⟨timedOf 3 0 none, 5, false⟩], core := { item.core with pending := pending, dead := d } }
/-- A miss of a peer's store, and one that its instruction has already raised. -/
def peerMiss : State := { item with misses := [⟨{ timedOf 3 0 none with device := 5, seq := 9 }, 5, false⟩] }
def twoMisses : State :=
  { item with misses := [⟨{ timedOf 3 0 none with element := 4 }, 5, false⟩, ⟨timedOf 3 0 none, 6, false⟩] }
def missRec : FaultRec := ⟨cDLMISS, 0, 1, 0, 0, 0, 1, 0, 0, 0, 0, 0, 0, 0, 0⟩
theorem witness_TimedStoresArriveApplyOrMiss :
    (listAt (sent (timedOf 9 1 none)).timed 0 = some (timedOf 9 1 none) ∧ (timedOf 9 1 none).arrival = none
        ∧ (1 : Tick) ≤ (timedOf 9 1 none).t ∧ (timedOf 0 1 none).t < 1)
      ∧ ((timedOf 9 1 none).together (timedOf 9 2 none) = true ∧ (timedOf 9 1 none).together { timedOf 9 1 none with order := 1 } = false)
      ∧ (peerMiss.misses.length = 1 ∧ (5 : BitVec 19) ≠ peerMiss.device)
      ∧ ((lowestMiss ⟨{ timedOf 3 0 none with element := 4 }, 5, false⟩ [⟨timedOf 3 0 none, 6, false⟩]).store.element = 0
        ∧ (listAt twoMisses.misses 0).isSome = true ∧ { timedOf 3 0 none with quiet := true }.quiet = true)
      ∧ (timedSort ((sent (timedOf 0 0 (some 0))).timed.filter fun y => y.homeDie = 0 && (sent (timedOf 0 0 (some 0))).timedDue y)
          = [timedOf 0 0 (some 0)] ∧ (sent (timedOf 0 0 (some 0))).bad = [] ∧ Memory.wf (sent (timedOf 0 0 (some 0))).mem = true)
      ∧ (listAt (missed [] .clear).misses 0 = some ⟨timedOf 3 0 none, 5, false⟩ ∧ (missed [] .clear).core.agent = .core c0
        ∧ (missed [] .clear).core.holds (timedOf 3 0 none).origin = true ∧ (missed [] .clear).core.dead.count = 0 ∧ (missed [] .clear).core.pending.length < 16)
      ∧ ((missed [missRec] ⟨1, 0, 0, 0, 0, 0⟩).core.dead.count ≠ 0
        ∧ ∃ r ∈ (missed [missRec] ⟨1, 0, 0, 0, 0, 0⟩).core.pending, r.code = cDLMISS) := by and_intros <;> decide +kernel

def tableAt (pa : Nat) : List Byte := bytesOf 16 (1 + pa)
def leafAt (pa owner : Nat) : List Byte := bytesOf 16 (3 + pa + 15 * 2 ^ 113 + owner * 2 ^ 120)
/-- A tree at 0x100000 that maps the first 2 MiB of device memory to context 1, and the next to context 2. -/
def mapped : State :=
  let s := { item with contexts := [(1, { ctx1 with root := 0x100000 })] }
  let s := s.writeBytes (devLoc 0x100020) (tableAt 0x102000)
  let s := s.writeBytes (devLoc 0x102000) (tableAt 0x104000)
  let s := s.writeBytes (devLoc 0x104000) (leafAt 0x400000 1)
  s.writeBytes (devLoc 0x104010) (leafAt 0x600000 2)
def leafOf (va : Nat) : Leaf := okOr heldLeaf (mapped.mapOf { ctx1 with root := 0x100000 } va)
def otherOwner : State := { mapped with tlb := [⟨.micro (.core c0), 2, 0x10000000000, { leafOf 0x10000000000 with owner := 9 }⟩] }
def flightOf (l : Nat) : Flight := ⟨l, [1, 2], false, none, none, .core c0, 0, item.core.origin, 0, none, 0x40, 0x80000, [], false⟩
def away : State := { item with flights := [flightOf (tcmLoc 0 0x40), flightOf (tcmLoc 0 0x80)] }
def slotted : State := { item with core := { item.core with wait := some (.rmw (tcmLoc 0 0x40) 0x40 false 0 1 0 none) } }
theorem witness_AccessesArePerformedAtTheirHomes :
    (assocGet mapped.contexts 1 = some { ctx1 with root := 0x100000 }
        ∧ isOk (mapped.mapOf { ctx1 with root := 0x100000 } 0x10000000000) = true
        ∧ isOk (mapped.mapOf { ctx1 with root := 0x100000 } 0x10000200000) = true
        ∧ isOk (mapped.mapOf { ctx1 with root := 0x100000 } 0x10000400000) = false
        ∧ (leafOf 0x10000000000).owner = 1 ∧ (leafOf 0x10000200000).owner = 2 ∧ (leafOf 0x10000000000).pa = 0x400000
        ∧ mapped.tlb = [] ∧ mapped.tlbLookup 1 0x10000000000 (buffersOf (.core c0)) = none
        ∧ engines.tlbLookup 1 0x10000000000 (buffersOf (.core c0)) = some leaf1 ∧ aliasFind (leafOf 0x10000000000) 0x10000000000 mapped.tlb = none
        ∧ inWindow 0x10000000000 = false ∧ aliasFind (leafOf 0x10000000000) 0x10000000000 otherOwner.tlb ≠ none)
      ∧ (listAt away.flights 1 = some (flightOf (tcmLoc 0 0x80))
        ∧ splitDue (fun _ => false) [flightOf (tcmLoc 0 0x80)] (away.flights.take 1) = ([flightOf (tcmLoc 0 0x80)], [flightOf (tcmLoc 0 0x40)])
        ∧ listAt away.flights 2 = none
        ∧ (flightOf (tcmLoc 0 0x80)).colour = none ∧ away.bad = [] ∧ Memory.wf away.mem = true)
      ∧ (slotAgent 0 (0 : BitVec 4).toNat = .core c0 ∧ (slotted.cluster 0).frame = 0 ∧ (slotted.agent (.core c0)).wait = some (.rmw (tcmLoc 0 0x40) 0x40 false 0 1 0 none)
        ∧ (slotted.rmwFrame 0 0 0).core.wait = some (.rmw (tcmLoc 0 0x40) 0x40 false 0 1 0 none)
        ∧ slotted.refusesAt 1 1 (tcmLoc 0 0x40) 0x40 = false ∧ (froze slotted).refusesAt 1 1 (tcmLoc 0 0x40) 0x40 = true
        ∧ (froze away).refuses (flightOf (tcmLoc 0 0x40)) = true
        ∧ (({ slotted with clusters := [(0, { Cluster.reset with frame := 7 })] }.rmwFrame 0 7 3).agent (.core c0)).wait.isSome = true
        ∧ 10 ≤ (10 : BitVec 4).toNat ∧ slotted.bad = [] ∧ Memory.wf slotted.mem = true)
      ∧ (((missed [missRec] .clear).focus (.core c0)).core.pending = [missRec] ∧ ((missed [missRec] .clear).focus (.core c0)).core.issuedWait = false
        ∧ (item.focus (.core c0)).core.pending = []
        ∧ ((missed [missRec] .clear).focus (.core c0)).core.handler = false) := by and_intros <;> decide +kernel

/-! Items and commands. -/
def idleCore (q : Queued) (e : Option Exemplar) : State :=
  { item with
    core := { item.core with run := .idle }, tasks := [{ task1 with queues := [(0, [q])] }],
    clusters := [(0, { Cluster.reset with context := 1, inUse := true, half1 := e })] }
def prologue : Queued := ⟨0, 0, 1, 1, 0, none, none, none, []⟩
def levelOne : Queued := ⟨1, 3, 8, 2, 0, none, none, none, []⟩
def half : Exemplar :=
  { task := 1, n := 16, parent := 0, gMask := 0x60, vMask := 1, pMask := 0, dest := 5, g := item.core.g, v := item.core.v,
    p := item.core.p, pcc := allSpace, csr := item.core.csr, base := 0x1000, len := 256, resident := true, osplit := false,
    left := 15, cells := [], tags := [] }
def savedItem : Queued := ⟨1, 3, 8, 1, 0, some item.core, none, none, []⟩
theorem witness_ItemsStartAsTheManualSays :
    (((idleCore prologue none).focus (.core c0)).core.run = .idle
        ∧ taskOn c0 ((idleCore prologue none).focus (.core c0)).tasks = some { task1 with queues := [(0, [prologue])] }
        ∧ indexIn c0 task1.slots = some 0 ∧ prologue.saved = none ∧ prologue.level = 0)
      ∧ (assocGetD [(0, [levelOne])] 0 [] = [levelOne] ∧ levelOne.saved = none ∧ levelOne.level ≠ 0
        ∧ ((((idleCore levelOne (some half)).focus (.core c0)).cluster c0.clusterKey).half levelOne.level).isSome = true)
      ∧ (∀ q ∈ [prologue, levelOne, savedItem], let f := (idleCore q none).focus (.core c0)
         f.leftBusy c0 = false ∧ f.pastFreeze 1 1 c0.die = false ∧ (froze f).pastFreeze 1 1 c0.die = true)
      ∧ ((savedItem.saved.isSome = true ∧ savedItem.spill = none)
        ∧ taskOn c0 ((idleCore savedItem none).focus (.core c0)).tasks = some { task1 with queues := [(0, [savedItem])] }) := by
  and_intros <;> decide +kernel

/-- A freeze descriptor at g2: base 0x1000, one block of 256 bytes, g5 and g6. -/
def freezing : State := (item.writeBytes (tcmLoc 0 0x1000) (bytesOf 8 0x1000 ++ bytesOf 4 1 ++ bytesOf 4 0 ++ bytesOf 4 0x60))
def freezeAt (s : State) : Place := okOr nowhere ((s.after px [1, 2]).freezePlace 2)
def freezeRead (s : State) : FreezeDesc := freezeDesc (natOf (((s.after px [1, 2]).beforeAccess (freezeAt s) 64).placeBytes (freezeAt s) 64))
def nested : State := { item with core := { item.core with ident := { item.core.ident with level := 2 } } }
def alone : State := { freezing with core := { freezing.core with ident := { freezing.core.ident with task := 9 } } }
def roomyTask : Task := { task1 with desc := { desc1 with result := mkCap 0 true 0x1F 0x8000 0 0 0x100000 } }
def roomy : State := { freezing with tasks := [roomyTask] }
def narrow : State := { freezing with tasks := [{ task1 with desc := { desc1 with result := .null } }] }
def kicked : State := item.setEngine culvert0 ⟨[cmdOf 0], 1, []⟩
/-- The record of an item lies outside memory. -/
def outside : State := { item with tasks := [{ task1 with desc := { desc1 with result := at_ 0x300000 } }] }
/-- A member has arrived at the task's weir. -/
def arrivedOne : State := { roomy with weirs := [(0, weirOf [⟨c0, 5⟩] [c0])] }
/-- Core 0 runs item 0 of a level. -/
def atLevel (l : BitVec 2) : State := { item with core := { item.core with ident := { item.core.ident with level := l } } }
def yielding : State := { item with tasks := [{ task1 with queues := [(0, [levelOne])] }] }
theorem witness_ItemsFreezeYieldAndRetire :
    (item.runs px ∧ item.onCulvert = false ∧ nested.core.ident.level = 2 ∧ freezing.core.ident.level ≠ 2 ∧ freezing.readable [1, 2])
      ∧ (isOk ((freezing.after px [1, 2]).freezePlace 2) = true ∧ (freezeRead freezing).ok = true ∧ 0 < (freezing.gint 1).toNat
        ∧ (freezing.gint 1).toNat ≤ 2 ^ 32 ∧ (freezing.gint 0).toNat = 0)
      ∧ (isOk ((item.after px [1, 3]).freezePlace 3) = true
        ∧ (freezeRead (item.writeBytes (tcmLoc 0 0x1000) (bytesOf 8 1))).ok = false)
      ∧ (isOk (freezing.useG (maskRegs ((freezeRead freezing).gmask &&& ~~~1))) = true ∧ isOk (freezing.useV (maskRegs (freezeRead freezing).vmask)) = true
        ∧ isOk (freezing.useP (maskPreds ((freezeRead freezing).pmask &&& ~~~1))) = true)
      ∧ (freezing.ownTask = some task1 ∧ freezing.core.agent = .core c0 ∧ alone.ownTask = none
        ∧ isOk (roomy.freezeFits roomyTask (freezeRead freezing) 7 c0) = true
        ∧ narrow.core.ident.level = 0 ∧ GReg.null.length < 16 * 7)
      ∧ (item.core.mx.queue = [] ∧ item.enginesBusy = false ∧ isOk ((item.after px []).resultPlace) = true)
      ∧ kicked.enginesBusy = true ∧ (queued 1 item).core.mx.queue ≠ []
      ∧ isTrap (outside.after px []).resultPlace = true ∧ isTrap ((freezing.after px [1, 0]).freezePlace 0) = true
      ∧ (arrivedOne.ownTask.isSome = true ∧ isWait (arrivedOne.freezeFits roomyTask (freezeRead freezing) 7 c0) = true)
      ∧ isTrap (narrow.freezeFits { task1 with desc := { desc1 with result := .null } } (freezeRead freezing) 7 c0) = true
      ∧ (alone.ownQueue = none ∧ (yielding.ownQueue.map fun r => (r.2.1, r.2.2)) = some (0, [levelOne])
        ∧ (item.ownQueue.map fun r => r.2.2) = some [] ∧ yielding.core.resident = false)
      ∧ ((roomy.after px []).ownTask = some roomyTask ∧ ((yielding.after px []).ownQueue.map fun r => (r.2.1, r.2.2)) = some (0, [levelOne])
        ∧ (roomy.after px []).core.agent = .core c0 ∧ roomy.core.ident.level = 0 ∧ roomyTask.revival = none
        ∧ (atLevel 1).ownTask = some task1 ∧ (atLevel 1).flights = [] ∧ (atLevel 1).core.ident.level = 1 ∧ (atLevel 2).core.ident.level = 2 ∧ (atLevel 2).core.ident.item = 0)
      ∧ ((11 : BitVec 4).toNat < 12 ∧ 12 ≤ (12 : BitVec 4).toNat) := by and_intros <;> decide +kernel

/-! Intake commands: slots in host memory. `sealedSlot` holds the SIGNAL of context 1 to counter 1 by 7, ACCESSION 5, sealed
under the key 0 of queue 0; `slotOf` gives the clear part alone. -/
def sealedSlot : Nat := 7451273167587074651141465590811016291730453833402613635620381990515762801797932570025648028154572756296072890599481052538717345404066618116144151196168591448759224947132229994390117209314162454172230379727037486826658316011361045030947149605197040421894045226291945967619640906351616730855123254407847739397
def slotOf (acc opcode context : Nat) : Nat := acc + opcode * 2 ^ 64 + context * 2 ^ 88
def queueWith (slot : Nat) (st : QueueState) (expect : Word) : State :=
  ({ item with flitMode := true }.setFn 0 { Fn.reset with qsize := 4, qtail := 1, master := true, qstate := st, expect := expect }).writeBytes
    (hostLoc 0) (bytesOf 128 slot)
def nextOf (s : State) : Option Command := (s.nextSlot 0).map (openCommand 0 0)
def handed (s : State) : State := s.handover 0
def boundOf (s : State) : Option Bool := (nextOf s).map fun c => ((handed s).setFn 0 { (handed s).fn 0 with qhead := 1 }).contextBound 0 c
theorem witness_CommandsPassTheHeadgate :
    (nextOf (queueWith sealedSlot .isOpen 5)).map Command.authentic = some true := by decide +kernel
theorem witness_CommandsThatAreForged : (openCommand 0 0 (slotOf 5 3 1)).authentic = false := by decide +kernel
/-- A verdict and a binding rest on the clear part: ACCESSION, OPCODE and context. -/
theorem witness_CommandsOfEveryKind :
    ((nextOf (queueWith sealedSlot .isOpen 5)).map Command.opcode = some 3
        ∧ ((nextOf (queueWith sealedSlot .isOpen 5)).map fun c => verdict .isOpen 5 c.accession (c.opcode = 4) 0) = some .accept
        ∧ boundOf (queueWith sealedSlot .isOpen 5) = some true)
      ∧ boundOf (queueWith (slotOf 5 3 2) .isOpen 5) = some false
      ∧ ((nextOf (queueWith (slotOf 4 3 1) .isOpen 5)).map fun c => verdict .isOpen 5 c.accession (c.opcode = 4) 0) = some (.reject 2 .isOpen)
      ∧ ((nextOf (queueWith (slotOf 5 4 1) .isOpen 5)).map fun c => verdict .isOpen 5 c.accession (c.opcode = 4) 5) = some .badResync
      ∧ ((nextOf (queueWith (slotOf 5 4 1) .stopped 5)).map fun c => verdict .stopped 5 c.accession (c.opcode = 4) 6) = some .accept
      ∧ ∀ k ∈ [0, 1, 2, 4, 5, 6], (nextOf (queueWith (slotOf 5 k 1) .isOpen 5)).map Command.opcode = some (BitVec.ofNat 16 k) := by
  and_intros <;> decide +kernel
def launchOf : Launch := ⟨0, desc1, 2, [], none, none⟩
def internal : State := { item with contexts := [(1, { ctx1 with internal := [launchOf] })] }
def full : State := { item with contexts := [(1, { ctx1 with internal := List.replicate 256 launchOf })] }
def owning : State := { item with weirs := [(0, { Weir.reset with owner := 1 })], flumes := [(0, { Flume.reset with owner := 1 })] }
def launchPlaces (s : State) : R (State × List Place) := (s.after px [2]).checkAll (extentAccesses (s.g 2) 2 64 3 64 Access.load)
def launchReads (s : State) : R (State × List Request) :=
  let k := okState (launchPlaces s) []
  (k.1.release 3).issueLoads (descGranules k.2)
/-- The die that leads queue 0 has changed, and no die may lead. -/
def ledBy (d : BitVec 2) : State := item.setFn 0 { Fn.reset with leader := some d }
def leaderless : State :=
  { internal with dies := Vector.replicate 4 { Die.reset with healthy := false, sync := false, counting := false, draining := true } }
/-- What a leader's reading comes to: 0 once it has all, 1 a fault, 2 a wait, 3 what it sends. -/
def Reading.kind {α : Type} : Reading α → Nat
  | .got _ _ => 0
  | .fault _ => 1
  | .waits => 2
  | .sends _ => 3
def sentBy {α : Type} : Reading α → List Request
  | .sends rs => rs
  | _ => []
def launchCmd (a : Addr) : Command := ⟨5, 1, 1, 1, a.toNat, true⟩
/-- The schedulers of dies 0 and 1 have pages of the context in their buffers: one of the host, or of device memory. -/
def schedSees (l : Leaf) (s : State) : State :=
  ({ s with tlb := [⟨.micro (.scheduler 0), 1, winAddr.toNat, l⟩, ⟨.micro (.scheduler 0), 1, devAddr.toNat, leafOf 0x10000000000⟩,
      ⟨.micro (.scheduler 1), 1, winAddr.toNat, l⟩] }).setFn 0 { Fn.reset with master := true }
def reader : State := schedSees (leafTo true 0) internal
def readAsked : State := reader.setFn 0 { Fn.reset with master := true, reading := sentBy (reader.launchReading 0 (launchCmd winAddr)) }
def viaHost : Launch := { launchOf with desc := { desc1 with flcfg := at_ winAddr } }
def cfgReader : State := schedSees (leafTo true 0) { owning with contexts := [(1, { ctx1 with internal := [viaHost] })] }
def cfgAsked : Ctx := { ctx1 with reading := sentBy (cfgReader.internalReading ctx1 viaHost) }
theorem witness_LaunchesAreRead :
    (Reading.kind (reader.launchReading 0 (launchCmd devAddr)) = 0 ∧ Reading.kind (reader.launchReading 0 (launchCmd 1)) = 1
        ∧ Reading.kind (reader.launchReading 0 (launchCmd winAddr)) = 3 ∧ Reading.kind (readAsked.launchReading 0 (launchCmd winAddr)) = 2)
      ∧ (Reading.kind (internal.internalReading ctx1 launchOf) = 0 ∧ Reading.kind (cfgReader.internalReading ctx1 viaHost) = 3
        ∧ Reading.kind (cfgReader.internalReading cfgAsked viaHost) = 2) := by
  and_intros <;> decide +kernel
theorem witness_LaunchesPass :
    ((internal.ctx 1 = some { ctx1 with internal := [launchOf] }) ∧ (internal.leaderFor (64 + 1)).isSome = true ∧ ctx1.migrating = none
        ∧ leaderless.leaderFor (64 + 1) = none)
      ∧ ((ledBy 3).leading 0 = some 3 ∧ (ledBy 3).leaderFor 0 ≠ some 3 ∧ (ledBy 0).leaderFor 0 = some 0 ∧ item.leading 0 = none)
      ∧ owning.refusal task1 = none
      ∧ (roomy.runs px ∧ roomy.onCulvert = false ∧ roomy.readable [2] ∧ roomy.core.begins = true
        ∧ isOk (launchPlaces roomy) = true ∧ isOk (launchReads roomy) = true
        ∧ ((okOr (item, []) (launchReads roomy)).2.all fun r => r.answer.isSome) = true
        ∧ isOk (gather (okOr (item, []) (launchReads roomy)).2) = true
        ∧ ((okOr (item, []) (launchReads roomy)).1.ctx roomy.core.owner).isSome = true ∧ ctx1.internal.length < 256
        ∧ isTrap (launchPlaces (setReg 2 .null roomy)) = true)
      ∧ (isOk (launchReads toHost) = true ∧ ((okOr (item, []) (launchReads toHost)).2.any fun r => r.answer.isNone) = true)
      ∧ (256 ≤ (List.replicate 256 launchOf).length ∧ full.runs px ∧ (full.ctx full.core.owner).isSome = true) := by
  and_intros <;> decide +kernel

/-! System and corpse instructions. -/
def inScope (scope : Word) : State := setReg 6 (intReg (scope <<< 8)) fw
def apart (sync0 : Bool) : State :=
  { fw with dies := (fw.dies.set 0 { fw.dies[0] with sync := sync0 }).set 1 { fw.dies[1] with sync := false } }
/-- A culvert's command holds a page of context 1 that TRINV names. -/
def held : State := ({ fw with owners := [] }).setEngine culvert0 ⟨[{ gatherCmd with kind := .copy }], 1, []⟩
def entry1 : Journal := ⟨0, 1, 0, 64, 1, 1, 2, 0, 1, 0, 0, 0, 0⟩
def journalled : State := { setReg 6 (intReg 1) fw with journal := [entry1], nextSeq := 8 }
def named (op : Nat) (t : Task) : State := { setReg 6 (intReg (BitVec.ofNat 64 (0x101 + op * 2 ^ 40))) fw with tasks := [t], contexts := [(1, ctx1)] }
def debugged (s : State) : Option Task := (s.task ((s.gint 6).setWidth 8) ((s.gint 6).extractLsb' 8 32)).bind fun t => if t.alive then some t else none
def steps : Task := { task1 with desc := { desc1 with step := 0x80 } }
theorem witness_SystemInstructionsHaveTheirEffect :
    journalled.plainMemory ∧ (fw.runs px ∧ fw.onCulvert = false ∧ fw.itemMode = false ∧ fw.readable [0, 1, 5, 6])
      ∧ ({ fw with core := { fw.core with pending := [missRec] } }.eventPending = true ∧ fw.eventPending = false
        ∧ culvertAgent.itemMode = false ∧ fw.core.agent = .security)
      ∧ ((inScope 1).gint 0 = 0 ∧ ((inScope 1).gint 6).toNat < 2 ^ 11 ∧ ((inScope 1).gint 6).toNat / 256 % 8 = 1 ∧ ((inScope 3).gint 6).toNat / 256 % 8 = 3
        ∧ ((inScope 0).gint 6).toNat / 256 % 8 = 0 ∧ ((inScope 4).gint 6).toNat / 256 % 8 = 4 ∧ ((inScope 1).gint 1).toNat % 65536 = 7
        ∧ held.heldThrough ⟨3, 0, 0, 0⟩ = true ∧ fw.heldThrough ⟨3, 0, 0, 0⟩ = false)
      ∧ (4 ≤ (fw.gint 1).toNat ∧ ((fw.gint 0).setWidth 2 : BitVec 2) = fw.core.agent.die
        ∧ ((apart false).dieAt 1).sync = false ∧ (apart false).die.sync = false ∧ (apart true).die.sync = true ∧ ((1 : BitVec 2) ≠ fw.core.agent.die))
      ∧ (fw.nextSeq ≤ (fw.gint 0).toNat ∧ (journalled.gint 1).toNat < journalled.nextSeq ∧ journalFind 7 journalled.journal = none
        ∧ journalFind (journalled.gint 6).toNat journalled.journal = some entry1
        ∧ isOk (journalled.access (memAccess (journalled.g 2) 2 (journalled.g 2).cursor 64).store) = true
        ∧ (place journalled (memAccess (journalled.g 2) 2 (journalled.g 2).cursor 64).store).inModule)
      ∧ (sampleOk 0 = true ∧ sampleOk (2 * 24 + 1) = true ∧ sampleOk (2 * 25 + 1) = false ∧ monitorOk 0 = true ∧ monitorOk 0x10000010A = true
        ∧ ¬ ((fw.gint 5).toNat < 2 ^ 26 ∧ (fw.gint 5).toNat / 32 % 2048 = 0)) :=
  ⟨plain rfl (by decide +kernel), by and_intros <;> decide +kernel⟩
theorem witness_DebuggingHasItsEffect :
    (debugged (named 0 { task1 with state := .done }) = none ∧ debugged (named 0 task1) = some task1)
      ∧ ({ task1 with state := .stopped }.stopState ≠ 0 ∧ task1.stopState = 0 ∧ task1.stepWeir.isSome = false ∧ steps.stepWeir ≠ none
        ∧ steps.stopState = 0 ∧ { task1 with armed := true }.stopState = 1 ∧ { task1 with state := .stopped }.state = .stopped)
      ∧ (2 ^ 42 ≤ ((named 4 task1).gint 6).toNat ∧ ((named 3 task1).gint 6).toNat < 2 ^ 42) := by and_intros <;> decide +kernel
theorem witness_OwnersChange :
    (fw.onSecurity = true ∧ fw.readable [0, 1] ∧ ownTarget (fw.gint 0).toNat = some (.core c0) ∧ (fw.gint 1).toNat < 256)
      ∧ (fw.ownerOf (.core c0) = 0 ∧ ((fw.gint 1).setWidth 8 : BitVec 8) ≠ 0 ∧ fw.inHand (.core c0) = false ∧ c0 ∉ fw.absent)
      ∧ c0 ∈ { fw with absent := [c0] }.absent
      ∧ ({ fw with owners := [(0, 9)] }.ownerOf (.core c0) = 9
        ∧ { fw with tasks := [{ task1 with queues := [(0, [prologue])] }] }.inHand (.core c0) = true)
      ∧ ownTarget 4 = none := by and_intros <;> decide +kernel

def itemRec0 (st : BitVec 2) : ItemRec := ⟨0, 0, 0, [], st, item.core, 0, none, []⟩
def recOf (label st : BitVec 2) : DirRec := ⟨1, 0, label, 0, 0, 0, 0, 0, 0, [itemRec0 st]⟩
def corpseOf (r : DirRec) (grants : List (BitVec 8 × Nat)) : Corpse :=
  { id := 7, context := 1, fn := 0, cause := 0, freeze := 0, quota := 2 ^ 31, tasks := 1, records := [r], descs := [task1], commands := [],
    refused := [], killer := 0, grants := grants, used := 0, cmdlist := 0, copied := [], space := [], spaces := [], sectors := [], spadTorn := [] }
/-- Corpse 7 mounted in slot 0 by the running context; g7 its mount, g6 the task's number. -/
def withCorpse (r : DirRec) (grants : List (BitVec 8 × Nat)) : State :=
  setReg 8 (taskCap 1) (setReg 7 (mountCap 0) (setReg 6 (intReg 1)
    { item with corpses := [corpseOf r grants], contexts := [(1, { ctx1 with mounts := [(0, (7, 0))], lastSlot := some 0 })] }))
def corpses : State := withCorpse (recOf 0 0) [(1, 1)]
theorem witness_CorpseInstructionsHaveTheirEffect :
    (corpses.runs px ∧ corpses.onCulvert = false ∧ corpses.readable [0, 1, 2, 6, 7, 8])
      ∧ ((corpses.g 0).tag = false ∧ (corpses.g 8).tag = true ∧ taskNamed corpses.core.owner (corpses.g 8) corpses.tasks = some task1
        ∧ taskNamed corpses.core.owner (corpses.g 2) corpses.tasks = none ∧ (corpses.ctx corpses.core.owner).isSome = true
        ∧ (corpses.g 7).tag = true ∧ taskNamed corpses.core.owner (corpses.g 7) corpses.tasks = none ∧ (corpses.g 7).base ≠ dataRoot.base
        ∧ taskNamed corpses.core.owner dataRoot corpses.tasks = none)
      ∧ ((corpses.gint 1).toNat < 2 ^ 32 ∧ (corpseFind ((corpses.gint 1).setWidth 32) corpses.corpses).isSome = true
        ∧ corpseFind ((corpses.gint 0).setWidth 32) corpses.corpses = none
        ∧ (corpseOf (recOf 0 0) [(1, 1)]).grantsTo ctx1 = true ∧ (corpseOf (recOf 0 0) [(1, 2)]).grantsTo ctx1 = false
        ∧ (corpses.gint 0).toNat % 2 ^ 31 = 0 ∧ freeSlot [(0, (7, 0))] 1 4096 = some 1 ∧ freeSlot [(0, (7, 0))] 4096 4096 = some 1)
      ∧ ((corpseOf (recOf 0 0) []).awaiting = false
        ∧ (corpseOf { recOf 0 0 with items := [{ itemRec0 0 with core := { (itemRec0 0).core with wait := some (.host []) } }] } []).awaiting = true)
      ∧ ((okOr (9, corpseOf (recOf 0 0) []) (corpses.mountOf 7)).1 = 0 ∧ isOk (corpses.mountOf 2) = false
        ∧ corpses.slotHeld 0 = false ∧ (corpses.setEngine engine0 ⟨[{ gatherCmd with slots := [0] }], 1, []⟩).slotHeld 0 = true)
      ∧ (((corpseOf (recOf 0 0) []).label corpses.fitted 1).isSome = true ∧ (corpseOf (recOf 0 0) []).label corpses.fitted (2 ^ 32) = none
        ∧ ((corpseOf (recOf 0 0) []).item 0 0).isSome = true ∧ (itemRec0 0).state ≠ 3 ∧ (corpseOf (recOf 0 0) []).item 0 1 = none
        ∧ 0x68 < (0x69 : Nat) % 256)
      ∧ ((freezeRecord ((corpses.gint 6).setWidth 32) 0 [recOf 0 0]).isSome = true ∧ freezeRecord ((corpses.gint 0).setWidth 32) 0 [recOf 0 0] = none
        ∧ (descOfTask ((corpses.gint 6).setWidth 32) [task1]).isSome = true
        ∧ (recOf 1 0).label = 1 ∧ (recOf 2 0).label = 2 ∧ (recOf 0 1).items ≠ [] ∧ (∀ e ∈ (recOf 0 1).items, e.state = 1)
        ∧ (recOf 0 0).label = 0 ∧ (∃ e ∈ (recOf 0 0).items, e.state ≠ 1) ∧ [recOf 0 0].length < 4096)
      ∧ (4096 ≤ (List.replicate 4096 (recOf 0 0)).length
        ∧ ((corpses.after px [1, 7, 6]).release 3).ctx ((corpses.after px [1, 7, 6]).release 3).core.owner = corpses.ctx 1
        ∧ (corpses.ctx 1).map (fun c => decide (c.internal.length < 256)) = some true
        ∧ 256 ≤ { ctx1 with internal := List.replicate 256 launchOf }.internal.length) := by
  and_intros <;> decide +kernel
theorem witness_CiphersWorkLaneByLane : fw.runs px ∧ fw.onSecurity = true ∧ fw.readableV [1, 2, 3] := by and_intros <;> decide +kernel

def waitingTask : Task := { task1 with state := .waiting, cls := 0, desc := { desc1 with cls := 0 }, shape := [], placed := [], slots := [] }
def placing (t : Task) : State :=
  { State.reset with contexts := [(1, ctx1)], tasks := [t], owners := (upFrom 0 8).map fun k => ((coreOf 0 0 k).index, 1) }
def oldTask (age : Nat) : State :=
  { placing { waitingTask with cls := 2, desc := { desc1 with cls := 2 } } with
    dies := Vector.replicate 4 { Die.reset with atime := BitVec.ofNat 64 age } }
/-- A class-1 task runs in the one reserved cluster, and a class-0 task waits. -/
def crowded : State :=
  let u := { waitingTask with num := 2 }
  { State.reset with contexts := [(1, ctx1)], tasks := [{ task1 with cls := 1 }, u], owners := (upFrom 0 8).map fun k => ((coreOf 0 0 k).index, 1),
                     clusters := [(0, { Cluster.reset with context := 1, inUse := true })] }
def frozenAnswer : State :=
  { waitsFor (.host [answered (requestOf toHost (out toHost 8))]) toHost with freezing := [⟨7, 1, some [1], 0, 0, 0, 0, [], [], none, []⟩] }
def freezingState (instant : Tick) : State := { item with freezing := [⟨7, 1, some [1], 0, 0, 0, instant, [], [], none, []⟩] }
theorem witness_SchedulersNameTheirTeam : teamOrder [(0, 0)] = [(0, 0)] := by decide +kernel
theorem witness_SchedulersStartStopAndFreeze :
    ((placing waitingTask).task 1 1 = some waitingTask ∧ ((placing waitingTask).mayStart waitingTask [(0, 0)]).isSome = true)
      ∧ (let t := { waitingTask with state := .preempted, shape := [8] }
         (placing t).raiseAll.task 1 1 = some t ∧ ((placing t).raiseAll.mayStart t (teamOrder [(0, 0)])).isSome = true)
      ∧ (crowded.displaced { waitingTask with num := 2 }).map Task.num = [1]
      ∧ (placing waitingTask).mayStart waitingTask [] = none
      ∧ ((placing waitingTask).raiseAll.task 1 1 = some waitingTask
        ∧ ((placing waitingTask).raiseAll.mayStart waitingTask (teamOrder [(0, 0)])).isSome = true ∧ waitingTask.state = .waiting
        ∧ (placing waitingTask).raiseAll.mayStart waitingTask (teamOrder []) = none)
      ∧ (waitingTask.desc.cls.toNat % 4 = 0 ∧ (2 : BitVec 8).toNat % 4 ≠ 0 ∧ ((oldTask 160000000).packageTime - 0).toNat / 160000000 = 1
        ∧ ((oldTask 159999999).packageTime - 0).toNat / 160000000 = 0)
      ∧ (item.mayPreempt { task1 with stopping := true } = true ∧ item.mayPreempt task1 = false ∧ (task1.slots.all fun c => !(item.agent (.core c)).issuedWait) = true
        ∧ (waitsFor (.host [requestOf toHost (out toHost 8)]) toHost).mayPreempt { task1 with stopping := true } = true
        ∧ (task1.slots.any fun c => ((waitsFor (.host [requestOf toHost (out toHost 8)]) toHost).agent (.core c)).issuedWait) = true)
      ∧ (let z : Freezing := ⟨7, 1, some [1], 0, 0, 0, 0, [], [], none, []⟩
         (freezingState 0).readyFreeze 7 = some z ∧ z.id ≠ 0 ∧ ((freezingState 0).ctx z.context).isSome = true
          ∧ (freezingState 0).answeredCore ((freezingState 0).freezeTargets z) = none ∧ (freezingState 1).readyFreeze 7 = none
          ∧ (frozenAnswer.readyFreeze 7).isSome = true ∧ frozenAnswer.answeredCore (frozenAnswer.freezeTargets z) ≠ none)
      ∧ (freezeFind 1 (some 1) item.freezing = none ∧ (0 : BitVec 2) ≠ 1) := by and_intros <;> decide +kernel

/-! The host, the fabric, resets, sessions. -/
theorem witness_HostRegistersTakeWrites :
    (isRingReg (0x008 : BitVec 12).toNat = true ∧ isRingReg (0x048 : BitVec 12).toNat = true ∧ isRingReg (0x010 : BitVec 12).toNat = false
        ∧ item.ringBusy 0 = false ∧ (item.setFn 0 { Fn.reset with qtail := 1 }).ringBusy 0 = true)
      ∧ (ringValueOk 0x008 4 = true ∧ ringValueOk 0x008 14 = true ∧ ringValueOk 0x028 16 = true ∧ ringValueOk 0x008 3 = false
        ∧ ringValueOk 0x008 15 = false ∧ ringValueOk 0x028 17 = false ∧ ringValueOk 0x000 0x1000 = true ∧ ringValueOk 0x000 0x800 = false)
      ∧ (let x := { Fn.reset with completions := [[1]], master := true }
         x.completions ≠ [] ∧ x.events = [] ∧ x.master = true ∧ ringSlots x.csize 16 = 0)
      ∧ ((0x080 : BitVec 12) ≠ 0x008 ∧ (4 : Nat) ≠ 8) := by and_intros <;> decide +kernel

def linked (replays : Nat) : State :=
  { item with fabric := { Fabric.reset with up := Fabric.reset.up.set 3 true, replays := Fabric.reset.replays.set 3 replays,
                                            imports := [⟨5, 1, 0, true, true⟩], routes := [(7, 3)] } }
def flit (k : FlitKind) (dest : BitVec 19) (ok : Bool) : Flit := ⟨dest, 5, 1, 77, 0x100, 8, k, ok⟩
def hostReq : Request := requestOf toHost (out toHost 8)
def hostAtomic : Request := { hostReq with atomic := some (0, 1, 0) }
def peerReq : Request := requestOf toPeer (out toPeer 8)
def asking (r : Request) : State := waitsFor (.host [answered hostReq, r]) toHost
def dmaAsking : State := culv { awayCmd (cmdOf 0) (leafTo true 0) with requests := [answered hostReq, hostReq] }
/-- A write on its way to peer 5 over a port, and one before it over port 4. -/
def sentTo (port : BitVec 4) : Flight := ⟨peerLoc 5 0x40, [1], false, none, none, .core c0, 0, item.core.origin, 0, some port, 0x40, 0x80000, [], false⟩
def sending (up4 : Bool) : State :=
  { linked 0 with flights := [sentTo 4, sentTo 3], fabric := { (linked 0).fabric with up := (linked 0).fabric.up.set 4 up4 } }
theorem witness_FabricAndHostAnswer :
    ((asking hostReq).asker (.core c0) = some (.self, hostReq) ∧ (asking peerReq).asker (.core c0) = some (.self, peerReq)
        ∧ hostReq.atomic = none ∧ (asking hostAtomic).asker (.core c0) = some (.self, hostAtomic) ∧ hostAtomic.atomic = some (0, 1, 0)
        ∧ isHostLoc hostReq.loc = true ∧ isHostLoc peerReq.loc = false ∧ Completion.unsupported ≠ .data 0 ∧ item.asker (.core c0) = none
        ∧ item.hostAtomics = true ∧ { item with hostAtomics := false }.hostAtomics = false)
      ∧ (((asking hostReq).agent (.core c0)).wait = some (.host ([answered hostReq] ++ hostReq :: [])) ∧ (answered hostReq).answer.isSome = true
        ∧ hostReq.answer = none ∧ (asking hostReq).corpses = [])
      ∧ (dmaAsking.headCmd culvert0 = some { awayCmd (cmdOf 0) (leafTo true 0) with requests := [answered hostReq, hostReq] }
        ∧ (dmaAsking.agent (.culvert ⟨0, 0, 0⟩)).wait = none ∧ dmaAsking.corpses = []) := by and_intros <;> decide +kernel
theorem witness_FlitsOfEveryKind :
    (item.fabric.up[3] = false ∧ (linked 0).fabric.up[3] = true ∧ (linked 7).fabric.replays[3] + 1 < 9 ∧ 9 ≤ (linked 8).fabric.replays[3] + 1
        ∧ (flit .load 1 true).dest ≠ (linked 0).device ∧ (flit .load 0 true).dest = (linked 0).device ∧ (flit .load 0 false).crcOk = false
        ∧ (flit .load 0 true).size ≤ 240 ∧ (linked 0).fabric.portFor 7 = some 3 ∧ (linked 0).fabric.portFor 1 = none)
      ∧ ((linked 0).imported (flit .load 0 true) false true = true ∧ (linked 0).imported (flit (.store [1]) 0 true) true false = true
        ∧ (linked 0).imported (flit (.atomic 0 true 1 0) 0 true) true true = true
        ∧ (linked 0).imported (flit (.timedStore [1] 9 0 0 0 0) 0 true) true false = true
        ∧ (linked 0).imported ⟨0, 5, 2, 77, 0x100, 8, .load, true⟩ false true = false
        ∧ (linked 0).imported ⟨0, 5, 2, 77, 0x100, 8, .timedStore [1] 9 0 0 0 0, true⟩ true false = false
        ∧ (linked 0).imported ⟨0, 5, 2, 77, 0x100, 8, .atomic 0 true 1 0, true⟩ true true = false
        ∧ (linked 0).imported ⟨0, 5, 1, 77, 0xFFFC, 8, .store [1], true⟩ true false = false
        ∧ Memory.wf (linked 0).mem = true)
      ∧ (((linked 0).dieAt 0).atime + 1 = 1 ∧ (1 : Tick).toNat ≤ (9 : Tick).toNat ∧ (0 : Tick).toNat < (1 : Tick).toNat)
      ∧ (listAt ((sending true).flights.filter fun (g : Flight) => isPeerLoc g.loc && g.loc / spaceSize - 16 = (5 : BitVec 19).toNat) 1 = some (sentTo 3)
        ∧ (sending true).heldBehind (sentTo 3) [sentTo 4] = false ∧ (sending false).heldBehind (sentTo 3) [sentTo 4] = true
        ∧ (sending true).refuses (sentTo 3) = false ∧ AgentId.engine (sentTo 3).agent = none ∧ listAt (sending true).flights 2 = none)
      ∧ (item.fabric.disciplined = true ∧ { item.fabric with disciplined := false }.disciplined = false ∧ item.fabric.slew.natAbs ≤ 32
        ∧ 32 < { item.fabric with slew := 33 }.slew.natAbs ∧ ((33 : Tick) - item.packageTime).toInt.natAbs = 33)
      ∧ (State.reset.sec.fresh = true ∧ { State.reset with sec := { State.reset.sec with fresh := false } }.sec.fresh = false
        ∧ (5 : BitVec 64).toNat < 2 ^ 63 ∧ 2 ^ 63 ≤ (BitVec.allOnes 64).toNat) := by and_intros <;> decide +kernel

def monSample : Sampled := ⟨0x80000, 1, 0, 1, 0⟩
/-- Sampling is on; the marked instruction has left the pipeline, and a channel of die 0 has an entry due. -/
def sampled (smpl : Word) (gap : Nat) (mark : Option Mark) : State :=
  { item with core := { item.core with csr := { item.core.csr with smpl := smpl }, gap := gap, mark := mark },
              dies := item.dies.set 0 { item.dies[0] with monitors := item.dies[0].monitors.set 1 ⟨0x10000010A, 5, [monSample]⟩ } }
theorem witness_ResetsFailuresAndSamples :
    ((sampled 0 0 none).agent (.core c0)).mark = none
      ∧ ((sent (timedOf 0 0 (some 0))).timed = [timedOf 0 0 (some 0)] ∧ (timedOf 0 0 (some 0)).homeDie = 0 ∧ (timedOf 0 0 (some 0)).peer = none
        ∧ (timedOf 0 0 (some 0)).arrival = some 0 ∧ (0 : Tick) ≤ (sent (timedOf 0 0 (some 0))).dies[0].atime)
      ∧ (item.contexts = [(1, ctx1)] ∧ ctx1.fn = 0 ∧ (0x060 : Nat) ≤ 0x080 ∧ Memory.wf item.mem = true
        ∧ (item.script = [] ∧ isHostLoc (tcmLoc 0 0) = false ∧ isPeerLoc (tcmLoc 0 0) = false))
      ∧ (let m : Mark := ⟨monSample, 0, false, false, some 0⟩
         ((sampled 0x31 5 (some m)).agent (.core c0)).mark = some m ∧ m.left.isSome = true ∧ (sampled 0x31 5 (some m)).ctx m.of.owner = some ctx1
          ∧ ctx1.num = m.of.owner)
      ∧ (((sampled 0 0 none).dieAt 0).monitors[0].spills = [] ∧ ((sampled 0 0 none).dieAt 0).monitors[1].spills = [monSample]
        ∧ (sampled 0 0 none).ctx monSample.owner = some ctx1)
      ∧ (∀ gap ∈ [0, 1, 5], let k := (sampled 0x31 gap none).core; k.csr.smpl.getLsbD 0 = true ∧ k.wait = none ∧ k.gap = gap)
      ∧ (sampled 0 0 none).core.csr.smpl.getLsbD 0 = false
      ∧ (5 + 1 < (0x10000000A : Word).toNat / 2 ^ 32 * 10 ∧ 0 < (0x10000010A : Word).toNat / 2 ^ 32 ∧ (0x10000010A : Word).toNat / 2 ^ 32 ≤ 5 + 1) := by
  and_intros <;> decide +kernel

def talking (x : Spdm) : State := item.setFn 0 { Fn.reset with spdm := x }
def session : Spdm := { Spdm.reset with state := .negotiated, session := some 7, secure := true }
def offered : AlgOffer := ⟨0, 0x800, 0x10, 0x10, 0x2, []⟩
theorem witness_SpdmFollowsItsStates :
    (item.spdmOf 0).state ≠ .versioned
      ∧ ((talking { Spdm.reset with state := .versioned }).spdmOf 0).state = .versioned
      ∧ ((talking { Spdm.reset with state := .capable }).spdmOf 0).state = .capable
      ∧ (((talking session).spdmOf 0).state = .negotiated ∧ ((talking session).spdmOf 0).session = some 7 ∧ session.finished = false)
      ∧ ({ session with finished := true }.session.isSome = true ∧ { session with finished := true }.finished = true)
      ∧ (offered.asym.getLsbD 11 = true ∧ offered.hash.getLsbD 4 = true ∧ { offered with hash := 0 }.hash.getLsbD 4 = false
        ∧ session.secure = true ∧ Spdm.reset.secure = false ∧ { session with finished := true }.inSession = true ∧ session.inSession = false)
      ∧ (item.measured 0 = some [16] ∧ (item.measured 16).isSome = true ∧ item.measured 17 = none ∧ (item.measured 0xFF).isSome = true)
      ∧ (supportedCodes.contains 0x81 = false ∧ (0 : BitVec 4) = 0 ∧ (1 : BitVec 4) ≠ 0) := by and_intros <;> decide +kernel
/-- R393: a certificate chain holds its signature, so an offset of 0 lies inside it. -/
theorem witness_CertificateChainsAreNotEmpty : 0 < item.certificateChain.length := by
  rw [State.certificateChain, List.length_append]
  exact Nat.lt_of_lt_of_le (by rw [ed448Sign, List.length_append, length_bytesOf]; exact Nat.lt_of_lt_of_le (by decide) (Nat.le_add_left 57 _)) (Nat.le_add_left _ _)
/-- R394: a record opens as the request that it seals, and one with a byte before it does not. -/
theorem witness_RecordsOpen (x : Spdm) (request : List Byte) :
    x.opens (x.sealed false x.received request) request = true
      ∧ x.opens (0 :: x.sealed false x.received request) request = false :=
  ⟨x.opens_sealed request, x.opens_not 0 request⟩

def vendor (guest binding : Option Nat) (tdi : TdiState) : State :=
  (item.setFn 0 { Fn.reset with spdm := { session with finished := true, guest := guest }, tdi := tdi, binding := binding })
def migrating (stage : MigrationStage) : State := { item with migrations := [⟨1, 5, 0, stage, 1⟩] }
/-- A context whose area and ring may lie where they do, and one whose area is not aligned. -/
def ctx2 (area : Addr) : Ctx :=
  { ctx1 with num := 2, area := area, areaPa := 0x200000, trace := 0x10000400000, tracePa := 0x400000, traceLog := 10 }
theorem witness_VendorCommandsAndContexts :
    (let s := vendor none none .unlocked; (s.spdmOf 0).inSession = true ∧ (s.fn 0).tdi = .unlocked)
      ∧ (let s := vendor (some 3) (some 3) .run; (s.spdmOf 0).inSession = true ∧ (s.fn 0).binding = some 3 ∧ (s.spdmOf 0).guest = some 3)
      ∧ (let s := vendor (some 3) (some 4) .run
         (s.spdmOf 0).inSession = true ∧ (s.fn 0).tdi ≠ .unlocked ∧ ¬ ∃ g, (s.fn 0).binding = some g ∧ (s.spdmOf 0).guest = some g)
      ∧ (item.spdmOf 0).inSession = false
      ∧ (item.ctx 1 = some ctx1 ∧ ctx1.fn = 0 ∧ ctx1.num = 1 ∧ ctx1.migrating = none ∧ assocGet item.sec.channels 0 = none
        ∧ migrationFind 1 item.migrations = none ∧ (2 ^ 26 : Nat) % 2 ^ 26 = 0)
      ∧ ((corpseFind 7 corpses.corpses).isSome = true ∧ (corpseOf (recOf 0 0) [(1, 1)]).fn = 0 ∧ [(1, 1)].length < 8
        ∧ (corpseOf (recOf 0 0) []).guest = none ∧ { corpseOf (recOf 0 0) [] with guest := some 3 }.guest = some 3
        ∧ corpses.mounted 7 = true ∧ { corpses with contexts := [(1, ctx1)] }.mounted 7 = false)
      ∧ (7 ≤ (7 : BitVec 4).toNat ∧ (6 : BitVec 4).toNat < 7)
      ∧ (ownTarget 0 = some (.core c0) ∧ fw.ownerOf (.core c0) = 0 ∧ c0 ∉ fw.absent ∧ fw.inHand (.core c0) = false)
      ∧ (item.ctx 2 = none ∧ Memory.wf item.mem = true ∧ item.ownsNothing 2 = true ∧ item.ownsNothing 1 = false
        ∧ (ctx2 0x10000200000).placed item.fitted = true ∧ (ctx2 0x10000200001).placed item.fitted = false
        ∧ State.reset.sec.fresh = true ∧ { item.sec with fresh := false }.fresh = false
        ∧ { item with owners := [], contexts := [(1, ctx1)] }.ownsNothing 1 = true)
      ∧ (migrationFind 1 (migrating .atSource).migrations = some ⟨1, 5, 0, .atSource, 1⟩ ∧ (migrating .atSource).ctx 1 = some ctx1
        ∧ { ctx1 with migrating := some 5 }.migrating.isSome = true
        ∧ migrationFind 1 (migrating .installed).migrations = some ⟨1, 5, 0, .installed, 1⟩
        ∧ (∀ e ∈ item.tasks, e.context = 1 → e.state = .running → item.awaits e = false)
        ∧ 5 ∈ { item.sec with sessions := [5] }.sessions ∧ 5 ∉ item.sec.sessions ∧ item.givable (item.ownPages (ctx2 0x10000200000)) = true
        ∧ migrationFind 1 (migrating .committed).migrations = some ⟨1, 5, 0, .committed, 1⟩) := by and_intros <;> decide +kernel

/-! ## Effects that the manual works out -/

def after (i : Instr) (s : State) : State := match exec i s with | .next t => t | _ => s
/-- R103's example of BINS. -/
theorem test_bins_manual : (after (.bins pr1 5 7 6) (setReg 5 (intReg (-1)) (setReg 6 (intReg 0xAB) (setReg 7 (intReg 0x804) fw)))).gint 5
    = 0xFFFFFFFFFFFFFABF := by decide +kernel
/-- R100: division by zero, and the most negative dividend by -1. -/
theorem test_div_corners :
    (after (.div pr1 5 6 7) (setReg 7 (intReg 9) (setReg 6 (intReg 0) fw))).gint 5 = 0xFFFFFFFFFFFFFFFF
      ∧ (after (.div pr1 5 6 7) (setReg 7 (intReg 0x8000000000000000) (setReg 6 (intReg (-1)) fw))).gint 5 = 0x8000000000000000 := by
  and_intros <;> decide +kernel
/-- R119: the first two draws of key 0. -/
theorem test_srnd_manual :
    (after (.srnd pr1 5 0 1) (setReg 1 (intReg 1) fw)).gint 5 = 0xE220A839
      ∧ (after (.srnd pr1 5 0 1) (setReg 1 (intReg 2) fw)).gint 5 = 0x6E789E6A := by and_intros <;> decide +kernel
/-- R53's worked capability: its bits, and what a load of 4 and of 8 bytes at its cursor does. -/
def worked : GReg := mkCap 3 false 3 40 0 0x10000002000 0x10000002024
theorem test_capability_manual :
    worked.bits = 0x30C00A00010000002000010000002024 ∧ worked.inBounds worked.cursor 4 = true ∧ worked.inBounds worked.cursor 8 = false := by
  and_intros <;> decide +kernel
/-- R403: KECCAK of zero, and the carry-less product of 3 and 3. -/
theorem test_keccak_manual : (keccak1600 0) % 2 ^ 64 = 0xF1258F7940E1DDE7 := by decide +kernel
theorem test_clmul_manual : clmul64 3 3 = 5 := by decide +kernel
/-- R302: the IV is the channel as 32 bits, then the counter: channel 3, counter 5. -/
theorem test_iv : { item.newCmd .copy .null .null .null 0 [] with channel := 3, aad := 5 }.iv = 3 + 5 * 2 ^ 32 := by decide +kernel
/-- R324: a kept B of MMAS is two consecutive slots: those of counts 0 and 1. -/
theorem test_mmas_kept_slots :
    (okOr [] (fed.takeSlots false [] (wantS true))).map Slot.k = [0, 0, 0, 1] := by decide +kernel

end Sys2Proof.Tests
end

section
/-! SUPPORT. The state's tables read after a write: agents, dies, contexts, functions, and the trace ring. -/

namespace Sys2Proof.Machine

/-! ## Agents (R2): reading one after writing one -/

theorem parkedGet_put_same (l : List Core) (c : Core) : parkedGet (parkedPut l c) c.agent = some c := by
  induction l with
  | nil => simp [parkedPut, parkedGet]
  | cons d rest ih =>
    by_cases h : d.agent = c.agent
    · simp [parkedPut, parkedGet, h]
    · simp [parkedPut, parkedGet, h, ih]

theorem parkedGet_put_other (l : List Core) (c : Core) {a : AgentId} (ha : a ≠ c.agent) :
    parkedGet (parkedPut l c) a = parkedGet l a := by
  induction l with
  | nil => simp [parkedPut, parkedGet, ha.symm]
  | cons d rest ih =>
    by_cases h : d.agent = c.agent
    · simp [parkedPut, parkedGet, h, ha.symm]
    · simp [parkedPut, parkedGet, h, ih]

theorem agent_of_parkedGet {l : List Core} {a : AgentId} {c : Core} (h : parkedGet l a = some c) : c.agent = a := by
  induction l with
  | nil => cases h
  | cons d rest ih =>
    by_cases hd : d.agent = a
    · simp only [parkedGet, hd, if_true, Option.some.injEq] at h
      exact h ▸ hd
    · exact ih (by simpa [parkedGet, hd] using h)

/-- The core that an agent's number names is that agent's. -/
@[simp] theorem State.agent_agent (s : State) (a : AgentId) : (s.agent a).agent = a := by
  unfold State.agent
  split_ifs with h
  · exact h
  · cases hp : parkedGet s.parked a with
    | none => rfl
    | some c => exact agent_of_parkedGet hp

theorem State.agent_setAgent_same (s : State) {c : Core} {a : AgentId} (ha : c.agent = a) : (s.setAgent c).agent a = c := by
  subst ha
  by_cases h : s.core.agent = c.agent
  · simp [State.setAgent, State.agent, h]
  · simp [State.setAgent, State.agent, h, parkedGet_put_same]

theorem State.agent_setAgent_other (s : State) (c : Core) {a : AgentId} (ha : a ≠ c.agent) :
    (s.setAgent c).agent a = s.agent a := by
  by_cases h : s.core.agent = c.agent
  · simp [State.setAgent, State.agent, h, ha.symm]
  · simp [State.setAgent, State.agent, h, parkedGet_put_other s.parked c ha]

/-! ## Dies and contexts: reading one after writing one -/

@[simp] theorem State.dieAt_setDie_same (s : State) (d : BitVec 2) (x : Die) : (s.setDie d x).dieAt d = x := by
  simp [State.dieAt]

theorem State.dieAt_setDie_other (s : State) {d e : BitVec 2} (x : Die) (h : e ≠ d) : (s.setDie d x).dieAt e = s.dieAt e := by
  have hne : d.toNat ≠ e.toNat := fun heq => h (BitVec.eq_of_toNat_eq heq.symm)
  simp [State.dieAt, hne]

@[simp] theorem State.dieAt_tick_monitors (s : State) (d : BitVec 2) : (s.tick.dieAt d).monitors = (s.dieAt d).monitors := by
  have hd (n : Nat) (x : Die) : (x.tick n).monitors = x.monitors := by
    unfold Die.tick
    split <;> rfl
  unfold State.dieAt State.tick
  dsimp only
  split
  · rfl
  · simp [hd]

@[simp] theorem State.ctx_setCtx_same (s : State) (c : Ctx) : (s.setCtx c).ctx c.num = some c :=
  assocGet_put_same s.contexts c.num.toNat c

@[simp] theorem State.fn_setFn_same (s : State) (f : Nat) (x : Fn) : (s.setFn f x).fn f = x := by
  simp [State.fn, assocGetD, assocGet_put_same]

/-! ## Trace entries (R404): what one changes -/

theorem State.takeLine_eq (s : State) (key line : Nat) :
    ∃ m t l, s.takeLine key line = { s with mem := m, tags := t, lines := l } := by
  unfold State.takeLine
  split_ifs <;> exact ⟨_, _, _, rfl⟩

theorem State.takeLines_eq (s : State) (key : Nat) (ks : List Nat) :
    ∃ m t l, s.takeLines key ks = { s with mem := m, tags := t, lines := l } := by
  induction ks generalizing s with
  | nil => exact ⟨s.mem, s.tags, s.lines, rfl⟩
  | cons k rest ih =>
    obtain ⟨m, t, l, h⟩ := s.takeLine_eq key k
    obtain ⟨m', t', l', h'⟩ := ih (s.takeLine key k)
    exact ⟨m', t', l', h'.trans (by rw [h])⟩

/-- An entry is written into the ring of a context, which counts it; without the context nothing changes. -/
theorem State.trace_eq (s : State) (n : BitVec 8) (kind : Nat) (die : BitVec 2) (core item task : Nat) (step : Word)
    (body : List (Nat × Nat × Nat)) :
    ∃ m t b l, s.trace n kind die core item task step body = { s with
      mem := m, tags := t, bad := b, lines := l,
      contexts := match s.ctx n with
        | some c => assocPut s.contexts c.num.toNat { c with written := c.written + 1 }
        | none => s.contexts } := by
  unfold State.trace
  cases s.ctx n with
  | none => exact ⟨s.mem, s.tags, s.bad, s.lines, rfl⟩
  | some c =>
    dsimp only
    generalize devLoc _ = l
    generalize List.map _ _ = entry
    obtain ⟨m, t, ls, h⟩ := s.takeLines_eq 0 (unitsOf 64 l 128)
    rw [h]
    generalize hu : State.writeBytes _ l entry = u
    obtain ⟨m', t', ls', h'⟩ := u.takeLines_eq 0 (unitsOf 64 (devLoc c.tracePa) 8)
    rw [h', ← hu]
    exact ⟨_, _, _, _, rfl⟩

theorem State.trace_agent (s : State) (n : BitVec 8) (kind : Nat) (die : BitVec 2) (core item task : Nat) (step : Word)
    (body : List (Nat × Nat × Nat)) (a : AgentId) : (s.trace n kind die core item task step body).agent a = s.agent a := by
  obtain ⟨m, t, b, l, h⟩ := s.trace_eq n kind die core item task step body
  rw [h]
  rfl

theorem State.trace_dieAt (s : State) (n : BitVec 8) (kind : Nat) (die : BitVec 2) (core item task : Nat) (step : Word)
    (body : List (Nat × Nat × Nat)) (d : BitVec 2) : (s.trace n kind die core item task step body).dieAt d = s.dieAt d := by
  obtain ⟨m, t, b, l, h⟩ := s.trace_eq n kind die core item task step body
  rw [h]
  rfl

theorem State.trace_ctx {s : State} {n : BitVec 8} {x : Ctx} (hx : s.ctx n = some x) (kind : Nat) (die : BitVec 2)
    (core item task : Nat) (step : Word) (body : List (Nat × Nat × Nat)) :
    (s.trace n kind die core item task step body).ctx x.num = some { x with written := x.written + 1 } := by
  obtain ⟨m, t, b, l, h⟩ := s.trace_eq n kind die core item task step body
  rw [h, hx]
  exact State.ctx_setCtx_same s { x with written := x.written + 1 }

end Sys2Proof.Machine
end

section
/-! SUPPORT. Freezes (R358): one that has been started stays awaited, and the corpses discarded for it change no function. -/

namespace Sys2Proof.Machine

/-- What making room for a corpse and ending its revivals may change: memory, corpses, the charges and counters of contexts,
overlays and the catalogue's counts. -/
def State.CorpsesOnly (s t : State) : Prop :=
  t = { s with mem := t.mem, tags := t.tags, colours := t.colours, corpses := t.corpses, contexts := t.contexts,
               overlays := t.overlays, placedIds := t.placedIds }

theorem State.CorpsesOnly.trans {s t u : State} (h : s.CorpsesOnly t) (h' : t.CorpsesOnly u) : s.CorpsesOnly u :=
  Eq.trans h' (by rw [h])
theorem State.CorpsesOnly.fns {s t : State} (h : s.CorpsesOnly t) : t.fns = s.fns := by rw [h]
theorem State.CorpsesOnly.freezing {s t : State} (h : s.CorpsesOnly t) : t.freezing = s.freezing := by rw [h]

theorem State.signalCounter_corpsesOnly (s : State) (n : BitVec 8) (k : BitVec 12) (v : Word) :
    s.CorpsesOnly (s.signalCounter n k v) := by
  unfold State.signalCounter
  split <;> rfl

theorem State.endRevival_corpsesOnly (s : State) (t : Task) (v : Revival) (kind label : BitVec 2) (reason : BitVec 8)
    (time : Tick) (id : BitVec 32) (items : List ItemRec) (keep : Bool) :
    s.CorpsesOnly (s.endRevival t v kind label reason time id items keep) := by
  refine State.CorpsesOnly.trans ?_ (State.signalCounter_corpsesOnly _ v.reviver v.counter 1)
  dsimp only
  split_ifs
  · rfl
  · split <;> rfl

theorem State.endKilled_corpsesOnly (s : State) (t : Task) (items : List ItemRec) (instant : Tick) (id : BitVec 32) :
    s.CorpsesOnly (s.endKilled t items instant id) := by
  unfold State.endKilled
  split
  · exact s.endRevival_corpsesOnly ..
  · rfl

/-- A fold of such changes is one. -/
theorem State.CorpsesOnly.foldl {α : Type} {f : State → α → State} (hf : ∀ (s : State) (a : α), s.CorpsesOnly (f s a))
    (l : List α) (s : State) : s.CorpsesOnly (l.foldl f s) := by
  induction l generalizing s with
  | nil => rfl
  | cons a rest ih => exact (hf s a).trans (ih (f s a))

theorem State.discard_corpsesOnly (s : State) (id : BitVec 32) : s.CorpsesOnly (s.discard id) := by
  unfold State.discard
  split
  · rfl
  next c _ =>
    refine (State.CorpsesOnly.foldl (fun u t => u.endKilled_corpsesOnly t (c.frozenItems t.num) c.freeze id) c.revivals s).trans ?_
    dsimp only
    split
    · split_ifs <;> rfl
    · rfl

theorem State.newCorpse_corpsesOnly (s : State) : s.CorpsesOnly s.newCorpse.1 := by
  unfold State.newCorpse
  dsimp only
  generalize freeIndex _ 0 4096 = first
  cases first with
  | some i => rfl
  | none =>
    cases oldestFree s s.corpses with
    | none => rfl
    | some c =>
      have hd := s.discard_corpsesOnly c.id
      dsimp only
      generalize freeIndex _ 0 4096 = second
      cases second with
      | none => exact hd
      | some i => exact hd.trans rfl

/-- A freeze of a whole context is awaited. -/
def State.awaitsFreeze (s : State) (n : BitVec 8) : Prop := ∃ z ∈ s.freezing, z.context = n ∧ z.tasks = none

theorem freezeFind_context_isSome (n : BitVec 8) (l : List Freezing) :
    (freezeFind n none l).isSome = true ↔ ∃ z ∈ l, z.context = n ∧ z.tasks = none := by
  induction l with
  | nil => simp [freezeFind]
  | cons z rest ih =>
    obtain ⟨id, context, tasks⟩ := z
    cases tasks with
    | none => by_cases hn : context = n <;> simp [freezeFind, hn, ih]
    | some ts => simp [freezeFind, ih]

/-- A freeze that is started is awaited, with those awaited before, and no function changes. -/
theorem State.startFreeze_awaits (s : State) (die : BitVec 2) (n : BitVec 8) (cause code : Nat) (killer : BitVec 8) :
    let t := (s.startFreeze die n none cause code killer).1
    t.fns = s.fns ∧ t.awaitsFreeze n ∧ ∀ k, s.awaitsFreeze k → t.awaitsFreeze k := by
  unfold State.startFreeze
  split
  next z h => exact ⟨rfl, (freezeFind_context_isSome n s.freezing).1 (by rw [h]; rfl), fun _ hk => hk⟩
  next =>
    have hc := s.newCorpse_corpsesOnly
    refine ⟨hc.fns, ⟨_, List.mem_append_right _ (List.mem_singleton.2 rfl), rfl, rfl⟩, ?_⟩
    rintro k ⟨z, hz, hk⟩
    exact ⟨z, List.mem_append_left _ (hc.freezing ▸ hz), hk⟩

theorem State.freezeOne_awaits (s : State) (die : BitVec 2) (guest : Option Nat) (n : BitVec 8) :
    (s.freezeOne die guest n).fns = s.fns ∧ (s.freezeOne die guest n).awaitsFreeze n
      ∧ ∀ k, s.awaitsFreeze k → (s.freezeOne die guest n).awaitsFreeze k := by
  obtain ⟨hf, hn, hk⟩ := s.startFreeze_awaits die n 3 0 0
  have guests (k : BitVec 8) : (s.startFreeze die n none 3 0 0).1.awaitsFreeze k → (s.freezeOne die guest n).awaitsFreeze k := by
    rintro ⟨z, hz, hc, ht⟩
    refine ⟨_, List.mem_map_of_mem hz, ?_⟩
    split_ifs <;> exact ⟨hc, ht⟩
  exact ⟨hf, guests n hn, fun k h => guests k (hk k h)⟩

/-- R358: the freeze of every context bound to a function. -/
theorem State.freezeBound_awaits (s : State) (f : BitVec 6) (die : BitVec 2) (l : List (Nat × Ctx)) :
    (s.freezeBound f die l).fns = s.fns ∧ (∀ k, s.awaitsFreeze k → (s.freezeBound f die l).awaitsFreeze k)
      ∧ ∀ p ∈ l, p.2.fn = f → (s.freezeBound f die l).awaitsFreeze p.2.num := by
  induction l generalizing s with
  | nil => exact ⟨rfl, fun _ h => h, fun _ h => absurd h List.not_mem_nil⟩
  | cons q rest ih =>
    rw [State.freezeBound]
    by_cases hq : q.2.fn = f
    · simp only [hq, if_true]
      generalize (if (s.fn f.toNat).tdi = TdiState.run then _ else _) = guest
      obtain ⟨hf, hn, hk⟩ := s.freezeOne_awaits die guest q.2.num
      obtain ⟨hf', hk', hr⟩ := ih (s.freezeOne die guest q.2.num)
      refine ⟨hf'.trans hf, fun k h => hk' k (hk k h), fun p hp hpf => ?_⟩
      rcases List.mem_cons.1 hp with rfl | hp
      · exact hk' _ hn
      · exact hr p hp hpf
    · simp only [hq, if_false]
      obtain ⟨hf', hk', hr⟩ := ih s
      refine ⟨hf', hk', fun p hp hpf => ?_⟩
      rcases List.mem_cons.1 hp with rfl | hp
      · exact absurd hpf hq
      · exact hr p hp hpf

end Sys2Proof.Machine
end

section
/-! SUPPORT. What a module reset measures and what a die reset starts again (R211, R219, R392). -/

namespace Sys2Proof.Machine

/-! ## Module reset (R211, R392) -/

theorem vecAt_vecSet {α : Type} {n : Nat} (v : Vector α n) {i : Nat} (hi : i < n) (j : Nat) (a d : α) :
    vecAt (vecSet v i a) j d = if j = i then a else vecAt v j d := by
  by_cases hj : j < n
  · simp [vecAt, vecSet, hi, hj, Vector.getElem_set, eq_comm]
  · have hne : j ≠ i := fun h => hj (h ▸ hi)
    simp [vecAt, hj, hne]

theorem vecAt_of_lt {α : Type} {n : Nat} (v : Vector α n) {i : Nat} (hi : i < n) (d e : α) : vecAt v i d = vecAt v i e := by
  simp [vecAt, hi]

/-- R392: a record extends its block alone. -/
theorem Security.extend_block (x : Security) {b : Nat} (hb : b < 16) (i : Nat) (record : List Byte) (d : BitVec 384) :
    vecAt (x.extend b record).blocks i d =
      if i = b then extendBlock (vecAt x.blocks b d) (digestOf (sha3_384 record)) else vecAt x.blocks i d := by
  rw [vecAt_of_lt x.blocks hb d 0]
  exact vecAt_vecSet x.blocks hb i _ d

/-- R392: what the ROM measures into a block: nothing above block 4. -/
theorem Security.measure_block (x : Security) (images : List Image) (absent : List CoreId) (i : Nat) (d : BitVec 384) :
    vecAt (x.measure images absent).blocks i d =
      if i < 5 then extendBlock (vecAt x.blocks i d) (digestOf (sha3_384
        (if i = 3 then windowImage images else if i = 4 then Config.fuses ++ coreMaps absent else (listAt images i).getD [])))
      else vecAt x.blocks i d := by
  rcases i with _ | _ | _ | _ | _ | i <;> simp [Security.measure, Security.extend_block]

theorem Security.start_block (x : Security) (i : Nat) : vecAt x.start.blocks i 0 = 0 := by
  unfold vecAt
  split_ifs with h
  · exact Vector.getElem_replicate h
  · rfl

theorem Security.start_measure_block (x : Security) (images : List Image) (absent : List CoreId) (i : Nat) :
    vecAt (x.start.measure images absent).blocks i 0 =
      if i < 5 then extendBlock 0 (digestOf (sha3_384
        (if i = 3 then windowImage images else if i = 4 then Config.fuses ++ coreMaps absent else (listAt images i).getD [])))
      else 0 := by
  rw [Security.measure_block, Security.start_block]

theorem State.boot_dieAt (s : State) (images : List Image) (d : BitVec 2) : (s.boot images).dieAt d = (s.dieAt d).boot := by
  simp [State.boot, State.dieAt]

theorem stepFrozen_halts {s : State} (h : ∀ images rest, s.script ≠ .event (.moduleReset images) :: rest) :
    stepFrozen s = .fault .moduleHalted := by
  unfold stepFrozen
  split
  next images rest hs => exact absurd hs (h images rest)
  next => rfl

/-! ## The reset of a die (R211, R219) -/

/-- A firmware core as it comes out of reset. -/
def Core.started (a : AgentId) : Core := if a = .security then Core.security else { Core.idle a with run := .firmware }

@[simp] theorem Core.started_agent (a : AgentId) : (Core.started a).agent = a := by
  unfold Core.started
  split_ifs with h
  · exact h.symm
  · rfl
@[simp] theorem Core.started_run (a : AgentId) : (Core.started a).run = .firmware := by
  unfold Core.started
  split_ifs <;> rfl
@[simp] theorem Core.started_csr (a : AgentId) : (Core.started a).csr = .reset := by
  unfold Core.started
  split_ifs <;> rfl

theorem State.restart_eq (s : State) (a : AgentId) : s.restart a = s.setAgent (Core.started a) := rfl

theorem State.agent_restart (s : State) (a b : AgentId) : (s.restart a).agent b = if b = a then Core.started a else s.agent b := by
  rw [State.restart_eq]
  split_ifs with h
  · subst h
    exact s.agent_setAgent_same (Core.started_agent b)
  · exact s.agent_setAgent_other (Core.started a) (by simpa using h)

/-- The firmware of a die starts again: its scheduler, its archivist and, on die 0, the security core. -/
def State.restartDie (s : State) (die : BitVec 2) : State :=
  let t := (s.restart (.scheduler die)).restart (.archivist die)
  if die = 0 then t.restart .security else t

theorem State.restartDie_tables (s : State) (die : BitVec 2) :
    (s.restartDie die).dies = s.dies ∧ (s.restartDie die).timed = s.timed ∧ (s.restartDie die).misses = s.misses
      ∧ (s.restartDie die).mem = s.mem := by
  unfold State.restartDie
  split_ifs <;> simp [State.restart_eq]

theorem State.restartDie_agents (s : State) (die : BitVec 2) :
    (s.restartDie die).agent (.scheduler die) = Core.started (.scheduler die)
      ∧ (s.restartDie die).agent (.archivist die) = Core.started (.archivist die) := by
  unfold State.restartDie
  split_ifs <;> simp [State.agent_restart]

/-- R219: a timed store is buffered at a home of a die. -/
def State.buffers (s : State) (die : BitVec 2) (y : Timed) : Bool :=
  y.homeDie = die && y.peer.isNone && (match y.arrival with | some a => a ≤ (s.dieAt die).atime | none => false)

theorem State.buffers_iff (s : State) (die : BitVec 2) (y : Timed) :
    s.buffers die y = true ↔ y.homeDie = die ∧ y.peer = none ∧ ∃ a, y.arrival = some a ∧ a ≤ (s.dieAt die).atime := by
  unfold State.buffers
  cases y.arrival <;> simp [and_assoc]

/-- What a die reset does before the firmware of the die starts again. -/
theorem exec_dieReset_eq (s : State) (die : BitVec 2) : ∃ u : State, exec (.dieReset die) s = .next (u.restartDie die)
    ∧ u.dies = (s.setDie die { s.dieAt die with sync := false, counting := true, throttled := false, draining := false }).dies
    ∧ u.timed = s.timed.filter (fun y => !s.buffers die y)
    ∧ u.misses = s.misses ++ (s.timed.filter (s.buffers die)).map (fun y => ⟨y, BitVec.allOnes 64, false⟩)
    ∧ u.mem = s.mem := ⟨_, rfl, rfl, rfl, rfl, rfl⟩

theorem State.dieAt_congr {s t : State} (h : t.dies = s.dies) (d : BitVec 2) : t.dieAt d = s.dieAt d := by
  unfold State.dieAt
  rw [h]

/-- R211, R219: a die reset unsynchronises its die alone, misses the stores buffered there and restarts its firmware. -/
theorem exec_dieReset (s : State) (die : BitVec 2) : ∃ t, exec (.dieReset die) s = .next t
    ∧ (t.dieAt die).sync = false ∧ (∀ d, d ≠ die → t.dieAt d = s.dieAt d) ∧ (t.dieAt die).atime = (s.dieAt die).atime
    ∧ (let buffered := fun (y : Timed) => y.homeDie = die ∧ y.peer = none ∧ ∃ at_, y.arrival = some at_ ∧ at_ ≤ (s.dieAt die).atime
      (∀ y, y ∈ t.timed ↔ y ∈ s.timed ∧ ¬buffered y)
      ∧ ∀ y ∈ s.timed, buffered y → (⟨y, BitVec.allOnes 64, false⟩ : Miss) ∈ t.misses)
    ∧ (t.agent (.scheduler die)).run = .firmware ∧ (t.agent (.archivist die)).csr = .reset ∧ t.mem = s.mem := by
  obtain ⟨u, hexec, hdies, htimed, hmisses, hmem⟩ := exec_dieReset_eq s die
  obtain ⟨kdies, ktimed, kmisses, kmem⟩ := u.restartDie_tables die
  obtain ⟨hsched, harch⟩ := u.restartDie_agents die
  have hdie := State.dieAt_congr (kdies.trans hdies)
  refine ⟨u.restartDie die, hexec, ?_, fun d hd => ?_, ?_, ⟨fun y => ?_, fun y hy hb => ?_⟩, ?_, ?_, kmem.trans hmem⟩
  · rw [hdie, State.dieAt_setDie_same]
  · rw [hdie, State.dieAt_setDie_other _ _ hd]
  · rw [hdie, State.dieAt_setDie_same]
  · rw [ktimed, htimed, List.mem_filter, Bool.not_eq_true', ← Bool.not_eq_true]
    exact and_congr_right fun _ => not_congr (s.buffers_iff die y)
  · rw [kmisses, hmisses]
    exact List.mem_append_right _ (List.mem_map_of_mem (List.mem_filter.2 ⟨hy, (s.buffers_iff die y).2 hb⟩))
  · rw [hsched, Core.started_run]
  · rw [harch, Core.started_csr]

end Sys2Proof.Machine
end

section
/-! SUPPORT. Functions cleared, memory lost, samples given and counted (R358, R368, R406 to R409). -/

namespace Sys2Proof.Machine

/-! ## The reset of a function and the loss of power (R358, R368) -/

/-- R344: the ring registers of a cleared function read 0. -/
theorem State.barRead_cleared {s : State} {f : Nat} {x : Fn} (h : s.fn f = x.cleared) {off : Nat} (hoff : off < 0x060) :
    s.barRead f off 8 = 0 := by
  unfold State.barRead
  rw [h]
  simp only [ne_eq, not_true_eq_false, if_false]
  -- Twelve ring registers; four registers that lie above them; and the offsets that name no register.
  split
  case h_13 | h_14 | h_15 | h_16 => omega
  case h_17 =>
    refine if_neg fun h => ?_
    simp only [Bool.and_eq_true, decide_eq_true_eq] at h
    omega
  all_goals rfl

/-- R358: the function's registers are cleared, and its contexts freeze. -/
theorem exec_functionReset (s : State) (f : BitVec 6) : ∃ t, exec (.functionReset f) s = .next t
    ∧ t.fn f.toNat = (s.fn f.toNat).cleared ∧ ∀ p ∈ s.contexts, p.2.fn = f → t.awaitsFreeze p.2.num := by
  obtain ⟨hfns, -, hawaits⟩ := (s.setFn f.toNat (s.fn f.toNat).cleared).freezeBound_awaits f
    ((s.setFn f.toNat (s.fn f.toNat).cleared).leaderDie f.toNat) s.contexts
  refine ⟨_, rfl, ?_, hawaits⟩
  refine Eq.trans ?_ (s.fn_setFn_same f.toNat (s.fn f.toNat).cleared)
  unfold State.fn
  exact congrArg (assocGetD · f.toNat .reset) hfns

theorem assocGet_of_not_mem {α : Type} {m : Assoc α} {i : Nat} (h : ∀ c ∈ m, c.1 ≠ i) : assocGet m i = none := by
  induction m with
  | nil => rfl
  | cons c rest ih =>
    rw [assocGet, if_neg (h c List.mem_cons_self), ih fun d hd => h d (List.mem_cons_of_mem _ hd), ite_self]

/-- A location whose cells are dropped reads as one that nothing has written. -/
theorem memGet_filter_dropped (m : List Host.Cell) {p : Host.Cell → Bool} {l : Nat} (h : ∀ b, p (l, b) = false) :
    memGet (m.filter p) l = 0 := by
  have hnone : assocGet (m.filter p) l = none := by
    refine assocGet_of_not_mem fun c hc hl => ?_
    have hp := (List.mem_filter.1 hc).2
    obtain ⟨k, b⟩ := c
    cases hl
    rw [h b] at hp
    cases hp
  rw [memGet, hnone]
  rfl

/-! ## Samples (R406, R409) -/

theorem exec_taggedSample_none {s : State} {c : CoreId}
    (h : ¬∃ m, (s.agent (.core c)).mark = some m ∧ m.left.isSome = true) (b : SampleBody) :
    exec (.taggedSample c b) s = .next s := by
  show execTaggedSample c b s = .next s
  unfold execTaggedSample
  dsimp only
  split
  · rfl
  next m hm =>
    split
    · rfl
    next o ho => exact absurd ⟨m, hm, by rw [ho]; rfl⟩ h

/-- R406: a marked instruction that has left gives its entry, and its core has no mark after it. -/
theorem exec_taggedSample_some {s : State} {c : CoreId} {m : Mark} (hm : (s.agent (.core c)).mark = some m)
    (hl : m.left.isSome = true) (b : SampleBody) : ∃ t, exec (.taggedSample c b) s = .next t
    ∧ (t.agent (.core c)).mark = none
    ∧ ∀ x, s.ctx m.of.owner = some x → t.ctx x.num = some { x with written := x.written + 1 } := by
  have hctx (k : Core) (n : BitVec 8) : (s.setAgent k).ctx n = s.ctx n := by
    unfold State.ctx
    rw [State.setAgent_contexts]
  show ∃ t, execTaggedSample c b s = .next t ∧ _
  unfold execTaggedSample
  dsimp only
  split
  next hn => exact absurd (hm.symm.trans hn) (by simp)
  next m' hm' =>
    obtain rfl : m = m' := Option.some.inj (hm.symm.trans hm')
    split
    next hn => rw [hn] at hl; cases hl
    next =>
      refine ⟨_, rfl, ?_, fun x hx => State.trace_ctx ((hctx _ _).trans hx) ..⟩
      rw [State.trace_agent]
      exact Eq.trans (congrArg Core.mark (s.agent_setAgent_same (a := .core c) (s.agent_agent _))) rfl

/-- R409: with no entry due a channel gives none. -/
theorem exec_monitorSample_none {s : State} {die ch : BitVec 2} (h : (s.dieAt die).monitors[ch.toNat].spills = []) (cycle : Nat) :
    exec (.monitorSample die ch cycle) s = .next s := by
  show execMonitorSample die ch cycle s = .next s
  unfold execMonitorSample
  dsimp only
  split
  · rfl
  next hs => exact absurd (h.symm.trans hs) (by simp)

/-- Time that a channel's last entry takes changes neither channels nor contexts. -/
theorem State.pause_keeps (s : State) (cycle : Nat) (die : BitVec 2) :
    let t : State := { ({ s with pace := cycle } : State).tick with pace := s.pace }
    (t.dieAt die).monitors = (s.dieAt die).monitors ∧ ∀ n, t.ctx n = s.ctx n :=
  ⟨State.dieAt_tick_monitors { s with pace := cycle } die, fun _ => rfl⟩

/-- R409: the first entry that is due is given. -/
theorem exec_monitorSample_some {s : State} {die ch : BitVec 2} {o : Sampled} {rest : List Sampled}
    (h : (s.dieAt die).monitors[ch.toNat].spills = o :: rest) (cycle : Nat) : ∃ t, exec (.monitorSample die ch cycle) s = .next t
    ∧ (t.dieAt die).monitors[ch.toNat] = { (s.dieAt die).monitors[ch.toNat] with spills := rest }
    ∧ ∀ x, s.ctx o.owner = some x → t.ctx x.num = some { x with written := x.written + 1 } := by
  show ∃ t, execMonitorSample die ch cycle s = .next t ∧ _
  unfold execMonitorSample
  dsimp only
  split
  next hn => exact absurd (h.symm.trans hn) (by simp)
  next o' rest' h' =>
    obtain ⟨rfl, rfl⟩ := List.cons.inj (h.symm.trans h')
    generalize ht : State.trace _ o.owner 2 _ _ _ _ _ _ = t
    have hmon : (t.dieAt die).monitors[ch.toNat] = { (s.dieAt die).monitors[ch.toNat] with spills := rest } := by
      rw [← ht, State.trace_dieAt, State.dieAt_setDie_same]
      exact Vector.getElem_set_self _
    have hctx : ∀ x, s.ctx o.owner = some x → t.ctx x.num = some { x with written := x.written + 1 } :=
      fun x hx => ht ▸ State.trace_ctx (s := s.setDie die _) hx ..
    refine ⟨_, rfl, ?_⟩
    split_ifs
    · exact ⟨hmon, hctx⟩
    · obtain ⟨kmon, kctx⟩ := t.pause_keeps cycle die
      exact ⟨(congrArg (·[ch.toNat]) kmon).trans hmon, fun x hx => (kctx x.num).trans (hctx x hx)⟩

/-! ## What is counted (R406 to R409) -/

section
variable {c : Core} (hon : c.csr.smpl.getLsbD 0 = true) (hw : c.wait = none) (i : Sampled)
include hon hw

/-- R406: the distance to the next mark goes down by one. -/
theorem Core.countDown_between (hg : 1 < c.gap) : c.countDown i = { c with gap := c.gap - 1 } := by
  have h0 : c.gap ≠ 0 := by omega
  have h1 : c.gap ≠ 1 := by omega
  rw [Core.countDown, if_neg (by simp only [hon, hw]; decide)]
  simp [h0, h1]

/-- R406: the mark falls on this instruction, unless another one is in flight. -/
theorem Core.countDown_falls (hg : c.gap = 1) : (c.countDown i).gap = 0
    ∧ (c.countDown i).mark = if c.mark = none then some ⟨i, 0, false, false, none⟩ else c.mark := by
  rw [Core.countDown, if_neg (by simp only [hon, hw]; decide)]
  simp [hg]

/-- R407: a distance is drawn, of 1 to `2^(K+1) - 1`, and this instruction counts. -/
theorem Core.countDown_draws (hg : c.gap = 0) : (c.countDown i).lfsr = Config.lfsrNext c.lfsr
    ∧ (c.countDown i).gap < 2 ^ (c.csr.smpl.toNat / 2 % 32 + 1) - 1 := by
  have hpos : 0 < 2 ^ (c.csr.smpl.toNat / 2 % 32 + 1) - 1 :=
    Nat.sub_pos_of_lt (Nat.one_lt_two_pow (Nat.succ_ne_zero _))
  rw [Core.countDown, if_neg (by simp only [hon, hw]; decide)]
  simp [hg, Nat.mod_lt _ hpos]

end

theorem Monitor.add_below {m : Monitor} {n : Nat} (h : m.count + n < m.config.toNat / 2 ^ 32) (x : Option Sampled) :
    m.add x n = { m with count := m.count + n } := by
  unfold Monitor.add
  exact if_pos h

theorem Monitor.add_over {m : Monitor} {n : Nat} (h : m.config.toNat / 2 ^ 32 ≤ m.count + n) (i : Sampled) :
    m.add (some i) n = { m with count := (m.count + n) % (m.config.toNat / 2 ^ 32),
                                spills := m.spills ++ List.replicate ((m.count + n) / (m.config.toNat / 2 ^ 32)) i } := by
  unfold Monitor.add
  exact if_neg (by omega)

end Sys2Proof.Machine
end

section
/-! SUPPORT. O58: the steps of resets, failures, settings and samples, one lemma each, and the statement from them. -/

namespace Sys2Proof.Machine

/-! ## What each of these steps does -/

/-- R392: a module reset whose image is accepted boots the module. -/
theorem exec_moduleReset_accepted {images : List Image} (h : Config.vendorAccepts ((listAt images 0).getD []) = true) (s : State) :
    exec (.moduleReset images) s = .next (s.boot images) := if_pos h

/-- R392: one whose image is refused leaves a module that takes no step but the next module reset. -/
theorem exec_moduleReset_refused {images : List Image} (h : ¬Config.vendorAccepts ((listAt images 0).getD []) = true) (s : State) :
    ∃ t, exec (.moduleReset images) s = .next t ∧ t.frozen = true
      ∧ ((∀ im rest, t.script ≠ .event (.moduleReset im) :: rest) → step t = .fault .moduleHalted) :=
  ⟨_, if_neg h, rfl, stepFrozen_halts⟩

/-- R392: the blocks of a module that has booted. -/
theorem State.boot_blocks (s : State) (images : List Image) :
    let measured := fun (i : Nat) (bytes : List Byte) =>
      vecAt (s.boot images).sec.blocks i 0 = extendBlock 0 (digestOf (sha3_384 bytes))
    (∀ i, i < 3 → measured i ((listAt images i).getD [])) ∧ measured 3 (windowImage images)
      ∧ measured 4 (Config.fuses ++ coreMaps s.absent) ∧ ∀ i, 5 ≤ i → vecAt (s.boot images).sec.blocks i 0 = 0 := by
  have hblock := Security.start_measure_block s.sec images s.absent
  refine ⟨fun i hi => (hblock i).trans ?_, hblock 3, hblock 4, fun i hi => (hblock i).trans (if_neg (by omega))⟩
  rw [if_pos (by omega), if_neg (by omega), if_neg (by omega)]

/-- R225: throttling that begins or ends is an event of the die. -/
theorem exec_throttleEnter (s : State) (die : BitVec 2) : ∃ t, exec (.throttleEnter die) s = .next t
    ∧ (t.dieAt die).throttled = true ∧ (t.dieAt die).events = (s.dieAt die).events + 1 :=
  ⟨_, rfl, by simp [State.dieEvent]⟩
theorem exec_throttleLeave (s : State) (die : BitVec 2) : ∃ t, exec (.throttleLeave die) s = .next t
    ∧ (t.dieAt die).throttled = false ∧ (t.dieAt die).events = (s.dieAt die).events + 1 :=
  ⟨_, rfl, by simp [State.dieEvent]⟩

/-- R353: a feed is set before the first context. -/
theorem exec_feedWrite (s : State) (v : BitVec 16) : ∃ t, exec (.feedWrite v) s = .next t
    ∧ t.feed = if s.sec.fresh then v else s.feed := by
  show ∃ t, execFeedWrite v s = .next t ∧ _
  unfold execFeedWrite
  split_ifs <;> exact ⟨_, rfl, rfl⟩

/-- R354: a power cap takes a legal value. -/
theorem exec_powerCapWrite (s : State) (w : Nat) : ∃ t, exec (.powerCapWrite w) s = .next t
    ∧ t.powerCap = if 1200 ≤ w ∧ w ≤ 2800 ∧ w % 50 = 0 then w else s.powerCap := by
  show ∃ t, execPowerCapWrite w s = .next t ∧ _
  simp only [execPowerCapWrite, Bool.and_eq_true, decide_eq_true_eq, and_assoc]
  split_ifs <;> exact ⟨_, rfl, rfl⟩

/-- R5: a split takes a legal value before the first context. -/
theorem exec_sramSplitSet (s : State) (die : BitVec 2) (w : Nat) : ∃ t, exec (.sramSplitSet die w) s = .next t
    ∧ (t.dieAt die).splitMib = if s.sec.fresh = true ∧ w ≤ 64 ∧ w % 8 = 0 then w else (s.dieAt die).splitMib := by
  show ∃ t, execSramSplitSet die w s = .next t ∧ _
  simp only [execSramSplitSet, Bool.and_eq_true, decide_eq_true_eq, and_assoc]
  split_ifs
  · exact ⟨_, rfl, by rw [State.dieAt_setDie_same]⟩
  · exact ⟨_, rfl, rfl⟩

/-- R211: a die enters a failure, which may stop its count, or leaves it. -/
theorem exec_dieFailure_enters (s : State) (die : BitVec 2) (stops : Bool) : ∃ t, exec (.dieFailure die true stops) s = .next t
    ∧ (t.dieAt die).healthy = false ∧ (t.dieAt die).counting = ((s.dieAt die).counting && !stops)
    ∧ (t.dieAt die).sync = (s.dieAt die).sync :=
  ⟨_, rfl, by simp⟩
theorem exec_dieFailure_leaves (s : State) (die : BitVec 2) (stops : Bool) : ∃ t, exec (.dieFailure die false stops) s = .next t
    ∧ (t.dieAt die).healthy = true ∧ (t.dieAt die).counting = true
    ∧ (t.dieAt die).sync = ((s.dieAt die).sync && (s.dieAt die).counting) :=
  ⟨_, rfl, by simp⟩

/-- R368: the loss of power leaves nothing that the module held, and a module that does not run. -/
theorem exec_powerLoss (s : State) : ∃ t, exec .powerLoss s = .next t
    ∧ t.frozen = true ∧ t.corpses = [] ∧ t.contexts = []
    ∧ ∀ l, isHostLoc l = false → isPeerLoc l = false → Memory.wf s.mem = true → t.byteAt l = 0 :=
  ⟨_, rfl, rfl, rfl, rfl, fun l hhost hpeer _ => memGet_filter_dropped s.mem fun _ => by rw [hhost, hpeer]; rfl⟩

/-- Settles O58: a clause for each reset, setting, failure and sample, from what each of them does. -/
theorem resetsFailuresAndSamples : Obligations.ResetsFailuresAndSamples := by
  unfold Obligations.ResetsFailuresAndSamples
  intro s images die ch f v w failed stops c b cycle after
  refine ⟨?moduleReset, exec_dieReset s die, ?functionReset, exec_powerLoss s, exec_throttleEnter s die, exec_throttleLeave s die,
    ⟨_, rfl, rfl⟩, exec_feedWrite s v, exec_powerCapWrite s w, exec_sramSplitSet s die w, exec_dieFailure_enters s die stops,
    exec_dieFailure_leaves s die stops, ?tagged, ?monitor, ?countDown,
    fun m i n => ⟨(Monitor.add_below · _), fun h _ => Monitor.add_over h i⟩⟩
  case moduleReset =>
    split_ifs with h
    · obtain ⟨himages, hwindow, hfuses, hrest⟩ := s.boot_blocks images
      have hdie (d : BitVec 2) : ((s.boot images).dieAt d).atime = 0 ∧ ((s.boot images).dieAt d).sync = (s.dieAt d).healthy := by
        rw [State.boot_dieAt]
        exact ⟨rfl, rfl⟩
      exact ⟨_, exec_moduleReset_accepted h s, rfl, rfl, rfl, rfl, rfl, rfl, rfl, rfl, hdie, ⟨himages, hwindow, hfuses⟩,
        fun i hi _ => hrest i hi⟩
    · exact exec_moduleReset_refused h s
  case functionReset =>
    obtain ⟨t, hexec, hfn, hfreeze⟩ := exec_functionReset s f
    exact ⟨t, hexec, fun off hoff => State.barRead_cleared hfn hoff, by rw [hfn]; rfl, by rw [hfn]; rfl,
      fun k c hc hcf => (freezeFind_context_isSome c.num t.freezing).2 (hfreeze (k, c) hc hcf)⟩
  case tagged =>
    refine ⟨fun h => exec_taggedSample_none h b, ?_, ?_⟩
    · rintro ⟨m, hm, hl⟩
      obtain ⟨t, hexec, hmark, -⟩ := exec_taggedSample_some hm hl b
      exact ⟨t, hexec, hmark⟩
    · rintro m x ⟨m', hm', hl⟩ hm hx -
      obtain rfl : m' = m := Option.some.inj (hm'.symm.trans hm)
      obtain ⟨t, hexec, hmark, hctx⟩ := exec_taggedSample_some hm hl b
      exact ⟨t, hexec, hmark, _, hctx x hx, rfl⟩
  case monitor =>
    refine ⟨fun h => exec_monitorSample_none h cycle, fun o rest h => ?_⟩
    obtain ⟨t, hexec, hmon, hctx⟩ := exec_monitorSample_some h cycle
    exact ⟨t, hexec, hmon, fun x hx _ => ⟨_, hctx x hx, rfl⟩⟩
  case countDown =>
    intro k i
    refine ⟨fun h => ?_, fun ⟨hon, hw⟩ hg => Core.countDown_between hon hw i hg,
      fun ⟨hon, hw⟩ hg => Core.countDown_falls hon hw i hg, fun ⟨hon, hw⟩ hg => Core.countDown_draws hon hw i hg⟩
    refine Core.countDown_off ?_ i
    rcases Bool.eq_false_or_eq_true (k.csr.smpl.getLsbD 0) with hon | hoff
    · exact .inr (Option.isSome_iff_ne_none.2 fun hw => h ⟨hon, hw⟩)
    · exact .inl hoff

end Sys2Proof.Machine
end

section
/-! SUPPORT. The chain of parcels (R22 to R28): what the decoder gathers from it, and that the parcels of gathered fields
are gathered again. -/

namespace Sys2Proof

/-! ## Fields of a parcel -/

theorem extractLsb'_append_low {n m : Nat} (x : BitVec n) (y : BitVec m) {k l : Nat} (h : k + l ≤ m) :
    (x ++ y).extractLsb' k l = y.extractLsb' k l := by
  ext i hi
  simp only [BitVec.getElem_extractLsb', BitVec.getLsbD_append]
  rw [if_pos (by omega)]

theorem extractLsb'_append_high {n m : Nat} (x : BitVec n) (y : BitVec m) {k l : Nat} (h : m ≤ k) :
    (x ++ y).extractLsb' k l = x.extractLsb' (k - m) l := by
  ext i hi
  simp only [BitVec.getElem_extractLsb', BitVec.getLsbD_append]
  rw [if_neg (by omega), show k + i - m = k - m + i by omega]

theorem getLsbD_bit1 (b : Bool) : (bit1 b).getLsbD 0 = b := by cases b <;> rfl

/-- A PFX.R parcel (R25). -/
def rParcel (a4 b4 : Bool) (c : BitVec 5) (ty : BitVec 3) : BitVec (6 + 1 + 1 + 5 + 3) :=
  (0x3D : BitVec 6) ++ bit1 a4 ++ bit1 b4 ++ c ++ ty

section
variable (a4 b4 : Bool) (c : BitVec 5) (ty : BitVec 3)
theorem rParcel_op : (rParcel a4 b4 c ty).extractLsb' 10 6 = 0x3D := by
  simp [rParcel, extractLsb'_append_high, -Nat.reduceAdd]
theorem rParcel_a4 : (rParcel a4 b4 c ty).getLsbD 9 = a4 := by
  simp only [rParcel, BitVec.getLsbD_append]
  exact getLsbD_bit1 a4
theorem rParcel_b4 : (rParcel a4 b4 c ty).getLsbD 8 = b4 := by
  simp only [rParcel, BitVec.getLsbD_append]
  exact getLsbD_bit1 b4
theorem rParcel_c : (rParcel a4 b4 c ty).extractLsb' 3 5 = c := by
  simp [rParcel, extractLsb'_append_high, extractLsb'_append_low, -Nat.reduceAdd]
theorem rParcel_ty : (rParcel a4 b4 c ty).extractLsb' 0 3 = ty := by
  simp [rParcel, extractLsb'_append_low, -Nat.reduceAdd]
end

theorem Raw.push_rParcel {w : Raw} (h : w.r = false) (a4 b4 : Bool) (c : BitVec 5) (ty : BitVec 3) :
    w.push (rParcel a4 b4 c ty) = .ok { w with r := true, a4, b4, c, ty } := by
  simp [Raw.push, Parcel.op, h, rParcel_op, rParcel_a4, rParcel_b4, rParcel_c, rParcel_ty, -BitVec.getLsbD_eq_getElem]


/-- A PFX.P parcel (R26). -/
def pParcel (page : BitVec 3) (pred : BitVec 4) (neg : Bool) (pm : BitVec 2) : BitVec (6 + 3 + 4 + 1 + 2) :=
  (0x3E : BitVec 6) ++ page ++ pred ++ bit1 neg ++ pm

section
variable (page : BitVec 3) (pred : BitVec 4) (neg : Bool) (pm : BitVec 2)
theorem pParcel_op : (pParcel page pred neg pm).extractLsb' 10 6 = 0x3E := by
  simp [pParcel, extractLsb'_append_high, -Nat.reduceAdd]
theorem pParcel_page : (pParcel page pred neg pm).extractLsb' 7 3 = page := by
  simp [pParcel, extractLsb'_append_high, extractLsb'_append_low, -Nat.reduceAdd]
theorem pParcel_pred : (pParcel page pred neg pm).extractLsb' 3 4 = pred := by
  simp [pParcel, extractLsb'_append_high, extractLsb'_append_low, -Nat.reduceAdd]
theorem pParcel_neg : (pParcel page pred neg pm).getLsbD 2 = neg := by
  simp only [pParcel, BitVec.getLsbD_append]
  exact getLsbD_bit1 neg
theorem pParcel_pm : (pParcel page pred neg pm).extractLsb' 0 2 = pm := by
  simp [pParcel, extractLsb'_append_low, -Nat.reduceAdd]
end

theorem Raw.push_pParcel {w : Raw} (h : w.p = false) (page : BitVec 3) (pred : BitVec 4) (neg : Bool) (pm : BitVec 2) :
    w.push (pParcel page pred neg pm) = .ok { w with p := true, page, pred, neg, pm } := by
  simp [Raw.push, Parcel.op, h, pParcel_op, pParcel_page, pParcel_pred, pParcel_neg, pParcel_pm,
    -BitVec.getLsbD_eq_getElem]

/-- A PFX.M parcel (R27). -/
def mParcel (ord : BitVec 2) (scope : BitVec 3) (timed : Bool) (hint res : BitVec 2) : BitVec (6 + 2 + 3 + 1 + 2 + 2) :=
  (0x3F : BitVec 6) ++ ord ++ scope ++ bit1 timed ++ hint ++ res

section
variable (ord : BitVec 2) (scope : BitVec 3) (timed : Bool) (hint res : BitVec 2)
theorem mParcel_op : (mParcel ord scope timed hint res).extractLsb' 10 6 = 0x3F := by
  simp [mParcel, extractLsb'_append_high, -Nat.reduceAdd]
theorem mParcel_ord : (mParcel ord scope timed hint res).extractLsb' 8 2 = ord := by
  simp [mParcel, extractLsb'_append_high, extractLsb'_append_low, -Nat.reduceAdd]
theorem mParcel_scope : (mParcel ord scope timed hint res).extractLsb' 5 3 = scope := by
  simp [mParcel, extractLsb'_append_high, extractLsb'_append_low, -Nat.reduceAdd]
theorem mParcel_timed : (mParcel ord scope timed hint res).getLsbD 4 = timed := by
  simp only [mParcel, BitVec.getLsbD_append]
  exact getLsbD_bit1 timed
theorem mParcel_hint : (mParcel ord scope timed hint res).extractLsb' 2 2 = hint := by
  simp [mParcel, extractLsb'_append_high, extractLsb'_append_low, -Nat.reduceAdd]
theorem mParcel_res : (mParcel ord scope timed hint res).extractLsb' 0 2 = res := by
  simp [mParcel, extractLsb'_append_low, -Nat.reduceAdd]
end

theorem Raw.push_mParcel {w : Raw} (h : w.mm = false) (ord : BitVec 2) (scope : BitVec 3) (timed : Bool)
    (hint res : BitVec 2) :
    w.push (mParcel ord scope timed hint res) = .ok { w with mm := true, ord, scope, timed, hint, res } := by
  simp [Raw.push, Parcel.op, h, mParcel_op, mParcel_ord, mParcel_scope, mParcel_timed, mParcel_hint, mParcel_res,
    -BitVec.getLsbD_eq_getElem]

/-- A PFX.X parcel (R24). -/
def xParcel (chunk : BitVec 10) : BitVec (6 + 10) := (0x3C : BitVec 6) ++ chunk

theorem xParcel_op (chunk : BitVec 10) : (xParcel chunk).extractLsb' 10 6 = 0x3C := by
  simp [xParcel, extractLsb'_append_high, -Nat.reduceAdd]
theorem xParcel_chunk (chunk : BitVec 10) : (xParcel chunk).extractLsb' 0 10 = chunk := by
  simp [xParcel, extractLsb'_append_low, -Nat.reduceAdd]

theorem Raw.push_xParcel (w : Raw) (chunk : BitVec 10) :
    w.push (xParcel chunk) = .ok { w with nx := w.nx + 1, xs := (w.xs <<< 10) ||| chunk.setWidth 40 } := by
  simp only [Raw.push, Parcel.op, xParcel_op, xParcel_chunk, beq_self_eq_true, if_true]

/-- A base parcel (R23). -/
def baseParcel (op : BitVec 6) (a b : BitVec 4) (m : BitVec 2) : BitVec (6 + 4 + 4 + 2) := op ++ a ++ b ++ m

section
variable (op : BitVec 6) (a b : BitVec 4) (m : BitVec 2)
theorem baseParcel_op : (baseParcel op a b m).extractLsb' 10 6 = op := by
  simp [baseParcel, extractLsb'_append_high, -Nat.reduceAdd]
theorem baseParcel_a : (baseParcel op a b m).extractLsb' 6 4 = a := by
  simp [baseParcel, extractLsb'_append_high, extractLsb'_append_low, -Nat.reduceAdd]
theorem baseParcel_b : (baseParcel op a b m).extractLsb' 2 4 = b := by
  simp [baseParcel, extractLsb'_append_high, extractLsb'_append_low, -Nat.reduceAdd]
theorem baseParcel_m : (baseParcel op a b m).extractLsb' 0 2 = m := by
  simp [baseParcel, extractLsb'_append_low, -Nat.reduceAdd]
end

theorem Raw.close_baseParcel (w : Raw) (op : BitVec 6) (a b : BitVec 4) (m : BitVec 2) :
    w.close (baseParcel op a b m) = { w with op, a, b, m } := by
  simp only [Raw.close, Parcel.op, baseParcel_op, baseParcel_a, baseParcel_b, baseParcel_m]

/-! ## Fields that a chain can hold -/

/-- The prefixes of a chain. -/
def Raw.prefixes (w : Raw) : Nat := w.nx.toNat + w.r.toNat + w.p.toNat + w.mm.toNat

/-- What the decoder can gather: at most four prefixes, and zeros in the fields of a prefix that is absent (R23 to R28). -/
structure Raw.Gathered (w : Raw) : Prop where
  short : w.prefixes ≤ 4
  noR : w.r = false → w.a4 = false ∧ w.b4 = false ∧ w.c = 0 ∧ w.ty = 0
  noP : w.p = false → w.page = 0 ∧ w.pred = 0 ∧ w.neg = false ∧ w.pm = 0
  noM : w.mm = false → w.ord = 0 ∧ w.scope = 0 ∧ w.timed = false ∧ w.hint = 0 ∧ w.res = 0

/-- Fields that parcels can be made of: beside that, chunks for the PFX.X of the chain alone, and the OP of a base parcel. -/
structure Raw.Encodable (w : Raw) : Prop extends w.Gathered where
  chunks : (w.xs.setWidth (10 * w.nx.toNat)).setWidth 40 = w.xs
  base : w.op.toNat < 0x3C

/-! ## Gathering what has been encoded -/

theorem scan_prefix {f : Nat} {w w' : Raw} {q : Parcel} (hq : q.isPrefix = true) (h : w.push q = .ok w') (qs : List Parcel) :
    scan (f + 1) w (q :: qs) = scan f w' qs := by
  simp only [scan, hq, if_true, h]

theorem scan_base {w : Raw} {q : Parcel} (hq : q.isPrefix = false) (f : Nat) (qs : List Parcel) :
    scan f w (q :: qs) = .ok (w.close q) := by
  cases f <;> simp [scan, hq]

theorem Parcel.isPrefix_of_op {q : Parcel} {op : BitVec 6} (h : q.extractLsb' 10 6 = op) :
    q.isPrefix = decide (0x3C ≤ op.toNat) := by rw [Parcel.isPrefix, Parcel.op, h]

/-- The chunks of PFX.X, the most significant first. -/
theorem scan_xParcels (f : Nat) (xs : BitVec 40) (qs : List Parcel) : ∀ (k : Nat) (w : Raw),
    scan (f + k) w (Raw.xParcels xs k ++ qs) =
      scan f { w with nx := w.nx + BitVec.ofNat 3 k, xs := (w.xs <<< (10 * k)) ||| (xs.setWidth (10 * k)).setWidth 40 } qs
  | 0, w => by
    have h : (xs.setWidth 0).setWidth 40 = (0 : BitVec 40) := by ext i hi; simp
    simp [Raw.xParcels, h]
  | k + 1, w => by
    have hq : Parcel.isPrefix (xParcel (xs.extractLsb' (10 * k) 10)) = true :=
      Parcel.isPrefix_of_op (xParcel_op _)
    refine (scan_prefix hq (w.push_xParcel _) _).trans ((scan_xParcels f xs qs k _).trans ?_)
    congr 2
    · rw [BitVec.ofNat_add, BitVec.add_comm (BitVec.ofNat 3 k), ← BitVec.add_assoc]
      rfl
    · ext i hi
      simp [-BitVec.getLsbD_eq_getElem, ← BitVec.getLsbD_eq_getElem]
      grind

/-- The fields as they are after the PFX.X, the PFX.R, the PFX.P and the PFX.M of a chain. -/
def Raw.afterX (w : Raw) : Raw := { Raw.empty with nx := w.nx, xs := w.xs }
def Raw.afterR (w : Raw) : Raw := { w.afterX with r := w.r, a4 := w.a4, b4 := w.b4, c := w.c, ty := w.ty }
def Raw.afterP (w : Raw) : Raw :=
  { w.afterR with p := w.p, page := w.page, pred := w.pred, neg := w.neg, pm := w.pm }
def Raw.afterM (w : Raw) : Raw :=
  { w.afterP with mm := w.mm, ord := w.ord, scope := w.scope, timed := w.timed, hint := w.hint, res := w.res }

section
variable {w : Raw} (h : w.Gathered) (f : Nat) (qs : List Parcel)
include h

theorem scan_rPart : scan (f + w.r.toNat) w.afterX
    ((if w.r then [(rParcel w.a4 w.b4 w.c w.ty : BitVec 16)] else []) ++ qs) = scan f w.afterR qs := by
  cases hr : w.r with
  | false =>
    obtain ⟨h1, h2, h3, h4⟩ := h.noR hr
    simp only [Raw.afterR, hr, h1, h2, h3, h4]; rfl
  | true =>
    refine (scan_prefix (Parcel.isPrefix_of_op (rParcel_op _ _ _ _)) (Raw.push_rParcel rfl _ _ _ _) qs).trans ?_
    rw [Raw.afterR, hr]

theorem scan_pPart : scan (f + w.p.toNat) w.afterR
    ((if w.p then [(pParcel w.page w.pred w.neg w.pm : BitVec 16)] else []) ++ qs) = scan f w.afterP qs := by
  cases hp : w.p with
  | false =>
    obtain ⟨h1, h2, h3, h4⟩ := h.noP hp
    simp only [Raw.afterP, hp, h1, h2, h3, h4]; rfl
  | true =>
    refine (scan_prefix (Parcel.isPrefix_of_op (pParcel_op _ _ _ _)) (Raw.push_pParcel rfl _ _ _ _) qs).trans ?_
    rw [Raw.afterP, hp]

theorem scan_mPart : scan (f + w.mm.toNat) w.afterP
    ((if w.mm then [(mParcel w.ord w.scope w.timed w.hint w.res : BitVec 16)] else []) ++ qs) = scan f w.afterM qs := by
  cases hm : w.mm with
  | false =>
    obtain ⟨h1, h2, h3, h4, h5⟩ := h.noM hm
    simp only [Raw.afterM, hm, h1, h2, h3, h4, h5]; rfl
  | true =>
    refine (scan_prefix (Parcel.isPrefix_of_op (mParcel_op _ _ _ _ _)) (Raw.push_mParcel rfl _ _ _ _ _) qs).trans ?_
    rw [Raw.afterM, hm]

end

theorem Raw.Encodable.scan_xPart {w : Raw} (h : w.Encodable) (f : Nat) (qs : List Parcel) :
    scan (f + w.nx.toNat) .empty (Raw.xParcels w.xs w.nx.toNat ++ qs) = scan f w.afterX qs := by
  rw [scan_xParcels, h.chunks]
  simp [Raw.afterX, Raw.empty]

/-- R22 to R28: the parcels of fields that can be encoded are gathered to those fields. -/
theorem Raw.Encodable.scan_parcels {w : Raw} (h : w.Encodable) (rest : List Parcel) :
    scan 4 .empty (w.parcels ++ rest) = .ok w := by
  obtain ⟨f, hf⟩ : ∃ f, 4 = f + w.mm.toNat + w.p.toNat + w.r.toNat + w.nx.toNat :=
    ⟨4 - w.prefixes, by have := h.short; unfold Raw.prefixes at *; omega⟩
  have hbase : Parcel.isPrefix (baseParcel w.op w.a w.b w.m) = false := by
    rw [Parcel.isPrefix_of_op (baseParcel_op _ _ _ _)]
    simpa using h.base
  calc scan 4 .empty (w.parcels ++ rest)
      = scan (f + w.mm.toNat + w.p.toNat + w.r.toNat + w.nx.toNat) .empty (w.parcels ++ rest) := by rw [← hf]
    _ = scan f w.afterM ((baseParcel w.op w.a w.b w.m : BitVec 16) :: rest) := by
        simp only [Raw.parcels, List.append_assoc]
        rw [h.scan_xPart]
        exact (scan_rPart h.toGathered _ _).trans ((scan_pPart h.toGathered _ _).trans (scan_mPart h.toGathered _ _))
    _ = .ok w := by rw [scan_base hbase, Raw.close_baseParcel]; rfl

end Sys2Proof
end

section
/-! SUPPORT. The encoder: what its updates of the fields keep, and what the decoder reads from them. -/

namespace Sys2Proof

/-! ## The fields that the encoder builds -/

/-- Fields built for a page, an OP and the prefixes `x`. -/
structure Raw.Built (w : Raw) (pg : BitVec 3) (x : Pfx) : Prop where
  encodable : w.Encodable
  page : w.page = pg
  pfx : w.pfx = x
  pm : w.pm = if x.zero then 1 else 0
  res : w.res = 0

theorem Pfx.ok_iff {pg : BitVec 3} {x : Pfx} : x.ok pg = true ↔
    x.nx.toNat + x.r.toNat + x.p.toNat + x.m.toNat ≤ 4
      ∧ (x.p = false → pg = 0 ∧ x.pred = 0 ∧ x.neg = false ∧ x.zero = false) ∧ (x.pred = 0 → x.neg = false) := by
  cases hp : x.p <;> simp [Pfx.ok, hp, and_assoc, imp_iff_not_or]

/-- An OP of the opcode maps (R40 to R47). -/
theorem Raw.ofPfx_built {pg : BitVec 3} {op : BitVec 6} {x : Pfx} (hop : op.toNat < 0x3C) (hx : x.ok pg = true) :
    (Raw.ofPfx pg op x).Built pg x := by
  obtain ⟨hshort, hp, -⟩ := Pfx.ok_iff.1 hx
  refine ⟨⟨⟨hshort, fun _ => ⟨rfl, rfl, rfl, rfl⟩, fun h => ?_, fun _ => ⟨rfl, rfl, rfl, rfl, rfl⟩⟩, ?_, hop⟩, ?_, ?_, rfl, rfl⟩
  · obtain ⟨hpg, hpred, hneg, hzero⟩ := hp h
    exact ⟨by simp [Raw.ofPfx, hpg], hpred, hneg, by simp [Raw.ofPfx, hzero]⟩
  · ext i hi
    simp [Raw.ofPfx, Raw.empty]
  · cases h : x.p with
    | true => simp [Raw.ofPfx, h]
    | false => simp [Raw.ofPfx, h, (hp h).1]
  · obtain ⟨nx, r, p, m, pred, neg, zero⟩ := x
    cases zero <;> rfl

section
variable {w : Raw} {pg : BitVec 3} {x : Pfx} (h : w.Built pg x)
include h

theorem Raw.Built.r : w.r = x.r := congrArg Pfx.r h.pfx
theorem Raw.Built.nx : w.nx = x.nx := congrArg Pfx.nx h.pfx
theorem Raw.Built.mm : w.mm = x.m := congrArg Pfx.m h.pfx

theorem Raw.Built.regs (a b c : RegNum) : (w.regs a b c).Built pg x := by
  obtain ⟨⟨⟨hs, hr, hp, hm⟩, hc, hb⟩, hpg, hx, hpm, hres⟩ := h
  refine ⟨⟨⟨hs, fun h0 => ?_, hp, hm⟩, hc, hb⟩, hpg, hx, hpm, hres⟩
  have h0 : w.r = false := h0
  exact ⟨by simp [Raw.regs, h0], by simp [Raw.regs, h0], by simp [Raw.regs, h0], (hr h0).2.2.2⟩

theorem Raw.Built.low4 (a b : BitVec 4) : (w.low4 a b).Built pg x := by
  obtain ⟨⟨⟨hs, hr, hp, hm⟩, hc, hb⟩, hpg, hx, hpm, hres⟩ := h
  exact ⟨⟨⟨hs, hr, hp, hm⟩, hc, hb⟩, hpg, hx, hpm, hres⟩

theorem Raw.Built.low (m : BitVec 2) : (w.low m).Built pg x := by
  obtain ⟨⟨⟨hs, hr, hp, hm⟩, hc, hb⟩, hpg, hx, hpm, hres⟩ := h
  exact ⟨⟨⟨hs, hr, hp, hm⟩, hc, hb⟩, hpg, hx, hpm, hres⟩

theorem Raw.Built.bits4 {a4 b4 : Bool} {c : RegNum} (h0 : x.r = false → a4 = false ∧ b4 = false ∧ c = 0) :
    (w.bits4 a4 b4 c).Built pg x := by
  have hwr := h.r
  obtain ⟨⟨⟨hs, hr, hp, hm⟩, hc, hb⟩, hpg, hx, hpm, hres⟩ := h
  refine ⟨⟨⟨hs, fun h1 => ?_, hp, hm⟩, hc, hb⟩, hpg, hx, hpm, hres⟩
  have h1 : w.r = false := h1
  obtain ⟨ha, hb, hc⟩ := h0 (hwr ▸ h1)
  exact ⟨ha, hb, hc, (hr h1).2.2.2⟩

theorem Raw.Built.type (ty : BitVec 3) : (w.type ty).Built pg x := by
  obtain ⟨⟨⟨hs, hr, hp, hm⟩, hc, hb⟩, hpg, hx, hpm, hres⟩ := h
  refine ⟨⟨⟨hs, fun h0 => ?_, hp, hm⟩, hc, hb⟩, hpg, hx, hpm, hres⟩
  have h0 : w.r = false := h0
  obtain ⟨ha, hb, hc, -⟩ := hr h0
  exact ⟨ha, hb, hc, by simp [Raw.type, h0]⟩

theorem Raw.Built.elem (t : ETy) : (w.elem t).Built pg x := (h.type t.code).low t.cls

theorem Raw.Built.order {o : Ordering} (h0 : x.m = false → o = .none) : (w.order o).Built pg x := by
  have hwm := h.mm
  obtain ⟨⟨⟨hs, hr, hp, hm⟩, hc, hb⟩, hpg, hx, hpm, hres⟩ := h
  refine ⟨⟨⟨hs, hr, hp, fun h1 => ?_⟩, hc, hb⟩, hpg, hx, hpm, hres⟩
  have h1 : w.mm = false := h1
  obtain rfl := h0 (hwm ▸ h1)
  exact ⟨rfl, rfl, rfl, rfl, hres⟩

/-- New chunks of an immediate (R24). -/
theorem Raw.Built.withChunks (lo : Nat) (imm : Word) : { w with xs := w.chunks lo imm : Raw }.Built pg x := by
  obtain ⟨⟨⟨hs, hr, hp, hm⟩, hc, hb⟩, hpg, hx, hpm, hres⟩ := h
  refine ⟨⟨⟨hs, hr, hp, hm⟩, ?_, hb⟩, hpg, hx, hpm, hres⟩
  ext i hi
  simp [Raw.chunks, hi]

theorem Raw.Built.imm6 (imm : Word) : (w.imm6 imm).Built pg x :=
  ((h.withChunks 6 imm).low4 w.a (imm.extractLsb' 2 4)).low (imm.extractLsb' 0 2)
theorem Raw.Built.imm2 (imm : Word) : (w.imm2 imm).Built pg x := (h.withChunks 2 imm).low (imm.extractLsb' 0 2)
theorem Raw.Built.imm0 (imm : Word) : (w.imm0 imm).Built pg x := h.withChunks 0 imm

end


/-! ## What the decoder reads of them -/

theorem ofBool_append_setWidth {r : Bool} {a : RegNum} (h : r = true ∨ a.low = true) :
    (BitVec.ofBool (r && a.getLsbD 4) ++ a.setWidth 4 : BitVec (1 + 4)) = a := by
  have ha : (r && a.getLsbD 4) = a.getLsbD 4 := by
    rcases h with h | h
    · rw [h, Bool.true_and]
    · have : a.getLsbD 4 = false := by
        have h : a.toNat < 2 ^ 4 := by simpa [RegNum.low] using h
        exact Nat.testBit_lt_two_pow h
      rw [this, Bool.and_false]
  rw [ha]
  ext i hi
  simp only [BitVec.getElem_append, BitVec.getElem_setWidth]
  split
  · exact BitVec.getLsbD_eq_getElem _
  · obtain rfl : i = 4 := by omega
    simp

section
variable (w : Raw) {a b c : RegNum}

theorem Raw.ra5_regs (b c : RegNum) (h : w.r = true ∨ a.low = true) : (w.regs a b c).ra5 = a :=
  ofBool_append_setWidth h
theorem Raw.rb5_regs (a c : RegNum) (h : w.r = true ∨ b.low = true) : (w.regs a b c).rb5 = b :=
  ofBool_append_setWidth h
theorem Raw.rc5_regs (b : RegNum) (h : w.r = true ∨ a.low = true ∧ c = a) : (w.regs a b c).rc5 = c := by
  cases hr : w.r with
  | true => simp [Raw.rc5, Raw.regs, hr]
  | false =>
    obtain ⟨ha, hc⟩ := h.resolve_left (by simp [hr])
    rw [Raw.rc5, if_neg (by simp [Raw.regs, hr]), w.ra5_regs b c (.inr ha), hc]

end

/-- R30, R31: the immediate that chunks and low bits of an immediate make again. -/
theorem signExtend_of_immFits {n : Nat} {imm : Word} {v : BitVec n} (h : immFits n imm = true) (hv : v = imm.setWidth n) :
    v.signExtend 64 = imm := by
  rw [hv]; exact eq_of_beq h


/-! ## Checks that pass -/

theorem Pfx.plain_iff {pg : BitVec 3} {x : Pfx} :
    x.plain pg = true ↔ x.ok pg = true ∧ x.nx = 0 ∧ x.m = false ∧ x.zero = false := by
  simp [Pfx.plain, and_assoc]
theorem Pfx.vec_iff {pg : BitVec 3} {x : Pfx} : x.vec pg = true ↔ x.ok pg = true ∧ x.nx = 0 ∧ x.m = false := by
  simp [Pfx.vec, and_assoc]
theorem regs3_iff {x : Pfx} {a b c : RegNum} :
    regs3 x a b c = true ↔ x.r = true ∨ a.low = true ∧ b.low = true ∧ c = a := by
  simp [regs3, and_assoc]
theorem regs2_iff {x : Pfx} {a b : RegNum} : regs2 x a b = true ↔ x.r = true ∨ a.low = true ∧ b.low = true := by
  simp [regs2]

theorem Raw.need_eq {ok : Bool} (h : ok = true) (e : DecErr) (k : Except DecErr Instr) : Raw.need ok e k = k := if_pos h

section
variable {w : Raw} (k : Except DecErr Instr)
theorem Raw.noTy_eq (h : w.ty = 0) : w.noTy k = k := Raw.need_eq (by rw [h]; rfl) _ k
theorem Raw.noMf_eq (h : w.m = 0) : w.noMf k = k := Raw.need_eq (by rw [h]; rfl) _ k
theorem Raw.noC_eq (h : w.c = 0) : w.noC k = k := Raw.need_eq (by rw [h]; rfl) _ k
theorem Raw.noA_eq (h : w.ra5 = 0) : w.noA k = k := Raw.need_eq (by rw [h]; rfl) _ k
theorem Raw.noB_eq (h : w.rb5 = 0) : w.noB k = k := Raw.need_eq (by rw [h]; rfl) _ k
theorem Raw.noA4_eq (h : w.a4 = false) : w.noA4 k = k := Raw.need_eq (by rw [h]; rfl) _ k
theorem Raw.noB4_eq (h : w.b4 = false) : w.noB4 k = k := Raw.need_eq (by rw [h]; rfl) _ k
end

section
variable {w : Raw} {pg : BitVec 3} {x : Pfx} (h : w.Built pg x) (k : Except DecErr Instr)
include h

theorem Raw.Built.noX (hx : x.nx = 0) : w.noX k = k := Raw.need_eq (by rw [h.nx, hx]; rfl) _ k
theorem Raw.Built.noM (hx : x.m = false) : w.noM k = k := Raw.need_eq (by rw [h.mm, hx]; rfl) _ k
theorem Raw.Built.noR (hx : x.r = false) : w.noR k = k := Raw.need_eq (by rw [h.r, hx]; rfl) _ k
theorem Raw.Built.withR (hx : x.r = true) : w.withR k = k := Raw.need_eq (by rw [h.r, hx]) _ k

theorem Raw.Built.predicate (hx : x.ok pg = true) : (w.pred == 0 && w.neg) = false := by
  have hp : w.pred = x.pred := congrArg Pfx.pred h.pfx
  have hn : w.neg = x.neg := congrArg Pfx.neg h.pfx
  rw [hp, hn]
  by_cases h0 : x.pred = 0
  · rw [(Pfx.ok_iff.1 hx).2.2 h0, Bool.and_false]
  · rw [beq_eq_false_iff_ne.2 h0, Bool.false_and]

theorem Raw.Built.scalar (hx : x.ok pg = true) (hz : x.zero = false) : w.scalar k = k :=
  Raw.need_eq (by rw [h.predicate hx, h.pm, hz]; rfl) _ k

theorem Raw.Built.vec (hx : x.ok pg = true) : w.vec k = k :=
  Raw.need_eq (by rw [h.predicate hx, h.pm]; cases x.zero <;> rfl) _ k

theorem Raw.Built.plain (hx : x.plain pg = true) (hty : w.ty = 0) (hm : w.m = 0) : w.plain k = k := by
  obtain ⟨hok, hnx, hm', hz⟩ := Pfx.plain_iff.1 hx
  rw [Raw.plain, h.noX _ hnx, h.noM _ hm', h.scalar _ hok hz, Raw.noTy_eq _ hty, Raw.noMf_eq _ hm]

theorem Raw.Built.vform (hx : x.vec pg = true) : w.vform k = k := by
  obtain ⟨hok, hnx, hm'⟩ := Pfx.vec_iff.1 hx
  rw [Raw.vform, h.noX _ hnx, h.noM _ hm', h.vec _ hok]

theorem Raw.Built.pform (hx : x.vec pg = true) (hm : w.m = 0) : w.pform k = k := by
  obtain ⟨hok, hnx, hm'⟩ := Pfx.vec_iff.1 hx
  rw [Raw.pform, h.noX _ hnx, h.noM _ hm', h.vec _ hok, Raw.noMf_eq _ hm]

theorem Raw.Built.ordered {g : OrdGroup} {o : Ordering} (ho : w.ordering = o) (hg : o.ok g x = true) :
    w.ordered g k = k :=
  Raw.need_eq (by rw [h.res, ho, h.pfx, hg]; rfl) _ k

end

theorem Ordering.none_of_ok {g : OrdGroup} {x : Pfx} {o : Ordering} (h : o.ok g x = true) (hm : x.m = false) : o = .none := by
  simpa [Ordering.ok, hm] using h

/-! ## Immediates (R30, R31) -/


theorem Raw.getLsbD_chunks (w : Raw) (lo : Nat) (imm : Word) (i : Nat) :
    (w.chunks lo imm).getLsbD i = (decide (i < 40) && decide (i < 10 * w.nx.toNat) && imm.getLsbD (lo + i)) := by
  simp [Raw.chunks, Bool.and_assoc]

section
variable {w : Raw} {imm : Word} (hle : w.nx.toNat ≤ 4)
include hle

theorem Raw.immI6_imm6 (h : immFits (6 + 10 * w.nx.toNat) imm = true) : (w.imm6 imm).immI6 = imm := by
  refine signExtend_of_immFits h ?_
  apply BitVec.eq_of_getLsbD_eq
  intro i hi
  replace hi : i < 6 + 10 * w.nx.toNat := hi
  simp only [BitVec.getLsbD_setWidth, BitVec.getLsbD_append, Raw.imm6, Raw.getLsbD_chunks, BitVec.getLsbD_extractLsb', hi,
    decide_true, Bool.true_and]
  split
  next h2 => simp [h2]
  · split
    next h4 => rw [show 2 + (i - 2) = i by omega, decide_eq_true h4, Bool.true_and]
    · rw [show 6 + (i - 2 - 4) = i by omega, decide_eq_true (by omega), decide_eq_true (by omega)]
      rfl

theorem Raw.immI2_imm2 (h : immFits (2 + 10 * w.nx.toNat) imm = true) : (w.imm2 imm).immI2 = imm := by
  refine signExtend_of_immFits h ?_
  apply BitVec.eq_of_getLsbD_eq
  intro i hi
  replace hi : i < 2 + 10 * w.nx.toNat := hi
  simp only [BitVec.getLsbD_setWidth, BitVec.getLsbD_append, Raw.imm2, Raw.getLsbD_chunks, BitVec.getLsbD_extractLsb', hi,
    decide_true, Bool.true_and]
  split
  next h2 => simp [h2]
  · rw [show 2 + (i - 2) = i by omega, decide_eq_true (by omega), decide_eq_true (by omega)]
    rfl

theorem Raw.immI0_imm0 (h : immFits (10 * w.nx.toNat) imm = true) : (w.imm0 imm).immI0 = imm := by
  refine signExtend_of_immFits h ?_
  apply BitVec.eq_of_getLsbD_eq
  intro i hi
  have h40 : i < 40 := by
    have : i < 10 * w.nx.toNat := hi
    omega
  simp only [BitVec.getLsbD_setWidth, Raw.imm0, Raw.getLsbD_chunks, Nat.zero_add]
  simp [h40]

end

end Sys2Proof
end

section
/-! SUPPORT. Each encoding form: what the encoder builds for it, the decoder reads back (R75, R99, R168, R191, R315). -/

namespace Sys2Proof

/-- Fields of a page from which a form of the decoder reads an instruction. -/
structure Raw.Reads (w : Raw) (pg : BitVec 3) (form : Raw → Except DecErr Instr) (i : Instr) : Prop where
  encodable : w.Encodable
  page : w.page = pg
  reads : form w = .ok i

theorem Raw.Built.reads {w : Raw} {pg : BitVec 3} {x : Pfx} {form : Raw → Except DecErr Instr} {i : Instr}
    (h : w.Built pg x) (hr : form w = .ok i) : w.Reads pg form i := ⟨h.encodable, h.page, hr⟩

/-! ## What each update of the encoder leaves -/

theorem ofBool_append_zero : (BitVec.ofBool false ++ (0 : BitVec 4) : RegNum) = 0 := by decide

section
variable (w : Raw) (pg : BitVec 3) (op : BitVec 6) (x : Pfx) (a b c : RegNum) (k : BitVec 4)

@[simp] theorem Raw.ofPfx_fields : (Raw.ofPfx pg op x).r = x.r ∧ (Raw.ofPfx pg op x).nx = x.nx
    ∧ (Raw.ofPfx pg op x).ty = 0 ∧ (Raw.ofPfx pg op x).m = 0 ∧ (Raw.ofPfx pg op x).c = 0 ∧ (Raw.ofPfx pg op x).a = 0
    ∧ (Raw.ofPfx pg op x).b = 0 ∧ (Raw.ofPfx pg op x).a4 = false ∧ (Raw.ofPfx pg op x).b4 = false
    ∧ (Raw.ofPfx pg op x).ra5 = 0 ∧ (Raw.ofPfx pg op x).rb5 = 0 :=
  ⟨rfl, rfl, rfl, rfl, rfl, rfl, rfl, rfl, rfl, ofBool_append_zero, ofBool_append_zero⟩

@[simp] theorem Raw.regs_fields : (w.regs a b c).r = w.r ∧ (w.regs a b c).nx = w.nx ∧ (w.regs a b c).ty = w.ty
    ∧ (w.regs a b c).m = w.m ∧ (w.regs a b c).a = a.setWidth 4 ∧ (w.regs a b c).b = b.setWidth 4
    ∧ (w.regs a b c).a4 = (w.r && a.getLsbD 4) ∧ (w.regs a b c).b4 = (w.r && b.getLsbD 4)
    ∧ (w.regs a b c).c = if w.r then c else 0 := ⟨rfl, rfl, rfl, rfl, rfl, rfl, rfl, rfl, rfl⟩

@[simp] theorem Raw.low4_fields (a b : BitVec 4) : (w.low4 a b).a = a ∧ (w.low4 a b).b = b ∧ (w.low4 a b).m = w.m
    ∧ (w.low4 a b).ty = w.ty ∧ (w.low4 a b).c = w.c ∧ (w.low4 a b).a4 = w.a4 ∧ (w.low4 a b).b4 = w.b4 :=
  ⟨rfl, rfl, rfl, rfl, rfl, rfl, rfl⟩

theorem Raw.ra5_low4_zero {w : Raw} (h : w.a4 = false) (b : BitVec 4) : (w.low4 0 b).ra5 = 0 := by
  rw [Raw.ra5, Raw.low4, h, ofBool_append_zero]

@[simp] theorem Raw.imm6_fields (i : Word) : (w.imm6 i).r = w.r ∧ (w.imm6 i).ty = w.ty ∧ (w.imm6 i).c = w.c
    ∧ (w.imm6 i).b4 = w.b4 ∧ (w.imm6 i).ra5 = w.ra5 ∧ (w.imm6 i).rc5 = w.rc5 := ⟨rfl, rfl, rfl, rfl, rfl, rfl⟩
@[simp] theorem Raw.imm2_fields (i : Word) : (w.imm2 i).r = w.r ∧ (w.imm2 i).ty = w.ty ∧ (w.imm2 i).c = w.c
    ∧ (w.imm2 i).ra5 = w.ra5 ∧ (w.imm2 i).rb5 = w.rb5 ∧ (w.imm2 i).rc5 = w.rc5 := ⟨rfl, rfl, rfl, rfl, rfl, rfl⟩
@[simp] theorem Raw.imm0_fields (i : Word) : (w.imm0 i).r = w.r ∧ (w.imm0 i).ty = w.ty ∧ (w.imm0 i).c = w.c
    ∧ (w.imm0 i).ra5 = w.ra5 ∧ (w.imm0 i).rb5 = w.rb5 ∧ (w.imm0 i).rc5 = w.rc5 := ⟨rfl, rfl, rfl, rfl, rfl, rfl⟩

@[simp] theorem Raw.low_fields (m : BitVec 2) : (w.low m).m = m ∧ (w.low m).ty = w.ty ∧ (w.low m).c = w.c
    ∧ (w.low m).ra5 = w.ra5 ∧ (w.low m).rb5 = w.rb5 ∧ (w.low m).rc5 = w.rc5 ∧ (w.low m).immI0 = w.immI0 :=
  ⟨rfl, rfl, rfl, rfl, rfl, rfl, rfl⟩

@[simp] theorem Raw.type_fields (t : BitVec 3) : (w.type t).r = w.r ∧ (w.type t).m = w.m ∧ (w.type t).c = w.c
    ∧ (w.type t).b4 = w.b4 ∧ (w.type t).ra5 = w.ra5 ∧ (w.type t).rb5 = w.rb5
    ∧ (w.type t).rc5 = w.rc5 ∧ (w.type t).immI6 = w.immI6 ∧ (w.type t).immI2 = w.immI2 :=
  ⟨rfl, rfl, rfl, rfl, rfl, rfl, rfl, rfl, rfl⟩
theorem Raw.type_ty (t : BitVec 3) : (w.type t).ty = if w.r then t else 0 := rfl

@[simp] theorem Raw.bits4_fields (a4 b4 : Bool) : (w.bits4 a4 b4 c).a = w.a ∧ (w.bits4 a4 b4 c).b = w.b
    ∧ (w.bits4 a4 b4 c).a4 = a4 ∧ (w.bits4 a4 b4 c).b4 = b4 ∧ (w.bits4 a4 b4 c).c = c :=
  ⟨rfl, rfl, rfl, rfl, rfl⟩

@[simp] theorem Raw.elem_fields (t : ETy) : (w.elem t).m = t.cls ∧ (w.elem t).ty = (if w.r then t.code else 0)
    ∧ (w.elem t).r = w.r ∧ (w.elem t).a = w.a ∧ (w.elem t).b = w.b ∧ (w.elem t).a4 = w.a4 ∧ (w.elem t).b4 = w.b4
    ∧ (w.elem t).c = w.c ∧ (w.elem t).ra5 = w.ra5 ∧ (w.elem t).rb5 = w.rb5 ∧ (w.elem t).rc5 = w.rc5 :=
  ⟨rfl, rfl, rfl, rfl, rfl, rfl, rfl, rfl, rfl, rfl, rfl⟩

@[simp] theorem Raw.order_fields (o : Ordering) : (w.order o).ordering = o ∧ (w.order o).timed = o.timed
    ∧ (w.order o).m = w.m ∧ (w.order o).ty = w.ty ∧ (w.order o).c = w.c ∧ (w.order o).a = w.a ∧ (w.order o).b = w.b
    ∧ (w.order o).a4 = w.a4 ∧ (w.order o).b4 = w.b4 ∧ (w.order o).ra5 = w.ra5 ∧ (w.order o).rb5 = w.rb5
    ∧ (w.order o).rc5 = w.rc5 ∧ (w.order o).immI2 = w.immI2 ∧ (w.order o).immI0 = w.immI0 :=
  ⟨rfl, rfl, rfl, rfl, rfl, rfl, rfl, rfl, rfl, rfl, rfl, rfl, rfl, rfl⟩

end

theorem RegNum.low_zero : RegNum.low 0#5 = true := rfl
theorem getLsbD_zero_four : (0 : RegNum).getLsbD 4 = false := rfl
theorem getLsbD_setWidth_four (k : BitVec 4) : (k.setWidth 5 : RegNum).getLsbD 4 = false := by simp
theorem setWidth_setWidth_four (k : BitVec 4) : (k.setWidth 5 : RegNum).setWidth 4 = k := by ext i hi; simp
theorem low_setWidth (k : BitVec 4) : RegNum.low (k.setWidth 5) = true := by
  simp only [RegNum.low, BitVec.toNat_setWidth, decide_eq_true_eq]
  omega
/-- TY is 0 without PFX.R (R29). -/
theorem tyField_eq {r : Bool} {ty : BitVec 3} (h : r = true ∨ ty = 0) : (if r then ty else 0) = ty := by
  rcases h with rfl | rfl
  · rfl
  · exact ite_self 0
theorem Pfx.nx_le {pg : BitVec 3} {x : Pfx} (h : x.ok pg = true) : x.nx.toNat ≤ 4 := by
  have := (Pfx.ok_iff.1 h).1
  omega


section
variable {w : Raw} {pg : BitVec 3} {x : Pfx} {a b c : RegNum} (hw : w.Built pg x)
include hw

theorem Raw.Built.operands3 (h : regs3 x a b c = true) :
    (w.regs a b c).ra5 = a ∧ (w.regs a b c).rb5 = b ∧ (w.regs a b c).rc5 = c := by
  rw [regs3_iff, ← hw.r] at h
  exact ⟨w.ra5_regs b c (h.imp_right fun h => h.1), w.rb5_regs a c (h.imp_right fun h => h.2.1),
    w.rc5_regs b (h.imp_right fun h => ⟨h.1, h.2.2⟩)⟩

theorem Raw.Built.operands2 (h : regs2 x a b = true) (c : RegNum) :
    (w.regs a b c).ra5 = a ∧ (w.regs a b c).rb5 = b := by
  rw [regs2_iff, ← hw.r] at h
  exact ⟨w.ra5_regs b c (h.imp_right fun h => h.1), w.rb5_regs a c (h.imp_right fun h => h.2)⟩

end

theorem regs2_zero {x : Pfx} {a : RegNum} : regs2 x a 0 = (x.r || a.low) := by simp [regs2, RegNum.low_zero]
theorem regs2_zero_left {x : Pfx} {b : RegNum} : regs2 x 0 b = (x.r || b.low) := by simp [regs2, RegNum.low_zero]
theorem regs3_zero {x : Pfx} {a c : RegNum} : regs3 x a 0 c = (x.r || (a.low && c == a)) := by simp [regs3, RegNum.low_zero]

section
variable {pg : BitVec 3} {op : BitVec 6} {x : Pfx} {a b c : RegNum} {imm : Word}

/-! ## Scalar forms without immediate -/

theorem reads_rr {mk : Pfx → RegNum → RegNum → RegNum → Instr} (h : wfRR pg x a b c = true)
    (hop : op.toNat < 0x3C := by decide) :
    ((Raw.ofPfx pg op x).regs a b c).Reads pg (fun w => w.rr mk) (mk x a b c) := by
  obtain ⟨hx, hr⟩ := Bool.and_eq_true_iff.1 h
  have hw := Raw.ofPfx_built hop (Pfx.plain_iff.1 hx).1
  have hb := hw.regs a b c
  exact hb.reads (by simp only [Raw.rr, hb.plain _ hx rfl rfl, hb.pfx, hw.operands3 hr])

theorem reads_rrr {mk : Pfx → RegNum → RegNum → RegNum → Instr} (h : wfRR' pg x = true)
    (hop : op.toNat < 0x3C := by decide) :
    ((Raw.ofPfx pg op x).regs a b c).Reads pg (fun w => w.rrr mk) (mk x a b c) := by
  obtain ⟨hx, hr⟩ := Bool.and_eq_true_iff.1 h
  have hw := Raw.ofPfx_built hop (Pfx.plain_iff.1 hx).1
  have hb := hw.regs a b c
  exact hb.reads (by
    simp only [Raw.rrr, hb.withR _ hr, hb.plain _ hx rfl rfl, hb.pfx, hw.operands2 (regs2_iff.2 (.inl hr)),
      Raw.regs_fields, Raw.ofPfx_fields, hr, if_true])

theorem reads_un {mk : Pfx → RegNum → RegNum → Instr} (h : wfUN pg x a b = true)
    (hop : op.toNat < 0x3C := by decide) :
    ((Raw.ofPfx pg op x).regs a b 0).Reads pg (fun w => w.un mk) (mk x a b) := by
  obtain ⟨hx, hr⟩ := Bool.and_eq_true_iff.1 h
  have hw := Raw.ofPfx_built hop (Pfx.plain_iff.1 hx).1
  have hb := hw.regs a b 0
  exact hb.reads (by
    simp only [Raw.un, hb.plain _ hx rfl rfl, hb.pfx, Raw.noC_eq, Raw.regs_fields, ite_self, hw.operands2 hr])

theorem reads_ra {mk : Pfx → RegNum → Instr} (h : wfA pg x a = true) (hop : op.toNat < 0x3C := by decide) :
    ((Raw.ofPfx pg op x).regs a 0 0).Reads pg (fun w => w.ra mk) (mk x a) := by
  obtain ⟨hx, hr⟩ := Bool.and_eq_true_iff.1 h
  have hw := Raw.ofPfx_built hop (Pfx.plain_iff.1 hx).1
  have hb := hw.regs a 0 0
  exact hb.reads (by
    simp only [Raw.ra, hb.plain _ hx rfl rfl, hb.pfx, Raw.noC_eq, Raw.noB_eq, Raw.regs_fields, ite_self,
      hw.operands2 (regs2_zero.trans hr)])

theorem reads_rb {mk : Pfx → RegNum → Instr} (h : wfA pg x b = true) (hop : op.toNat < 0x3C := by decide) :
    ((Raw.ofPfx pg op x).regs 0 b 0).Reads pg (fun w => w.rb mk) (mk x b) := by
  obtain ⟨hx, hr⟩ := Bool.and_eq_true_iff.1 h
  have hw := Raw.ofPfx_built hop (Pfx.plain_iff.1 hx).1
  have hb := hw.regs 0 b 0
  exact hb.reads (by
    simp only [Raw.rb, hb.plain _ hx rfl rfl, hb.pfx, Raw.noC_eq, Raw.noA_eq, Raw.regs_fields, ite_self,
      hw.operands2 (regs2_zero_left.trans hr)])

theorem reads_none {mk : Pfx → Instr} (h : wfNone pg x = true) (hop : op.toNat < 0x3C := by decide) :
    (Raw.ofPfx pg op x).Reads pg (fun w => w.none mk) (mk x) := by
  simp only [wfNone, Bool.and_eq_true, Bool.not_eq_true'] at h
  obtain ⟨hx, hr⟩ := h
  have hb := Raw.ofPfx_built hop (Pfx.plain_iff.1 hx).1
  exact hb.reads (by
    simp only [Raw.none, hb.plain _ hx rfl rfl, hb.noR _ hr, hb.pfx, Raw.noA_eq, Raw.noB_eq,
      Raw.ofPfx_fields])

theorem reads_bare {mk : Pfx → Instr} (h : wfBare pg x = true) (hop : op.toNat < 0x3C := by decide) :
    (Raw.ofPfx pg op x).Reads pg (fun w => w.bare mk) (mk x) := by
  have hb := Raw.ofPfx_built hop (Pfx.plain_iff.1 h).1
  exact hb.reads (by
    simp only [Raw.bare, hb.plain _ h rfl rfl, hb.pfx, Raw.noC_eq, Raw.noA_eq, Raw.noB_eq, Raw.ofPfx_fields])

/-! ## Scalar forms with an immediate -/

theorem reads_ri {mk : Pfx → RegNum → RegNum → Word → Instr} (h : wfRI pg x a c imm = true)
    (hop : op.toNat < 0x3C := by decide) :
    (((Raw.ofPfx pg op x).regs a 0 c).imm6 imm).Reads pg (fun w => w.ri mk) (mk x a c imm) := by
  simp only [wfRI, Bool.and_eq_true, Bool.not_eq_true'] at h
  obtain ⟨⟨⟨⟨hx, hm⟩, hz⟩, hr⟩, hi⟩ := h
  have hw := Raw.ofPfx_built hop hx
  have hb := (hw.regs a 0 c).imm6 imm
  have hr := hw.operands3 (regs3_zero.trans (by simpa using hr))
  have hi := Raw.immI6_imm6 (w := (Raw.ofPfx pg op x).regs a 0 c) (Pfx.nx_le hx) hi
  exact hb.reads (by
    simp only [Raw.ri, hb.noM _ hm, hb.scalar _ hx hz, hb.pfx, Raw.noTy_eq, Raw.noB4_eq, Raw.imm6_fields, Raw.regs_fields,
      Raw.ofPfx_fields, getLsbD_zero_four, Bool.and_false, hr, hi])


theorem reads_sh {mk : Pfx → RegNum → RegNum → Word → Instr} (h : wfShift x a c imm = true)
    (hop : op.toNat < 0x3C := by decide) :
    (((Raw.ofPfx 0 op x).regs a 0 c).imm6 imm).Reads 0 (fun w => w.sh mk) (mk x a c imm) := by
  obtain ⟨hri, hlt⟩ := Bool.and_eq_true_iff.1 h
  obtain ⟨he, hp, hr⟩ := reads_ri (op := op) (mk := mk) hri hop
  simp only [wfRI, Bool.and_eq_true] at hri
  obtain ⟨⟨⟨⟨hx, -⟩, -⟩, -⟩, hi⟩ := hri
  have hi := Raw.immI6_imm6 (w := (Raw.ofPfx 0 op x).regs a 0 c) (Pfx.nx_le hx) hi
  exact ⟨he, hp, (Raw.need_eq (by rw [hi, hlt]) _ _).trans hr⟩

theorem reads_li {mk : Pfx → RegNum → Word → Instr} (h : wfLI pg x a imm = true)
    (hop : op.toNat < 0x3C := by decide) :
    (((Raw.ofPfx pg op x).regs a 0 0).imm6 imm).Reads pg (fun w => w.li mk) (mk x a imm) := by
  simp only [wfLI, Bool.and_eq_true, Bool.not_eq_true'] at h
  obtain ⟨⟨⟨⟨hx, hm⟩, hz⟩, hr⟩, hi⟩ := h
  have hw := Raw.ofPfx_built hop hx
  have hb := (hw.regs a 0 0).imm6 imm
  have hr := hw.operands2 (regs2_zero.trans hr) 0
  have hi := Raw.immI6_imm6 (w := (Raw.ofPfx pg op x).regs a 0 0) (Pfx.nx_le hx) hi
  exact hb.reads (by
    simp only [Raw.li, hb.noM _ hm, hb.scalar _ hx hz, hb.pfx, Raw.noTy_eq, Raw.noB4_eq, Raw.noC_eq, Raw.imm6_fields,
      Raw.regs_fields, Raw.ofPfx_fields, getLsbD_zero_four, Bool.and_false, ite_self, hr, hi])

theorem reads_bc {mk : Pfx → RegNum → RegNum → Word → Instr} (h : wfBC x a b imm = true)
    (hop : op.toNat < 0x3C := by decide) :
    (((Raw.ofPfx 0 op x).regs a b 0).imm2 imm).Reads 0 (fun w => w.bc mk) (mk x a b imm) := by
  simp only [wfBC, Bool.and_eq_true, Bool.not_eq_true'] at h
  obtain ⟨⟨⟨⟨hx, hm⟩, hz⟩, hr⟩, hi⟩ := h
  have hw := Raw.ofPfx_built hop hx
  have hb := (hw.regs a b 0).imm2 imm
  have hi := Raw.immI2_imm2 (w := (Raw.ofPfx 0 op x).regs a b 0) (Pfx.nx_le hx) hi
  exact hb.reads (by
    simp only [Raw.bc, hb.noM _ hm, hb.scalar _ hx hz, hb.pfx, Raw.noTy_eq, Raw.noC_eq, Raw.imm2_fields,
      Raw.regs_fields, Raw.ofPfx_fields, ite_self, hw.operands2 hr, hi])

theorem reads_bi {mk : Pfx → Word → Instr} (h : wfBI x imm = true) (hop : op.toNat < 0x3C := by decide) :
    ((Raw.ofPfx 0 op x).imm6 imm).Reads 0 (fun w => w.bi mk) (mk x imm) := by
  simp only [wfBI, Bool.and_eq_true, Bool.not_eq_true'] at h
  obtain ⟨⟨⟨⟨hx, hm⟩, hr⟩, hz⟩, hi⟩ := h
  have hb := (Raw.ofPfx_built hop hx).imm6 imm
  have hi := Raw.immI6_imm6 (w := Raw.ofPfx 0 op x) (Pfx.nx_le hx) hi
  exact hb.reads (by
    simp only [Raw.bi, hb.noM _ hm, hb.noR _ hr, hb.scalar _ hx hz, hb.pfx, Raw.noA_eq, Raw.imm6_fields,
      Raw.ofPfx_fields, hi])

/-! ## Loads, stores and atomics (R85 to R90) -/

section
variable {g : OrdGroup} {o : Ordering}

theorem reads_ms {mk : Pfx → Ordering → BitVec 2 → RegNum → RegNum → Word → Instr} {sz : BitVec 2}
    (h : wfMS g x o a b imm = true) (hop : op.toNat < 0x3C := by decide) :
    (((((Raw.ofPfx 0 op x).regs a b 0).imm0 imm).low sz).order o).Reads 0 (fun w => w.ms g mk) (mk x o sz a b imm) := by
  simp only [wfMS, Bool.and_eq_true, Bool.not_eq_true'] at h
  obtain ⟨⟨⟨⟨hx, hz⟩, hr⟩, hi⟩, ho⟩ := h
  have hw := Raw.ofPfx_built hop hx
  have hb := (((hw.regs a b 0).imm0 imm).low sz).order (Ordering.none_of_ok ho)
  have hi := Raw.immI0_imm0 (w := (Raw.ofPfx 0 op x).regs a b 0) (Pfx.nx_le hx) hi
  exact hb.reads (by
    simp only [Raw.ms, hb.scalar _ hx hz, hb.ordered _ rfl ho, hb.pfx, Raw.noTy_eq, Raw.noC_eq, Raw.order_fields,
      Raw.low_fields, Raw.imm0_fields, Raw.regs_fields, Raw.ofPfx_fields, ite_self, hw.operands2 hr, hi])

theorem reads_memK {mk : Pfx → Ordering → RegNum → RegNum → Word → Instr}
    (h : wfMK g x o a b imm = true) (hop : op.toNat < 0x3C := by decide) :
    ((((Raw.ofPfx 0 op x).regs a b 0).imm2 imm).order o).Reads 0 (fun w => w.memK g mk) (mk x o a b imm) := by
  simp only [wfMK, Bool.and_eq_true, Bool.not_eq_true'] at h
  obtain ⟨⟨⟨⟨hx, hz⟩, hr⟩, hi⟩, ho⟩ := h
  have hw := Raw.ofPfx_built hop hx
  have hb := ((hw.regs a b 0).imm2 imm).order (Ordering.none_of_ok ho)
  have hi := Raw.immI2_imm2 (w := (Raw.ofPfx 0 op x).regs a b 0) (Pfx.nx_le hx) hi
  exact hb.reads (by
    simp only [Raw.memK, hb.scalar _ hx hz, hb.ordered _ rfl ho, hb.pfx, Raw.noTy_eq, Raw.noC_eq, Raw.order_fields,
      Raw.imm2_fields, Raw.regs_fields, Raw.ofPfx_fields, ite_self, hw.operands2 hr, hi])

theorem reads_mx {mk : Pfx → Ordering → BitVec 2 → RegNum → RegNum → RegNum → Word → Instr} {sz : BitVec 2}
    (h : wfMX g x o a b c imm = true) (hop : op.toNat < 0x3C := by decide) :
    (((((Raw.ofPfx 0 op x).regs a b c).imm0 imm).low sz).order o).Reads 0 (fun w => w.mx g mk) (mk x o sz a b c imm) := by
  simp only [wfMX, Bool.and_eq_true, Bool.not_eq_true'] at h
  obtain ⟨⟨⟨⟨hx, hz⟩, hr⟩, hi⟩, ho⟩ := h
  have hw := Raw.ofPfx_built hop hx
  have hb := (((hw.regs a b c).imm0 imm).low sz).order (Ordering.none_of_ok ho)
  have hi := Raw.immI0_imm0 (w := (Raw.ofPfx 0 op x).regs a b c) (Pfx.nx_le hx) hi
  exact hb.reads (by
    simp only [Raw.mx, hb.scalar _ hx hz, hb.ordered _ rfl ho, hb.pfx, Raw.noTy_eq, Raw.order_fields,
      Raw.low_fields, Raw.imm0_fields, Raw.regs_fields, Raw.ofPfx_fields, hw.operands3 hr, hi])

theorem reads_ma {mk : Pfx → Ordering → Bool → RegNum → RegNum → RegNum → Word → Instr} {wide : Bool}
    (h : wfMX .atomic x o a b c imm = true) (hop : op.toNat < 0x3C := by decide) :
    (((((Raw.ofPfx 0 op x).regs a b c).imm0 imm).low (if wide then 3 else 2)).order o).Reads 0 (fun w => w.ma mk)
      (mk x o wide a b c imm) := by
  simp only [wfMX, Bool.and_eq_true, Bool.not_eq_true'] at h
  obtain ⟨⟨⟨⟨hx, hz⟩, hr⟩, hi⟩, ho⟩ := h
  have hw := Raw.ofPfx_built hop hx
  have hb := (((hw.regs a b c).imm0 imm).low (if wide then 3 else 2)).order (Ordering.none_of_ok ho)
  have hi := Raw.immI0_imm0 (w := (Raw.ofPfx 0 op x).regs a b c) (Pfx.nx_le hx) hi
  have hwide : ((if wide then 3 else 2 : BitVec 2) == 3) = wide := by cases wide <;> rfl
  have hsize : decide (2 ≤ (if wide then 3 else 2 : BitVec 2).toNat) = true := by cases wide <;> rfl
  exact hb.reads (by
    simp only [Raw.ma, hb.scalar _ hx hz, hb.ordered _ rfl ho, hb.pfx, Raw.noTy_eq, Raw.order_fields, Raw.low_fields,
      Raw.imm0_fields, Raw.regs_fields, Raw.ofPfx_fields, hw.operands3 hr, hi, hwide, hsize, Raw.need_eq])

theorem reads_mt {mk : Pfx → Ordering → BitVec 3 → RegNum → RegNum → RegNum → Word → Instr} {size : BitVec 3}
    (h : wfMT g x o size a b c imm = true) (hop : op.toNat < 0x3C := by decide) :
    (((((Raw.ofPfx 0 op x).regs a b c).imm2 imm).type size).order o).Reads 0 (fun w => w.mt g mk)
      (mk x o size a b c imm) := by
  simp only [wfMT, Bool.and_eq_true, Bool.not_eq_true'] at h
  obtain ⟨⟨⟨⟨⟨⟨hx, hz⟩, hr⟩, hsize⟩, hty⟩, hi⟩, ho⟩ := h
  have hw := Raw.ofPfx_built hop hx
  have hb := (((hw.regs a b c).imm2 imm).type size).order (Ordering.none_of_ok ho)
  have hi := Raw.immI2_imm2 (w := (Raw.ofPfx 0 op x).regs a b c) (Pfx.nx_le hx) hi
  have hty := tyField_eq (by simpa only [Bool.or_eq_true, beq_iff_eq] using hty)
  exact hb.reads (by
    simp only [Raw.mt, hb.scalar _ hx hz, hb.ordered _ rfl ho, hb.pfx, Raw.order_fields, Raw.type_fields,
      Raw.imm2_fields, Raw.regs_fields, Raw.ofPfx_fields, hw.operands3 hr, hi, Raw.type_ty, hty, Raw.need_eq hsize])

end

/-! ## Ranges, selectors and fences (R94 to R97, R134) -/

theorem reads_pp {mk : Pfx → RegNum → RegNum → Instr} (h : wfPP x a b = true) (hop : op.toNat < 0x3C := by decide) :
    ((Raw.ofPfx 0 op x).regs a b 0).Reads 0 (fun w => w.pp mk) (mk x a b) := by
  simp only [wfPP, Bool.and_eq_true] at h
  obtain ⟨⟨⟨hx, hr⟩, hle⟩, hsp⟩ := h
  have hw := (Raw.ofPfx_built hop (Pfx.plain_iff.1 hx).1).operands2 hr 0
  obtain ⟨he, hp, hun⟩ := reads_un (op := op) (mk := mk) (Bool.and_eq_true_iff.2 ⟨hx, hr⟩) hop
  exact ⟨he, hp, (Raw.need_eq (by rw [hw.1, hw.2, hle, hsp]; rfl) _ _).trans hun⟩

theorem reads_tr {code : BitVec 8} (h : wfNone 0 x = true) (hop : op.toNat < 0x3C := by decide) :
    ((Raw.ofPfx 0 op x).low4 (code.extractLsb' 4 4) (code.extractLsb' 0 4)).Reads 0 Raw.tr (.trap x code) := by
  simp only [wfNone, Bool.and_eq_true, Bool.not_eq_true'] at h
  obtain ⟨hx, hr⟩ := h
  have hb := (Raw.ofPfx_built hop (Pfx.plain_iff.1 hx).1).low4 (code.extractLsb' 4 4) (code.extractLsb' 0 4)
  have hcode : code.extractLsb' 4 4 ++ code.extractLsb' 0 4 = code := BitVec.extractLsb'_append_extractLsb'
  exact hb.reads (by
    simp only [Raw.tr, hb.plain _ hx rfl rfl, hb.noR _ hr, hb.pfx, Raw.low4_fields, hcode])

theorem reads_selA {mk : Pfx → RegNum → BitVec 4 → Instr} {n : Nat} {k : BitVec 4} (h : wfSel n pg x a k = true)
    (hop : op.toNat < 0x3C := by decide) :
    ((Raw.ofPfx pg op x).regs a (k.setWidth 5) 0).Reads pg (fun w => w.selA n mk) (mk x a k) := by
  simp only [wfSel, wfA, Bool.and_eq_true] at h
  obtain ⟨⟨hx, hr⟩, hk⟩ := h
  have hw := Raw.ofPfx_built hop (Pfx.plain_iff.1 hx).1
  have hb := hw.regs a (k.setWidth 5) 0
  have hr : regs2 x a (k.setWidth 5) = true := by simpa [regs2, low_setWidth] using hr
  exact hb.reads (by
    simp only [Raw.selA, hb.plain _ hx rfl rfl, hb.pfx, Raw.noC_eq, Raw.noB4_eq, Raw.regs_fields, ite_self,
      getLsbD_setWidth_four, setWidth_setWidth_four, Bool.and_false, Raw.need_eq hk, hw.operands2 hr])

theorem reads_tdead {k : BitVec 4} (h : (wfA 5 x a && decide (k.toNat % 8 < 6)) = true)
    (hop : op.toNat < 0x3C := by decide) :
    ((Raw.ofPfx 5 op x).regs a (k.setWidth 5) 0).Reads 5 Raw.tdead (.tdead x a k) := by
  obtain ⟨ha, hk⟩ := Bool.and_eq_true_iff.1 h
  obtain ⟨he, hp, hs⟩ := reads_selA (op := op) (mk := .tdead) (n := 16) (k := k)
    (Bool.and_eq_true_iff.2 ⟨ha, decide_eq_true k.isLt⟩) hop
  refine ⟨he, hp, (Raw.need_eq ?_ _ _).trans hs⟩
  simpa only [Raw.regs_fields, setWidth_setWidth_four] using hk

theorem reads_fence {o : Ordering}
    (h : (x.ok 0 && x.nx == 0 && !x.r && !x.zero && x.m && o.ok .fence x) = true)
    (hop : op.toNat < 0x3C := by decide) :
    ((Raw.ofPfx 0 op x).order o).Reads 0 Raw.fence (.fence x o) := by
  simp only [Bool.and_eq_true, Bool.not_eq_true', beq_iff_eq] at h
  obtain ⟨⟨⟨⟨⟨hx, hnx⟩, hr⟩, hz⟩, hm⟩, ho⟩ := h
  have hb := (Raw.ofPfx_built hop hx).order (Ordering.none_of_ok ho)
  exact hb.reads (by
    simp only [Raw.fence, hb.noX _ hnx, hb.noR _ hr, hb.scalar _ hx hz, Raw.noMf_eq, Raw.noA_eq, Raw.order_fields,
      Raw.ofPfx_fields, beq_self_eq_true, if_true, Raw.need_eq (hb.mm.trans hm), hb.ordered _ rfl ho, hb.pfx])

theorem reads_fenceI (h : (x.ok 0 && x.nx == 0 && !x.r && !x.zero && !x.m) = true)
    (hop : op.toNat < 0x3C := by decide) :
    ((Raw.ofPfx 0 op x).low4 0 1).Reads 0 Raw.fence (.fenceI x) := by
  simp only [Bool.and_eq_true, Bool.not_eq_true', beq_iff_eq] at h
  obtain ⟨⟨⟨⟨hx, hnx⟩, hr⟩, hz⟩, hm⟩ := h
  have hb := (Raw.ofPfx_built hop hx).low4 0 1
  exact hb.reads (by
    rw [Raw.fence, hb.noX _ hnx, hb.noR _ hr, hb.scalar _ hx hz, Raw.noMf_eq _ rfl,
      Raw.noA_eq _ (Raw.ra5_low4_zero rfl 1)]
    exact (hb.noM _ hm).trans (by rw [hb.pfx]))

/-! ## Page 1 (R99, R116) -/

theorem reads_kg {k : BitVec 4} (h : (wfRR 1 x a 0 c && decide (k.toNat < 9)) = true)
    (hop : op.toNat < 0x3C := by decide) :
    ((Raw.ofPfx 1 op x).regs a (k.setWidth 5) c).Reads 1 Raw.kg (.kget x a c k) := by
  simp only [wfRR, Bool.and_eq_true] at h
  obtain ⟨⟨hx, hr⟩, hk⟩ := h
  have hw := Raw.ofPfx_built hop (Pfx.plain_iff.1 hx).1
  have hb := hw.regs a (k.setWidth 5) c
  have hr : regs3 x a (k.setWidth 5) c = true := by rw [regs3_zero] at hr; simpa [regs3, low_setWidth] using hr
  exact hb.reads (by
    simp only [Raw.kg, hb.plain _ hx rfl rfl, hb.pfx, Raw.noB4_eq, hw.operands3 hr, Raw.regs_fields,
      getLsbD_setWidth_four, setWidth_setWidth_four, Bool.and_false, Raw.need_eq hk])

end

theorem FTy.ofCode_code (t : FTy) : FTy.ofCode t.code = some t := by cases t <;> rfl
theorem ITy.ofCode_code (t : ITy) : ITy.ofCode t.code = t := by cases t <;> rfl
theorem ETy.ofCode_code (t : ETy) : ETy.ofCode t.cls t.code = some t := by
  cases t with
  | fp t => simp [ETy.ofCode, ETy.cls, ETy.code, FTy.ofCode_code]
  | int t => simp [ETy.ofCode, ETy.cls, ETy.code, ITy.ofCode_code]

theorem Raw.fty_code (t : FTy) (k : FTy → Except DecErr Instr) : Raw.fty t.code k = k t := by
  simp only [Raw.fty, FTy.ofCode_code]

theorem Raw.Built.typed {w : Raw} {pg : BitVec 3} {x : Pfx} (h : w.Built pg x) (k : Except DecErr Instr)
    (hx : x.plain pg = true) (hm : w.m = 0) : w.typed k = k := by
  obtain ⟨hok, hnx, hm', hz⟩ := Pfx.plain_iff.1 hx
  rw [Raw.typed, h.noX _ hnx, h.noM _ hm', h.scalar _ hok hz, Raw.noMf_eq _ hm]

theorem Raw.ety_eq {w : Raw} {t : ETy} (hm : w.m = t.cls) (hty : w.ty = t.code) (ht : t.vec = true)
    (k : ETy → Except DecErr Instr) : w.ety k = k t := by
  simp only [Raw.ety, hm, hty, ETy.ofCode_code, Raw.need_eq ht]

section
variable {w : Raw} {pg : BitVec 3} {x : Pfx} (h : w.Built pg x)
include h

theorem Raw.Built.arith_type {t : FTy} (hty : (x.r || t == .f32) = true) (ht : t.arith = true)
    (k : FTy → Except DecErr Instr) : (w.type t.code).arith k = k t := by
  have hcode : (w.type t.code).ty = t.code := by
    rw [← h.r, Bool.or_eq_true, beq_iff_eq] at hty
    exact tyField_eq (hty.imp_right fun h => by rw [h]; rfl)
  rw [Raw.arith, hcode, Raw.fty_code, Raw.need_eq ht]

theorem Raw.Built.ty_type {t : ITy} (hty : (x.r || t == .s32) = true) : (w.type t.code).ty = t.code := by
  rw [← h.r, Bool.or_eq_true, beq_iff_eq] at hty
  exact tyField_eq (hty.imp_right fun h => by rw [h]; rfl)

theorem Raw.Built.ety_elem {t : ETy} (hty : tyNoR x t = true) (ht : t.vec = true) (k : ETy → Except DecErr Instr) :
    (w.elem t).ety k = k t := by
  simp only [tyNoR, ← h.r, Bool.or_eq_true, beq_iff_eq, or_assoc] at hty
  exact Raw.ety_eq rfl (tyField_eq (hty.imp_right fun h => by rcases h with rfl | rfl <;> rfl)) ht k

end

section
variable {pg : BitVec 3} {op : BitVec 6} {x : Pfx} {a b c : RegNum} {imm : Word}

theorem reads_fr {t : FTy} {mk : Pfx → FTy → RegNum → RegNum → RegNum → Instr} (h : wfFR x t a b c = true)
    (hop : op.toNat < 0x3C := by decide) :
    (((Raw.ofPfx 1 op x).regs a b c).type t.code).Reads 1 (fun w => w.fr mk) (mk x t a b c) := by
  simp only [wfFR, Bool.and_eq_true] at h
  obtain ⟨⟨⟨hx, hr⟩, ht⟩, hty⟩ := h
  have hw := Raw.ofPfx_built hop (Pfx.plain_iff.1 hx).1
  have hb := (hw.regs a b c).type t.code
  exact hb.reads (by
    simp only [Raw.fr, hb.typed _ hx rfl, (hw.regs a b c).arith_type hty ht, hb.pfx, Raw.type_fields, hw.operands3 hr])

theorem reads_fu {t : FTy} {mk : Pfx → FTy → RegNum → RegNum → Instr} (h : wfFU x t a b = true)
    (hop : op.toNat < 0x3C := by decide) :
    (((Raw.ofPfx 1 op x).regs a b 0).type t.code).Reads 1 (fun w => w.fu mk) (mk x t a b) := by
  simp only [wfFU, Bool.and_eq_true] at h
  obtain ⟨⟨⟨hx, hr⟩, ht⟩, hty⟩ := h
  have hw := Raw.ofPfx_built hop (Pfx.plain_iff.1 hx).1
  have hb := (hw.regs a b 0).type t.code
  exact hb.reads (by
    simp only [Raw.fu, hb.typed _ hx rfl, (hw.regs a b 0).arith_type hty ht, hb.pfx, Raw.noC_eq, Raw.type_fields,
      Raw.regs_fields, ite_self, hw.operands2 hr])

theorem fcvtField (rtz : Bool) (t : ITy) : let c : BitVec 5 := (if rtz then 8 else 0) ||| t.code.setWidth 5
    c.getLsbD 4 = false ∧ c.getLsbD 3 = rtz ∧ c.extractLsb' 0 3 = t.code := by
  cases t <;> cases rtz <;> decide

theorem codeField (k : BitVec 3) : (k.setWidth 5 : BitVec 5).extractLsb' 3 2 = 0
    ∧ (k.setWidth 5 : BitVec 5).extractLsb' 0 3 = k := by revert k; decide

theorem reads_fcvti {src : FTy} {dst : ITy} {rtz : Bool} (h : wfCV x = true) (hop : op.toNat < 0x3C := by decide) :
    (((Raw.ofPfx 1 op x).regs a b ((if rtz then 8 else 0) ||| dst.code.setWidth 5)).type src.code).Reads 1 Raw.fcvti
      (.fcvti x src dst rtz a b) := by
  obtain ⟨hx, hr⟩ := Bool.and_eq_true_iff.1 h
  have hw := Raw.ofPfx_built hop (Pfx.plain_iff.1 hx).1
  have hb := (hw.regs a b ((if rtz then 8 else 0) ||| dst.code.setWidth 5)).type src.code
  obtain ⟨h4, h3, h0⟩ := fcvtField rtz dst
  exact hb.reads (by
    simp only [Raw.fcvti, hb.withR _ hr, hb.typed _ hx rfl, hb.pfx, Raw.type_ty, Raw.type_fields, Raw.regs_fields, Raw.ofPfx_fields, hr,
      if_true, h4, h3, h0, Bool.not_false, Raw.need_eq, Raw.fty_code, ITy.ofCode_code,
      hw.operands2 (regs2_iff.2 (.inl hr))])

theorem reads_fcvtf {dst : FTy} {src : ITy} (h : wfCV x = true) (hop : op.toNat < 0x3C := by decide) :
    (((Raw.ofPfx 1 op x).regs a b (src.code.setWidth 5)).type dst.code).Reads 1 Raw.fcvtf (.fcvtf x dst src a b) := by
  obtain ⟨hx, hr⟩ := Bool.and_eq_true_iff.1 h
  have hw := Raw.ofPfx_built hop (Pfx.plain_iff.1 hx).1
  have hb := (hw.regs a b (src.code.setWidth 5)).type dst.code
  exact hb.reads (by
    simp only [Raw.fcvtf, hb.withR _ hr, hb.typed _ hx rfl, hb.pfx, Raw.type_ty, Raw.type_fields, Raw.regs_fields, Raw.ofPfx_fields, hr,
      if_true, codeField, beq_self_eq_true, Raw.need_eq, Raw.fty_code, ITy.ofCode_code,
      hw.operands2 (regs2_iff.2 (.inl hr))])

theorem reads_fcvtw {dst src : FTy} (h : wfCV x = true) (hop : op.toNat < 0x3C := by decide) :
    (((Raw.ofPfx 1 op x).regs a b (src.code.setWidth 5)).type dst.code).Reads 1 Raw.fcvtw (.fcvtw x dst src a b) := by
  obtain ⟨hx, hr⟩ := Bool.and_eq_true_iff.1 h
  have hw := Raw.ofPfx_built hop (Pfx.plain_iff.1 hx).1
  have hb := (hw.regs a b (src.code.setWidth 5)).type dst.code
  exact hb.reads (by
    simp only [Raw.fcvtw, hb.withR _ hr, hb.typed _ hx rfl, hb.pfx, Raw.type_ty, Raw.type_fields, Raw.regs_fields, Raw.ofPfx_fields, hr,
      if_true, codeField, beq_self_eq_true, Raw.need_eq, Raw.fty_code, hw.operands2 (regs2_iff.2 (.inl hr))])

/-! ## Page 2 (R168) -/

theorem reads_vv {t : ETy} {mk : Pfx → ETy → RegNum → RegNum → RegNum → Instr} (h : wfVV x t a b c = true)
    (hop : op.toNat < 0x3C := by decide) :
    (((Raw.ofPfx 2 op x).regs a b c).elem t).Reads 2 (fun w => w.vv mk) (mk x t a b c) := by
  simp only [wfVV, Bool.and_eq_true] at h
  obtain ⟨⟨⟨hx, hr⟩, ht⟩, hty⟩ := h
  have hw := Raw.ofPfx_built hop (Pfx.vec_iff.1 hx).1
  have hb := (hw.regs a b c).elem t
  exact hb.reads (by
    simp only [Raw.vv, hb.vform _ hx, (hw.regs a b c).ety_elem hty ht, hb.pfx, Raw.elem_fields, hw.operands3 hr])

theorem reads_vvf {t : FTy} {mk : Pfx → FTy → RegNum → RegNum → RegNum → Instr} (h : wfVV x (.fp t) a b c = true)
    (hop : op.toNat < 0x3C := by decide) :
    (((Raw.ofPfx 2 op x).regs a b c).elem (.fp t)).Reads 2 (fun w => w.vvf mk) (mk x t a b c) := by
  simp only [wfVV, Bool.and_eq_true] at h
  obtain ⟨⟨⟨hx, hr⟩, ht⟩, hty⟩ := h
  have hw := Raw.ofPfx_built hop (Pfx.vec_iff.1 hx).1
  have hb := (hw.regs a b c).elem (.fp t)
  exact hb.reads (by
    simp only [Raw.vvf, hb.vform _ hx, Raw.efp, (hw.regs a b c).ety_elem hty ht, hb.pfx, Raw.elem_fields,
      hw.operands3 hr])

theorem reads_vvi {t : ITy} {mk : Pfx → ITy → RegNum → RegNum → RegNum → Instr} (h : wfVV x (.int t) a b c = true)
    (hop : op.toNat < 0x3C := by decide) :
    (((Raw.ofPfx 2 op x).regs a b c).elem (.int t)).Reads 2 (fun w => w.vvi mk) (mk x t a b c) := by
  simp only [wfVV, Bool.and_eq_true] at h
  obtain ⟨⟨⟨hx, hr⟩, ht⟩, hty⟩ := h
  have hw := Raw.ofPfx_built hop (Pfx.vec_iff.1 hx).1
  have hb := (hw.regs a b c).elem (.int t)
  exact hb.reads (by
    simp only [Raw.vvi, hb.vform _ hx, Raw.eint, (hw.regs a b c).ety_elem hty ht, hb.pfx, Raw.elem_fields,
      hw.operands3 hr])

theorem reads_vu {t : ETy} {mk : Pfx → ETy → RegNum → RegNum → Instr} (h : wfVU x t a b = true)
    (hop : op.toNat < 0x3C := by decide) :
    (((Raw.ofPfx 2 op x).regs a b 0).elem t).Reads 2 (fun w => w.vu mk) (mk x t a b) := by
  simp only [wfVU, Bool.and_eq_true] at h
  obtain ⟨⟨⟨hx, hr⟩, ht⟩, hty⟩ := h
  have hw := Raw.ofPfx_built hop (Pfx.vec_iff.1 hx).1
  have hb := (hw.regs a b 0).elem t
  exact hb.reads (by
    simp only [Raw.vu, hb.vform _ hx, Raw.noC_eq, (hw.regs a b 0).ety_elem hty ht, hb.pfx, Raw.elem_fields,
      Raw.regs_fields, ite_self, hw.operands2 hr])

theorem reads_vuf {t : FTy} {mk : Pfx → FTy → RegNum → RegNum → Instr} (h : wfVU x (.fp t) a b = true)
    (hop : op.toNat < 0x3C := by decide) :
    (((Raw.ofPfx 2 op x).regs a b 0).elem (.fp t)).Reads 2 (fun w => w.vuf mk) (mk x t a b) := by
  simp only [wfVU, Bool.and_eq_true] at h
  obtain ⟨⟨⟨hx, hr⟩, ht⟩, hty⟩ := h
  have hw := Raw.ofPfx_built hop (Pfx.vec_iff.1 hx).1
  have hb := (hw.regs a b 0).elem (.fp t)
  exact hb.reads (by
    simp only [Raw.vuf, hb.vform _ hx, Raw.noC_eq, Raw.efp, (hw.regs a b 0).ety_elem hty ht, hb.pfx, Raw.elem_fields,
      Raw.regs_fields, ite_self, hw.operands2 hr])

theorem reads_vui {t : ITy} {mk : Pfx → ITy → RegNum → RegNum → Instr} (h : wfVU x (.int t) a b = true)
    (hop : op.toNat < 0x3C := by decide) :
    (((Raw.ofPfx 2 op x).regs a b 0).elem (.int t)).Reads 2 (fun w => w.vui mk) (mk x t a b) := by
  simp only [wfVU, Bool.and_eq_true] at h
  obtain ⟨⟨⟨hx, hr⟩, ht⟩, hty⟩ := h
  have hw := Raw.ofPfx_built hop (Pfx.vec_iff.1 hx).1
  have hb := (hw.regs a b 0).elem (.int t)
  exact hb.reads (by
    simp only [Raw.vui, hb.vform _ hx, Raw.noC_eq, Raw.eint, (hw.regs a b 0).ety_elem hty ht, hb.pfx, Raw.elem_fields,
      Raw.regs_fields, ite_self, hw.operands2 hr])

/-- R180, R185, R192: a form that refuses PM 0b01 too. -/
theorem Raw.Reads.scalar {w : Raw} {form : Raw → Except DecErr Instr} {i : Instr} (h : w.Reads pg form i)
    (hw : w.Built pg x) (hx : x.ok pg = true) (hz : x.zero = false) : w.Reads pg (fun w => w.scalar (form w)) i :=
  ⟨h.encodable, h.page, (hw.scalar _ hx hz).trans h.reads⟩

theorem reads_vum {t : ETy} {mk : Pfx → ETy → RegNum → RegNum → Instr} (h : (wfVU x t a b && !x.zero) = true)
    (hop : op.toNat < 0x3C := by decide) :
    (((Raw.ofPfx 2 op x).regs a b 0).elem t).Reads 2 (fun w => w.vum mk) (mk x t a b) := by
  simp only [Bool.and_eq_true, Bool.not_eq_true'] at h
  have hx : x.ok 2 = true := by
    simp only [wfVU, Bool.and_eq_true] at h
    exact (Pfx.vec_iff.1 h.1.1.1.1).1
  exact (reads_vu h.1 hop).scalar (((Raw.ofPfx_built hop hx).regs a b 0).elem t) hx h.2

theorem reads_vsel {t : ETy} (h : (wfVV x t a b c && !x.zero) = true) (hop : op.toNat < 0x3C := by decide) :
    (((Raw.ofPfx 2 op x).regs a b c).elem t).Reads 2 Raw.vsel (.vsel x t a b c) := by
  simp only [Bool.and_eq_true, Bool.not_eq_true'] at h
  have hx : x.ok 2 = true := by
    simp only [wfVV, Bool.and_eq_true] at h
    exact (Pfx.vec_iff.1 h.1.1.1.1).1
  exact (reads_vv h.1 hop).scalar (((Raw.ofPfx_built hop hx).regs a b c).elem t) hx h.2

theorem reads_vc {t : ETy} {p : PredNum} {mk : Pfx → ETy → PredNum → RegNum → RegNum → Instr}
    (h : wfVC x t p b c = true) (hop : op.toNat < 0x3C := by decide) :
    (((Raw.ofPfx 2 op x).regs (p.setWidth 5) b c).elem t).Reads 2 (fun w => w.vc mk) (mk x t p b c) := by
  simp only [wfVC, Bool.and_eq_true] at h
  obtain ⟨⟨⟨hx, hr⟩, ht⟩, hty⟩ := h
  have hw := Raw.ofPfx_built hop (Pfx.vec_iff.1 hx).1
  have hb := (hw.regs (p.setWidth 5) b c).elem t
  have hr : regs3 x (p.setWidth 5) b c = true := by simpa only [regs3, low_setWidth, Bool.true_and] using hr
  exact hb.reads (by
    simp only [Raw.vc, hb.vform _ hx, Raw.noA4_eq, (hw.regs (p.setWidth 5) b c).ety_elem hty ht, hb.pfx, Raw.elem_fields,
      Raw.regs_fields, getLsbD_setWidth_four, setWidth_setWidth_four, Bool.and_false, hw.operands3 hr])

theorem ETy.ofCode_field (t : ETy) (rtz : Bool) : let c : BitVec 5 := t.field ||| if rtz then 16 else 0
    ETy.ofCode (if c.getLsbD 3 then 1 else 0) (c.extractLsb' 0 3) = some t ∧ c.getLsbD 4 = rtz := by
  cases t with
  | fp t => cases t <;> cases rtz <;> decide
  | int t => cases t <;> cases rtz <;> decide

theorem tyNoR_of_r {t : ETy} (h : x.r = true) : tyNoR x t = true := by rw [tyNoR, h]; rfl

theorem reads_vcvt {dst src : ETy} {rtz : Bool} (h : wfVCVT x dst src rtz = true) (hop : op.toNat < 0x3C := by decide) :
    (((Raw.ofPfx 2 op x).regs a b (src.field ||| if rtz then 16 else 0)).elem dst).Reads 2 Raw.vcvt
      (.vcvt x dst src rtz a b) := by
  simp only [wfVCVT, Bool.and_eq_true] at h
  obtain ⟨⟨⟨⟨hx, hr⟩, hdst⟩, hsrc⟩, hrtz⟩ := h
  have hw := Raw.ofPfx_built hop (Pfx.vec_iff.1 hx).1
  have hb := (hw.regs a b (src.field ||| if rtz then 16 else 0)).elem dst
  obtain ⟨hcode, hrtz4⟩ := ETy.ofCode_field src rtz
  refine hb.reads ?_
  simp only [Raw.vcvt, hb.withR _ hr, hb.vform _ hx, (hw.regs a b _).ety_elem (tyNoR_of_r hr) hdst, hb.pfx,
    Raw.elem_fields, Raw.regs_fields, Raw.ofPfx_fields, hr, if_true, hcode, hrtz4, Raw.need_eq hsrc,
    hw.operands2 (regs2_iff.2 (.inl hr))]
  exact Raw.need_eq hrtz _ _

theorem reads_vsatn {dst src : ETy} (h : wfVSATN x dst src = true) (hop : op.toNat < 0x3C := by decide) :
    (((Raw.ofPfx 2 op x).regs a b (src.code.setWidth 5)).elem dst).Reads 2 Raw.vsatn (.vsatn x dst src a b) := by
  have hwf := h
  simp only [wfVSATN, Bool.and_eq_true] at h
  obtain ⟨⟨⟨⟨hx, hr⟩, hdst⟩, -⟩, hcls⟩ := h
  have hw := Raw.ofPfx_built hop (Pfx.vec_iff.1 hx).1
  have hb := (hw.regs a b (src.code.setWidth 5)).elem dst
  have hcode : ETy.ofCode dst.cls src.code = some src := by
    rw [← ETy.ofCode_code src]
    cases dst with
    | fp d =>
      cases src with
      | fp u => rfl
      | int u => exact absurd hcls Bool.false_ne_true
    | int d =>
      cases src with
      | fp u => exact absurd hcls Bool.false_ne_true
      | int u => rfl
  refine hb.reads ?_
  simp only [Raw.vsatn, hb.withR _ hr, hb.vform _ hx, (hw.regs a b _).ety_elem (tyNoR_of_r hr) hdst, hb.pfx,
    Raw.elem_fields, Raw.regs_fields, Raw.ofPfx_fields, hr, if_true, codeField, beq_self_eq_true, hcode, hwf, Raw.need_eq,
    hw.operands2 (regs2_iff.2 (.inl hr))]

theorem reads_vrand (h : (x.vec 2 && x.r) = true) (hop : op.toNat < 0x3C := by decide) :
    (((Raw.ofPfx 2 op x).regs a b c).elem (.int .z32)).Reads 2 Raw.vrand (.vrand x a b c) := by
  obtain ⟨hx, hr⟩ := Bool.and_eq_true_iff.1 h
  have hw := Raw.ofPfx_built hop (Pfx.vec_iff.1 hx).1
  have hb := (hw.regs a b c).elem (.int .z32)
  exact hb.reads (by
    simp only [Raw.vrand, hb.withR _ hr, hb.vform _ hx, hb.pfx, Raw.elem_fields, Raw.regs_fields, Raw.ofPfx_fields, hr,
      if_true, ETy.cls, ETy.code, ITy.code, beq_self_eq_true, Bool.and_self, Raw.need_eq,
      hw.operands2 (regs2_iff.2 (.inl hr))])

theorem reads_vi {t : ITy} {mk : Pfx → ITy → RegNum → RegNum → Word → Instr} (h : wfVI x t a c imm = true)
    (hop : op.toNat < 0x3C := by decide) :
    ((((Raw.ofPfx 2 op x).regs a 0 c).imm6 imm).type t.code).Reads 2 (fun w => w.vi mk) (mk x t a c imm) := by
  simp only [wfVI, Bool.and_eq_true, Bool.not_eq_true'] at h
  obtain ⟨⟨⟨hx, hm⟩, hr⟩, hi⟩ := h
  have hw := Raw.ofPfx_built hop hx
  have hb := ((hw.regs a 0 c).imm6 imm).type t.code
  have hty : (x.r || t == .s32) = true := by
    simp only [Bool.or_eq_true, Bool.and_eq_true] at hr ⊢
    exact hr.imp_right fun h => h.2
  have hr : (x.r || (a.low && c == a)) = true := by
    simp only [Bool.or_eq_true, Bool.and_eq_true] at hr ⊢
    exact hr.imp_right fun h => h.1
  have hi := Raw.immI6_imm6 (w := (Raw.ofPfx 2 op x).regs a 0 c) (Pfx.nx_le hx) hi
  exact hb.reads (by
    simp only [Raw.vi, hb.noM _ hm, hb.vec _ hx, hb.pfx, Raw.noB4_eq, ((hw.regs a 0 c).imm6 imm).ty_type hty,
      ITy.ofCode_code, Raw.type_fields, Raw.imm6_fields, Raw.regs_fields, getLsbD_zero_four, Bool.and_false,
      hw.operands3 (regs3_zero.trans hr), hi])

theorem reads_vdot4 {t : ETy} (h : wfVDOT4 x t a b c = true) (hop : op.toNat < 0x3C := by decide) :
    (((Raw.ofPfx 2 op x).regs a b c).elem t).Reads 2 Raw.vdot4 (.vdot4 x t a b c) := by
  have hwf := h
  simp only [wfVDOT4, Bool.and_eq_true] at h
  obtain ⟨⟨⟨hx, hr⟩, hregs⟩, ht⟩ := h
  have hw := Raw.ofPfx_built hop (Pfx.vec_iff.1 hx).1
  have hb := (hw.regs a b c).elem t
  have hvec : t.vec = true := by
    simp only [Bool.or_eq_true, beq_iff_eq] at ht
    rcases ht with ((rfl | rfl) | rfl) | rfl <;> rfl
  have hxr : { x with r := true } = x := by rw [← hr]
  exact hb.reads (by
    simp only [Raw.vdot4, hb.vform _ hx, (hw.regs a b c).ety_elem (tyNoR_of_r hr) hvec, hb.pfx, Raw.elem_fields,
      hw.operands3 hregs, hxr, Raw.need_eq hwf])

theorem reads_pl {p q r : PredNum} {mk : Pfx → PredNum → PredNum → PredNum → Instr} (h : wfPL x p r = true)
    (hop : op.toNat < 0x3C := by decide) :
    ((Raw.ofPfx 2 op x).regs (p.setWidth 5) (q.setWidth 5) (r.setWidth 5)).Reads 2 (fun w => w.pl mk) (mk x p q r) := by
  obtain ⟨hx, hr⟩ := Bool.and_eq_true_iff.1 h
  have hw := Raw.ofPfx_built hop (Pfx.vec_iff.1 hx).1
  have hb := hw.regs (p.setWidth 5) (q.setWidth 5) (r.setWidth 5)
  have hregs : regs3 x (p.setWidth 5) (q.setWidth 5) (r.setWidth 5) = true := by
    simp only [Bool.or_eq_true, beq_iff_eq] at hr
    exact regs3_iff.2 (hr.imp_right fun h => ⟨low_setWidth p, low_setWidth q, by rw [h]⟩)
  have hc : (if x.r then (r.setWidth 5 : RegNum) else 0).getLsbD 4 = false := by
    split
    · exact getLsbD_setWidth_four r
    · rfl
  exact hb.reads (by
    simp only [Raw.pl, hb.vform _ hx, hb.pfx, Raw.noMf_eq, Raw.noTy_eq, Raw.noA4_eq, Raw.noB4_eq, Raw.regs_fields,
      Raw.ofPfx_fields, getLsbD_setWidth_four, setWidth_setWidth_four, Bool.and_false, hc, Bool.not_false, Raw.need_eq,
      hw.operands3 hregs])

theorem reads_pn {p q : PredNum} {mk : Pfx → PredNum → PredNum → Instr} (h : x.vec 2 = true)
    (hop : op.toNat < 0x3C := by decide) :
    ((Raw.ofPfx 2 op x).regs (p.setWidth 5) (q.setWidth 5) 0).Reads 2 (fun w => w.pn mk) (mk x p q) := by
  have hb := (Raw.ofPfx_built hop (Pfx.vec_iff.1 h).1).regs (p.setWidth 5) (q.setWidth 5) 0
  exact hb.reads (by
    simp only [Raw.pn, hb.vform _ h, hb.pfx, Raw.noMf_eq, Raw.noTy_eq, Raw.noA4_eq, Raw.noB4_eq, Raw.noC_eq,
      Raw.regs_fields, Raw.ofPfx_fields, getLsbD_setWidth_four, setWidth_setWidth_four, Bool.and_false, ite_self])

theorem reads_ps {t : ETy} {p : PredNum} (h : (x.vec 2 && (x.r || b.low) && t.vec && tyNoR x t) = true)
    (hop : op.toNat < 0x3C := by decide) :
    (((Raw.ofPfx 2 op x).regs (p.setWidth 5) b 0).elem t).Reads 2 Raw.ps (.pset x t p b) := by
  simp only [Bool.and_eq_true] at h
  obtain ⟨⟨⟨hx, hr⟩, ht⟩, hty⟩ := h
  have hw := Raw.ofPfx_built hop (Pfx.vec_iff.1 hx).1
  have hb := (hw.regs (p.setWidth 5) b 0).elem t
  have hr : regs2 x (p.setWidth 5) b = true := by simpa only [regs2, low_setWidth, Bool.true_and] using hr
  exact hb.reads (by
    simp only [Raw.ps, hb.vform _ hx, Raw.noA4_eq, Raw.noC_eq, (hw.regs (p.setWidth 5) b 0).ety_elem hty ht, hb.pfx,
      Raw.elem_fields, Raw.regs_fields, getLsbD_setWidth_four, setWidth_setWidth_four, Bool.and_false, ite_self,
      hw.operands2 hr])

theorem reads_pq {t : ETy} {p : PredNum} {mk : Pfx → ETy → RegNum → PredNum → Instr}
    (h : (x.plain 2 && (x.r || a.low) && t.vec && tyNoR x t) = true) (hop : op.toNat < 0x3C := by decide) :
    (((Raw.ofPfx 2 op x).regs a (p.setWidth 5) 0).elem t).Reads 2 (fun w => w.pq mk) (mk x t a p) := by
  simp only [Bool.and_eq_true] at h
  obtain ⟨⟨⟨hx, hr⟩, ht⟩, hty⟩ := h
  obtain ⟨hok, hnx, hm, hz⟩ := Pfx.plain_iff.1 hx
  have hw := Raw.ofPfx_built hop hok
  have hb := (hw.regs a (p.setWidth 5) 0).elem t
  have hr : regs2 x a (p.setWidth 5) = true := by simpa only [regs2, low_setWidth, Bool.and_true] using hr
  exact hb.reads (by
    simp only [Raw.pq, hb.scalar _ hok hz, hb.vform _ (Pfx.vec_iff.2 ⟨hok, hnx, hm⟩), Raw.noB4_eq, Raw.noC_eq,
      (hw.regs a (p.setWidth 5) 0).ety_elem hty ht, hb.pfx, Raw.elem_fields, Raw.regs_fields, getLsbD_setWidth_four,
      setWidth_setWidth_four, Bool.and_false, ite_self, hw.operands2 hr])

/-! ## Page 3 (R191) -/

theorem Raw.Built.vmem {w : Raw} (hb : w.Built pg x) {g : OrdGroup} {o : Ordering} (hx : x.ok pg = true)
    (hz : (g == .load || !x.zero) = true) (ho : w.ordering = o) (hg : o.ok g x = true) (k : Except DecErr Instr) :
    w.vmem g k = k := by
  have hpm : (g == .load || w.pm == 0) = true := by
    rw [hb.pm]
    cases h : x.zero with
    | true => rw [h] at hz; rw [(Bool.or_eq_true_iff.1 hz).resolve_right Bool.false_ne_true]; rfl
    | false => exact Bool.or_true _
  rw [Raw.vmem, hb.vec _ hx, Raw.need_eq hpm, hb.ordered _ ho hg]

section
variable {g : OrdGroup} {o : Ordering} {t : ITy}

theorem wfVM_iff : wfVM g x o t a b imm = true ↔ x.ok 3 = true ∧ regs2 x a b = true ∧ (x.r || t == .s32) = true
    ∧ immFits x.i2 imm = true ∧ o.ok g x = true ∧ (g == .load || !x.zero) = true := by
  simp only [wfVM, Bool.and_eq_true, and_assoc]

theorem reads_vm {mk : Pfx → Ordering → ITy → RegNum → RegNum → Word → Instr} (h : wfVM g x o t a b imm = true)
    (hop : op.toNat < 0x3C := by decide) :
    (((((Raw.ofPfx 3 op x).regs a b 0).imm2 imm).type t.code).order o).Reads 3 (fun w => w.vm g mk)
      (mk x o t a b imm) := by
  obtain ⟨hx, hr, hty, hi, ho, hz⟩ := wfVM_iff.1 h
  have hw := Raw.ofPfx_built hop hx
  have hb := (((hw.regs a b 0).imm2 imm).type t.code).order (Ordering.none_of_ok ho)
  have hi := Raw.immI2_imm2 (w := (Raw.ofPfx 3 op x).regs a b 0) (Pfx.nx_le hx) hi
  exact hb.reads (by
    simp only [Raw.vm, hb.vmem hx hz rfl ho, hb.pfx, Raw.noC_eq, Raw.order_fields, Raw.type_fields,
      ((hw.regs a b 0).imm2 imm).ty_type hty, ITy.ofCode_code, Raw.imm2_fields, Raw.regs_fields, ite_self, hi,
      hw.operands2 hr])

theorem reads_vmc {mk : Pfx → Ordering → ITy → RegNum → RegNum → RegNum → Word → Instr}
    (h : wfVMC g x o t a b c imm = true) (hop : op.toNat < 0x3C := by decide) :
    (((((Raw.ofPfx 3 op x).regs a b c).imm2 imm).type t.code).order o).Reads 3 (fun w => w.vmc g mk)
      (mk x o t a b c imm) := by
  obtain ⟨hvm, hr⟩ := Bool.and_eq_true_iff.1 h
  obtain ⟨hx, -, hty, hi, ho, hz⟩ := wfVM_iff.1 hvm
  have hw := Raw.ofPfx_built hop hx
  have hb := (((hw.regs a b c).imm2 imm).type t.code).order (Ordering.none_of_ok ho)
  have hi := Raw.immI2_imm2 (w := (Raw.ofPfx 3 op x).regs a b c) (Pfx.nx_le hx) hi
  exact hb.reads (by
    simp only [Raw.vmc, hb.vmem hx hz rfl ho, hb.pfx, Raw.order_fields, Raw.type_fields,
      ((hw.regs a b c).imm2 imm).ty_type hty, ITy.ofCode_code, Raw.imm2_fields, hi, hw.operands3 hr])

theorem reads_vxc {mk : Pfx → Ordering → ITy → RegNum → RegNum → RegNum → Instr}
    (h : wfVXC g x o t a b c = true) (hop : op.toNat < 0x3C := by decide) :
    ((((Raw.ofPfx 3 op x).regs a b c).type t.code).order o).Reads 3 (fun w => w.vxc g mk) (mk x o t a b c) := by
  obtain ⟨hnx, hvmc⟩ := Bool.and_eq_true_iff.1 h
  obtain ⟨hvm, hr⟩ := Bool.and_eq_true_iff.1 hvmc
  obtain ⟨hx, -, hty, -, ho, hz⟩ := wfVM_iff.1 hvm
  have hw := Raw.ofPfx_built hop hx
  have hb := ((hw.regs a b c).type t.code).order (Ordering.none_of_ok ho)
  exact hb.reads (by
    simp only [Raw.vxc, hb.noX _ (eq_of_beq hnx), hb.vmem hx hz rfl ho, hb.pfx, Raw.noMf_eq, Raw.order_fields,
      Raw.type_fields, Raw.regs_fields, Raw.ofPfx_fields, (hw.regs a b c).ty_type hty, ITy.ofCode_code, hw.operands3 hr])

theorem reads_pv {mk : Pfx → ITy → RegNum → RegNum → RegNum → Instr} (h : wfPV x t a b c = true)
    (hop : op.toNat < 0x3C := by decide) :
    (((Raw.ofPfx 3 op x).regs a b c).type t.code).Reads 3 (fun w => w.pv mk) (mk x t a b c) := by
  simp only [wfPV, Bool.and_eq_true] at h
  obtain ⟨⟨hx, hr⟩, hty⟩ := h
  have hw := Raw.ofPfx_built hop (Pfx.vec_iff.1 hx).1
  have hb := (hw.regs a b c).type t.code
  exact hb.reads (by
    simp only [Raw.pv, hb.pform _ hx rfl, hb.pfx, Raw.type_fields, (hw.regs a b c).ty_type hty, ITy.ofCode_code,
      hw.operands3 hr])

theorem reads_pvm {mk : Pfx → ITy → RegNum → RegNum → RegNum → Instr} (h : (wfPV x t a b c && !x.zero) = true)
    (hop : op.toNat < 0x3C := by decide) :
    (((Raw.ofPfx 3 op x).regs a b c).type t.code).Reads 3 (fun w => w.pvm mk) (mk x t a b c) := by
  simp only [Bool.and_eq_true, Bool.not_eq_true'] at h
  have hx : x.ok 3 = true := by
    simp only [wfPV, Bool.and_eq_true] at h
    exact (Pfx.vec_iff.1 h.1.1.1).1
  exact (reads_pv h.1 hop).scalar (((Raw.ofPfx_built hop hx).regs a b c).type t.code) hx h.2

theorem reads_ce {mk : Pfx → ITy → RegNum → RegNum → Instr} (h : wfCE x t a b = true)
    (hop : op.toNat < 0x3C := by decide) :
    (((Raw.ofPfx 3 op x).regs a b 0).type t.code).Reads 3 (fun w => w.ce mk) (mk x t a b) := by
  simp only [wfCE, Bool.and_eq_true] at h
  obtain ⟨⟨hx, hr⟩, hty⟩ := h
  have hw := Raw.ofPfx_built hop (Pfx.vec_iff.1 hx).1
  have hb := (hw.regs a b 0).type t.code
  exact hb.reads (by
    simp only [Raw.ce, hb.pform _ hx rfl, hb.pfx, Raw.noC_eq, Raw.type_fields, Raw.regs_fields, ite_self,
      (hw.regs a b 0).ty_type hty, ITy.ofCode_code, hw.operands2 hr])

theorem reads_qf {u : Bool} {m : BitVec 4} {mk : Pfx → Bool → BitVec 4 → RegNum → RegNum → Instr} (h : wfQF x m = true)
    (hop : op.toNat < 0x3C := by decide) :
    (((Raw.ofPfx 3 op x).regs a b (m.setWidth 5)).type (if u then 4 else 0)).Reads 3 (fun w => w.qf mk)
      (mk x u m a b) := by
  simp only [wfQF, Bool.and_eq_true] at h
  obtain ⟨⟨⟨hx, hr⟩, h2⟩, h8⟩ := h
  have hw := Raw.ofPfx_built hop (Pfx.vec_iff.1 hx).1
  have hb := (hw.regs a b (m.setWidth 5)).type (if u then 4 else 0)
  have hm : (m.setWidth 5 : RegNum).toNat = m.toNat := by
    rw [BitVec.toNat_setWidth, Nat.mod_eq_of_lt (by omega)]
  have hu : ((if u then 4 else 0 : BitVec 3) == 4) = u := by cases u <;> rfl
  have hu' : ((if u then 4 else 0 : BitVec 3) == 0 || u) = true := by cases u <;> rfl
  exact hb.reads (by
    simp only [Raw.qf, hb.withR _ hr, hb.pform _ hx rfl, hb.pfx, Raw.type_ty, Raw.type_fields, Raw.regs_fields, Raw.ofPfx_fields, hr,
      if_true, hu, hu', hm, h2, h8, Bool.and_self, setWidth_setWidth_four, Raw.need_eq,
      hw.operands2 (regs2_iff.2 (.inl hr))])

theorem reads_qfm {u : Bool} {m : BitVec 4} {mk : Pfx → Bool → BitVec 4 → RegNum → RegNum → Instr}
    (h : (wfQF x m && !x.zero) = true) (hop : op.toNat < 0x3C := by decide) :
    (((Raw.ofPfx 3 op x).regs a b (m.setWidth 5)).type (if u then 4 else 0)).Reads 3 (fun w => w.qfm mk)
      (mk x u m a b) := by
  simp only [Bool.and_eq_true, Bool.not_eq_true'] at h
  have hx : x.ok 3 = true := by
    simp only [wfQF, Bool.and_eq_true] at h
    exact (Pfx.vec_iff.1 h.1.1.1.1).1
  exact (reads_qf h.1 hop).scalar
    (((Raw.ofPfx_built hop hx).regs a b (m.setWidth 5)).type (if u then 4 else 0)) hx h.2

theorem reads_vsprs {p : PredNum} (h : wfVSPRS x t a b p = true) (hop : op.toNat < 0x3C := by decide) :
    (((Raw.ofPfx 3 op x).regs a b (p.setWidth 5)).type t.code).Reads 3 Raw.vsprs (.vsprs x t a b p) := by
  simp only [wfVSPRS, Bool.and_eq_true] at h
  obtain ⟨⟨hx, hr⟩, hwidth⟩ := h
  obtain ⟨hok, hnx, hm, hz⟩ := Pfx.plain_iff.1 hx
  have hw := Raw.ofPfx_built hop hok
  have hb := (hw.regs a b (p.setWidth 5)).type t.code
  simp only [Bool.or_eq_true, Bool.and_eq_true, beq_iff_eq] at hr
  have hty : (x.r || t == .s32) = true := by
    simp only [Bool.or_eq_true, beq_iff_eq]
    exact hr.imp_right fun h => h.1.2
  have hregs : regs3 x a b (p.setWidth 5) = true :=
    regs3_iff.2 (hr.imp_right fun h => ⟨h.1.1.1, h.1.1.2, h.2⟩)
  have hc : (if x.r then (p.setWidth 5 : RegNum) else 0).getLsbD 4 = false := by
    split
    · exact getLsbD_setWidth_four p
    · rfl
  exact hb.reads (by
    simp only [Raw.vsprs, hb.scalar _ hok hz, hb.pform _ (Pfx.vec_iff.2 ⟨hok, hnx, hm⟩) rfl, hb.pfx, Raw.type_fields,
      Raw.regs_fields, Raw.ofPfx_fields, hc, Bool.not_false, (hw.regs a b (p.setWidth 5)).ty_type hty, ITy.ofCode_code,
      hwidth, Raw.need_eq, setWidth_setWidth_four, hw.operands3 hregs])

end

/-! ## Page 4 (R288, R294, R315) -/

theorem ringField (q : BitVec 2) : ((q.setWidth 5 : RegNum).setWidth 4).extractLsb' 2 2 = 0
    ∧ ((q.setWidth 5 : RegNum).setWidth 4).extractLsb' 0 2 = q ∧ (q.setWidth 5 : RegNum).getLsbD 4 = false
    ∧ RegNum.low (q.setWidth 5) = true := by
  revert q; decide

theorem reads_mring {q : BitVec 2} (h : wfRR' 4 x = true) (hop : op.toNat < 0x3C := by decide) :
    ((Raw.ofPfx 4 op x).regs a (q.setWidth 5) c).Reads 4 Raw.mring (.mring x q a c) := by
  obtain ⟨hx, hr⟩ := Bool.and_eq_true_iff.1 h
  have hw := Raw.ofPfx_built hop (Pfx.plain_iff.1 hx).1
  have hb := hw.regs a (q.setWidth 5) c
  obtain ⟨h2, h0, h4, -⟩ := ringField q
  exact hb.reads (by
    simp only [Raw.mring, hb.withR _ hr, hb.plain _ hx rfl rfl, hb.pfx, Raw.noB4_eq, Raw.regs_fields, Raw.ofPfx_fields, hr,
      h4, h2, h0, Bool.and_false, beq_self_eq_true, Raw.need_eq, if_true, hw.operands2 (regs2_iff.2 (.inl hr))])

theorem reads_mprod {q : BitVec 2} (h : wfA 4 x a = true) (hop : op.toNat < 0x3C := by decide) :
    ((Raw.ofPfx 4 op x).regs a (q.setWidth 5) 0).Reads 4 Raw.mprod (.mprod x q a) := by
  obtain ⟨hx, hr⟩ := Bool.and_eq_true_iff.1 h
  have hw := Raw.ofPfx_built hop (Pfx.plain_iff.1 hx).1
  have hb := hw.regs a (q.setWidth 5) 0
  obtain ⟨h2, h0, h4, hlow⟩ := ringField q
  have hr : regs2 x a (q.setWidth 5) = true := by simpa only [regs2, hlow, Bool.and_true] using hr
  exact hb.reads (by
    simp only [Raw.mprod, hb.plain _ hx rfl rfl, hb.pfx, Raw.noC_eq, Raw.noB4_eq, Raw.regs_fields, ite_self, h4, h2, h0,
      Bool.and_false, beq_self_eq_true, Raw.need_eq, hw.operands2 hr])

section
variable {g : OrdGroup} {o : Ordering}

/-- R37: a timed command has a PFX.R. -/
theorem wfTimed_iff : wfTimed g x o c = true ↔ x.ok 4 = true ∧ x.nx = 0 ∧ x.zero = false ∧ o.ok g x = true
    ∧ (o.timed || c == 0) = true := by
  simp only [wfTimed, Bool.and_eq_true, Bool.not_eq_true', beq_iff_eq, and_assoc]

theorem Ordering.r_of_timed (hg : g = .matrix ∨ g = .engine) (ho : o.ok g x = true) (ht : o.timed = true) : x.r = true := by
  unfold Ordering.ok at ho
  rcases hg with rfl | rfl <;> split at ho <;> simp_all [Ordering.none]

theorem Raw.Built.timedForm {w : Raw} (hb : w.Built 4 x) (h : wfTimed g x o c = true) (ho : w.ordering = o)
    (hty : w.ty = 0) (hm : w.m = 0) (hc : w.c = c) (k : Except DecErr Instr) : w.timedForm g k = k := by
  obtain ⟨hx, hnx, hz, hg, ht⟩ := wfTimed_iff.1 h
  have htimed : w.timed = o.timed := congrArg Ordering.timed ho
  rw [Raw.timedForm, hb.noX _ hnx, hb.scalar _ hx hz, Raw.noTy_eq _ hty, Raw.noMf_eq _ hm, hb.ordered _ ho hg,
    Raw.need_eq (by rw [htimed, hc, ht])]

theorem Raw.Built.timeReg {w : Raw} (_ : w.Built 4 x) (ho : w.ordering = o) (hc : w.c = c)
    (h : (o.timed || c == 0) = true) : w.timeReg = c := by
  have htimed : w.timed = o.timed := congrArg Ordering.timed ho
  rw [Raw.timeReg, htimed, hc]
  simp only [Bool.or_eq_true, beq_iff_eq] at h
  rcases h with h | h
  · rw [if_pos h]
  · rw [h, ite_self]

theorem wfMMA_bits {f f' : Bool} (h : wfMMA x o f f' c = true) : x.r = false → f = false ∧ f' = false ∧ c = 0 := by
  intro hr
  simp only [wfMMA, hr, Bool.false_or, Bool.and_eq_true, Bool.not_eq_true'] at h
  obtain ⟨ht, hf, hf'⟩ := h
  obtain ⟨-, -, -, hg, hc⟩ := wfTimed_iff.1 ht
  simp only [Bool.or_eq_true, beq_iff_eq] at hc
  exact ⟨hf, hf', hc.resolve_left fun h => by simpa [hr] using Ordering.r_of_timed (.inl rfl) hg h⟩

theorem quadField (p q : BitVec 2) : (p ++ q : BitVec (2 + 2)).extractLsb' 0 2 = q ∧ (p ++ q : BitVec (2 + 2)).extractLsb' 2 2 = p :=
  ⟨by rw [extractLsb'_append_low _ _ (by decide), BitVec.extractLsb'_eq_self],
   by rw [extractLsb'_append_high _ _ (by decide)]; exact BitVec.extractLsb'_eq_self⟩

theorem keepField (k k' : Bool) (q : BitVec 2) : (bit1 k' ++ bit1 k ++ q : BitVec (1 + 1 + 2)).extractLsb' 0 2 = q
    ∧ (bit1 k' ++ bit1 k ++ q : BitVec (1 + 1 + 2)).getLsbD 2 = k ∧ (bit1 k' ++ bit1 k ++ q : BitVec (1 + 1 + 2)).getLsbD 3 = k' := by
  revert q; cases k <;> cases k' <;> decide

theorem reads_mma {n ra rb : BitVec 2} {ka kb ta tb : Bool} (h : wfMMA x o ta tb c = true)
    (hop : op.toNat < 0x3C := by decide) :
    ((((Raw.ofPfx 4 op x).low4 (ra ++ n) (bit1 kb ++ bit1 ka ++ rb)).bits4 ta tb c).order o).Reads 4 Raw.mma
      (.mma x o n ra rb ka kb ta tb c) := by
  have ht : wfTimed .matrix x o c = true := (Bool.and_eq_true_iff.1 h).1
  obtain ⟨hx, -, -, hg, hc⟩ := wfTimed_iff.1 ht
  have hb := (((Raw.ofPfx_built hop hx).low4 (ra ++ n) (bit1 kb ++ bit1 ka ++ rb)).bits4 (wfMMA_bits h)).order
    (Ordering.none_of_ok hg)
  exact hb.reads (by
    simp only [Raw.mma, hb.timedForm ht rfl rfl rfl rfl, hb.timeReg rfl rfl hc, hb.pfx, Raw.order_fields, Raw.bits4_fields,
      Raw.low4_fields, quadField, keepField])

theorem reads_mmas {n ra rb rm : BitVec 2} {ka kb : Bool} (h : wfMMA x o ka kb c = true)
    (hop : op.toNat < 0x3C := by decide) :
    ((((Raw.ofPfx 4 op x).low4 (ra ++ n) (rm ++ rb)).bits4 ka kb c).order o).Reads 4 Raw.mmas
      (.mmas x o n ra rb rm ka kb c) := by
  have ht : wfTimed .matrix x o c = true := (Bool.and_eq_true_iff.1 h).1
  obtain ⟨hx, -, -, hg, hc⟩ := wfTimed_iff.1 ht
  have hb := (((Raw.ofPfx_built hop hx).low4 (ra ++ n) (rm ++ rb)).bits4 (wfMMA_bits h)).order (Ordering.none_of_ok hg)
  exact hb.reads (by
    simp only [Raw.mmas, hb.timedForm ht rfl rfl rfl rfl, hb.timeReg rfl rfl hc, hb.pfx, Raw.order_fields,
      Raw.bits4_fields, Raw.low4_fields, quadField])

theorem reads_cpy {mk : Pfx → Ordering → RegNum → RegNum → RegNum → Instr} (h : wfCPY x o a b c = true)
    (hop : op.toNat < 0x3C := by decide) :
    (((Raw.ofPfx 4 op x).regs a b c).order o).Reads 4 (fun w => w.cpy mk) (mk x o a b c) := by
  obtain ⟨ht, hr⟩ := Bool.and_eq_true_iff.1 h
  obtain ⟨hx, -, -, hg, hc⟩ := wfTimed_iff.1 ht
  have hw := Raw.ofPfx_built hop hx
  have hb := (hw.regs a b c).order (Ordering.none_of_ok hg)
  have hcr : (if x.r then c else 0) = c := by
    simp only [Bool.or_eq_true, beq_iff_eq] at hc
    rcases hc with h | h
    · rw [if_pos (Ordering.r_of_timed (.inr rfl) hg h)]
    · rw [h, ite_self]
  exact hb.reads (by
    simp only [Raw.cpy, hb.timedForm ht rfl rfl rfl hcr, hb.timeReg rfl hcr hc, hb.pfx, Raw.order_fields,
      hw.operands2 hr])

end

theorem reads_mzero {n : BitVec 2} (h : wfNone 4 x = true) (hop : op.toNat < 0x3C := by decide) :
    ((Raw.ofPfx 4 op x).low4 0 (n.setWidth 4)).Reads 4 Raw.mzero (.mzero x n) := by
  simp only [wfNone, Bool.and_eq_true, Bool.not_eq_true'] at h
  obtain ⟨hx, hr⟩ := h
  have hn : (n.setWidth 4 : BitVec 4).extractLsb' 2 2 = 0 ∧ (n.setWidth 4 : BitVec 4).extractLsb' 0 2 = n := by
    revert n; decide
  have hb := (Raw.ofPfx_built hop (Pfx.plain_iff.1 hx).1).low4 0 (n.setWidth 4)
  refine hb.reads ?_
  rw [Raw.mzero, hb.plain _ hx rfl rfl, hb.noR _ hr, Raw.noA_eq _ (Raw.ra5_low4_zero rfl _)]
  simp only [Raw.low4_fields, hn, hb.pfx, beq_self_eq_true, Raw.need_eq]

theorem drainField (f : BitVec 3) (n : BitVec 2) : (f ++ n : BitVec (3 + 2)).toNat / 4 = f.toNat
    ∧ (f ++ n : BitVec (3 + 2)).extractLsb' 2 3 = f ∧ ((f ++ n : BitVec (3 + 2)).setWidth 4).extractLsb' 0 2 = n
    ∧ (f.toNat < 4 → RegNum.low (f ++ n) = true) := by
  revert f n; decide

theorem reads_mdrain {f : BitVec 3} {n : BitVec 2}
    (h : (wfA 4 x a && (x.r || decide (f.toNat < 4)) && decide (f.toNat < 5)) = true)
    (hop : op.toNat < 0x3C := by decide) :
    ((Raw.ofPfx 4 op x).regs a (f ++ n) 0).Reads 4 Raw.mdrain (.mdrain x f a n) := by
  simp only [wfA, Bool.and_eq_true] at h
  obtain ⟨⟨⟨hx, ha⟩, h4⟩, h5⟩ := h
  have hw := Raw.ofPfx_built hop (Pfx.plain_iff.1 hx).1
  have hb := hw.regs a (f ++ n) 0
  obtain ⟨hdiv, hf, hn, hlow⟩ := drainField f n
  have hr : regs2 x a (f ++ n) = true := by
    simp only [Bool.or_eq_true, decide_eq_true_eq] at ha h4
    exact regs2_iff.2 (ha.elim .inl fun ha => h4.imp_right fun h4 => ⟨ha, hlow h4⟩)
  exact hb.reads (by
    simp only [Raw.mdrain, hb.plain _ hx rfl rfl, hb.pfx, Raw.noC_eq, Raw.regs_fields, ite_self, hw.operands2 hr, hdiv, h5,
      hf, hn, Raw.need_eq])

theorem flagField (k : Bool) (n : BitVec 2) : let b : RegNum := 0#2 ++ bit1 k ++ n
    b.getLsbD 4 = false ∧ (b.setWidth 4).getLsbD 3 = false ∧ (b.setWidth 4).getLsbD 2 = k
      ∧ (b.setWidth 4).extractLsb' 0 2 = n ∧ b.low = true := by
  revert n; cases k <;> decide

theorem reads_mflag {k : Bool} {n : BitVec 2} (h : wfA 4 x a = true) (hop : op.toNat < 0x3C := by decide) :
    ((Raw.ofPfx 4 op x).regs a (0#2 ++ bit1 k ++ n) 0).Reads 4 Raw.mflag (.mflag x a n k) := by
  obtain ⟨hx, hr⟩ := Bool.and_eq_true_iff.1 h
  have hw := Raw.ofPfx_built hop (Pfx.plain_iff.1 hx).1
  have hb := hw.regs a (0#2 ++ bit1 k ++ n) 0
  obtain ⟨h4, h3, h2, hn, hlow⟩ := flagField k n
  have hr : regs2 x a (0#2 ++ bit1 k ++ n) = true := by simpa only [regs2, hlow, Bool.and_true] using hr
  exact hb.reads (by
    simp only [Raw.mflag, hb.plain _ hx rfl rfl, hb.pfx, Raw.noC_eq, Raw.noB4_eq, Raw.regs_fields, ite_self, h4, h3, h2, hn,
      Bool.and_false, Bool.not_false, Raw.need_eq, hw.operands2 hr])

theorem reads_mrq {q : BitVec 2} {k : BitVec 3} (h : (wfA 4 x a && (x.r || decide (k.toNat < 4))) = true)
    (hop : op.toNat < 0x3C := by decide) :
    ((Raw.ofPfx 4 op x).regs a (k ++ q) 0).Reads 4 Raw.mrq (.mrq x a q k) := by
  simp only [wfA, Bool.and_eq_true] at h
  obtain ⟨⟨hx, ha⟩, h4⟩ := h
  have hw := Raw.ofPfx_built hop (Pfx.plain_iff.1 hx).1
  have hb := hw.regs a (k ++ q) 0
  obtain ⟨-, hk, hq, hlow⟩ := drainField k q
  have hr : regs2 x a (k ++ q) = true := by
    simp only [Bool.or_eq_true, decide_eq_true_eq] at ha h4
    exact regs2_iff.2 (ha.elim .inl fun ha => h4.imp_right fun h4 => ⟨ha, hlow h4⟩)
  exact hb.reads (by
    simp only [Raw.mrq, hb.plain _ hx rfl rfl, hb.pfx, Raw.noC_eq, Raw.regs_fields, ite_self, hw.operands2 hr, hk, hq])

theorem reads_flumw (h : (x.vec 4 && x.r) = true) (hop : op.toNat < 0x3C := by decide) :
    ((Raw.ofPfx 4 op x).regs a b c).Reads 4 Raw.flumw (.flumw x a b c) := by
  obtain ⟨hx, hr⟩ := Bool.and_eq_true_iff.1 h
  have hw := Raw.ofPfx_built hop (Pfx.vec_iff.1 hx).1
  have hb := hw.regs a b c
  exact hb.reads (by
    simp only [Raw.flumw, hb.withR _ hr, hb.pform _ hx rfl, hb.pfx, Raw.noTy_eq, Raw.regs_fields, Raw.ofPfx_fields, hr,
      if_true, hw.operands2 (regs2_iff.2 (.inl hr))])

/-! ## Pages 5 and 7 (R246, R403) -/

theorem reads_retire (h : wfBare 5 x = true) (hop : op.toNat < 0x3C := by decide) :
    (Raw.ofPfx 5 op x).Reads 5 Raw.retire (.retire x) := by
  have hb := Raw.ofPfx_built hop (Pfx.plain_iff.1 h).1
  exact hb.reads (by
    simp only [Raw.retire, hb.plain _ h rfl rfl, hb.pfx, Raw.noC_eq, Raw.noB4_eq, Raw.noA_eq, Raw.ofPfx_fields,
      beq_self_eq_true, if_true])

theorem reads_retireValue (h : wfA 5 x a = true) (hop : op.toNat < 0x3C := by decide) :
    ((Raw.ofPfx 5 op x).regs a 1 0).Reads 5 Raw.retire (.retireValue x a) := by
  obtain ⟨hx, hr⟩ := Bool.and_eq_true_iff.1 h
  have hw := Raw.ofPfx_built hop (Pfx.plain_iff.1 hx).1
  have hb := hw.regs a 1 0
  have hr : regs2 x a 1 = true := by simpa only [regs2, show RegNum.low 1 = true from rfl, Bool.and_true] using hr
  have h4 : (1 : RegNum).getLsbD 4 = false := rfl
  refine hb.reads ?_
  simp only [Raw.retire, hb.plain _ hx rfl rfl, hb.pfx, Raw.noC_eq, Raw.noB4_eq, Raw.regs_fields, ite_self, h4,
    Bool.and_false, hw.operands2 hr]
  rfl

theorem reads_aes {last : Bool} {mk : Pfx → Bool → RegNum → RegNum → Instr} (h : wfRR' 7 x = true)
    (hop : op.toNat < 0x3C := by decide) :
    ((Raw.ofPfx 7 op x).regs a b (if last then 1 else 0)).Reads 7 (fun w => w.aes mk) (mk x last a b) := by
  obtain ⟨hx, hr⟩ := Bool.and_eq_true_iff.1 h
  have hw := Raw.ofPfx_built hop (Pfx.plain_iff.1 hx).1
  have hb := hw.regs a b (if last then 1 else 0)
  have hlast : (if last then 1 else 0 : RegNum).extractLsb' 1 4 = 0 ∧ (if last then 1 else 0 : RegNum).getLsbD 0 = last := by
    cases last <;> decide
  exact hb.reads (by
    simp only [Raw.aes, hb.withR _ hr, hb.plain _ hx rfl rfl, hb.pfx, Raw.regs_fields, Raw.ofPfx_fields, hr, if_true,
      hlast, beq_self_eq_true, Raw.need_eq, hw.operands2 (regs2_iff.2 (.inl hr))])

theorem reads_aesk {rc : BitVec 3} (h : (wfRR' 7 x && rc != 0) = true) (hop : op.toNat < 0x3C := by decide) :
    ((Raw.ofPfx 7 op x).regs a b (rc.setWidth 5)).Reads 7 Raw.aesk (.aesk x rc a b) := by
  simp only [wfRR', Bool.and_eq_true] at h
  obtain ⟨⟨hx, hr⟩, hrc⟩ := h
  have hc : (decide (1 ≤ (rc.setWidth 5 : RegNum).toNat) && decide ((rc.setWidth 5 : RegNum).toNat ≤ 7)) = true
      ∧ (rc.setWidth 5 : RegNum).setWidth 3 = rc := by
    revert rc; decide
  have hw := Raw.ofPfx_built hop (Pfx.plain_iff.1 hx).1
  have hb := hw.regs a b (rc.setWidth 5)
  exact hb.reads (by
    simp only [Raw.aesk, hb.withR _ hr, hb.plain _ hx rfl rfl, hb.pfx, Raw.regs_fields, Raw.ofPfx_fields, hr, if_true,
      hc, Raw.need_eq, hw.operands2 (regs2_iff.2 (.inl hr))])

end

/-- The opcode map of a page (R40 to R47). -/
def Raw.onPage (pg : BitVec 3) (w : Raw) : Except DecErr Instr :=
  match pg with
  | 0 => w.page0 | 1 => w.page1 | 2 => w.page2 | 3 => w.page3
  | 4 => w.page4 | 5 => w.page5 | 6 => w.page6 | _ => w.page7

theorem Raw.decode_eq_onPage (w : Raw) : w.decode = Raw.onPage w.page w := rfl

theorem Raw.Reads.decode_parcels {w : Raw} {pg : BitVec 3} {form : Raw → Except DecErr Instr} {i : Instr}
    (h : w.Reads pg form i) (hf : Raw.onPage pg w = form w) (rest : List Parcel) :
    Sys2Proof.decode (w.parcels ++ rest) = .ok i := by
  rw [Sys2Proof.decode, h.encodable.scan_parcels]
  exact (congrArg (Raw.onPage · w) h.page).trans (hf.trans h.reads)

end Sys2Proof
end

section
/-! SUPPORT. O36: every form put together. -/

namespace Sys2Proof

/-- R22 to R48: an instruction that is well formed is decoded from its parcels, one form at a time. -/
theorem Instr.decode_encode {i : Instr} (h : i.WellFormed = true) (rest : List Parcel) :
    decode (encode i ++ rest) = .ok i := by
  cases i with
  | add | sub | and | or | xor | shl | shr | sar | min | max | minz | maxz | slt | sltz | seq | mul | mulh
  | mulhz | div | divz | rem | remz | bext | bins | rotl | rotr | sel | kinc | kbnd | kprm | kcol | ktst | kuns
  | kcur | srnd | freeze | mount | clbl | crd | revive | gfmul | clmul =>
    exact Raw.Reads.decode_parcels (reads_rr h) rfl rest
  | mov | clz | ctz | popc | brev | bswp | kseal | kclr | stg | ldg | cpyw | cpyq | flume | arrive | barq
  | gauge | latq | launch | signal | waitc | kill | tsync | dbgb =>
    exact Raw.Reads.decode_parcels (reads_un h) rfl rest
  | addi | andi | ori | xori | slti | kinci | csrw | csrs | csrc =>
    exact Raw.Reads.decode_parcels (reads_ri h) rfl rest
  | shli | shri | sari => exact Raw.Reads.decode_parcels (reads_sh h) rfl rest
  | li | loop | csrr => exact Raw.Reads.decode_parcels (reads_li h) rfl rest
  | lea | beq | bne | blt | bge | blo | bhs => exact Raw.Reads.decode_parcels (reads_bc h) rfl rest
  | br | call => exact Raw.Reads.decode_parcels (reads_bi h) rfl rest
  | callr | jmpr | tnow | mfmt | mrst | twait | keccak => exact Raw.Reads.decode_parcels (reads_ra h) rfl rest
  | ld | ldz | st => exact Raw.Reads.decode_parcels (reads_ms h) rfl rest
  | ldk | stk => exact Raw.Reads.decode_parcels (reads_memK h) rfl rest
  | ldx | stx => exact Raw.Reads.decode_parcels (reads_mx h) rfl rest
  | aadd | aand | aor | axor | amin | amax | aswp | acas => exact Raw.Reads.decode_parcels (reads_ma h) rfl rest
  | stat | ldnb => exact Raw.Reads.decode_parcels (reads_mt h) rfl rest
  | pushs | pops => exact Raw.Reads.decode_parcels (reads_pp h) rfl rest
  | trap => exact Raw.Reads.decode_parcels (reads_tr h) rfl rest
  | rdid | exq => exact Raw.Reads.decode_parcels (reads_selA h) rfl rest
  | fence => exact Raw.Reads.decode_parcels (reads_fence h) rfl rest
  | fenceI => exact Raw.Reads.decode_parcels (reads_fenceI h) rfl rest
  | kget => exact Raw.Reads.decode_parcels (reads_kg h) rfl rest
  | fadd | fsub | fmul | ffma | fdiv | fmin | fmax | feq | flt | fle =>
    exact Raw.Reads.decode_parcels (reads_fr h) rfl rest
  | fsqrt => exact Raw.Reads.decode_parcels (reads_fu h) rfl rest
  | fcvti => exact Raw.Reads.decode_parcels (reads_fcvti h) rfl rest
  | fcvtf => exact Raw.Reads.decode_parcels (reads_fcvtf h) rfl rest
  | fcvtw => exact Raw.Reads.decode_parcels (reads_fcvtw h) rfl rest
  | vadd | vsub | vmul | vfma | vfms | vfnma | vmin | vmax => exact Raw.Reads.decode_parcels (reads_vv h) rfl rest
  | vabs | vneg | vmov | vbc | vscan => exact Raw.Reads.decode_parcels (reads_vu h) rfl rest
  | vdiv => exact Raw.Reads.decode_parcels (reads_vvf h) rfl rest
  | vsqrt | vrcp | vrsq | vexp2 | vlog2 => exact Raw.Reads.decode_parcels (reads_vuf h) rfl rest
  | vand | vor | vxor | vshl | vshr | vsar => exact Raw.Reads.decode_parcels (reads_vvi h) rfl rest
  | vnot => exact Raw.Reads.decode_parcels (reads_vui h) rfl rest
  | vceq | vclt | vcle => exact Raw.Reads.decode_parcels (reads_vc h) rfl rest
  | vsel => exact Raw.Reads.decode_parcels (reads_vsel h) rfl rest
  | vcvt => exact Raw.Reads.decode_parcels (reads_vcvt h) rfl rest
  | vsatn => exact Raw.Reads.decode_parcels (reads_vsatn h) rfl rest
  | vrand => exact Raw.Reads.decode_parcels (reads_vrand h) rfl rest
  | vradd | vrmin | vrmax => exact Raw.Reads.decode_parcels (reads_vum h) rfl rest
  | vaddi | vmuli => exact Raw.Reads.decode_parcels (reads_vi h) rfl rest
  | vdot4 => exact Raw.Reads.decode_parcels (reads_vdot4 h) rfl rest
  | pand | por | pxor => exact Raw.Reads.decode_parcels (reads_pl h) rfl rest
  | pnot | pmov => exact Raw.Reads.decode_parcels (reads_pn h) rfl rest
  | pset => exact Raw.Reads.decode_parcels (reads_ps h) rfl rest
  | pcnt | pfst => exact Raw.Reads.decode_parcels (reads_pq h) rfl rest
  | vld | vst => exact Raw.Reads.decode_parcels (reads_vm h) rfl rest
  | vlds | vsts | vstat | vldnb => exact Raw.Reads.decode_parcels (reads_vmc h) rfl rest
  | vgth | vsct | vldx | vstx => exact Raw.Reads.decode_parcels (reads_vxc h) rfl rest
  | vperm | vzip | vuzp | vrot | vslid | vtrn => exact Raw.Reads.decode_parcels (reads_pv h) rfl rest
  | vext | vins => exact Raw.Reads.decode_parcels (reads_pvm h) rfl rest
  | vcmpr | vexpn => exact Raw.Reads.decode_parcels (reads_ce h) rfl rest
  | vqnt => exact Raw.Reads.decode_parcels (reads_qfm h) rfl rest
  | vdeq => exact Raw.Reads.decode_parcels (reads_qf h) rfl rest
  | vsprs => exact Raw.Reads.decode_parcels (reads_vsprs h) rfl rest
  | mring => exact Raw.Reads.decode_parcels (reads_mring h) rfl rest
  | mprod => exact Raw.Reads.decode_parcels (reads_mprod h) rfl rest
  | mma => exact Raw.Reads.decode_parcels (reads_mma h) rfl rest
  | mmas => exact Raw.Reads.decode_parcels (reads_mmas h) rfl rest
  | mzero => exact Raw.Reads.decode_parcels (reads_mzero h) rfl rest
  | mdrain => exact Raw.Reads.decode_parcels (reads_mdrain h) rfl rest
  | mflag => exact Raw.Reads.decode_parcels (reads_mflag h) rfl rest
  | mwait => exact Raw.Reads.decode_parcels (reads_none h) rfl rest
  | mrq => exact Raw.Reads.decode_parcels (reads_mrq h) rfl rest
  | cpy | xgth | xred | xcvt => exact Raw.Reads.decode_parcels (reads_cpy h) rfl rest
  | flumw => exact Raw.Reads.decode_parcels (reads_flumw h) rfl rest
  | waitb | umnt => exact Raw.Reads.decode_parcels (reads_rb h) rfl rest
  | tdead => exact Raw.Reads.decode_parcels (reads_tdead h) rfl rest
  | retire => exact Raw.Reads.decode_parcels (reads_retire h) rfl rest
  | retireValue => exact Raw.Reads.decode_parcels (reads_retireValue h) rfl rest
  | yield | eret | wfi | halt => exact Raw.Reads.decode_parcels (reads_bare h) rfl rest
  | trinv | jrnl | ownr | smpc => exact Raw.Reads.decode_parcels (reads_rrr h) rfl rest
  | aese | aesd => exact Raw.Reads.decode_parcels (reads_aes h) rfl rest
  | aesk => exact Raw.Reads.decode_parcels (reads_aesk h) rfl rest
  | _ => exact absurd h Bool.false_ne_true

/-- Settles O36, form by form. -/
theorem encodingsRoundTrip : Obligations.EncodingsRoundTrip := fun _ rest h => Instr.decode_encode h rest

end Sys2Proof
end

section
/-! SUPPORT. What the decoder gathers, and the checks of its forms: each answers a well-formed instruction (R38, R39). -/

namespace Sys2Proof

/-! ## What is gathered from a chain -/

/-- R24 to R28: what a prefix that joins the chain does to its fields. -/
theorem Raw.push_cases {w w' : Raw} {q : Parcel} (h : w.push q = .ok w') :
    (q.op = 0x3C ∧ ∃ xs, w' = { w with nx := w.nx + 1, xs })
    ∨ (q.op = 0x3D ∧ w.r = false ∧ ∃ a4 b4 c ty, w' = { w with r := true, a4, b4, c, ty })
    ∨ (q.op = 0x3E ∧ w.p = false ∧ ∃ page pred neg pm, w' = { w with p := true, page, pred, neg, pm })
    ∨ (q.op ≠ 0x3C ∧ q.op ≠ 0x3D ∧ q.op ≠ 0x3E ∧ w.mm = false
      ∧ ∃ ord scope timed hint res, w' = { w with mm := true, ord, scope, timed, hint, res }) := by
  unfold Raw.push at h
  simp only [beq_iff_eq] at h
  split_ifs at h with hx hR hr hP hp hm <;> cases h
  · exact .inl ⟨hx, _, rfl⟩
  · exact .inr (.inl ⟨hR, eq_false_of_ne_true hr, _, _, _, _, rfl⟩)
  · exact .inr (.inr (.inl ⟨hP, eq_false_of_ne_true hp, _, _, _, _, rfl⟩))
  · exact .inr (.inr (.inr ⟨hx, hR, hP, eq_false_of_ne_true hm, _, _, _, _, _, rfl⟩))

/-- A prefix that joins the chain is one more, and a fourth at most. -/
theorem Raw.Gathered.push {w w' : Raw} {q : Parcel} (hw : w.Gathered) (hlt : w.prefixes < 4) (h : w.push q = .ok w') :
    w'.Gathered ∧ w'.prefixes = w.prefixes + 1 := by
  obtain ⟨-, hr, hp, hm⟩ := hw
  unfold Raw.prefixes at hlt
  suffices hn : w'.prefixes = w.prefixes + 1 by
    refine ⟨⟨by rw [hn, Raw.prefixes]; omega, ?_, ?_, ?_⟩, hn⟩ <;>
      obtain ⟨-, xs, rfl⟩ | ⟨-, -, a4, b4, c, ty, rfl⟩ | ⟨-, -, page, pred, neg, pm, rfl⟩
        | ⟨-, -, -, -, ord, scope, timed, hint, res, rfl⟩ := Raw.push_cases h <;> simp_all
  unfold Raw.prefixes
  obtain ⟨-, xs, rfl⟩ | ⟨-, h0, a4, b4, c, ty, rfl⟩ | ⟨-, h0, page, pred, neg, pm, rfl⟩
    | ⟨-, -, -, h0, ord, scope, timed, hint, res, rfl⟩ := Raw.push_cases h
  · have hnx : (w.nx + 1).toNat = w.nx.toNat + 1 := by
      rw [BitVec.toNat_add, show (1 : BitVec 3).toNat = 1 from rfl, Nat.mod_eq_of_lt (by omega)]
    dsimp only
    omega
  all_goals simp +arith only [h0, Bool.toNat_true, Bool.toNat_false]

theorem scan_gathered : ∀ {f : Nat} {w w' : Raw} {qs : List Parcel}, w.Gathered → f + w.prefixes = 4 →
    scan f w qs = .ok w' → w'.Gathered
  | _, _, _, [], _, _, h => by simp [scan] at h
  | 0, w, w', q :: qs, hw, _, h => by
    rw [scan] at h
    split at h
    · cases h
    · cases h; exact ⟨hw.short, hw.noR, hw.noP, hw.noM⟩
  | f + 1, w, w', q :: qs, hw, hf, h => by
    rw [scan] at h
    split at h
    · cases hpush : w.push q with
      | error e => simp [hpush] at h
      | ok v =>
        simp only [hpush] at h
        obtain ⟨hv, hn⟩ := hw.push (by omega) hpush
        exact scan_gathered hv (by omega) h
    · cases h; exact ⟨hw.short, hw.noR, hw.noP, hw.noM⟩

theorem Raw.empty_gathered : Raw.empty.Gathered :=
  ⟨by decide, fun _ => ⟨rfl, rfl, rfl, rfl⟩, fun _ => ⟨rfl, rfl, rfl, rfl⟩, fun _ => ⟨rfl, rfl, rfl, rfl, rfl⟩⟩

/-! ## Chains that raise PFXC (R28) -/

theorem Raw.push_error {w : Raw} {q : Parcel} {e : DecErr} (h : w.push q = .error e) : e = .pfxc := by
  unfold Raw.push at h
  split_ifs at h <;> cases h <;> rfl

/-- A fifth prefix. -/
theorem scan_five : ∀ {f : Nat} {w : Raw} {qs : List Parcel}, f < qs.length → (∀ q ∈ qs.take (f + 1), q.isPrefix = true) →
    scan f w qs = .error .pfxc
  | 0, w, q :: qs, _, h => by rw [scan, if_pos (h q (by simp))]
  | f + 1, w, q :: qs, hlen, h => by
    rw [scan, if_pos (h q (by simp))]
    cases hpush : w.push q with
    | error e => rw [Raw.push_error hpush]
    | ok v =>
      refine scan_five (by simpa using hlen) fun p hp => h p ?_
      rw [List.take_succ_cons]
      exact List.mem_cons_of_mem _ hp

/-- The chain holds the prefix of that OP, of those that may stand once. -/
def Raw.has (w : Raw) (op : BitVec 6) : Bool := if op = 0x3D then w.r else if op = 0x3E then w.p else w.mm

theorem Raw.push_again {w : Raw} {q : Parcel} (hop : 0x3D ≤ q.op.toNat) (h : w.has q.op = true) :
    w.push q = .error .pfxc := by
  have hx : ¬q.op = 0x3C := fun h => by rw [h] at hop; exact absurd hop (by decide)
  unfold Raw.has at h
  unfold Raw.push
  simp only [beq_iff_eq, if_neg hx]
  split_ifs at h ⊢ <;> rfl

theorem Raw.has_push {w w' : Raw} {q : Parcel} (hq : q.isPrefix = true) (h : w.push q = .ok w') {op : BitVec 6}
    (hop : 0x3D ≤ op.toNat) : w'.has op = (w.has op || decide (q.op = op)) := by
  have hop : op = 0x3D ∨ op = 0x3E ∨ op = 0x3F := by bv_omega
  have hq : 0x3C ≤ q.op.toNat := by simpa [Parcel.isPrefix] using hq
  obtain ⟨h0, xs, rfl⟩ | ⟨h0, hw, a4, b4, c, ty, rfl⟩ | ⟨h0, hw, page, pred, neg, pm, rfl⟩
    | ⟨hx, hR, hP, hw, ord, scope, timed, hint, res, rfl⟩ := Raw.push_cases h
  case inr.inr.inr =>
    have h0 : q.op = 0x3F := by bv_omega
    rcases hop with rfl | rfl | rfl <;> simp [Raw.has, h0]
  all_goals rcases hop with rfl | rfl | rfl <;> simp [Raw.has, h0]

/-- PFX.R, PFX.P or PFX.M again. -/
theorem scan_again {op : BitVec 6} (hop : 0x3D ≤ op.toNat) (rest : List Parcel) : ∀ {ps : List Parcel} {f : Nat} {w : Raw},
    ps.length ≤ f → (∀ q ∈ ps, q.isPrefix = true) → 2 ≤ (w.has op).toNat + (ps.filter fun q => q.op = op).length →
    scan f w (ps ++ rest) = .error .pfxc
  | [], _, w, _, _, h => by
    have := Bool.toNat_le (w.has op)
    simp only [List.filter_nil, List.length_nil] at h
    omega
  | q :: ps, 0, _, hlen, _, _ => by simp at hlen
  | q :: ps, f + 1, w, hlen, hq, h => by
    rw [List.cons_append, scan, if_pos (hq q (by simp))]
    cases hpush : w.push q with
    | error e => rw [Raw.push_error hpush]
    | ok v =>
      refine scan_again hop rest (by simpa using hlen) (fun p hp => hq p (List.mem_cons_of_mem _ hp)) ?_
      have hv := Raw.has_push (hq q (by simp)) hpush hop
      rw [List.filter_cons] at h
      by_cases hqo : q.op = op
      · have hw : w.has op = false := by
          rw [← hqo] at hop ⊢
          exact eq_false_of_ne_true fun hw => by simp [Raw.push_again hop hw] at hpush
        simp [hv, hqo, hw] at h ⊢
        omega
      · simpa [hv, hqo] using h

/-! ## Operands, types and immediates of gathered fields -/

theorem immFits_signExtend {n : Nat} (v : BitVec n) (h : n ≤ 64) : immFits n (v.signExtend 64) = true := by
  have hv : (v.signExtend 64).setWidth n = v := by
    ext i hi
    simp [BitVec.getElem_signExtend, hi, show i < 64 by omega]
  rw [immFits, hv, beq_self_eq_true]

section
variable {w : Raw} (hw : w.Gathered)
include hw

theorem Raw.Gathered.low_or (h : w.r = false) : w.ra5.low = true ∧ w.rb5.low = true := by
  obtain ⟨ha, hb, -, -⟩ := hw.noR h
  rw [Raw.ra5, Raw.rb5, ha, hb]
  generalize w.a = a
  generalize w.b = b
  revert a b; decide

theorem Raw.Gathered.regs3 : Sys2Proof.regs3 w.pfx w.ra5 w.rb5 w.rc5 = true := by
  refine regs3_iff.2 ?_
  cases hr : w.r with
  | true => exact .inl hr
  | false =>
    obtain ⟨ha, hb⟩ := hw.low_or hr
    exact .inr ⟨ha, hb, if_neg (by simp [hr])⟩

theorem Raw.Gathered.regs2 : Sys2Proof.regs2 w.pfx w.ra5 w.rb5 = true :=
  regs2_iff.2 ((regs3_iff.1 hw.regs3).imp_right fun h => ⟨h.1, h.2.1⟩)

theorem Raw.Gathered.nx_le : w.nx.toNat ≤ 4 := by
  have := hw.short
  unfold Raw.prefixes at this
  omega

theorem Raw.Gathered.immI6 : immFits w.pfx.i6 w.immI6 = true :=
  immFits_signExtend _ (show 6 + 10 * w.nx.toNat ≤ 64 by have := hw.nx_le; omega)
theorem Raw.Gathered.immI2 : immFits w.pfx.i2 w.immI2 = true :=
  immFits_signExtend _ (show 2 + 10 * w.nx.toNat ≤ 64 by have := hw.nx_le; omega)
theorem Raw.Gathered.immI0 : immFits w.pfx.i0 w.immI0 = true :=
  immFits_signExtend _ (show 10 * w.nx.toNat ≤ 64 by have := hw.nx_le; omega)

theorem Raw.Gathered.ty (h : w.r = false) : w.ty = 0 := (hw.noR h).2.2.2

end

/-! ## Checks: what they have established when the decoder goes on -/

/-- Whatever is answered is well formed. -/
def Raw.Sound (r : Except DecErr Instr) : Prop := ∀ i, r = .ok i → i.WellFormed = true

theorem Raw.sound_ok {i : Instr} (h : i.WellFormed = true) : Raw.Sound (.ok i) := fun j hj => by
  cases hj; exact h
theorem Raw.sound_error (e : DecErr) : Raw.Sound (.error e) := fun _ h => by cases h

theorem Raw.sound_need {b : Bool} {e : DecErr} {k : Except DecErr Instr} (h : b = true → Raw.Sound k) :
    Raw.Sound (Raw.need b e k) := by
  unfold Raw.need
  split
  · next hb => exact h hb
  · exact Raw.sound_error e

section
variable {w : Raw} {k : Except DecErr Instr}

theorem Raw.sound_noX (h : w.pfx.nx = 0 → Raw.Sound k) : Raw.Sound (w.noX k) := Raw.sound_need fun hb => h (eq_of_beq hb)
theorem Raw.sound_noM (h : w.pfx.m = false → Raw.Sound k) : Raw.Sound (w.noM k) :=
  Raw.sound_need fun hb => h (show w.mm = false by simpa using hb)
theorem Raw.sound_noR (h : w.pfx.r = false → Raw.Sound k) : Raw.Sound (w.noR k) :=
  Raw.sound_need fun hb => h (show w.r = false by simpa using hb)
theorem Raw.sound_withR (h : w.pfx.r = true → Raw.Sound k) : Raw.Sound (w.withR k) := Raw.sound_need h
theorem Raw.sound_noTy (h : Raw.Sound k) : Raw.Sound (w.noTy k) := Raw.sound_need fun _ => h
theorem Raw.sound_noMf (h : Raw.Sound k) : Raw.Sound (w.noMf k) := Raw.sound_need fun _ => h
theorem Raw.sound_noC (h : w.c = 0 → Raw.Sound k) : Raw.Sound (w.noC k) := Raw.sound_need fun hb => h (eq_of_beq hb)
theorem Raw.sound_noA (h : Raw.Sound k) : Raw.Sound (w.noA k) := Raw.sound_need fun _ => h
theorem Raw.sound_noB (h : Raw.Sound k) : Raw.Sound (w.noB k) := Raw.sound_need fun _ => h
theorem Raw.sound_noA4 (h : w.a4 = false → Raw.Sound k) : Raw.Sound (w.noA4 k) :=
  Raw.sound_need fun hb => h (by simpa using hb)
theorem Raw.sound_noB4 (h : w.b4 = false → Raw.Sound k) : Raw.Sound (w.noB4 k) :=
  Raw.sound_need fun hb => h (by simpa using hb)
theorem Raw.sound_ordered {g : OrdGroup} (h : w.ordering.ok g w.pfx = true → Raw.Sound k) : Raw.Sound (w.ordered g k) :=
  Raw.sound_need fun hb => h (Bool.and_eq_true_iff.1 hb).2

end

section
variable {w : Raw} (hw : w.Gathered) {k : Except DecErr Instr}
include hw

/-- R26, R36: the predicate of a chain that has passed its check. -/
theorem Raw.Gathered.ok_page (h : (w.pred == 0 && w.neg) = false) : w.pfx.ok w.page = true := by
  refine Pfx.ok_iff.2 ⟨hw.short, fun hp => ?_, fun hp => ?_⟩
  · obtain ⟨hpg, hpred, hneg, hpm⟩ := hw.noP hp
    exact ⟨hpg, hpred, hneg, by rw [Raw.pfx, hpm]; rfl⟩
  · have hp : w.pred = 0 := hp
    show w.neg = false
    simpa [hp] using h

theorem Raw.Gathered.scalar (h : w.pfx.ok w.page = true → w.pfx.zero = false → Raw.Sound k) : Raw.Sound (w.scalar k) := by
  refine Raw.sound_need fun hb => ?_
  simp only [Bool.and_eq_true, Bool.not_eq_true', beq_iff_eq] at hb
  exact h (hw.ok_page hb.2) (by rw [Raw.pfx, hb.1]; rfl)

theorem Raw.Gathered.vec (h : w.pfx.ok w.page = true → Raw.Sound k) : Raw.Sound (w.vec k) := by
  refine Raw.sound_need fun hb => ?_
  simp only [Bool.and_eq_true, Bool.not_eq_true'] at hb
  exact h (hw.ok_page hb.2)

theorem Raw.Gathered.plain (h : w.pfx.plain w.page = true → Raw.Sound k) : Raw.Sound (w.plain k) :=
  Raw.sound_noX fun hnx => Raw.sound_noM fun hm => hw.scalar fun hok hz => Raw.sound_noTy (Raw.sound_noMf
    (h (Pfx.plain_iff.2 ⟨hok, hnx, hm, hz⟩)))

theorem Raw.Gathered.typed (h : w.pfx.plain w.page = true → Raw.Sound k) : Raw.Sound (w.typed k) :=
  Raw.sound_noX fun hnx => Raw.sound_noM fun hm => hw.scalar fun hok hz => Raw.sound_noMf
    (h (Pfx.plain_iff.2 ⟨hok, hnx, hm, hz⟩))

theorem Raw.Gathered.vform (h : w.pfx.vec w.page = true → Raw.Sound k) : Raw.Sound (w.vform k) :=
  Raw.sound_noX fun hnx => Raw.sound_noM fun hm => hw.vec fun hok => h (Pfx.vec_iff.2 ⟨hok, hnx, hm⟩)

theorem Raw.Gathered.pform (h : w.pfx.vec w.page = true → Raw.Sound k) : Raw.Sound (w.pform k) :=
  Raw.sound_noX fun hnx => Raw.sound_noM fun hm => hw.vec fun hok => Raw.sound_noMf (h (Pfx.vec_iff.2 ⟨hok, hnx, hm⟩))

end

theorem FTy.code_of_ofCode {ty : BitVec 3} {t : FTy} (h : FTy.ofCode ty = some t) : ty = t.code := by
  revert h; revert ty t; decide
theorem ITy.code_ofCode (ty : BitVec 3) : (ITy.ofCode ty).code = ty := by revert ty; decide

end Sys2Proof
end

section
/-! SUPPORT. O37: each form of the decoder answers a well-formed instruction alone, and so does each page (R38, R39). -/

namespace Sys2Proof

/-! ## Types and register fields of gathered fields -/

theorem ETy.code_of_ofCode {cls : BitVec 2} {ty : BitVec 3} {t : ETy} (h : ETy.ofCode cls ty = some t) :
    cls = t.cls ∧ ty = t.code := by
  unfold ETy.ofCode at h
  split_ifs at h with h0 h1
  · obtain ⟨f, hf, rfl⟩ := Option.map_eq_some_iff.1 h
    exact ⟨eq_of_beq h0, FTy.code_of_ofCode hf⟩
  · obtain rfl := Option.some.inj h
    exact ⟨eq_of_beq h1, (ITy.code_ofCode ty).symm⟩

theorem Raw.ra5_of_a4 {w : Raw} (h : w.a4 = false) : w.ra5 = w.a.setWidth 5 := by
  rw [Raw.ra5, h]
  generalize w.a = a
  revert a; decide

section
variable {w : Raw} (hw : w.Gathered)
include hw

theorem Raw.Gathered.s32_or : (w.pfx.r || ITy.ofCode w.ty == .s32) = true := by
  cases hr : w.r with
  | true => rw [show w.pfx.r = true from hr]; rfl
  | false => rw [hw.ty hr]; exact Bool.or_true _

theorem Raw.Gathered.ety {k : ETy → Except DecErr Instr}
    (h : ∀ t, w.ty = t.code → t.vec = true → tyNoR w.pfx t = true → Raw.Sound (k t)) : Raw.Sound (w.ety k) := by
  unfold Raw.ety
  split
  · next t ht =>
    obtain ⟨-, hty⟩ := ETy.code_of_ofCode ht
    refine Raw.sound_need fun hv => h t hty hv ?_
    cases hr : w.r with
    | true => exact tyNoR_of_r hr
    | false =>
      have h0 : t.code = 0 := hty.symm.trans (hw.ty hr)
      have hcode : ∀ t : ETy, t.code = 0 → (t == .fp .f32 || t == .int .s32) = true := by
        intro t
        cases t with
        | fp t => cases t <;> decide
        | int t => cases t <;> decide
      rw [tyNoR, Bool.or_assoc, hcode t h0, Bool.or_true]
  · exact Raw.sound_error _

theorem Raw.Gathered.arith {k : FTy → Except DecErr Instr}
    (h : ∀ t, t.arith = true → (w.pfx.r || t == .f32) = true → Raw.Sound (k t)) : Raw.Sound (w.arith k) := by
  unfold Raw.arith Raw.fty
  split
  · next t ht =>
    refine Raw.sound_need fun ha => h t ha ?_
    cases hr : w.r with
    | true => rw [show w.pfx.r = true from hr]; rfl
    | false =>
      rw [hw.ty hr] at ht
      cases ht
      exact Bool.or_true _
  · exact Raw.sound_error _

end

theorem Raw.sound_fty {ty : BitVec 3} {k : FTy → Except DecErr Instr} (h : ∀ t, Raw.Sound (k t)) :
    Raw.Sound (Raw.fty ty k) := by
  unfold Raw.fty
  split
  · exact h _
  · exact Raw.sound_error _


theorem Raw.Gathered.low_ra5 {w : Raw} (hw : w.Gathered) : (w.pfx.r || w.ra5.low) = true :=
  Bool.or_eq_true_iff.2 ((regs2_iff.1 hw.regs2).imp_right fun h => h.1)
theorem Raw.Gathered.low_rb5 {w : Raw} (hw : w.Gathered) : (w.pfx.r || w.rb5.low) = true :=
  Bool.or_eq_true_iff.2 ((regs2_iff.1 hw.regs2).imp_right fun h => h.2)
theorem Raw.Gathered.rc5_or {w : Raw} (hw : w.Gathered) : (w.pfx.r || (w.ra5.low && w.rc5 == w.ra5)) = true := by
  simp only [Bool.or_eq_true, Bool.and_eq_true, beq_iff_eq]
  exact (regs3_iff.1 hw.regs3).imp_right fun h => ⟨h.1, h.2.2⟩

/-! ## Scalar forms -/

section
variable {w : Raw} {pg : BitVec 3} (hw : w.Gathered) (hp : w.page = pg)
include hw hp

theorem Raw.Gathered.rr {mk : Pfx → RegNum → RegNum → RegNum → Instr}
    (hmk : ∀ x a b c, (mk x a b c).WellFormed = wfRR pg x a b c) : Raw.Sound (w.rr mk) := by
  subst hp
  exact hw.plain fun hx => Raw.sound_ok (by rw [hmk, wfRR, hx, hw.regs3]; rfl)

theorem Raw.Gathered.rrr {mk : Pfx → RegNum → RegNum → RegNum → Instr}
    (hmk : ∀ x a b c, (mk x a b c).WellFormed = wfRR' pg x) : Raw.Sound (w.rrr mk) := by
  subst hp
  exact Raw.sound_withR fun hr => hw.plain fun hx => Raw.sound_ok (by rw [hmk, wfRR', hx, hr]; rfl)

theorem Raw.Gathered.un {mk : Pfx → RegNum → RegNum → Instr}
    (hmk : ∀ x a b, (mk x a b).WellFormed = wfUN pg x a b) : Raw.Sound (w.un mk) := by
  subst hp
  exact hw.plain fun hx => Raw.sound_noC fun _ => Raw.sound_ok (by rw [hmk, wfUN, hx, hw.regs2]; rfl)

theorem Raw.Gathered.ra {mk : Pfx → RegNum → Instr} (hmk : ∀ x a, (mk x a).WellFormed = wfA pg x a) :
    Raw.Sound (w.ra mk) := by
  subst hp
  exact hw.plain fun hx => Raw.sound_noC fun _ => Raw.sound_noB (Raw.sound_ok (by rw [hmk, wfA, hx, hw.low_ra5]; rfl))

theorem Raw.Gathered.rb {mk : Pfx → RegNum → Instr} (hmk : ∀ x b, (mk x b).WellFormed = wfA pg x b) :
    Raw.Sound (w.rb mk) := by
  subst hp
  exact hw.plain fun hx => Raw.sound_noC fun _ => Raw.sound_noA (Raw.sound_ok (by rw [hmk, wfA, hx, hw.low_rb5]; rfl))

theorem Raw.Gathered.none {mk : Pfx → Instr} (hmk : ∀ x, (mk x).WellFormed = wfNone pg x) : Raw.Sound (w.none mk) := by
  subst hp
  exact hw.plain fun hx => Raw.sound_noR fun hr => Raw.sound_noA (Raw.sound_noB (Raw.sound_ok
    (by rw [hmk, wfNone, hx, hr]; rfl)))

theorem Raw.Gathered.bare {mk : Pfx → Instr} (hmk : ∀ x, (mk x).WellFormed = wfBare pg x) : Raw.Sound (w.bare mk) := by
  subst hp
  exact hw.plain fun hx => Raw.sound_noC fun _ => Raw.sound_noA (Raw.sound_noB (Raw.sound_ok ((hmk _).trans hx)))

theorem Raw.Gathered.ri {mk : Pfx → RegNum → RegNum → Word → Instr}
    (hmk : ∀ x a c i, (mk x a c i).WellFormed = true ↔ wfRI pg x a c i = true) : Raw.Sound (w.ri mk) := by
  subst hp
  exact Raw.sound_noM fun hm => hw.scalar fun hx hz => Raw.sound_noTy (Raw.sound_noB4 fun _ => Raw.sound_ok
    ((hmk _ _ _ _).2 (by rw [wfRI, hx, hm, hz, hw.rc5_or, hw.immI6]; rfl)))

theorem Raw.Gathered.li {mk : Pfx → RegNum → Word → Instr} (hmk : ∀ x a i, (mk x a i).WellFormed = wfLI pg x a i) :
    Raw.Sound (w.li mk) := by
  subst hp
  exact Raw.sound_noM fun hm => hw.scalar fun hx hz => Raw.sound_noTy (Raw.sound_noB4 fun _ => Raw.sound_noC fun _ =>
    Raw.sound_ok (by rw [hmk, wfLI, hx, hm, hz, hw.low_ra5, hw.immI6]; rfl))

theorem Raw.Gathered.selA {n : Nat} {mk : Pfx → RegNum → BitVec 4 → Instr}
    (hmk : ∀ x a k, (mk x a k).WellFormed = wfSel n pg x a k) : Raw.Sound (w.selA n mk) := by
  subst hp
  exact hw.plain fun hx => Raw.sound_noC fun _ => Raw.sound_noB4 fun _ => Raw.sound_need fun hk =>
    Raw.sound_ok (by rw [hmk, wfSel, wfA, hx, hw.low_ra5, hk]; rfl)

end

section
variable {w : Raw} (hw : w.Gathered) (hp : w.page = 0)
include hw hp

/-- R79: the check of the immediate comes first. -/
theorem Raw.Gathered.sh {mk : Pfx → RegNum → RegNum → Word → Instr}
    (hmk : ∀ x a c i, (mk x a c i).WellFormed = wfShift x a c i) : Raw.Sound (w.sh mk) := by
  refine Raw.sound_need fun hi => ?_
  refine Raw.sound_noM fun hm => hw.scalar fun hx hz => Raw.sound_noTy (Raw.sound_noB4 fun _ => Raw.sound_ok ?_)
  rw [hp] at hx
  rw [hmk, wfShift, wfRI, hx, hm, hz, hw.rc5_or, hw.immI6, hi]; rfl

theorem Raw.Gathered.bc {mk : Pfx → RegNum → RegNum → Word → Instr}
    (hmk : ∀ x a b i, (mk x a b i).WellFormed = wfBC x a b i) : Raw.Sound (w.bc mk) := by
  refine Raw.sound_noM fun hm => hw.scalar fun hx hz => Raw.sound_noTy (Raw.sound_noC fun _ => Raw.sound_ok ?_)
  rw [hp] at hx
  rw [hmk, wfBC, hx, hm, hz, hw.regs2, hw.immI2]; rfl

theorem Raw.Gathered.bi {mk : Pfx → Word → Instr} (hmk : ∀ x i, (mk x i).WellFormed = wfBI x i) :
    Raw.Sound (w.bi mk) := by
  refine Raw.sound_noM fun hm => Raw.sound_noR fun hr => hw.scalar fun hx hz => Raw.sound_noA (Raw.sound_ok ?_)
  rw [hp] at hx
  rw [hmk, wfBI, hx, hm, hr, hz, hw.immI6]; rfl

theorem Raw.Gathered.ms {g : OrdGroup} {mk : Pfx → Ordering → BitVec 2 → RegNum → RegNum → Word → Instr}
    (hmk : ∀ x o n a b i, (mk x o n a b i).WellFormed = wfMS g x o a b i) : Raw.Sound (w.ms g mk) := by
  refine hw.scalar fun hx hz => Raw.sound_noTy (Raw.sound_noC fun _ => Raw.sound_ordered fun ho => Raw.sound_ok ?_)
  rw [hp] at hx
  rw [hmk, wfMS, hx, hz, hw.regs2, hw.immI0, ho]; rfl

theorem Raw.Gathered.memK {g : OrdGroup} {mk : Pfx → Ordering → RegNum → RegNum → Word → Instr}
    (hmk : ∀ x o a b i, (mk x o a b i).WellFormed = wfMK g x o a b i) : Raw.Sound (w.memK g mk) := by
  refine hw.scalar fun hx hz => Raw.sound_noTy (Raw.sound_noC fun _ => Raw.sound_ordered fun ho => Raw.sound_ok ?_)
  rw [hp] at hx
  rw [hmk, wfMK, hx, hz, hw.regs2, hw.immI2, ho]; rfl

theorem Raw.Gathered.mx {g : OrdGroup} {mk : Pfx → Ordering → BitVec 2 → RegNum → RegNum → RegNum → Word → Instr}
    (hmk : ∀ x o n a b c i, (mk x o n a b c i).WellFormed = wfMX g x o a b c i) : Raw.Sound (w.mx g mk) := by
  refine hw.scalar fun hx hz => Raw.sound_noTy (Raw.sound_ordered fun ho => Raw.sound_ok ?_)
  rw [hp] at hx
  rw [hmk, wfMX, hx, hz, hw.regs3, hw.immI0, ho]; rfl

theorem Raw.Gathered.ma {mk : Pfx → Ordering → Bool → RegNum → RegNum → RegNum → Word → Instr}
    (hmk : ∀ x o n a b c i, (mk x o n a b c i).WellFormed = wfMX .atomic x o a b c i) : Raw.Sound (w.ma mk) := by
  refine hw.scalar fun hx hz => Raw.sound_noTy (Raw.sound_need fun _ => Raw.sound_ordered fun ho => Raw.sound_ok ?_)
  rw [hp] at hx
  rw [hmk, wfMX, hx, hz, hw.regs3, hw.immI0, ho]; rfl

theorem Raw.Gathered.mt {g : OrdGroup} {mk : Pfx → Ordering → BitVec 3 → RegNum → RegNum → RegNum → Word → Instr}
    (hmk : ∀ x o n a b c i, (mk x o n a b c i).WellFormed = wfMT g x o n a b c i) : Raw.Sound (w.mt g mk) := by
  refine hw.scalar fun hx hz => Raw.sound_need fun hsize => Raw.sound_ordered fun ho => Raw.sound_ok ?_
  have hty : (w.pfx.r || w.ty == 0) = true := by
    cases hr : w.r with
    | true => rw [show w.pfx.r = true from hr]; rfl
    | false => rw [hw.ty hr]; exact Bool.or_true _
  rw [hp] at hx
  rw [hmk, wfMT, hx, hz, hw.regs3, hsize, hty, hw.immI2, ho]; rfl

theorem Raw.Gathered.pp {mk : Pfx → RegNum → RegNum → Instr} (hmk : ∀ x a b, (mk x a b).WellFormed = wfPP x a b) :
    Raw.Sound (w.pp mk) := by
  refine Raw.sound_need fun hrange => hw.plain fun hx => Raw.sound_noC fun _ => Raw.sound_ok ?_
  obtain ⟨hle, hsp⟩ := Bool.and_eq_true_iff.1 hrange
  rw [hp] at hx
  rw [hmk, wfPP, hx, hw.regs2, hle, hsp]; rfl

theorem Raw.Gathered.tr : Raw.Sound w.tr := by
  refine hw.plain fun hx => Raw.sound_noR fun hr => Raw.sound_ok ?_
  rw [hp] at hx
  show wfNone 0 w.pfx = true
  rw [wfNone, hx, hr]; rfl

theorem Raw.Gathered.fence : Raw.Sound w.fence := by
  refine Raw.sound_noX fun hnx => Raw.sound_noR fun hr => hw.scalar fun hx hz => Raw.sound_noMf (Raw.sound_noA ?_)
  rw [hp] at hx
  split
  · refine Raw.sound_need fun hm => Raw.sound_ordered fun ho => Raw.sound_ok ?_
    show (w.pfx.ok 0 && w.pfx.nx == 0 && !w.pfx.r && !w.pfx.zero && w.pfx.m && w.ordering.ok .fence w.pfx) = true
    rw [hx, hnx, hr, hz, ho, show w.pfx.m = true from hm]; rfl
  · refine Raw.sound_need fun _ => Raw.sound_noM fun hm => Raw.sound_ok ?_
    show (w.pfx.ok 0 && w.pfx.nx == 0 && !w.pfx.r && !w.pfx.zero && !w.pfx.m) = true
    rw [hx, hnx, hr, hz, hm]; rfl

end

/-! ## Page 1 -/

section
variable {w : Raw} (hw : w.Gathered) (hp : w.page = 1)
include hw hp

theorem Raw.Gathered.kg : Raw.Sound w.kg := by
  refine hw.plain fun hx => Raw.sound_noB4 fun _ => Raw.sound_need fun hk => Raw.sound_ok ?_
  rw [hp] at hx
  show (wfRR 1 w.pfx w.ra5 0 w.rc5 && decide (w.b.toNat < 9)) = true
  rw [wfRR, hx, regs3_zero, hw.rc5_or, hk]; rfl

theorem Raw.Gathered.fr {mk : Pfx → FTy → RegNum → RegNum → RegNum → Instr}
    (hmk : ∀ x t a b c, (mk x t a b c).WellFormed = wfFR x t a b c) : Raw.Sound (w.fr mk) := by
  refine hw.typed fun hx => hw.arith fun t ht hty => Raw.sound_ok ?_
  rw [hp] at hx
  rw [hmk, wfFR, hx, hw.regs3, ht, hty]; rfl

theorem Raw.Gathered.fu {mk : Pfx → FTy → RegNum → RegNum → Instr}
    (hmk : ∀ x t a b, (mk x t a b).WellFormed = wfFU x t a b) : Raw.Sound (w.fu mk) := by
  refine hw.typed fun hx => Raw.sound_noC fun _ => hw.arith fun t ht hty => Raw.sound_ok ?_
  rw [hp] at hx
  rw [hmk, wfFU, hx, hw.regs2, ht, hty]; rfl

omit hw in
/-- R116: the conversions need PFX.R. -/
theorem Raw.wfCV_of_page (hr : w.pfx.r = true) (hx : w.pfx.plain w.page = true) : wfCV w.pfx = true := by
  rw [hp] at hx
  rw [wfCV, hx, hr]; rfl

theorem Raw.Gathered.fcvti : Raw.Sound w.fcvti :=
  Raw.sound_withR fun hr => hw.typed fun hx => Raw.sound_need fun _ => Raw.sound_fty fun _ =>
    Raw.sound_ok (Raw.wfCV_of_page hp hr hx)
theorem Raw.Gathered.fcvtf : Raw.Sound w.fcvtf :=
  Raw.sound_withR fun hr => hw.typed fun hx => Raw.sound_need fun _ => Raw.sound_fty fun _ =>
    Raw.sound_ok (Raw.wfCV_of_page hp hr hx)
theorem Raw.Gathered.fcvtw : Raw.Sound w.fcvtw :=
  Raw.sound_withR fun hr => hw.typed fun hx => Raw.sound_need fun _ => Raw.sound_fty fun _ => Raw.sound_fty fun _ =>
    Raw.sound_ok (Raw.wfCV_of_page hp hr hx)

end

/-! ## Page 2 -/

section
variable {w : Raw} (hw : w.Gathered) (hp : w.page = 2)
include hw hp

theorem Raw.Gathered.vv {mk : Pfx → ETy → RegNum → RegNum → RegNum → Instr}
    (hmk : ∀ x t a b c, (mk x t a b c).WellFormed = wfVV x t a b c) : Raw.Sound (w.vv mk) := by
  refine hw.vform fun hx => hw.ety fun t _ ht hty => Raw.sound_ok ?_
  rw [hp] at hx
  rw [hmk, wfVV, hx, hw.regs3, ht, hty]; rfl

theorem Raw.Gathered.vu {mk : Pfx → ETy → RegNum → RegNum → Instr}
    (hmk : ∀ x t a b, (mk x t a b).WellFormed = wfVU x t a b) : Raw.Sound (w.vu mk) := by
  refine hw.vform fun hx => Raw.sound_noC fun _ => hw.ety fun t _ ht hty => Raw.sound_ok ?_
  rw [hp] at hx
  rw [hmk, wfVU, hx, hw.regs2, ht, hty]; rfl

theorem Raw.Gathered.vum {mk : Pfx → ETy → RegNum → RegNum → Instr}
    (hmk : ∀ x t a b, (mk x t a b).WellFormed = (wfVU x t a b && !x.zero)) : Raw.Sound (w.vum mk) := by
  refine hw.scalar fun _ hz => hw.vform fun hx => Raw.sound_noC fun _ => hw.ety fun t _ ht hty => Raw.sound_ok ?_
  rw [hp] at hx
  rw [hmk, wfVU, hx, hw.regs2, ht, hty, hz]; rfl

theorem Raw.Gathered.vvf {mk : Pfx → FTy → RegNum → RegNum → RegNum → Instr}
    (hmk : ∀ x t a b c, (mk x t a b c).WellFormed = wfVV x (.fp t) a b c) : Raw.Sound (w.vvf mk) := by
  refine hw.vform fun hx => hw.ety fun t _ ht hty => ?_
  rw [hp] at hx
  cases t with
  | fp t => exact Raw.sound_ok (by rw [hmk, wfVV, hx, hw.regs3, ht, hty]; rfl)
  | int t => exact Raw.sound_error _

theorem Raw.Gathered.vuf {mk : Pfx → FTy → RegNum → RegNum → Instr}
    (hmk : ∀ x t a b, (mk x t a b).WellFormed = wfVU x (.fp t) a b) : Raw.Sound (w.vuf mk) := by
  refine hw.vform fun hx => Raw.sound_noC fun _ => hw.ety fun t _ ht hty => ?_
  rw [hp] at hx
  cases t with
  | fp t => exact Raw.sound_ok (by rw [hmk, wfVU, hx, hw.regs2, ht, hty]; rfl)
  | int t => exact Raw.sound_error _

theorem Raw.Gathered.vvi {mk : Pfx → ITy → RegNum → RegNum → RegNum → Instr}
    (hmk : ∀ x t a b c, (mk x t a b c).WellFormed = wfVV x (.int t) a b c) : Raw.Sound (w.vvi mk) := by
  refine hw.vform fun hx => hw.ety fun t _ ht hty => ?_
  rw [hp] at hx
  cases t with
  | fp t => exact Raw.sound_error _
  | int t => exact Raw.sound_ok (by rw [hmk, wfVV, hx, hw.regs3, ht, hty]; rfl)

theorem Raw.Gathered.vui {mk : Pfx → ITy → RegNum → RegNum → Instr}
    (hmk : ∀ x t a b, (mk x t a b).WellFormed = wfVU x (.int t) a b) : Raw.Sound (w.vui mk) := by
  refine hw.vform fun hx => Raw.sound_noC fun _ => hw.ety fun t _ ht hty => ?_
  rw [hp] at hx
  cases t with
  | fp t => exact Raw.sound_error _
  | int t => exact Raw.sound_ok (by rw [hmk, wfVU, hx, hw.regs2, ht, hty]; rfl)

theorem Raw.Gathered.vsel : Raw.Sound w.vsel := by
  refine hw.scalar fun _ hz => hw.vform fun hx => hw.ety fun t _ ht hty => Raw.sound_ok ?_
  rw [hp] at hx
  show (wfVV w.pfx t w.ra5 w.rb5 w.rc5 && !w.pfx.zero) = true
  rw [wfVV, hx, hw.regs3, ht, hty, hz]; rfl

theorem Raw.Gathered.vc {mk : Pfx → ETy → PredNum → RegNum → RegNum → Instr}
    (hmk : ∀ x t p b c, (mk x t p b c).WellFormed = wfVC x t p b c) : Raw.Sound (w.vc mk) := by
  refine hw.vform fun hx => Raw.sound_noA4 fun ha => hw.ety fun t _ ht hty => Raw.sound_ok ?_
  rw [hp] at hx
  have hregs : (w.pfx.r || (w.rb5.low && w.rc5 == w.a.setWidth 5)) = true := by
    simp only [Bool.or_eq_true, Bool.and_eq_true, beq_iff_eq, ← Raw.ra5_of_a4 ha]
    exact (regs3_iff.1 hw.regs3).imp_right fun h => h.2
  rw [hmk, wfVC, hx, hregs, ht, hty]; rfl

theorem Raw.Gathered.vcvt : Raw.Sound w.vcvt := by
  refine Raw.sound_withR fun hr => hw.vform fun hx => hw.ety fun t _ ht _ => ?_
  rw [hp] at hx
  split
  · next s _ =>
    refine Raw.sound_need fun hs => Raw.sound_need fun hrtz => Raw.sound_ok ?_
    have hwf : wfVCVT w.pfx t s (w.c.getLsbD 4) = true :=
      Bool.and_eq_true_iff.2 ⟨by rw [hx, hr, ht, hs]; rfl, hrtz⟩
    exact hwf
  · exact Raw.sound_error _

omit hp in
theorem Raw.Gathered.vsatn : Raw.Sound w.vsatn := by
  refine Raw.sound_withR fun _ => hw.vform fun _ => hw.ety fun t _ _ _ => Raw.sound_need fun _ => ?_
  split
  · exact Raw.sound_need fun hwf => Raw.sound_ok hwf
  · exact Raw.sound_error _

theorem Raw.Gathered.vrand : Raw.Sound w.vrand := by
  refine Raw.sound_withR fun hr => hw.vform fun hx => Raw.sound_need fun _ => Raw.sound_ok ?_
  rw [hp] at hx
  show (w.pfx.vec 2 && w.pfx.r) = true
  rw [hx, hr]; rfl

theorem Raw.Gathered.vi {mk : Pfx → ITy → RegNum → RegNum → Word → Instr}
    (hmk : ∀ x t a c i, (mk x t a c i).WellFormed = wfVI x t a c i) : Raw.Sound (w.vi mk) := by
  refine Raw.sound_noM fun hm => hw.vec fun hx => Raw.sound_noB4 fun _ => Raw.sound_ok ?_
  rw [hp] at hx
  have hregs : (w.pfx.r || (w.ra5.low && w.rc5 == w.ra5 && ITy.ofCode w.ty == .s32)) = true := by
    have ha := hw.rc5_or
    have ht := hw.s32_or
    simp only [Bool.or_eq_true, Bool.and_eq_true] at ha ht ⊢
    exact ha.elim .inl fun ha => ht.imp_right fun ht => ⟨ha, ht⟩
  rw [hmk, wfVI, hx, hm, hregs, hw.immI6]; rfl

omit hp in
/-- R187: the types of VDOT4 have no code 0, so there is a PFX.R. -/
theorem Raw.Gathered.vdot4 : Raw.Sound w.vdot4 := by
  refine hw.vform fun hx => hw.ety fun t _ _ hty => Raw.sound_need fun hwf => Raw.sound_ok ?_
  have hr : w.pfx.r = true := by
    simp only [wfVDOT4, Bool.and_eq_true, Bool.or_eq_true, beq_iff_eq] at hwf
    simp only [tyNoR, Bool.or_eq_true, beq_iff_eq] at hty
    rcases hty with (hr | rfl) | rfl
    · exact hr
    · simp at hwf
    · simp at hwf
  rwa [show { w.pfx with r := true } = w.pfx by rw [← hr]] at hwf

theorem Raw.Gathered.pl {mk : Pfx → PredNum → PredNum → PredNum → Instr}
    (hmk : ∀ x p q r, (mk x p q r).WellFormed = wfPL x p r) : Raw.Sound (w.pl mk) := by
  refine hw.vform fun hx => Raw.sound_noMf (Raw.sound_noTy (Raw.sound_noA4 fun ha => Raw.sound_noB4 fun _ =>
    Raw.sound_need fun _ => Raw.sound_ok ?_))
  rw [hp] at hx
  have hregs : (w.pfx.r || w.rc5.setWidth 4 == w.a) = true := by
    simp only [Bool.or_eq_true, beq_iff_eq]
    exact (regs3_iff.1 hw.regs3).imp_right fun h => by rw [h.2.2, Raw.ra5_of_a4 ha, setWidth_setWidth_four]
  rw [hmk, wfPL, hx, hregs]; rfl

theorem Raw.Gathered.pn {mk : Pfx → PredNum → PredNum → Instr} (hmk : ∀ x p q, (mk x p q).WellFormed = x.vec 2) :
    Raw.Sound (w.pn mk) :=
  hw.vform fun hx => Raw.sound_noMf (Raw.sound_noTy (Raw.sound_noA4 fun _ => Raw.sound_noB4 fun _ => Raw.sound_noC fun _ =>
    Raw.sound_ok ((hmk _ _ _).trans (hp ▸ hx))))

theorem Raw.Gathered.ps : Raw.Sound w.ps := by
  refine hw.vform fun hx => Raw.sound_noA4 fun _ => Raw.sound_noC fun _ => hw.ety fun t _ ht hty => Raw.sound_ok ?_
  rw [hp] at hx
  show (w.pfx.vec 2 && (w.pfx.r || w.rb5.low) && t.vec && tyNoR w.pfx t) = true
  rw [hx, hw.low_rb5, ht, hty]; rfl

theorem Raw.Gathered.pq {mk : Pfx → ETy → RegNum → PredNum → Instr}
    (hmk : ∀ x t a p, (mk x t a p).WellFormed = (x.plain 2 && (x.r || a.low) && t.vec && tyNoR x t)) :
    Raw.Sound (w.pq mk) := by
  refine hw.scalar fun hok hz => hw.vform fun hx => Raw.sound_noB4 fun _ => Raw.sound_noC fun _ =>
    hw.ety fun t _ ht hty => Raw.sound_ok ?_
  obtain ⟨-, hnx, hm⟩ := Pfx.vec_iff.1 hx
  have hx := Pfx.plain_iff.2 ⟨hok, hnx, hm, hz⟩
  rw [hp] at hx
  rw [hmk, hx, hw.low_ra5, ht, hty]; rfl

end

/-! ## Page 3 -/

section
variable {w : Raw} (hw : w.Gathered) (hp : w.page = 3)
include hw hp

theorem Raw.Gathered.vmem {g : OrdGroup} {k : Except DecErr Instr} (h : w.pfx.ok 3 = true → w.ordering.ok g w.pfx = true →
    (g == .load || !w.pfx.zero) = true → Raw.Sound k) : Raw.Sound (w.vmem g k) := by
  refine hw.vec fun hx => Raw.sound_need fun hz => Raw.sound_ordered fun ho => h (hp ▸ hx) ho ?_
  simp only [Bool.or_eq_true, beq_iff_eq, Bool.not_eq_true'] at hz ⊢
  exact hz.imp_right fun hz => by rw [Raw.pfx, hz]; rfl

theorem Raw.Gathered.vm {g : OrdGroup} {mk : Pfx → Ordering → ITy → RegNum → RegNum → Word → Instr}
    (hmk : ∀ x o t a b i, (mk x o t a b i).WellFormed = wfVM g x o t a b i) : Raw.Sound (w.vm g mk) :=
  hw.vmem hp fun hx ho hz => Raw.sound_noC fun _ => Raw.sound_ok ((hmk _ _ _ _ _ _).trans
    (wfVM_iff.2 ⟨hx, hw.regs2, hw.s32_or, hw.immI2, ho, hz⟩))

theorem Raw.Gathered.vmc {g : OrdGroup} {mk : Pfx → Ordering → ITy → RegNum → RegNum → RegNum → Word → Instr}
    (hmk : ∀ x o t a b c i, (mk x o t a b c i).WellFormed = wfVMC g x o t a b c i) : Raw.Sound (w.vmc g mk) :=
  hw.vmem hp fun hx ho hz => Raw.sound_ok (by
    rw [hmk, wfVMC, wfVM_iff.2 ⟨hx, hw.regs2, hw.s32_or, hw.immI2, ho, hz⟩, hw.regs3]; rfl)

theorem Raw.Gathered.vxc {g : OrdGroup} {mk : Pfx → Ordering → ITy → RegNum → RegNum → RegNum → Instr}
    (hmk : ∀ x o t a b c, (mk x o t a b c).WellFormed = wfVXC g x o t a b c) : Raw.Sound (w.vxc g mk) := by
  refine Raw.sound_noX fun hnx => Raw.sound_noMf (hw.vmem hp fun hx ho hz => Raw.sound_ok ?_)
  have hi : immFits w.pfx.i2 0 = true := by rw [Pfx.i2, hnx]; decide
  rw [hmk, wfVXC, wfVMC, wfVM_iff.2 ⟨hx, hw.regs2, hw.s32_or, hi, ho, hz⟩, hw.regs3, hnx]; rfl

theorem Raw.Gathered.pv {mk : Pfx → ITy → RegNum → RegNum → RegNum → Instr}
    (hmk : ∀ x t a b c, (mk x t a b c).WellFormed = wfPV x t a b c) : Raw.Sound (w.pv mk) := by
  refine hw.pform fun hx => Raw.sound_ok ?_
  rw [hp] at hx
  rw [hmk, wfPV, hx, hw.regs3, hw.s32_or]; rfl

theorem Raw.Gathered.pvm {mk : Pfx → ITy → RegNum → RegNum → RegNum → Instr}
    (hmk : ∀ x t a b c, (mk x t a b c).WellFormed = (wfPV x t a b c && !x.zero)) : Raw.Sound (w.pvm mk) := by
  refine hw.scalar fun _ hz => hw.pform fun hx => Raw.sound_ok ?_
  rw [hp] at hx
  rw [hmk, wfPV, hx, hw.regs3, hw.s32_or, hz]; rfl

theorem Raw.Gathered.ce {mk : Pfx → ITy → RegNum → RegNum → Instr}
    (hmk : ∀ x t a b, (mk x t a b).WellFormed = wfCE x t a b) : Raw.Sound (w.ce mk) := by
  refine hw.pform fun hx => Raw.sound_noC fun _ => Raw.sound_ok ?_
  rw [hp] at hx
  rw [hmk, wfCE, hx, hw.regs2, hw.s32_or]; rfl

omit hw in
/-- R204: the block field of a gathered C. -/
theorem Raw.wfQF_of_page (hr : w.pfx.r = true) (hx : w.pfx.vec w.page = true)
    (hc : (decide (2 ≤ w.c.toNat) && decide (w.c.toNat ≤ 8)) = true) : wfQF w.pfx (w.c.setWidth 4) = true := by
  rw [hp] at hx
  simp only [Bool.and_eq_true, decide_eq_true_eq] at hc
  have hm : (w.c.setWidth 4).toNat = w.c.toNat := by rw [BitVec.toNat_setWidth, Nat.mod_eq_of_lt (by omega)]
  simp only [wfQF, hx, hr, hm, hc, decide_true, Bool.and_self]

theorem Raw.Gathered.qf {mk : Pfx → Bool → BitVec 4 → RegNum → RegNum → Instr}
    (hmk : ∀ x u m a b, (mk x u m a b).WellFormed = wfQF x m) : Raw.Sound (w.qf mk) :=
  Raw.sound_withR fun hr => hw.pform fun hx => Raw.sound_need fun _ => Raw.sound_need fun hc =>
    Raw.sound_ok ((hmk _ _ _ _ _).trans (Raw.wfQF_of_page hp hr hx hc))

theorem Raw.Gathered.qfm {mk : Pfx → Bool → BitVec 4 → RegNum → RegNum → Instr}
    (hmk : ∀ x u m a b, (mk x u m a b).WellFormed = (wfQF x m && !x.zero)) : Raw.Sound (w.qfm mk) :=
  hw.scalar fun _ hz => Raw.sound_withR fun hr => hw.pform fun hx => Raw.sound_need fun _ => Raw.sound_need fun hc =>
    Raw.sound_ok (by rw [hmk, Raw.wfQF_of_page hp hr hx hc, hz]; rfl)

theorem Raw.Gathered.vsprs : Raw.Sound w.vsprs := by
  refine hw.scalar fun hok hz => hw.pform fun hx => Raw.sound_need fun hc => Raw.sound_need fun hwidth => Raw.sound_ok ?_
  obtain ⟨-, hnx, hm⟩ := Pfx.vec_iff.1 hx
  have hx := Pfx.plain_iff.2 ⟨hok, hnx, hm, hz⟩
  rw [hp] at hx
  have hregs : (w.pfx.r || (w.ra5.low && w.rb5.low && ITy.ofCode w.ty == .s32 && (w.rc5.setWidth 4).setWidth 5 == w.ra5)) =
      true := by
    cases hr : w.r with
    | true => rw [show w.pfx.r = true from hr]; rfl
    | false =>
      obtain ⟨ha, hb⟩ := hw.low_or hr
      have hc : w.rc5 = w.ra5 := if_neg (by simp [hr])
      rw [ha, hb, hw.ty hr, hc, Raw.ra5_of_a4 (hw.noR hr).1, setWidth_setWidth_four, beq_self_eq_true]
      exact Bool.or_true _
  show wfVSPRS w.pfx (ITy.ofCode w.ty) w.ra5 w.rb5 (w.rc5.setWidth 4) = true
  rw [wfVSPRS, hx, hregs, hwidth]; rfl

end

/-! ## Page 4 -/

section
variable {w : Raw} (hw : w.Gathered) (hp : w.page = 4)
include hw hp

theorem Raw.Gathered.mring : Raw.Sound w.mring := by
  refine Raw.sound_withR fun hr => hw.plain fun hx => Raw.sound_noB4 fun _ => Raw.sound_need fun _ => Raw.sound_ok ?_
  rw [hp] at hx
  show wfRR' 4 w.pfx = true
  rw [wfRR', hx, hr]; rfl

/-- A form whose one register is A. -/
theorem Raw.Gathered.wfA (hx : w.pfx.plain w.page = true) : Sys2Proof.wfA 4 w.pfx w.ra5 = true := by
  rw [hp] at hx
  rw [Sys2Proof.wfA, hx, hw.low_ra5]; rfl

theorem Raw.Gathered.mprod : Raw.Sound w.mprod :=
  hw.plain fun hx => Raw.sound_noC fun _ => Raw.sound_noB4 fun _ => Raw.sound_need fun _ =>
    Raw.sound_ok (hw.wfA hp hx)

theorem Raw.Gathered.mflag : Raw.Sound w.mflag :=
  hw.plain fun hx => Raw.sound_noC fun _ => Raw.sound_noB4 fun _ => Raw.sound_need fun _ =>
    Raw.sound_ok (hw.wfA hp hx)

theorem Raw.Gathered.mzero : Raw.Sound w.mzero := by
  refine hw.plain fun hx => Raw.sound_noR fun hr => Raw.sound_noA (Raw.sound_need fun _ => Raw.sound_ok ?_)
  rw [hp] at hx
  show wfNone 4 w.pfx = true
  rw [wfNone, hx, hr]; rfl

omit hp in
/-- The field above a ring or an accumulator, which only A4's neighbour B4 can make 4 or more. -/
theorem Raw.Gathered.upperB : (w.rb5.extractLsb' 2 3).toNat = w.rb5.toNat / 4
    ∧ (w.pfx.r || decide ((w.rb5.extractLsb' 2 3).toNat < 4)) = true := by
  have hdiv : ∀ b : RegNum, (b.extractLsb' 2 3).toNat = b.toNat / 4 := by decide
  refine ⟨hdiv _, ?_⟩
  have hb := hw.low_rb5
  simp only [Bool.or_eq_true, RegNum.low, decide_eq_true_eq, hdiv] at hb ⊢
  exact hb.imp_right fun hb => by omega

theorem Raw.Gathered.mdrain : Raw.Sound w.mdrain := by
  refine hw.plain fun hx => Raw.sound_noC fun _ => Raw.sound_need fun hf => Raw.sound_ok ?_
  obtain ⟨hdiv, hup⟩ := hw.upperB
  show (Sys2Proof.wfA 4 w.pfx w.ra5 && (w.pfx.r || decide ((w.rb5.extractLsb' 2 3).toNat < 4))
    && decide ((w.rb5.extractLsb' 2 3).toNat < 5)) = true
  rw [hw.wfA hp hx, hup, hdiv, hf]; rfl

theorem Raw.Gathered.mrq : Raw.Sound w.mrq := by
  refine hw.plain fun hx => Raw.sound_noC fun _ => Raw.sound_ok ?_
  show (Sys2Proof.wfA 4 w.pfx w.ra5 && (w.pfx.r || decide ((w.rb5.extractLsb' 2 3).toNat < 4))) = true
  rw [hw.wfA hp hx, hw.upperB.2]; rfl

theorem Raw.Gathered.timedForm {g : OrdGroup} {k : Except DecErr Instr}
    (h : wfTimed g w.pfx w.ordering w.timeReg = true → Raw.Sound k) : Raw.Sound (w.timedForm g k) := by
  refine Raw.sound_noX fun hnx => hw.scalar fun hx hz => Raw.sound_noTy (Raw.sound_noMf (Raw.sound_ordered fun ho =>
    Raw.sound_need fun _ => h (wfTimed_iff.2 ⟨hp ▸ hx, hnx, hz, ho, ?_⟩)))
  rw [Raw.timeReg, Raw.ordering]
  cases w.timed <;> rfl

omit hp in
/-- R315: A4 and B4 as flags need PFX.R. -/
theorem Raw.Gathered.wfMMA (ht : wfTimed .matrix w.pfx w.ordering w.timeReg = true) :
    Sys2Proof.wfMMA w.pfx w.ordering w.a4 w.b4 w.timeReg = true := by
  have hflags : (w.pfx.r || (!w.a4 && !w.b4)) = true := by
    cases hr : w.r with
    | true => rw [show w.pfx.r = true from hr]; rfl
    | false => rw [(hw.noR hr).1, (hw.noR hr).2.1]; exact Bool.or_true _
  rw [Sys2Proof.wfMMA, ht, hflags]; rfl

theorem Raw.Gathered.mma : Raw.Sound w.mma := hw.timedForm hp fun ht => Raw.sound_ok (hw.wfMMA ht)
theorem Raw.Gathered.mmas : Raw.Sound w.mmas := hw.timedForm hp fun ht => Raw.sound_ok (hw.wfMMA ht)

theorem Raw.Gathered.cpy {mk : Pfx → Ordering → RegNum → RegNum → RegNum → Instr}
    (hmk : ∀ x o a b c, (mk x o a b c).WellFormed = wfCPY x o a b c) : Raw.Sound (w.cpy mk) :=
  hw.timedForm hp fun ht => Raw.sound_ok (by rw [hmk, wfCPY, ht, hw.regs2]; rfl)

theorem Raw.Gathered.flumw : Raw.Sound w.flumw := by
  refine Raw.sound_withR fun hr => hw.pform fun hx => Raw.sound_noTy (Raw.sound_ok ?_)
  rw [hp] at hx
  show (w.pfx.vec 4 && w.pfx.r) = true
  rw [hx, hr]; rfl

end

/-! ## Pages 5 and 7 -/

theorem Raw.Gathered.tdead {w : Raw} (hw : w.Gathered) (hp : w.page = 5) : Raw.Sound w.tdead := by
  refine Raw.sound_need fun hk => hw.plain fun hx => Raw.sound_noC fun _ => Raw.sound_noB4 fun _ =>
    Raw.sound_need fun _ => Raw.sound_ok ?_
  rw [hp] at hx
  show (Sys2Proof.wfA 5 w.pfx w.ra5 && decide (w.b.toNat % 8 < 6)) = true
  rw [Sys2Proof.wfA, hx, hw.low_ra5, hk]; rfl

theorem Raw.Gathered.retire {w : Raw} (hw : w.Gathered) (hp : w.page = 5) : Raw.Sound w.retire := by
  refine hw.plain fun hx => Raw.sound_noC fun _ => Raw.sound_noB4 fun _ => ?_
  rw [hp] at hx
  split
  · exact Raw.sound_noA (Raw.sound_ok hx)
  · have hwf : Sys2Proof.wfA 5 w.pfx w.ra5 = true := by rw [Sys2Proof.wfA, hx, hw.low_ra5]; rfl
    exact Raw.sound_need fun _ => Raw.sound_ok hwf

theorem Raw.Gathered.aes {w : Raw} (hw : w.Gathered) (hp : w.page = 7) {mk : Pfx → Bool → RegNum → RegNum → Instr}
    (hmk : ∀ x l a b, (mk x l a b).WellFormed = wfRR' 7 x) : Raw.Sound (w.aes mk) := by
  refine Raw.sound_withR fun hr => hw.plain fun hx => Raw.sound_need fun _ => Raw.sound_ok ?_
  rw [hp] at hx
  rw [hmk, wfRR', hx, hr]; rfl

theorem Raw.Gathered.aesk {w : Raw} (hw : w.Gathered) (hp : w.page = 7) : Raw.Sound w.aesk := by
  refine Raw.sound_withR fun hr => hw.plain fun hx => Raw.sound_need fun hc => Raw.sound_ok ?_
  rw [hp] at hx
  have hrc : ∀ c : BitVec 5, (decide (1 ≤ c.toNat) && decide (c.toNat ≤ 7)) = true → (c.setWidth 3 != 0) = true := by decide
  show (wfRR' 7 w.pfx && w.c.setWidth 3 != 0) = true
  rw [wfRR', hx, hr, hrc _ hc]; rfl

/-! ## Pages (R40 to R47) -/

section
variable {w : Raw} (hw : w.Gathered)
include hw

theorem Raw.Gathered.page0 (hp : w.page = 0) : Raw.Sound w.page0 := by
  unfold Raw.page0
  split
  case h_1 | h_2 | h_3 | h_4 | h_5 | h_6 | h_7 | h_8 | h_9 | h_10 | h_11 | h_12 | h_13 | h_14 | h_15 =>
    exact hw.rr hp fun _ _ _ _ => rfl
  case h_16 => exact hw.un hp fun _ _ _ => rfl
  case h_17 | h_18 | h_19 | h_20 | h_24 => exact hw.ri hp fun _ _ _ _ => Iff.rfl
  case h_21 | h_22 | h_23 => exact hw.sh hp fun _ _ _ _ => rfl
  case h_25 | h_37 => exact hw.li hp fun _ _ _ => rfl
  case h_26 | h_28 | h_29 | h_30 | h_31 | h_32 | h_33 => exact hw.bc hp fun _ _ _ _ => rfl
  case h_27 | h_34 => exact hw.bi hp fun _ _ => rfl
  case h_35 | h_36 | h_59 => exact hw.ra hp fun _ _ => rfl
  case h_38 | h_39 | h_40 => exact hw.ms hp fun _ _ _ _ _ _ => rfl
  case h_41 | h_42 => exact hw.memK hp fun _ _ _ _ _ => rfl
  case h_43 | h_44 => exact hw.mx hp fun _ _ _ _ _ _ _ => rfl
  case h_45 | h_46 | h_47 | h_48 | h_49 | h_50 | h_51 | h_52 => exact hw.ma hp fun _ _ _ _ _ _ _ => rfl
  case h_53 | h_54 => exact hw.mt hp fun _ _ _ _ _ _ _ => rfl
  case h_55 | h_56 => exact hw.pp hp fun _ _ _ => rfl
  case h_57 => exact hw.tr hp
  case h_58 => exact hw.selA hp fun _ _ _ => rfl
  case h_60 => exact hw.fence hp
  case h_61 => exact Raw.sound_error _

theorem Raw.Gathered.page1 (hp : w.page = 1) : Raw.Sound w.page1 := by
  unfold Raw.page1
  split
  case h_1 | h_2 | h_3 | h_4 | h_5 | h_6 | h_7 | h_13 | h_14 | h_15 | h_16 | h_17 | h_18 | h_20 | h_21 | h_22 | h_24
    | h_26 | h_28 | h_49 => exact hw.rr hp fun _ _ _ _ => rfl
  case h_8 | h_9 | h_10 | h_11 | h_12 | h_25 | h_27 | h_29 | h_30 => exact hw.un hp fun _ _ _ => rfl
  case h_19 | h_46 | h_47 | h_48 => exact hw.ri hp fun _ _ _ _ => Iff.rfl
  case h_23 => exact hw.kg hp
  case h_31 | h_32 | h_33 | h_34 | h_35 | h_37 | h_38 | h_39 | h_40 | h_41 => exact hw.fr hp fun _ _ _ _ _ => rfl
  case h_36 => exact hw.fu hp fun _ _ _ _ => rfl
  case h_42 => exact hw.fcvti hp
  case h_43 => exact hw.fcvtf hp
  case h_44 => exact hw.fcvtw hp
  case h_45 => exact hw.li hp fun _ _ _ => rfl
  case h_50 => exact Raw.sound_error _

theorem Raw.Gathered.page2 (hp : w.page = 2) : Raw.Sound w.page2 := by
  unfold Raw.page2
  split
  case h_1 | h_2 | h_3 | h_4 | h_5 | h_6 | h_7 | h_8 => exact hw.vv hp fun _ _ _ _ _ => rfl
  case h_9 | h_10 | h_30 | h_31 | h_36 => exact hw.vu hp fun _ _ _ _ => rfl
  case h_11 => exact hw.vvf hp fun _ _ _ _ _ => rfl
  case h_12 | h_13 | h_14 | h_15 | h_16 => exact hw.vuf hp fun _ _ _ _ => rfl
  case h_17 | h_18 | h_19 | h_21 | h_22 | h_23 => exact hw.vvi hp fun _ _ _ _ _ => rfl
  case h_20 => exact hw.vui hp fun _ _ _ _ => rfl
  case h_24 | h_25 | h_26 => exact hw.vc hp fun _ _ _ _ _ => rfl
  case h_27 => exact hw.vsel hp
  case h_28 => exact hw.vcvt hp
  case h_29 => exact hw.vsatn
  case h_32 => exact hw.vrand hp
  case h_33 | h_34 | h_35 => exact hw.vum hp fun _ _ _ _ => rfl
  case h_37 | h_38 => exact hw.vi hp fun _ _ _ _ _ => rfl
  case h_39 => exact hw.vdot4
  case h_40 | h_41 | h_42 => exact hw.pl hp fun _ _ _ _ => rfl
  case h_43 | h_47 => exact hw.pn hp fun _ _ _ => rfl
  case h_44 => exact hw.ps hp
  case h_45 | h_46 => exact hw.pq hp fun _ _ _ _ => rfl
  case h_48 => exact Raw.sound_error _

theorem Raw.Gathered.page3 (hp : w.page = 3) : Raw.Sound w.page3 := by
  unfold Raw.page3
  split
  case h_1 | h_2 => exact hw.vm hp fun _ _ _ _ _ _ => rfl
  case h_3 | h_4 | h_9 | h_10 => exact hw.vmc hp fun _ _ _ _ _ _ _ => rfl
  case h_5 | h_6 | h_7 | h_8 => exact hw.vxc hp fun _ _ _ _ _ _ => rfl
  case h_11 | h_12 | h_13 | h_14 | h_15 | h_20 => exact hw.pv hp fun _ _ _ _ _ => rfl
  case h_16 | h_17 => exact hw.pvm hp fun _ _ _ _ _ => rfl
  case h_18 | h_19 => exact hw.ce hp fun _ _ _ _ => rfl
  case h_21 => exact hw.qfm hp fun _ _ _ _ _ => rfl
  case h_22 => exact hw.qf hp fun _ _ _ _ _ => rfl
  case h_23 => exact hw.vsprs hp
  case h_24 => exact Raw.sound_error _

theorem Raw.Gathered.page4 (hp : w.page = 4) : Raw.Sound w.page4 := by
  unfold Raw.page4
  split
  case h_1 | h_10 => exact hw.ra hp fun _ _ => rfl
  case h_2 => exact hw.mring hp
  case h_3 => exact hw.mprod hp
  case h_4 => exact hw.mma hp
  case h_5 => exact hw.mmas hp
  case h_6 => exact hw.mzero hp
  case h_7 => exact hw.mdrain hp
  case h_8 => exact hw.mflag hp
  case h_9 => exact hw.none hp fun _ => rfl
  case h_11 => exact hw.mrq hp
  case h_12 | h_15 | h_16 | h_17 => exact hw.cpy hp fun _ _ _ _ _ => rfl
  case h_13 | h_14 | h_18 => exact hw.un hp fun _ _ _ => rfl
  case h_19 => exact hw.flumw hp
  case h_20 => exact Raw.sound_error _

theorem Raw.Gathered.page5 (hp : w.page = 5) : Raw.Sound w.page5 := by
  unfold Raw.page5
  split
  case h_1 | h_3 | h_4 | h_7 | h_11 | h_12 | h_13 => exact hw.un hp fun _ _ _ => rfl
  case h_2 => exact hw.rb hp fun _ _ => rfl
  case h_5 => exact hw.ra hp fun _ _ => rfl
  case h_6 => exact hw.tdead hp
  case h_8 => exact hw.rr hp fun _ _ _ _ => rfl
  case h_9 => exact hw.retire hp
  case h_10 => exact hw.bare hp fun _ => rfl
  case h_14 => exact hw.selA hp fun _ _ _ => rfl
  case h_15 => exact Raw.sound_error _

theorem Raw.Gathered.page6 (hp : w.page = 6) : Raw.Sound w.page6 := by
  unfold Raw.page6
  split
  case h_1 | h_2 | h_3 => exact hw.bare hp fun _ => rfl
  case h_4 | h_11 | h_13 | h_14 => exact hw.rrr hp fun _ _ _ _ => rfl
  case h_5 | h_12 | h_15 => exact hw.un hp fun _ _ _ => rfl
  case h_6 | h_7 | h_8 | h_9 => exact hw.rr hp fun _ _ _ _ => rfl
  case h_10 => exact hw.rb hp fun _ _ => rfl
  case h_16 => exact Raw.sound_error _

theorem Raw.Gathered.page7 (hp : w.page = 7) : Raw.Sound w.page7 := by
  unfold Raw.page7
  split
  case h_1 => exact hw.ra hp fun _ _ => rfl
  case h_2 | h_3 => exact hw.aes hp fun _ _ _ _ => rfl
  case h_4 => exact hw.aesk hp
  case h_5 | h_6 => exact hw.rr hp fun _ _ _ _ => rfl
  case h_7 => exact Raw.sound_error _

end

theorem Raw.Gathered.sound_decode {w : Raw} (hw : w.Gathered) : Raw.Sound w.decode := by
  have hpages : ∀ p : BitVec 3, p = 0 ∨ p = 1 ∨ p = 2 ∨ p = 3 ∨ p = 4 ∨ p = 5 ∨ p = 6 ∨ p = 7 := by decide
  rw [Raw.decode_eq_onPage]
  rcases hpages w.page with hp | hp | hp | hp | hp | hp | hp | hp <;> rw [hp]
  · exact hw.page0 hp
  · exact hw.page1 hp
  · exact hw.page2 hp
  · exact hw.page3 hp
  · exact hw.page4 hp
  · exact hw.page5 hp
  · exact hw.page6 hp
  · exact hw.page7 hp

/-- R38, R39: what the decoder answers is well formed. -/
theorem wellFormed_of_decode {qs : List Parcel} {i : Instr} (h : decode qs = .ok i) : i.WellFormed = true := by
  unfold decode at h
  split at h
  · next w hscan => exact (scan_gathered Raw.empty_gathered rfl hscan).sound_decode i h
  · cases h

/-- Settles O37: the checks of each form establish what its instructions need to be well formed; a prefix that the chain
holds already, or a fifth one, stops the gathering. -/
theorem decodingRefusesByName : Obligations.DecodingRefusesByName := by
  refine ⟨fun qs i h => wellFormed_of_decode h, fun qs hlen hq => ?_, fun ps rest op hlen hq hop h2 => ?_⟩
  · rw [decode, scan_five hlen hq]
  · rw [decode, scan_again hop rest hlen hq (Nat.le_add_left_of_le h2)]

end Sys2Proof
end

section
/-! SUPPORT. O35: words of the manual's worked programs, decoded. -/

namespace Sys2Proof

/-- Settles O35: each word is evaluated by the decoder. -/
theorem wordsDecodeToTheirInstructions : Obligations.WordsDecodeToTheirInstructions :=
  ⟨rfl, rfl, rfl, rfl, rfl, rfl, rfl, rfl, rfl, rfl, rfl⟩

end Sys2Proof
end

section
/-! SUPPORT. O38: which of its parts a step runs, what a fetch of a parcel answers case by case, and what sampling and
monitor channels add to an instruction's outcome. -/

namespace Sys2Proof.Machine
open Sys2Proof

/-! ## Which part of a step runs -/

theorem step_running {s : State} (hf : s.frozen = false) (hd : s.due = none) : step s = stepOn s := by
  simp only [step, hf, hd, Bool.false_eq_true, if_false]

theorem stepOn_event {s : State} {i : Instr} {rest : List Move} (h : s.script = .event i :: rest) :
    stepOn s = exec i { s with script := rest } := by
  simp only [stepOn, h, move]

theorem stepOn_focus {s : State} (hs : s.script = []) (hm : s.dueMiss = none) (hst : s.stalled = false) : stepOn s = s.stepCore := by
  simp only [stepOn, hs, hm, hst, Bool.false_eq_true, if_false]

theorem State.fetchInstr_pfxc {s u : State} {qs : List Parcel} (hq : s.parcels = .ok (u, qs)) (hd : decode qs = .error .pfxc) :
    s.fetchInstr = .error (.trap ⟨cPFXC, 0, 0⟩) := by
  simp only [State.fetchInstr, hq, hd]

theorem State.fetchInstr_ill {s u : State} {qs : List Parcel} {e : DecErr} (hq : s.parcels = .ok (u, qs)) (he : e ≠ .pfxc)
    (hd : decode qs = .error e) : s.fetchInstr = .error (.trap ⟨cILL, 0, 0⟩) := by
  cases e with
  | pfxc => exact absurd rfl he
  | _ => simp only [State.fetchInstr, hq, hd]

/-- R138: a pending imprecise fault waits for no handler and no access that has been issued. -/
theorem Core.takesPending_eq_false {c : Core} (h : c.pending = [] ∨ c.handler = true ∨ c.issuedWait = true) : c.takesPending = false := by
  unfold Core.takesPending
  rcases h with h | h | h <;> simp [h]

theorem Core.takesPending_eq_true {c : Core} {r : FaultRec} {rest : List FaultRec} (hp : c.pending = r :: rest)
    (hh : c.handler = false) (hi : c.issuedWait = false) : c.takesPending = true := by
  simp [Core.takesPending, hp, hh, hi]

section
variable {s : State} (hheld : s.heldStop = false) (hrun : s.core.run = .item ∨ s.core.run = .firmware)
include hheld hrun

theorem State.stepCore_pending (hp : s.core.takesPending = true) : s.stepCore = .next s.abandonMark.takePending.done := by
  simp [State.stepCore, hheld, hrun, hp]

theorem State.stepCore_decoded {u : State} {qs : List Parcel} {i : Instr} (hp : s.core.takesPending = false)
    (hq : s.beginInstr.parcels = .ok (u, qs)) (hi : decode qs = .ok i) : s.stepCore = Out.observed u u.core.ir (exec i u) := by
  simp [State.stepCore, hheld, hrun, hp, State.fetchInstr, hq, hi]

theorem State.stepCore_undecoded {u : State} {qs : List Parcel} {t : Trap} (hp : s.core.takesPending = false)
    (hq : s.beginInstr.parcels = .ok (u, qs)) (hi : s.beginInstr.fetchInstr = .error (.trap t)) :
    s.stepCore = Out.observed s.beginInstr qs (.next (s.beginInstr.takeTrap t).done) := by
  simp [State.stepCore, hheld, hrun, hp, hi, hq, State.settleBody]

theorem State.stepCore_unfetched {e : Stop} (hp : s.core.takesPending = false) (hq : s.beginInstr.parcels = .error e) :
    s.stepCore = Out.observed s.beginInstr [] (.next (s.beginInstr.settleBody (.error e))) := by
  simp [State.stepCore, hheld, hrun, hp, State.fetchInstr, hq]
end

/-! ## The parcels of an instruction (R49 step 1, R135, R136) -/

theorem State.parcels_issued {s : State} (h : s.core.issuedWait = true) : s.parcels = .ok (s, s.core.ir) := by
  simp only [State.parcels, h, if_true]

theorem State.parcels_fetched {s u : State} {qs : List Parcel} (h : s.core.issuedWait = false) (hf : s.fetch s.pc 5 = .ok (u, qs)) :
    s.parcels = .ok ({ u with core := { u.core with ir := qs } }, qs) := by
  simp only [State.parcels, h, hf, Bool.false_eq_true, if_false]

theorem State.parcels_error {s : State} {e : Stop} (h : s.core.issuedWait = false) (hf : s.fetch s.pc 5 = .error e) :
    s.parcels = .error e := by
  simp only [State.parcels, h, hf, Bool.false_eq_true, if_false]

theorem State.parcels_ir {s u : State} {qs : List Parcel} (h : s.parcels = .ok (u, qs)) : u.core.ir = qs := by
  cases hi : s.core.issuedWait with
  | true =>
    rw [State.parcels_issued hi] at h
    cases h
    rfl
  | false =>
    cases hf : s.fetch s.pc 5 with
    | error e => rw [State.parcels_error hi hf] at h; cases h
    | ok r =>
      rw [State.parcels_fetched hi hf] at h
      cases h
      rfl

/-! ## One parcel -/

theorem State.fetchParcel_odd (s : State) {a : Addr} (h : a.getLsbD 0 = true) :
    s.fetchParcel a = .error (.trap ⟨cALIGN, a.setWidth 64, 0⟩) := by
  simp only [State.fetchParcel, h, if_true]

theorem State.fetchParcel_refused {s : State} {a : Addr} {n : Nat} {t : Trap} (h : a.getLsbD 0 = false)
    (ha : s.access (s.fetchAccess a) = .error (n, t)) : s.fetchParcel a = .error (.trap t) := by
  simp only [State.fetchParcel, h, ha, Bool.false_eq_true, if_false]

section
variable {s : State} {a : Addr} {p : Place} (h : a.getLsbD 0 = false) (ha : s.access (s.fetchAccess a) = .ok p)
include h ha

theorem State.fetchParcel_cached {q : Parcel} (hc : assocGet s.core.icache p.loc = some q) :
    s.fetchParcel a = .ok (s.fillTlb p, q) := by
  simp only [State.fetchParcel, h, ha, State.fillTlb_core, hc, Bool.false_eq_true, if_false]

theorem State.fetchParcel_here (hc : assocGet s.core.icache p.loc = none) (hp : isAway p.loc = false) :
    let q : Parcel := BitVec.ofNat 16 (natOf (s.placeBytes p 2))
    let u := s.fillTlb p
    s.fetchParcel a = .ok ({ u with core := { u.core with icache := assocPut s.core.icache p.loc q } }, q) := by
  simp only [State.fetchParcel, h, ha, State.fillTlb_core, hc, hp, State.fillTlb_placeBytes, State.cacheParcel, Bool.false_eq_true,
    if_false]

/-- A parcel of the host or of a peer for which no request has been sent: the request goes out. -/
theorem State.fetchParcel_away (hc : assocGet s.core.icache p.loc = none) (hp : isAway p.loc = true)
    (hw : ∀ r, s.core.wait ≠ some (.fetch r)) : s.fetchParcel a = (s.fillTlb p).sendFetch p := by
  simp only [State.fetchParcel, h, ha, State.fillTlb_core, hc, hp, Bool.false_eq_true, if_false, if_true]
  unfold State.fetchAway
  split
  · next r hr => exact absurd (by rwa [State.fillTlb_core] at hr) (hw r)
  · rfl
end

theorem State.fillTlb_awayRefused (s : State) (q : Place) (n : BitVec 8) (l : Nat) : (s.fillTlb q).awayRefused n l = s.awayRefused n l := by
  obtain ⟨x, hx⟩ := s.fillTlb_eq q
  rw [hx]
  rfl
theorem State.fillTlb_peerHeld (s : State) (q : Place) (l : Nat) : (s.fillTlb q).peerHeld l = s.peerHeld l := by
  obtain ⟨x, hx⟩ := s.fillTlb_eq q
  rw [hx]
  rfl

theorem State.sendFetch_sent {s : State} {p : Place} (hr : s.awayRefused s.core.owner p.loc = none) (hh : s.peerHeld p.loc = false) :
    s.sendFetch p = .error (.hold (s.beforeAccess p 2) (.fetch (s.request p 2 none))) := by
  simp only [State.sendFetch, State.issueAway, hr, hh, Bool.false_eq_true, if_false]
  rfl

/-- R350: while requests to the peer are held, the fetch waits for room. -/
theorem State.sendFetch_held {s : State} {p : Place} (hr : s.awayRefused s.core.owner p.loc = none) (hh : s.peerHeld p.loc = true) :
    s.sendFetch p = .error (.wait (.room none)) := by
  simp only [State.sendFetch, State.issueAway, hr, hh, if_true]
  rfl

/-! ## What is noted of an instruction (R405 to R409) -/

/-- Counting events changes a die in its monitors alone. -/
theorem State.countEvents_dieAt (s : State) (c : CoreId) (p : Progress) (i : Sampled) (b a : Core) (d : BitVec 2) :
    (s.countEvents c p i b a).dieAt d = { s.dieAt d with monitors := ((s.countEvents c p i b a).dieAt d).monitors } := by
  unfold State.countEvents
  dsimp only
  split
  · rfl
  · next hw =>
    by_cases hd : d = c.die
    · subst hd
      simp [State.dieAt, State.setDie]
    · have e (x : Die) (n : Nat) : ({ s.setDie c.die x with free := n }).dieAt d = s.dieAt d := State.dieAt_setDie_other s x hd
      rw [e]

/-- The outcome with a mark of its own. -/
def State.withMark (t : State) (m : Option Mark) : State := { t with core := { t.core with mark := m } }

/-- What is noted: a mark where the instruction has one, then the events of its die's channels, if any. -/
theorem State.observe_eq {s t : State} (qs : List Parcel) (ha : t.core.agent = s.core.agent) :
    ∃ m, (t.core.mark = none → m = none)
      ∧ (s.observe qs t = t.withMark m ∨ ∃ k p i b a, s.observe qs t = (t.withMark m).countEvents k p i b a) := by
  have hc : t.agent s.core.agent = t.core := by simp only [State.agent, ha, if_true]
  have e (m : Option Mark) : t.setAgent { t.core with mark := m } = t.withMark m := by simp only [State.setAgent, if_true]; rfl
  let p : Progress := ⟨qs, s.predicatedOff qs, t.core.last ≠ s.core.last, t.core.wait.isNone⟩
  have hv : t.withMark (t.core.mark.map (Mark.goOn p s.core t.core))
      = match t.core.mark with | some m => t.setAgent { t.core with mark := some (m.goOn p s.core t.core) } | none => t := by
    cases hm : t.core.mark with
    | none => show t.withMark none = t; rw [State.withMark, ← hm]
    | some m => exact (e _).symm
  refine ⟨t.core.mark.map (Mark.goOn p s.core t.core), fun hm => by rw [hm]; rfl, ?_⟩
  rw [hv]
  unfold State.observe
  rw [hc]
  dsimp only
  split
  · split
    · exact .inl rfl
    · exact .inr ⟨_, _, _, _, _, rfl⟩
  · exact .inl rfl

theorem State.observe_changes {s t : State} (qs : List Parcel) (ha : t.core.agent = s.core.agent) :
    s.observe qs t = { t with core := { t.core with mark := (s.observe qs t).core.mark }, dies := (s.observe qs t).dies,
                              free := (s.observe qs t).free } := by
  obtain ⟨m, -, h | ⟨k, p, i, b, a, h⟩⟩ := State.observe_eq qs ha
  · rw [h]; rfl
  · obtain ⟨ds, n, hn⟩ := (t.withMark m).countEvents_eq k p i b a
    rw [h, hn]
    rfl

theorem State.observe_dieAt {s t : State} (qs : List Parcel) (ha : t.core.agent = s.core.agent) (d : BitVec 2) :
    (s.observe qs t).dieAt d = { t.dieAt d with monitors := ((s.observe qs t).dieAt d).monitors } := by
  obtain ⟨m, -, h | ⟨k, p, i, b, a, h⟩⟩ := State.observe_eq qs ha
  · rw [h]; rfl
  · rw [h]
    exact (t.withMark m).countEvents_dieAt k p i b a d

theorem State.observe_off {s t : State} (qs : List Parcel) (ha : t.core.agent = s.core.agent) (hm : t.core.mark = none)
    (hoff : ∀ d, ∀ m ∈ (t.dieAt d).monitors.toList, m.config.getLsbD 8 = false) : s.observe qs t = t := by
  obtain ⟨m, hm', h⟩ := State.observe_eq qs ha
  have e : t.withMark m = t := by rw [hm' hm, State.withMark, ← hm]
  rw [e] at h
  obtain h | ⟨k, p, i, b, a, h⟩ := h
  · exact h
  · rw [h, State.countEvents_off (hoff k.die)]

theorem State.beginInstr_off {s : State} (h : s.core.csr.smpl.getLsbD 0 = false ∨ s.core.wait ≠ none) : s.beginInstr = s := by
  have h' : s.core.csr.smpl.getLsbD 0 = false ∨ s.core.wait.isSome = true := h.imp id Option.isSome_iff_ne_none.mpr
  rw [State.beginInstr, Core.countDown_off h']

theorem State.beginInstr_eq (s : State) :
    s.beginInstr = { s with core := { s.core with lfsr := s.beginInstr.core.lfsr, gap := s.beginInstr.core.gap,
                                                  mark := s.beginInstr.core.mark } } :=
  congrArg (fun c => { s with core := c }) (s.core.countDown_eq s.sampled)

end Sys2Proof.Machine

namespace Sys2Proof
open Sys2Proof.Machine

/-- Settles O38: each clause is one of the step's, the fetch's or the observation's equations. -/
theorem stepRunsTheDecodedInstruction : Obligations.StepRunsTheDecodedInstruction := by
  unfold Obligations.StepRunsTheDecodedInstruction
  refine ⟨fun s hf hs hst hd hm hheld hrun => ?_, ?_, fun s => ⟨s.beginInstr_eq, State.beginInstr_off⟩, ?_, fun s => ?_⟩
  · have hstep : step s = s.stepCore := (step_running hf hd).trans (stepOn_focus hs hm hst)
    rw [hstep]
    refine ⟨fun hp => ?_, fun r rest hp hh hi => ?_⟩
    · have hp := Core.takesPending_eq_false hp
      refine ⟨fun u qs hq => ⟨State.parcels_eq hq, State.parcels_ir hq, fun i hi => ?_, fun hi => ?_, fun e he hi => ?_⟩,
        fun t hq => State.stepCore_unfetched hheld hrun hp hq, fun w hq => State.stepCore_unfetched hheld hrun hp hq,
        fun u w hq => State.stepCore_unfetched hheld hrun hp hq⟩
      · rw [State.stepCore_decoded hheld hrun hp hq hi, State.parcels_ir hq]
      · exact State.stepCore_undecoded hheld hrun hp hq (State.fetchInstr_pfxc hq hi)
      · exact State.stepCore_undecoded hheld hrun hp hq (State.fetchInstr_ill hq he hi)
    · rw [State.stepCore_pending hheld hrun (Core.takesPending_eq_true hp hh hi)]
      have hq : s.abandonMark.core.pending = r :: rest := hp
      simp only [State.takePending, hq]
  · intro s i rest hf hs hd
    exact (step_running hf hd).trans (stepOn_event hs)
  · intro s t qs ha
    exact ⟨rfl, State.observe_changes qs ha, State.observe_dieAt qs ha, State.observe_off qs ha⟩
  · refine ⟨State.parcels_issued, fun hi => ⟨fun u qs => State.parcels_fetched hi, fun e => State.parcels_error hi⟩,
      fun a => s.fetchParcel_odd, fun a n t => State.fetchParcel_refused, fun a p h ha =>
      ⟨fun q => State.fetchParcel_cached h ha, State.fetchParcel_here h ha, fun hc hp hw hr => ?_⟩⟩
    rw [State.fetchParcel_away h ha hc hp hw]
    have hr' : (s.fillTlb p).awayRefused (s.fillTlb p).core.owner p.loc = none := by
      rw [State.fillTlb_awayRefused, State.fillTlb_core, hr]
    exact ⟨fun hh => State.sendFetch_sent hr' ((s.fillTlb_peerHeld p _).trans hh),
      fun hh => State.sendFetch_held hr' ((s.fillTlb_peerHeld p _).trans hh)⟩

end Sys2Proof
end

section
/-! SUPPORT. O12: the first check that an access fails, and the instructions that raise it. -/

namespace Sys2Proof.Machine
open Sys2Proof

/-! ## Steps 1 to 6 of R59, one after another -/

theorem need_true {n : Nat} {code : BitVec 8} {ea : Addr} {d : Nat} : need true n code ea d = .ok () := rfl
theorem need_false {n : Nat} {code : BitVec 8} {ea : Addr} {d : Nat} :
    need false n code ea d = .error (n, ⟨code, ea.setWidth 64, BitVec.ofNat 64 d⟩) := rfl

/-- R60: the permissions that the access asks for. -/
def Access.permitted (a : Access) : Bool :=
  (!a.r || a.cap.permR) && (!a.w || a.cap.permW) && (!a.x || a.cap.permX) && (!a.k || a.cap.permK) && (!a.t || a.cap.permT)

theorem Access.permitted_iff (a : Access) :
    a.permitted = true ↔ (a.r = true → a.cap.permR = true) ∧ (a.w = true → a.cap.permW = true) ∧ (a.x = true → a.cap.permX = true)
      ∧ (a.k = true → a.cap.permK = true) ∧ (a.t = true → a.cap.permT = true) := by
  have e (p q : Bool) : (!p || q) = true ↔ (p = true → q = true) := by cases p <;> simp
  simp only [Access.permitted, Bool.and_eq_true, e, and_assoc]

/-- The access fails with the code, at the address. -/
def State.failsAt (s : State) (a : Access) (code : BitVec 8) (ea : Addr) : Prop :=
  ∃ k e, s.access a = .error (k, e) ∧ e.code = code ∧ e.addr = ea.setWidth 64

/-- A step among the first six that fails ends the checks. -/
theorem State.failsAt_of_checkCap {s : State} {a : Access} {k : Nat} {code : BitVec 8} {ea : Addr} {d : Word}
    (h : s.checkCap a = .error (k, ⟨code, ea.setWidth 64, d⟩)) : s.failsAt a code ea := by
  refine ⟨k, ⟨code, ea.setWidth 64, d⟩, ?_, rfl, rfl⟩
  unfold State.access
  rw [h]
  rfl

section
variable {s : State} {a : Access}

theorem State.fails_untagged (ht : a.cap.tag = false) : s.failsAt a cKTAG a.ea := by
  apply State.failsAt_of_checkCap
  unfold State.checkCap
  rw [ht]
  rfl

variable (ht : a.cap.tag = true)
include ht

theorem State.fails_sealed (hs : a.cap.isSealed = true) : s.failsAt a cKSEAL a.ea := by
  apply State.failsAt_of_checkCap
  unfold State.checkCap
  rw [ht, hs]
  rfl

variable (hs : a.cap.isSealed = false)
include hs

theorem State.fails_permission (hp : a.permitted = false) : s.failsAt a cKPRM a.ea := by
  apply State.failsAt_of_checkCap
  unfold State.checkCap
  unfold Access.permitted at hp
  rw [ht, hs, hp]
  rfl

variable (hp : a.permitted = true)
include hp

theorem State.fails_bounds (hb : a.inB = false) : s.failsAt a cKBND a.ea := by
  apply State.failsAt_of_checkCap
  unfold State.checkCap
  unfold Access.permitted at hp
  rw [ht, hs, hp, hb]
  rfl

variable (hb : a.inB = true) (hx : s.exemplarStore a = false)
include hb hx

theorem State.fails_alignment (hal : a.ea.toNat % a.align ≠ 0) : s.failsAt a cALIGN a.ea := by
  apply State.failsAt_of_checkCap
  unfold State.checkCap
  unfold Access.permitted at hp
  rw [ht, hs, hp, hb, hx, decide_eq_false hal]
  rfl

variable (hal : a.ea.toNat % a.align = 0) (hov : 2 ^ 48 - 2 ^ 31 ≤ a.ea.toNat)
include hal hov

/-- R67: past the other checks of the capability, an access to the overflow space is redirected. -/
theorem State.checkCap_overflow : s.checkCap a = match s.redirect a.ea with
    | some va => do
      need (!a.x && !a.t) 6 cKPRM va a.detail
      return (va, true)
    | none => fail 6 cSUMP a.ea 0 := by
  have ho : inOverflow a.ea.toNat = true := decide_eq_true hov
  unfold State.checkCap
  unfold Access.permitted at hp
  rw [ht, hs, hp, hb, hx, decide_eq_true hal, ho]
  rfl

theorem State.fails_sump (hr : s.redirect a.ea = none) : s.failsAt a cSUMP a.ea := by
  apply State.failsAt_of_checkCap
  rw [State.checkCap_overflow ht hs hp hb hx hal hov, hr]
  rfl

theorem State.fails_redirected {va : Addr} (hr : s.redirect a.ea = some va) (hxt : a.x = true ∨ a.t = true) :
    s.failsAt a cKPRM va := by
  have hn : (!a.x && !a.t) = false := by rcases hxt with h | h <;> simp [h]
  apply State.failsAt_of_checkCap
  rw [State.checkCap_overflow ht hs hp hb hx hal hov, hr, hn]
  rfl
end

/-! ## Accesses of an instruction that begins: a check that fails ends it -/

theorem Core.begins_not_rmw {c : Core} (h : c.begins = true) (l : Nat) (va : Addr) (wide : Bool) (op : BitVec 3) (w cmp : Word)
    (old : Option Word) : c.wait ≠ some (.rmw l va wide op w cmp old) := by
  intro e
  rw [Core.begins, e] at h
  cases h
theorem Core.begins_not_reading {c : Core} (h : c.begins = true) (t : Tick) (r : Request) (rs : List Request) :
    c.wait ≠ some (.notBefore t (r :: rs)) := by
  intro e
  rw [Core.begins, e] at h
  cases h
theorem State.after_begins {s : State} (h : s.core.begins = true) (x : Pfx) (rs : List RegNum) : (s.after x rs).core.begins = true := by
  have hw : (s.after x rs).core.wait = s.core.wait := by simp [State.after]
  unfold Core.begins at h ⊢
  rwa [hw]

section
variable {s : State} (hb : s.core.begins = true)
include hb

theorem State.loads_error {o : Sys2Proof.Ordering} {check : State → R (State × List (Place × Nat))} {e : Stop}
    (h : check s = .error e) : s.loads o check = .error e := by
  unfold State.loads
  split
  · next rs hw => exact absurd hw (Core.begins_wait hb rs)
  · rw [h]; rfl

theorem State.loadsAfter_error {o : Sys2Proof.Ordering} {tm : Tick} {check : State → R (State × List (Place × Nat))} {e : Stop}
    (h : check s = .error e) : s.loadsAfter o tm check = .error e := by
  unfold State.loadsAfter
  split
  · next r rs hw => exact absurd hw (Core.begins_not_reading hb _ r rs)
  · rw [h]; rfl

theorem State.atomic_error {o : Sys2Proof.Ordering} {check : State → R (State × Place)} {op : BitVec 3} {n w cmp : Nat} {e : Stop}
    (h : check s = .error e) : s.atomic o check op n w cmp = .error e := by
  unfold State.atomic
  split
  · next rs hw => exact absurd hw (Core.begins_wait hb rs)
  · next hw => exact absurd hw (Core.begins_not_rmw hb _ _ _ _ _ _ _)
  · next hw => exact absurd hw (Core.begins_not_rmw hb _ _ _ _ _ _ _)
  · rw [h]; rfl

variable {a : Access} {k : Nat} {t : Trap} (h : s.access a = .error (k, t))
include h

theorem State.loadMem_trap {o : Sys2Proof.Ordering} : s.loadMem o a = .error (.trap t) := by
  unfold State.loadMem
  rw [State.loads_error hb (e := .trap t) (by rw [State.check_error h]; rfl)]
  rfl

omit hb in
theorem State.storeMem_trap {o : Sys2Proof.Ordering} {bytes : List Byte} {cap : Bool} : s.storeMem o a bytes cap = .error (.trap t) := by
  unfold State.storeMem
  rw [State.check_error h]
  rfl
end

/-! ## The memory instructions -/

theorem State.readG_eq {s : State} {b : RegNum} (h : s.readable [b]) : s.readG b = .ok (s.g b, s.took [b]) := by
  unfold State.readG
  rw [State.useG_eq h]
  show Except.ok ((s.took [b]).g b, s.took [b]) = _
  rw [State.took_g]

theorem State.took_took (s : State) (rs qs : List RegNum) : (s.took rs).took qs = s.took (rs ++ qs) := by
  induction rs generalizing s with
  | nil => rfl
  | cons n rest ih => exact ih (s.gotG n)

theorem State.after_took (s : State) (x : Pfx) (rs qs : List RegNum) : (s.after x rs).took qs = s.after x (rs ++ qs) :=
  State.took_took _ rs qs

@[simp] theorem State.after_g (s : State) (x : Pfx) (rs : List RegNum) (n : RegNum) : (s.after x rs).g n = s.g n := by
  simp [State.after]
@[simp] theorem State.after_gint (s : State) (x : Pfx) (rs : List RegNum) (n : RegNum) : (s.after x rs).gint n = s.gint n := by
  simp [State.after]

theorem State.readable_after {s : State} {x : Pfx} {rs qs : List RegNum} (h : s.readable qs) : (s.after x rs).readable qs := by
  simpa [State.readable, State.after] using h

section
variable {s : State} {x : Pfx} {o : Sys2Proof.Ordering} {a b c : RegNum} {off : Word} {k : Nat} {t : Trap}
  (hr : s.runs x)

/-- The body of a load, once the registers `rs` have been read. -/
theorem loadBody_trap {ext : Nat → Nat → Word} {n : Nat} {acc : GReg → State → Access} {rs : List RegNum} (hb : s.core.begins = true)
    (hg : s.readable [b]) (ha : s.access (acc (s.g b) (s.after x (rs ++ [b]))).load = .error (k, t)) :
    loadBody ext o n a acc b (s.after x rs) = .error (.trap t) := by
  unfold loadBody
  rw [State.readG_eq (State.readable_after hg), State.after_g, State.after_took]
  show (State.loadMem _ o _ >>= _) = _
  rw [State.loadMem_trap (State.after_begins hb x _) ((s.after_access x _ _).trans ha)]
  rfl

theorem storeBody_trap {n : Nat} {acc : GReg → State → Access} {rs : List RegNum} (hg : s.readable [b, a])
    (ha : s.access (acc (s.g b) (s.after x (rs ++ [b, a]))).store = .error (k, t)) :
    storeBody o n a acc b (s.after x rs) = .error (.trap t) := by
  unfold storeBody
  rw [State.useG_eq (State.readable_after hg), State.after_took]
  show State.storeMem _ o (acc ((s.after x (rs ++ [b, a])).g b) _).store _ false = _
  rw [State.after_g]
  exact State.storeMem_trap ((s.after_access x _ _).trans ha)

theorem atomicBody_trap {op : BitVec 3} {wide : Bool} (hb : s.core.begins = true) (hg : s.readable [b, c, a])
    (ha : s.access (memAccess (s.g b) b (eaOf (s.g b) off) (if wide then 8 else 4)).atomic = .error (k, t)) :
    atomicBody op o wide a b c off (s.tookPfx x) = .error (.trap t) := by
  have hrs : s.readable (if op = 7 then [b, c, a] else [b, c]) := by
    split
    · exact hg
    · exact fun n hn => hg n (List.mem_append_left [a] hn)
  unfold atomicBody
  rw [State.useG_after hrs]
  show (State.atomic _ o _ op _ _ _ >>= _) = _
  rw [State.atomic_error (State.after_begins hb x _) (e := .trap t)]
  · rfl
  · rw [State.after_g]
    exact State.check_error ((s.after_access x _ _).trans ha)

include hr

theorem raises_ld {size : BitVec 2} (hb : s.core.begins = true) (hg : s.readable [b])
    (ha : s.access (memAccess (s.g b) b (eaOf (s.g b) off) (2 ^ size.toNat)).load = .error (k, t)) :
    raises (.ld x o size a b off) s t :=
  scalarOp_trap hr (loadBody_trap (rs := []) hb hg ha)
theorem raises_ldz {size : BitVec 2} (hb : s.core.begins = true) (hg : s.readable [b])
    (ha : s.access (memAccess (s.g b) b (eaOf (s.g b) off) (2 ^ size.toNat)).load = .error (k, t)) :
    raises (.ldz x o size a b off) s t :=
  scalarOp_trap hr (loadBody_trap (rs := []) hb hg ha)
theorem raises_st {size : BitVec 2} (hg : s.readable [b, a])
    (ha : s.access (memAccess (s.g b) b (eaOf (s.g b) off) (2 ^ size.toNat)).store = .error (k, t)) :
    raises (.st x o size a b off) s t :=
  scalarOp_trap hr (storeBody_trap (rs := []) hg ha)
theorem raises_ldx {size : BitVec 2} (hb : s.core.begins = true) (hg : s.readable [b, c])
    (ha : s.access (indexAccess (s.g b) b (s.gint c) (2 ^ size.toNat) off).load = .error (k, t)) :
    raises (.ldx x o size a b c off) s t := by
  have hg' : s.readable [b] := fun n hn => hg n (List.mem_append_left [c] hn)
  refine scalarOp_trap hr ?_
  rw [State.useG_after hg]
  show loadBody _ o _ a (fun cap s => indexAccess cap b (s.gint c) (sizeOf2 size) off) b (s.after x [b, c]) = _
  refine loadBody_trap (k := k) hb hg' ?_
  rw [State.after_gint]
  exact ha

theorem raises_stx {size : BitVec 2} (hg : s.readable [b, c, a])
    (ha : s.access (indexAccess (s.g b) b (s.gint c) (2 ^ size.toNat) off).store = .error (k, t)) :
    raises (.stx x o size a b c off) s t := by
  have hbc : s.readable [b, c] := fun n hn => hg n (List.mem_append_left [a] hn)
  have hba : s.readable [b, a] := fun n hn => hg n (by simp only [List.mem_cons] at hn ⊢; tauto)
  refine scalarOp_trap hr ?_
  rw [State.useG_after hbc]
  show storeBody o _ a (fun cap s => indexAccess cap b (s.gint c) (sizeOf2 size) off) b (s.after x [b, c]) = _
  refine storeBody_trap (k := k) hba ?_
  rw [State.after_gint]
  exact ha

theorem raises_ldk (hb : s.core.begins = true) (hg : s.readable [b])
    (ha : s.access (memAccess (s.g b) b (eaOf (s.g b) off) 16).load = .error (k, t)) : raises (.ldk x o a b off) s t := by
  refine scalarOp_trap hr ?_
  rw [State.readG_eq (State.readable_tookPfx hg), State.tookPfx_g]
  show (State.loadMem (s.after x [b]) o _ >>= _) = _
  rw [State.loadMem_trap (State.after_begins hb x _) ((s.after_access x _ _).trans ha)]
  rfl

theorem raises_stk (hg : s.readable [b, a])
    (ha : s.access ((memAccess (s.g b) b (eaOf (s.g b) off) 16).storeCap (s.g a).tag) = .error (k, t)) :
    raises (.stk x o a b off) s t := by
  refine scalarOp_trap hr ?_
  rw [State.useG_after hg]
  show State.storeMem (s.after x [b, a]) o (Access.storeCap (memAccess ((s.after x [b, a]).g b) b _ 16) _) _ _ = _
  rw [State.after_g, State.after_g]
  exact State.storeMem_trap ((s.after_access x _ _).trans ha)

theorem raises_stat {sz : BitVec 3} (hg : s.readable [b, a, c])
    (ha : s.access ((memAccess (s.g b) b (eaOf (s.g b) off) (timedSize sz)).storeCap (sz = 4 && (s.g a).tag)) = .error (k, t)) :
    raises (.stat x o sz a b c off) s t := by
  refine scalarOp_trap hr ?_
  rw [State.useG_after hg]
  show (State.check (s.after x [b, a, c]) (Access.storeCap (memAccess ((s.after x [b, a, c]).g b) b _ _) _) >>= _) = _
  rw [State.after_g, State.after_g, State.check_error ((s.after_access x _ _).trans ha)]
  rfl

theorem raises_ldnb {sz : BitVec 3} (hb : s.core.begins = true) (hg : s.readable [b, c])
    (ha : s.access (memAccess (s.g b) b (eaOf (s.g b) off) (timedSize sz)).load = .error (k, t)) :
    raises (.ldnb x o sz a b c off) s t := by
  refine scalarOp_trap hr ?_
  rw [State.useG_after hg]
  show (State.loadsAfter (s.after x [b, c]) o _ _ >>= _) = _
  rw [State.loadsAfter_error (State.after_begins hb x _) (e := .trap t)]
  · rfl
  · rw [State.after_g, State.check_error ((s.after_access x _ _).trans ha)]
    rfl

/-- Every atomic runs one body. -/
theorem raises_atomics {wide : Bool} (hb : s.core.begins = true) (hg : s.readable [b, c, a])
    (ha : s.access (memAccess (s.g b) b (eaOf (s.g b) off) (if wide then 8 else 4)).atomic = .error (k, t)) :
    raises (.aadd x o wide a b c off) s t ∧ raises (.aand x o wide a b c off) s t ∧ raises (.aor x o wide a b c off) s t
    ∧ raises (.axor x o wide a b c off) s t ∧ raises (.amin x o wide a b c off) s t ∧ raises (.amax x o wide a b c off) s t
    ∧ raises (.aswp x o wide a b c off) s t ∧ raises (.acas x o wide a b c off) s t := by
  have run (op : BitVec 3) : scalarOp x s (atomicBody op o wide a b c off) = .next (s.takeTrap t).done :=
    scalarOp_trap hr (atomicBody_trap hb hg ha)
  exact ⟨run 0, run 1, run 2, run 3, run 4, run 5, run 6, run 7⟩
end

end Sys2Proof.Machine

namespace Sys2Proof
open Sys2Proof.Machine

/-- Settles O12: the first six steps of R59 one after another, then each memory instruction at the access that it makes. -/
theorem checksComeInTheirOrder : Obligations.ChecksComeInTheirOrder := by
  unfold Obligations.ChecksComeInTheirOrder
  constructor
  · intro s a
    simp only [← Access.permitted_iff]
    refine ⟨State.fails_untagged, State.fails_sealed, fun ht hs hp => State.fails_permission ht hs (Bool.not_eq_true _ ▸ hp),
      State.fails_bounds, fun ht hs hp hb hx => ⟨State.fails_alignment ht hs hp hb hx, State.fails_sump ht hs hp hb hx, ?_⟩⟩
    intro va hal hov hr hxt
    exact State.fails_redirected ht hs hp hb hx hal hov hr hxt
  · intro s x o size sz wide a b c off k t hr hg hb
    have reads (rs : List RegNum) (h : ∀ n ∈ rs, n = a ∨ n = b ∨ n = c) : s.readable rs := fun n hn =>
      hg n (by simpa using h n hn)
    refine ⟨fun ha => ⟨raises_ld hr hb (reads _ (by simp)) ha, raises_ldz hr hb (reads _ (by simp)) ha⟩,
      raises_st hr (reads _ (by simp)), raises_ldx hr hb (reads _ (by simp)), raises_stx hr (reads _ (by simp)),
      raises_ldk hr hb (reads _ (by simp)), raises_stk hr (reads _ (by simp)),
      ⟨raises_stat hr (reads _ (by simp)), raises_ldnb hr hb (reads _ (by simp))⟩, raises_atomics hr hb (reads _ (by simp))⟩

end Sys2Proof
end

section
/-! SUPPORT. The frame of an instruction (R35, R48, R236, R293): what is scalar or vector, under which conditions it raises ILL
or PRIV, and what it raises where the registers that it reads first are poisoned. -/

namespace Sys2Proof.Machine
open Sys2Proof

/-! ## Reading a poisoned register -/

/-- The register is poisoned, and `t` is the fault that names it (R236). -/
structure State.CopiesG (s : State) (n : RegNum) (t : Trap) : Prop where
  nonzero : n ≠ 0
  poison  : s.core.gPois.getLsbD n.toNat = true
  names   : t = ⟨cCOPY, 0, BitVec.ofNat 64 (16 * n.toNat)⟩
structure State.CopiesV (s : State) (n : RegNum) (t : Trap) : Prop where
  poison  : s.core.vPois.getLsbD n.toNat = true
  names   : t = ⟨cCOPY, 0, BitVec.ofNat 64 (512 + 16 * n.toNat)⟩
structure State.CopiesP (s : State) (n : PredNum) (t : Trap) : Prop where
  nonzero : n ≠ 0
  poison  : s.core.pPois.getLsbD n.toNat = true
  names   : t = ⟨cCOPY, 0, BitVec.ofNat 64 (1024 + 16 * n.toNat)⟩

section
variable {s : State} {t : Trap}

theorem State.CopiesG.useG {n : RegNum} (h : s.CopiesG n t) (rs : List RegNum) : s.useG (n :: rs) = .error (.trap t) := by
  obtain ⟨h0, hp, rfl⟩ := h
  simp only [State.useG, copyTrap, trap, ne_eq, h0, not_false_eq_true, decide_true, hp, Bool.and_self, if_true]
  rw [show n.toNat * 16 + 0 * 512 = 16 * n.toNat by omega]
theorem State.CopiesG.readG {n : RegNum} (h : s.CopiesG n t) : s.readG n = .error (.trap t) := by
  unfold State.readG
  rw [h.useG]
  rfl
theorem State.CopiesV.useV {n : RegNum} (h : s.CopiesV n t) (rs : List RegNum) : s.useV (n :: rs) = .error (.trap t) := by
  obtain ⟨hp, rfl⟩ := h
  simp only [State.useV, copyTrap, trap, hp, if_true]
  rw [show n.toNat * 16 + 1 * 512 = 512 + 16 * n.toNat by omega]
theorem State.CopiesP.useP {n : PredNum} (h : s.CopiesP n t) (rs : List PredNum) : s.useP (n :: rs) = .error (.trap t) := by
  obtain ⟨h0, hp, rfl⟩ := h
  simp only [State.useP, copyTrap, trap, ne_eq, h0, not_false_eq_true, decide_true, hp, Bool.and_self, if_true]
  rw [show n.toNat * 16 + 2 * 512 = 1024 + 16 * n.toNat by omega]
theorem State.CopiesV.useVec {n a : RegNum} {x : Pfx} {rs : List RegNum} {keep : Bool} (h : s.CopiesV n t) :
    s.useVec x (n :: rs) a keep = .error (.trap t) := by
  unfold State.useVec
  rw [h.useV]
  rfl
theorem State.CopiesP.usePred {n a : PredNum} {x : Pfx} {rs : List PredNum} (h : s.CopiesP n t) :
    s.usePred x (n :: rs) a = .error (.trap t) := by
  unfold State.usePred
  rw [h.useP]
  rfl

theorem State.CopiesG.tookPfx {n : RegNum} (h : s.CopiesG n t) (x : Pfx) : (s.tookPfx x).CopiesG n t :=
  ⟨h.nonzero, (congrArg (fun m => m.getLsbD n.toNat) (s.tookPfx_core_gPois x)).trans h.poison, h.names⟩
theorem State.CopiesV.took {n : RegNum} (h : s.CopiesV n t) (rs : List RegNum) : (s.took rs).CopiesV n t :=
  ⟨(congrArg (fun m => m.getLsbD n.toNat) (s.took_core_vPois rs)).trans h.poison, h.names⟩
end

/-! ## Scalar instructions -/

/-- The instruction is a scalar one, with these conditions for ILL and PRIV (R35, R48). -/
def ScalarFrame (s : State) (x : Pfx) (ill priv : Bool) (i : Instr) : Prop :=
  ∃ body, exec i s = .next (s.jumpInstr ill priv x body)

/-- It is one whose body, where `p` holds, raises `t`. -/
def ScalarCopies (s : State) (x : Pfx) (ill priv : Bool) (p : Prop) (t : Trap) (i : Instr) : Prop :=
  ∃ body, exec i s = .next (s.jumpInstr ill priv x body) ∧ (p → body (s.tookPfx x) = .error (.trap t))

section
variable {s : State} {x : Pfx} {ill priv : Bool} {p : Prop} {t : Trap} {i : Instr}

theorem ScalarCopies.frame (h : ScalarCopies s x ill priv p t i) : ScalarFrame s x ill priv i := by
  obtain ⟨body, he, -⟩ := h
  exact ⟨body, he⟩

theorem ScalarFrame.raises_ill (h : ScalarFrame s x ill priv i) (hi : ill = true) : raises i s ⟨cILL, 0, 0⟩ := by
  obtain ⟨body, he⟩ := h
  subst hi
  exact he

theorem ScalarFrame.raises_priv (h : ScalarFrame s x ill priv i) (hi : ill = false) (hp : priv = true) : raises i s ⟨cPRIV, 0, 0⟩ := by
  obtain ⟨body, he⟩ := h
  subst hi hp
  exact he

/-- R35: with a false predicate no body runs. -/
theorem ScalarFrame.off (h : ScalarFrame s x ill priv i) (hi : ill = false) (hp : priv = false) (hx : x.p = true)
    (hr : s.readableP [x.pred]) (hf : (s.p x.pred).getLsbD 0 = x.neg) : exec i s = .next ((s.after x []).ends (s.next x)) := by
  obtain ⟨body, he⟩ := h
  have ht : s.tookPfx x = s.tookP [x.pred] := by simp only [State.tookPfx, hx, if_true]
  have hq : (s.tookPfx x).predicate x = false := by simpa [State.predicate, hx] using hf
  rw [he, hi, hp]
  unfold State.jumpInstr
  simp only [Bool.false_eq_true, if_false, hx, if_true, State.useP_eq hr]
  rw [← ht]
  show Host.Outcome.next (s.settleBody (if (s.tookPfx x).predicate x = true then _ else _)) = _
  rw [hq]
  show Host.Outcome.next ((s.tookPfx x).setPc ((s.tookPfx x).next x)).done = _
  rw [State.next_tookPfx]
  rfl

theorem ScalarFrame.copiesP (h : ScalarFrame s x ill priv i) (hi : ill = false) (hp : priv = false) (hx : x.p = true)
    (hc : s.CopiesP x.pred t) : raises i s t := by
  obtain ⟨body, he⟩ := h
  unfold raises
  rw [he, hi, hp]
  unfold State.jumpInstr
  simp only [Bool.false_eq_true, if_false, hx, if_true, hc.useP]
  rfl

theorem ScalarCopies.copies (h : ScalarCopies s x ill priv p t i) (hi : ill = false) (hp : priv = false) (hr : s.runs x) (hc : p) :
    raises i s t := by
  obtain ⟨body, he, hb⟩ := h
  unfold raises
  rw [he, hi, hp, State.jumpInstr_eq hr, hb hc]
  rfl

/-- What follows a body that raises a fault is not reached. -/
theorem copies_scalar {body : State → R State} (he : exec i s = .next (s.scalarInstr ill priv x body))
    (hb : p → body (s.tookPfx x) = .error (.trap t)) : ScalarCopies s x ill priv p t i :=
  ⟨_, he, fun hp => by rw [hb hp]; rfl⟩

/-! The registers that a body reads first: a list of them, one by `readG`, or one that holds a target. -/

theorem copies_useG {m : RegNum} {rs : List RegNum} {f : State → R State} (h : p → (s.tookPfx x).CopiesG m t)
    (he : exec i s = .next (s.scalarInstr ill priv x fun u => u.useG (m :: rs) >>= f)) : ScalarCopies s x ill priv p t i :=
  copies_scalar he fun hp => by rw [(h hp).useG]; rfl

theorem copies_readG {m : RegNum} {f : GReg × State → R State} (h : p → (s.tookPfx x).CopiesG m t)
    (he : exec i s = .next (s.scalarInstr ill priv x fun u => u.readG m >>= f)) : ScalarCopies s x ill priv p t i :=
  copies_scalar he fun hp => by rw [(h hp).readG]; rfl

theorem copies_jump_useG {m : RegNum} {rs : List RegNum} {f : State → R State} (h : p → (s.tookPfx x).CopiesG m t)
    (he : exec i s = .next (s.jumpInstr ill priv x fun u => u.useG (m :: rs) >>= f)) : ScalarCopies s x ill priv p t i :=
  ⟨_, he, fun hp => by rw [(h hp).useG]; rfl⟩

theorem copies_target {m : RegNum} {f : GReg × State → R State} (h : p → (s.tookPfx x).CopiesG m t)
    (he : exec i s = .next (s.jumpInstr ill priv x fun u => jumpTarget m u >>= f)) : ScalarCopies s x ill priv p t i :=
  ⟨_, he, fun hp => by unfold jumpTarget; rw [(h hp).readG]; rfl⟩
end

/-! ## Vector instructions -/

/-- The instruction is a vector one, which a culvert lacks (R293), and whose body, where `p` holds, raises `t`. -/
def VectorCopies (s : State) (x : Pfx) (p : Prop) (t : Trap) (i : Instr) : Prop :=
  ∃ body, exec i s = .next (s.vectorInstr s.onCulvert x body) ∧ (p → body s = .error (.trap t))

section
variable {s : State} {x : Pfx} {p : Prop} {t : Trap} {i : Instr}

theorem VectorCopies.raises_ill (h : VectorCopies s x p t i) (hc : s.onCulvert = true) : raises i s ⟨cILL, 0, 0⟩ := by
  obtain ⟨body, he, -⟩ := h
  unfold raises
  rw [he, hc]
  rfl

theorem VectorCopies.copies (h : VectorCopies s x p t i) (hc : s.onCulvert = false) (hp : p) : raises i s t := by
  obtain ⟨body, he, hb⟩ := h
  unfold raises
  rw [he]
  exact vectorOp_trap hc (hb hp)

theorem vector_useG {m : RegNum} {rs : List RegNum} {f : State → R State} (h : p → s.CopiesG m t)
    (he : exec i s = .next (s.vectorInstr s.onCulvert x fun u => u.useG (m :: rs) >>= f)) : VectorCopies s x p t i :=
  ⟨_, he, fun hp => by rw [(h hp).useG]; rfl⟩

theorem vector_useV {m : RegNum} {rs : List RegNum} {f : State → R State} (h : p → s.CopiesV m t)
    (he : exec i s = .next (s.vectorInstr s.onCulvert x fun u => u.useV (m :: rs) >>= f)) : VectorCopies s x p t i :=
  ⟨_, he, fun hp => by rw [(h hp).useV]; rfl⟩

theorem vector_useVec {m a : RegNum} {rs : List RegNum} {keep : Bool} {f : State → R State} (h : p → s.CopiesV m t)
    (he : exec i s = .next (s.vectorInstr s.onCulvert x fun u => u.useVec x (m :: rs) a keep >>= f)) : VectorCopies s x p t i :=
  ⟨_, he, fun hp => by rw [(h hp).useVec]; rfl⟩

theorem vector_useP {m : PredNum} {rs : List PredNum} {f : State → R State} (h : p → s.CopiesP m t)
    (he : exec i s = .next (s.vectorInstr s.onCulvert x fun u => u.useP (m :: rs) >>= f)) : VectorCopies s x p t i :=
  ⟨_, he, fun hp => by rw [(h hp).useP]; rfl⟩

theorem vector_usePred {m a : PredNum} {rs : List PredNum} {f : State → R State} (h : p → s.CopiesP m t)
    (he : exec i s = .next (s.vectorInstr s.onCulvert x fun u => u.usePred x (m :: rs) a >>= f)) : VectorCopies s x p t i :=
  ⟨_, he, fun hp => by rw [(h hp).usePred]; rfl⟩

/-- General registers that can be read, then vector registers of which the first is poisoned. -/
theorem vector_useG_useVec {gs : List RegNum} {m a : RegNum} {rs : List RegNum} {keep : Bool} {f : State → R State}
    (hg : p → s.readable gs) (h : p → s.CopiesV m t)
    (he : exec i s = .next (s.vectorInstr s.onCulvert x fun u => u.useG gs >>= fun w => w.useVec x (m :: rs) a keep >>= f)) :
    VectorCopies s x p t i :=
  ⟨_, he, fun hp => by
    rw [State.useG_eq (hg hp)]
    show ((s.took gs).useVec x (m :: rs) a keep >>= f) = _
    rw [((h hp).took gs).useVec]
    rfl⟩
end

end Sys2Proof.Machine
end

section
/-! SUPPORT. O42: what the instructions of each page read first, list by list, and the statement from their frames. -/

namespace Sys2Proof.Machine
open Sys2Proof

/-- The general registers of the operands are poisoned, and `t` names them. -/
structure Fields.CopyG (k : Fields) (s : State) (t : Trap) : Prop where
  a : s.CopiesG k.a t
  b : s.CopiesG k.b t
  c : s.CopiesG k.c t
/-- The vector registers of the operands are. -/
structure Fields.CopyV (k : Fields) (s : State) (t : Trap) : Prop where
  a : s.CopiesV k.a t
  b : s.CopiesV k.b t
  c : s.CopiesV k.c t
/-- The vector registers are, and the general registers can be read. -/
structure Fields.CopyVAlone (k : Fields) (s : State) (t : Trap) : Prop extends k.CopyV s t where
  general : s.readable [k.a, k.b, k.c]
/-- The predicate registers of the sources are. -/
structure Fields.CopyP (k : Fields) (s : State) (t : Trap) : Prop where
  q : s.CopiesP k.q t
  r : s.CopiesP k.r t

section
variable (s : State) (k : Fields) (t : Trap)

/-! ## Scalar instructions: the register that each reads first, and the frames alone where none is read -/

theorem Fields.reads_copies : ∀ i ∈ k.reads, ScalarCopies s k.x false false (k.CopyG s t) t i := by
  have a (h : k.CopyG s t) := h.a.tookPfx k.x
  have b (h : k.CopyG s t) := h.b.tookPfx k.x
  have c (h : k.CopyG s t) := h.c.tookPfx k.x
  simp only [Fields.reads, List.forall_mem_cons]
  exact
    ⟨copies_useG c rfl, copies_useG c rfl, copies_useG c rfl, copies_useG c rfl, copies_useG c rfl, copies_useG c rfl,
      copies_useG c rfl, copies_useG c rfl, copies_useG c rfl, copies_useG c rfl, copies_useG c rfl, copies_useG c rfl,
      copies_useG c rfl, copies_useG c rfl, copies_useG c rfl, copies_useG b rfl, copies_useG c rfl, copies_useG c rfl,
      copies_useG c rfl, copies_useG c rfl, copies_useG c rfl, copies_useG b rfl, copies_jump_useG a rfl,
      copies_jump_useG a rfl, copies_jump_useG a rfl, copies_jump_useG a rfl, copies_jump_useG a rfl, copies_jump_useG a rfl,
      copies_target a rfl, copies_target a rfl, copies_jump_useG a rfl, copies_readG b rfl, copies_readG b rfl,
      copies_useG b rfl, copies_readG b rfl, copies_useG b rfl, copies_useG b rfl, copies_useG b rfl, copies_useG b rfl,
      copies_useG b rfl, copies_useG b rfl, copies_useG b rfl, copies_useG b rfl, copies_useG b rfl, copies_useG b rfl,
      copies_useG b rfl, copies_useG b rfl, copies_useG b rfl, copies_useG c rfl, copies_useG c rfl, copies_useG c rfl,
      copies_useG c rfl, copies_useG c rfl, copies_useG c rfl, copies_useG c rfl, copies_useG b rfl, copies_useG b rfl,
      copies_useG b rfl, copies_useG b rfl, copies_useG b rfl, copies_useG c rfl, copies_useG a rfl, copies_useG c rfl,
      copies_useG c rfl, copies_useG a rfl, copies_useG c rfl, copies_useG c rfl, copies_useG c rfl, copies_useG c rfl,
      copies_useG c rfl, copies_useG c rfl, copies_useG b rfl, copies_useG c rfl, copies_useG b rfl, copies_useG c rfl,
      copies_useG b rfl, copies_useG b rfl, copies_useG c rfl, copies_useG c rfl, copies_useG c rfl, copies_useG c rfl,
      copies_useG c rfl, copies_useG b rfl, copies_useG c rfl, copies_useG c rfl, copies_useG c rfl, copies_useG c rfl,
      copies_useG c rfl, copies_useG b rfl, copies_useG b rfl, copies_useG b rfl, copies_useG c rfl, List.forall_mem_nil _⟩

theorem Fields.plain_frame : ∀ i ∈ k.plain, ScalarFrame s k.x false false i := by
  simp only [Fields.plain, List.forall_mem_cons]
  exact
    ⟨⟨_, rfl⟩, ⟨_, rfl⟩, ⟨_, rfl⟩, ⟨_, rfl⟩, ⟨_, rfl⟩, ⟨_, rfl⟩, List.forall_mem_nil _⟩

theorem Fields.matrix_frame : ∀ i ∈ k.matrix, ScalarFrame s k.x s.onCulvert false i := by
  simp only [Fields.matrix, List.forall_mem_cons]
  exact
    ⟨⟨_, rfl⟩, ⟨_, rfl⟩, ⟨_, rfl⟩, ⟨_, rfl⟩, ⟨_, rfl⟩, ⟨_, rfl⟩, ⟨_, rfl⟩, ⟨_, rfl⟩, ⟨_, rfl⟩, ⟨_, rfl⟩, List.forall_mem_nil _⟩

theorem Fields.ends_frame : ∀ i ∈ k.ends, ScalarFrame s k.x s.onCulvert false i := by
  simp only [Fields.ends, List.forall_mem_cons]
  exact
    ⟨⟨_, rfl⟩, ⟨_, rfl⟩, List.forall_mem_nil _⟩

theorem Fields.firmware_frame : ∀ i ∈ k.firmware, ScalarFrame s k.x s.onCulvert s.itemMode i := by
  simp only [Fields.firmware, List.forall_mem_cons]
  exact
    ⟨⟨_, rfl⟩, ⟨_, rfl⟩, ⟨_, rfl⟩, ⟨_, rfl⟩, ⟨_, rfl⟩, ⟨_, rfl⟩, List.forall_mem_nil _⟩

theorem Fields.ciphers_frame : ∀ i ∈ k.ciphers, ScalarFrame s k.x (!s.onSecurity) false i := by
  simp only [Fields.ciphers, List.forall_mem_cons]
  exact
    ⟨⟨_, rfl⟩, ⟨_, rfl⟩, ⟨_, rfl⟩, ⟨_, rfl⟩, ⟨_, rfl⟩, ⟨_, rfl⟩, List.forall_mem_nil _⟩

theorem Fields.corpses_copies : ∀ i ∈ k.corpses, ScalarCopies s k.x s.onCulvert false (k.CopyG s t) t i := by
  have a (h : k.CopyG s t) := h.a.tookPfx k.x
  have b (h : k.CopyG s t) := h.b.tookPfx k.x
  have c (h : k.CopyG s t) := h.c.tookPfx k.x
  simp only [Fields.corpses, List.forall_mem_cons]
  exact
    ⟨copies_readG b rfl, copies_useG c rfl, copies_useG c rfl, copies_useG c rfl, copies_useG a rfl,
      copies_useG b rfl, List.forall_mem_nil _⟩

/-- FREEZE reads its registers where it is not executed by a level-2 item. -/
theorem Fields.freeze_copies :
    ScalarCopies s k.x s.onCulvert false (k.CopyG s t ∧ s.core.ident.level ≠ 2) t (.freeze k.x k.a k.b k.c) :=
  copies_scalar rfl fun ⟨h, hl⟩ => by
    have hl : ¬(s.tookPfx k.x).core.ident.level = 2 := by rwa [State.tookPfx_core_ident]
    rw [if_neg hl, (h.c.tookPfx k.x).useG]
    rfl

theorem Fields.waits_copies : ∀ i ∈ k.waits, ScalarCopies s k.x s.onCulvert false (k.CopyG s t ∧ s.core.ident.level ≠ 2) t i := by
  have a (h : k.CopyG s t ∧ s.core.ident.level ≠ 2) := h.1.a.tookPfx k.x
  have b (h : k.CopyG s t ∧ s.core.ident.level ≠ 2) := h.1.b.tookPfx k.x
  simp only [Fields.waits, List.forall_mem_cons]
  exact
    ⟨copies_readG b rfl, copies_readG b rfl, copies_readG b rfl, copies_useG b rfl, copies_readG b rfl, k.freeze_copies s t,
      copies_readG a rfl, copies_useG b rfl, copies_useG a rfl, copies_useG a rfl, List.forall_mem_nil _⟩

end

/-! ## Engine commands: the start time of the three-operand form, or the block, is read first -/

theorem Core.begins_not_started {c : Core} (h : c.begins = true) (t : Tick) (n : Word) : c.wait ≠ some (.engine t (some n)) := by
  intro e
  rw [Core.begins, e] at h
  cases h
theorem Core.begins_not_delivered {c : Core} (h : c.begins = true) (blk : Block) : c.wait ≠ some (.room (some blk)) := by
  intro e
  rw [Core.begins, e] at h
  cases h
theorem Core.begins_not_aad {c : Core} (h : c.begins = true) (blk : Block) (r : Request) : c.wait ≠ some (.aad blk r) := by
  intro e
  rw [Core.begins, e] at h
  cases h
theorem State.tookPfx_begins {s : State} (h : s.core.begins = true) (x : Pfx) : (s.tookPfx x).core.begins = true :=
  State.after_begins h x []

section
variable {s : State} {b c : RegNum} {t : Trap} (hb : s.core.begins = true) (hB : s.CopiesG b t)
include hb hB

theorem State.readBlock_copies : s.readBlock b = .error (.trap t) := by
  unfold State.readBlock
  split
  · next blk hw => exact absurd hw (Core.begins_not_delivered hb blk)
  · next blk r hw => exact absurd hw (Core.begins_not_aad hb blk r)
  · rw [hB.useG]
    rfl

variable (hC : s.CopiesG c t)
include hC

/-- What a command that begins reads first. -/
theorem State.timeThenBlock_copies {β : Type} (o : Sys2Proof.Ordering) (f : State × Block → R β) :
    (if o.timed then s.useG [c] >>= fun u => u.readBlock b >>= f else (.ok s : R State) >>= fun u => u.readBlock b >>= f)
      = .error (.trap t) := by
  cases o.timed with
  | true =>
    rw [if_pos rfl, hC.useG]
    rfl
  | false =>
    show (s.readBlock b >>= f) = _
    rw [State.readBlock_copies hb hB]
    rfl

theorem cisternBody_copies (sh : Shape) (o : Sys2Proof.Ordering) (a : RegNum) : cisternBody sh o a b c s = .error (.trap t) := by
  unfold cisternBody
  split
  · next tm n hw => exact absurd hw (Core.begins_not_started hb tm n)
  · exact State.timeThenBlock_copies hb hB hC o _
end

section
variable (s : State) (k : Fields) (t : Trap)

theorem Fields.cpy_copies :
    ScalarCopies s k.x s.onCulvert false (k.CopyG s t ∧ s.core.begins = true) t (.cpy k.x k.o k.a k.b k.c) :=
  copies_scalar rfl fun ⟨h, hb⟩ => by
    have hb := State.tookPfx_begins hb k.x
    split
    · next tm n hw => exact absurd hw (Core.begins_not_started hb tm n)
    · exact State.timeThenBlock_copies hb (h.b.tookPfx k.x) (h.c.tookPfx k.x) k.o _

theorem Fields.engines_copies : ∀ i ∈ k.engines, ScalarCopies s k.x s.onCulvert false (k.CopyG s t ∧ s.core.begins = true) t i := by
  have a (h : k.CopyG s t ∧ s.core.begins = true) := h.1.a.tookPfx k.x
  have b (h : k.CopyG s t ∧ s.core.begins = true) := h.1.b.tookPfx k.x
  have cistern (sh : Shape) (h : k.CopyG s t ∧ s.core.begins = true) :
      cisternBody sh k.o k.a k.b k.c (s.tookPfx k.x) = .error (.trap t) :=
    cisternBody_copies (State.tookPfx_begins h.2 k.x) (b h) (h.1.c.tookPfx k.x) sh k.o k.a
  simp only [Fields.engines, List.forall_mem_cons]
  exact ⟨k.cpy_copies s t, copies_useG a rfl, copies_useG b rfl, copies_scalar rfl (cistern gatherShape),
    copies_scalar rfl (cistern reduceShape), copies_scalar rfl (cistern convertShape), List.forall_mem_nil _⟩

/-! ## Vector instructions -/

theorem Fields.vectors_copies : ∀ i ∈ k.vectors, VectorCopies s k.x (k.CopyV s t) t i := by
  have b (h : k.CopyV s t) := h.b
  have c (h : k.CopyV s t) := h.c
  simp only [Fields.vectors, List.forall_mem_cons]
  exact
    ⟨vector_useVec c rfl, vector_useVec c rfl, vector_useVec c rfl, vector_useVec c rfl, vector_useVec c rfl,
      vector_useVec c rfl, vector_useVec c rfl, vector_useVec c rfl, vector_useVec b rfl, vector_useVec b rfl,
      vector_useVec c rfl, vector_useVec b rfl, vector_useVec b rfl, vector_useVec b rfl, vector_useVec b rfl,
      vector_useVec b rfl, vector_useVec c rfl, vector_useVec c rfl, vector_useVec c rfl, vector_useVec b rfl,
      vector_useVec c rfl, vector_useVec c rfl, vector_useVec c rfl, vector_useV c rfl, vector_useV c rfl, vector_useV c rfl,
      vector_useVec c rfl, vector_useVec b rfl, vector_useVec b rfl, vector_useVec b rfl, vector_useVec b rfl,
      vector_useVec b rfl, vector_useVec b rfl, vector_useVec b rfl, vector_useVec c rfl, vector_useVec c rfl,
      vector_useVec c rfl, List.forall_mem_nil _⟩

theorem Fields.permutes_copies : ∀ i ∈ k.permutes, VectorCopies s k.x (k.CopyV s t) t i := by
  have b (h : k.CopyV s t) := h.b
  have c (h : k.CopyV s t) := h.c
  simp only [Fields.permutes, List.forall_mem_cons]
  exact
    ⟨vector_useVec c rfl, vector_useVec c rfl, vector_useVec c rfl, vector_useVec b rfl, vector_useVec b rfl,
      vector_useVec c rfl, vector_useVec b rfl, vector_useVec b rfl, vector_useVec b rfl, List.forall_mem_nil _⟩

theorem Fields.general_copies : ∀ i ∈ k.general, VectorCopies s k.x (k.CopyG s t) t i := by
  have b (h : k.CopyG s t) := h.b
  have c (h : k.CopyG s t) := h.c
  simp only [Fields.general, List.forall_mem_cons]
  exact
    ⟨vector_useG b rfl, vector_useG c rfl, vector_useG b rfl, List.forall_mem_nil _⟩

theorem Fields.memory_copies : ∀ i ∈ k.memory, VectorCopies s k.x (k.CopyG s t) t i := by
  have b (h : k.CopyG s t) := h.b
  simp only [Fields.memory, List.forall_mem_cons]
  exact
    ⟨vector_useG b rfl, vector_useG b rfl, vector_useG b rfl, vector_useG b rfl, vector_useG b rfl, vector_useG b rfl,
      vector_useG b rfl, vector_useG b rfl, vector_useG b rfl, vector_useG b rfl, List.forall_mem_nil _⟩

theorem Fields.moves_copiesG : ∀ i ∈ k.moves, VectorCopies s k.x (k.CopyG s t) t i := by
  have b (h : k.CopyG s t) := h.b
  have c (h : k.CopyG s t) := h.c
  simp only [Fields.moves, List.forall_mem_cons]
  exact
    ⟨vector_useG b rfl, vector_useG b rfl, vector_useG c rfl, vector_useG b rfl, List.forall_mem_nil _⟩

theorem Fields.flumes_copies : ∀ i ∈ k.flumes, VectorCopies s k.x (k.CopyG s t) t i := by
  have b (h : k.CopyG s t) := h.b
  simp only [Fields.flumes, List.forall_mem_cons]
  exact
    ⟨vector_useG b rfl, vector_useG b rfl, List.forall_mem_nil _⟩

theorem Fields.predicates_copies : ∀ i ∈ k.predicates, VectorCopies s k.x (k.CopyP s t) t i := by
  have q (h : k.CopyP s t) := h.q
  have r (h : k.CopyP s t) := h.r
  simp only [Fields.predicates, List.forall_mem_cons]
  exact
    ⟨vector_usePred r rfl, vector_usePred r rfl, vector_usePred r rfl, vector_usePred q rfl, vector_useP q rfl,
      vector_useP q rfl, vector_usePred q rfl, List.forall_mem_nil _⟩

/-- Where the general registers can be read, a move raises COPY of its vector register. -/
theorem Fields.moves_copiesV : ∀ i ∈ k.moves, VectorCopies s k.x (k.CopyVAlone s t) t i := by
  have a (h : k.CopyVAlone s t) := h.a
  have b (h : k.CopyVAlone s t) := h.b
  have c (h : k.CopyVAlone s t) := h.c
  have gs (rs : List RegNum) (hs : ∀ n ∈ rs, n ∈ [k.a, k.b, k.c]) (h : k.CopyVAlone s t) : s.readable rs :=
    fun n hn => h.general n (hs n hn)
  simp only [Fields.moves, List.forall_mem_cons]
  exact
    ⟨vector_useG_useVec (gs _ (by simp)) c rfl, vector_useG_useVec (gs _ (by simp)) c rfl,
      vector_useG_useVec (gs _ (by simp)) b rfl, vector_useG_useVec (gs _ (by simp)) a rfl, List.forall_mem_nil _⟩
end

end Sys2Proof.Machine
end

section
/-! SUPPORT. O42: the instructions outside the lists of pages, and the statement. -/

namespace Sys2Proof.Machine
open Sys2Proof

section
variable (s : State) (x : Pfx) (a b c n : RegNum) (t : Trap)

/-! ## Frames of the instructions with a reserved operand, or with a privilege of their own -/

theorem twait_copies : ScalarCopies s x false false (s.CopiesG a t) t (.twait x a) :=
  copies_readG (fun h => h.tookPfx x) rfl

theorem shifts_copies (imm : Word) : ∀ i ∈ [Instr.shli x a c imm, .shri x a c imm, .sari x a c imm],
    ScalarCopies s x (countIll imm) false (s.CopiesG c t) t i := by
  have hc (h : s.CopiesG c t) := h.tookPfx x
  simp only [List.forall_mem_cons]
  exact ⟨copies_useG hc rfl, copies_useG hc rfl, copies_useG hc rfl, List.forall_mem_nil _⟩

theorem kget_copies (j : BitVec 4) : ScalarCopies s x (9 ≤ j.toNat) false (s.CopiesG c t) t (.kget x a c j) :=
  copies_useG (fun h => h.tookPfx x) rfl

theorem mprod_copies (m : BitVec 2) : ScalarCopies s x (s.onCulvert && a = 0) false (s.CopiesG a t) t (.mprod x m a) :=
  copies_useG (fun h => h.tookPfx x) rfl

/-- The instructions of the matrix unit that read a general register. -/
theorem matrixReads_copies (m : BitVec 2) (z : BitVec 3) :
    ∀ i ∈ [Instr.mfmt x n, .mring x m n n, .mdrain x z n m, .mrst x n], ScalarCopies s x s.onCulvert false (s.CopiesG n t) t i := by
  have hn (h : s.CopiesG n t) := h.tookPfx x
  simp only [List.forall_mem_cons]
  exact ⟨copies_useG hn rfl, copies_useG hn rfl, copies_useG hn rfl, copies_useG hn rfl, List.forall_mem_nil _⟩

theorem fence_frame (o : Sys2Proof.Ordering) : ScalarFrame s x (o.ord = 0) false (.fence x o) := ⟨_, rfl⟩
theorem pushs_frame : ScalarFrame s x (rangeIll a b) false (.pushs x a b) := ⟨_, rfl⟩
theorem pops_frame : ScalarFrame s x (rangeIll a b) false (.pops x a b) := ⟨_, rfl⟩
theorem rdid_frame (j : BitVec 4) : ScalarFrame s x (14 ≤ j.toNat) false (.rdid x a j) := ⟨_, rfl⟩
theorem csrr_frame (m : Word) : ScalarFrame s x (csrIll m false) (csrPriv s m false) (.csrr x a m) := ⟨_, rfl⟩
theorem csrWrites_frame (m : Word) : ∀ i ∈ [Instr.csrw x a c m, .csrs x a c m, .csrc x a c m],
    ScalarFrame s x (csrIll m true) (csrPriv s m true) i := by
  simp only [List.forall_mem_cons]
  exact ⟨⟨_, rfl⟩, ⟨_, rfl⟩, ⟨_, rfl⟩, List.forall_mem_nil _⟩
theorem tdead_frame (j : BitVec 4) : ScalarFrame s x (s.onCulvert || 6 ≤ j.toNat % 8) false (.tdead x a j) := ⟨_, rfl⟩
theorem exq_frame (j : BitVec 4) : ScalarFrame s x (s.onCulvert || 12 ≤ j.toNat) false (.exq x a j) := ⟨_, rfl⟩
theorem wfi_frame : ScalarFrame s x false s.itemMode (.wfi x) := ⟨_, rfl⟩
theorem eret_frame : ScalarFrame s x s.onCulvert (s.itemMode && !s.core.handler) (.eret x) := ⟨_, rfl⟩
theorem ownr_frame : ScalarFrame s x s.onCulvert (!s.onSecurity) (.ownr x a b c) := ⟨_, rfl⟩

/-- Vector instructions of memory and of flumes that read a vector register, where their general registers can be read. -/
theorem vectorStores_copies (o : Sys2Proof.Ordering) (w : ITy) (imm : Word) :
    ∀ i ∈ [Instr.vst x o w n n imm, .vsts x o w n n n imm, .vstx x o w n n n, .vgth x o w n n n, .vsct x o w n n n,
      .vstat x o w n n n imm, .flume x n n], VectorCopies s x (s.CopiesV n t ∧ s.readable [n, n]) t i := by
  have v (h : s.CopiesV n t ∧ s.readable [n, n]) := h.1
  have g1 (h : s.CopiesV n t ∧ s.readable [n, n]) : s.readable [n] := fun m hm => h.2 m (List.mem_cons_of_mem _ hm)
  have g2 (h : s.CopiesV n t ∧ s.readable [n, n]) := h.2
  intro i hi
  have hi : i = .vst x o w n n imm ∨ i = .vsts x o w n n n imm ∨ i = .vstx x o w n n n ∨ i = .vgth x o w n n n
      ∨ i = .vsct x o w n n n ∨ i = .vstat x o w n n n imm ∨ i = .flume x n n := by simpa using hi
  rcases hi with rfl | rfl | rfl | rfl | rfl | rfl | rfl
  · exact vector_useG_useVec g1 v rfl
  · exact vector_useG_useVec g2 v rfl
  · exact vector_useG_useVec g2 v rfl
  · exact vector_useG_useVec g1 v rfl
  · exact vector_useG_useVec g1 v rfl
  · exact vector_useG_useVec g2 v rfl
  · exact vector_useG_useVec g1 v rfl
end
end Sys2Proof.Machine
end

section
/-! SUPPORT. O42: the statement, clause by clause. -/

namespace Sys2Proof.Machine
open Sys2Proof

/-- The instruction only moves the PC on (R35). -/
def Skips (s : State) (x : Pfx) (i : Instr) : Prop := exec i s = .next ((s.after x []).ends (s.next x))

section
variable {s : State} {k : Fields}

/-! ## What a culvert and the other agents lack (R48, R293) -/

theorem Fields.lacks_raise_ill (hc : s.onCulvert = true) :
    ∀ i ∈ k.vectors ++ k.general ++ k.predicates ++ k.memory ++ k.moves ++ k.permutes ++ k.matrix ++ k.engines ++ k.flumes ++ k.waits
      ++ k.ends ++ k.corpses ++ k.firmware
      ++ [.mprod k.x k.m 0, .tdead k.x k.a k.j, .exq k.x k.a k.j, .eret k.x, .ownr k.x k.a k.b k.c], raises i s ⟨cILL, 0, 0⟩ := by
  have vector {p : Prop} {i : Instr} (h : VectorCopies s k.x p ⟨cILL, 0, 0⟩ i) := h.raises_ill hc
  have reads {p : Prop} {i : Instr} (h : ScalarCopies s k.x s.onCulvert false p ⟨cILL, 0, 0⟩ i) := h.frame.raises_ill hc
  have scalar {priv : Bool} {i : Instr} (h : ScalarFrame s k.x s.onCulvert priv i) := h.raises_ill hc
  simp only [List.forall_mem_append, List.forall_mem_cons, and_assoc]
  exact ⟨fun i hi => vector (k.vectors_copies s _ i hi), fun i hi => vector (k.general_copies s _ i hi),
    fun i hi => vector (k.predicates_copies s _ i hi), fun i hi => vector (k.memory_copies s _ i hi),
    fun i hi => vector (k.moves_copiesG s _ i hi), fun i hi => vector (k.permutes_copies s _ i hi),
    fun i hi => scalar (k.matrix_frame s i hi), fun i hi => reads (k.engines_copies s _ i hi),
    fun i hi => vector (k.flumes_copies s _ i hi), fun i hi => reads (k.waits_copies s _ i hi), fun i hi => scalar (k.ends_frame s i hi),
    fun i hi => reads (k.corpses_copies s _ i hi), fun i hi => scalar (k.firmware_frame s i hi),
    (mprod_copies s k.x 0 ⟨cILL, 0, 0⟩ k.m).frame.raises_ill (by rw [hc]; rfl), (tdead_frame s k.x k.a k.j).raises_ill (by rw [hc]; rfl),
    (exq_frame s k.x k.a k.j).raises_ill (by rw [hc]; rfl), scalar (eret_frame s k.x), scalar (ownr_frame s k.x k.a k.b k.c),
    List.forall_mem_nil _⟩

/-! ## A false predicate (R35) -/

section
variable (hx : k.x.p = true) (hr : s.readableP [k.x.pred]) (hf : (s.p k.x.pred).getLsbD 0 = k.x.neg)
include hx hr hf

theorem Fields.skips {ill priv : Bool} {i : Instr} (h : ScalarFrame s k.x ill priv i) (hi : ill = false) (hp : priv = false) :
    Skips s k.x i := h.off hi hp hx hr hf

theorem Fields.pages01_skip : ∀ i ∈ k.plain ++ k.reads ++ [.twait k.x k.a], Skips s k.x i := by
  have frame {i : Instr} (h : ScalarFrame s k.x false false i) := k.skips hx hr hf h rfl rfl
  simp only [List.forall_mem_append, List.forall_mem_cons, and_assoc]
  exact ⟨fun i hi => frame (k.plain_frame s i hi), fun i hi => frame (k.reads_copies s ⟨cILL, 0, 0⟩ i hi).frame,
    frame (twait_copies s k.x k.a ⟨cILL, 0, 0⟩).frame, List.forall_mem_nil _⟩

theorem Fields.shifts_skip (hn : k.imm.toNat < 64) :
    ∀ i ∈ [Instr.shli k.x k.a k.c k.imm, .shri k.x k.a k.c k.imm, .sari k.x k.a k.c k.imm], Skips s k.x i := fun i hi =>
  k.skips hx hr hf (shifts_copies s k.x k.a k.c ⟨cILL, 0, 0⟩ k.imm i hi).frame (decide_eq_false (Nat.not_le.mpr hn)) rfl

theorem Fields.sumpMoves_skip (h1 : k.a.toNat ≤ k.b.toNat) (h2 : 29 < k.a.toNat ∨ k.b.toNat < 29) :
    Skips s k.x (.pushs k.x k.a k.b) ∧ Skips s k.x (.pops k.x k.a k.b) := by
  have hi : rangeIll k.a k.b = false := by
    simp only [rangeIll, Bool.or_eq_false_iff, Bool.and_eq_false_iff, decide_eq_false_iff_not]
    omega
  exact ⟨k.skips hx hr hf (pushs_frame s k.x k.a k.b) hi rfl, k.skips hx hr hf (pops_frame s k.x k.a k.b) hi rfl⟩

theorem Fields.csrs_skip : ∀ n ∈ [(0x001 : Word), 0x010, 0x011, 0x013, 0x020, 0x021, 0x050],
    Skips s k.x (.csrr k.x k.a n) ∧ Skips s k.x (.csrw k.x k.a k.c n) ∧ Skips s k.x (.csrs k.x k.a k.c n)
      ∧ Skips s k.x (.csrc k.x k.a k.c n) := by
  intro n hn
  have hi : ∀ n ∈ [(0x001 : Word), 0x010, 0x011, 0x013, 0x020, 0x021, 0x050], ∀ w,
      csrIll n w = false ∧ n ≠ 0x030 ∧ n ≠ 0x040 := by
    simp [csrIll, csrKnown]
  have ill (w : Bool) : csrIll n w = false := (hi n hn w).1
  have priv (w : Bool) : csrPriv s n w = false := by
    obtain ⟨-, h30, h40⟩ := hi n hn w
    simp only [csrPriv, h30, h40, decide_false, Bool.and_false, Bool.or_self]
  have writes (i : Instr) (h : i ∈ [Instr.csrw k.x k.a k.c n, .csrs k.x k.a k.c n, .csrc k.x k.a k.c n]) : Skips s k.x i :=
    k.skips hx hr hf (csrWrites_frame s k.x k.a k.c n i h) (ill true) (priv true)
  exact ⟨k.skips hx hr hf (csrr_frame s k.x k.a n) (ill false) (priv false), writes _ (by simp), writes _ (by simp), writes _ (by simp)⟩

theorem Fields.pages456_skip (hc : s.onCulvert = false) :
    ∀ i ∈ k.matrix ++ k.engines ++ k.waits ++ k.ends ++ k.corpses ++ [.mprod k.x k.m k.a], Skips s k.x i := by
  have frame {i : Instr} (h : ScalarFrame s k.x s.onCulvert false i) := k.skips hx hr hf h hc rfl
  have reads {p : Prop} {i : Instr} (h : ScalarCopies s k.x s.onCulvert false p ⟨cILL, 0, 0⟩ i) := frame h.frame
  simp only [List.forall_mem_append, List.forall_mem_cons, and_assoc]
  exact ⟨fun i hi => frame (k.matrix_frame s i hi), fun i hi => reads (k.engines_copies s _ i hi),
    fun i hi => reads (k.waits_copies s _ i hi), fun i hi => frame (k.ends_frame s i hi), fun i hi => reads (k.corpses_copies s _ i hi),
    k.skips hx hr hf (mprod_copies s k.x k.a ⟨cILL, 0, 0⟩ k.m).frame (by rw [hc]; rfl) rfl, List.forall_mem_nil _⟩

theorem Fields.selectors_skip (hc : s.onCulvert = false) :
    (k.j.toNat % 8 < 6 → Skips s k.x (.tdead k.x k.a k.j)) ∧ (k.j.toNat < 12 → Skips s k.x (.exq k.x k.a k.j)) :=
  ⟨fun h => k.skips hx hr hf (tdead_frame s k.x k.a k.j) (by rw [hc]; exact decide_eq_false (Nat.not_le.mpr h)) rfl,
   fun h => k.skips hx hr hf (exq_frame s k.x k.a k.j) (by rw [hc]; exact decide_eq_false (Nat.not_le.mpr h)) rfl⟩

theorem Fields.firmware_skip (hc : s.onCulvert = false) (hm : s.itemMode = false) :
    ∀ i ∈ k.firmware ++ [.wfi k.x, .eret k.x], Skips s k.x i := by
  simp only [List.forall_mem_append, List.forall_mem_cons]
  exact ⟨fun i hi => k.skips hx hr hf (k.firmware_frame s i hi) hc hm, k.skips hx hr hf (wfi_frame s k.x) rfl hm,
    k.skips hx hr hf (eret_frame s k.x) hc (by rw [hm]; rfl), List.forall_mem_nil _⟩

theorem Fields.security_skip (hc : s.onCulvert = false) (hs : s.onSecurity = true) :
    ∀ i ∈ k.ciphers ++ [.ownr k.x k.a k.b k.c], Skips s k.x i := by
  simp only [List.forall_mem_append, List.forall_mem_cons]
  exact ⟨fun i hi => k.skips hx hr hf (k.ciphers_frame s i hi) (by rw [hs]; rfl) rfl,
    k.skips hx hr hf (ownr_frame s k.x k.a k.b k.c) hc (by rw [hs]; rfl), List.forall_mem_nil _⟩
end

/-! ## Poisoned registers (R236) -/

section
variable {n : RegNum} {t : Trap} (hn : s.CopiesG n t) (ha : k.a = n) (hb : k.b = n) (hc : k.c = n)
include hn ha hb hc

theorem Fields.copyG : k.CopyG s t := ⟨ha ▸ hn, hb ▸ hn, hc ▸ hn⟩

theorem Fields.scalars_copy (hr : s.runs k.x) :
    (∀ i ∈ k.reads ++ [.twait k.x n], raises i s t)
    ∧ (k.imm.toNat < 64 → raises (.shli k.x n n k.imm) s t ∧ raises (.shri k.x n n k.imm) s t ∧ raises (.sari k.x n n k.imm) s t)
    ∧ (k.j.toNat < 9 → raises (.kget k.x n n k.j) s t) := by
  have h := k.copyG hn ha hb hc
  refine ⟨?_, fun hi => ?_, fun hj => ?_⟩
  · simp only [List.forall_mem_append, List.forall_mem_cons]
    exact ⟨fun i hi => (k.reads_copies s t i hi).copies rfl rfl hr h, (twait_copies s k.x n t).copies rfl rfl hr hn, List.forall_mem_nil _⟩
  · have shift (i : Instr) (hm : i ∈ [Instr.shli k.x n n k.imm, .shri k.x n n k.imm, .sari k.x n n k.imm]) : raises i s t :=
      (shifts_copies s k.x n n t k.imm i hm).copies (decide_eq_false (Nat.not_le.mpr hi)) rfl hr hn
    exact ⟨shift _ (by simp), shift _ (by simp), shift _ (by simp)⟩
  · exact (kget_copies s k.x n n t k.j).copies (decide_eq_false (Nat.not_le.mpr hj)) rfl hr hn

theorem Fields.pages456_copy (hr : s.runs k.x) (hcu : s.onCulvert = false) :
    (∀ i ∈ [Instr.mfmt k.x n, .mring k.x k.m n n, .mdrain k.x k.z n k.m, .mrst k.x n, .mprod k.x k.m n], raises i s t)
    ∧ (s.core.begins = true → s.core.ident.level ≠ 2 → ∀ i ∈ k.engines ++ k.waits ++ k.corpses, raises i s t) := by
  have h := k.copyG hn ha hb hc
  refine ⟨?_, fun hbg hl => ?_⟩
  · intro i hi
    rcases List.mem_append.mp (show i ∈ [Instr.mfmt k.x n, .mring k.x k.m n n, .mdrain k.x k.z n k.m, .mrst k.x n]
      ++ [.mprod k.x k.m n] from hi) with hi | hi
    · exact (matrixReads_copies s k.x n t k.m k.z i hi).copies hcu rfl hr hn
    · rw [List.mem_singleton.mp hi]
      exact (mprod_copies s k.x n t k.m).copies (by rw [hcu]; rfl) rfl hr hn
  · simp only [List.forall_mem_append, and_assoc]
    exact ⟨fun i hi => (k.engines_copies s t i hi).copies hcu rfl hr ⟨h, hbg⟩,
      fun i hi => (k.waits_copies s t i hi).copies hcu rfl hr ⟨h, hl⟩,
      fun i hi => (k.corpses_copies s t i hi).copies hcu rfl hr h⟩

theorem Fields.vectors_copyG (hcu : s.onCulvert = false) : ∀ i ∈ k.general ++ k.memory ++ k.moves ++ k.flumes, raises i s t := by
  have h := k.copyG hn ha hb hc
  simp only [List.forall_mem_append, and_assoc]
  exact ⟨fun i hi => (k.general_copies s t i hi).copies hcu h, fun i hi => (k.memory_copies s t i hi).copies hcu h,
    fun i hi => (k.moves_copiesG s t i hi).copies hcu h, fun i hi => (k.flumes_copies s t i hi).copies hcu h⟩
end

theorem Fields.vectors_copyV {n : RegNum} {t : Trap} (hn : s.CopiesV n t) (hg : s.readable [n]) (ha : k.a = n) (hb : k.b = n)
    (hc : k.c = n) (hcu : s.onCulvert = false) :
    ∀ i ∈ k.vectors ++ k.moves ++ k.permutes ++ [.vst k.x k.o k.i n n k.imm, .vsts k.x k.o k.i n n n k.imm, .vstx k.x k.o k.i n n n,
      .vgth k.x k.o k.i n n n, .vsct k.x k.o k.i n n n, .vstat k.x k.o k.i n n n k.imm, .flume k.x n n], raises i s t := by
  have h : k.CopyV s t := ⟨ha ▸ hn, hb ▸ hn, hc ▸ hn⟩
  have hg3 : s.readable [k.a, k.b, k.c] := by
    rw [ha, hb, hc]
    exact fun m hm => hg m (by simpa using hm)
  have hg2 : s.readable [n, n] := fun m hm => hg m (by simpa using hm)
  rw [List.forall_mem_append, List.forall_mem_append, List.forall_mem_append, and_assoc, and_assoc]
  exact ⟨fun i hi => (k.vectors_copies s t i hi).copies hcu h, fun i hi => (k.moves_copiesV s t i hi).copies hcu ⟨h, hg3⟩,
    fun i hi => (k.permutes_copies s t i hi).copies hcu h,
    fun i hi => (vectorStores_copies s k.x n t k.o k.i k.imm i hi).copies hcu ⟨hn, hg2⟩⟩

theorem Fields.pages01_copyP {t : Trap} (hx : k.x.p = true) (hn : s.CopiesP k.x.pred t) :
    ∀ i ∈ k.plain ++ k.reads ++ [.twait k.x k.a], raises i s t := by
  simp only [List.forall_mem_append, List.forall_mem_cons, and_assoc]
  exact ⟨fun i hi => (k.plain_frame s i hi).copiesP rfl rfl hx hn, fun i hi => (k.reads_copies s t i hi).frame.copiesP rfl rfl hx hn,
    (twait_copies s k.x k.a t).frame.copiesP rfl rfl hx hn, List.forall_mem_nil _⟩
end

end Sys2Proof.Machine

namespace Sys2Proof
open Sys2Proof.Machine

/-- Settles O42: each clause is the frame of the instructions of its lists. -/
theorem whoMayExecuteWhat : Obligations.WhoMayExecuteWhat := by
  unfold Obligations.WhoMayExecuteWhat
  intro s k
  refine ⟨k.lacks_raise_ill, fun hs i hi => (k.ciphers_frame s i hi).raises_ill (by rw [hs]; rfl), (wfi_frame s k.x).raises_priv rfl,
    fun hm hc i hi => (k.firmware_frame s i hi).raises_priv hc hm,
    fun hm hc hh => (eret_frame s k.x).raises_priv hc (by rw [hm, hh]; rfl),
    fun hs hc => (ownr_frame s k.x k.a k.b k.c).raises_priv hc (by rw [hs]; rfl), fun hx hr hf => ?_, fun n h0 hp ha hb hc => ?_,
    fun n hp hg ha hb hc => k.vectors_copyV ⟨hp, rfl⟩ hg ha hb hc, fun n h0 hp => ⟨fun hx hn => ?_, fun hq hr hc i hi => ?_⟩⟩
  · exact ⟨k.pages01_skip hx hr hf, k.shifts_skip hx hr hf,
      fun ho => k.skips hx hr hf (fence_frame s k.x k.o) (decide_eq_false ho) rfl, k.sumpMoves_skip hx hr hf,
      fun hj => k.skips hx hr hf (rdid_frame s k.x k.a k.j) (decide_eq_false (Nat.not_le.mpr hj)) rfl,
      fun hj => k.skips hx hr hf (kget_copies s k.x k.a k.c ⟨cILL, 0, 0⟩ k.j).frame (decide_eq_false (Nat.not_le.mpr hj)) rfl,
      k.csrs_skip hx hr hf, fun hc => ⟨k.pages456_skip hx hr hf hc, (k.selectors_skip hx hr hf hc).1, (k.selectors_skip hx hr hf hc).2,
      k.firmware_skip hx hr hf hc, k.security_skip hx hr hf hc⟩⟩
  · have hn : s.CopiesG n ⟨cCOPY, 0, BitVec.ofNat 64 (16 * n.toNat)⟩ := ⟨h0, hp, rfl⟩
    refine ⟨fun hr => ?_, k.vectors_copyG hn ha hb hc⟩
    obtain ⟨reads, shifts, fields⟩ := k.scalars_copy hn ha hb hc hr
    exact ⟨reads, shifts, fields, k.pages456_copy hn ha hb hc hr⟩
  · subst hn
    exact k.pages01_copyP hx ⟨h0, hp, rfl⟩
  · subst hr
    have h : s.CopiesP k.r ⟨cCOPY, 0, BitVec.ofNat 64 (1024 + 16 * k.r.toNat)⟩ := ⟨h0, hp, rfl⟩
    exact (k.predicates_copies s _ i hi).copies hc ⟨hq ▸ h, h⟩

end Sys2Proof
end

section
/-! SUPPORT. O40: the state after reset (R68, R211, R227, R313, R344, R392). -/

namespace Sys2Proof.Machine

/-- R68: after reset the CSRs of every agent hold their reset values. -/
theorem State.agent_reset_csr (a : AgentId) : (State.reset.agent a).csr = .reset := by
  cases a <;> rfl

theorem natOf_replicate_zero (n : Nat) : natOf (List.replicate n (0 : Byte)) = 0 := by
  induction n with
  | zero => rfl
  | succ n ih => rw [List.replicate_succ, natOf, ih]; rfl

/-- R344: no register of BAR0 holds anything after reset, and the journal window shows no entry. -/
theorem State.barRead_reset (off n : Nat) : State.reset.barRead 0 off n = 0 := by
  have window : natOf (((State.reset.jentry 0).drop (off - 0x0C0)).take 8) = 0 := by
    have e : State.reset.jentry 0 = List.replicate 64 0 := rfl
    rw [e, List.drop_replicate, List.take_replicate, natOf_replicate_zero]
  unfold State.barRead
  dsimp only
  split
  · rfl
  · split
    case h_17 =>
      rw [window]
      exact ite_self 0
    all_goals rfl

end Sys2Proof.Machine

namespace Sys2Proof
open Sys2Proof.Machine

/-- Settles O40: each clause evaluates in the state after reset. -/
theorem resetLeavesTheSpecifiedState : Obligations.ResetLeavesTheSpecifiedState := by
  unfold Obligations.ResetLeavesTheSpecifiedState
  exact ⟨State.reset_mem_wf, ⟨rfl, rfl, rfl, rfl⟩, by decide, State.agent_reset_csr, fun c => ⟨rfl, rfl, rfl, rfl, rfl⟩,
    State.barRead_reset, fun n => rfl, rfl, rfl, rfl, rfl, rfl, fun l => ⟨rfl, rfl⟩⟩

end Sys2Proof
end

section
/-! SUPPORT. O18: the CSRs (R68 to R71), and the instructions that read and write them (R117). -/

namespace Sys2Proof.Machine

/-! ## What a CSR takes (R68 to R70) -/

theorem csrKnown_iff (n : Word) :
    csrKnown n = true ↔ n ∈ [(0x001 : Word), 0x010, 0x011, 0x012, 0x013, 0x020, 0x021, 0x030, 0x040, 0x050] := by
  simp [csrKnown, or_assoc]

/-- R69, R70: a write reaches the bits of the mask at its address; TREC takes none. -/
theorem Csrs.get_set_same (r : Csrs) {n : Word} (hn : csrKnown n = true) (h12 : n ≠ 0x012) (v : Word) :
    (r.set n v).get n = (r.get n &&& ~~~(csrMask n)) ||| (v &&& csrMask n) := by
  rw [csrKnown_iff] at hn
  revert h12
  fin_cases hn
  all_goals simp [Csrs.get, Csrs.set]

theorem Csrs.get_set_other (r : Csrs) {n m : Word} (hn : csrKnown n = true) (hm : csrKnown m = true) (h : m ≠ n) (v : Word) :
    (r.set n v).get m = r.get m := by
  rw [csrKnown_iff] at hn hm
  revert h
  fin_cases hn <;> fin_cases hm
  all_goals simp [Csrs.get, Csrs.set]

/-- A register that holds no bit outside a mask holds none after those bits have been written. -/
theorem outside_of_masked (w v m : Word) : ((w &&& ~~~m) ||| (v &&& m)) &&& ~~~m = w &&& ~~~m := by
  ext i hi
  simp
  grind

theorem Csrs.set_outside (r : Csrs) {n m : Word} (hn : csrKnown n = true) (hm : csrKnown m = true) (h12 : n ≠ 0x012) (v : Word)
    (h : r.get m &&& ~~~(csrMask m) = 0) : (r.set n v).get m &&& ~~~(csrMask m) = 0 := by
  by_cases e : m = n
  · subst e
    rw [r.get_set_same hm h12, outside_of_masked, h]
  · rw [r.get_set_other hn hm e, h]

/-! ## The instructions (R71, R117, R118) -/

/-- A scalar instruction that may be executed, has its effect, and whose body answers a state. -/
theorem exec_scalar_ok {i : Instr} {s t : State} {x : Pfx} {ill priv : Bool} {body : State → R State}
    (he : exec i s = .next (s.scalarInstr ill priv x body)) (hi : ill = false) (hp : priv = false) (hr : s.runs x)
    (hb : body (s.tookPfx x) = .ok t) : exec i s = .next (t.ends (s.next x)) := by
  subst hi hp
  exact he.trans (scalarOp_ok hr hb)

section
variable {s : State} {x : Pfx} {a c : RegNum} {n : Word}

theorem csrIll_known (hk : csrKnown n = true) (h12 : n ≠ 0x012) (w : Bool) : csrIll n w = false := by
  rw [csrIll, hk, decide_eq_false h12, Bool.and_false]; rfl

/-- R118: only an access to MSTAT can wait, for drains that are queued. -/
theorem State.csrWait_free (h : n = 0x050 → ∀ q ∈ s.core.mx.queue, ∀ k d f g, q ≠ .mdrain k d f g) : s.csrWait n = .ok () := by
  unfold State.csrWait
  rw [if_neg]
  simp only [Bool.and_eq_true, decide_eq_true_eq, List.any_eq_true, not_and, not_exists]
  intro hn q hq hm
  have := h hn q hq
  split at hm
  · exact this _ _ _ _ rfl
  · exact Bool.false_ne_true hm

theorem setWidth_intReg (v : Word) : (intReg v).bits.setWidth 64 = v := by
  simp [intReg, BitVec.setWidth_setWidth_of_le]

/-- A CSR instruction that has its effect reads the old value, then writes what `f` makes of it and of C. -/
theorem csrBody_ok (f : Word → Word → Word) (hr : s.readable [c]) (h12 : n ≠ 0x012)
    (hw : n = 0x050 → ∀ q ∈ s.core.mx.queue, ∀ k d f g, q ≠ .mdrain k d f g) :
    csrBody f a c n (s.tookPfx x)
      = .ok (((s.after x [c]).setCsr n (f (s.core.csr.get n) (s.gint c))).setInt a (s.core.csr.get n)) := by
  have hq : (s.after x [c]).csrWait n = .ok () := State.csrWait_free (by simpa [State.after] using hw)
  unfold csrBody
  rw [State.useG_after hr]
  show ((s.after x [c]).csrWait n >>= fun _ => _) = _
  rw [hq]
  show Except.ok _ = _
  have ho : csrOld (s.after x [c]) n = intReg (s.core.csr.get n) := by
    rw [csrOld, if_neg h12]
    simp [State.after]
  rw [ho, setWidth_intReg]
  simp [State.after, State.setInt]

theorem csrr_ok (hi : csrIll n false = false) (hp : csrPriv s n false = false) (hr : s.runs x)
    (hw : n = 0x050 → ∀ q ∈ s.core.mx.queue, ∀ k d f g, q ≠ .mdrain k d f g) :
    writesReg (.csrr x a n) s x [] a (csrOld s n) := by
  have hq : (s.tookPfx x).csrWait n = .ok () := State.csrWait_free (by simpa using hw)
  refine exec_scalar_ok rfl hi hp hr (?_ : ((s.tookPfx x).csrWait n >>= fun _ => _) = _)
  rw [hq]
  show Except.ok _ = _
  simp [csrOld, State.after, State.took]
end

end Sys2Proof.Machine

namespace Sys2Proof
open Sys2Proof.Machine

/-- Settles O18: the bits that each CSR takes, and of each instruction when it is refused and what it writes. -/
theorem csrAccessesReadThenWrite : Obligations.CsrAccessesReadThenWrite := by
  unfold Obligations.CsrAccessesReadThenWrite
  refine ⟨fun s x a c n hr hc => ?_, fun r n m v hn hm h12 => ⟨fun e => r.get_set_other hn hm e v,
    r.set_outside (m := 0x001) hn rfl h12 v, r.set_outside (m := 0x050) hn rfl h12 v⟩, fun r v => ?_⟩
  · simp only [← csrKnown_iff]
    have writes {p : Instr → Prop} (h : ∀ i ∈ [Instr.csrw x a c n, .csrs x a c n, .csrc x a c n], p i) :
        p (.csrw x a c n) ∧ p (.csrs x a c n) ∧ p (.csrc x a c n) := by simpa using h
    have ill (h : csrIll n true = true) := writes fun i hi => (csrWrites_frame s x a c n i hi).raises_ill h
    have priv (h : csrIll n true = false) (hp : csrPriv s n true = true) :=
      writes fun i hi => (csrWrites_frame s x a c n i hi).raises_priv h hp
    refine ⟨fun hk => ?_, fun h12 => ?_, fun hm => ⟨fun h30 => ?_, fun h => ?_⟩, fun hk h12 hp hw => ?_, fun hk h12 hp hw => ?_⟩
    · have hi (w : Bool) : csrIll n w = true := by rw [csrIll, Bool.eq_false_iff.mpr hk]; rfl
      exact ⟨(csrr_frame s x a n).raises_ill (hi false), ill (hi true)⟩
    · subst h12
      obtain ⟨w, o, e⟩ := ill rfl
      exact ⟨w, o, e, csrr_ok rfl (by simp [csrPriv]) hr nofun⟩
    · subst h30
      exact (csrr_frame s x a _).raises_priv rfl (by simp [csrPriv, hm])
    · rcases h with rfl | rfl
      · exact priv rfl (by simp [csrPriv, hm])
      · exact priv rfl (by simp [csrPriv, hm])
    · have hq : csrPriv s n false = false := by
        rcases hp with hp | hp
        · rw [csrPriv, hp]; rfl
        · rw [csrPriv, decide_eq_false hp]; simp
      have h := csrr_ok (a := a) (csrIll_known hk h12 false) hq hr hw
      rwa [csrOld, if_neg h12] at h
    · have hq : csrPriv s n true = false := by
        rcases hp with hp | ⟨h30, h40⟩
        · rw [csrPriv, hp]; rfl
        · rw [csrPriv, decide_eq_false h30, decide_eq_false h40]; simp
      have does (f : Word → Word → Word) := csrBody_ok (x := x) (a := a) f hc h12 hw
      have hi := csrIll_known hk h12 true
      exact ⟨exec_scalar_ok rfl hi hq hr (does _), exec_scalar_ok rfl hi hq hr (does _), exec_scalar_ok rfl hi hq hr (does _)⟩
  · have takes {n : Word} (hn : csrKnown n = true) (h12 : n ≠ 0x012) := r.get_set_same hn h12 v
    refine ⟨takes rfl (by decide), takes rfl (by decide), takes rfl (by decide), ?_, takes rfl (by decide), takes rfl (by decide),
      takes rfl (by decide), takes rfl (by decide), takes rfl (by decide), takes rfl (by decide)⟩
    have h : r.set 0x012 v = r := rfl
    show (r.set 0x012 v).get 0x012 = (r.get 0x012 &&& ~~~0#64) ||| (v &&& 0#64)
    rw [h, BitVec.and_zero, BitVec.or_zero, BitVec.not_zero, BitVec.and_allOnes]

end Sys2Proof
end

section
/-! SUPPORT. Sets in rising order, and the lines of memory that a mapping takes over before it writes part of them (R400). -/

namespace Sys2Proof.Machine

/-! ## Sets in rising order -/

theorem setHas_iff {t : List Nat} (h : t.Pairwise (· < ·)) (i : Nat) : setHas t i = true ↔ i ∈ t := by
  induction t with
  | nil => simp [setHas]
  | cons k rest ih =>
    obtain ⟨hk, hr⟩ := List.pairwise_cons.mp h
    simp only [setHas, List.mem_cons]
    split_ifs with h1 h2
    · simp [h1]
    · have : i ∉ rest := fun hi => absurd (hk i hi) (by omega)
      simp [this, Ne.symm h1]
    · simp [ih hr, Ne.symm h1]

theorem mem_setAdd {t : List Nat} {i j : Nat} : j ∈ setAdd t i ↔ j = i ∨ j ∈ t := by
  induction t with
  | nil => simp [setAdd]
  | cons k rest ih =>
    simp only [setAdd]
    split_ifs with h1 h2
    · simp [h1]
    · simp
    · simp [ih, or_left_comm]

theorem setAdd_rising {t : List Nat} (h : t.Pairwise (· < ·)) (i : Nat) : (setAdd t i).Pairwise (· < ·) := by
  induction t with
  | nil => simp [setAdd]
  | cons k rest ih =>
    obtain ⟨hk, hr⟩ := List.pairwise_cons.mp h
    simp only [setAdd]
    split_ifs with h1 h2
    · exact h
    · exact List.pairwise_cons.mpr ⟨fun j hj => by
        rcases List.mem_cons.mp hj with rfl | hj
        · exact h2
        · exact h2.trans (hk j hj), h⟩
    · refine List.pairwise_cons.mpr ⟨fun j hj => ?_, ih hr⟩
      rcases mem_setAdd.mp hj with rfl | hj
      · omega
      · exact hk j hj

theorem setHas_setAdd {t : List Nat} (h : t.Pairwise (· < ·)) (i j : Nat) : setHas (setAdd t i) j = (decide (j = i) || setHas t j) := by
  rw [Bool.eq_iff_iff, setHas_iff (setAdd_rising h i), mem_setAdd, Bool.or_eq_true, decide_eq_true_eq, setHas_iff h]

theorem tagsClear_rising {t : List Nat} (h : t.Pairwise (· < ·)) (l n : Nat) : (tagsClear t l n).Pairwise (· < ·) :=
  h.filter _

/-- R58: the granules that a write of data touches lose their tags, and no others do. -/
theorem setHas_tagsClear {t : List Nat} (h : t.Pairwise (· < ·)) (l n g : Nat) :
    setHas (tagsClear t l n) g = (setHas t g && !decide (granLo l 16 ≤ g ∧ g < granHi l n 16)) := by
  rw [Bool.eq_iff_iff, setHas_iff (tagsClear_rising h l n), mem_tagsClear, Bool.and_eq_true, setHas_iff h]
  simp [imp_iff_not_or]

theorem memRead_congr {m m' : List Host.Cell} {l n : Nat} (h : ∀ j, l ≤ j ∧ j < l + n → memGet m j = memGet m' j) :
    memRead m l n = memRead m' l n := by
  induction n generalizing l with
  | zero => rfl
  | succ n ih => rw [memRead, memRead, h l (by omega), ih fun j hj => h j (by omega)]

/-! ## A line comes under another protection (R400) -/

section
variable {s : State} (key : Nat)

/-- A line that was written under the mapping's own protection reads as it stands. -/
theorem State.viewByte_own {l : Nat} (h : s.foreignLine key l = false) : s.viewByte key l = s.byteAt l := by
  unfold State.foreignLine at h
  unfold State.viewByte
  split
  · rfl
  · next k hk =>
    rw [hk] at h
    have : k = key := by simpa using h
    simp [this, sameCipher]

theorem memGet_write_viewBytes {m : List Host.Cell} (hm : Memory.wf m = true) (lo n l : Nat) :
    memGet (memWrite m lo (s.viewBytes key lo n)) l = if lo ≤ l ∧ l < lo + n then s.viewByte key l else memGet m l := by
  induction n generalizing m lo with
  | zero => rw [if_neg (by omega)]; rfl
  | succ n ih =>
    show memGet (memWrite (memPut m lo (s.viewByte key lo)) (lo + 1) _) l = _
    rw [ih (memPut_wf lo _ hm)]
    by_cases h : l = lo
    · subst h
      rw [if_neg (by omega), if_pos (by omega), memGet_put_same _ _ hm]
    · rw [memGet_put_other lo l _ hm h]
      exact if_congr (by omega) rfl rfl

theorem State.byteAt_takeLine (hm : Memory.wf s.mem = true) (line l : Nat) :
    (s.takeLine key line).byteAt l = if l / 64 = line then s.viewByte key l else s.byteAt l := by
  unfold State.takeLine State.byteAt
  dsimp only
  by_cases hf : s.foreignLine key (line * 64) = true
  · rw [if_pos hf, memGet_write_viewBytes key hm]
    exact if_congr (by omega) rfl rfl
  · rw [if_neg hf]
    split_ifs with hl
    · rw [State.viewByte_own key (l := l)]
      · rfl
      · subst hl
        simpa [State.foreignLine] using hf
    · rfl

theorem State.takeLine_lines (line : Nat) : (s.takeLine key line).lines = assocPut s.lines line key := by
  unfold State.takeLine
  split_ifs <;> rfl

theorem State.foreignLine_takeLine (line l : Nat) :
    (s.takeLine key line).foreignLine key l = (s.foreignLine key l && decide (l / 64 ≠ line)) := by
  unfold State.foreignLine
  rw [State.takeLine_lines]
  by_cases h : l / 64 = line
  · rw [h, assocGet_put_same]
    simp
  · rw [assocGet_put_other _ _ _ _ h]
    simp [h]

theorem State.tagAt_takeLine (ht : s.tags.Pairwise (· < ·)) (line l : Nat) :
    (s.takeLine key line).tagAt l = (s.tagAt l && !(decide (l / 64 = line) && s.foreignLine key l)) := by
  by_cases hl : l / 64 = line
  · have e : s.foreignLine key (line * 64) = s.foreignLine key l := by subst hl; simp [State.foreignLine]
    unfold State.takeLine State.tagAt
    dsimp only
    rw [e]
    split_ifs with hf
    · rw [setHas_tagsClear ht]
      have : granLo (line * 64) 16 ≤ l / 16 ∧ l / 16 < granHi (line * 64) 64 16 := by unfold granLo granHi; omega
      simp [this, hl, hf]
    · simp [hf]
  · unfold State.takeLine State.tagAt
    dsimp only
    split_ifs
    · rw [setHas_tagsClear ht]
      have : ¬(granLo (line * 64) 16 ≤ l / 16 ∧ l / 16 < granHi (line * 64) 64 16) := by unfold granLo granHi; omega
      simp [this, hl]
    · simp [hl]

theorem State.viewByte_takeLine (hm : Memory.wf s.mem = true) (line l : Nat) :
    (s.takeLine key line).viewByte key l = s.viewByte key l := by
  by_cases hl : l / 64 = line
  · have hf : (s.takeLine key line).foreignLine key l = false := by simp [State.foreignLine_takeLine, hl]
    rw [State.viewByte_own key hf, State.byteAt_takeLine key hm, if_pos hl]
  · have hlines : assocGet (s.takeLine key line).lines (l / 64) = assocGet s.lines (l / 64) := by
      rw [State.takeLine_lines, assocGet_put_other _ _ _ _ hl]
    have hbyte : ∀ j, j / 64 = l / 64 → memGet (s.takeLine key line).mem j = memGet s.mem j := fun j hj => by
      have := State.byteAt_takeLine key hm line j
      rwa [if_neg (hj ▸ hl)] at this
    unfold State.viewByte State.byteAt
    rw [hlines, hbyte l rfl, memRead_congr fun j hj => hbyte j (by omega)]

theorem State.takeLine_tags_rising (ht : s.tags.Pairwise (· < ·)) (line : Nat) : (s.takeLine key line).tags.Pairwise (· < ·) := by
  unfold State.takeLine
  dsimp only
  split_ifs
  · exact tagsClear_rising ht _ _
  · exact ht

/-- R400: what lines taken over read as: what the mapping read there, other lines being as they were. -/
theorem State.byteAt_takeLines (hm : Memory.wf s.mem = true) (ks : List Nat) (l : Nat) :
    (s.takeLines key ks).byteAt l = if l / 64 ∈ ks then s.viewByte key l else s.byteAt l := by
  induction ks generalizing s with
  | nil => simp [State.takeLines]
  | cons k rest ih =>
    rw [State.takeLines, ih (s.takeLine_wf key k hm), State.viewByte_takeLine key hm, State.byteAt_takeLine key hm]
    by_cases h : l / 64 = k <;> by_cases hr : l / 64 ∈ rest <;> simp [h, hr]

/-- R57, R400: tags of lines taken over from another protection do not stay. -/
theorem State.tagAt_takeLines (ht : s.tags.Pairwise (· < ·)) (ks : List Nat) (l : Nat) :
    (s.takeLines key ks).tagAt l = (s.tagAt l && !(decide (l / 64 ∈ ks) && s.foreignLine key l)) := by
  induction ks generalizing s with
  | nil => simp [State.takeLines]
  | cons k rest ih =>
    rw [State.takeLines, ih (s.takeLine_tags_rising key ht k), State.tagAt_takeLine key ht, State.foreignLine_takeLine]
    by_cases h : l / 64 = k <;> simp [h]

theorem State.takeLines_tags_rising (ht : s.tags.Pairwise (· < ·)) (ks : List Nat) : (s.takeLines key ks).tags.Pairwise (· < ·) := by
  induction ks generalizing s with
  | nil => exact ht
  | cons k rest ih => exact ih (s.takeLine_tags_rising key ht k)
end

end Sys2Proof.Machine
end

section
/-! SUPPORT. O7: a store at a checked place of the module's own memory, with nothing held back (R58, R85 to R87, R400). -/

namespace Sys2Proof.Machine

/-! ## A write performed at its home -/

/-- R400: the lines that a write of `n` bytes touches, once the mapping that makes it has taken them over. -/
def State.taken (s : State) (key : Option Nat) (l n : Nat) : State :=
  match key with
  | some k => s.takeLines k (unitsOf 64 l n)
  | none => s

section
variable {s : State} (key : Option Nat) (l n : Nat)

theorem State.taken_eq (s : State) : ∃ m t ls, s.taken key l n = { s with mem := m, tags := t, lines := ls } := by
  cases key with
  | none => exact ⟨s.mem, s.tags, s.lines, rfl⟩
  | some k => exact s.takeLines_eq k _

theorem State.taken_wf (hm : Memory.wf s.mem = true) : Memory.wf (s.taken key l n).mem = true := by
  cases key with
  | none => exact hm
  | some k => exact State.takeLines_wf k _ hm

theorem State.taken_tags_rising (ht : s.tags.Pairwise (· < ·)) : (s.taken key l n).tags.Pairwise (· < ·) := by
  cases key with
  | none => exact ht
  | some k => exact State.takeLines_tags_rising k ht _

theorem State.byteAt_taken (hm : Memory.wf s.mem = true) (j : Nat) : (s.taken key l n).byteAt j = (match key with
    | some k => if j / 64 ∈ unitsOf 64 l n then s.viewByte k j else s.byteAt j
    | none => s.byteAt j) := by
  cases key with
  | none => rfl
  | some k => exact State.byteAt_takeLines k hm _ j

theorem State.tagAt_taken (ht : s.tags.Pairwise (· < ·)) (j : Nat) : (s.taken key l n).tagAt j = (match key with
    | some k => s.tagAt j && !(decide (j / 64 ∈ unitsOf 64 l n) && s.foreignLine k j)
    | none => s.tagAt j) := by
  cases key with
  | none => rfl
  | some k => exact State.tagAt_takeLines k ht _ j
end

theorem State.markOwn_eq (s : State) (l n : Nat) :
    ∃ o ps, s.markOwn l n = { s with core := { s.core with own := o }, parked := ps } := by
  have own (c : Core) (a k : Nat) : ∃ o, c.ownGranules a k = { c with own := o } := by
    unfold Core.ownGranules
    split
    · exact ⟨c.own, rfl⟩
    · exact ⟨_, rfl⟩
  unfold State.markOwn
  dsimp only
  split_ifs
  · obtain ⟨o, h⟩ := own s.core ((l - 5 * spaceSize) % 0x400000) n
    exact ⟨o, s.parked, by rw [h]⟩
  · split
    · exact ⟨s.core.own, _, rfl⟩
    · exact ⟨s.core.own, s.parked, rfl⟩
  · exact ⟨s.core.own, s.parked, rfl⟩
  · exact ⟨s.core.own, s.parked, rfl⟩

theorem State.mend_eq (s : State) (whole : List Nat) : ∃ b, s.mend whole = { s with bad := b } := by
  unfold State.mend
  split
  · exact ⟨s.bad, rfl⟩
  · exact ⟨_, rfl⟩

/-- A write of data, where no check word is bad, writes its bytes over the lines taken over, and its tag. -/
theorem State.perform_eq {s : State} {f : Flight} (hc : f.colour = none) (hb : s.bad = []) :
    ∃ o ps b, s.perform f = { s with
      mem := memWrite (s.taken f.key f.loc f.bytes.length).mem f.loc f.bytes,
      tags := if f.cap && holdsTags f.loc
        then setAdd (tagsClear (s.taken f.key f.loc f.bytes.length).tags f.loc f.bytes.length) (f.loc / 16)
        else tagsClear (s.taken f.key f.loc f.bytes.length).tags f.loc f.bytes.length,
      lines := (s.taken f.key f.loc f.bytes.length).lines, bad := b,
      core := { s.core with own := o }, parked := ps } := by
  have hw : s.badWrite f.loc f.bytes.length f.whole = false := by simp [State.badWrite, hb]
  obtain ⟨m, t, ls, hu⟩ := s.taken_eq f.key f.loc f.bytes.length
  have e : s.perform f = ((if f.cap then (s.taken f.key f.loc f.bytes.length).writeCap f.loc f.bytes true
      else (s.taken f.key f.loc f.bytes.length).writeBytes f.loc f.bytes).mend f.whole).markOwn f.loc f.bytes.length := by
    unfold State.perform
    rw [hc, hw]
    rfl
  rw [e, hu]
  obtain ⟨b, hb⟩ := State.mend_eq _ f.whole
  rw [hb]
  obtain ⟨o, ps, ho⟩ := State.markOwn_eq _ f.loc f.bytes.length
  rw [ho]
  cases hcap : f.cap
  · exact ⟨o, ps, b, rfl⟩
  · refine ⟨o, ps, b, ?_⟩
    simp only [if_true, State.writeCap, Bool.true_and]
    split_ifs <;> rfl

/-! ## What a store leaves -/

/-- R58, R400: a write through a place, where no check word is bad, leaves its bytes and its tag there and the rest as the place's
mapping read it. A tag is that of one granule. -/
theorem State.perform_stored {s : State} (p : Place) {bytes : List Byte} {tag : Bool} (hm : Memory.wf s.mem = true)
    (ht : s.tags.Pairwise (· < ·)) (hb : s.bad = []) (hn : 0 < bytes.length)
    (hg : tag = true → p.loc / 16 = (p.loc + bytes.length - 1) / 16) : Stored s (s.perform (s.flight p bytes tag)) p bytes tag := by
  obtain ⟨o, ps, b, e⟩ := State.perform_eq (s := s) (f := s.flight p bytes tag) rfl hb
  have hmu := State.taken_wf (s.keyOf p) p.loc bytes.length hm
  have htu := State.taken_tags_rising (s.keyOf p) p.loc bytes.length ht
  rw [e]
  refine ⟨memRead_write_same _ _ hmu, fun l hl => ?_, fun l => ?_, fun l => rfl⟩
  · exact (memGet_write_other _ _ _ hmu hl).trans (State.byteAt_taken _ _ _ hm l)
  · have hr : (granLo p.loc 16 ≤ l / 16 ∧ l / 16 < granHi p.loc bytes.length 16)
        ↔ (p.loc / 16 ≤ l / 16 ∧ l / 16 ≤ (p.loc + bytes.length - 1) / 16) := by
      unfold granLo granHi; omega
    have clear : setHas (tagsClear (s.taken (s.keyOf p) p.loc bytes.length).tags p.loc bytes.length) (l / 16)
        = if p.loc / 16 ≤ l / 16 ∧ l / 16 ≤ (p.loc + bytes.length - 1) / 16 then false
          else (s.taken (s.keyOf p) p.loc bytes.length).tagAt l := by
      rw [setHas_tagsClear htu, State.tagAt, decide_eq_decide.mpr hr]
      split_ifs with h
      · rw [decide_eq_true h, Bool.not_true, Bool.and_false]
      · rw [decide_eq_false h, Bool.not_false, Bool.and_true]
    refine Eq.trans ?_ (if_congr Iff.rfl rfl (State.tagAt_taken (s.keyOf p) p.loc bytes.length ht l))
    change setHas (if (tag && holdsTags p.loc) && holdsTags p.loc then _ else _) _ = _
    cases hcap : tag && holdsTags p.loc
    · exact clear
    · obtain ⟨h1, h2⟩ := Bool.and_eq_true_iff.mp hcap
      have := hg h1
      rw [h2, Bool.true_and, if_pos rfl]
      refine (setHas_setAdd (tagsClear_rising htu p.loc bytes.length) (p.loc / 16) (l / 16)).trans ?_
      rw [clear]
      split_ifs with h
      · simp; omega
      · have : l / 16 ≠ p.loc / 16 := by omega
        simp [this]

/-- What `Stored` says of two states depends on memory, its lines and the protection of the place alone. -/
theorem Stored.congr {s s' t t' : State} {p : Place} {bytes : List Byte} {tag : Bool} (h : Stored s t p bytes tag)
    (hm : s'.mem = s.mem) (ht : s'.tags = s.tags) (hc : s'.colours = s.colours) (hl : s'.lines = s.lines) (hk : s'.keyOf p = s.keyOf p)
    (hm' : t'.mem = t.mem) (ht' : t'.tags = t.tags) (hc' : t'.colours = t.colours) : Stored s' t' p bytes tag := by
  have hb (l : Nat) : s'.byteAt l = s.byteAt l := by simp only [State.byteAt, hm]
  have hv (k l : Nat) : s'.viewByte k l = s.viewByte k l := by simp only [State.viewByte, State.byteAt, hm, hl]
  have hf (k l : Nat) : s'.foreignLine k l = s.foreignLine k l := by simp only [State.foreignLine, hl]
  have hg (l : Nat) : s'.tagAt l = s.tagAt l := by simp only [State.tagAt, ht]
  obtain ⟨written, others, tags, colours⟩ := h
  refine ⟨?_, fun l hl => ?_, fun l => ?_, fun l => ?_⟩
  · simpa only [State.readBytes, hm'] using written
  · simp only [hk, hv, hb]
    exact (congrArg (memGet · l) hm').trans (others l hl)
  · simp only [hk, hf, hg]
    exact (congrArg (setHas · (l / 16)) ht').trans (tags l)
  · simpa only [State.colourAt, hc', hc] using colours l

/-! ## What a store does beside -/

/-- R367: a charge changes what a context has been charged, not its serial number. -/
theorem lineKey_charged {s : State} {m : Assoc Ctx} {n : BitVec 8} {k : Nat} (hm : s.contexts = m) (enc : BitVec 2) (owner : BitVec 8) :
    ({ s with contexts := chargeContext m n k } : State).lineKey enc owner = s.lineKey enc owner := by
  subst hm
  unfold State.lineKey chargeContext
  dsimp only
  cases h : assocGet s.contexts n.toNat with
  | none => rfl
  | some x =>
    dsimp only
    by_cases e : owner.toNat = n.toNat
    · rw [e, assocGet_put_same, h]
    · rw [assocGet_put_other _ _ _ _ e]

/-- Before a write of a page that is not copied for a revival, only charges and taint change. -/
theorem State.beforeWrite_eq {s : State} {p : Place} (hp : p.copy = false) (n : Nat) :
    ∃ cs ks os, s.beforeWrite p n = { s with corpses := cs, contexts := ks, overlays := os }
      ∧ ∀ enc owner, ({ s with contexts := ks } : State).lineKey enc owner = s.lineKey enc owner := by
  have copy : s.copyPage p = s := by
    unfold State.copyPage
    rw [hp]
  obtain ⟨cs, ks, hc, hk⟩ : ∃ cs ks, s.chargeCopy p = { s with corpses := cs, contexts := ks }
      ∧ ∀ enc owner, ({ s with contexts := ks } : State).lineKey enc owner = s.lineKey enc owner := by
    unfold State.chargeCopy
    dsimp only
    split
    · exact ⟨s.corpses, s.contexts, rfl, fun _ _ => rfl⟩
    · split
      · exact ⟨s.corpses, s.contexts, rfl, fun _ _ => rfl⟩
      · exact ⟨_, _, rfl, fun _ _ => lineKey_charged rfl _ _⟩
  unfold State.beforeWrite
  rw [copy, hc]
  unfold State.clearTaint
  split
  · exact ⟨cs, ks, s.overlays, rfl, hk⟩
  · exact ⟨cs, ks, _, rfl, hk⟩

theorem State.keyOf_congr {s t : State} (h : ∀ enc owner, t.lineKey enc owner = s.lineKey enc owner) (p : Place) : t.keyOf p = s.keyOf p := by
  unfold State.keyOf
  split
  · rw [h]
  · rfl

/-- A store leaves of the agent in focus everything but the granules of its TCM that it owns. -/
def State.ownsOnly (s t : State) : Prop := ∃ o, t.core = { s.core with own := o }

/-- With nothing held back, a store through a place of the module's own memory is performed at once. -/
theorem State.store_stored {s : State} {p : Place} {bytes : List Byte} {tag : Bool} (h : s.plainMemory) (hp : p.inModule)
    (hn : 0 < bytes.length) (hg : tag = true → p.loc / 16 = (p.loc + bytes.length - 1) / 16) :
    Stored s (s.store p bytes tag) p bytes tag ∧ s.ownsOnly (s.store p bytes tag) ∧ (s.store p bytes tag).quiet := by
  obtain ⟨hq, hold, hbad, hpast, hm, ht⟩ := h
  obtain ⟨-, hcopy, hhost, hpeer, -⟩ := hp
  obtain ⟨cs, ks, os, hu, hk⟩ := s.beforeWrite_eq hcopy bytes.length
  have lost (u : State) : u.peerLost p.loc = false := by rw [State.peerLost, hpeer, Bool.false_and]
  have stays : (s.beforeWrite p bytes.length).send ((s.beforeWrite p bytes.length).flight p bytes tag)
      = (s.beforeWrite p bytes.length).perform ((s.beforeWrite p bytes.length).flight p bytes tag) := by
    have queues : (s.beforeWrite p bytes.length).queues p.loc = false := by rw [hu]; simp [State.queues, hold, hhost, hpeer]
    have past (c : BitVec 8) (t : BitVec 32) (d : BitVec 2) : (s.beforeWrite p bytes.length).pastFreeze c t d = false := by
      rw [hu]; exact hpast c t d
    unfold State.send State.refuses State.refusesAt
    simp only [past, Bool.and_false, Bool.or_false]
    change (if State.peerLost _ p.loc = true then _ else if State.queues _ p.loc = true then _ else _) = _
    rw [lost, queues]
    rfl
  have stored := State.perform_stored (s := s.beforeWrite p bytes.length) p (bytes := bytes) (tag := tag)
    (by rw [hu]; exact hm) (by rw [hu]; exact ht) (by rw [hu]; exact hbad) hn hg
  obtain ⟨o, ps, b, e⟩ := State.perform_eq (s := s.beforeWrite p bytes.length)
    (f := (s.beforeWrite p bytes.length).flight p bytes tag) rfl (by rw [hu]; exact hbad)
  have quiet : ((s.beforeWrite p bytes.length).perform ((s.beforeWrite p bytes.length).flight p bytes tag)).quiet := by
    rw [e, hu]; exact hq
  have made : s.store p bytes tag = (s.beforeWrite p bytes.length).perform ((s.beforeWrite p bytes.length).flight p bytes tag) := by
    unfold State.store State.afterWrite
    rw [State.beforeAccess_quiet hq]
    dsimp only
    rw [stays, State.release_quiet quiet, ite_self]
  rw [made]
  refine ⟨stored.congr ?_ ?_ ?_ ?_ ?_ rfl rfl rfl, ⟨o, ?_⟩, quiet⟩
  · rw [hu]
  · rw [hu]
  · rw [hu]
  · rw [hu]
  · rw [hu]; exact (State.keyOf_congr (s := s) hk p).symm
  · rw [e, hu]

end Sys2Proof.Machine
end

section
/-! SUPPORT. O7: the store instructions, from what a store at a checked place leaves. -/

namespace Sys2Proof.Machine

/-- A store instruction's body, once its registers have been read: the checked place holds what is stored. -/
theorem State.storeMem_stored {s : State} {o : Sys2Proof.Ordering} {a : Access} {p : Place} {bytes : List Byte} {tag : Bool} (h : s.plainMemory)
    (hp : p.inModule) (ha : s.access a = .ok p) (hn : 0 < bytes.length)
    (hg : tag = true → p.loc / 16 = (p.loc + bytes.length - 1) / 16) :
    ∃ t, s.storeMem o a bytes tag = .ok t ∧ Stored s t p bytes tag ∧ s.ownsOnly t := by
  obtain ⟨l, hl⟩ := s.fillTlb_eq p
  have hu : (s.fillTlb p).plainMemory := by rw [hl]; exact h
  obtain ⟨stored, ⟨own, hc⟩, quiet⟩ := State.store_stored hu hp hn hg
  have issue : (s.fillTlb p).issueStore p = .ok () := by
    simp [State.issueStore, State.peerLost, State.peerHeld, hp.2.2.1, hp.2.2.2.1]
  refine ⟨(s.fillTlb p).store p bytes tag, ?_, stored.congr ?_ ?_ ?_ ?_ ?_ rfl rfl rfl, own, ?_⟩
  · unfold State.storeMem
    rw [State.check_eq ha]
    show ((s.fillTlb p).issueStore p >>= fun _ => _) = _
    rw [issue]
    show Except.ok ((((s.fillTlb p).orderBefore o).store p bytes tag).orderAfter o p bytes.length) = _
    rw [State.orderBefore_quiet hu.1, State.orderAfter, State.settle_quiet quiet, ite_self]
  · rw [hl]
  · rw [hl]
  · rw [hl]
  · rw [hl]
  · rw [hl]; rfl
  · rw [hc, State.fillTlb_core]

/-- What stands after a store instruction that reads `rs` and ends at the next one. -/
theorem State.stored_ends {s t : State} {x : Pfx} {rs : List RegNum} {p : Place} {bytes : List Byte} {tag : Bool} {q : Addr}
    (h : Stored (s.after x rs) t p bytes tag) (hc : (s.after x rs).ownsOnly t) :
    Stored s (t.ends q) p bytes tag ∧ Untouched {} s (t.ends q) ∧ (t.ends q).pc = q := by
  obtain ⟨m, h1⟩ := s.tookPfx_eq x
  obtain ⟨k, h2⟩ := (s.tookPfx x).took_eq rs
  have e : s.after x rs = { s with core := { s.core with pInh := m, gInh := k } } := by rw [State.after, h2, h1]
  obtain ⟨own, hc⟩ := hc
  have core : (t.ends q).core = { s.core with pInh := m, gInh := k, own := own, pcc := s.core.pcc.setCursor q, wait := none } := by
    rw [State.ends, State.done_core, State.setPc_core, hc, e]
  refine ⟨h.congr ?_ ?_ ?_ ?_ ?_ rfl rfl rfl, ?_, ?_⟩
  · rw [e]
  · rw [e]
  · rw [e]
  · rw [e]
  · rw [e]; rfl
  · constructor
    case pccRest =>
      rw [core]
      exact ⟨extractLsb'_append_high (n := 80) (m := 48) _ _ (le_refl 48) |>.trans (by simp), rfl⟩
    all_goals simp [State.g, State.v, State.p, core]
  · rw [State.pc, core]
    exact extractLsb'_append_low (n := 80) (m := 48) (k := 0) (l := 48) _ _ (le_refl 48) |>.trans (by simp)

section
variable {s : State} {x : Pfx} {o : Sys2Proof.Ordering} {a b c : RegNum} {off : Word} {p : Place} (hr : s.runs x) (hm : s.plainMemory) (hp : p.inModule)

theorem State.after_plainMemory (h : s.plainMemory) (x : Pfx) (rs : List RegNum) : (s.after x rs).plainMemory := by
  obtain ⟨m, h1⟩ := s.tookPfx_eq x
  obtain ⟨k, h2⟩ := (s.tookPfx x).took_eq rs
  rw [State.after, h2, h1]
  exact h

include hm hp in
theorem storeBody_stored {n : Nat} {acc : GReg → State → Access} {rs : List RegNum} (hg : s.readable [b, a])
    (hn : 0 < n) (ha : s.access (acc (s.g b) (s.after x (rs ++ [b, a]))).store = .ok p) : ∃ t,
    storeBody o n a acc b (s.after x rs) = .ok t ∧ Stored (s.after x (rs ++ [b, a])) t p (bytesOf n (s.gint a).toNat) false
      ∧ (s.after x (rs ++ [b, a])).ownsOnly t := by
  unfold storeBody
  rw [State.useG_eq (State.readable_after hg), State.after_took]
  show ∃ t, State.storeMem _ o (acc ((s.after x (rs ++ [b, a])).g b) _).store (bytesOf n ((s.after x (rs ++ [b, a])).gint a).toNat) false = _ ∧ _
  rw [State.after_g, State.after_gint]
  exact State.storeMem_stored (State.after_plainMemory hm x _) hp ((s.after_access x _ _).trans ha) (by simpa using hn) nofun

end

end Sys2Proof.Machine

namespace Sys2Proof
open Sys2Proof.Machine

/-- Settles O7: each store reads its registers and goes through one checked place. -/
theorem storesWriteTheirBytesAlone : Obligations.StoresWriteTheirBytesAlone := by
  unfold Obligations.StoresWriteTheirBytesAlone
  intro s x o size a b c off p hr hm hp
  have size0 : 0 < 2 ^ size.toNat := by positivity
  have does {i : Instr} {body : State → R State} {rs : List RegNum} {bytes : List Byte} {tag : Bool} (he : exec i s = scalarOp x s body)
      (h : ∃ t, body (s.tookPfx x) = .ok t ∧ Stored (s.after x rs) t p bytes tag ∧ (s.after x rs).ownsOnly t) :
      ∃ t, exec i s = .next t ∧ Stored s t p bytes tag ∧ Untouched {} s t ∧ t.pc = s.next x := by
    obtain ⟨t, hb, stored, owns⟩ := h
    exact ⟨_, he.trans (scalarOp_ok hr hb), State.stored_ends stored owns⟩
  refine ⟨fun hg ha => ?_, fun hg ha => ?_, fun hg ha hl => ?_⟩
  · exact does rfl (storeBody_stored (rs := []) hm hp hg size0 ha)
  · have hbc : s.readable [b, c] := fun n hn => hg n (by simp only [List.mem_cons] at hn ⊢; tauto)
    have hba : s.readable [b, a] := fun n hn => hg n (by simp only [List.mem_cons] at hn ⊢; tauto)
    refine does (rs := [b, c] ++ [b, a]) rfl ?_
    rw [State.useG_after hbc]
    show ∃ t, storeBody o _ a (fun cap s => indexAccess cap b (s.gint c) (sizeOf2 size) off) b (s.after x [b, c]) = _ ∧ _
    refine storeBody_stored hm hp hba size0 ?_
    rw [State.after_gint]
    exact ha
  · refine does (rs := [b, a]) rfl ?_
    rw [State.useG_after hg]
    show ∃ t, State.storeMem (s.after x [b, a]) o (Access.storeCap (memAccess ((s.after x [b, a]).g b) b _ 16) _) _ _ = _ ∧ _
    rw [State.after_g, State.after_g]
    refine State.storeMem_stored (State.after_plainMemory hm x _) hp ((s.after_access x _ _).trans ha) ?_ fun _ => ?_
    · rw [GReg.bytes, length_bytesOf]; decide
    · rw [GReg.bytes, length_bytesOf]; omega

end Sys2Proof
end

section
/-! SUPPORT. Each operation of the state keeps the list of bytes in its canonical form, or leaves it as it was. -/

namespace Sys2Proof.Machine

/-- The list of bytes of the state is in canonical form (log entry 2). -/
@[simp] abbrev State.Canonical (s : State) : Prop := Memory.wf s.mem = true

theorem State.Canonical.of_mem {s t : State} (hm : t.mem = s.mem) (h : s.Canonical) : t.Canonical :=
  (congrArg Memory.wf hm).trans h

theorem foldl_mem {α : Type} {f : State → α → State} (hf : ∀ s a, (f s a).mem = s.mem) (l : List α)
    (s : State) :
    (l.foldl f s).mem = s.mem := by
  induction l generalizing s with
  | nil => rfl
  | cons a l ih => rw [List.foldl_cons, ih, hf]

theorem foldl_wf {α : Type} {f : State → α → State} (hf : ∀ s, s.Canonical → ∀ a, (f s a).Canonical)
    (l : List α) {s : State} (h : s.Canonical) :
    (l.foldl f s).Canonical := by
  induction l generalizing s with
  | nil => exact h
  | cons a l ih => exact ih (hf s h a)

theorem ringWrite_wf {m : List Host.Cell} (h : Memory.wf m = true) (base size : Nat) (head : Word) (slots : Nat)
    (tail : Word) (es : List (List Byte)) :
    Memory.wf (ringWrite m base size head slots tail es).1 = true := by
  fun_induction ringWrite m base size head slots tail es with
  | case1 => exact h
  | case2 m tail e rest _ mem' ih => exact ih (memWrite_wf _ _ h)
  | case3 => exact h

@[simp] theorem State.shot_mem (s : State) : s.shot.mem = s.mem := rfl

/-- `Memory.wf` of a choice between two memories. -/
theorem wf_ite {p : Prop} [Decidable p] {a b : State} (ha : a.Canonical) (hb : b.Canonical) :
    (if p then a else b).Canonical := by
  split
  · exact ha
  · exact hb

theorem Refused.apply_wf {x : Snapshot} (h : Memory.wf x.mem = true) (r : Refused) (l : Nat) :
    Memory.wf (r.apply x l).1.mem = true := by
  unfold Refused.apply
  split
  · rw [Snapshot.setColour_mem]
    exact h
  · exact Snapshot.writeCap_wf _ _ _ h
  · dsimp only
    split
    · exact Snapshot.write_wf _ _ h
    · exact h

theorem Snapshot.putRegions_wf {x : Snapshot} (h : Memory.wf x.mem = true) (spads : List Saved)
    (ws : List (Nat × Nat × BitVec 32)) :
    Memory.wf (x.putRegions spads ws).mem = true := by
  fun_induction Snapshot.putRegions x spads ws with
  | case1 => exact h
  | case2 x key k w rest n y ih =>
    refine ih ?_
    unfold y
    split
    · exact Snapshot.restore_wf _ _ _ h
    · exact h
    · exact Snapshot.zero_wf _ _ h

theorem Snapshot.putImages_wf {x : Snapshot} (h : Memory.wf x.mem = true) (slots : List CoreId) (vs : List Saved) :
    Memory.wf (x.putImages slots vs).mem = true := by
  fun_induction Snapshot.putImages x slots vs with
  | case1 => exact h
  | case2 x v rest y ih =>
    refine ih ?_
    unfold y
    split
    · exact Snapshot.restore_wf _ _ _ h
    · exact h

/-! ## Caps -/

@[simp] theorem State.focus_mem (s : State) (a : AgentId) : (s.focus a).mem = s.mem := by
  unfold State.focus
  split <;> rfl

@[simp] theorem State.gotG_mem (s : State) (n : RegNum) : (s.gotG n).mem = s.mem := rfl

@[simp] theorem State.gotV_mem (s : State) (n : RegNum) : (s.gotV n).mem = s.mem := rfl

@[simp] theorem State.gotP_mem (s : State) (n : PredNum) : (s.gotP n).mem = s.mem := rfl

/-! ## Flags -/

@[simp] theorem State.setFcsr_mem (s : State) (f : Word) : (s.setFcsr f).mem = s.mem := rfl

/-! ## Access -/

@[simp] theorem State.tlbFill_mem (s : State) (a : AgentId) (context : BitVec 8) (va : Nat) (l : Leaf) :
    (s.tlbFill a context va l).mem = s.mem := rfl

@[simp] theorem State.fillTlb_mem (s : State) (p : Place) : (s.fillTlb p).mem = s.mem := by
  unfold State.fillTlb
  split <;> rfl

@[simp] theorem State.accessAll_mem (s : State) (as : List Access) : (s.accessAll as).1.mem = s.mem := by
  fun_induction State.accessAll <;> simp_all

/-! ## Records -/

@[simp] theorem State.flushRings_wf {s : State} (h : s.Canonical) (f : Nat) : (s.flushRings f).Canonical := by
  unfold State.flushRings
  dsimp only
  split
  · exact h
  · exact ringWrite_wf (ringWrite_wf h ..) ..

@[simp] theorem State.streamPut_wf {s : State} (h : s.Canonical) (f : Nat) (r : FaultRec) :
    (s.streamPut f r).1.Canonical := by
  unfold State.streamPut
  simp [h]

@[simp] theorem State.writeSlot_wf {s : State} (h : s.Canonical) (context : BitVec 8) (a : AgentId) (r : FaultRec) :
    (s.writeSlot context a r).Canonical := by
  unfold State.writeSlot
  split <;> simp [h, State.takeLines_wf, memWrite_wf]

@[simp] theorem State.writeRecord_wf {s : State} (h : s.Canonical) (r : FaultRec) :
    (s.writeRecord r).1.Canonical := by
  unfold State.writeRecord
  split <;> simp [h]

@[simp] theorem State.streamRecord_wf {s : State} (h : s.Canonical) (r : FaultRec) :
    (s.streamRecord r).Canonical := by
  unfold State.streamRecord
  split <;> simp [h]

@[simp] theorem State.eventRecord_wf {s : State} (h : s.Canonical) (code : BitVec 8) (t : Task) (atime : Tick)
    (detail : Word) :
    (s.eventRecord code t atime detail).Canonical := by
  unfold State.eventRecord
  simp [h]

@[simp] theorem State.updateItem_mem (s : State) (o : Origin) (f : Core → Core) :
    (s.updateItem o f).mem = s.mem := by
  unfold State.updateItem
  repeat' split
  all_goals simp

@[simp] theorem State.dropImprecise_wf {s : State} (h : s.Canonical) (r : FaultRec) :
    (s.dropImprecise r).Canonical := by
  unfold State.dropImprecise
  simp [h]

@[simp] theorem State.dropAll_wf {s : State} (h : s.Canonical) (rs : List FaultRec) : (s.dropAll rs).Canonical := by
  induction rs generalizing s with
  | nil => exact h
  | cons r rest ih => exact ih (State.dropImprecise_wf h r)

@[simp] theorem State.reportImprecise_wf {s : State} (h : s.Canonical) (o : Origin) (r : FaultRec) :
    (s.reportImprecise o r).Canonical := by
  unfold State.reportImprecise
  repeat' split
  all_goals simp [h]

@[simp] theorem State.signalCounter_mem (s : State) (context : BitVec 8) (k : BitVec 12) (n : Word) :
    (s.signalCounter context k n).mem = s.mem := by
  unfold State.signalCounter
  split <;> rfl

@[simp] theorem State.journalAdd_mem (s : State) (j : Journal) : (s.journalAdd j).mem = s.mem := by
  unfold State.journalAdd
  rfl

@[simp] theorem State.journalSet_mem (s : State) (seq : Nat) (outcome : BitVec 8) (corpse : BitVec 32)
    (result : Word) :
    (s.journalSet seq outcome corpse result).mem = s.mem := by
  unfold State.journalSet
  split <;> rfl

/-! ## Perform -/

@[simp] theorem State.mend_mem (s : State) (whole : List Nat) : (s.mend whole).mem = s.mem := by
  unfold State.mend
  split <;> rfl

@[simp] theorem State.perform_wf {s : State} (h : s.Canonical) (f : Flight) : (s.perform f).Canonical := by
  have hlines : State.Canonical (match f.key with
      | some k => s.takeLines k (unitsOf 64 f.loc f.bytes.length) | none => s) := by
    split
    · exact State.takeLines_wf _ _ h
    · exact h
  unfold State.perform
  split
  · rw [State.Canonical, State.setColourAt_mem]
    exact h
  · split
    · exact State.reportImprecise_wf h ..
    · dsimp only
      rw [State.Canonical, State.markOwn_mem, State.mend_mem]
      exact wf_ite (State.writeCap_wf _ _ _ hlines) (State.writeBytes_wf _ _ hlines)

@[simp] theorem State.performPosted_wf {s : State} (h : s.Canonical) (f : Flight) :
    (s.performPosted f).Canonical := by
  unfold State.performPosted
  split <;> simp [h]

@[simp] theorem State.performAll_wf {s : State} (h : s.Canonical) (fs : List Flight) :
    (s.performAll fs).Canonical := by
  induction fs generalizing s with
  | nil => exact h
  | cons f rest ih => exact ih (State.performPosted_wf h f)

@[simp] theorem State.performDue_wf {s : State} (h : s.Canonical) (due rest : List Flight) :
    (s.performDue due rest).Canonical := by
  unfold State.performDue
  grind [State.performAll_wf]

@[simp] theorem State.drain_wf {s : State} (h : s.Canonical) (sel : Flight → Bool) : (s.drain sel).Canonical := by
  unfold State.drain
  split <;> simp [h]

@[simp] theorem State.settle_wf {s : State} (h : s.Canonical) (l n : Nat) : (s.settle l n).Canonical := by
  unfold State.settle
  simp [h]

@[simp] theorem State.resolvePosted_mem (s : State) (sel : Flight → Bool) : (s.resolvePosted sel).mem = s.mem := by
  unfold State.resolvePosted
  split <;> rfl

@[simp] theorem State.arriveAll_mem (s : State) (sel : Timed → Bool) : (s.arriveAll sel).mem = s.mem := by
  unfold State.arriveAll
  split <;> rfl

@[simp] theorem State.arriveOwn_mem (s : State) (a : AgentId) (scope : BitVec 3) :
    (s.arriveOwn a scope).mem = s.mem := by
  unfold State.arriveOwn
  simp

@[simp] theorem State.releaseBy_wf {s : State} (h : s.Canonical) (c : Core) (scope : BitVec 3) :
    (s.releaseBy c scope).Canonical := by
  unfold State.releaseBy
  simp [h]

@[simp] theorem State.release_wf {s : State} (h : s.Canonical) (scope : BitVec 3) :
    (s.release scope).Canonical := by
  unfold State.release
  simp [h]

@[simp] theorem State.releaseScheduler_wf {s : State} (h : s.Canonical) (d : BitVec 2) :
    (s.releaseScheduler d).Canonical := by
  unfold State.releaseScheduler
  simp [h]

@[simp] theorem State.chargeCopy_mem (s : State) (p : Place) : (s.chargeCopy p).mem = s.mem := by
  unfold State.chargeCopy
  dsimp only
  repeat' split
  all_goals rfl

@[simp] theorem State.copyPage_wf {s : State} (h : s.Canonical) (p : Place) : (s.copyPage p).Canonical := by
  unfold State.copyPage
  split
  · dsimp only
    split
    · exact h
    · exact Snapshot.copyFrom_wf _ _ _ _ h
  · exact h

@[simp] theorem State.clearTaint_mem (s : State) (va n : Nat) : (s.clearTaint va n).mem = s.mem := by
  unfold State.clearTaint
  split <;> rfl

@[simp] theorem State.clearCovered_mem (s : State) (xs : List (Nat × Nat)) : (s.clearCovered xs).mem = s.mem := by
  unfold State.clearCovered
  split <;> rfl

@[simp] theorem State.beforeWrite_wf {s : State} (h : s.Canonical) (p : Place) (n : Nat) :
    (s.beforeWrite p n).Canonical := by
  unfold State.beforeWrite
  simp [h]

@[simp] theorem State.beforeAccess_wf {s : State} (h : s.Canonical) (p : Place) (n : Nat) :
    (s.beforeAccess p n).Canonical := by
  unfold State.beforeAccess
  split <;> simp [h]

@[simp] theorem State.afterWrite_wf {s : State} (h : s.Canonical) (p : Place) : (s.afterWrite p).Canonical := by
  unfold State.afterWrite
  split <;> simp [h]

@[simp] theorem State.send_wf {s : State} (h : s.Canonical) (f : Flight) : (s.send f).Canonical := by
  unfold State.send
  repeat' split
  all_goals simp [h]

@[simp] theorem State.store_wf {s : State} (h : s.Canonical) (p : Place) (bytes : List Byte) (cap : Bool) :
    (s.store p bytes cap).Canonical :=
  State.afterWrite_wf (State.send_wf (State.beforeWrite_wf (State.beforeAccess_wf h ..) ..) _) _

@[simp] theorem State.storeWhole_wf {s : State} (h : s.Canonical) (p : Place) (bytes : List Byte)
    (whole : List Nat) :
    (s.storeWhole p bytes whole).Canonical := by
  unfold State.storeWhole
  exact State.afterWrite_wf (State.send_wf (State.beforeWrite_wf (State.beforeAccess_wf h ..) ..) _) _

@[simp] theorem State.storeColour_wf {s : State} (h : s.Canonical) (p : Place) (c : BitVec 4) :
    (s.storeColour p c).Canonical := by
  unfold State.storeColour
  exact State.afterWrite_wf (State.send_wf (State.beforeWrite_wf (State.beforeAccess_wf h ..) ..) _) _

@[simp] theorem State.setEngine_mem (s : State) (i : EngineId) (e : Engine) : (s.setEngine i e).mem = s.mem := by
  unfold State.setEngine
  split <;> rfl

@[simp] theorem State.loadOwner_mem (s : State) (i : EngineId) : (s.loadOwner i).mem = s.mem := by
  unfold State.loadOwner
  split <;> simp

@[simp] theorem State.cmdEnd_mem (s : State) (i : EngineId) (c : Cmd) : (s.cmdEnd i c).mem = s.mem := by
  unfold State.cmdEnd
  simp

/-! ## Weirs -/

@[simp] theorem State.trace_wf {s : State} (h : s.Canonical) (context : BitVec 8) (kind : Nat) (die : BitVec 2)
    (core item task : Nat) (step : Word) (body : List (Nat × Nat × Nat)) :
    (s.trace context kind die core item task step body).Canonical := by
  unfold State.trace
  split
  · exact h
  · exact State.writeBytes_wf _ _ (State.takeLines_wf _ _ (State.writeBytes_wf _ _ (State.takeLines_wf _ _ h)))

@[simp] theorem State.traceCopy_wf {s : State} (h : s.Canonical) (kind : Nat) (c : Cmd) (die : BitVec 2) :
    (s.traceCopy kind c die).Canonical := by
  unfold State.traceCopy
  split <;> simp [h]

@[simp] theorem State.traceEnd_wf {s : State} (h : s.Canonical) (c : Cmd) (die : BitVec 2) :
    (s.traceEnd c die).Canonical := by
  unfold State.traceEnd
  split <;> simp [h]

@[simp] theorem State.completeWeir_wf {s : State} (h : s.Canonical) (key : Nat) :
    (s.completeWeir key).Canonical := by
  unfold State.completeWeir
  dsimp only
  split <;> simp [h]

@[simp] theorem State.settleWeir_wf {s : State} (h : s.Canonical) (key : Nat) : (s.settleWeir key).Canonical := by
  unfold State.settleWeir
  dsimp only
  split <;> simp [h]

@[simp] theorem State.withdrawWeir_wf {s : State} (h : s.Canonical) (key : Nat) (c : CoreId) :
    (s.withdrawWeir key c).Canonical := by
  unfold State.withdrawWeir
  dsimp only
  repeat' split
  all_goals simp [h]

@[simp] theorem State.completeFlume_mem (s : State) (key : Nat) : (s.completeFlume key).mem = s.mem := by
  unfold State.completeFlume
  dsimp only
  repeat' split
  all_goals rfl

@[simp] theorem State.settleFlume_mem (s : State) (key : Nat) : (s.settleFlume key).mem = s.mem := by
  unfold State.settleFlume
  dsimp only
  split <;> simp

@[simp] theorem State.withdrawFlume_mem (s : State) (key : Nat) (c : CoreId) :
    (s.withdrawFlume key c).mem = s.mem := by
  unfold State.withdrawFlume
  dsimp only
  repeat' split
  all_goals simp

@[simp] theorem State.setMembers_mem (s : State) (t : Task) (cores : List CoreId) (resident : Bool)
    (ls : List Nat) :
    (s.setMembers t cores resident ls).mem = s.mem := by
  fun_induction State.setMembers <;> simp_all

@[simp] theorem State.setFlumeMembers_mem (s : State) (t : Task) (cores : List CoreId) (resident : Bool)
    (ls : List Nat) :
    (s.setFlumeMembers t cores resident ls).mem = s.mem := by
  fun_induction State.setFlumeMembers <;> simp_all

@[simp] theorem State.openChannels_wf {s : State} (h : s.Canonical) (t : Task) : (s.openChannels t).Canonical := by
  unfold State.openChannels
  grind [State.setFlume_mem, State.setWeir_mem, foldl_mem, foldl_wf]

@[simp] theorem State.withdraw_wf {s : State} (h : s.Canonical) (t : Task) (c : CoreId) :
    (s.withdraw t c).Canonical := by
  unfold State.withdraw
  exact foldl_wf (fun _ h k => by simp [h]) _ (foldl_wf (fun _ h k => by simp [h]) _ h)

/-! ## Tasks -/

@[simp] theorem State.startTcm_wf {s : State} (h : s.Canonical) (c : CoreId) (x : Option Exemplar) :
    (s.startTcm c x).Canonical := by
  unfold State.startTcm
  dsimp only
  rw [State.Canonical, State.setShot_mem]
  have hzero : Memory.wf (s.shot.zero (tcmLoc c.index 0) 0x80000).mem = true := Snapshot.zero_wf _ _ h
  split
  · exact memMerge_wf _ hzero
  · exact hzero

@[simp] theorem State.uncount_mem (s : State) (c : Cmd) : (s.uncount c).mem = s.mem := by
  unfold State.uncount
  dsimp only
  repeat' split
  all_goals rfl

@[simp] theorem State.abandon_wf {s : State} (h : s.Canonical) (a : AgentId) : (s.abandon a).Canonical := by
  unfold State.abandon
  dsimp only
  repeat' split
  all_goals simp [h]

@[simp] theorem State.abandonAll_wf {s : State} (h : s.Canonical) (cs : List CoreId) :
    (s.abandonAll cs).Canonical := by
  fun_induction State.abandonAll <;> simp_all

@[simp] theorem State.drainBeats_wf {s : State} (h : s.Canonical) (mine : Cmd → Bool) (e : Engine) :
    (s.drainBeats mine e).Canonical := by
  unfold State.drainBeats
  simp [h]

@[simp] theorem State.liftCommands_wf {s : State} (h : s.Canonical) (mine : Cmd → Bool) (ls : List Nat) :
    (s.liftCommands mine ls).1.Canonical := by
  fun_induction State.liftCommands <;> grind [State.drainBeats_wf, State.loadOwner_mem, State.setCluster_mem]

@[simp] theorem State.putCommands_mem (s : State) (f : AgentId → AgentId) (xs : List (BitVec 1 × Cmd)) :
    (s.putCommands f xs).mem = s.mem := by
  fun_induction State.putCommands <;> simp_all

@[simp] theorem State.putGranules_wf {s : State} (h : s.Canonical) (v : Saved) (i : Nat) (ps : List Place) :
    (s.putGranules v i ps).Canonical := by
  fun_induction State.putGranules <;> simp_all

@[simp] theorem State.restoreOverflow_wf {s : State} (h : s.Canonical) (v : Option Saved) :
    (s.restoreOverflow v).Canonical := by
  unfold State.restoreOverflow
  split
  · exact State.putGranules_wf h ..
  · exact h

@[simp] theorem State.resumeCore_wf {s : State} (h : s.Canonical) (saved old : Core) (spad : List (BitVec 32)) :
    (s.resumeCore saved old spad).Canonical := by
  unfold State.resumeCore
  dsimp only
  split <;> simp [h]

@[simp] theorem State.startNext_wf {s : State} (h : s.Canonical) (c : CoreId) : (s.startNext c).Canonical := by
  unfold State.startNext
  split
  · exact h
  · split
    · exact h
    · split
      · exact h
      next t _ slot _ q rest _ =>
        extract_lets u old v mates parts k
        have hu : u.Canonical := by simpa [u] using h
        have hv : v.Canonical := by
          unfold v
          split
          · exact Snapshot.restore_wf _ _ _ hu
          · exact hu
        split
        · simp [hv]
        · split
          · simp [hu]
          · split
            · exact hu
            · simp [hu]

@[simp] theorem State.endRevival_wf {s : State} (h : s.Canonical) (t : Task) (v : Revival) (kind label : BitVec 2)
    (reason : BitVec 8) (time : Tick) (newCorpse : BitVec 32) (items : List ItemRec) (keepPages : Bool) :
    (s.endRevival t v kind label reason time newCorpse items keepPages).Canonical := by
  unfold State.endRevival
  dsimp only
  repeat' split
  all_goals simp [h, Snapshot.zero_wf]

@[simp] theorem State.endKilled_wf {s : State} (h : s.Canonical) (t : Task) (items : List ItemRec) (instant : Tick)
    (id : BitVec 32) :
    (s.endKilled t items instant id).Canonical := by
  unfold State.endKilled
  split <;> simp [h]

@[simp] theorem State.doneCounter_wf {s : State} (h : s.Canonical) (t : Task) : (s.doneCounter t).Canonical := by
  unfold State.doneCounter
  split <;> simp [h]

@[simp] theorem State.dropHalves_mem (s : State) (ls : List Nat) : (s.dropHalves ls).mem = s.mem := by
  fun_induction State.dropHalves <;> simp_all

@[simp] theorem State.endTask_wf {s : State} (h : s.Canonical) (t : Task) : (s.endTask t).Canonical := by
  unfold State.endTask
  split <;> simp [h]

@[simp] theorem State.leaveHalf_wf {s : State} (h : s.Canonical) (t : Task) (level : BitVec 2) (cluster : Nat) :
    (s.leaveHalf t level cluster).Canonical := by
  unfold State.leaveHalf
  grind [State.setCluster_mem, foldl_mem, foldl_wf]

@[simp] theorem State.leaveItem_wf {s : State} (h : s.Canonical) : s.leaveItem.Canonical := by
  unfold State.leaveItem
  extract_lets c s0 two one
  split
  next t id _ _ =>
    extract_lets s1 t1 t2 s2 s3 s4 s5
    have h0 : s0.Canonical := State.dropAll_wf (s := { s with core := { s.core with pending := [] } }) h c.pending
    have h1 : s1.Canonical := wf_ite h0 (State.withdraw_wf h0 t id)
    have h2 : s2.Canonical := by simpa [s2] using h1
    have h3 : s3.Canonical := wf_ite (State.leaveHalf_wf h2 ..) h2
    have h4 : s4.Canonical := wf_ite (State.leaveHalf_wf h3 ..) h3
    exact wf_ite (State.endTask_wf (s := s5) h4 _) h4
  · exact h

@[simp] theorem State.retireWith_wf {s : State} (h : s.Canonical) (p : Option Place) (value : Word)
    (status code : Nat) :
    (s.retireWith p value status code).Canonical := by
  unfold State.retireWith
  grind [State.leaveItem_wf, State.release_wf, State.store_wf]

@[simp] theorem State.discard_wf {s : State} (h : s.Canonical) (id : BitVec 32) : (s.discard id).Canonical := by
  unfold State.discard
  split
  · exact h
  next c _ =>
    have hfold := foldl_wf (f := fun s t => s.endKilled t (c.frozenItems t.num) c.freeze id)
      (fun _ h t => State.endKilled_wf h ..) c.revivals h
    dsimp only
    split
    · split
      · simpa using hfold
      · exact hfold
    · exact hfold

@[simp] theorem State.newCorpse_wf {s : State} (h : s.Canonical) : (s.newCorpse).1.Canonical := by
  unfold State.newCorpse
  dsimp only
  repeat' split
  all_goals simp [h]

@[simp] theorem State.startFreeze_wf {s : State} (h : s.Canonical) (die : BitVec 2) (context : BitVec 8)
    (task : Option (BitVec 32)) (cause code : Nat) (killer : BitVec 8) :
    (s.startFreeze die context task cause code killer).1.Canonical := by
  unfold State.startFreeze
  split
  · exact h
  · exact State.newCorpse_wf h

@[simp] theorem State.policy_wf {s : State} (h : s.Canonical) (code : BitVec 8) : (s.policy code).Canonical := by
  unfold State.policy
  split
  · exact h
  next t _ =>
    split
    · exact State.retireWith_wf (s := { s with core := s.core.loseMatrix }) h ..
    · exact State.startFreeze_wf h ..

/-! ## Ops -/

@[simp] theorem State.deviceError_mem (s : State) (a : AgentId) : (s.deviceError a).mem = s.mem := rfl

@[simp] theorem State.culvertProgramFault_wf {s : State} (h : s.Canonical) (c : CulvertId) :
    (s.culvertProgramFault c).Canonical := by
  unfold State.culvertProgramFault
  dsimp only
  split <;> simp [h]

@[simp] theorem State.firmwareFault_mem (s : State) : (s.firmwareFault).mem = s.mem := rfl

@[simp] theorem State.takeFault_wf {s : State} (h : s.Canonical) (r : FaultRec) (flags : BitVec 8) :
    (s.takeFault r flags).Canonical := by
  unfold State.takeFault
  grind [State.abandon_wf, State.culvertProgramFault_wf, State.firmwareFault_mem, State.policy_wf,
    State.writeRecord_wf]

@[simp] theorem State.takeTrap_wf {s : State} (h : s.Canonical) (t : Trap) : (s.takeTrap t).Canonical := by
  unfold State.takeTrap
  simp [h]

@[simp] theorem State.takePending_wf {s : State} (h : s.Canonical) : (s.takePending).Canonical := by
  unfold State.takePending
  split <;> simp [h]

@[simp] theorem State.returnFromTrap_mem (s : State) : (s.returnFromTrap).mem = s.mem := rfl

@[simp] theorem State.cacheParcel_mem (s : State) (l : Nat) (q : Parcel) : (s.cacheParcel l q).mem = s.mem := rfl

@[simp] theorem State.waits_mem (s : State) (w : Wait) : (s.waits w).mem = s.mem := rfl

/-! ## Operands -/

@[simp] theorem State.orderBefore_wf {s : State} (h : s.Canonical) (o : Ordering) :
    (s.orderBefore o).Canonical := by
  unfold State.orderBefore
  split <;> simp [h]

@[simp] theorem State.orderAfter_wf {s : State} (h : s.Canonical) (o : Ordering) (p : Place) (n : Nat) :
    (s.orderAfter o p n).Canonical := by
  unfold State.orderAfter
  split <;> simp [h]

@[simp] theorem State.beforeAll_wf {s : State} (h : s.Canonical) (ps : List (Place × Nat)) :
    (s.beforeAll ps).Canonical := by
  fun_induction State.beforeAll <;> simp_all

@[simp] theorem State.atomicAt_wf {s : State} (h : s.Canonical) (p : Place) (op : BitVec 3) (n old w cmp : Nat) :
    (s.atomicAt p op n old w cmp).Canonical := by
  unfold State.atomicAt
  split <;> simp [h]

/-! ## Timed -/

@[simp] theorem State.acceptTimed_wf {s : State} (h : s.Canonical) (p : Place) (bytes : List Byte) (cap : Bool)
    (t : Tick) (element lat : Nat) :
    (s.acceptTimed p bytes cap t element lat).Canonical := by
  unfold State.acceptTimed
  simp [h]

@[simp] theorem State.acceptedAfter_mem (s : State) (o : Ordering) (p : Place) :
    (s.acceptedAfter o p).mem = s.mem := by
  unfold State.acceptedAfter
  split <;> simp

@[simp] theorem State.issuedOne_mem (s : State) : (s.issuedOne).mem = s.mem := rfl

@[simp] theorem State.applyTimed_wf {s : State} (h : s.Canonical) (x : Timed) : (s.applyTimed x).Canonical := by
  unfold State.applyTimed
  simp [h]

@[simp] theorem State.applyAll_wf {s : State} (h : s.Canonical) (xs : List Timed) : (s.applyAll xs).Canonical := by
  fun_induction State.applyAll <;> simp_all

@[simp] theorem State.reportMisses_wf {s : State} (h : s.Canonical) (m : Miss) (ms : List Miss) :
    (s.reportMisses m ms).Canonical := by
  unfold State.reportMisses
  dsimp only
  repeat' split
  all_goals simp [h]

/-! ## Vector -/

@[simp] theorem State.putElems_mem (s : State) (x : Pfx) (w : Nat) (a : RegNum) (rs : List (Option Nat)) :
    (s.putElems x w a rs).mem = s.mem := rfl

@[simp] theorem State.putPred_mem (s : State) (x : Pfx) (n : Nat) (a : PredNum) (r : PReg) :
    (s.putPred x n a r).mem = s.mem := by
  unfold State.putPred
  simp

/-! ## Barriers -/

@[simp] theorem State.seeStep_mem (s : State) (key : Nat) : (s.seeStep key).mem = s.mem := by
  unfold State.seeStep
  repeat' split
  all_goals rfl

/-! ## Matrix -/

@[simp] theorem State.setMx_mem (s : State) (m : MatCore) : (s.setMx m).mem = s.mem := rfl

@[simp] theorem State.produceRing_mem (s : State) (target : AgentId) (q : BitVec 2) :
    (s.produceRing target q).mem = s.mem := by
  unfold State.produceRing
  simp

@[simp] theorem State.tileError_wf {s : State} (h : s.Canonical) (a : AgentId) (w : Slot) :
    (s.tileError a w).Canonical := by
  unfold State.tileError
  simp [h]

/-- What the head of a matrix queue can do to the state. -/
theorem State.execHead_cases {s : State} {id : AgentId} {P : State → Prop} (hsame : P s)
    (herr : ∀ w, P (s.tileError id w)) (hset : ∀ c, P (s.setAgent c))
    (hdrain : ∀ l bytes c, P (((s.writeBytes l bytes).markOwn l bytes.length).setAgent c)) :
    P (s.execHead id) := by
  unfold State.execHead
  -- as a pair of functions, lest the kernel evaluate the 4096 elements of a drain
  obtain ⟨d1, d2, hd⟩ : ∃ d1 d2, drainElems = fun code f es i n => (d1 code f es i n, d2 code f es i n) :=
    ⟨fun code f es i n => (drainElems code f es i n).1, fun code f es i n => (drainElems code f es i n).2, rfl⟩
  rw [hd]
  extract_lets c src tile
  split
  · exact hsame
  next cmd rest _ =>
    split
    · exact herr _
    next hbad =>
      clear hbad
      extract_lets m
      cases cmd with
      | mma => exact hset _
      | mmas => exact hset _
      | mzero => exact hset _
      | mdrain => exact hdrain _ _ _

@[simp] theorem State.execHead_wf {s : State} (h : s.Canonical) (id : AgentId) :
    (s.execHead id).Canonical := by
  refine State.execHead_cases (P := fun t => t.Canonical) h (State.tileError_wf h id) (fun c => ?_) fun l bytes c =>
    ?_
  · simpa using h
  · rw [State.Canonical, State.setAgent_mem, State.markOwn_mem]
    exact State.writeBytes_wf _ _ h

@[simp] theorem State.matExecute_wf {s : State} (h : s.Canonical) (k : Nat) (kind : MatCmd → Bool) :
    (s.matExecute k kind).Canonical := by
  unfold State.matExecute
  grind [State.execHead_wf, State.setCluster_mem]

@[simp] theorem State.enqueue_mem (s : State) (cmd : MatCmd) (slots : List Slot) (named : Bool) :
    (s.enqueue cmd slots named).mem = s.mem := rfl

/-! ## Engines -/

@[simp] theorem State.accessAllDev_mem (s : State) (as : List Access) : (s.accessAllDev as).1.mem = s.mem := by
  fun_induction State.accessAllDev <;> simp_all

@[simp] theorem State.asCmd_wf {α : Type} {s : State} (h : s.Canonical) (i : EngineId) (c : Cmd)
    {f : State → State × α} (hf : ∀ t, t.Canonical → (f t).1.Canonical) :
    (s.asCmd i c f).1.Canonical := by
  unfold State.asCmd
  simp [hf, h]

@[simp] theorem State.cmdRead_wf {s : State} (h : s.Canonical) (c : Cmd) (ea : Addr) (n : Nat) :
    (s.cmdRead c ea n).1.Canonical := by
  unfold State.cmdRead
  repeat' split
  all_goals simp [h]

@[simp] theorem State.cmdRead32_wf {s : State} (h : s.Canonical) (c : Cmd) (ea : Addr) :
    (s.cmdRead32 c ea).1.Canonical := by
  unfold State.cmdRead32
  grind [State.cmdRead_wf]

@[simp] theorem State.fetchParts_wf {s : State} (h : s.Canonical) (c : Cmd) (parts : List (Addr × Nat))
    (rs : List Request) :
    (s.fetchParts c parts rs).1.Canonical := by
  induction parts generalizing s rs with
  | nil => exact h
  | cons part rest ih =>
    unfold State.fetchParts
    extract_lets add
    have hadd : ∀ x (r : State × Fetched), r.1.Canonical → (add x r).1.Canonical := by
      intro x r hr
      unfold add
      split <;> exact hr
    split
    · exact hadd _ _ (ih (State.cmdRead_wf h ..) _)
    · exact h
    · split
      · split
        · exact hadd _ _ (ih h _)
        · exact h
      · exact h

@[simp] theorem State.beforeCmd_wf {s : State} (h : s.Canonical) (c : Cmd) (part : Addr × Nat) :
    (s.beforeCmd c part).Canonical := by
  unfold State.beforeCmd
  split <;> simp [h]

@[simp] theorem State.sendReads_wf {s : State} (h : s.Canonical) (c : Cmd) (xs : List (Addr × Nat)) :
    (s.sendReads c xs).1.Canonical := by
  fun_induction State.sendReads <;> simp_all

@[simp] theorem State.cmdFetch_wf {s : State} (h : s.Canonical) (i : EngineId) (c : Cmd)
    (parts : List (Addr × Nat)) :
    (s.cmdFetch i c parts).1.Canonical := by
  unfold State.cmdFetch
  refine State.asCmd_wf h i c fun t ht => ?_
  split
  · exact ht
  · split
    · exact State.fetchParts_wf ht ..
    · split
      · exact ht
      · dsimp only
        split
        · exact State.fetchParts_wf (State.sendReads_wf ht ..) ..
        · exact State.sendReads_wf ht ..

@[simp] theorem State.storeFor_wf {s : State} (h : s.Canonical) (c : Cmd) (p : Place) (bytes : List Byte) :
    (s.storeFor c p bytes).Canonical := by
  unfold State.storeFor
  exact State.afterWrite_wf (State.send_wf (State.beforeWrite_wf (State.beforeAccess_wf h ..) ..) _) _

@[simp] theorem State.cmdWrite_wf {s : State} (h : s.Canonical) (c : Cmd) (ea : Addr) (bytes : List Byte) :
    (s.cmdWrite c ea bytes).Canonical := by
  unfold State.cmdWrite
  split <;> simp [h]

@[simp] theorem State.cmdUpdate_mem (s : State) (i : EngineId) (c : Cmd) : (s.cmdUpdate i c).mem = s.mem := by
  unfold State.cmdUpdate
  simp

@[simp] theorem State.cmdFault_wf {s : State} (h : s.Canonical) (i : EngineId) (c : Cmd) (ea : Addr)
    (detail : Word) :
    (s.cmdFault i c ea detail).Canonical := by
  unfold State.cmdFault
  simp [h]

@[simp] theorem State.queueCmd_wf {s : State} (h : s.Canonical) (i : EngineId) (c : Cmd) :
    (s.queueCmd i c).Canonical := by
  unfold State.queueCmd
  simp [h]

@[simp] theorem State.cmdDrain_wf {s : State} (h : s.Canonical) (i : EngineId) (c : Cmd) :
    (s.cmdDrain i c).Canonical := by
  unfold State.cmdDrain
  simp [h]

@[simp] theorem State.cmdSettled_wf {s : State} (h : s.Canonical) (i : EngineId) (c : Cmd) :
    (s.cmdSettled i c).Canonical := by
  unfold State.cmdSettled
  simp [h]

@[simp] theorem State.cmdMailbox_wf {s : State} (h : s.Canonical) (i : EngineId) (c : Cmd) :
    (s.cmdMailbox i c).Canonical := by
  unfold State.cmdMailbox
  exact wf_ite (State.cmdSettled_wf h ..)
    (State.asCmd_wf (State.cmdSettled_wf h ..) i c fun t ht => State.cmdWrite_wf ht ..)

@[simp] theorem State.engineFault_wf {s : State} (h : s.Canonical) (i : EngineId) :
    (s.engineFault i).Canonical := by
  unfold State.engineFault
  split <;> simp [h]

@[simp] theorem State.cmdRefused_wf {s : State} (h : s.Canonical) (i : EngineId) (c : Cmd) :
    (s.cmdRefused i c).Canonical := by
  unfold State.cmdRefused
  simp [h]

/-! ## Page3 -/

@[simp] theorem State.orderAfterAll_wf {s : State} (h : s.Canonical) (o : Ordering) (n : Nat) (ps : List Place) :
    (s.orderAfterAll o n ps).Canonical := by
  fun_induction State.orderAfterAll <;> simp_all

@[simp] theorem State.acceptElems_wf {s : State} (h : s.Canonical) (n : Nat) (t : Tick) (ls : List Nat)
    (ps : List Place) (ls' ls2 : List Nat) :
    (s.acceptElems n t ls ps ls' ls2).Canonical := by
  fun_induction State.acceptElems <;> simp_all

/-! ## Cistern -/

@[simp] theorem State.gatherPiece_wf {s : State} (h : s.Canonical) (c : Cmd) (k : Nat) :
    (s.gatherPiece c k).1.Canonical := by
  unfold State.gatherPiece
  extract_lets per off src
  have hread := State.cmdRead32_wf h c src
  split
  all_goals
    next heq =>
      rw [heq] at hread
      simp [hread]

@[simp] theorem State.readRows_wf {s : State} (h : s.Canonical) (c : Cmd) (off : Nat) (rows : List Nat) :
    (s.readRows c off rows).1.Canonical := by
  induction rows generalizing s with
  | nil => exact h
  | cons r rest ih =>
    unfold State.readRows
    have hread := State.cmdRead32_wf h c (c.src.cursor + BitVec.ofNat 48 (r * c.length + off))
    dsimp only
    split
    all_goals
      next heq =>
        rw [heq] at hread
        simp [ih, hread]

@[simp] theorem State.reduceCount_wf {s : State} (h : s.Canonical) (c : Cmd) (ca : Addr) (rows : Nat) :
    (s.reduceCount c ca rows).1.Canonical := by
  unfold State.reduceCount
  grind [State.cmdRead_wf, State.cmdWrite_wf]

@[simp] theorem State.reducePiece_wf {s : State} (h : s.Canonical) (c : Cmd) (k : Nat) :
    (s.reducePiece c k).1.Canonical := by
  unfold State.reducePiece
  extract_lets per targets d rows off at_ t w ca
  have hrows := State.readRows_wf h c off rows
  split
  next heq =>
    rw [heq] at hrows
    exact hrows
  next u srcs heq =>
    rw [heq] at hrows
    have hold := State.cmdRead_wf hrows c at_ 32
    split
    next heq =>
      rw [heq] at hold
      exact hold
    next old heq =>
      rw [heq] at hold
      extract_lets es v flagged
      have hv : v.Canonical := State.cmdWrite_wf hold ..
      have hcount := State.reduceCount_wf hv c ca rows.length
      split
      · split
        all_goals
          next heq =>
            rw [heq] at hcount
            exact hcount
      · exact hv

@[simp] theorem State.convertPiece_wf {s : State} (h : s.Canonical) (c : Cmd) (k : Nat) :
    (s.convertPiece c k).1.Canonical := by
  unfold State.convertPiece
  extract_lets n
  have hrows := State.readRows_wf h { c with length := 32 } 0 (upFrom (c.taken * k) n)
  split
  next heq =>
    rw [heq] at hrows
    exact hrows
  next t beats heq =>
    rw [heq] at hrows
    dsimp only
    split <;> simp [hrows]

@[simp] theorem State.convertCovered_wf {s : State} (h : s.Canonical) (i : EngineId) (c : Cmd) :
    (s.convertCovered i c).Canonical := by
  unfold State.convertCovered
  exact wf_ite (State.asCmd_wf h i c fun t ht => by simpa using ht) h

@[simp] theorem State.cisternStep_wf {s : State} (h : s.Canonical) (i : EngineId) (c : Cmd) :
    (s.cisternStep i c).Canonical := by
  unfold State.cisternStep
  extract_lets piece
  have hpiece : piece.1.Canonical := by
    unfold piece
    split
    · exact State.cmdDrain_wf (State.asCmd_wf h i c fun t ht => State.reducePiece_wf ht ..) ..
    · exact State.asCmd_wf h i c fun t ht => State.convertPiece_wf ht ..
    · exact State.asCmd_wf h i c fun t ht => State.gatherPiece_wf ht ..
  clear_value piece
  obtain ⟨t, a | fl⟩ := piece
  · exact State.cmdFault_wf hpiece ..
  · exact State.Canonical.of_mem (State.cmdUpdate_mem ..) (State.convertCovered_wf hpiece ..)

@[simp] theorem State.cisternEnd_wf {s : State} (h : s.Canonical) (i : EngineId) (c : Cmd) :
    (s.cisternEnd i c).Canonical := by
  unfold State.cisternEnd
  exact wf_ite (State.cmdRefused_wf h ..) (wf_ite h (by simp [h]))

/-! ## Items -/

@[simp] theorem State.fillHalves_mem (s : State) (level : Nat) (e : Exemplar) (ls : List Nat) :
    (s.fillHalves level e ls).mem = s.mem := by
  fun_induction State.fillHalves <;> simp_all

@[simp] theorem State.freezeTeam_mem (s : State) (x : Pfx) (a : RegNum) (d : FreezeDesc) (n : Nat) (t : Task)
    (id : CoreId) :
    (s.freezeTeam x a d n t id).mem = s.mem := by
  unfold State.freezeTeam
  dsimp only
  repeat' split
  all_goals simp

@[simp] theorem State.freezeAlone_mem (s : State) (x : Pfx) (a : RegNum) (d : FreezeDesc) (n : Nat) :
    (s.freezeAlone x a d n).mem = s.mem := rfl

/-! ## Descriptor -/

@[simp] theorem State.queueLaunch_mem (s : State) (c : Ctx) (d : Desc) (code : Option (BitVec 8))
    (revival : Option Revival) :
    (s.queueLaunch c d code revival).1.mem = s.mem := rfl

/-! ## Page6 -/

@[simp] theorem State.dropTlb_mem (s : State) (v : Invalidation) : (s.dropTlb v).mem = s.mem := rfl

@[simp] theorem State.finishThrough_wf {s : State} (h : s.Canonical) (v : Invalidation) :
    (s.finishThrough v).Canonical := by
  unfold State.finishThrough
  simp [h]

@[simp] theorem State.scrubCore_wf {s : State} (h : s.Canonical) (c : CoreId) : (s.scrubCore c).Canonical := by
  unfold State.scrubCore
  simp [h, Snapshot.zero_wf]

@[simp] theorem State.setOwner_mem (s : State) (o : OwnTarget) (new : BitVec 8) :
    (s.setOwner o new).mem = s.mem := by
  unfold State.setOwner
  split <;> simp

@[simp] theorem State.writeOwner_wf {s : State} (h : s.Canonical) (o : OwnTarget) (new : BitVec 8) :
    (s.writeOwner o new).1.Canonical := by
  unfold State.writeOwner
  dsimp only
  repeat' split
  all_goals simp [h]

@[simp] theorem State.debugTask_mem (s : State) (op : Nat) (t : Option Task) :
    (s.debugTask op t).1.mem = s.mem := by
  unfold State.debugTask
  dsimp only
  repeat' split
  all_goals rfl

/-! ## Culvert -/

@[simp] theorem State.putBeat_wf {s : State} (h : s.Canonical) (i : EngineId) (c : Cmd) (dst : Addr)
    (out : List Byte) :
    (s.putBeat i c dst out).Canonical := by
  have hput := State.asCmd_wf h i c (f := fun s => (s.cmdWrite c dst out, ())) fun t ht => State.cmdWrite_wf ht ..
  unfold State.putBeat
  dsimp only
  split
  · exact State.traceCopy_wf (State.cmdDrain_wf hput ..) ..
  · exact hput

@[simp] theorem State.copyBeat_wf {s : State} (h : s.Canonical) (i : EngineId) (c : Cmd) :
    (s.copyBeat i c).Canonical := by
  unfold State.copyBeat
  extract_lets src dst
  split
  · exact State.cmdRefused_wf h ..
  · split
    · exact h
    · have hf := State.cmdFetch_wf h i c (beatParts src)
      split
      all_goals
        next heq =>
          rw [heq] at hf
          simp [hf]

@[simp] theorem State.zeroBeats_wf {s : State} (h : s.Canonical) (c : Cmd) (n : Nat) :
    (s.zeroBeats c n).Canonical := by
  fun_induction State.zeroBeats <;> simp_all

@[simp] theorem State.haltChannel_mem (s : State) (ch : Nat) : (s.haltChannel ch).mem = s.mem := by
  unfold State.haltChannel
  split <;> rfl

@[simp] theorem State.culvertProduce_wf {s : State} (h : s.Canonical) (i : EngineId) (c : Cmd) :
    (s.culvertProduce i c).Canonical := by
  unfold State.culvertProduce
  simp [h]

@[simp] theorem State.copyProduce_wf {s : State} (h : s.Canonical) (i : EngineId) (c : Cmd) :
    (s.copyProduce i c).Canonical := by
  have hfinish : ∀ t : State, t.Canonical →
      ((t.cmdMailbox i c).cmdEnd i { c with state := .complete }).Canonical := fun t ht => by simp [ht]
  unfold State.copyProduce
  dsimp only
  split
  · split
    · split
      · exact State.engineFault_wf h ..
      · exact wf_ite h (hfinish _ (State.culvertProduce_wf h ..))
    · exact State.engineFault_wf h ..
  · exact hfinish s h

@[simp] theorem State.tagFault_wf {s : State} (h : s.Canonical) (i : EngineId) (c : Cmd) :
    (s.tagFault i c).Canonical := by
  have hzero := State.asCmd_wf h i c (f := fun s => (s.zeroBeats c c.total, ())) fun t ht => State.zeroBeats_wf ht ..
  unfold State.tagFault
  simp [hzero]

@[simp] theorem State.copyVerified_wf {s : State} (h : s.Canonical) (i : EngineId) (c : Cmd)
    (parts : List (Option (List Byte))) :
    (s.copyVerified i c parts).Canonical := by
  unfold State.copyVerified
  split
  · exact State.cmdFault_wf h ..
  · refine State.copyProduce_wf ?_ ..
    simp [h]

@[simp] theorem State.copyEnd_wf {s : State} (h : s.Canonical) (i : EngineId) (c : Cmd) :
    (s.copyEnd i c).Canonical := by
  have hf := State.cmdFetch_wf (State.cmdSettled_wf h i c) i c c.endParts
  unfold State.copyEnd
  split
  · exact State.cmdRefused_wf h ..
  · split
    · exact h
    · split
      · exact State.copyProduce_wf h ..
      · split
        next heq =>
          rw [heq] at hf
          exact State.cmdRefused_wf hf ..
        next heq =>
          rw [heq] at hf
          simpa using hf
        next heq =>
          rw [heq] at hf
          exact wf_ite (wf_ite (State.tagFault_wf hf ..) (State.copyVerified_wf hf ..)) (State.copyVerified_wf hf ..)

/-! ## Page0Mem -/

@[simp] theorem loadSlots_mem (s : State) (cap : GReg) (xs : List (List Byte × Bool)) (xs' : List RegNum) :
    (loadSlots cap s xs xs').mem = s.mem := by
  fun_induction loadSlots <;> simp_all

/-! ## Sampling -/

@[simp] theorem State.beginInstr_mem (s : State) : (s.beginInstr).mem = s.mem := rfl

@[simp] theorem State.countEvents_mem (s : State) (c : CoreId) (p : Progress) (i : Sampled) (before after : Core) :
    (s.countEvents c p i before after).mem = s.mem := by
  unfold State.countEvents
  dsimp only
  split <;> rfl

@[simp] theorem State.abandonMark_mem (s : State) : (s.abandonMark).mem = s.mem := rfl

/-! ## Events -/

@[simp] theorem State.walkFill_mem (s : State) (c : CoreId) (context : BitVec 8) (va : Nat) :
    (s.walkFill c context va).mem = s.mem := by
  unfold State.walkFill
  repeat' split
  all_goals rfl

@[simp] theorem State.rmwSlot_wf {s : State} (h : s.Canonical) (a : AgentId) : (s.rmwSlot a).Canonical := by
  unfold State.rmwSlot
  dsimp only
  repeat' split
  all_goals simp [h]

@[simp] theorem State.rmwFrame_wf {s : State} (h : s.Canonical) (k slot n : Nat) :
    (s.rmwFrame k slot n).Canonical := by
  fun_induction State.rmwFrame <;> simp_all

@[simp] theorem State.applyDie_wf {s : State} (h : s.Canonical) (die : BitVec 2) : (s.applyDie die).Canonical := by
  unfold State.applyDie
  simp [h]

@[simp] theorem State.dieEvent_mem (s : State) (die : BitVec 2) : (s.dieEvent die).mem = s.mem := rfl

/-! ## Team -/

@[simp] theorem State.raiseAll_mem (s : State) : (s.raiseAll).mem = s.mem := rfl

@[simp] theorem State.aside_mem (s : State) (all : Bool) : (s.aside all).mem = s.mem := rfl

@[simp] theorem State.scrubMatrix_mem (s : State) (cs : List CoreId) : (s.scrubMatrix cs).mem = s.mem := by
  fun_induction State.scrubMatrix <;> simp_all

@[simp] theorem State.scrubCluster_wf {s : State} (h : s.Canonical) (context : BitVec 8) (k : Nat) :
    (s.scrubCluster context k).Canonical := by
  unfold State.scrubCluster
  dsimp only
  split <;> simp [h, Snapshot.zero_wf]

@[simp] theorem State.scrubAll_wf {s : State} (h : s.Canonical) (context : BitVec 8) (ls : List Nat) :
    (s.scrubAll context ls).Canonical := by
  fun_induction State.scrubAll <;> simp_all

@[simp] theorem State.takeTeam_wf {s : State} (h : s.Canonical) (t : Task) (team : List (BitVec 2 × BitVec 7)) :
    (s.takeTeam t team).Canonical := by
  unfold State.takeTeam
  simp [h]

@[simp] theorem State.releaseTask_wf {s : State} (h : s.Canonical) (t : Task) : (s.releaseTask t).Canonical := by
  unfold State.releaseTask
  simp [h]

@[simp] theorem State.restCores_mem (s : State) (cs : List CoreId) : (s.restCores cs).mem = s.mem := by
  fun_induction State.restCores <;> simp_all

@[simp] theorem State.closeWeirs_mem (s : State) (ls : List Nat) : (s.closeWeirs ls).mem = s.mem := by
  fun_induction State.closeWeirs <;> simp_all

@[simp] theorem State.closeFlumes_mem (s : State) (ls : List Nat) : (s.closeFlumes ls).mem = s.mem := by
  fun_induction State.closeFlumes <;> simp_all

@[simp] theorem State.vacate_mem (s : State) (t : Task) : (s.vacate t).mem = s.mem := by
  unfold State.vacate
  split <;> simp

@[simp] theorem State.preempt_wf {s : State} (h : s.Canonical) (t : Task) (next : TaskState) :
    (s.preempt t next).Canonical := by
  unfold State.preempt
  grind [State.abandonAll_wf, State.eventRecord_wf, State.liftCommands_wf, State.releaseTask_wf, State.setTask_mem,
    State.vacate_mem]

@[simp] theorem State.putWeirs_mem (s : State) (f : CoreId → CoreId) (a : Assoc Weir) :
    (s.putWeirs f a).mem = s.mem := by
  fun_induction State.putWeirs <;> simp_all

@[simp] theorem State.putFlumes_mem (s : State) (f : CoreId → CoreId) (a : Assoc Flume) :
    (s.putFlumes f a).mem = s.mem := by
  fun_induction State.putFlumes <;> simp_all

@[simp] theorem State.putHalves_mem (s : State) (xs : List (Nat × Halves)) : (s.putHalves xs).mem = s.mem := by
  fun_induction State.putHalves <;> simp_all

@[simp] theorem State.putCores_wf {s : State} (h : s.Canonical) (t : Task) (f : AgentId → AgentId)
    (xs : List Core) :
    (s.putCores t f xs).Canonical := by
  fun_induction State.putCores <;> simp_all

@[simp] theorem State.resumeTask_wf {s : State} (h : s.Canonical) (t : Task) (team : List (BitVec 2 × BitVec 7)) :
    (s.resumeTask t team).Canonical := by
  unfold State.resumeTask
  extract_lets old s1 t1 f g x s2 s3 s4 s5
  have hx : Memory.wf x.mem = true := Snapshot.putImages_wf (Snapshot.putRegions_wf (State.takeTeam_wf h ..) ..) ..
  have h2 : s2.Canonical := by simpa [s2] using hx
  have h3 : s3.Canonical := State.putCores_wf (by simpa using h2) ..
  have h5 : s5.Canonical := by simpa [s5, s4] using h3
  simpa using h5

/-! ## Revival -/

@[simp] theorem State.ownPage_wf {s : State} (h : s.Canonical) (context : BitVec 8) (num : BitVec 32) (va : Nat) :
    (s.ownPage context num va).Canonical := by
  unfold State.ownPage
  repeat' split
  all_goals simp [h, Snapshot.copyFrom_wf]

@[simp] theorem State.reapply_wf {s : State} (h : s.Canonical) (t : Task) (records : List ItemRec) (r : Refused) :
    (s.reapply t records r).1.Canonical := by
  unfold State.reapply
  extract_lets n give u
  split
  · exact h
  · exact h
  · split
    · exact Refused.apply_wf (x := u.shot) (State.ownPage_wf h ..) _ _
    · exact h

@[simp] theorem State.reapplyAll_wf {s : State} (h : s.Canonical) (t : Task) (records : List ItemRec)
    (rs : List Refused) :
    (s.reapplyAll t records rs).1.Canonical := by
  induction rs generalizing s t with
  | nil => exact h
  | cons r rest ih => exact ih (State.reapply_wf h ..) _

@[simp] theorem State.countMiss_wf {s : State} (h : s.Canonical) (t : Task) (f : AgentId → AgentId) (o : Origin)
    (m : Miss) :
    (s.countMiss t f o m).1.Canonical := by
  unfold State.countMiss
  repeat' split
  all_goals simp [h]

@[simp] theorem State.countMisses_wf {s : State} (h : s.Canonical) (t : Task) (f : AgentId → AgentId)
    (freeze : Tick) (rs : List Refused) :
    (s.countMisses t f freeze rs).1.Canonical := by
  fun_induction State.countMisses <;> grind [State.countMiss_wf]

@[simp] theorem State.kickAgain_wf {s : State} (h : s.Canonical) (t : Task) (f : AgentId → AgentId)
    (cmds : List Cmd) :
    (s.kickAgain t f cmds).Canonical := by
  fun_induction State.kickAgain <;> grind [State.loadOwner_mem, State.setEngine_mem, State.traceCopy_wf]

@[simp] theorem State.startRevival_wf {s : State} (h : s.Canonical) (t : Task) (v : Revival) (k : Corpse)
    (team : List (BitVec 2 × BitVec 7)) :
    (s.startRevival t v k team).Canonical := by
  unfold State.startRevival
  extract_lets num records o s1 mine
  have h1 := State.reapplyAll_wf (s := s1) h t records (mine.filter fun r => r.timed.isNone)
  generalize s1.reapplyAll t records (mine.filter fun r => r.timed.isNone) = r1 at h1 ⊢
  obtain ⟨s2, t2⟩ := r1
  dsimp only
  have h2 := State.countMisses_wf h1 t2 (slotAgentOf t2.slots (t2.onTeam s2 team).slots) k.freeze mine
  generalize s2.countMisses t2 (slotAgentOf t2.slots (t2.onTeam s2 team).slots) k.freeze mine = r2 at h2 ⊢
  obtain ⟨s3, t3⟩ := r2
  exact State.kickAgain_wf (State.resumeTask_wf h2 ..) ..

/-! ## Intake -/

@[simp] theorem State.bindGuest_mem (s : State) (f : Nat) : (s.bindGuest f).mem = s.mem := by
  unfold State.bindGuest
  split <;> rfl

@[simp] theorem State.handover_wf {s : State} (h : s.Canonical) (q : Nat) : (s.handover q).Canonical := by
  unfold State.handover
  dsimp only
  repeat' split
  all_goals simp [h]

@[simp] theorem State.reject_wf {s : State} (h : s.Canonical) (q : Nat) (a : Word) (reason : Nat) :
    (s.reject q a reason).Canonical := by
  unfold State.reject
  simp [h]

@[simp] theorem State.consume_mem (s : State) (q : Nat) (a : Word) : (s.consume q a).mem = s.mem := rfl

@[simp] theorem State.journalBy_wf {s : State} (h : s.Canonical) (q : Nat) (j : Journal) :
    (s.journalBy q j).Canonical := by
  unfold State.journalBy
  simp [h]

@[simp] theorem State.acceptTask_wf {s : State} (h : s.Canonical) (q : Nat) (j : Journal) (t : Task) :
    (s.acceptTask q j t).Canonical := by
  unfold State.acceptTask
  grind [State.journalBy_wf, State.setTask_mem]

@[simp] theorem State.internalLaunch_wf {s : State} (h : s.Canonical) (x : Ctx) (l : Launch)
    (cfgs : List FlumeCfg) :
    (s.internalLaunch x l cfgs).Canonical := by
  unfold State.internalLaunch
  grind [State.acceptTask_wf, State.handover_wf, State.journalBy_wf, State.setCtx_mem, State.setTask_mem]

@[simp] theorem State.internalNext_wf {s : State} (h : s.Canonical) (x : Ctx) (l : Launch) :
    (s.internalNext x l).Canonical := by
  unfold State.internalNext
  split <;> simp [h]

@[simp] theorem State.internalAll_wf {s : State} (h : s.Canonical) (context : BitVec 8) (n : Nat) :
    (s.internalAll context n).Canonical := by
  induction n generalizing s with
  | zero => exact h
  | succ n ih =>
    unfold State.internalAll
    split
    · exact h
    · split
      · exact h
      · exact ih (State.internalNext_wf h ..)

@[simp] theorem State.intakeLaunch_wf {s : State} (h : s.Canonical) (q : Nat) (c : Command) :
    (s.intakeLaunch q c).Canonical := by
  unfold State.intakeLaunch
  dsimp only
  repeat' split
  all_goals simp [h]

@[simp] theorem State.abortMigration_mem (s : State) (context : BitVec 8) :
    (s.abortMigration context).mem = s.mem := by
  unfold State.abortMigration
  repeat' split
  all_goals rfl

@[simp] theorem State.intakeKill_wf {s : State} (h : s.Canonical) (q : Nat) (c : Command) :
    (s.intakeKill q c).Canonical := by
  unfold State.intakeKill
  dsimp only
  repeat' split
  all_goals simp [h]

@[simp] theorem State.intakeSignal_wf {s : State} (h : s.Canonical) (q : Nat) (c : Command) :
    (s.intakeSignal q c).Canonical := by
  unfold State.intakeSignal
  simp [h]

/-! ## Resets -/

@[simp] theorem State.firstContext_mem (s : State) : (s.firstContext).mem = s.mem := by
  unfold State.firstContext
  split <;> rfl

@[simp] theorem State.boot_wf {s : State} (h : s.Canonical) (images : List Image) : (s.boot images).Canonical := by
  unfold State.boot
  grind [Snapshot.zero_wf, State.shot_mem, memWrite_wf]

@[simp] theorem State.restart_mem (s : State) (a : AgentId) : (s.restart a).mem = s.mem := by
  unfold State.restart
  simp

@[simp] theorem State.freezeOne_wf {s : State} (h : s.Canonical) (die : BitVec 2) (guest : Option Nat)
    (context : BitVec 8) :
    (s.freezeOne die guest context).Canonical := by
  unfold State.freezeOne
  simp [h]

@[simp] theorem State.freezeBound_wf {s : State} (h : s.Canonical) (f : BitVec 6) (die : BitVec 2)
    (xs : List (Nat × Ctx)) :
    (s.freezeBound f die xs).Canonical := by
  fun_induction State.freezeBound <;> grind [State.freezeOne_wf]

/-! ## Spdm -/

@[simp] theorem State.spdmRefuse_mem (s : State) (f : BitVec 6) (code : BitVec 8) :
    (s.spdmRefuse f code).mem = s.mem := rfl

@[simp] theorem State.drawn_mem (s : State) (n : Nat) : (s.drawn n).mem = s.mem := rfl

@[simp] theorem State.sessionAnswer_mem (s : State) (f : BitVec 6) (msg : List Byte) :
    (s.sessionAnswer f msg).mem = s.mem := rfl

/-! ## Contexts -/

@[simp] theorem State.zeroPages_wf {s : State} (h : s.Canonical) (xs : List (Nat × Nat × Nat)) :
    (s.zeroPages xs).Canonical := by
  fun_induction State.zeroPages <;> grind [Snapshot.zero_wf, State.setShot_mem, State.shot_mem]

@[simp] theorem State.eraseContext_wf {s : State} (h : s.Canonical) (context : BitVec 8) :
    (s.eraseContext context).Canonical := by
  unfold State.eraseContext
  split <;> simp [h]

@[simp] theorem State.asSecurity_wf {s : State} (h : s.Canonical) {f : State → State × Word}
    (hf : ∀ t, t.Canonical → (f t).1.Canonical) :
    (s.asSecurity f).1.Canonical := by
  unfold State.asSecurity
  simp [hf, h]

@[simp] theorem State.releaseOwned_wf {s : State} (h : s.Canonical) (context : BitVec 8) :
    (s.releaseOwned context).Canonical := by
  unfold State.releaseOwned
  grind [State.asSecurity_wf, State.writeOwner_wf, foldl_mem, foldl_wf]

@[simp] theorem State.leave_wf {s : State} (h : s.Canonical) (context : BitVec 8) :
    (s.leave context).Canonical := by
  unfold State.leave
  simp [h]

@[simp] theorem State.dropMigration_mem (s : State) (context : BitVec 8) :
    (s.dropMigration context).mem = s.mem := rfl

@[simp] theorem State.preemptAll_wf {s : State} (h : s.Canonical) (ts : List Task) :
    (s.preemptAll ts).Canonical := by
  fun_induction State.preemptAll <;> simp_all

@[simp] theorem State.migrateOut_wf {s : State} (h : s.Canonical) (c : Ctx) (device : BitVec 19) :
    (s.migrateOut c device).Canonical := by
  unfold State.migrateOut
  extract_lets s1 run s2 text m
  have h1 : s1.Canonical := by simpa [s1] using h
  have h2 : s2.Canonical := State.preemptAll_wf h1 _
  clear_value s2 m
  have h3 : ∀ j, ((s2.releaseScheduler 0).journalAdd j).Canonical := fun j => by
    rw [State.Canonical, State.journalAdd_mem]
    exact State.releaseScheduler_wf h2 0
  refine wf_ite h1 ?_
  simp only [State.Canonical]
  exact h3 _

@[simp] theorem State.install_wf {s : State} (h : s.Canonical) (source : BitVec 19) (context : BitVec 8)
    (a : Arrived) (text : List Byte) :
    (s.install source context a text).Canonical := by
  unfold State.install
  simp [h, memMerge_wf]

@[simp] theorem State.markLost_mem (s : State) (context : BitVec 8) (serial : Nat) :
    (s.markLost context serial).mem = s.mem := rfl

/-! ## Fabric -/

@[simp] theorem State.answer_mem (s : State) (a : AgentId) (k : Asker) (o : Outcome) :
    (s.answer a k o).mem = s.mem := by
  unfold State.answer
  repeat' split
  all_goals simp

@[simp] theorem State.served_wf {s : State} (h : s.Canonical) (r : Request) (c : Completion) :
    (s.served r c).1.Canonical := by
  unfold State.served
  dsimp only
  repeat' split
  all_goals simp [h, memWrite_wf]

@[simp] theorem State.completion_wf {s : State} (h : s.Canonical) (a : AgentId) (c : Completion) :
    (s.completion a c).Canonical := by
  unfold State.completion
  split <;> simp [h]

@[simp] theorem State.enableVfs_mem (s : State) (n : Nat) (ls : List Nat) : (s.enableVfs n ls).mem = s.mem := by
  fun_induction State.enableVfs <;> simp_all

@[simp] theorem State.reply_mem (s : State) (f : Flit) (a : Answer) : (s.reply f a).mem = s.mem := rfl

@[simp] theorem State.peerTimed_mem (s : State) (f : Flit) (bytes : List Byte) (t : Tick) (die : BitVec 2)
    (agent order element : Nat) :
    (s.peerTimed f bytes t die agent order element).mem = s.mem := by
  unfold State.peerTimed
  dsimp only
  split <;> rfl

@[simp] theorem State.acknowledge_wf {s : State} (h : s.Canonical) (source : BitVec 19) (n : Nat) :
    (s.acknowledge source n).Canonical := by
  unfold State.acknowledge
  dsimp only
  repeat' split
  all_goals simp [h]

@[simp] theorem State.refuseWrite_wf {s : State} (h : s.Canonical) (source : BitVec 19) (n : Nat) :
    (s.refuseWrite source n).Canonical := by
  unfold State.refuseWrite
  dsimp only
  repeat' split
  all_goals simp [h]

@[simp] theorem State.peerRequest_wf {s : State} (h : s.Canonical) (f : Flit) : (s.peerRequest f).Canonical := by
  unfold State.peerRequest
  grind [State.acknowledge_wf, State.peerTimed_mem, State.refuseWrite_wf, State.reply_mem, State.store_wf,
    State.writeBytes_mem, State.writeBytes_wf]

@[simp] theorem State.portDown_mem (s : State) (port : BitVec 4) : (s.portDown port).mem = s.mem := rfl

@[simp] theorem State.replay_mem (s : State) (port : BitVec 4) : (s.replay port).mem = s.mem := by
  unfold State.replay
  dsimp only
  split <;> rfl

@[simp] theorem State.endToward_wf {s : State} (h : s.Canonical) (d : BitVec 19) (i : EngineId) (cmds : List Cmd) :
    (s.endToward d i cmds).Canonical := by
  fun_induction State.endToward <;> grind [State.cmdRefused_wf]

@[simp] theorem State.endAllToward_wf {s : State} (h : s.Canonical) (d : BitVec 19) (is : List EngineId) :
    (s.endAllToward d is).Canonical := by
  fun_induction State.endAllToward <;> simp_all

@[simp] theorem State.refuseKept_wf {s : State} (h : s.Canonical) (cmds : List Cmd) :
    (s.refuseKept cmds).Canonical := by
  fun_induction State.refuseKept <;> grind [State.cmdRefused_wf]

@[simp] theorem State.endKept_wf {s : State} (h : s.Canonical) (d : BitVec 19) : (s.endKept d).Canonical := by
  unfold State.endKept
  simp [h]

@[simp] theorem State.failRequests_mem (s : State) (d : BitVec 19) : (s.failRequests d).mem = s.mem := rfl

/-! ## Placement -/

@[simp] theorem State.startTask_wf {s : State} (h : s.Canonical) (t : Task) (team : List (BitVec 2 × BitVec 7)) :
    (s.startTask t team).Canonical := by
  unfold State.startTask
  grind [State.openChannels_wf, State.setFlumeMembers_mem, State.setMembers_mem, State.setTask_mem,
    State.startNext_wf, State.takeTeam_wf]

@[simp] theorem State.startInSpace_wf {s : State} (h : s.Canonical) (t : Task) (v : Revival) (k : Corpse)
    (team : List (BitVec 2 × BitVec 7)) :
    (s.startInSpace t v k team).Canonical := by
  unfold State.startInSpace
  simp [h]

@[simp] theorem State.place_wf {s : State} (h : s.Canonical) (t : Task) (team : List (BitVec 2 × BitVec 7)) :
    (s.place t team).Canonical := by
  unfold State.place
  split
  · exact State.startTask_wf h ..
  · split
    · exact State.startTask_wf h ..
    · exact wf_ite (State.startInSpace_wf h ..) (State.startRevival_wf h ..)

/-! ## Freezing -/

@[simp] theorem State.refuseWrites_mem (s : State) (ts : List Task) : (s.refuseWrites ts).1.mem = s.mem := rfl

@[simp] theorem State.takeTargets_wf {s : State} (h : s.Canonical) (ts : List Task) (refused : List Refused)
    (is : List EngineId) :
    (s.takeTargets ts refused is).1.Canonical := by
  fun_induction State.takeTargets <;> grind [State.cmdEnd_mem, State.done_mem, State.traceEnd_wf, foldl_mem, foldl_wf]

@[simp] theorem State.notRun_wf {s : State} (h : s.Canonical) (t : Task) (index : Nat) (a : AgentId) :
    (s.notRun t index a).Canonical := by
  unfold State.notRun
  dsimp only
  repeat' split
  all_goals simp [h]

@[simp] theorem State.notRunAll_wf {s : State} (h : s.Canonical) (t : Task) (xs : List ItemRec) :
    (s.notRunAll t xs).Canonical := by
  fun_induction State.notRunAll <;> grind [State.notRun_wf]

@[simp] theorem State.journalEnd_mem (s : State) (seq : Nat) (outcome : BitVec 8) (corpse : BitVec 32)
    (result : Word) (time : Tick) :
    (s.journalEnd seq outcome corpse result time).mem = s.mem := by
  unfold State.journalEnd
  split <;> rfl

@[simp] theorem State.killTask_wf {s : State} (h : s.Canonical) (z : Freezing) (r : Recorded) :
    (s.killTask z r).Canonical := by
  unfold State.killTask
  grind [State.doneCounter_wf, State.done_mem, State.endKilled_wf, State.eventRecord_wf, State.journalEnd_mem,
    State.notRunAll_wf, State.setTask_mem, State.vacate_mem]

@[simp] theorem State.killTasks_wf {s : State} (h : s.Canonical) (z : Freezing) (rs : List Recorded) :
    (s.killTasks z rs).Canonical := by
  fun_induction State.killTasks <;> simp_all

@[simp] theorem State.killsDone_mem (s : State) (z : Freezing) (ls : List Nat) :
    (s.killsDone z ls).mem = s.mem := by
  fun_induction State.killsDone <;> simp_all

@[simp] theorem State.stopUnits_wf {s : State} (h : s.Canonical) (ts : List Task) :
    (s.stopUnits ts).1.Canonical := by
  unfold State.stopUnits
  grind [State.abandonAll_wf, State.cmdEnd_mem, State.refuseWrites_mem, State.takeTargets_wf, State.traceEnd_wf,
    foldl_mem, foldl_wf]

@[simp] theorem State.freezeInstant_wf {s : State} (h : s.Canonical) (z : Freezing) :
    (s.freezeInstant z).Canonical := by
  have happly := foldl_wf (f := fun s d => s.applyDie (BitVec.ofNat 2 d)) (fun t ht d => State.applyDie_wf ht _)
    (upFrom 0 4) h
  have hstop := State.stopUnits_wf happly (s.freezeTargets z)
  unfold State.freezeInstant
  dsimp only
  refine (congrArg Memory.wf (State.killsDone_mem ..)).trans (State.killTasks_wf ?_ ..)
  split
  · exact hstop
  · exact wf_ite hstop hstop

@[simp] theorem State.reportLost_wf {s : State} (h : s.Canonical) (lost : List (Origin × Addr)) :
    (s.reportLost lost).Canonical := by
  unfold State.reportLost
  exact foldl_wf (fun _ h _ => by simp [h]) _ h

@[simp] theorem State.freezeSpanning_wf {s : State} (h : s.Canonical) (low high : BitVec 2) (cut : List Origin)
    (ts : List Task) :
    (s.freezeSpanning low high cut ts).Canonical := by
  fun_induction State.freezeSpanning <;> grind [State.startFreeze_wf]

/-! ## Page0 -/

@[simp] theorem State.link_mem (s : State) (x : Pfx) : (s.link x).mem = s.mem := rfl

@[simp] theorem State.dropCode_mem (s : State) : (s.dropCode).mem = s.mem := rfl

/-! ## Page1 -/

@[simp] theorem storeColours_wf {s : State} (h : s.Canonical) (c : BitVec 4) (ps : List Place) :
    (storeColours s c ps).Canonical := by
  fun_induction storeColours <;> simp_all

@[simp] theorem State.settleAll_wf {s : State} (h : s.Canonical) (ps : List Place) :
    (s.settleAll ps).Canonical := by
  fun_induction State.settleAll <;> simp_all

@[simp] theorem State.setCsr_mem (s : State) (n v : Word) : (s.setCsr n v).mem = s.mem := rfl

/-! ## Agenda -/

@[simp] theorem State.settleRecord_mem (s : State) (k : Corpse) (r : ItemRec) :
    (s.settleRecord k r).mem = s.mem := by
  unfold State.settleRecord
  dsimp only
  repeat' split
  all_goals rfl

@[simp] theorem State.settleRevivals_wf {s : State} (h : s.Canonical) (id : BitVec 32) :
    (s.settleRevivals id).Canonical := by
  unfold State.settleRevivals
  grind [State.endKilled_wf, foldl_mem, foldl_wf]

/-! ## Step -/

@[simp] theorem State.evict_mem (s : State) (a : AgentId) (l : Nat) : (s.evict a l).mem = s.mem := by
  unfold State.evict
  simp

@[simp] theorem State.prefetch_mem (s : State) (a : AgentId) (va : Addr) : (s.prefetch a va).mem = s.mem := by
  unfold State.prefetch
  dsimp only
  repeat' split
  all_goals simp

@[simp] theorem State.reserve_mem (s : State) (d : BitVec 2) (eights : Nat) : (s.reserve d eights).mem = s.mem := by
  unfold State.reserve
  split <;> rfl

@[simp] theorem State.deviceSession_mem (s : State) (d : BitVec 19) (up : Bool) :
    (s.deviceSession d up).mem = s.mem := rfl

end Sys2Proof.Machine
end

section
/-! SUPPORT. Bodies of instructions that keep memory canonical, and the frames that run them. -/

namespace Sys2Proof.Machine

/-- What a stop holds is canonical. -/
def Stop.Canonical : Stop → Prop
  | .hold s _ => s.Canonical
  | _ => True

/-- What an instruction's body answers meets `p`, and a state that it holds while it waits is canonical. -/
def R.Keeps {α : Type} (p : α → Prop) : R α → Prop
  | .ok a => p a
  | .error e => e.Canonical

namespace R
variable {α β : Type} {p : α → Prop} {q : β → Prop}

@[simp] theorem keeps_ok {a : α} : R.Keeps p (.ok a) ↔ p a := Iff.rfl
@[simp] theorem keeps_pure {a : α} : R.Keeps p (pure a) ↔ p a := Iff.rfl
@[simp] theorem keeps_error_hold {s : State} {w : Wait} : R.Keeps p (.error (.hold s w)) ↔ s.Canonical := Iff.rfl

@[simp] theorem keeps_bind {r : R α} {f : α → R β} : R.Keeps q (r >>= f) ↔ R.Keeps (fun a => R.Keeps q (f a)) r := by
  cases r <;> exact Iff.rfl

@[simp] theorem keeps_map {r : R α} {f : α → β} : R.Keeps q (Except.map f r) ↔ R.Keeps (fun a => q (f a)) r := by
  cases r <;> exact Iff.rfl

theorem Keeps.mono {r : R α} {p p' : α → Prop} (h : R.Keeps p r) (hp : ∀ a, p a → p' a) : R.Keeps p' r := by
  cases r with
  | ok a => exact hp a h
  | error e => exact h

theorem Keeps.bind {r : R α} {f : α → R β} (h : R.Keeps p r) (hf : ∀ a, p a → R.Keeps q (f a)) :
    R.Keeps q (r >>= f) :=
  keeps_bind.2 (h.mono hf)

end R

/-- Whatever state a step answers is canonical. -/
def Out.Keeps : Out → Prop
  | .next s => s.Canonical
  | _ => True

/-- The answer of something that may not be due. -/
def Out.KeepsIf : Option Out → Prop
  | some r => r.Keeps
  | none => True

@[simp] theorem Out.keeps_next {s : State} : Out.Keeps (.next s) ↔ s.Canonical := Iff.rfl

theorem State.useP_keeps {s : State} (h : s.Canonical) (ps : List PredNum) : R.Keeps State.Canonical (s.useP ps) := by
  fun_induction State.useP s ps with
  | case1 => exact h
  | case2 => trivial
  | case3 s n rest _ ih => exact ih (by simpa using h)

theorem State.useG_keeps {s : State} (h : s.Canonical) (rs : List RegNum) : R.Keeps State.Canonical (s.useG rs) := by
  fun_induction State.useG s rs with
  | case1 => exact h
  | case2 => trivial
  | case3 s n rest _ ih => exact ih (by simpa using h)

theorem State.useV_keeps {s : State} (h : s.Canonical) (rs : List RegNum) : R.Keeps State.Canonical (s.useV rs) := by
  fun_induction State.useV s rs with
  | case1 => exact h
  | case2 => trivial
  | case3 s n rest _ ih => exact ih (by simpa using h)

theorem firstOf_keepsIf {l : List (Option Out)} (h : ∀ o ∈ l, Out.KeepsIf o) : Out.KeepsIf (firstOf l) := by
  induction l with
  | nil => trivial
  | cons o rest ih =>
    cases o with
    | none => exact ih fun o ho => h o (List.mem_cons_of_mem _ ho)
    | some r => exact h _ List.mem_cons_self

theorem State.settleBody_wf {s : State} (h : s.Canonical) {r : R State} (hr : R.Keeps State.Canonical r) :
    (s.settleBody r).Canonical := by
  unfold State.settleBody
  split
  · exact hr
  · exact State.takeTrap_wf h _
  · exact h
  · exact hr

theorem State.jumpInstr_wf {s : State} (h : s.Canonical) (ill priv : Bool) (x : Pfx) {body : State → R State}
    (hb : ∀ t, t.Canonical → R.Keeps State.Canonical (body t)) : (s.jumpInstr ill priv x body).Canonical := by
  unfold State.jumpInstr
  split
  · exact State.takeTrap_wf h _
  · split
    · exact State.takeTrap_wf h _
    · refine State.settleBody_wf h ?_
      have hbody : ∀ t : State, t.Canonical →
          R.Keeps State.Canonical (if t.predicate x then body t else .ok (t.setPc (t.next x))) := by
        intro t ht
        split
        · exact hb t ht
        · exact ht
      dsimp only
      split
      · exact (State.useP_keeps h _).bind hbody
      · exact hbody s h

theorem State.scalarInstr_wf {s : State} (h : s.Canonical) (ill priv : Bool) (x : Pfx) {body : State → R State}
    (hb : ∀ t, t.Canonical → R.Keeps State.Canonical (body t)) : (s.scalarInstr ill priv x body).Canonical :=
  State.jumpInstr_wf h ill priv x fun t ht => R.keeps_map.2 (hb t ht)

theorem State.vectorInstr_wf {s : State} (h : s.Canonical) (ill : Bool) (x : Pfx) {body : State → R State}
    (hb : ∀ t, t.Canonical → R.Keeps State.Canonical (body t)) : (s.vectorInstr ill x body).Canonical := by
  unfold State.vectorInstr
  split
  · exact State.takeTrap_wf h _
  · exact State.settleBody_wf h (R.keeps_map.2 (hb s h))

theorem State.observe_wf {s t : State} (h : t.Canonical) (parcels : List Parcel) : (s.observe parcels t).Canonical := by
  unfold State.observe
  extract_lets c p u
  have hu : u.Canonical := by
    unfold u
    split
    · simpa using h
    · exact h
  split
  · split
    · exact hu
    · simpa using hu
  · exact hu

theorem Out.observed_keeps (s : State) (parcels : List Parcel) {o : Out} (ho : o.Keeps) :
    Out.Keeps (Out.observed s parcels o) := by
  unfold Out.observed
  split
  · exact State.observe_wf ho _
  · exact ho

theorem State.intake_wf {s : State} (h : s.Canonical) (q : Nat) (c : Command) {effect : State → State}
    (he : ∀ t, t.Canonical → (effect t).Canonical) : (s.intake q c effect).Canonical := by
  unfold State.intake
  extract_lets s1 x s2 resync next y s3
  have h2 : s2.Canonical := by simpa [s2] using State.handover_wf h q
  have h3 : s3.Canonical := wf_ite (by simpa using h2) (by simpa using h2)
  split
  · exact State.reject_wf h2 ..
  · split
    · simpa using State.reject_wf h2 q c.accession _
    · simpa using State.reject_wf h2 q c.accession 8
    · refine wf_ite ?_ (wf_ite ?_ (he _ h3))
      · simpa using State.reject_wf h2 q c.accession 7
      · simpa using State.reject_wf h2 q c.accession 6

section
variable {s : State} (h : s.Canonical) (x : Pfx) {body : State → R State}
  (hb : ∀ t, t.Canonical → R.Keeps State.Canonical (body t))
include h hb

theorem scalarOp_keeps : (scalarOp x s body).Keeps := State.scalarInstr_wf h _ _ x hb
theorem jumpOp_keeps : (jumpOp x s body).Keeps := State.jumpInstr_wf h _ _ x hb
theorem itemOp_keeps : (itemOp x s body).Keeps := State.scalarInstr_wf h _ _ x hb
theorem firmwareOp_keeps : (firmwareOp x s body).Keeps := State.scalarInstr_wf h _ _ x hb
theorem securityOp_keeps : (securityOp x s body).Keeps := State.scalarInstr_wf h _ _ x hb
theorem vectorOp_keeps : (vectorOp x s body).Keeps := State.vectorInstr_wf h _ x hb
end
end Sys2Proof.Machine
end

section
/-! SUPPORT. What an instruction, an event and a step answer is canonical. -/

namespace Sys2Proof.Machine

theorem State.issueAway_keeps (s : State) (p : Place) : R.Keeps (fun _ => True) (s.issueAway p) := by
  unfold State.issueAway
  split
  · trivial
  · split
    · trivial
    · trivial

theorem State.issueStore_keeps (s : State) (p : Place) : R.Keeps (fun _ => True) (s.issueStore p) := by
  unfold State.issueStore
  split
  · exact State.issueAway_keeps ..
  · split
    · trivial
    · trivial

theorem State.timedStart_keeps (s : State) (zone t : Tick) : R.Keeps (fun _ => True) (s.timedStart zone t) := by
  unfold State.timedStart
  split
  · trivial
  · split
    · trivial
    · trivial

theorem State.checkWeir_keeps (s : State) (w : Nat) : R.Keeps (fun _ => True) (s.checkWeir w) := by
  unfold State.checkWeir
  split
  · trivial
  · split
    · dsimp only
      split
      · trivial
      · split
        · trivial
        · split
          · trivial
          · split
            · trivial
            · trivial
    · trivial

theorem State.checkFlume_keeps (s : State) (w : Nat) : R.Keeps (fun _ => True) (s.checkFlume w) := by
  unfold State.checkFlume
  split
  · trivial
  · split
    · dsimp only
      split
      · trivial
      · split
        · trivial
        · split
          · trivial
          · split
            · trivial
            · split
              · trivial
              · split
                · trivial
                · split
                  · trivial
                  · trivial
    · trivial

theorem State.latencyPlace_keeps (s : State) (a : Addr) : R.Keeps (fun _ => True) (s.latencyPlace a) := by
  unfold State.latencyPlace
  split
  · trivial
  · split
    · trivial
    · split
      · split
        · trivial
        · trivial
      · trivial

theorem State.emptyQueue_keeps (s : State) : R.Keeps (fun _ => True) (s.emptyQueue) := by
  unfold State.emptyQueue
  split
  · trivial
  · trivial

theorem State.queueRoom_keeps (s : State) : R.Keeps (fun _ => True) (s.queueRoom) := by
  unfold State.queueRoom
  split
  · trivial
  · trivial

theorem State.prodTarget_keeps (s : State) (q : BitVec 2) (a : RegNum) :
    R.Keeps (fun _ => True) (s.prodTarget q a) := by
  unfold State.prodTarget
  dsimp only
  split
  · split
    · trivial
    · trivial
  · trivial

theorem State.accFits_keeps (s : State) (acc : BitVec 2) : R.Keeps (fun _ => True) (s.accFits acc) := by
  unfold State.accFits
  dsimp only
  split
  · trivial
  · trivial

theorem State.engineRoom_keeps {s : State} (h : s.Canonical) (i : EngineId) (blk : Block) :
    R.Keeps (fun _ => True) (s.engineRoom i blk) := by
  unfold State.engineRoom
  split
  · trivial
  · exact h

theorem fieldCheck_keeps (rules : List (Nat × Bool)) : R.Keeps (fun _ => True) (fieldCheck rules) := by
  unfold fieldCheck
  split
  · trivial
  · trivial

theorem State.freezeFits_keeps (s : State) (t : Task) (d : FreezeDesc) (n : Nat) (id : CoreId) :
    R.Keeps (fun _ => True) (s.freezeFits t d n id) := by
  unfold State.freezeFits
  dsimp only
  split
  · split
    · trivial
    · split
      · trivial
      · split
        · trivial
        · trivial
  · split
    · trivial
    · split
      · trivial
      · trivial

theorem State.freezePlace_keeps (s : State) (b : RegNum) : R.Keeps (fun _ => True) (s.freezePlace b) := by
  unfold State.freezePlace
  dsimp only
  split
  · trivial
  · split
    · split
      · trivial
      · split
        · trivial
        · trivial
    · trivial

theorem State.mirrorCheck_keeps (s : State) (dst : List Place) : R.Keeps (fun _ => True) (s.mirrorCheck dst) := by
  unfold State.mirrorCheck
  split
  · trivial
  · split
    · trivial
    · split
      · trivial
      · split
        · trivial
        · split
          · trivial
          · trivial

theorem State.mountOf_keeps (s : State) (n : RegNum) : R.Keeps (fun _ => True) (s.mountOf n) := by
  unfold State.mountOf
  dsimp only
  split
  · trivial
  · split
    · trivial
    · split
      · split
        · trivial
        · trivial
      · trivial

theorem needOpen_keeps (src : GReg) (n : RegNum) : R.Keeps (fun _ => True) (needOpen src n) := by
  unfold needOpen
  split
  · trivial
  · split
    · trivial
    · trivial

theorem State.csrWait_keeps (s : State) (n : Word) : R.Keeps (fun _ => True) (s.csrWait n) := by
  unfold State.csrWait
  split
  · trivial
  · trivial

theorem gather_keeps (rs : List Request) : R.Keeps (fun _ => True) (gather rs) := by
  induction rs with
  | nil => trivial
  | cons r rest ih =>
    unfold gather
    split
    · exact ih
    · split
      · trivial
      · exact R.keeps_map.2 ih

theorem State.issuePeers_keeps (s : State) (ps : List (Place × Nat)) :
    R.Keeps (fun _ => True) (s.issuePeers ps) := by
  induction ps with
  | nil => trivial
  | cons p rest ih =>
    unfold State.issuePeers
    dsimp only
    split
    · exact (State.issueAway_keeps s p.1).bind fun _ _ => ih
    · exact ih

theorem State.takeSlots_keeps (s : State) (timed : Bool) (taken : List (BitVec 2)) (ws : List Want) :
    R.Keeps (fun _ => True) (s.takeSlots timed taken ws) := by
  induction ws generalizing taken with
  | nil => trivial
  | cons w rest ih =>
    unfold State.takeSlots
    split
    · trivial
    · dsimp only
      split
      · trivial
      · split
        · split
          · trivial
          · split
            · trivial
            · trivial
        · split
          · split
            · rw [R.keeps_bind, R.keeps_ok]
              split
              · trivial
              · exact (ih _).bind fun _ _ => trivial
            · trivial
          · trivial

theorem rrBody_keeps {s : State} (h : s.Canonical) (f : Word → Word → Word) (a b c : RegNum) :
    R.Keeps State.Canonical (rrBody f a b c s) := by
  unfold rrBody
  refine (State.useG_keeps h _).bind fun t1 h1 => ?_
  simpa using h1

theorem execMov_keeps {s : State} (h : s.Canonical) (x : Pfx) (a b : RegNum) : Out.Keeps (execMov x a b s) := by
  unfold execMov
  refine scalarOp_keeps h _ fun t1 ht1 => ?_
  refine (State.useG_keeps ht1 _).bind fun t2 h2 => ?_
  simpa using h2

theorem riBody_keeps {s : State} (h : s.Canonical) (f : Word → Word → Word) (a c : RegNum) (imm : Word) :
    R.Keeps State.Canonical (riBody f a c imm s) := by
  unfold riBody
  refine (State.useG_keeps h _).bind fun t1 h1 => ?_
  simpa using h1

theorem execLi_keeps {s : State} (h : s.Canonical) (x : Pfx) (a : RegNum) (imm : Word) :
    Out.Keeps (execLi x a imm s) := by
  unfold execLi
  refine scalarOp_keeps h _ fun t1 ht1 => ?_
  simpa using ht1

theorem execLea_keeps {s : State} (h : s.Canonical) (x : Pfx) (a b : RegNum) (off : Word) :
    Out.Keeps (execLea x a b off s) := by
  unfold execLea
  refine scalarOp_keeps h _ fun t1 ht1 => ?_
  refine (State.useG_keeps ht1 _).bind fun t2 h2 => ?_
  simpa using h2

theorem execBr_keeps {s : State} (h : s.Canonical) (x : Pfx) (off : Word) : Out.Keeps (execBr x off s) := by
  unfold execBr
  exact jumpOp_keeps h _ fun _ ht => ht

theorem execCall_keeps {s : State} (h : s.Canonical) (x : Pfx) (off : Word) : Out.Keeps (execCall x off s) := by
  unfold execCall
  exact jumpOp_keeps h _ fun _ ht => ht

theorem branchBody_keeps {s : State} (h : s.Canonical) (x : Pfx) (cond : Word → Word → Bool) (a b : RegNum)
    (off : Word) :
    R.Keeps State.Canonical (branchBody x cond a b off s) := by
  unfold branchBody
  refine (State.useG_keeps h _).bind fun t1 h1 => ?_
  exact h1

theorem State.readG_keeps {s : State} (h : s.Canonical) (n : RegNum) :
    R.Keeps (fun r => r.2.Canonical) (s.readG n) := by
  unfold State.readG
  refine (State.useG_keeps h _).bind fun t1 h1 => ?_
  exact h1

theorem jumpTarget_keeps {s : State} (h : s.Canonical) (a : RegNum) :
    R.Keeps (fun r => r.2.Canonical) (jumpTarget a s) := by
  unfold jumpTarget
  refine (State.readG_keeps h _).bind fun ⟨t1, x1⟩ h1 => ?_
  dsimp only
  split
  · trivial
  · split
    · trivial
    · exact h1

theorem execCallr_keeps {s : State} (h : s.Canonical) (x : Pfx) (a : RegNum) : Out.Keeps (execCallr x a s) := by
  unfold execCallr
  refine jumpOp_keeps h _ fun t1 ht1 => ?_
  refine (jumpTarget_keeps ht1 _).bind fun ⟨t2, x2⟩ h2 => ?_
  dsimp only
  exact h2

theorem execJmpr_keeps {s : State} (h : s.Canonical) (x : Pfx) (a : RegNum) : Out.Keeps (execJmpr x a s) := by
  unfold execJmpr
  refine jumpOp_keeps h _ fun t1 ht1 => ?_
  refine (jumpTarget_keeps ht1 _).bind fun ⟨t2, x2⟩ h2 => ?_
  dsimp only
  exact h2

theorem execLoop_keeps {s : State} (h : s.Canonical) (x : Pfx) (a : RegNum) (off : Word) :
    Out.Keeps (execLoop x a off s) := by
  unfold execLoop
  refine jumpOp_keeps h _ fun t1 ht1 => ?_
  refine (State.useG_keeps ht1 _).bind fun t2 h2 => ?_
  dsimp only
  simpa using h2

theorem State.answers_keeps {s : State} (h : s.Canonical) (rs : List Request) :
    R.Keeps (fun r => r.1.Canonical) (s.answers rs) := by
  unfold State.answers
  split
  · exact h
  · rw [R.keeps_map]
    exact (gather_keeps _).mono fun _ _ => h

theorem State.issueLoads_keeps {s : State} (h : s.Canonical) (ps : List (Place × Nat)) :
    R.Keeps (fun r => r.1.Canonical) (s.issueLoads ps) := by
  induction ps generalizing s with
  | nil => exact h
  | cons p rest ih =>
    have hrest := (ih (State.beforeAccess_wf h p.1 p.2))
    unfold State.issueLoads
    dsimp only
    split
    · exact (State.issueAway_keeps ..).bind fun _ _ => hrest.bind fun _ h1 => h1
    · exact hrest.bind fun _ h1 => h1

theorem State.loads_keeps {s : State} (h : s.Canonical) (o : Ordering)
    (check : State → R (State × List (Place × Nat))) (hcheck : ∀ t, t.Canonical → R.Keeps (fun r => r.1.Canonical)
    (check t)) :
    R.Keeps (fun r => r.1.Canonical) (s.loads o check) := by
  unfold State.loads
  split
  · exact State.answers_keeps h _
  · refine (hcheck _ h).bind fun ⟨t1, x1⟩ h1 => ?_
    dsimp only
    refine (State.issueLoads_keeps (State.orderBefore_wf h1 _) _).bind fun ⟨t2, x2⟩ h2 => ?_
    exact State.answers_keeps h2 _

theorem State.check_keeps {s : State} (h : s.Canonical) (a : Access) :
    R.Keeps (fun r => r.1.Canonical) (s.check a) := by
  unfold State.check
  split
  · simpa using h
  · trivial

theorem State.resultPlace_keeps {s : State} (h : s.Canonical) : R.Keeps (fun _ => True) s.resultPlace := by
  unfold State.resultPlace
  split
  · exact (State.check_keeps h _).bind fun _ _ => (State.issueStore_keeps ..).bind fun _ _ => trivial
  · trivial

theorem State.loadMem_keeps {s : State} (h : s.Canonical) (o : Ordering) (a : Access) :
    R.Keeps (fun r => r.1.Canonical) (s.loadMem o a) := by
  unfold State.loadMem
  refine (State.loads_keeps h _ _ fun u1 hu1 => ?_).bind fun ⟨t1, x1⟩ h1 => ?_
  · rw [R.keeps_map]
    exact State.check_keeps hu1 _
  · dsimp only
    exact h1

theorem loadBody_keeps {s : State} (h : s.Canonical) (ext : Nat → Nat → Word) (o : Ordering) (n : Nat) (a : RegNum)
    (acc : GReg → State → Access) (b : RegNum) :
    R.Keeps State.Canonical (loadBody ext o n a acc b s) := by
  unfold loadBody
  refine (State.readG_keeps h _).bind fun ⟨t1, x1⟩ h1 => ?_
  dsimp only
  refine (State.loadMem_keeps h1 ..).bind fun ⟨t2, x2⟩ h2 => ?_
  simpa using h2

theorem State.storeMem_keeps {s : State} (h : s.Canonical) (o : Ordering) (a : Access) (bytes : List Byte)
    (cap : Bool) :
    R.Keeps State.Canonical (s.storeMem o a bytes cap) := by
  unfold State.storeMem
  refine (State.check_keeps h _).bind fun ⟨t1, x1⟩ h1 => ?_
  dsimp only
  refine (State.issueStore_keeps ..).bind fun _ _ => ?_
  exact R.keeps_pure.2 (State.orderAfter_wf (State.store_wf (State.orderBefore_wf h1 _) ..) ..)

theorem storeBody_keeps {s : State} (h : s.Canonical) (o : Ordering) (n : Nat) (a : RegNum)
    (acc : GReg → State → Access) (b : RegNum) :
    R.Keeps State.Canonical (storeBody o n a acc b s) := by
  unfold storeBody
  refine (State.useG_keeps h _).bind fun t1 h1 => ?_
  exact State.storeMem_keeps h1 ..

theorem execLdk_keeps {s : State} (h : s.Canonical) (x : Pfx) (o : Ordering) (a b : RegNum) (off : Word) :
    Out.Keeps (execLdk x o a b off s) := by
  unfold execLdk
  refine scalarOp_keeps h _ fun t1 ht1 => ?_
  refine (State.readG_keeps ht1 _).bind fun ⟨t2, x2⟩ h2 => ?_
  dsimp only
  refine (State.loadMem_keeps h2 ..).bind fun ⟨t3, x3⟩ h3 => ?_
  simpa using h3

theorem execStk_keeps {s : State} (h : s.Canonical) (x : Pfx) (o : Ordering) (a b : RegNum) (off : Word) :
    Out.Keeps (execStk x o a b off s) := by
  unfold execStk
  refine scalarOp_keeps h _ fun t1 ht1 => ?_
  refine (State.useG_keeps ht1 _).bind fun t2 h2 => ?_
  dsimp only
  exact State.storeMem_keeps h2 ..

theorem State.issueAtomic_keeps {s : State} (h : s.Canonical) (o : Ordering) (p : Place) (op : BitVec 3)
    (n w cmp : Nat) :
    R.Keeps (fun r => r.1.Canonical) (s.issueAtomic o p op n w cmp) := by
  unfold State.issueAtomic
  dsimp only
  split
  · trivial
  · split
    · refine (State.issueAway_keeps ..).bind fun _ _ => ?_
      exact R.keeps_error_hold.2 (State.beforeAccess_wf (State.orderBefore_wf h _) ..)
    · split
      · exact R.keeps_error_hold.2 (State.beforeAccess_wf (State.orderBefore_wf h _) ..)
      · rw [R.keeps_pure]
        exact State.atomicAt_wf (State.beforeAccess_wf (State.orderBefore_wf h _) ..) ..

theorem State.atomic_keeps {s : State} (h : s.Canonical) (o : Ordering) (check : State → R (State × Place))
    (op : BitVec 3) (n w cmp : Nat) (hcheck : ∀ t, t.Canonical → R.Keeps (fun r => r.1.Canonical) (check t)) :
    R.Keeps (fun r => r.1.Canonical) (s.atomic o check op n w cmp) := by
  unfold State.atomic
  split
  · rw [R.keeps_map]
    exact State.answers_keeps h _
  · exact h
  · exact h
  · refine (hcheck _ h).bind fun ⟨t1, x1⟩ h1 => ?_
    dsimp only
    exact State.issueAtomic_keeps h1 ..

theorem atomicBody_keeps {s : State} (h : s.Canonical) (op : BitVec 3) (o : Ordering) (wide : Bool) (a b c : RegNum)
    (off : Word) :
    R.Keeps State.Canonical (atomicBody op o wide a b c off s) := by
  unfold atomicBody
  refine (State.useG_keeps h _).bind fun t1 h1 => ?_
  dsimp only
  refine (State.atomic_keeps h1 _ _ _ _ _ _ fun u2 hu2 => ?_).bind fun ⟨t2, x2⟩ h2 => ?_
  · exact State.check_keeps hu2 _
  · simpa using h2

theorem execStat_keeps {s : State} (h : s.Canonical) (x : Pfx) (o : Ordering) (size : BitVec 3) (a b c : RegNum)
    (off : Word) :
    Out.Keeps (execStat x o size a b c off s) := by
  unfold execStat
  refine scalarOp_keeps h _ fun t1 ht1 => ?_
  refine (State.useG_keeps ht1 _).bind fun t2 h2 => ?_
  dsimp only
  refine (State.check_keeps h2 _).bind fun ⟨t3, x3⟩ h3 => ?_
  split
  · trivial
  · exact R.keeps_pure.2 (State.Canonical.of_mem (State.acceptedAfter_mem ..)
    (State.Canonical.of_mem (State.issuedOne_mem _)
    (State.acceptTimed_wf (State.beforeAccess_wf (State.orderBefore_wf h3 _) ..) ..)))

theorem State.awaitDue_keeps {s : State} (h : s.Canonical) (t : Tick) (rs : List Request) :
    R.Keeps (fun r => r.1.Canonical) (s.awaitDue t rs) := by
  unfold State.awaitDue
  split
  · trivial
  · dsimp only
    split
    · exact h
    · rw [R.keeps_map]
      exact (gather_keeps _).mono fun _ _ => h

theorem State.loadsAfter_keeps {s : State} (h : s.Canonical) (o : Ordering) (t : Tick)
    (check : State → R (State × List (Place × Nat))) (hcheck : ∀ t, t.Canonical → R.Keeps (fun r => r.1.Canonical)
    (check t)) :
    R.Keeps (fun r => r.1.Canonical) (s.loadsAfter o t check) := by
  unfold State.loadsAfter
  split
  · exact State.awaitDue_keeps h ..
  · refine (hcheck _ h).bind fun ⟨t1, x1⟩ h1 => ?_
    dsimp only
    split
    · trivial
    · refine (State.issuePeers_keeps ..).bind fun _ _ => ?_
      exact State.awaitDue_keeps (State.beforeAll_wf (State.orderBefore_wf h1 _) _) ..

theorem execLdnb_keeps {s : State} (h : s.Canonical) (x : Pfx) (o : Ordering) (size : BitVec 3) (a b c : RegNum)
    (off : Word) :
    Out.Keeps (execLdnb x o size a b c off s) := by
  unfold execLdnb
  refine scalarOp_keeps h _ fun t1 ht1 => ?_
  refine (State.useG_keeps ht1 _).bind fun t2 h2 => ?_
  dsimp only
  refine (State.loadsAfter_keeps h2 _ _ _ fun u3 hu3 => ?_).bind fun ⟨t3, x3⟩ h3 => ?_
  · rw [R.keeps_map]
    exact State.check_keeps hu3 _
  · exact R.keeps_pure.2 (wf_ite (by simpa using h3) (by simpa using h3))

theorem State.checkEach_keeps {s : State} (h : s.Canonical) (as : List Access) :
    R.Keeps (fun r => r.1.Canonical) (s.checkEach as) := by
  induction as generalizing s with
  | nil => exact h
  | cons a rest ih => exact (State.check_keeps h a).bind fun _ h1 => (ih h1).bind fun _ h2 => h2

theorem storeSlots_keeps {s : State} (h : s.Canonical) (ps : List Place) (vs : List GReg) :
    R.Keeps State.Canonical (storeSlots s ps vs) := by
  fun_induction storeSlots s ps vs with
  | case1 s p ps v vs ih => exact (State.issueStore_keeps s p).bind fun _ _ => ih (State.store_wf h ..)
  | case2 => exact h

theorem execPushs_keeps {s : State} (h : s.Canonical) (x : Pfx) (f l : RegNum) : Out.Keeps (execPushs x f l s) := by
  unfold execPushs
  refine Out.keeps_next.2 (State.scalarInstr_wf h _ _ _ fun t ht => ?_)
  dsimp only
  refine (State.useG_keeps ht _).bind fun t2 h2 => ?_
  refine (State.checkEach_keeps h2 _).bind fun ⟨t3, x3⟩ h3 => ?_
  refine (storeSlots_keeps h3 ..).bind fun t4 h4 => ?_
  exact h4

theorem execPops_keeps {s : State} (h : s.Canonical) (x : Pfx) (f l : RegNum) : Out.Keeps (execPops x f l s) := by
  unfold execPops
  refine Out.keeps_next.2 (State.scalarInstr_wf h _ _ _ fun t ht => ?_)
  dsimp only
  refine (State.useG_keeps ht _).bind fun t2 h2 => ?_
  refine (State.loads_keeps h2 _ _ fun u3 hu3 => ?_).bind fun ⟨t3, x3⟩ h3 => ?_
  · rw [R.keeps_map]
    exact State.checkEach_keeps hu3 _
  · simpa using h3

theorem execTrap_keeps {s : State} (h : s.Canonical) (x : Pfx) (code : BitVec 8) :
    Out.Keeps (execTrap x code s) := by
  unfold execTrap
  refine scalarOp_keeps h _ fun t1 ht1 => ?_
  trivial

theorem execRdid_keeps {s : State} (h : s.Canonical) (x : Pfx) (a : RegNum) (sel : BitVec 4) :
    Out.Keeps (execRdid x a sel s) := by
  unfold execRdid
  refine State.scalarInstr_wf h _ _ _ fun t ht => ?_
  simpa using ht

theorem execTnow_keeps {s : State} (h : s.Canonical) (x : Pfx) (a : RegNum) : Out.Keeps (execTnow x a s) := by
  unfold execTnow
  refine scalarOp_keeps h _ fun t1 ht1 => ?_
  simpa using ht1

theorem execFence_keeps {s : State} (h : s.Canonical) (x : Pfx) (o : Ordering) : Out.Keeps (execFence x o s) := by
  unfold execFence
  refine Out.keeps_next.2 (State.scalarInstr_wf h _ _ _ fun t ht => ?_)
  exact R.keeps_ok.2 (wf_ite ht (State.release_wf ht _))

theorem execFenceI_keeps {s : State} (h : s.Canonical) (x : Pfx) : Out.Keeps (execFenceI x s) := by
  unfold execFenceI
  refine scalarOp_keeps h _ fun t1 ht1 => ?_
  exact R.keeps_ok.2 (State.Canonical.of_mem (State.dropCode_mem _) (State.release_wf ht1 _))

theorem unBody_keeps {s : State} (h : s.Canonical) (f : Word → Word) (a b : RegNum) :
    R.Keeps State.Canonical (unBody f a b s) := by
  unfold unBody
  refine (State.useG_keeps h _).bind fun t1 h1 => ?_
  simpa using h1

theorem execBins_keeps {s : State} (h : s.Canonical) (x : Pfx) (a b c : RegNum) :
    Out.Keeps (execBins x a b c s) := by
  unfold execBins
  refine scalarOp_keeps h _ fun t1 ht1 => ?_
  refine (State.useG_keeps ht1 _).bind fun t2 h2 => ?_
  simpa using h2

theorem execSel_keeps {s : State} (h : s.Canonical) (x : Pfx) (a b c : RegNum) : Out.Keeps (execSel x a b c s) := by
  unfold execSel
  refine scalarOp_keeps h _ fun t1 ht1 => ?_
  refine (State.useG_keeps ht1 _).bind fun t2 h2 => ?_
  simpa using h2

theorem execKinc_keeps {s : State} (h : s.Canonical) (x : Pfx) (a b c : RegNum) :
    Out.Keeps (execKinc x a b c s) := by
  unfold execKinc
  refine scalarOp_keeps h _ fun t1 ht1 => ?_
  refine (State.useG_keeps ht1 _).bind fun t2 h2 => ?_
  simpa using h2

theorem execKinci_keeps {s : State} (h : s.Canonical) (x : Pfx) (a c : RegNum) (imm : Word) :
    Out.Keeps (execKinci x a c imm s) := by
  unfold execKinci
  refine scalarOp_keeps h _ fun t1 ht1 => ?_
  refine (State.useG_keeps ht1 _).bind fun t2 h2 => ?_
  simpa using h2

theorem execKbnd_keeps {s : State} (h : s.Canonical) (x : Pfx) (a b c : RegNum) :
    Out.Keeps (execKbnd x a b c s) := by
  unfold execKbnd
  refine scalarOp_keeps h _ fun t1 ht1 => ?_
  refine (State.useG_keeps ht1 _).bind fun t2 h2 => ?_
  refine (needOpen_keeps ..).bind fun _ _ => ?_
  split
  · simpa using h2
  · trivial

theorem execKprm_keeps {s : State} (h : s.Canonical) (x : Pfx) (a b c : RegNum) :
    Out.Keeps (execKprm x a b c s) := by
  unfold execKprm
  refine scalarOp_keeps h _ fun t1 ht1 => ?_
  refine (State.useG_keeps ht1 _).bind fun t2 h2 => ?_
  refine (needOpen_keeps ..).bind fun _ _ => ?_
  simpa using h2

theorem execKcol_keeps {s : State} (h : s.Canonical) (x : Pfx) (a b c : RegNum) :
    Out.Keeps (execKcol x a b c s) := by
  unfold execKcol
  refine scalarOp_keeps h _ fun t1 ht1 => ?_
  refine (State.useG_keeps ht1 _).bind fun t2 h2 => ?_
  dsimp only
  refine (needOpen_keeps ..).bind fun _ _ => ?_
  split
  · trivial
  · simpa using h2

theorem execKget_keeps {s : State} (h : s.Canonical) (x : Pfx) (a c : RegNum) (sel : BitVec 4) :
    Out.Keeps (execKget x a c sel s) := by
  unfold execKget
  refine Out.keeps_next.2 (State.scalarInstr_wf h _ _ _ fun t ht => ?_)
  refine (State.useG_keeps ht _).bind fun t2 h2 => ?_
  simpa using h2

theorem execKtst_keeps {s : State} (h : s.Canonical) (x : Pfx) (a b c : RegNum) :
    Out.Keeps (execKtst x a b c s) := by
  unfold execKtst
  refine scalarOp_keeps h _ fun t1 ht1 => ?_
  refine (State.useG_keeps ht1 _).bind fun t2 h2 => ?_
  simpa using h2

theorem execKseal_keeps {s : State} (h : s.Canonical) (x : Pfx) (a b : RegNum) : Out.Keeps (execKseal x a b s) := by
  unfold execKseal
  refine scalarOp_keeps h _ fun t1 ht1 => ?_
  refine (State.useG_keeps ht1 _).bind fun t2 h2 => ?_
  split
  · trivial
  · simpa using h2

theorem execKuns_keeps {s : State} (h : s.Canonical) (x : Pfx) (a b c : RegNum) :
    Out.Keeps (execKuns x a b c s) := by
  unfold execKuns
  refine scalarOp_keeps h _ fun t1 ht1 => ?_
  refine (State.useG_keeps ht1 _).bind fun t2 h2 => ?_
  dsimp only
  split
  · trivial
  · split
    · trivial
    · split
      · trivial
      · split
        · trivial
        · simpa using h2

theorem execKcur_keeps {s : State} (h : s.Canonical) (x : Pfx) (a b c : RegNum) :
    Out.Keeps (execKcur x a b c s) := by
  unfold execKcur
  refine scalarOp_keeps h _ fun t1 ht1 => ?_
  refine (State.useG_keeps ht1 _).bind fun t2 h2 => ?_
  simpa using h2

theorem State.checkAll_keeps {s : State} (h : s.Canonical) (as : List Access) :
    R.Keeps (fun r => r.1.Canonical) (s.checkAll as) := by
  have hall : (s.accessAll as).1.Canonical := by simpa using h
  unfold State.checkAll
  split
  next heq =>
    rw [heq] at hall
    exact hall
  · trivial

theorem State.checkRun_keeps {s : State} (h : s.Canonical) (as : List Access) :
    R.Keeps (fun r => r.1.Canonical) (s.checkRun as) := by
  unfold State.checkRun
  refine (State.checkAll_keeps h _).bind fun ⟨t1, x1⟩ h1 => ?_
  dsimp only
  split
  · trivial
  · exact h1

theorem execStg_keeps {s : State} (h : s.Canonical) (x : Pfx) (a b : RegNum) : Out.Keeps (execStg x a b s) := by
  unfold execStg
  refine scalarOp_keeps h _ fun t1 ht1 => ?_
  refine (State.useG_keeps ht1 _).bind fun t2 h2 => ?_
  dsimp only
  refine (State.checkRun_keeps h2 _).bind fun ⟨t3, x3⟩ h3 => ?_
  exact R.keeps_pure.2 (storeColours_wf h3 ..)

theorem execLdg_keeps {s : State} (h : s.Canonical) (x : Pfx) (a b : RegNum) : Out.Keeps (execLdg x a b s) := by
  unfold execLdg
  refine scalarOp_keeps h _ fun t1 ht1 => ?_
  refine (State.useG_keeps ht1 _).bind fun t2 h2 => ?_
  dsimp only
  refine (State.checkRun_keeps h2 _).bind fun ⟨t3, x3⟩ h3 => ?_
  exact R.keeps_pure.2 (State.Canonical.of_mem (State.setInt_mem ..) (State.settleAll_wf h3 _))

theorem State.raise_keeps {s : State} (h : s.Canonical) (x : Exc) : R.Keeps State.Canonical (s.raise x) := by
  unfold State.raise
  split
  · trivial
  · exact h

theorem State.fput_keeps {s : State} (h : s.Canonical) (f : Fmt) (a : RegNum) (r : Exact) :
    R.Keeps State.Canonical (s.fput f a r) := by
  unfold State.fput
  dsimp only
  refine (State.raise_keeps h _).bind fun t1 h1 => ?_
  simpa using h1

theorem frBody_keeps {s : State} (h : s.Canonical) (t : FTy) (op : Rm → Fp → Fp → Exact) (a b c : RegNum) :
    R.Keeps State.Canonical (frBody t op a b c s) :=
  (State.useG_keeps h _).bind fun _ ht => State.fput_keeps ht ..

theorem execFfma_keeps {s : State} (h : s.Canonical) (x : Pfx) (t : FTy) (a b c : RegNum) :
    Out.Keeps (execFfma x t a b c s) := by
  unfold execFfma
  refine scalarOp_keeps h _ fun t1 ht1 => ?_
  refine (State.useG_keeps ht1 _).bind fun t2 h2 => ?_
  dsimp only
  exact State.fput_keeps h2 ..

theorem fselBody_keeps {s : State} (h : s.Canonical) (t : FTy) (op : Fp → Fp → Fp × Exc) (a b c : RegNum) :
    R.Keeps State.Canonical (fselBody t op a b c s) := by
  unfold fselBody
  refine (State.useG_keeps h _).bind fun t1 h1 => ?_
  dsimp only
  refine (State.raise_keeps h1 _).bind fun t2 h2 => ?_
  simpa using h2

theorem fcmpBody_keeps {s : State} (h : s.Canonical) (t : FTy) (op : Fp → Fp → Bool × Exc) (a b c : RegNum) :
    R.Keeps State.Canonical (fcmpBody t op a b c s) := by
  unfold fcmpBody
  refine (State.useG_keeps h _).bind fun t1 h1 => ?_
  dsimp only
  refine (State.raise_keeps h1 _).bind fun t2 h2 => ?_
  simpa using h2

theorem execFcvti_keeps {s : State} (h : s.Canonical) (x : Pfx) (src : FTy) (dst : ITy) (rtz : Bool)
    (a b : RegNum) :
    Out.Keeps (execFcvti x src dst rtz a b s) := by
  unfold execFcvti
  refine scalarOp_keeps h _ fun t1 ht1 => ?_
  refine (State.useG_keeps ht1 _).bind fun t2 h2 => ?_
  dsimp only
  refine (State.raise_keeps h2 _).bind fun t3 h3 => ?_
  simpa using h3

theorem execFcvtw_keeps {s : State} (h : s.Canonical) (x : Pfx) (dst src : FTy) (a b : RegNum) :
    Out.Keeps (execFcvtw x dst src a b s) := by
  unfold execFcvtw
  refine scalarOp_keeps h _ fun t1 ht1 => ?_
  refine (State.useG_keeps ht1 _).bind fun t2 h2 => ?_
  dsimp only
  refine (State.raise_keeps h2 _).bind fun t3 h3 => ?_
  simpa using h3

theorem execCsrr_keeps {s : State} (h : s.Canonical) (x : Pfx) (a : RegNum) (csr : Word) :
    Out.Keeps (execCsrr x a csr s) := by
  unfold execCsrr
  refine Out.keeps_next.2 (State.scalarInstr_wf h _ _ _ fun t ht => ?_)
  refine (State.csrWait_keeps ..).bind fun _ _ => ?_
  simpa using ht

theorem csrBody_keeps {s : State} (h : s.Canonical) (f : Word → Word → Word) (a c : RegNum) (n : Word) :
    R.Keeps State.Canonical (csrBody f a c n s) := by
  unfold csrBody
  refine (State.useG_keeps h _).bind fun t1 h1 => ?_
  refine (State.csrWait_keeps ..).bind fun _ _ => ?_
  dsimp only
  simpa using h1

theorem State.useVec_keeps {s : State} (h : s.Canonical) (x : Pfx) (srcs : List RegNum) (a : RegNum) (keep : Bool) :
    R.Keeps State.Canonical (s.useVec x srcs a keep) := by
  unfold State.useVec
  refine (State.useV_keeps h _).bind fun t1 h1 => ?_
  refine (State.useP_keeps h1 _).bind fun t2 h2 => ?_
  split
  · exact State.useV_keeps h2 _
  · exact h2

theorem State.putFlagged_keeps {s : State} (h : s.Canonical) (x : Pfx) (w : Nat) (a : RegNum) (fp : Bool)
    (rs : List (Nat × Exc)) :
    R.Keeps State.Canonical (s.putFlagged x w a fp rs) := by
  unfold State.putFlagged
  dsimp only
  split
  · refine (State.raise_keeps h _).bind fun t1 h1 => ?_
    exact h1
  · trivial

theorem vvBody_keeps {s : State} (h : s.Canonical) (x : Pfx) (w : Nat) (fp : Bool)
    (op : State → Nat → Nat → Nat × Exc) (a b c : RegNum) :
    R.Keeps State.Canonical (vvBody x w fp op a b c s) :=
  (State.useVec_keeps h ..).bind fun _ ht => State.putFlagged_keeps ht ..

theorem vArith_keeps {s : State} (h : s.Canonical) (x : Pfx) (t : ETy) (fp : Rm → Fp → Fp → Exact)
    (int : Int → Int → Int) (a b c : RegNum) :
    Out.Keeps (vArith x t fp int a b c s) := by
  unfold vArith
  refine vectorOp_keeps h _ fun t1 ht1 => ?_
  exact vvBody_keeps ht1 ..

theorem vfBody_keeps {s : State} (h : s.Canonical) (x : Pfx) (t : ETy) (op : State → Nat → Nat → Nat → Nat × Exc)
    (a b c : RegNum) :
    R.Keeps State.Canonical (vfBody x t op a b c s) :=
  (State.useVec_keeps h ..).bind fun _ ht => State.putFlagged_keeps ht ..

theorem vFused_keeps {s : State} (h : s.Canonical) (x : Pfx) (t : ETy) (fp : Rm → Fp → Fp → Fp → Exact)
    (int : Int → Int → Int → Int) (a b c : RegNum) :
    Out.Keeps (vFused x t fp int a b c s) := by
  unfold vFused
  refine vectorOp_keeps h _ fun t1 ht1 => ?_
  exact vfBody_keeps ht1 ..

theorem vSelect_keeps {s : State} (h : s.Canonical) (x : Pfx) (t : ETy) (fp : Fp → Fp → Fp × Exc)
    (int : Int → Int → Int) (a b c : RegNum) :
    Out.Keeps (vSelect x t fp int a b c s) := by
  unfold vSelect
  refine vectorOp_keeps h _ fun t1 ht1 => ?_
  exact vvBody_keeps ht1 ..

theorem vuBody_keeps {s : State} (h : s.Canonical) (x : Pfx) (w : Nat) (fp : Bool) (op : State → Nat → Nat × Exc)
    (a b : RegNum) :
    R.Keeps State.Canonical (vuBody x w fp op a b s) :=
  (State.useVec_keeps h ..).bind fun _ ht => State.putFlagged_keeps ht ..

theorem vSign_keeps {s : State} (h : s.Canonical) (x : Pfx) (t : ETy) (set : Bool → Bool) (int : Int → Int)
    (a b : RegNum) :
    Out.Keeps (vSign x t set int a b s) := by
  unfold vSign
  dsimp only
  refine vectorOp_keeps h _ fun t1 ht1 => ?_
  exact vuBody_keeps ht1 ..

theorem vFunction_keeps {s : State} (h : s.Canonical) (x : Pfx) (t : FTy) (op : Fp → Exact) (a b : RegNum) :
    Out.Keeps (vFunction x t op a b s) := by
  unfold vFunction
  refine vectorOp_keeps h _ fun t1 ht1 => ?_
  exact vuBody_keeps ht1 ..

theorem vBits_keeps {s : State} (h : s.Canonical) (x : Pfx) (t : ITy) (op : Nat → Nat → Nat) (a b c : RegNum) :
    Out.Keeps (vBits x t op a b c s) := by
  unfold vBits
  refine vectorOp_keeps h _ fun t1 ht1 => ?_
  exact vvBody_keeps ht1 ..

theorem State.usePred_keeps {s : State} (h : s.Canonical) (x : Pfx) (srcs : List PredNum) (a : PredNum) :
    R.Keeps State.Canonical (s.usePred x srcs a) := by
  unfold State.usePred
  refine (State.useP_keeps h _).bind fun t1 h1 => ?_
  refine (State.useP_keeps h1 _).bind fun t2 h2 => ?_
  split
  · exact State.useP_keeps h2 _
  · exact h2

theorem vCompare_keeps {s : State} (h : s.Canonical) (x : Pfx) (t : ETy) (fp : Fp → Fp → Bool × Exc)
    (int : Int → Int → Bool) (a : PredNum) (b c : RegNum) :
    Out.Keeps (vCompare x t fp int a b c s) := by
  unfold vCompare
  refine vectorOp_keeps h _ fun t1 ht1 => ?_
  dsimp only
  refine (State.useV_keeps ht1 _).bind fun t2 h2 => ?_
  refine (State.usePred_keeps h2 ..).bind fun t3 h3 => ?_
  split
  · refine (State.raise_keeps h3 _).bind fun t4 h4 => ?_
    simpa using h4
  · rw [R.keeps_bind, R.keeps_ok]
    simpa using h3

theorem execVsel_keeps {s : State} (h : s.Canonical) (x : Pfx) (t : ETy) (a b c : RegNum) :
    Out.Keeps (execVsel x t a b c s) := by
  unfold execVsel
  refine vectorOp_keeps h _ fun t1 ht1 => ?_
  dsimp only
  refine (State.useVec_keeps ht1 ..).bind fun t2 h2 => ?_
  exact h2

theorem vConvert_keeps {s : State} (h : s.Canonical) (x : Pfx) (dst src : ETy) (fp : Bool)
    (op : State → Nat → Nat × Exc) (a b : RegNum) :
    Out.Keeps (vConvert x dst src fp op a b s) := by
  unfold vConvert
  refine vectorOp_keeps h _ fun t1 ht1 => ?_
  dsimp only
  refine (State.useVec_keeps ht1 ..).bind fun t2 h2 => ?_
  exact State.putFlagged_keeps h2 ..

theorem execVbc_keeps {s : State} (h : s.Canonical) (x : Pfx) (t : ETy) (a b : RegNum) :
    Out.Keeps (execVbc x t a b s) := by
  unfold execVbc
  refine vectorOp_keeps h _ fun t1 ht1 => ?_
  dsimp only
  refine (State.useG_keeps ht1 _).bind fun t2 h2 => ?_
  refine (State.useVec_keeps h2 ..).bind fun t3 h3 => ?_
  exact h3

theorem execVrand_keeps {s : State} (h : s.Canonical) (x : Pfx) (a b c : RegNum) :
    Out.Keeps (execVrand x a b c s) := by
  unfold execVrand
  refine vectorOp_keeps h _ fun t1 ht1 => ?_
  refine (State.useG_keeps ht1 _).bind fun t2 h2 => ?_
  refine (State.useVec_keeps h2 ..).bind fun t3 h3 => ?_
  dsimp only
  exact h3

theorem vReduce_keeps {s : State} (h : s.Canonical) (x : Pfx) (t : ETy) (op : State → Nat → Nat → Nat × Exc)
    (empty : Option Bool) (a b : RegNum) :
    Out.Keeps (vReduce x t op empty a b s) := by
  unfold vReduce
  refine vectorOp_keeps h _ fun t1 ht1 => ?_
  dsimp only
  refine (State.useVec_keeps ht1 ..).bind fun t2 h2 => ?_
  split
  · refine (State.raise_keeps h2 _).bind fun t3 h3 => ?_
    exact h3
  · trivial

theorem execVscan_keeps {s : State} (h : s.Canonical) (x : Pfx) (t : ETy) (a b : RegNum) :
    Out.Keeps (execVscan x t a b s) := by
  unfold execVscan
  refine vectorOp_keeps h _ fun t1 ht1 => ?_
  dsimp only
  refine (State.useVec_keeps ht1 ..).bind fun t2 h2 => ?_
  split
  · refine (State.raise_keeps h2 _).bind fun t3 h3 => ?_
    exact h3
  · trivial

theorem vImm_keeps {s : State} (h : s.Canonical) (x : Pfx) (t : ITy) (op : Nat → Nat → Nat) (a c : RegNum)
    (imm : Word) :
    Out.Keeps (vImm x t op a c imm s) := by
  unfold vImm
  refine vectorOp_keeps h _ fun t1 ht1 => ?_
  exact vuBody_keeps ht1 ..

theorem execVdot4_keeps {s : State} (h : s.Canonical) (x : Pfx) (t : ETy) (a b c : RegNum) :
    Out.Keeps (execVdot4 x t a b c s) := by
  unfold execVdot4
  refine vectorOp_keeps h _ fun t1 ht1 => ?_
  refine (State.useVec_keeps ht1 ..).bind fun t2 h2 => ?_
  dsimp only
  exact State.putFlagged_keeps h2 ..

theorem pLogic_keeps {s : State} (h : s.Canonical) (x : Pfx) (op : PReg → PReg → PReg) (a b c : PredNum) :
    Out.Keeps (pLogic x op a b c s) := by
  unfold pLogic
  refine vectorOp_keeps h _ fun t1 ht1 => ?_
  refine (State.usePred_keeps ht1 ..).bind fun t2 h2 => ?_
  simpa using h2

theorem execPset_keeps {s : State} (h : s.Canonical) (x : Pfx) (t : ETy) (a : PredNum) (b : RegNum) :
    Out.Keeps (execPset x t a b s) := by
  unfold execPset
  refine vectorOp_keeps h _ fun t1 ht1 => ?_
  dsimp only
  refine (State.useG_keeps ht1 _).bind fun t2 h2 => ?_
  refine (State.usePred_keeps h2 ..).bind fun t3 h3 => ?_
  simpa using h3

theorem execPcnt_keeps {s : State} (h : s.Canonical) (x : Pfx) (t : ETy) (a : RegNum) (b : PredNum) :
    Out.Keeps (execPcnt x t a b s) := by
  unfold execPcnt
  refine vectorOp_keeps h _ fun t1 ht1 => ?_
  refine (State.useP_keeps ht1 _).bind fun t2 h2 => ?_
  simpa using h2

theorem execPfst_keeps {s : State} (h : s.Canonical) (x : Pfx) (t : ETy) (a : RegNum) (b : PredNum) :
    Out.Keeps (execPfst x t a b s) := by
  unfold execPfst
  refine vectorOp_keeps h _ fun t1 ht1 => ?_
  dsimp only
  refine (State.useP_keeps ht1 _).bind fun t2 h2 => ?_
  simpa using h2

theorem checkElems_keeps {s : State} (h : s.Canonical) (n : Nat) (as : List Access) :
    R.Keeps (fun r => r.1.Canonical) (checkElems n as s) := by
  unfold checkElems
  rw [R.keeps_map]
  exact State.checkAll_keeps h _

theorem vLoad_keeps {s : State} (h : s.Canonical) (x : Pfx) (o : Ordering) (w : ITy) (a : RegNum)
    (gs vs : List RegNum) (mk : State → Nat → Access) :
    Out.Keeps (vLoad x o w a gs vs mk s) := by
  unfold vLoad
  refine vectorOp_keeps h _ fun t1 ht1 => ?_
  dsimp only
  refine (State.useG_keeps ht1 _).bind fun t2 h2 => ?_
  refine (State.useVec_keeps h2 ..).bind fun t3 h3 => ?_
  refine (State.loads_keeps h3 _ _ fun u4 hu4 => ?_).bind fun ⟨t4, x4⟩ h4 => ?_
  · exact checkElems_keeps hu4 ..
  · exact h4

theorem State.writeElems_keeps {s : State} (h : s.Canonical) (n : Nat) (at_ : List Nat) (ps : List Place)
    (vs : List Nat) :
    R.Keeps State.Canonical (s.writeElems n at_ ps vs) := by
  fun_induction State.writeElems s n at_ ps vs with
  | case1 s p ps v vs ih => exact (State.issueStore_keeps s p).bind fun _ _ => ih (State.storeWhole_wf h ..)
  | case2 => exact h

theorem vStore_keeps {s : State} (h : s.Canonical) (x : Pfx) (o : Ordering) (w : ITy) (a : RegNum)
    (gs vs : List RegNum) (mk : State → Nat → Access) :
    Out.Keeps (vStore x o w a gs vs mk s) := by
  unfold vStore
  refine vectorOp_keeps h _ fun t1 ht1 => ?_
  dsimp only
  refine (State.useG_keeps ht1 _).bind fun t2 h2 => ?_
  refine (State.useVec_keeps h2 ..).bind fun t3 h3 => ?_
  refine (State.checkAll_keeps h3 _).bind fun ⟨t4, x4⟩ h4 => ?_
  refine (State.writeElems_keeps (State.orderBefore_wf h4 _) ..).bind fun t5 h5 => ?_
  exact R.keeps_pure.2 (State.orderAfterAll_wf (by simpa using h5) ..)

theorem execVstat_keeps {s : State} (h : s.Canonical) (x : Pfx) (o : Ordering) (w : ITy) (a b c : RegNum)
    (off : Word) :
    Out.Keeps (execVstat x o w a b c off s) := by
  unfold execVstat
  refine vectorOp_keeps h _ fun t1 ht1 => ?_
  dsimp only
  refine (State.useG_keeps ht1 _).bind fun t2 h2 => ?_
  refine (State.useVec_keeps h2 ..).bind fun t3 h3 => ?_
  refine (State.checkAll_keeps h3 _).bind fun ⟨t4, x4⟩ h4 => ?_
  split
  · trivial
  · refine R.keeps_pure.2 (foldl_wf (fun _ hu p => by simpa using hu) _ ?_)
    rw [State.Canonical, State.clearCovered_mem, State.issuedOne_mem]
    exact State.acceptElems_wf (State.orderBefore_wf h4 _) ..

theorem execVldnb_keeps {s : State} (h : s.Canonical) (x : Pfx) (o : Ordering) (w : ITy) (a b c : RegNum)
    (off : Word) :
    Out.Keeps (execVldnb x o w a b c off s) := by
  unfold execVldnb
  refine vectorOp_keeps h _ fun t1 ht1 => ?_
  dsimp only
  refine (State.useG_keeps ht1 _).bind fun t2 h2 => ?_
  refine (State.useVec_keeps h2 ..).bind fun t3 h3 => ?_
  refine (State.loadsAfter_keeps h3 _ _ _ fun u4 hu4 => ?_).bind fun ⟨t4, x4⟩ h4 => ?_
  · exact checkElems_keeps hu4 ..
  · exact h4

theorem vPermute_keeps {s : State} (h : s.Canonical) (x : Pfx) (w : ITy) (f : Nat → List Nat → Nat → Nat)
    (a b c : RegNum) :
    Out.Keeps (vPermute x w f a b c s) := by
  unfold vPermute
  refine vectorOp_keeps h _ fun t1 ht1 => ?_
  dsimp only
  refine (State.useVec_keeps ht1 ..).bind fun t2 h2 => ?_
  exact h2

theorem execVrot_keeps {s : State} (h : s.Canonical) (x : Pfx) (w : ITy) (a b c : RegNum) :
    Out.Keeps (execVrot x w a b c s) := by
  unfold execVrot
  refine vectorOp_keeps h _ fun t1 ht1 => ?_
  dsimp only
  refine (State.useG_keeps ht1 _).bind fun t2 h2 => ?_
  refine (State.useVec_keeps h2 ..).bind fun t3 h3 => ?_
  exact h3

theorem execVslid_keeps {s : State} (h : s.Canonical) (x : Pfx) (w : ITy) (a b c : RegNum) :
    Out.Keeps (execVslid x w a b c s) := by
  unfold execVslid
  refine vectorOp_keeps h _ fun t1 ht1 => ?_
  dsimp only
  refine (State.useG_keeps ht1 _).bind fun t2 h2 => ?_
  refine (State.useVec_keeps h2 ..).bind fun t3 h3 => ?_
  exact h3

theorem execVext_keeps {s : State} (h : s.Canonical) (x : Pfx) (w : ITy) (a b c : RegNum) :
    Out.Keeps (execVext x w a b c s) := by
  unfold execVext
  refine vectorOp_keeps h _ fun t1 ht1 => ?_
  refine (State.useG_keeps ht1 _).bind fun t2 h2 => ?_
  refine (State.useVec_keeps h2 ..).bind fun t3 h3 => ?_
  dsimp only
  simpa using h3

theorem execVins_keeps {s : State} (h : s.Canonical) (x : Pfx) (w : ITy) (a b c : RegNum) :
    Out.Keeps (execVins x w a b c s) := by
  unfold execVins
  refine vectorOp_keeps h _ fun t1 ht1 => ?_
  refine (State.useG_keeps ht1 _).bind fun t2 h2 => ?_
  refine (State.useVec_keeps h2 ..).bind fun t3 h3 => ?_
  dsimp only
  exact h3

theorem execVcmpr_keeps {s : State} (h : s.Canonical) (x : Pfx) (w : ITy) (a b : RegNum) :
    Out.Keeps (execVcmpr x w a b s) := by
  unfold execVcmpr
  refine vectorOp_keeps h _ fun t1 ht1 => ?_
  refine (State.useVec_keeps ht1 ..).bind fun t2 h2 => ?_
  dsimp only
  exact h2

theorem execVexpn_keeps {s : State} (h : s.Canonical) (x : Pfx) (w : ITy) (a b : RegNum) :
    Out.Keeps (execVexpn x w a b s) := by
  unfold execVexpn
  refine vectorOp_keeps h _ fun t1 ht1 => ?_
  refine (State.useVec_keeps ht1 ..).bind fun t2 h2 => ?_
  dsimp only
  exact h2

theorem execVqnt_keeps {s : State} (h : s.Canonical) (x : Pfx) (_unsignedTy : Bool) (m : BitVec 4) (a b : RegNum) :
    Out.Keeps (execVqnt x _unsignedTy m a b s) := by
  unfold execVqnt
  refine vectorOp_keeps h _ fun t1 ht1 => ?_
  refine (State.useVec_keeps ht1 ..).bind fun t2 h2 => ?_
  dsimp only
  refine (State.raise_keeps h2 _).bind fun t3 h3 => ?_
  exact h3

theorem execVdeq_keeps {s : State} (h : s.Canonical) (x : Pfx) (_unsignedTy : Bool) (m : BitVec 4) (a b : RegNum) :
    Out.Keeps (execVdeq x _unsignedTy m a b s) := by
  unfold execVdeq
  refine vectorOp_keeps h _ fun t1 ht1 => ?_
  refine (State.useVec_keeps ht1 ..).bind fun t2 h2 => ?_
  dsimp only
  exact h2

theorem execVsprs_keeps {s : State} (h : s.Canonical) (x : Pfx) (w : ITy) (a b : RegNum) (c : PredNum) :
    Out.Keeps (execVsprs x w a b c s) := by
  unfold execVsprs
  refine vectorOp_keeps h _ fun t1 ht1 => ?_
  dsimp only
  refine (State.useVec_keeps ht1 ..).bind fun t2 h2 => ?_
  simpa using h2

theorem execMfmt_keeps {s : State} (h : s.Canonical) (x : Pfx) (a : RegNum) : Out.Keeps (execMfmt x a s) := by
  unfold execMfmt
  refine itemOp_keeps h _ fun t1 ht1 => ?_
  refine (State.useG_keeps ht1 _).bind fun t2 h2 => ?_
  split
  · exact h2
  · trivial

theorem execMring_keeps {s : State} (h : s.Canonical) (x : Pfx) (q : BitVec 2) (a c : RegNum) :
    Out.Keeps (execMring x q a c s) := by
  unfold execMring
  refine itemOp_keeps h _ fun t1 ht1 => ?_
  refine (State.useG_keeps ht1 _).bind fun t2 h2 => ?_
  refine (State.emptyQueue_keeps _).bind fun _ _ => ?_
  split
  · trivial
  · split
    · trivial
    · split
      · exact h2
      · split
        · trivial
        · dsimp only
          split
          · trivial
          · split
            · trivial
            · split
              · trivial
              · exact h2

theorem execMprod_keeps {s : State} (h : s.Canonical) (x : Pfx) (q : BitVec 2) (a : RegNum) :
    Out.Keeps (execMprod x q a s) := by
  unfold execMprod
  refine Out.keeps_next.2 (State.scalarInstr_wf h _ _ _ fun t ht => ?_)
  refine (State.useG_keeps ht _).bind fun t2 h2 => ?_
  refine (State.prodTarget_keeps ..).bind fun _ _ => ?_
  dsimp only
  split
  · trivial
  · split
    · trivial
    · split
      · split
        · trivial
        · trivial
      · exact R.keeps_pure.2 (State.Canonical.of_mem (State.produceRing_mem ..) (State.release_wf h2 _))

theorem State.issueMma_keeps {s : State} (h : s.Canonical) (o : Ordering) (c : RegNum) (wants : List Want)
    (mk : List Slot → MatCmd) :
    R.Keeps State.Canonical (s.issueMma o c wants mk) := by
  unfold State.issueMma
  split
  · refine (State.timedStart_keeps ..).bind fun _ _ => ?_
    dsimp only
    split
    · split
      · trivial
      · refine (State.takeSlots_keeps ..).bind fun _ _ => ?_
        exact R.keeps_pure.2 (State.execHead_wf (by simpa using h) _)
    · split
      · trivial
      · refine (State.takeSlots_keeps ..).bind fun _ _ => ?_
        exact R.keeps_pure.2 (State.execHead_wf (by simpa using h) _)
  · refine (State.queueRoom_keeps _).bind fun _ _ => ?_
    refine (State.takeSlots_keeps ..).bind fun _ _ => ?_
    exact h

theorem execMma_keeps {s : State} (h : s.Canonical) (x : Pfx) (o : Ordering) (acc ringA ringB : BitVec 2)
    (keepA keepB transA transB : Bool) (c : RegNum) :
    Out.Keeps (execMma x o acc ringA ringB keepA keepB transA transB c s) := by
  unfold execMma
  refine itemOp_keeps h _ fun t1 ht1 => ?_
  dsimp only
  split
  · refine (State.useG_keeps ht1 _).bind fun t2 h2 => ?_
    split
    · trivial
    · split
      · trivial
      · refine (State.accFits_keeps ..).bind fun _ _ => ?_
        exact State.issueMma_keeps h2 ..
  · rw [R.keeps_bind, R.keeps_ok]
    split
    · trivial
    · split
      · trivial
      · refine (State.accFits_keeps ..).bind fun _ _ => ?_
        exact State.issueMma_keeps ht1 ..

theorem execMmas_keeps {s : State} (h : s.Canonical) (x : Pfx) (o : Ordering) (acc ringA ringB ringM : BitVec 2)
    (keepA keepB : Bool) (c : RegNum) :
    Out.Keeps (execMmas x o acc ringA ringB ringM keepA keepB c s) := by
  unfold execMmas
  refine itemOp_keeps h _ fun t1 ht1 => ?_
  dsimp only
  split
  · refine (State.useG_keeps ht1 _).bind fun t2 h2 => ?_
    split
    · trivial
    · refine (State.accFits_keeps ..).bind fun _ _ => ?_
      exact State.issueMma_keeps h2 ..
  · rw [R.keeps_bind, R.keeps_ok]
    split
    · trivial
    · refine (State.accFits_keeps ..).bind fun _ _ => ?_
      exact State.issueMma_keeps ht1 ..

theorem execMzero_keeps {s : State} (h : s.Canonical) (x : Pfx) (acc : BitVec 2) :
    Out.Keeps (execMzero x acc s) := by
  unfold execMzero
  refine itemOp_keeps h _ fun t1 ht1 => ?_
  refine (State.accFits_keeps ..).bind fun _ _ => ?_
  refine (State.queueRoom_keeps _).bind fun _ _ => ?_
  exact ht1

theorem execMdrain_keeps {s : State} (h : s.Canonical) (x : Pfx) (fmt : BitVec 3) (a : RegNum) (acc : BitVec 2) :
    Out.Keeps (execMdrain x fmt a acc s) := by
  unfold execMdrain
  refine itemOp_keeps h _ fun t1 ht1 => ?_
  refine (State.useG_keeps ht1 _).bind fun t2 h2 => ?_
  dsimp only
  refine (State.checkAll_keeps h2 _).bind fun ⟨t3, x3⟩ h3 => ?_
  split
  · trivial
  · split
    · trivial
    · split
      · trivial
      · refine (State.queueRoom_keeps _).bind fun _ _ => ?_
        exact h3

theorem execMflag_keeps {s : State} (h : s.Canonical) (x : Pfx) (a : RegNum) (acc : BitVec 2) (clr : Bool) :
    Out.Keeps (execMflag x a acc clr s) := by
  unfold execMflag
  refine itemOp_keeps h _ fun t1 ht1 => ?_
  dsimp only
  split
  · trivial
  · rw [R.keeps_pure]
    split
    · simpa using ht1
    · simpa using ht1

theorem execMwait_keeps {s : State} (h : s.Canonical) (x : Pfx) : Out.Keeps (execMwait x s) := by
  unfold execMwait
  exact itemOp_keeps h _ fun _ ht => (State.emptyQueue_keeps _).bind fun _ _ => ht

theorem execMrst_keeps {s : State} (h : s.Canonical) (x : Pfx) (a : RegNum) : Out.Keeps (execMrst x a s) := by
  unfold execMrst
  refine itemOp_keeps h _ fun t1 ht1 => ?_
  refine (State.useG_keeps ht1 _).bind fun t2 h2 => ?_
  refine (State.emptyQueue_keeps _).bind fun _ _ => ?_
  split
  · trivial
  · split
    · trivial
    · dsimp only
      exact h2

theorem execMrq_keeps {s : State} (h : s.Canonical) (x : Pfx) (a : RegNum) (q : BitVec 2) (sel : BitVec 3) :
    Out.Keeps (execMrq x a q sel s) := by
  unfold execMrq
  refine itemOp_keeps h _ fun t1 ht1 => ?_
  simpa using ht1

theorem State.startCmd_keeps {s : State} (h : s.Canonical) (t : Tick) (k : Word) (a : RegNum) :
    R.Keeps State.Canonical (s.startCmd t k a) := by
  unfold State.startCmd
  split
  · trivial
  · split
    · exact h
    · split
      · trivial
      · split
        · simpa using h
        · trivial

theorem State.readBlock_keeps {s : State} (h : s.Canonical) (b : RegNum) :
    R.Keeps (fun r => r.1.Canonical) (s.readBlock b) := by
  unfold State.readBlock
  split
  · exact h
  · exact h
  · refine (State.useG_keeps h _).bind fun t1 h1 => ?_
    dsimp only
    refine (State.loads_keeps h1 _ _ fun u2 hu2 => ?_).bind fun ⟨t2, x2⟩ h2 => ?_
    · rw [R.keeps_map]
      exact State.check_keeps hu2 _
    · exact h2

theorem State.checkOperand_keeps {s : State} (h : s.Canonical) (dev : Bool) (as : List Access) :
    R.Keeps (fun r => r.1.Canonical) (s.checkOperand dev as) := by
  have hall : (s.accessAllDev as).1.Canonical := by simpa using h
  unfold State.checkOperand
  split
  · split
    next heq =>
      rw [heq] at hall
      exact hall
    · trivial
  · exact State.checkAll_keeps h _

theorem State.checkMailbox_keeps {s : State} (h : s.Canonical) (mbx : GReg) :
    R.Keeps (fun r => r.1.Canonical) (s.checkMailbox mbx) := by
  unfold State.checkMailbox
  split
  · exact h
  · exact State.checkOperand_keeps h ..

theorem State.readAad_keeps {s : State} (h : s.Canonical) (blk : Block) (p : Place) :
    R.Keeps (fun r => r.1.Canonical) (s.readAad blk p) := by
  unfold State.readAad
  split
  · split
    · split
      · exact h
      · exact h
      · split
        · trivial
        · exact h
    · refine (State.issueAway_keeps ..).bind fun _ _ => ?_
      dsimp only
      exact R.keeps_error_hold.2 (State.beforeAccess_wf h ..)
  · split
    · trivial
    · dsimp only
      exact R.keeps_ok.2 (State.beforeAccess_wf h ..)

theorem State.decryptCheck_keeps {s : State} (h : s.Canonical) (ch aad : Nat) :
    R.Keeps State.Canonical (s.decryptCheck ch aad) := by
  unfold State.decryptCheck
  dsimp only
  split
  · trivial
  · split
    · trivial
    · split
      · trivial
      · split
        · trivial
        · exact h

theorem State.acceptDecrypt_keeps {s : State} (h : s.Canonical) (blk : Block) (src : List Place) :
    R.Keeps (fun r => r.1.Canonical) (s.acceptDecrypt blk src) := by
  unfold State.acceptDecrypt
  split
  · refine (State.readAad_keeps h ..).bind fun ⟨t1, x1⟩ h1 => ?_
    dsimp only
    refine (State.decryptCheck_keeps h1 ..).bind fun t2 h2 => ?_
    exact h2
  · exact h

theorem State.acceptCmd_keeps {s : State} (h : s.Canonical) (i : EngineId) (c : Cmd) (a : RegNum) (timed : Bool)
    (t start : Word) :
    R.Keeps State.Canonical (s.acceptCmd i c a timed t start) := by
  unfold State.acceptCmd
  split
  · trivial
  · split
    · exact R.keeps_ok.2 (State.Canonical.of_mem (State.setInt_mem ..) (State.queueCmd_wf h ..))
    · dsimp only
      split
      · split
        · trivial
        · exact R.keeps_error_hold.2 (State.queueCmd_wf h ..)
      · split
        · trivial
        · exact R.keeps_error_hold.2 (State.queueCmd_wf h ..)

theorem State.acceptCopy_keeps {s : State} (h : s.Canonical) (o : Ordering) (a c : RegNum) (blk : Block)
    (i : EngineId) :
    R.Keeps State.Canonical (s.acceptCopy o a c blk i) := by
  unfold State.acceptCopy
  dsimp only
  refine (fieldCheck_keeps _).bind fun _ _ => ?_
  refine (State.checkOperand_keeps (State.release_wf h _) ..).bind fun ⟨t2, x2⟩ h2 => ?_
  refine (State.checkOperand_keeps h2 ..).bind fun ⟨t3, x3⟩ h3 => ?_
  refine (State.checkMailbox_keeps h3 _).bind fun ⟨t4, x4⟩ h4 => ?_
  split
  · refine (State.mirrorCheck_keeps ..).bind fun _ _ => ?_
    split
    · trivial
    · refine (State.acceptDecrypt_keeps h4 ..).bind fun ⟨t6, x6⟩ h6 => ?_
      exact State.acceptCmd_keeps h6 ..
  · split
    · trivial
    · refine (State.acceptDecrypt_keeps h4 ..).bind fun ⟨t5, x5⟩ h5 => ?_
      exact State.acceptCmd_keeps h5 ..

theorem execCpy_keeps {s : State} (h : s.Canonical) (x : Pfx) (o : Ordering) (a b c : RegNum) :
    Out.Keeps (execCpy x o a b c s) := by
  unfold execCpy
  refine itemOp_keeps h _ fun t1 ht1 => ?_
  split
  · exact State.startCmd_keeps ht1 ..
  · dsimp only
    split
    · refine (State.useG_keeps ht1 _).bind fun t2 h2 => ?_
      refine (State.readBlock_keeps h2 _).bind fun ⟨t3, x3⟩ h3 => ?_
      refine (State.engineRoom_keeps h3 ..).bind fun _ _ => ?_
      exact State.acceptCopy_keeps h3 ..
    · rw [R.keeps_bind, R.keeps_ok]
      refine (State.readBlock_keeps ht1 _).bind fun ⟨t2, x2⟩ h2 => ?_
      refine (State.engineRoom_keeps h2 ..).bind fun _ _ => ?_
      exact State.acceptCopy_keeps h2 ..

theorem execCpyw_keeps {s : State} (h : s.Canonical) (x : Pfx) (a b : RegNum) : Out.Keeps (execCpyw x a b s) := by
  unfold execCpyw
  refine itemOp_keeps h _ fun t1 ht1 => ?_
  refine (State.useG_keeps ht1 _).bind fun t2 h2 => ?_
  dsimp only
  refine (State.loadMem_keeps h2 ..).bind fun ⟨t3, x3⟩ h3 => ?_
  split
  · exact h3
  · exact h3

theorem execCpyq_keeps {s : State} (h : s.Canonical) (x : Pfx) (a b : RegNum) : Out.Keeps (execCpyq x a b s) := by
  unfold execCpyq
  refine itemOp_keeps h _ fun t1 ht1 => ?_
  refine (State.useG_keeps ht1 _).bind fun t2 h2 => ?_
  dsimp only
  split
  · split
    · trivial
    · split
      · trivial
      · simpa using h2
  · simpa using h2

theorem State.readIndex_keeps {s : State} (h : s.Canonical) (idx : GReg) (rows : Nat) :
    R.Keeps (fun r => r.1.Canonical) (s.readIndex idx rows) := by
  unfold State.readIndex
  dsimp only
  refine (State.checkOperand_keeps h ..).bind fun ⟨t1, x1⟩ h1 => ?_
  split
  · trivial
  · rw [R.keeps_pure]
    exact State.beforeAll_wf h1 _

theorem State.acceptPieces_keeps {s : State} (h : s.Canonical) (sh : Shape) (o : Ordering) (a c : RegNum)
    (blk : Block) (i : EngineId) :
    R.Keeps State.Canonical (s.acceptPieces sh o a c blk i) := by
  unfold State.acceptPieces
  dsimp only
  refine (fieldCheck_keeps _).bind fun _ _ => ?_
  split
  · refine (State.readIndex_keeps (State.release_wf h _) ..).bind fun ⟨t2, x2⟩ h2 => ?_
    refine (State.checkOperand_keeps h2 ..).bind fun ⟨t3, x3⟩ h3 => ?_
    refine (State.checkOperand_keeps h3 ..).bind fun ⟨t4, x4⟩ h4 => ?_
    refine (State.checkMailbox_keeps h4 _).bind fun ⟨t5, x5⟩ h5 => ?_
    split
    · rw [R.keeps_bind, R.keeps_ok]
      exact State.acceptCmd_keeps h5 ..
    · refine (State.checkOperand_keeps h5 ..).bind fun ⟨t6, x6⟩ h6 => ?_
      exact State.acceptCmd_keeps h6 ..
  · rw [R.keeps_bind, R.keeps_ok]
    refine (State.checkOperand_keeps (State.release_wf h _) ..).bind fun ⟨t2, x2⟩ h2 => ?_
    refine (State.checkOperand_keeps h2 ..).bind fun ⟨t3, x3⟩ h3 => ?_
    refine (State.checkMailbox_keeps h3 _).bind fun ⟨t4, x4⟩ h4 => ?_
    split
    · rw [R.keeps_bind, R.keeps_ok]
      exact State.acceptCmd_keeps h4 ..
    · refine (State.checkOperand_keeps h4 ..).bind fun ⟨t5, x5⟩ h5 => ?_
      exact State.acceptCmd_keeps h5 ..

theorem cisternBody_keeps {s : State} (h : s.Canonical) (sh : Shape) (o : Ordering) (a b c : RegNum) :
    R.Keeps State.Canonical (cisternBody sh o a b c s) := by
  unfold cisternBody
  split
  · exact State.startCmd_keeps h ..
  · dsimp only
    split
    · refine (State.useG_keeps h _).bind fun t1 h1 => ?_
      refine (State.readBlock_keeps h1 _).bind fun ⟨t2, x2⟩ h2 => ?_
      refine (State.engineRoom_keeps h2 ..).bind fun _ _ => ?_
      exact State.acceptPieces_keeps h2 ..
    · rw [R.keeps_bind, R.keeps_ok]
      refine (State.readBlock_keeps h _).bind fun ⟨t1, x1⟩ h1 => ?_
      refine (State.engineRoom_keeps h1 ..).bind fun _ _ => ?_
      exact State.acceptPieces_keeps h1 ..

theorem execXgth_keeps {s : State} (h : s.Canonical) (x : Pfx) (o : Ordering) (a b c : RegNum) :
    Out.Keeps (execXgth x o a b c s) := by
  unfold execXgth
  exact itemOp_keeps h _ fun _ ht => cisternBody_keeps ht ..

theorem execXred_keeps {s : State} (h : s.Canonical) (x : Pfx) (o : Ordering) (a b c : RegNum) :
    Out.Keeps (execXred x o a b c s) := by
  unfold execXred
  exact itemOp_keeps h _ fun _ ht => cisternBody_keeps ht ..

theorem execXcvt_keeps {s : State} (h : s.Canonical) (x : Pfx) (o : Ordering) (a b c : RegNum) :
    Out.Keeps (execXcvt x o a b c s) := by
  unfold execXcvt
  exact itemOp_keeps h _ fun _ ht => cisternBody_keeps ht ..

theorem execFlume_keeps {s : State} (h : s.Canonical) (x : Pfx) (a b : RegNum) : Out.Keeps (execFlume x a b s) := by
  unfold execFlume
  refine vectorOp_keeps h _ fun t1 ht1 => ?_
  refine (State.useG_keeps ht1 _).bind fun t2 h2 => ?_
  refine (State.useVec_keeps h2 ..).bind fun t3 h3 => ?_
  dsimp only
  refine (State.checkFlume_keeps ..).bind fun ⟨t4, x4⟩ h4 => ?_
  split
  · trivial
  · split
    · trivial
    · exact R.keeps_pure.2 (State.Canonical.of_mem (State.settleFlume_mem ..)
      (State.Canonical.of_mem (State.setFlume_mem ..) (State.release_wf h3 _)))

theorem execFlumw_keeps {s : State} (h : s.Canonical) (x : Pfx) (a b c : RegNum) :
    Out.Keeps (execFlumw x a b c s) := by
  unfold execFlumw
  refine vectorOp_keeps h _ fun t1 ht1 => ?_
  refine (State.useG_keeps ht1 _).bind fun t2 h2 => ?_
  refine (State.useVec_keeps h2 ..).bind fun t3 h3 => ?_
  dsimp only
  refine (State.checkFlume_keeps ..).bind fun ⟨t4, x4⟩ h4 => ?_
  split
  · split
    · trivial
    · simpa using h3
  · split
    · trivial
    · trivial

theorem execArrive_keeps {s : State} (h : s.Canonical) (x : Pfx) (a b : RegNum) :
    Out.Keeps (execArrive x a b s) := by
  unfold execArrive
  refine itemOp_keeps h _ fun t1 ht1 => ?_
  refine (State.readG_keeps ht1 _).bind fun ⟨t2, x2⟩ h2 => ?_
  dsimp only
  refine (State.checkWeir_keeps ..).bind fun ⟨key, id⟩ _ => ?_
  split
  · trivial
  · refine R.keeps_pure.2 (State.settleWeir_wf ?_ _)
    simpa using State.release_wf h2 (weirScope key)

theorem execWaitb_keeps {s : State} (h : s.Canonical) (x : Pfx) (b : RegNum) : Out.Keeps (execWaitb x b s) := by
  unfold execWaitb
  refine itemOp_keeps h _ fun t1 ht1 => ?_
  refine (State.readG_keeps ht1 _).bind fun ⟨t2, x2⟩ h2 => ?_
  dsimp only
  refine (State.checkWeir_keeps ..).bind fun ⟨t3, x3⟩ h3 => ?_
  split
  · trivial
  · split
    · split
      · simpa using h2
      · trivial
    · split
      · simpa using h2
      · trivial

theorem execBarq_keeps {s : State} (h : s.Canonical) (x : Pfx) (a b : RegNum) : Out.Keeps (execBarq x a b s) := by
  unfold execBarq
  refine itemOp_keeps h _ fun t1 ht1 => ?_
  refine (State.readG_keeps ht1 _).bind fun ⟨t2, x2⟩ h2 => ?_
  dsimp only
  refine (State.checkWeir_keeps ..).bind fun ⟨t3, x3⟩ h3 => ?_
  simpa using h2

theorem storeRun_keeps {s : State} (h : s.Canonical) (n : Nat) (at_ : List Nat) (ps : List Place)
    (bytes : List Byte) :
    R.Keeps State.Canonical (storeRun n at_ s ps bytes) := by
  fun_induction storeRun n at_ s ps bytes with
  | case1 => exact h
  | case2 s p ps bytes ih => exact (State.issueStore_keeps s p).bind fun _ _ => ih (State.storeWhole_wf h ..)

theorem storePieces_keeps {s : State} (h : s.Canonical) (n : Nat) (ps : List Place) (bytes : List Byte) :
    R.Keeps State.Canonical (storePieces n s ps bytes) :=
  R.keeps_map.2 ((storeRun_keeps h ..).mono fun _ h1 => by simpa using h1)

theorem execGauge_keeps {s : State} (h : s.Canonical) (x : Pfx) (a b : RegNum) : Out.Keeps (execGauge x a b s) := by
  unfold execGauge
  refine itemOp_keeps h _ fun t1 ht1 => ?_
  refine (State.useG_keeps ht1 _).bind fun t2 h2 => ?_
  refine (State.checkWeir_keeps ..).bind fun ⟨t3, x3⟩ h3 => ?_
  dsimp only
  refine (State.checkAll_keeps h2 _).bind fun ⟨t4, x4⟩ h4 => ?_
  exact storePieces_keeps h4 ..

theorem execTwait_keeps {s : State} (h : s.Canonical) (x : Pfx) (a : RegNum) : Out.Keeps (execTwait x a s) := by
  unfold execTwait
  refine scalarOp_keeps h _ fun t1 ht1 => ?_
  refine (State.readG_keeps ht1 _).bind fun ⟨t2, x2⟩ h2 => ?_
  dsimp only
  split
  · exact h2
  · trivial

theorem execTdead_keeps {s : State} (h : s.Canonical) (x : Pfx) (a : RegNum) (sel : BitVec 4) :
    Out.Keeps (execTdead x a sel s) := by
  unfold execTdead
  refine Out.keeps_next.2 (State.scalarInstr_wf h _ _ _ fun t ht => ?_)
  dsimp only
  exact R.keeps_ok.2 (State.Canonical.of_mem (State.setInt_mem ..) (wf_ite ht ht))

theorem execLatq_keeps {s : State} (h : s.Canonical) (x : Pfx) (a b : RegNum) : Out.Keeps (execLatq x a b s) := by
  unfold execLatq
  refine itemOp_keeps h _ fun t1 ht1 => ?_
  refine (State.readG_keeps ht1 _).bind fun ⟨t2, x2⟩ h2 => ?_
  dsimp only
  refine (State.latencyPlace_keeps ..).bind fun _ _ => ?_
  simpa using h2

theorem execFreeze_keeps {s : State} (h : s.Canonical) (x : Pfx) (a b c : RegNum) :
    Out.Keeps (execFreeze x a b c s) := by
  unfold execFreeze
  refine itemOp_keeps h _ fun t1 ht1 => ?_
  dsimp only
  split
  · trivial
  · refine (State.useG_keeps ht1 _).bind fun t2 h2 => ?_
    refine (State.freezePlace_keeps ..).bind fun _ _ => ?_
    split
    · trivial
    · split
      · trivial
      · split
        · refine (State.freezeFits_keeps ..).bind fun _ _ => ?_
          refine (State.useG_keeps (State.beforeAccess_wf h2 ..) _).bind fun t5 h5 => ?_
          refine (State.useV_keeps h5 _).bind fun t6 h6 => ?_
          refine (State.useP_keeps h6 _).bind fun t7 h7 => ?_
          exact R.keeps_pure.2 (State.Canonical.of_mem (State.setInt_mem ..)
            (State.Canonical.of_mem (State.freezeTeam_mem ..) (State.release_wf h7 _)))
        · rw [R.keeps_bind, R.keeps_ok]
          refine (State.useG_keeps (State.beforeAccess_wf h2 ..) _).bind fun t4 h4 => ?_
          refine (State.useV_keeps h4 _).bind fun t5 h5 => ?_
          refine (State.useP_keeps h5 _).bind fun t6 h6 => ?_
          exact R.keeps_pure.2 (State.Canonical.of_mem (State.setInt_mem ..)
            (State.Canonical.of_mem (State.freezeAlone_mem ..) (State.release_wf h6 _)))

theorem retireBody_keeps {s : State} (h : s.Canonical) (value : Word) (status : Nat) :
    R.Keeps State.Canonical (retireBody value status s) := by
  unfold retireBody
  dsimp only
  split
  · trivial
  · refine (State.resultPlace_keeps h).bind fun _ _ => ?_
    exact R.keeps_pure.2 (State.retireWith_wf h ..)

theorem execRetireValue_keeps {s : State} (h : s.Canonical) (x : Pfx) (a : RegNum) :
    Out.Keeps (execRetireValue x a s) := by
  unfold execRetireValue
  refine itemOp_keeps h _ fun t1 ht1 => ?_
  refine (State.readG_keeps ht1 _).bind fun ⟨t2, x2⟩ h2 => ?_
  dsimp only
  exact retireBody_keeps h2 ..

theorem execYield_keeps {s : State} (h : s.Canonical) (x : Pfx) : Out.Keeps (execYield x s) := by
  unfold execYield
  refine itemOp_keeps h _ fun t ht => ?_
  split
  · have hlift := State.liftCommands_wf (State.release_wf ht 5) (t.release 5).core.kicked
      [AgentId.clusterOf (t.release 5).core.agent]
    dsimp only
    rw [R.keeps_ok]
    simpa using hlift
  · exact ht

theorem State.launchDesc_keeps {s : State} (h : s.Canonical) (b : RegNum) :
    R.Keeps (fun r => r.1.Canonical) (s.launchDesc b) := by
  unfold State.launchDesc
  refine (State.checkAll_keeps h _).bind fun ⟨t1, x1⟩ h1 => ?_
  dsimp only
  split
  · split
    · exact R.keeps_error_hold.2 (State.release_wf h1 _)
    · exact R.keeps_ok.2 (State.release_wf h1 _)
  · exact R.keeps_ok.2 (State.release_wf h1 _)

theorem execLaunch_keeps {s : State} (h : s.Canonical) (x : Pfx) (a b : RegNum) :
    Out.Keeps (execLaunch x a b s) := by
  unfold execLaunch
  refine itemOp_keeps h _ fun t1 ht1 => ?_
  refine (State.useG_keeps ht1 _).bind fun t2 h2 => ?_
  refine (State.loads_keeps h2 _ _ fun u3 hu3 => ?_).bind fun ⟨t3, x3⟩ h3 => ?_
  · exact State.launchDesc_keeps hu3 _
  · dsimp only
    split
    · simpa using h3
    · split
      · trivial
      · simpa using h3

theorem execSignal_keeps {s : State} (h : s.Canonical) (x : Pfx) (a b : RegNum) :
    Out.Keeps (execSignal x a b s) := by
  unfold execSignal
  refine itemOp_keeps h _ fun t1 ht1 => ?_
  refine (State.useG_keeps ht1 _).bind fun t2 h2 => ?_
  exact R.keeps_pure.2 (State.Canonical.of_mem (State.signalCounter_mem ..) (State.release_wf h2 _))

theorem execWaitc_keeps {s : State} (h : s.Canonical) (x : Pfx) (a b : RegNum) : Out.Keeps (execWaitc x a b s) := by
  unfold execWaitc
  refine itemOp_keeps h _ fun t1 ht1 => ?_
  refine (State.useG_keeps ht1 _).bind fun t2 h2 => ?_
  dsimp only
  split
  · exact h2
  · trivial

theorem execExq_keeps {s : State} (h : s.Canonical) (x : Pfx) (a : RegNum) (sel : BitVec 4) :
    Out.Keeps (execExq x a sel s) := by
  unfold execExq
  refine Out.keeps_next.2 (State.scalarInstr_wf h _ _ _ fun t ht => ?_)
  simpa using ht

theorem execEret_keeps {s : State} (h : s.Canonical) (x : Pfx) : Out.Keeps (execEret x s) := by
  unfold execEret
  exact Out.keeps_next.2 (State.jumpInstr_wf h _ _ _ fun t ht => ht)

theorem execWfi_keeps {s : State} (h : s.Canonical) (x : Pfx) : Out.Keeps (execWfi x s) := by
  unfold execWfi
  refine Out.keeps_next.2 (State.scalarInstr_wf h _ _ _ fun t ht => ?_)
  split
  · exact ht
  · trivial

theorem execHalt_keeps {s : State} (h : s.Canonical) (x : Pfx) : Out.Keeps (execHalt x s) := by
  unfold execHalt
  refine firmwareOp_keeps h _ fun t1 ht1 => ?_
  dsimp only
  split
  · exact ht1
  · exact ht1
  · exact ht1

theorem execTrinv_keeps {s : State} (h : s.Canonical) (x : Pfx) (a b c : RegNum) :
    Out.Keeps (execTrinv x a b c s) := by
  unfold execTrinv
  refine firmwareOp_keeps h _ fun t1 ht1 => ?_
  refine (State.useG_keeps ht1 _).bind fun t2 h2 => ?_
  dsimp only
  split
  · trivial
  · split
    · exact R.keeps_error_hold.2 (State.finishThrough_wf
      (State.Canonical.of_mem (State.dropTlb_mem ..) (State.release_wf h2 _)) _)
    · exact R.keeps_ok.2 (State.finishThrough_wf
      (State.Canonical.of_mem (State.dropTlb_mem ..) (State.release_wf h2 _)) _)

theorem corpseOp_keeps {s : State} (h : s.Canonical) (x : Pfx) {body : State → R State}
    (hb : ∀ t, t.Canonical → R.Keeps State.Canonical (body t)) :
    (corpseOp x s body).Keeps :=
  State.scalarInstr_wf h _ _ x hb

theorem execKill_keeps {s : State} (h : s.Canonical) (x : Pfx) (a b : RegNum) : Out.Keeps (execKill x a b s) := by
  unfold execKill
  refine corpseOp_keeps h _ fun t1 ht1 => ?_
  refine (State.readG_keeps ht1 _).bind fun ⟨t2, x2⟩ h2 => ?_
  dsimp only
  split
  · trivial
  · split
    · exact R.keeps_pure.2 (State.Canonical.of_mem (State.setInt_mem ..) (State.startFreeze_wf h2 ..))
    · split
      · exact R.keeps_pure.2 (State.Canonical.of_mem (State.setInt_mem ..) (State.startFreeze_wf h2 ..))
      · trivial

theorem execMount_keeps {s : State} (h : s.Canonical) (x : Pfx) (a b c : RegNum) :
    Out.Keeps (execMount x a b c s) := by
  unfold execMount
  refine corpseOp_keeps h _ fun t1 ht1 => ?_
  refine (State.useG_keeps ht1 _).bind fun t2 h2 => ?_
  dsimp only
  split
  · trivial
  · split
    · trivial
    · trivial
    · split
      · trivial
      · split
        · trivial
        · split
          · trivial
          · split
            · trivial
            · simpa using h2

theorem execClbl_keeps {s : State} (h : s.Canonical) (x : Pfx) (a b c : RegNum) :
    Out.Keeps (execClbl x a b c s) := by
  unfold execClbl
  refine corpseOp_keeps h _ fun t1 ht1 => ?_
  refine (State.useG_keeps ht1 _).bind fun t2 h2 => ?_
  refine (State.mountOf_keeps ..).bind fun ⟨t3, x3⟩ h3 => ?_
  dsimp only
  split
  · simpa using h2
  · trivial

theorem execCrd_keeps {s : State} (h : s.Canonical) (x : Pfx) (a b c : RegNum) : Out.Keeps (execCrd x a b c s) := by
  unfold execCrd
  refine corpseOp_keeps h _ fun t1 ht1 => ?_
  refine (State.useG_keeps ht1 _).bind fun t2 h2 => ?_
  refine (State.mountOf_keeps ..).bind fun ⟨t3, x3⟩ h3 => ?_
  dsimp only
  split
  · trivial
  · simpa using h2

theorem execRevive_keeps {s : State} (h : s.Canonical) (x : Pfx) (a b c : RegNum) :
    Out.Keeps (execRevive x a b c s) := by
  unfold execRevive
  refine corpseOp_keeps h _ fun t1 ht1 => ?_
  refine (State.useG_keeps ht1 _).bind fun t2 h2 => ?_
  dsimp only
  refine (State.mountOf_keeps ..).bind fun ⟨t3, x3⟩ h3 => ?_
  split
  · split
    · trivial
    · split
      · trivial
      · split
        · trivial
        · split
          · trivial
          · split
            · trivial
            · split
              · trivial
              · exact R.keeps_pure.2 (State.Canonical.of_mem (State.setInt_mem ..)
                (State.Canonical.of_mem (State.queueLaunch_mem ..) (State.release_wf h2 _)))
  · trivial

theorem execUmnt_keeps {s : State} (h : s.Canonical) (x : Pfx) (b : RegNum) : Out.Keeps (execUmnt x b s) := by
  unfold execUmnt
  refine corpseOp_keeps h _ fun t1 ht1 => ?_
  refine (State.useG_keeps ht1 _).bind fun t2 h2 => ?_
  refine (State.mountOf_keeps ..).bind fun ⟨t3, x3⟩ h3 => ?_
  dsimp only
  split
  · trivial
  · split
    · exact h2
    · exact h2

theorem execJrnl_keeps {s : State} (h : s.Canonical) (x : Pfx) (a b c : RegNum) :
    Out.Keeps (execJrnl x a b c s) := by
  unfold execJrnl
  refine firmwareOp_keeps h _ fun t1 ht1 => ?_
  refine (State.useG_keeps ht1 _).bind fun t2 h2 => ?_
  dsimp only
  split
  · simpa using h2
  · split
    · simpa using h2
    · refine (State.storeMem_keeps h2 ..).bind fun t3 h3 => ?_
      simpa using h3

theorem execTsync_keeps {s : State} (h : s.Canonical) (x : Pfx) (a b : RegNum) : Out.Keeps (execTsync x a b s) := by
  unfold execTsync
  refine firmwareOp_keeps h _ fun t1 ht1 => ?_
  refine (State.readG_keeps ht1 _).bind fun ⟨t2, x2⟩ h2 => ?_
  dsimp only
  split
  · trivial
  · split
    · simpa using h2
    · split
      · simpa using h2
      · simpa using h2

theorem execOwnr_keeps {s : State} (h : s.Canonical) (x : Pfx) (a b c : RegNum) :
    Out.Keeps (execOwnr x a b c s) := by
  unfold execOwnr
  refine Out.keeps_next.2 (State.scalarInstr_wf h _ _ _ fun t ht => ?_)
  refine (State.useG_keeps ht _).bind fun t2 h2 => ?_
  split
  · trivial
  · split
    · trivial
    · dsimp only
      exact R.keeps_pure.2 (State.Canonical.of_mem (State.setInt_mem ..) (State.writeOwner_wf h2 ..))

theorem execSmpc_keeps {s : State} (h : s.Canonical) (x : Pfx) (a b c : RegNum) :
    Out.Keeps (execSmpc x a b c s) := by
  unfold execSmpc
  refine firmwareOp_keeps h _ fun t1 ht1 => ?_
  refine (State.useG_keeps ht1 _).bind fun t2 h2 => ?_
  dsimp only
  split
  · trivial
  · split
    · split
      · trivial
      · simpa using h2
    · split
      · trivial
      · simpa using h2

theorem execDbgb_keeps {s : State} (h : s.Canonical) (x : Pfx) (a b : RegNum) : Out.Keeps (execDbgb x a b s) := by
  unfold execDbgb
  refine firmwareOp_keeps h _ fun t1 ht1 => ?_
  refine (State.readG_keeps ht1 _).bind fun ⟨t2, x2⟩ h2 => ?_
  dsimp only
  split
  · trivial
  · simpa using h2

theorem cipherBody_keeps {s : State} (h : s.Canonical) (rs : List RegNum) (a : RegNum) (f : State → VReg) :
    R.Keeps State.Canonical (cipherBody rs a f s) := by
  unfold cipherBody
  refine (State.useV_keeps h _).bind fun t1 h1 => ?_
  exact h1

theorem execImpreciseFaultTake_keeps {s : State} (h : s.Canonical) (c : AgentId) :
    Out.Keeps (execImpreciseFaultTake c s) := by
  unfold execImpreciseFaultTake
  dsimp only
  split
  · exact Out.keeps_next.2 (State.Canonical.of_mem (State.done_mem _)
    (State.takePending_wf (State.Canonical.of_mem (State.abandonMark_mem _) (by simpa using h))))
  · simpa using h

theorem execPageWalk_keeps {s : State} (h : s.Canonical) (c : CoreId) (context : BitVec 8) (va : Addr) :
    Out.Keeps (execPageWalk c context va s) := by
  unfold execPageWalk
  simpa using h

theorem execHomeAccessPerform_keeps {s : State} (h : s.Canonical) (k : Nat) :
    Out.Keeps (execHomeAccessPerform k s) := by
  unfold execHomeAccessPerform
  split
  · exact h
  · dsimp only
    exact Out.keeps_next.2 (State.performDue_wf h ..)

theorem execScratchpadRmwSlot_keeps {s : State} (h : s.Canonical) (die : BitVec 2) (cluster : BitVec 7)
    (slot : BitVec 4) :
    Out.Keeps (execScratchpadRmwSlot die cluster slot s) := by
  unfold execScratchpadRmwSlot
  split
  · dsimp only
    exact Out.keeps_next.2 (State.Canonical.of_mem (State.setCluster_mem ..) (State.rmwFrame_wf h ..))
  · exact h

theorem execTimedStoreArrival_keeps {s : State} (h : s.Canonical) (k : Nat) :
    Out.Keeps (execTimedStoreArrival k s) := by
  unfold execTimedStoreArrival
  split
  · simpa using h
  · exact h

theorem execTimedStoreApply_keeps {s : State} (h : s.Canonical) (die : BitVec 2) :
    Out.Keeps (execTimedStoreApply die s) := by
  unfold execTimedStoreApply
  exact Out.keeps_next.2 (State.applyDie_wf h _)

theorem execDeadlineMissReport_keeps {s : State} (h : s.Canonical) (k : Nat) :
    Out.Keeps (execDeadlineMissReport k s) := by
  unfold execDeadlineMissReport
  split
  · exact h
  · split
    · exact h
    · dsimp only
      exact Out.keeps_next.2 (State.reportMisses_wf (by simpa using h) ..)

theorem State.sendFetch_keeps {s : State} (h : s.Canonical) (p : Place) :
    R.Keeps (fun r => r.1.Canonical) (s.sendFetch p) := by
  unfold State.sendFetch
  refine (State.issueAway_keeps ..).bind fun _ _ => ?_
  exact R.keeps_error_hold.2 (State.beforeAccess_wf h ..)

theorem State.fetchAway_keeps {s : State} (h : s.Canonical) (p : Place) :
    R.Keeps (fun r => r.1.Canonical) (s.fetchAway p) := by
  unfold State.fetchAway
  split
  · split
    · split
      · dsimp only
        exact h
      · split
        · trivial
        · exact h
      · exact h
    · exact State.sendFetch_keeps h _
  · exact State.sendFetch_keeps h _

theorem State.fetchParcel_keeps {s : State} (h : s.Canonical) (a : Addr) :
    R.Keeps (fun r => r.1.Canonical) (s.fetchParcel a) := by
  unfold State.fetchParcel
  split
  · trivial
  · split
    · trivial
    · dsimp only
      split
      · simpa using h
      · split
        · exact State.fetchAway_keeps (by simpa using h) _
        · simpa using h

theorem State.fetch_keeps {s : State} (h : s.Canonical) (a : Addr) (n : Nat) :
    R.Keeps (fun r => r.1.Canonical) (s.fetch a n) := by
  induction n generalizing s a with
  | zero => exact h
  | succ n ih =>
    have hparcel := State.fetchParcel_keeps h a
    unfold State.fetch
    split
    next heq =>
      rw [heq] at hparcel
      exact hparcel
    next t q heq =>
      rw [heq] at hparcel
      split
      · have hrest := ih hparcel (a + 2)
        split
        all_goals
          next heq =>
            rw [heq] at hrest
            exact hrest
      · exact hparcel

theorem State.parcels_keeps {s : State} (h : s.Canonical) : R.Keeps (fun r => r.1.Canonical) s.parcels := by
  have hfetch := State.fetch_keeps h s.pc 5
  unfold State.parcels
  split
  · exact h
  · split
    all_goals
      next heq =>
        rw [heq] at hfetch
        exact hfetch

theorem State.fetchInstr_keeps {s : State} (h : s.Canonical) : R.Keeps (fun r => r.1.Canonical) s.fetchInstr := by
  have hparcels := State.parcels_keeps h
  unfold State.fetchInstr
  split
  next heq =>
    rw [heq] at hparcels
    exact hparcels
  next heq =>
    rw [heq] at hparcels
    split
    · exact hparcels
    · trivial
    · trivial

theorem State.atInstant_keeps {s : State} (h : s.Canonical) {f : State → Out}
    (hf : ∀ t, t.Canonical → (f t).Keeps) :
    (s.atInstant f).Keeps := by
  have hstill := hf { s with still := true } h
  unfold State.atInstant
  split
  next heq =>
    rw [heq] at hstill
    exact hstill
  · exact hstill

theorem State.wake_keeps {s : State} (h : s.Canonical) (a : AgentId) {f : Instr → Option (State → Out)}
    (hf : ∀ i g, f i = some g → ∀ t, t.Canonical → (g t).Keeps) :
    (s.wake a f).Keeps := by
  have hfocus : (s.focus a).Canonical := by simpa using h
  have hinstr := State.fetchInstr_keeps hfocus
  unfold State.wake
  extract_lets t
  split
  · exact hfocus
  · split
    next u i heq =>
      rw [heq] at hinstr
      split
      next g hg => exact Out.observed_keeps _ _ (State.atInstant_keeps hinstr (hf i g hg))
      · exact hinstr
    · exact hfocus

theorem execNotBeforeLoadPerform_keeps {s : State} (h : s.Canonical) (c : AgentId) :
    Out.Keeps (execNotBeforeLoadPerform c s) := by
  refine State.wake_keeps h c fun i g hg t ht => ?_
  split at hg <;> cases hg
  · exact execLdnb_keeps ht ..
  · exact execVldnb_keeps ht ..

theorem execTimedEngineStart_keeps {s : State} (h : s.Canonical) (c : AgentId) :
    Out.Keeps (execTimedEngineStart c s) := by
  refine State.wake_keeps h c fun i g hg t ht => ?_
  split at hg <;> cases hg
  · exact execMma_keeps ht ..
  · exact execMmas_keeps ht ..
  · exact execCpy_keeps ht ..
  · exact execXgth_keeps ht ..
  · exact execXred_keeps ht ..
  · exact execXcvt_keeps ht ..

theorem execTwaitExpiry_keeps {s : State} (h : s.Canonical) (c : AgentId) : Out.Keeps (execTwaitExpiry c s) := by
  refine State.wake_keeps h c fun i g hg t ht => ?_
  split at hg
  · cases hg
    exact execTwait_keeps ht ..
  · cases hg

theorem execWaitcSatisfied_keeps {s : State} (h : s.Canonical) (c : AgentId) :
    Out.Keeps (execWaitcSatisfied c s) := by
  refine State.wake_keeps h c fun i g hg t ht => ?_
  split at hg
  · cases hg
    exact execWaitc_keeps ht ..
  · cases hg

theorem execCpywSatisfied_keeps {s : State} (h : s.Canonical) (c : AgentId) :
    Out.Keeps (execCpywSatisfied c s) := by
  refine State.wake_keeps h c fun i g hg t ht => ?_
  split at hg
  · cases hg
    exact execCpyw_keeps ht ..
  · cases hg

theorem wfiEnds_keeps {s : State} (h : s.Canonical) (x : Pfx) : Out.Keeps (wfiEnds x s) := by
  unfold wfiEnds
  refine Out.keeps_next.2 (State.scalarInstr_wf h _ _ _ fun t ht => ?_)
  exact ht

theorem execWfiWake_keeps {s : State} (h : s.Canonical) (c : AgentId) : Out.Keeps (execWfiWake c s) := by
  refine State.wake_keeps h c fun i g hg t ht => ?_
  split at hg
  · cases hg
    exact wfiEnds_keeps ht ..
  · cases hg

theorem execWeirReleaseBroadcast_keeps {s : State} (h : s.Canonical) (c : CoreId) :
    Out.Keeps (execWeirReleaseBroadcast c s) := by
  unfold execWeirReleaseBroadcast
  extract_lets s1 core ident s2
  have h1 : s1.Canonical := by simpa [s1] using h
  have h2 : s2.Canonical := by
    unfold s2
    split
    · exact wf_ite h1 h1
    · exact h1
  refine State.wake_keeps h2 (.core c) fun i g hg t ht => ?_
  split at hg
  · cases hg
    exact execWaitb_keeps ht ..
  · cases hg

theorem execFlumwReturn_keeps {s : State} (h : s.Canonical) (c : CoreId) : Out.Keeps (execFlumwReturn c s) := by
  refine State.wake_keeps h (.core c) fun i g hg t ht => ?_
  split at hg
  · cases hg
    exact execFlumw_keeps ht ..
  · cases hg

theorem execItemStart_keeps {s : State} (h : s.Canonical) (c : CoreId) : Out.Keeps (execItemStart c s) := by
  unfold execItemStart
  dsimp only
  split
  · exact Out.keeps_next.2 (State.startNext_wf (by simpa using h) _)
  · simpa using h

theorem execCulvertBeat_keeps {s : State} (h : s.Canonical) (u : CulvertId) : Out.Keeps (execCulvertBeat u s) := by
  unfold execCulvertBeat
  split
  · split
    · exact Out.keeps_next.2 (State.copyBeat_wf h ..)
    · exact h
  · exact h

theorem execCulvertCompletion_keeps {s : State} (h : s.Canonical) (u : CulvertId) :
    Out.Keeps (execCulvertCompletion u s) := by
  unfold execCulvertCompletion
  split
  · split
    · exact h
    · exact Out.keeps_next.2 (State.copyEnd_wf h ..)
  · exact h

theorem execCisternPiece_keeps {s : State} (h : s.Canonical) (stack : BitVec 4) :
    Out.Keeps (execCisternPiece stack s) := by
  unfold execCisternPiece
  split
  · split
    · exact Out.keeps_next.2 (State.cisternStep_wf h ..)
    · exact h
  · exact h

theorem execCisternCompletion_keeps {s : State} (h : s.Canonical) (stack : BitVec 4) :
    Out.Keeps (execCisternCompletion stack s) := by
  unfold execCisternCompletion
  split
  · split
    · exact h
    · exact Out.keeps_next.2 (State.cisternEnd_wf h ..)
  · exact h

theorem execMmaExecute_keeps {s : State} (h : s.Canonical) (die : BitVec 2) (cluster : BitVec 7) :
    Out.Keeps (execMmaExecute die cluster s) := by
  unfold execMmaExecute
  exact Out.keeps_next.2 (State.matExecute_wf h ..)

theorem execMzeroExecute_keeps {s : State} (h : s.Canonical) (die : BitVec 2) (cluster : BitVec 7) :
    Out.Keeps (execMzeroExecute die cluster s) := by
  unfold execMzeroExecute
  exact Out.keeps_next.2 (State.matExecute_wf h ..)

theorem execMdrainExecute_keeps {s : State} (h : s.Canonical) (die : BitVec 2) (cluster : BitVec 7) :
    Out.Keeps (execMdrainExecute die cluster s) := by
  unfold execMdrainExecute
  exact Out.keeps_next.2 (State.matExecute_wf h ..)

theorem execMatrixTileError_keeps {s : State} (h : s.Canonical) (c : CoreId) :
    Out.Keeps (execMatrixTileError c s) := by
  unfold execMatrixTileError
  split
  · split
    · exact Out.keeps_next.2 (State.tileError_wf h ..)
    · exact h
  · exact h

theorem execRingConfigurationWrite_keeps {s : State} (h : s.Canonical) (f : BitVec 6) (offset : BitVec 12)
    (v : Word) :
    Out.Keeps (execRingConfigurationWrite f offset v s) := by
  unfold execRingConfigurationWrite
  dsimp only
  split
  · exact h
  · split
    · exact h
    · split
      · exact h
      · exact Out.keeps_next.2 (State.flushRings_wf (by simpa using h) _)

theorem execBarRegisterWrite_keeps {s : State} (h : s.Canonical) (f : BitVec 6) (offset : BitVec 12) (v : Word) :
    Out.Keeps (execBarRegisterWrite f offset v s) := by
  unfold execBarRegisterWrite
  split
  · exact h
  · exact h

theorem execIntakeLaunch_keeps {s : State} (h : s.Canonical) (q : BitVec 6) : Out.Keeps (execIntakeLaunch q s) := by
  unfold execIntakeLaunch
  split
  · exact h
  next c _ =>
    have hintake : ∀ t : State, t.Canonical → (t.intake q.toNat c fun s => s.intakeLaunch q.toNat c).Canonical :=
      fun t ht => State.intake_wf ht _ _ fun _ hu => State.intakeLaunch_wf hu ..
    split
    · exact hintake s h
    · extract_lets t
      have ht : t.Canonical := State.internalAll_wf (State.handover_wf h _) ..
      clear_value t
      split_ifs
      · exact ht
      · split
        · exact ht
        · simpa using ht
        · exact hintake t ht

theorem execIntakeKill_keeps {s : State} (h : s.Canonical) (q : BitVec 6) : Out.Keeps (execIntakeKill q s) := by
  unfold execIntakeKill
  split
  · exact State.intake_wf h _ _ fun _ ht => State.intakeKill_wf ht ..
  · exact h

theorem execIntakeSignal_keeps {s : State} (h : s.Canonical) (q : BitVec 6) : Out.Keeps (execIntakeSignal q s) := by
  unfold execIntakeSignal
  split
  · exact State.intake_wf h _ _ fun _ ht => State.intakeSignal_wf ht ..
  · exact h

theorem execResync_keeps {s : State} (h : s.Canonical) (q : BitVec 6) : Out.Keeps (execResync q s) := by
  unfold execResync
  split
  · exact State.intake_wf h _ _ fun _ ht => State.journalBy_wf ht ..
  · exact h

theorem execIntakeNop_keeps {s : State} (h : s.Canonical) (q : BitVec 6) : Out.Keeps (execIntakeNop q s) := by
  unfold execIntakeNop
  split
  · exact State.intake_wf h _ _ fun _ ht => State.journalBy_wf ht ..
  · exact h

theorem execInternalQueueLaunch_keeps {s : State} (h : s.Canonical) (context : BitVec 8) :
    Out.Keeps (execInternalQueueLaunch context s) := by
  unfold execInternalQueueLaunch
  split
  · exact h
  · split
    · exact h
    · split
      · exact Out.keeps_next.2 (State.internalNext_wf h ..)
      · exact h

theorem execHeadgateHandover_keeps {s : State} (h : s.Canonical) (q : Nat) :
    Out.Keeps (execHeadgateHandover q s) := by
  unfold execHeadgateHandover
  split
  · exact Out.keeps_next.2 (State.handover_wf h _)
  · exact h

theorem execTaskPlacement_keeps {s : State} (h : s.Canonical) (context : BitVec 8) (task : BitVec 32)
    (clusters : List (BitVec 2 × BitVec 7)) :
    Out.Keeps (execTaskPlacement context task clusters s) := by
  unfold execTaskPlacement
  dsimp only
  split
  · exact h
  · split
    · exact Out.keeps_next.2 (State.Canonical.of_mem (State.journalSet_mem ..) (State.place_wf (by simpa using h) ..))
    · exact h

theorem execClassRaise_keeps {s : State} (h : s.Canonical) (context : BitVec 8) (task : BitVec 32) :
    Out.Keeps (execClassRaise context task s) := by
  unfold execClassRaise
  split
  · exact h
  · exact h

theorem execPreemption_keeps {s : State} (h : s.Canonical) (context : BitVec 8) (task : BitVec 32) :
    Out.Keeps (execPreemption context task s) := by
  unfold execPreemption
  split
  · exact h
  · split
    · exact Out.keeps_next.2 (State.preempt_wf h ..)
    · exact h

theorem execTaskResume_keeps {s : State} (h : s.Canonical) (context : BitVec 8) (task : BitVec 32)
    (clusters : List (BitVec 2 × BitVec 7)) :
    Out.Keeps (execTaskResume context task clusters s) := by
  unfold execTaskResume
  dsimp only
  split
  · exact h
  · split
    · exact Out.keeps_next.2 (State.resumeTask_wf (by simpa using h) ..)
    · exact h

theorem execFreezeInstant_keeps {s : State} (h : s.Canonical) (corpse : BitVec 32) :
    Out.Keeps (execFreezeInstant corpse s) := by
  unfold execFreezeInstant
  split
  · exact h
  · split
    · exact Out.keeps_next.2 (State.freezeInstant_wf h _)
    · exact h

theorem execDieLinkLoss_keeps {s : State} (h : s.Canonical) (dieA dieB : BitVec 2) :
    Out.Keeps (execDieLinkLoss dieA dieB s) := by
  unfold execDieLinkLoss
  split
  · exact h
  · extract_lets low high over_ crosses late reads t lost
    exact State.freezeSpanning_wf (State.reportLost_wf (s := t) h _) ..

theorem execFlitReceive_keeps {s : State} (h : s.Canonical) (port : BitVec 4) (f : Flit) :
    Out.Keeps (execFlitReceive port f s) := by
  unfold execFlitReceive
  extract_lets b t
  split
  · exact h
  · split
    · simpa using h
    · split
      · exact State.peerRequest_wf (s := t) h f
      · split
        · exact h
        · exact h

theorem execPortUp_keeps {s : State} (h : s.Canonical) (port : BitVec 4) (r : PortReport) :
    Out.Keeps (execPortUp port r s) := by
  unfold execPortUp
  dsimp only
  exact h

theorem execPeerUnreachable_keeps {s : State} (h : s.Canonical) (device : BitVec 19) :
    Out.Keeps (execPeerUnreachable device s) := by
  unfold execPeerUnreachable
  dsimp only
  exact Out.keeps_next.2 (State.endKept_wf (State.endAllToward_wf (by simpa using h) ..) _)

theorem execHostCompletionTimeout_keeps {s : State} (h : s.Canonical) (c : AgentId) :
    Out.Keeps (execHostCompletionTimeout c s) := by
  unfold execHostCompletionTimeout
  split
  · exact Out.keeps_next.2 (wf_ite (by simpa using h) h)
  · exact h

theorem execDisciplineLoss_keeps {s : State} (h : s.Canonical) (out : Bool) :
    Out.Keeps (execDisciplineLoss out s) := by
  unfold execDisciplineLoss
  split
  · exact h
  · split
    · exact h
    · exact h

theorem execFeedWrite_keeps {s : State} (h : s.Canonical) (v : BitVec 16) : Out.Keeps (execFeedWrite v s) := by
  unfold execFeedWrite
  split
  · exact h
  · exact h

theorem execPowerCapWrite_keeps {s : State} (h : s.Canonical) (watts : Nat) :
    Out.Keeps (execPowerCapWrite watts s) := by
  unfold execPowerCapWrite
  split
  · exact h
  · exact h

theorem execSramSplitSet_keeps {s : State} (h : s.Canonical) (die : BitVec 2) (mib : Nat) :
    Out.Keeps (execSramSplitSet die mib s) := by
  unfold execSramSplitSet
  split
  · exact h
  · exact h

theorem execModuleReset_keeps {s : State} (h : s.Canonical) (images : List Image) :
    Out.Keeps (execModuleReset images s) := by
  have hboot := State.boot_wf h
  unfold execModuleReset
  split
  · exact hboot images
  · exact hboot []

theorem execDieReset_keeps {s : State} (h : s.Canonical) (die : BitVec 2) : Out.Keeps (execDieReset die s) := by
  unfold execDieReset
  dsimp only
  exact Out.keeps_next.2 (wf_ite
    (State.Canonical.of_mem (State.restart_mem ..)
    (State.Canonical.of_mem (State.restart_mem ..)
    (State.Canonical.of_mem (State.restart_mem ..) (by simpa using h)))) (State.Canonical.of_mem (State.restart_mem
    ..) (State.Canonical.of_mem (State.restart_mem ..) (by simpa using h))))

theorem execFunctionReset_keeps {s : State} (h : s.Canonical) (f : BitVec 6) :
    Out.Keeps (execFunctionReset f s) := by
  unfold execFunctionReset
  dsimp only
  exact Out.keeps_next.2 (State.freezeBound_wf (by simpa using h) ..)

theorem execPowerLoss_keeps {s : State} (h : s.Canonical) : Out.Keeps (execPowerLoss s) := memFilter_wf _ h

theorem execTaggedSample_keeps {s : State} (h : s.Canonical) (c : CoreId) (b : SampleBody) :
    Out.Keeps (execTaggedSample c b s) := by
  unfold execTaggedSample
  dsimp only
  split
  · exact h
  · split
    · exact h
    · exact Out.keeps_next.2 (State.trace_wf (by simpa using h) ..)

theorem execMonitorSample_keeps {s : State} (h : s.Canonical) (die channel : BitVec 2) (cycle : Nat) :
    Out.Keeps (execMonitorSample die channel cycle s) := by
  unfold execMonitorSample
  dsimp only
  split
  · exact h
  · exact Out.keeps_next.2 (wf_ite (State.trace_wf (by simpa using h) ..)
    (State.Canonical.of_mem (State.tick_mem _) (State.trace_wf (by simpa using h) ..)))

theorem execGetVersion_keeps {s : State} (h : s.Canonical) (f : BitVec 6) : Out.Keeps (execGetVersion f s) := by
  unfold execGetVersion
  dsimp only
  exact h

theorem execGetCapabilities_keeps {s : State} (h : s.Canonical) (request : CapsRequest) :
    Out.Keeps (execGetCapabilities request s) := by
  unfold execGetCapabilities
  dsimp only
  exact Out.keeps_next.2 (wf_ite (by simpa using h) (by simpa using h))

theorem execNegotiateAlgorithms_keeps {s : State} (h : s.Canonical) (offer : AlgOffer) :
    Out.Keeps (execNegotiateAlgorithms offer s) := by
  unfold execNegotiateAlgorithms
  dsimp only
  exact Out.keeps_next.2 (wf_ite (by simpa using h) (wf_ite (by simpa using h) (by simpa using h)))

theorem State.negotiated_keeps {s : State} (h : s.Canonical) (f : BitVec 6) {body : Spdm → State}
    (hb : ∀ x, (body x).Canonical) :
    (s.negotiated f body).Keeps := by
  unfold State.negotiated
  exact wf_ite (hb _) (by simpa using h)

theorem execChallenge_keeps {s : State} (h : s.Canonical) (f : BitVec 6) (slot : BitVec 4) (nonce : BitVec 256) :
    Out.Keeps (execChallenge f slot nonce s) := by
  unfold execChallenge
  refine State.negotiated_keeps h _ fun t1 => ?_
  exact wf_ite (by simpa using h) (State.Canonical.of_mem (State.setSpdm_mem ..) (by simpa using h))

theorem execGetMeasurements_keeps {s : State} (h : s.Canonical) (f : BitVec 6) (index : BitVec 8) (signed : Bool)
    (nonce : BitVec 256) :
    Out.Keeps (execGetMeasurements f index signed nonce s) := by
  unfold execGetMeasurements
  refine State.negotiated_keeps h _ fun t1 => ?_
  split
  · exact h
  · exact h

theorem execKeyExchange_keeps {s : State} (h : s.Canonical) (f : BitVec 6) (slot : BitVec 4) (exchange : BitVec 768)
    (guest : Bool) :
    Out.Keeps (execKeyExchange f slot exchange guest s) := by
  unfold execKeyExchange
  refine State.negotiated_keeps h _ fun t1 => ?_
  exact wf_ite (by simpa using h) (State.Canonical.of_mem (State.setSpdm_mem ..)
    (State.Canonical.of_mem (State.drawn_mem ..) (wf_ite (by simpa using h) h)))

theorem execFinish_keeps {s : State} (h : s.Canonical) (f : BitVec 6) (verify : BitVec 384) :
    Out.Keeps (execFinish f verify s) := by
  unfold execFinish
  refine State.negotiated_keeps h _ fun t1 => ?_
  split
  · exact wf_ite (by simpa using h) (by simpa using h)
  · exact h

theorem execEndSession_keeps {s : State} (h : s.Canonical) (request : SealedRequest) :
    Out.Keeps (execEndSession request s) := by
  unfold execEndSession
  dsimp only
  refine State.negotiated_keeps h _ fun t1 => ?_
  exact wf_ite (by simpa using h) (wf_ite (by simpa using h) (by simpa using h))

theorem State.vendor_keeps {s : State} (h : s.Canonical) (x : Session) (code : BitVec 8) (fields : List Byte)
    {body : State → Option (State × List Byte)} (hb : ∀ r, body s = some r → r.1.Canonical) :
    (s.vendor x code fields body).Keeps := by
  unfold State.vendor
  refine wf_ite (by simpa using h) (wf_ite (by simpa using h) (wf_ite (by simpa using h) ?_))
  split
  · simpa using h
  next t answer heq => simpa using hb _ heq

theorem execRekeyQueue_keeps {s : State} (h : s.Canonical) (x : Session) (q : BitVec 6) (key : BitVec 256) :
    Out.Keeps (execRekeyQueue x q key s) := by
  refine State.vendor_keeps h _ _ _ fun r hr => ?_
  split_ifs at hr
  cases hr
  simpa using h

theorem execBindChannel_keeps {s : State} (h : s.Canonical) (x : Session) (channel : BitVec 10) (context : BitVec 8)
    (key : BitVec 256) (n : Word) :
    Out.Keeps (execBindChannel x channel context key n s) := by
  refine State.vendor_keeps h _ _ _ fun r hr => ?_
  dsimp only at hr
  split_ifs at hr
  cases hr
  exact h

theorem execGrantCorpse_keeps {s : State} (h : s.Canonical) (x : Session) (corpse : BitVec 32) (context : BitVec 8)
    (add : Bool) :
    Out.Keeps (execGrantCorpse x corpse context add s) := by
  refine State.vendor_keeps h _ _ _ fun r hr => ?_
  dsimp only at hr
  split at hr
  · cases hr
  · split at hr
    · cases hr
    · split at hr
      · cases hr
        exact h
      · split at hr
        · cases hr
        · split at hr
          · cases hr
            exact h
          · split at hr
            · cases hr
            · cases hr
              exact h

theorem execDiscardCorpse_keeps {s : State} (h : s.Canonical) (x : Session) (corpse : BitVec 32) :
    Out.Keeps (execDiscardCorpse x corpse s) := by
  refine State.vendor_keeps h _ _ _ fun r hr => ?_
  split at hr
  · split_ifs at hr
    cases hr
    exact State.discard_wf h _
  · cases hr

theorem execSetQuota_keeps {s : State} (h : s.Canonical) (x : Session) (context : BitVec 8) (bytes : Nat) :
    Out.Keeps (execSetQuota x context bytes s) := by
  refine State.vendor_keeps h _ _ _ fun r hr => ?_
  split at hr
  · split_ifs at hr
    cases hr
    simpa using h
  · cases hr

theorem execExtend_keeps {s : State} (h : s.Canonical) (x : Session) (block : BitVec 4) (digest : BitVec 384) :
    Out.Keeps (execExtend x block digest s) := by
  refine State.vendor_keeps h _ _ _ fun r hr => ?_
  dsimp only at hr
  split_ifs at hr
  cases hr
  exact h

theorem execMigrate_keeps {s : State} (h : s.Canonical) (x : Session) (context : BitVec 8) (device : BitVec 19) :
    Out.Keeps (execMigrate x context device s) := by
  refine State.vendor_keeps h _ _ _ fun r hr => ?_
  split at hr
  · cases hr
  · split_ifs at hr
    cases hr
    exact State.migrateOut_wf h ..

theorem execAssign_keeps {s : State} (h : s.Canonical) (x : Session) (target : Word) (owner : BitVec 8) :
    Out.Keeps (execAssign x target owner s) := by
  refine State.vendor_keeps h _ _ _ fun r hr => ?_
  split at hr
  · cases hr
  · dsimp only at hr
    split_ifs at hr
    cases hr
    exact State.asSecurity_wf h fun _ ht => State.writeOwner_wf ht ..

theorem execMigrationInstall_keeps {s : State} (h : s.Canonical) (source : BitVec 19) (context : BitVec 8)
    (sealedState : List Byte) :
    Out.Keeps (execMigrationInstall source context sealedState s) := by
  unfold execMigrationInstall
  split
  · exact h
  · split
    · exact Out.keeps_next.2 (State.install_wf h ..)
    · exact h

theorem execMigrationReceipt_keeps {s : State} (h : s.Canonical) (context : BitVec 8) (signature : List Byte) :
    Out.Keeps (execMigrationReceipt context signature s) := by
  unfold execMigrationReceipt
  split
  · exact h
  · split
    · extract_lets t
      have ht : t.Canonical := by simpa [t] using State.leave_wf h context
      exact ht
    · exact h

theorem execMigrationConfirm_keeps {s : State} (h : s.Canonical) (context : BitVec 8) (c : Confirmation) :
    Out.Keeps (execMigrationConfirm context c s) := by
  unfold execMigrationConfirm
  split
  · exact h
  · dsimp only
    split
    · exact h
    · simpa using h
    · exact h
    · exact h
    · split
      · exact h
      · exact h
    · exact Out.keeps_next.2 (wf_ite
      (State.Canonical.of_mem (State.markLost_mem ..) (State.leave_wf (by simpa using h) _))
      (State.leave_wf (by simpa using h) _))

theorem execContextCreate_keeps {s : State} (h : s.Canonical) (context : BitVec 8) (f : BitVec 6) (root : BitVec 44)
    (area : Addr) (areaPa : BitVec 44) (trace : Addr) (tracePa : BitVec 44) (traceLog : Nat) :
    Out.Keeps (execContextCreate context f root area areaPa trace tracePa traceLog s) := by
  unfold execContextCreate
  extract_lets c s1 sec s2 l
  split
  · exact h
  · have h2 : (s2.setCtx c).Canonical := by simpa [s2, s1] using h
    exact State.writeBytes_wf _ _ (State.takeLines_wf _ _ h2)

theorem execContextDestroy_keeps {s : State} (h : s.Canonical) (context : BitVec 8) :
    Out.Keeps (execContextDestroy context s) := by
  unfold execContextDestroy
  split
  · exact Out.keeps_next.2 (State.eraseContext_wf h _)
  · exact h

theorem execTimingPortMessage_keeps {s : State} (h : s.Canonical) (fabricTime : Tick) :
    Out.Keeps (execTimingPortMessage fabricTime s) := by
  unfold execTimingPortMessage
  dsimp only
  exact h

theorem execPackageTimeStep_keeps {s : State} (h : s.Canonical) (delta : BitVec 64) :
    Out.Keeps (execPackageTimeStep delta s) := by
  unfold execPackageTimeStep
  split
  · exact h
  · exact h

theorem execBusMasteringChange_keeps {s : State} (h : s.Canonical) (f : BitVec 6) (enabled : Bool) :
    Out.Keeps (execBusMasteringChange f enabled s) := by
  unfold execBusMasteringChange
  dsimp only
  exact Out.keeps_next.2 (State.flushRings_wf (by simpa using h) _)

theorem execVfEnableChange_keeps {s : State} (h : s.Canonical) (enabled : Nat) :
    Out.Keeps (execVfEnableChange enabled s) :=
  (State.Canonical.of_mem (State.enableVfs_mem ..) h : (s.enableVfs enabled (upFrom 1 63)).Canonical)

theorem execTdiStateChange_keeps {s : State} (h : s.Canonical) (f : BitVec 6) (t : TdiState) :
    Out.Keeps (execTdiStateChange f t s) := by
  unfold execTdiStateChange
  dsimp only
  exact Out.keeps_next.2 (State.Canonical.of_mem (State.setFn_mem ..) (wf_ite h (by simpa using h)))

theorem execIntakeBadOpcode_keeps {s : State} (h : s.Canonical) (q : BitVec 6) :
    Out.Keeps (execIntakeBadOpcode q s) := by
  unfold execIntakeBadOpcode
  split
  · exact State.intake_wf h _ _ fun _ ht => ht
  · exact h

theorem execDieFailure_keeps {s : State} (h : s.Canonical) (die : BitVec 2) (failed stopsCount : Bool) :
    Out.Keeps (execDieFailure die failed stopsCount s) := by
  unfold execDieFailure
  dsimp only
  split
  · exact h
  · exact h

/-! ## All instructions and events -/

theorem exec_keeps {s : State} (h : s.Canonical) (i : Instr) : Out.Keeps (exec i s) := by
  unfold exec
  split
  · exact scalarOp_keeps h _ fun _ ht => rrBody_keeps ht ..
  · exact scalarOp_keeps h _ fun _ ht => rrBody_keeps ht ..
  · exact scalarOp_keeps h _ fun _ ht => rrBody_keeps ht ..
  · exact scalarOp_keeps h _ fun _ ht => rrBody_keeps ht ..
  · exact scalarOp_keeps h _ fun _ ht => rrBody_keeps ht ..
  · exact scalarOp_keeps h _ fun _ ht => rrBody_keeps ht ..
  · exact scalarOp_keeps h _ fun _ ht => rrBody_keeps ht ..
  · exact scalarOp_keeps h _ fun _ ht => rrBody_keeps ht ..
  · exact scalarOp_keeps h _ fun _ ht => rrBody_keeps ht ..
  · exact scalarOp_keeps h _ fun _ ht => rrBody_keeps ht ..
  · exact scalarOp_keeps h _ fun _ ht => rrBody_keeps ht ..
  · exact scalarOp_keeps h _ fun _ ht => rrBody_keeps ht ..
  · exact scalarOp_keeps h _ fun _ ht => rrBody_keeps ht ..
  · exact scalarOp_keeps h _ fun _ ht => rrBody_keeps ht ..
  · exact scalarOp_keeps h _ fun _ ht => rrBody_keeps ht ..
  · exact execMov_keeps h ..
  · exact scalarOp_keeps h _ fun _ ht => riBody_keeps ht ..
  · exact scalarOp_keeps h _ fun _ ht => riBody_keeps ht ..
  · exact scalarOp_keeps h _ fun _ ht => riBody_keeps ht ..
  · exact scalarOp_keeps h _ fun _ ht => riBody_keeps ht ..
  · exact State.scalarInstr_wf h _ _ _ fun t ht => riBody_keeps ht ..
  · exact State.scalarInstr_wf h _ _ _ fun t ht => riBody_keeps ht ..
  · exact State.scalarInstr_wf h _ _ _ fun t ht => riBody_keeps ht ..
  · exact scalarOp_keeps h _ fun _ ht => riBody_keeps ht ..
  · exact execLi_keeps h ..
  · exact execLea_keeps h ..
  · exact execBr_keeps h ..
  · exact execCall_keeps h ..
  · exact jumpOp_keeps h _ fun _ ht => branchBody_keeps ht ..
  · exact jumpOp_keeps h _ fun _ ht => branchBody_keeps ht ..
  · exact jumpOp_keeps h _ fun _ ht => branchBody_keeps ht ..
  · exact jumpOp_keeps h _ fun _ ht => branchBody_keeps ht ..
  · exact jumpOp_keeps h _ fun _ ht => branchBody_keeps ht ..
  · exact jumpOp_keeps h _ fun _ ht => branchBody_keeps ht ..
  · exact execCallr_keeps h ..
  · exact execJmpr_keeps h ..
  · exact execLoop_keeps h ..
  · exact scalarOp_keeps h _ fun _ ht => loadBody_keeps ht ..
  · exact scalarOp_keeps h _ fun _ ht => loadBody_keeps ht ..
  · exact scalarOp_keeps h _ fun _ ht => storeBody_keeps ht ..
  · exact execLdk_keeps h ..
  · exact execStk_keeps h ..
  · exact scalarOp_keeps h _ fun _ ht => (State.useG_keeps ht _).bind fun t2 h2 => loadBody_keeps h2 ..
  · exact scalarOp_keeps h _ fun _ ht => (State.useG_keeps ht _).bind fun t2 h2 => storeBody_keeps h2 ..
  · exact scalarOp_keeps h _ fun _ ht => atomicBody_keeps ht ..
  · exact scalarOp_keeps h _ fun _ ht => atomicBody_keeps ht ..
  · exact scalarOp_keeps h _ fun _ ht => atomicBody_keeps ht ..
  · exact scalarOp_keeps h _ fun _ ht => atomicBody_keeps ht ..
  · exact scalarOp_keeps h _ fun _ ht => atomicBody_keeps ht ..
  · exact scalarOp_keeps h _ fun _ ht => atomicBody_keeps ht ..
  · exact scalarOp_keeps h _ fun _ ht => atomicBody_keeps ht ..
  · exact scalarOp_keeps h _ fun _ ht => atomicBody_keeps ht ..
  · exact execStat_keeps h ..
  · exact execLdnb_keeps h ..
  · exact execPushs_keeps h ..
  · exact execPops_keeps h ..
  · exact execTrap_keeps h ..
  · exact execRdid_keeps h ..
  · exact execTnow_keeps h ..
  · exact execFence_keeps h ..
  · exact execFenceI_keeps h ..
  · exact scalarOp_keeps h _ fun _ ht => rrBody_keeps ht ..
  · exact scalarOp_keeps h _ fun _ ht => rrBody_keeps ht ..
  · exact scalarOp_keeps h _ fun _ ht => rrBody_keeps ht ..
  · exact scalarOp_keeps h _ fun _ ht => rrBody_keeps ht ..
  · exact scalarOp_keeps h _ fun _ ht => rrBody_keeps ht ..
  · exact scalarOp_keeps h _ fun _ ht => rrBody_keeps ht ..
  · exact scalarOp_keeps h _ fun _ ht => rrBody_keeps ht ..
  · exact scalarOp_keeps h _ fun _ ht => unBody_keeps ht ..
  · exact scalarOp_keeps h _ fun _ ht => unBody_keeps ht ..
  · exact scalarOp_keeps h _ fun _ ht => unBody_keeps ht ..
  · exact scalarOp_keeps h _ fun _ ht => unBody_keeps ht ..
  · exact scalarOp_keeps h _ fun _ ht => unBody_keeps ht ..
  · exact scalarOp_keeps h _ fun _ ht => rrBody_keeps ht ..
  · exact execBins_keeps h ..
  · exact scalarOp_keeps h _ fun _ ht => rrBody_keeps ht ..
  · exact scalarOp_keeps h _ fun _ ht => rrBody_keeps ht ..
  · exact execSel_keeps h ..
  · exact execKinc_keeps h ..
  · exact execKinci_keeps h ..
  · exact execKbnd_keeps h ..
  · exact execKprm_keeps h ..
  · exact execKcol_keeps h ..
  · exact execKget_keeps h ..
  · exact execKtst_keeps h ..
  · exact execKseal_keeps h ..
  · exact execKuns_keeps h ..
  · exact scalarOp_keeps h _ fun _ ht => unBody_keeps ht ..
  · exact execKcur_keeps h ..
  · exact execStg_keeps h ..
  · exact execLdg_keeps h ..
  · exact scalarOp_keeps h _ fun _ ht => frBody_keeps ht ..
  · exact scalarOp_keeps h _ fun _ ht => frBody_keeps ht ..
  · exact scalarOp_keeps h _ fun _ ht => frBody_keeps ht ..
  · exact execFfma_keeps h ..
  · exact scalarOp_keeps h _ fun _ ht => frBody_keeps ht ..
  · exact scalarOp_keeps h _ fun _ ht => (State.useG_keeps ht _).bind fun t2 h2 => State.fput_keeps h2 ..
  · exact scalarOp_keeps h _ fun _ ht => fselBody_keeps ht ..
  · exact scalarOp_keeps h _ fun _ ht => fselBody_keeps ht ..
  · exact scalarOp_keeps h _ fun _ ht => fcmpBody_keeps ht ..
  · exact scalarOp_keeps h _ fun _ ht => fcmpBody_keeps ht ..
  · exact scalarOp_keeps h _ fun _ ht => fcmpBody_keeps ht ..
  · exact execFcvti_keeps h ..
  · exact scalarOp_keeps h _ fun _ ht => (State.useG_keeps ht _).bind fun t2 h2 => State.fput_keeps h2 ..
  · exact execFcvtw_keeps h ..
  · exact execCsrr_keeps h ..
  · exact State.scalarInstr_wf h _ _ _ fun t ht => csrBody_keeps ht ..
  · exact State.scalarInstr_wf h _ _ _ fun t ht => csrBody_keeps ht ..
  · exact State.scalarInstr_wf h _ _ _ fun t ht => csrBody_keeps ht ..
  · exact scalarOp_keeps h _ fun _ ht => rrBody_keeps ht ..
  · exact vArith_keeps h ..
  · exact vArith_keeps h ..
  · exact vArith_keeps h ..
  · exact vFused_keeps h ..
  · exact vFused_keeps h ..
  · exact vFused_keeps h ..
  · exact vSelect_keeps h ..
  · exact vSelect_keeps h ..
  · exact vSign_keeps h ..
  · exact vSign_keeps h ..
  · exact vArith_keeps h ..
  · exact vFunction_keeps h ..
  · exact vFunction_keeps h ..
  · exact vFunction_keeps h ..
  · exact vFunction_keeps h ..
  · exact vFunction_keeps h ..
  · exact vBits_keeps h ..
  · exact vBits_keeps h ..
  · exact vBits_keeps h ..
  · exact vectorOp_keeps h _ fun _ ht => vuBody_keeps ht ..
  · exact vBits_keeps h ..
  · exact vBits_keeps h ..
  · exact vBits_keeps h ..
  · exact vCompare_keeps h ..
  · exact vCompare_keeps h ..
  · exact vCompare_keeps h ..
  · exact execVsel_keeps h ..
  · exact vConvert_keeps h ..
  · exact vConvert_keeps h ..
  · exact vectorOp_keeps h _ fun _ ht => vuBody_keeps ht ..
  · exact execVbc_keeps h ..
  · exact execVrand_keeps h ..
  · exact vReduce_keeps h ..
  · exact vReduce_keeps h ..
  · exact vReduce_keeps h ..
  · exact execVscan_keeps h ..
  · exact vImm_keeps h ..
  · exact vImm_keeps h ..
  · exact execVdot4_keeps h ..
  · exact pLogic_keeps h ..
  · exact pLogic_keeps h ..
  · exact pLogic_keeps h ..
  · exact pLogic_keeps h ..
  · exact execPset_keeps h ..
  · exact execPcnt_keeps h ..
  · exact execPfst_keeps h ..
  · exact pLogic_keeps h ..
  · exact vLoad_keeps h ..
  · exact vStore_keeps h ..
  · exact vLoad_keeps h ..
  · exact vStore_keeps h ..
  · exact vLoad_keeps h ..
  · exact vStore_keeps h ..
  · exact vLoad_keeps h ..
  · exact vStore_keeps h ..
  · exact execVstat_keeps h ..
  · exact execVldnb_keeps h ..
  · exact vPermute_keeps h ..
  · exact vPermute_keeps h ..
  · exact vPermute_keeps h ..
  · exact execVrot_keeps h ..
  · exact execVslid_keeps h ..
  · exact execVext_keeps h ..
  · exact execVins_keeps h ..
  · exact execVcmpr_keeps h ..
  · exact execVexpn_keeps h ..
  · exact vPermute_keeps h ..
  · exact execVqnt_keeps h ..
  · exact execVdeq_keeps h ..
  · exact execVsprs_keeps h ..
  · exact execMfmt_keeps h ..
  · exact execMring_keeps h ..
  · exact execMprod_keeps h ..
  · exact execMma_keeps h ..
  · exact execMmas_keeps h ..
  · exact execMzero_keeps h ..
  · exact execMdrain_keeps h ..
  · exact execMflag_keeps h ..
  · exact execMwait_keeps h ..
  · exact execMrst_keeps h ..
  · exact execMrq_keeps h ..
  · exact execCpy_keeps h ..
  · exact execCpyw_keeps h ..
  · exact execCpyq_keeps h ..
  · exact execXgth_keeps h ..
  · exact execXred_keeps h ..
  · exact execXcvt_keeps h ..
  · exact execFlume_keeps h ..
  · exact execFlumw_keeps h ..
  · exact execArrive_keeps h ..
  · exact execWaitb_keeps h ..
  · exact execBarq_keeps h ..
  · exact execGauge_keeps h ..
  · exact execTwait_keeps h ..
  · exact execTdead_keeps h ..
  · exact execLatq_keeps h ..
  · exact execFreeze_keeps h ..
  · exact itemOp_keeps h _ fun _ ht => retireBody_keeps ht ..
  · exact execRetireValue_keeps h ..
  · exact execYield_keeps h ..
  · exact execLaunch_keeps h ..
  · exact execSignal_keeps h ..
  · exact execWaitc_keeps h ..
  · exact execExq_keeps h ..
  · exact execEret_keeps h ..
  · exact execWfi_keeps h ..
  · exact execHalt_keeps h ..
  · exact execTrinv_keeps h ..
  · exact execKill_keeps h ..
  · exact execMount_keeps h ..
  · exact execClbl_keeps h ..
  · exact execCrd_keeps h ..
  · exact execRevive_keeps h ..
  · exact execUmnt_keeps h ..
  · exact execJrnl_keeps h ..
  · exact execTsync_keeps h ..
  · exact execOwnr_keeps h ..
  · exact execSmpc_keeps h ..
  · exact execDbgb_keeps h ..
  · exact securityOp_keeps h _ fun _ ht => cipherBody_keeps ht ..
  · exact securityOp_keeps h _ fun _ ht => cipherBody_keeps ht ..
  · exact securityOp_keeps h _ fun _ ht => cipherBody_keeps ht ..
  · exact securityOp_keeps h _ fun _ ht => cipherBody_keeps ht ..
  · exact securityOp_keeps h _ fun _ ht => cipherBody_keeps ht ..
  · exact securityOp_keeps h _ fun _ ht => cipherBody_keeps ht ..
  · exact execImpreciseFaultTake_keeps h ..
  · exact execPageWalk_keeps h ..
  · exact execHomeAccessPerform_keeps h ..
  · exact execScratchpadRmwSlot_keeps h ..
  · exact execTimedStoreArrival_keeps h ..
  · exact execTimedStoreApply_keeps h ..
  · exact execDeadlineMissReport_keeps h ..
  · exact execNotBeforeLoadPerform_keeps h ..
  · exact execTimedEngineStart_keeps h ..
  · exact execTwaitExpiry_keeps h ..
  · exact execWaitcSatisfied_keeps h ..
  · exact execCpywSatisfied_keeps h ..
  · exact execWfiWake_keeps h ..
  · exact execWeirReleaseBroadcast_keeps h ..
  · exact execFlumwReturn_keeps h ..
  · exact execItemStart_keeps h ..
  · exact execCulvertBeat_keeps h ..
  · exact execCulvertCompletion_keeps h ..
  · exact Out.keeps_next.2 (State.engineFault_wf h _)
  · exact execCisternPiece_keeps h ..
  · exact execCisternCompletion_keeps h ..
  · exact execMmaExecute_keeps h ..
  · exact execMzeroExecute_keeps h ..
  · exact execMdrainExecute_keeps h ..
  · exact execMatrixTileError_keeps h ..
  · exact h
  · exact Out.keeps_next.2 (State.flushRings_wf (by simpa using h) _)
  · exact Out.keeps_next.2 (State.flushRings_wf (by simpa using h) _)
  · exact execRingConfigurationWrite_keeps h ..
  · exact execBarRegisterWrite_keeps h ..
  · exact execIntakeLaunch_keeps h ..
  · exact execIntakeKill_keeps h ..
  · exact execIntakeSignal_keeps h ..
  · exact execResync_keeps h ..
  · exact execIntakeNop_keeps h ..
  · exact execInternalQueueLaunch_keeps h ..
  · exact execHeadgateHandover_keeps h ..
  · exact execTaskPlacement_keeps h ..
  · exact execClassRaise_keeps h ..
  · exact execPreemption_keeps h ..
  · exact execTaskResume_keeps h ..
  · exact execFreezeInstant_keeps h ..
  · exact execDieLinkLoss_keeps h ..
  · exact execFlitReceive_keeps h ..
  · exact h
  · exact execPortUp_keeps h ..
  · exact execPeerUnreachable_keeps h ..
  · exact Out.keeps_next.2 (State.completion_wf h ..)
  · exact execHostCompletionTimeout_keeps h ..
  · exact execDisciplineLoss_keeps h ..
  · exact h
  · exact h
  · exact h
  · exact execFeedWrite_keeps h ..
  · exact execPowerCapWrite_keeps h ..
  · exact execSramSplitSet_keeps h ..
  · exact execModuleReset_keeps h ..
  · exact execDieReset_keeps h ..
  · exact execFunctionReset_keeps h ..
  · exact execPowerLoss_keeps h ..
  · exact execTaggedSample_keeps h ..
  · exact execMonitorSample_keeps h ..
  · exact execGetVersion_keeps h ..
  · exact execGetCapabilities_keeps h ..
  · exact execNegotiateAlgorithms_keeps h ..
  · exact State.negotiated_keeps h _ fun t1 => wf_ite (by simpa using h) (by simpa using h)
  · exact execChallenge_keeps h ..
  · exact execGetMeasurements_keeps h ..
  · exact execKeyExchange_keeps h ..
  · exact execFinish_keeps h ..
  · exact execEndSession_keeps h ..
  · exact Out.keeps_next.2 (wf_ite h (by simpa using h))
  · exact h
  · exact execRekeyQueue_keeps h ..
  · exact execBindChannel_keeps h ..
  · exact execGrantCorpse_keeps h ..
  · exact execDiscardCorpse_keeps h ..
  · exact execSetQuota_keeps h ..
  · exact execExtend_keeps h ..
  · exact execMigrate_keeps h ..
  · exact execAssign_keeps h ..
  · exact execMigrationInstall_keeps h ..
  · exact execMigrationReceipt_keeps h ..
  · exact execMigrationConfirm_keeps h ..
  · exact execContextCreate_keeps h ..
  · exact execContextDestroy_keeps h ..
  · exact execTimingPortMessage_keeps h ..
  · exact execPackageTimeStep_keeps h ..
  · exact h
  · exact execBusMasteringChange_keeps h ..
  · exact execVfEnableChange_keeps h ..
  · exact execTdiStateChange_keeps h ..
  · exact execIntakeBadOpcode_keeps h ..
  · exact execDieFailure_keeps h ..

/-! ## A step -/

theorem stepFrozen_keeps {s : State} (h : s.Canonical) : Out.Keeps (stepFrozen s) := by
  unfold stepFrozen
  split
  next images rest _ => exact exec_keeps (s := { s with script := rest }) h _
  · trivial

theorem State.dueSample_keeps {s : State} (h : s.Canonical) : Out.KeepsIf s.dueSample := by
  unfold State.dueSample
  dsimp only
  split
  · exact execMonitorSample_keeps h ..
  · split
    · exact execTaggedSample_keeps (s := { s with free := s.free + 25 }) h ..
    · trivial

theorem State.dueStores_keeps {s : State} (h : s.Canonical) : Out.KeepsIf (s.dueStores) := by
  unfold State.dueStores
  split
  · exact execTimedStoreApply_keeps h _
  · trivial

theorem State.stepCore_keeps {s : State} (h : s.Canonical) : Out.Keeps s.stepCore := by
  unfold State.stepCore
  split
  · exact h
  · split
    · split
      · exact State.takePending_wf (s := s.abandonMark) h
      · have hbegin : s.beginInstr.Canonical := by simpa using h
        have hinstr := State.fetchInstr_keeps hbegin
        dsimp only
        split
        next heq =>
          rw [heq] at hinstr
          exact Out.observed_keeps _ _ (State.settleBody_wf hbegin hinstr)
        next heq =>
          rw [heq] at hinstr
          exact Out.observed_keeps _ _ (exec_keeps hinstr _)
    · exact h

theorem State.dueFreeze_keeps {s : State} (h : s.Canonical) : Out.KeepsIf (s.dueFreeze) := by
  unfold State.dueFreeze
  split
  · trivial
  · split
    · refine State.atInstant_keeps (by simpa using h) fun t1 ht1 => ?_
      exact State.stepCore_keeps ht1
    · exact execFreezeInstant_keeps h _

theorem State.dueStop_keeps {s : State} (h : s.Canonical) : Out.KeepsIf (s.dueStop) := by
  unfold State.dueStop
  split
  · exact execPreemption_keeps h ..
  · trivial

theorem State.dueWait_keeps {s : State} (h : s.Canonical) : Out.KeepsIf (s.dueWait) := by
  unfold State.dueWait
  dsimp only
  split
  · refine State.atInstant_keeps (by simpa using h) fun t1 ht1 => ?_
    exact State.stepCore_keeps ht1
  · trivial

theorem State.dueRecord_keeps {s : State} (h : s.Canonical) : Out.KeepsIf s.dueRecord := by
  unfold State.dueRecord
  cases hr : s.corpses.findSome? _ with
  | none => trivial
  | some r =>
    obtain ⟨k, _, hk⟩ := List.exists_of_findSome?_eq_some hr
    obtain ⟨item, _, rfl⟩ := Option.map_eq_some_iff.1 hk
    exact State.settleRevivals_wf (by simpa using h) _

theorem State.dueCore_keeps {s : State} (h : s.Canonical) : Out.KeepsIf (s.dueCore) := by
  unfold State.dueCore
  split
  · split
    · split
      · exact execItemStart_keeps h _
      · trivial
    · split
      · split
        · exact execWeirReleaseBroadcast_keeps h _
        · trivial
      · trivial
  · trivial

theorem State.due_keeps {s : State} (h : s.Canonical) : Out.KeepsIf s.due := by
  refine firstOf_keepsIf fun o ho => ?_
  fin_cases ho
  · exact State.dueSample_keeps h
  · exact State.dueStores_keeps h
  · exact State.dueFreeze_keeps h
  · exact State.dueStop_keeps h
  · exact State.dueWait_keeps h
  · exact State.dueRecord_keeps h
  · exact State.dueCore_keeps h

theorem move_keeps {s : State} (h : s.Canonical) (m : Move) : Out.Keeps (move m s) := by
  unfold move
  split
  · exact exec_keeps h _
  · exact State.stepCore_keeps h
  · simpa using h
  · exact h
  · simpa using h
  · simpa using h
  · simpa using h
  · exact h

theorem State.dueMiss_keeps {s : State} (h : s.Canonical) : Out.KeepsIf (s.dueMiss) := by
  unfold State.dueMiss
  split
  · trivial
  · exact execDeadlineMissReport_keeps h _

theorem State.backMemory_keeps {s : State} (h : s.Canonical) : Out.KeepsIf (s.backMemory) := by
  unfold State.backMemory
  split
  · exact execHomeAccessPerform_keeps h _
  · split
    · exact execTimedStoreArrival_keeps h _
    · dsimp only
      split
      · split
        · exact execScratchpadRmwSlot_keeps h ..
        · trivial
      · trivial

theorem State.backUnit_keeps {s : State} (h : s.Canonical) (k : Nat) : Out.KeepsIf (s.backUnit k) := by
  unfold State.backUnit
  dsimp only
  split
  · trivial
  · split
    · trivial
    · split
      · exact execMmaExecute_keeps h ..
      · split
        · exact execMzeroExecute_keeps h ..
        · exact execMdrainExecute_keeps h ..

theorem State.backMatrix_keeps {s : State} (h : s.Canonical) : Out.KeepsIf (s.backMatrix) := by
  unfold State.backMatrix
  split
  · split
    · exact State.backUnit_keeps h _
    · trivial
  · trivial

theorem State.backCulvert_keeps {s : State} (h : s.Canonical) (u : CulvertId) : Out.KeepsIf (s.backCulvert u) := by
  unfold State.backCulvert
  split
  · trivial
  · split
    · split
      · trivial
      · exact execCulvertBeat_keeps h _
    · split
      · trivial
      · dsimp only
        split
        · split
          · trivial
          · exact execCulvertCompletion_keeps h _
        · split
          · trivial
          · exact execCulvertCompletion_keeps h _

theorem State.backCulverts_keeps {s : State} (h : s.Canonical) : Out.KeepsIf s.backCulverts := by
  refine firstOf_keepsIf fun o ho => ?_
  obtain ⟨p, _, hp⟩ := List.mem_flatMap.1 ho
  fin_cases hp
  · exact State.backCulvert_keeps h _
  · exact State.backCulvert_keeps h _

theorem State.backCistern_keeps {s : State} (h : s.Canonical) (k : BitVec 4) : Out.KeepsIf (s.backCistern k) := by
  unfold State.backCistern
  split
  · trivial
  · split
    · trivial
    · split
      · exact execCisternPiece_keeps h _
      · split
        · trivial
        · exact execCisternCompletion_keeps h _

theorem State.backCisterns_keeps {s : State} (h : s.Canonical) : Out.KeepsIf s.backCisterns := by
  refine firstOf_keepsIf fun o ho => ?_
  obtain ⟨k, _, rfl⟩ := List.mem_map.1 ho
  exact State.backCistern_keeps h _

theorem State.intakeStep_keeps {s : State} (h : s.Canonical) (q : BitVec 6) (opcode : BitVec 16) :
    Out.Keeps (s.intakeStep q opcode) := by
  unfold State.intakeStep
  split
  · exact execIntakeLaunch_keeps h _
  · split
    · exact execIntakeKill_keeps h _
    · split
      · exact execIntakeSignal_keeps h _
      · split
        · exact execResync_keeps h _
        · split
          · exact execIntakeNop_keeps h _
          · exact execIntakeBadOpcode_keeps h _

theorem State.backIntake_keeps {s : State} (h : s.Canonical) : Out.KeepsIf s.backIntake := by
  refine firstOf_keepsIf fun o ho => ?_
  obtain ⟨p, _, rfl⟩ := List.mem_map.1 ho
  split
  · dsimp only
    split
    · trivial
    · exact State.intakeStep_keeps h ..
  · trivial

theorem State.backInternal_keeps {s : State} (h : s.Canonical) : Out.KeepsIf s.backInternal := by
  refine firstOf_keepsIf fun o ho => ?_
  obtain ⟨p, _, rfl⟩ := List.mem_map.1 ho
  split
  · trivial
  · split_ifs
    · trivial
    · exact execInternalQueueLaunch_keeps h _

theorem State.backPlace_keeps {s : State} (h : s.Canonical) : Out.KeepsIf s.backPlace := by
  have hraise : s.raiseAll.Canonical := by simpa using h
  refine firstOf_keepsIf fun o ho => ?_
  obtain ⟨t, _, rfl⟩ := List.mem_map.1 ho
  split
  · split
    · exact execTaskPlacement_keeps hraise ..
    · exact execTaskResume_keeps hraise ..
  · trivial

theorem State.backPreempt_keeps {s : State} (h : s.Canonical) : Out.KeepsIf (s.backPreempt) := by
  unfold State.backPreempt
  split
  · exact execPreemption_keeps h ..
  · trivial

theorem State.backAgent_keeps {s : State} (h : s.Canonical) : Out.KeepsIf (s.backAgent) := by
  unfold State.backAgent
  dsimp only
  split
  · exact Out.keeps_next.2 (by simpa using h)
  · trivial

theorem State.background_keeps {s : State} (h : s.Canonical) : Out.KeepsIf s.background := by
  refine firstOf_keepsIf fun o ho => ?_
  fin_cases ho
  · exact State.backMemory_keeps h
  · exact State.backMatrix_keeps h
  · exact State.backCulverts_keeps h
  · exact State.backCisterns_keeps h
  · exact State.backIntake_keeps h
  · exact State.backInternal_keeps h
  · exact State.backPlace_keeps h
  · exact State.backPreempt_keeps h
  · exact State.backAgent_keeps h

theorem stepOn_keeps {s : State} (h : s.Canonical) : Out.Keeps (stepOn s) := by
  have hmiss := State.dueMiss_keeps h
  have hback : Out.KeepsIf (if s.stalled then { s with stalled := false }.background else none) := by
    split
    · exact State.background_keeps (s := { s with stalled := false }) h
    · trivial
  unfold stepOn
  split
  next m rest _ => exact move_keeps (s := { s with script := rest }) h m
  · split
    next heq =>
      rw [heq] at hmiss
      exact hmiss
    · split
      next heq =>
        rw [heq] at hback
        exact hback
      · exact State.stepCore_keeps h

theorem step_keeps {s : State} (h : s.Canonical) : Out.Keeps (step s) := by
  have hdue := State.due_keeps h
  unfold step
  split
  · exact stepFrozen_keeps h
  · split
    next heq =>
      rw [heq] at hdue
      exact hdue
    · exact stepOn_keeps h

end Sys2Proof.Machine

namespace Sys2Proof
open Sys2Proof.Machine

/-- Settles O39: every operation that a step is made of keeps the list of bytes canonical. -/
theorem memoryStaysCanonical : Obligations.MemoryStaysCanonical := by
  unfold Obligations.MemoryStaysCanonical
  intro s t h hstep
  have hkeeps := step_keeps (s := s) h
  rw [hstep] at hkeeps
  exact hkeeps

end Sys2Proof
end

section
/-! SUPPORT. The item that an idle core starts: which one the queue gives, and what the core holds (R74, R240, R249). -/

namespace Sys2Proof.Machine

/-! ## The core in focus -/

@[simp] theorem State.focus_agent (s : State) (a : AgentId) : (s.focus a).core.agent = a := by
  unfold State.focus
  split
  · assumption
  · exact s.agent_agent a

theorem State.agent_self {s : State} {a : AgentId} (ha : s.core.agent = a) : s.agent a = s.core := if_pos ha

theorem State.setAgent_core_same {s : State} {c : Core} (ha : s.core.agent = c.agent) : (s.setAgent c).core = c := by
  rw [State.setAgent, if_pos ha]

theorem State.setAgent_core_other {s : State} {c : Core} (ha : s.core.agent ≠ c.agent) : (s.setAgent c).core = s.core := by
  rw [State.setAgent, if_neg ha]

/-! ## The task and the queue entry -/

theorem queuePop_cons (q : Queued) (rest : List Queued) : ∃ rest', queuePop (q :: rest) = some (q, rest') := by
  rw [queuePop]
  split
  · exact ⟨_, rfl⟩
  · exact ⟨_, rfl⟩

/-- R144: nothing starts while a command of the last item runs on, or once the zone has reached a freeze instant. -/
theorem State.startNext_held {s : State} {c : CoreId} {t : Task} (ht : taskOn c s.tasks = some t)
    (hheld : s.leftBusy c = true ∨ s.pastFreeze t.context t.num c.die = true) : s.startNext c = s := by
  have hnone : (if s.leftBusy c then none else
      (taskOn c s.tasks).filter fun t => !s.pastFreeze t.context t.num c.die) = none := by
    rcases hheld with hleft | hpast
    · rw [if_pos hleft]
    · rw [ht, Option.filter_some, hpast]
      exact ite_self _
  rw [State.startNext, hnone]

theorem State.startNext_due {s : State} {c : CoreId} {t : Task} (ht : taskOn c s.tasks = some t)
    (hfree : ¬(s.leftBusy c = true ∨ s.pastFreeze t.context t.num c.die = true)) :
    (if s.leftBusy c then none else (taskOn c s.tasks).filter fun t => !s.pastFreeze t.context t.num c.die) = some t := by
  obtain ⟨hleft, hpast⟩ := not_or.1 hfree
  rw [if_neg hleft, ht, Option.filter_some, if_pos (by simpa using hpast)]

section
variable {s : State} {c : CoreId} {t : Task} {slot : Nat} {q : Queued} {rest : List Queued}
  (hc : s.core.agent = .core c) (ht : taskOn c s.tasks = some t) (hslot : indexIn c t.slots = some slot)
  (hq : assocGetD t.queues slot [] = q :: rest)
  (hfree : ¬(s.leftBusy c = true ∨ s.pastFreeze t.context t.num c.die = true))
include hc ht hslot hq hfree

/-- R74: the prologue item. -/
theorem State.startNext_prologue (hsaved : q.saved = none) (hlevel : q.level = 0) :
    ∃ t', s.startNext c = ((s.setTask t').startTcm c none).setAgent (s.core.prologue t) := by
  obtain ⟨rest', hpop⟩ := queuePop_cons q rest
  have hfilter := State.startNext_due ht hfree
  refine ⟨{ t with queues := assocPut t.queues slot rest' }, ?_⟩
  have hself : ∀ t', (s.setTask t').agent (.core c) = s.core := fun _ => State.agent_self hc
  simp [State.startNext, hfilter, hslot, hq, hpop, hsaved, hlevel, hself]

/-- R240: an item stamped from the exemplar of its level. -/
theorem State.startNext_stamped (hsaved : q.saved = none) (hlevel : ¬q.level = 0) {x : Exemplar}
    (hx : (s.cluster c.clusterKey).half q.level = some x) :
    ∃ t' parts k, s.startNext c = ((s.setTask t').startTcm c (some x)).setAgent
      (s.core.stamped t x q.level q.index q.parent slot parts k) := by
  obtain ⟨rest', hpop⟩ := queuePop_cons q rest
  have hfilter := State.startNext_due ht hfree
  refine ⟨{ t with queues := assocPut t.queues slot rest' }, if q.level = 2 then (t.slotsIn c.clusterKey).length else
    t.slots.length, if q.level = 2 then (indexIn c (t.slotsIn c.clusterKey)).getD 0 else slot, ?_⟩
  have hself : ∀ t', (s.setTask t').agent (.core c) = s.core := fun _ => State.agent_self hc
  have hcluster : ∀ t', (s.setTask t').cluster c.clusterKey = s.cluster c.clusterKey := fun _ => rfl
  simp [State.startNext, hfilter, hslot, hq, hpop, hsaved, hself, hcluster, hx]
  exact fun h => absurd h hlevel

/-- R249: an item that has yielded goes on. -/
theorem State.startNext_saved {v : Core} (hsaved : q.saved = some v) (hspill : q.spill = none) :
    ∃ u : State, u.core = s.core ∧ s.startNext c = (u.resumeCore { v with ident := { v.ident with cls := t.cls } }
      s.core t.desc.spad).putCommands (fun _ => .core c) q.commands := by
  obtain ⟨rest', hpop⟩ := queuePop_cons q rest
  have hfilter := State.startNext_due ht hfree
  have hself : ∀ t', (s.setTask t').agent (.core c) = s.core := fun _ => State.agent_self hc
  cases himage : q.image with
  | none =>
    refine ⟨s.setTask { t with queues := assocPut t.queues slot rest' }, rfl, ?_⟩
    simp [State.startNext, hfilter, hslot, hq, hpop, hsaved, hself, hspill, himage, State.restoreOverflow]
  | some y =>
    refine ⟨let u := s.setTask { t with queues := assocPut t.queues slot rest' }
      u.setShot (u.shot.restore y (tcmLoc c.index 0) 0x80000), rfl, ?_⟩
    simp [State.startNext, hfilter, hslot, hq, hpop, hsaved, hself, hspill, himage, State.restoreOverflow]

end

/-! ## The core that starts -/

theorem State.loadOwner_core {s : State} {c : CoreId} (hc : s.core.agent = .core c) (i : EngineId) :
    (s.loadOwner i).core = s.core := by
  cases i with
  | culvert k =>
    refine State.setAgent_core_other fun h => ?_
    rw [hc] at h
    exact AgentId.noConfusion (h.trans (s.agent_agent (.culvert k)))
  | cistern k => rfl

@[simp] theorem State.setEngine_core (s : State) (i : EngineId) (e : Engine) : (s.setEngine i e).core = s.core := by
  cases i with
  | culvert k => rfl
  | cistern k => rfl

theorem State.putCommands_core {s : State} {c : CoreId} (hc : s.core.agent = .core c) (f : AgentId → AgentId)
    (cmds : List (BitVec 1 × Cmd)) : (s.putCommands f cmds).core = s.core := by
  induction cmds generalizing s with
  | nil => rfl
  | cons p rest ih =>
    have hload : ∀ i e, ((s.setEngine i e).loadOwner i).core = s.core := fun i e =>
      (State.loadOwner_core (by simpa using hc) i).trans (State.setEngine_core ..)
    exact (ih (by rw [hload]; exact hc)).trans (hload _ _)

@[simp] theorem State.takeLines_core (s : State) (key : Nat) (ks : List Nat) : (s.takeLines key ks).core = s.core := by
  induction ks generalizing s with
  | nil => rfl
  | cons k rest ih =>
    refine (ih _).trans ?_
    unfold State.takeLine
    split <;> rfl

@[simp] theorem State.writeSlot_core (s : State) (context : BitVec 8) (a : AgentId) (r : FaultRec) :
    (s.writeSlot context a r).core = s.core := by
  unfold State.writeSlot
  split
  · simp
  · rfl

/-- R249: the core that resumes holds what was saved, but for what belongs to the core and for TREC (R141). -/
theorem State.resumeCore_core {s : State} {old : Core} (ho : s.core.agent = old.agent) (v : Core)
    (spad : List (BitVec 32)) :
    ∃ trec, (s.resumeCore v old spad).core =
      { (v.dropTags spad).resumeOn old with csr := { ((v.dropTags spad).resumeOn old).csr with trec := trec } } := by
  unfold State.resumeCore
  dsimp only
  split
  · exact ⟨_, State.setAgent_core_same ((congrArg Core.agent (State.writeSlot_core ..)).trans ho)⟩
  · exact ⟨_, State.setAgent_core_same ho⟩

/-- R242: the TCM of an item that no exemplar gives a region is zero. -/
theorem State.byteAt_startTcm_none (s : State) (c : CoreId) {a : Nat} (ha : a < 0x80000) :
    (s.startTcm c none).byteAt (tcmLoc c.index a) = 0 := by
  refine memGet_filter_dropped _ fun b => ?_
  simp only [tcmLoc]
  simp
  omega

theorem RegNum.eq_ofNat_of_toNat {n : RegNum} {k : Nat} (hk : k < 32) : n = BitVec.ofNat 5 k ↔ n.toNat = k := by
  rw [← BitVec.toNat_inj, BitVec.toNat_ofNat, Nat.mod_eq_of_lt hk]

/-- R74: the registers that the prologue starts with. -/
theorem Core.prologue_g (c : Core) (t : Task) (n : RegNum) :
    (c.prologue t).g[n.toNat] = if n = 1 then t.desc.arg else if n = 28 then taskCap t.num
      else if n = 29 then sumpCap t.desc.sumpBytes else if n = 31 then dataRoot else .null := by
  have h1 : n = 1 ↔ n.toNat = 1 := RegNum.eq_ofNat_of_toNat (by decide)
  have h28 : n = 28 ↔ n.toNat = 28 := RegNum.eq_ofNat_of_toNat (by decide)
  have h29 : n = 29 ↔ n.toNat = 29 := RegNum.eq_ofNat_of_toNat (by decide)
  have h31 : n = 31 ↔ n.toNat = 31 := RegNum.eq_ofNat_of_toNat (by decide)
  simp only [h1, h28, h29, h31, Core.prologue, Core.begin, Vector.getElem_set, Vector.getElem_replicate]
  grind

/-- R240: the registers of an item stamped from an exemplar. -/
theorem Core.stamped_g (c : Core) (t : Task) (x : Exemplar) (level : BitVec 2) (index parent slot parts k : Nat)
    (n : RegNum) (hn : n ≠ 0) :
    (c.stamped t x level index parent slot parts k).g[n.toNat] =
      if n = x.dest then intReg (BitVec.ofNat 64 index) else x.g[n.toNat] := by
  have hlt : x.dest.toNat < 32 := x.dest.isLt
  have hdest : n = x.dest ↔ x.dest.toNat = n.toNat := by rw [eq_comm, BitVec.toNat_inj]
  simp only [Core.stamped, Core.begin, vecSet, dif_pos hlt, Vector.getElem_set, hdest]
  by_cases h : x.dest.toNat = n.toNat
  · have h0 : x.dest ≠ 0 := fun h0 => hn ((BitVec.eq_of_toNat_eq h).symm.trans h0)
    simp only [if_pos h, if_neg h0]
  · simp only [if_neg h]

theorem getLsbD_twoPow_reg (d n : RegNum) : (BitVec.twoPow 32 d.toNat).getLsbD n.toNat = decide (n = d) := by
  have hd : d.toNat < 32 := d.isLt
  rw [BitVec.getLsbD_twoPow, decide_eq_true hd, Bool.true_and, decide_eq_decide, BitVec.toNat_inj]
  exact eq_comm

theorem getLsbD_one_reg (n : RegNum) : (1 : BitVec 32).getLsbD n.toNat = decide (n = 0) :=
  getLsbD_twoPow_reg 0 n

/-- R240: poisoned is what the exemplar does not carry. -/
theorem Core.stamped_gPois (c : Core) (t : Task) (x : Exemplar) (level : BitVec 2) (index parent slot parts k : Nat)
    (n : RegNum) :
    (c.stamped t x level index parent slot parts k).gPois.getLsbD n.toNat =
      !(x.gMask.getLsbD n.toNat || n = 0 || n = x.dest) := by
  have hn : n.toNat < 32 := n.isLt
  simp only [Core.stamped, poisonMask, BitVec.getLsbD_not, BitVec.getLsbD_or, getLsbD_twoPow_reg, getLsbD_one_reg, hn,
    decide_true, Bool.true_and]
  ac_rfl

/-- R240: inherited is what it carries. -/
theorem Core.stamped_gInh (c : Core) (t : Task) (x : Exemplar) (level : BitVec 2) (index parent slot parts k : Nat)
    (n : RegNum) :
    (c.stamped t x level index parent slot parts k).gInh.getLsbD n.toNat =
      (x.gMask.getLsbD n.toNat && n ≠ 0 && n ≠ x.dest) := by
  have hn : n.toNat < 32 := n.isLt
  simp only [Core.stamped, BitVec.getLsbD_and, BitVec.getLsbD_not, BitVec.getLsbD_or, getLsbD_twoPow_reg,
    getLsbD_one_reg, hn, decide_true, Bool.true_and, Bool.not_or, decide_not]
  ac_rfl

end Sys2Proof.Machine

namespace Sys2Proof
open Sys2Proof.Machine

/-- Settles O49: in each case the core in focus is the one that the case's start makes. -/
theorem itemsStartAsTheManualSays : Obligations.ItemsStartAsTheManualSays := by
  unfold Obligations.ItemsStartAsTheManualSays
  intro s c t slot q rest f hidle ht hslot hq held
  have hc : f.core.agent = .core c := State.focus_agent ..
  have hexec : exec (.itemStart c) s = .next (f.startNext c) := by
    change execItemStart c s = _
    unfold execItemStart
    exact if_pos hidle
  refine ⟨fun hheld => ?_, fun hfree hsaved hlevel => ?_, fun e hfree hsaved hlevel he => ?_,
    fun v hfree hsaved hspill => ?_⟩
  · rw [hexec, State.startNext_held ht hheld]
  · obtain ⟨t', hstart⟩ := State.startNext_prologue hc ht hslot hq hfree hsaved hlevel
    have hcore : (f.startNext c).core = f.core.prologue t := by
      rw [hstart]
      exact State.setAgent_core_same rfl
    refine ⟨_, hexec, ?_⟩
    simp only [State.g, State.v, hcore]
    refine ⟨hc, rfl, rfl, fun n => ?_, fun n => ?_, rfl, rfl, rfl, rfl, rfl, rfl, rfl, rfl, rfl, rfl, rfl,
      fun a ha => ?_⟩
    · rw [Core.prologue_g]
    · exact Vector.getElem_replicate _
    · rw [hstart, State.byteAt, State.setAgent_mem]
      exact State.byteAt_startTcm_none _ c ha
  · obtain ⟨t', parts, k, hstart⟩ := State.startNext_stamped hc ht hslot hq hfree hsaved hlevel he
    have hcore : (f.startNext c).core = f.core.stamped t e q.level q.index q.parent slot parts k := by
      rw [hstart]
      exact State.setAgent_core_same rfl
    refine ⟨_, hexec, ?_⟩
    simp only [State.g, State.v, hcore]
    refine ⟨rfl, rfl, rfl, rfl, rfl, fun _ => rfl, fun n => ?_, fun _ => Core.stamped_gPois ..,
      fun _ => Core.stamped_gInh .., rfl, rfl,
      rfl, rfl, rfl⟩
    split_ifs with h0 hd
    · rfl
    · rw [Core.stamped_g _ _ _ _ _ _ _ _ _ _ h0, if_pos hd]
    · rw [Core.stamped_g _ _ _ _ _ _ _ _ _ _ h0, if_neg hd]
  · obtain ⟨u, hu, hstart⟩ := State.startNext_saved hc ht hslot hq hfree hsaved hspill
    obtain ⟨trec, hresume⟩ := State.resumeCore_core (congrArg Core.agent hu)
      { v with ident := { v.ident with cls := t.cls } } t.desc.spad
    have hcore := (congrArg State.core hstart).trans
      ((State.putCommands_core (by rw [hresume]; exact hc) ..).trans hresume)
    refine ⟨_, hexec, ?_⟩
    rw [hcore]
    exact ⟨hc, rfl, rfl, rfl, rfl, rfl, rfl, rfl, rfl, rfl⟩

end Sys2Proof
end

section
/-! SUPPORT. A vendor command that its session carries, and a state in which preemption undoes the mark of MIGRATE (R402). -/

namespace Sys2Proof.Machine

/-- R397: a command that is accepted, and that is not refused, is answered in its session after it has had its effect. -/
theorem State.vendor_some {s t : State} {x : Session} {code : BitVec 8} {fields answer : List Byte}
    {body : State → Option (State × List Byte)} (hin : (s.spdmOf x.box).inSession = true)
    (hopen : (s.spdmOf x.box).opens x.record (Config.spdmBytes 0xFE (BitVec.ofNat 8 x.fn.toNat :: code :: fields)) = true)
    (haccept : s.vendorAccepts x = true) (hbody : body s = some (t, answer)) :
    s.vendor x code fields body = .next (t.sessionAnswer x.box (Config.spdmBytes 0x7E (code :: answer))) := by
  simp only [State.vendor, hin, hopen, haccept, hbody, Bool.not_true, Bool.false_eq_true, if_false]

/-- R402: MIGRATE of a context that no migration holds, to a device with which there is a session. -/
theorem exec_migrate_accepted {s : State} {x : Session} {n : BitVec 8} {dev : BitVec 19} {c : Ctx}
    (hin : (s.spdmOf x.box).inSession = true)
    (hopen : (s.spdmOf x.box).opens x.record
      (Config.spdmBytes 0xFE (BitVec.ofNat 8 x.fn.toNat :: 0x07 :: n :: bytesOf 3 dev.toNat)) = true)
    (haccept : s.vendorAccepts x = true) (hc : s.ctx n = some c) (hfn : c.fn = x.fn)
    (hnone : migrationFind n s.migrations = none) (hstands : c.migrating = none) (hdev : dev ∈ s.sec.sessions) :
    exec (.migrate x n dev) s = .next ((s.migrateOut c dev).sessionAnswer x.box (Config.spdmBytes 0x7E [0x07])) := by
  change execMigrate x n dev s = _
  refine State.vendor_some hin hopen haccept ?_
  have hbound : s.boundCtx x n = some c := by simp [State.boundCtx, hc, hfn]
  simp [hbound, hnone, hstands, hdev]

@[simp] theorem State.sessionAnswer_ctx (s : State) (f : BitVec 6) (msg : List Byte) (n : BitVec 8) :
    (s.sessionAnswer f msg).ctx n = s.ctx n := rfl

/-! ## Two numbers that name one context

The context table has the record of context 1 under the number 2 too. Core 0 of the team of a running task of context 1 waits
for the start of a copy that context 2 has given. -/

/-- The record that stands under both numbers. -/
def aliasedCtx : Ctx :=
  { num := 1, serial := 1, fn := 0, root := 0, counters := [], quota := 0, charged := 0, nextTask := 1, accession := 0,
    internal := [], mounts := [], lastSlot := none, area := 0, areaPa := 0, trace := 0, tracePa := 0, traceLog := 0,
    written := 0, migrating := none }

/-- The first ticket of the first culvert. -/
def aliasedTicket : Word := ticketOf (.culvert ⟨0, 0, 0⟩) 0

/-- A copy of context 2 that has not ended. -/
def aliasedCopy : Cmd :=
  { State.reset.newCmd .copy .null .null .null 0 [] with
    ticket := aliasedTicket, origin := ⟨.core ⟨0, 0⟩, 2, 1, 0, 0, 0, 0⟩ }

/-- A core that waits for the start of that copy. -/
def aliasedCore : Core := { Core.idle (.core ⟨0, 0⟩) with wait := some (.engine 0 (some aliasedTicket)) }

/-- A descriptor that asks for nothing. -/
def emptyDesc : Desc :=
  { code := .null, arg := .null, entry := 0, dies := 0, clusters := 0, cores := 0, cls := 0, sump := 0, flags := 0, sovp := 0,
    sovl := 0, result := .null, spad := [], dweir := 0, pweir := 0, flumes := 0, step := 0, start := 0, waitctr := 0,
    waitval := 0, donectr := 0, flcfg := .null, zeros := true }

/-- The running task of context 1. -/
def aliasedTask : Task :=
  { context := 1, num := 1, desc := emptyDesc, flcfg := [], state := .running, cls := 0, seq := 0, accepted := 0, placed := [],
    shape := [], slots := [⟨0, 0⟩], level := 0, n1 := 0, resident := false, queues := [], retired1 := 0, retired2 := 0,
    live := 0, step := 0, armed := false, stopping := false, commands := [], weirs := [], flumes := [], saved := [],
    images := [], spads := [], halves := [], finished := [], revival := none, freezing := none }

/-- A finished session of function 0. -/
def aliasedSession : Spdm := { Spdm.reset with state := .negotiated, session := some 0, finished := true }

/-- The state as a whole; the security core has a session with device 0. -/
def aliasedState : State :=
  { State.reset with
    parked := [aliasedCore],
    clusters := [(0, { Cluster.reset with culverts := vecSet Cluster.reset.culverts 0 ⟨[aliasedCopy], 1, []⟩ })],
    contexts := [(1, aliasedCtx), (2, aliasedCtx)], tasks := [aliasedTask],
    fns := [(0, { Fn.reset with spdm := aliasedSession })], sec := { Security.reset with sessions := [0] } }

/-- MIGRATE of context 1 to device 0, sealed in the session. -/
def aliasedMigrate : Session :=
  ⟨0, 0, aliasedSession.sealed false 0 (Config.spdmBytes 0xFE (0 :: 0x07 :: 1 :: bytesOf 3 0))⟩

/-- Giving up the copy traces it in context 2, and the record that counts the trace goes to the number that it bears. -/
theorem aliasedState_migrateOut_ctx :
    (aliasedState.migrateOut aliasedCtx 0).ctx 1 = some { aliasedCtx with written := 1 } := by
  rfl

theorem aliasedState_opens (rest : List Byte) :
    aliasedSession.opens (aliasedSession.sealed false 0 rest) rest = true :=
  aliasedSession.opens_sealed rest

/-- What the state answers to the command: an acceptance, after it has left context 1 without a mark. -/
theorem exec_aliasedMigrate :
    ∃ t, exec (.migrate aliasedMigrate 1 0) aliasedState = .next t ∧ t.ctx 1 = some { aliasedCtx with written := 1 } :=
  ⟨_, exec_migrate_accepted rfl (aliasedState_opens _) rfl rfl rfl rfl rfl (List.mem_singleton.2 rfl),
    (State.sessionAnswer_ctx ..).trans aliasedState_migrateOut_ctx⟩

end Sys2Proof.Machine

namespace Sys2Proof
open Sys2Proof.Machine

/-- Refutes O60, in its clause about MIGRATE. The clause asks that the record under the number of the command bears that number,
and nothing of the records under other numbers: where context 2 is filed with the record of context 1, the preemption that MIGRATE
makes counts a trace record of context 2 and so writes the record of context 1 back without the mark of the migration. -/
theorem not_vendorCommandsAndContexts : ¬ Obligations.VendorCommandsAndContexts := by
  unfold Obligations.VendorCommandsAndContexts
  intro h
  obtain ⟨-, -, -, hcommands, -⟩ := h aliasedState aliasedMigrate 0 0 0 1 0 0 0 0 0 0 0 false
  obtain ⟨-, -, -, -, -, -, -, hmigrate, -⟩ := hcommands rfl ⟨.inl rfl, .inl rfl⟩
  obtain ⟨-, hmay⟩ := hmigrate (aliasedState_opens _) aliasedCtx rfl rfl rfl
  obtain ⟨t, hexec, ⟨c, hctx, hmarked⟩, -⟩ := hmay ⟨.inl rfl, rfl, List.mem_singleton.2 rfl⟩
  obtain ⟨u, hexec', hunmarked⟩ := exec_aliasedMigrate
  cases hexec.symm.trans hexec'
  cases hctx.symm.trans hunmarked
  cases hmarked

end Sys2Proof
end

section
/-! SUPPORT. O1: the integer forms, their results as numbers (R78 to R80). -/

namespace Sys2Proof.Machine
open Sys2Proof

/-! ## Results of the integer forms as numbers -/

theorem shiftCount_eq (y : Word) : shiftCount y = y.toNat % 64 := by
  rw [shiftCount, BitVec.toNat_and]
  exact Nat.and_two_pow_sub_one_eq_mod y.toNat 6
theorem Word.add_eq_ofNat (u y : Word) : u + y = BitVec.ofNat 64 (u.toNat + y.toNat) := by
  rw [BitVec.ofNat_add, BitVec.ofNat_toNat, BitVec.ofNat_toNat, BitVec.setWidth_eq, BitVec.setWidth_eq]
theorem Word.add_eq_ofInt (u y : Word) : u + y = BitVec.ofInt 64 (u.toInt + y.toInt) := by
  rw [BitVec.ofInt_add, BitVec.ofInt_toInt, BitVec.ofInt_toInt]
theorem Word.sub_eq_ofNat (u y : Word) : u - y = BitVec.ofNat 64 (u.toNat + 2 ^ 64 - y.toNat) := by
  bv_omega
theorem Word.shiftLeft_eq_ofNat (u : Word) (k : Nat) : u <<< k = BitVec.ofNat 64 (u.toNat * 2 ^ k) := by
  apply BitVec.eq_of_toNat_eq
  rw [BitVec.toNat_shiftLeft, BitVec.toNat_ofNat, Nat.shiftLeft_eq]
theorem Word.ushiftRight_eq_ofNat (u : Word) (k : Nat) : u >>> k = BitVec.ofNat 64 (u.toNat / 2 ^ k) := by
  apply BitVec.eq_of_toNat_eq
  rw [BitVec.toNat_ushiftRight, BitVec.toNat_ofNat, Nat.shiftRight_eq_div_pow,
    Nat.mod_eq_of_lt (lt_of_le_of_lt (Nat.div_le_self ..) u.isLt)]
theorem Word.sshiftRight_eq_ofInt (u : Word) (k : Nat) : u.sshiftRight k = BitVec.ofInt 64 (u.toInt / 2 ^ k) := by
  rw [BitVec.sshiftRight, Int.shiftRight_eq_div_pow]
  norm_cast
theorem Word.slt_eq (u y : Word) : u.slt y = decide (u.toInt < y.toInt) := rfl
theorem Word.ult_eq (u y : Word) : u.ult y = decide (u.toNat < y.toNat) := rfl
theorem boolWord_decide (p : Prop) [Decidable p] : boolWord (decide p) = if p then 1 else 0 := by
  by_cases h : p <;> simp [boolWord, h]
/-- The greater of two values, where the model takes the second if it is greater and the table if it is not less. -/
theorem ite_lt_eq_ite_le {β : Type} [LinearOrder β] {f : Word → β} (hf : Function.Injective f) (u y : Word) :
    (if f u < f y then y else u) = if f u ≤ f y then y else u := by
  rcases lt_trichotomy (f u) (f y) with h | h | h
  · rw [if_pos h, if_pos h.le]
  · rw [hf h, ite_self, ite_self]
  · rw [if_neg h.not_gt, if_neg h.not_ge]
theorem Word.toInt_injective : Function.Injective (BitVec.toInt : Word → Int) := fun _ _ => BitVec.eq_of_toInt_eq
theorem Word.toNat_injective : Function.Injective (BitVec.toNat : Word → Nat) := fun _ _ => BitVec.eq_of_toNat_eq

/-! ## The forms -/

section
variable {i : Instr} {s : State} {x : Pfx} {a b c : RegNum} {f : Word → Word → Word} {r imm : Word}

/-- R78: the form RR. -/
theorem writesInt_rr (hr : s.runs x) (hg : s.readable [c, b]) (hi : exec i s = scalarOp x s (rrBody f a b c))
    (hf : f (s.gint c) (s.gint b) = r) : writesInt i s x [c, b] a r := by
  refine hi.trans (scalarOp_ok hr ?_)
  rw [rrBody, State.useG_after hg, ← hf, ← State.after_gint s x [c, b] c, ← State.after_gint s x [c, b] b]
  rfl

/-- R79: the form RI. -/
theorem writesInt_ri (hr : s.runs x) (hg : s.readable [c]) (hi : exec i s = scalarOp x s (riBody f a c imm))
    (hf : f (s.gint c) imm = r) : writesInt i s x [c] a r := by
  refine hi.trans (scalarOp_ok hr ?_)
  rw [riBody, State.useG_after hg, ← hf, ← State.after_gint s x [c] c]
  rfl

/-- R79: a shift by a count from 0 to 63. -/
theorem scalarInstr_count (h : imm.toNat < 64) (body : State → R State) :
    Host.Outcome.next (s.scalarInstr (countIll imm) false x body) = scalarOp x s body := by
  have : countIll imm = false := decide_eq_false (by omega)
  rw [this, scalarOp]

/-- An instruction whose fields it may not have. -/
theorem raises_ill {ill : Bool} {body : State → R State} (h : ill = true)
    (hi : exec i s = .next (s.scalarInstr ill false x body)) : raises i s ⟨cILL, 0, 0⟩ := by
  rw [raises, hi, h]
  rfl

end

end Sys2Proof.Machine

namespace Sys2Proof
open Sys2Proof.Machine

/-- Settles O1: the forms RR and RI with the function of each instruction. -/
theorem integerOpsWriteTheirResults : Obligations.IntegerOpsWriteTheirResults := by
  unfold Obligations.IntegerOpsWriteTheirResults
  refine ⟨fun s x a b c hr hg => ?_, fun s x a b hr hg => ?_, fun s x a c imm hr hg => ?_, fun s x a imm hr => ?_,
    fun s x a c imm h => ?_⟩
  · refine ⟨writesInt_rr hr hg rfl (Word.add_eq_ofNat _ _), writesInt_rr hr hg rfl (Word.sub_eq_ofNat _ _),
      writesInt_rr hr hg rfl rfl, writesInt_rr hr hg rfl rfl, writesInt_rr hr hg rfl rfl, ?shl, ?shr, ?sar,
      ?min, ?max, ?minz, ?maxz, ?slt, ?sltz, ?seq⟩
    case shl => exact writesInt_rr hr hg rfl (by rw [shiftCount_eq, Word.shiftLeft_eq_ofNat])
    case shr => exact writesInt_rr hr hg rfl (by rw [shiftCount_eq, Word.ushiftRight_eq_ofNat])
    case sar => exact writesInt_rr hr hg rfl (by rw [shiftCount_eq, Word.sshiftRight_eq_ofInt])
    case min => exact writesInt_rr hr hg rfl (by simp only [Word.slt_eq, decide_eq_true_eq, ← not_le, ite_not])
    case max =>
      exact writesInt_rr hr hg rfl (by simp only [Word.slt_eq, decide_eq_true_eq, ite_lt_eq_ite_le Word.toInt_injective])
    case minz => exact writesInt_rr hr hg rfl (by simp only [Word.ult_eq, decide_eq_true_eq, ← not_le, ite_not])
    case maxz =>
      exact writesInt_rr hr hg rfl (by simp only [Word.ult_eq, decide_eq_true_eq, ite_lt_eq_ite_le Word.toNat_injective])
    case slt => exact writesInt_rr hr hg rfl (by rw [Word.slt_eq, boolWord_decide])
    case sltz => exact writesInt_rr hr hg rfl (by rw [Word.ult_eq, boolWord_decide])
    case seq => exact writesInt_rr hr hg rfl (boolWord_decide _)
  · refine scalarOp_ok hr ?_
    rw [State.useG_after hg, ← State.after_g s x [b] b]
    rfl
  · refine ⟨writesInt_ri hr hg rfl (Word.add_eq_ofInt _ _), writesInt_ri hr hg rfl rfl, writesInt_ri hr hg rfl rfl,
      writesInt_ri hr hg rfl rfl, writesInt_ri hr hg rfl (by rw [Word.slt_eq, boolWord_decide]), fun h => ⟨?shl, ?shr, ?sar⟩⟩
    case shl => exact writesInt_ri hr hg (scalarInstr_count h _) (Word.shiftLeft_eq_ofNat _ _)
    case shr => exact writesInt_ri hr hg (scalarInstr_count h _) (Word.ushiftRight_eq_ofNat _ _)
    case sar => exact writesInt_ri hr hg (scalarInstr_count h _) (Word.sshiftRight_eq_ofInt _ _)
  · exact scalarOp_ok hr rfl
  · have ill : countIll imm = true := decide_eq_true h
    exact ⟨raises_ill ill rfl, raises_ill ill rfl, raises_ill ill rfl⟩

end Sys2Proof
end

section
/-! SUPPORT. O5: TRAP, TNOW and RDID (R95 to R97). -/

namespace Sys2Proof.Machine
open Sys2Proof

section
variable {s : State} {x : Pfx} {a : RegNum}

/-- R95: DETAIL of SWTRAP. -/
theorem swtrap_detail (code : BitVec 8) (n : Nat) :
    code.setWidth 64 + BitVec.ofNat 64 n * 256 = BitVec.ofNat 64 (code.toNat + 256 * n) := by
  rw [BitVec.ofNat_add, BitVec.ofNat_mul, BitVec.ofNat_toNat, BitVec.mul_comm]
  rfl

/-- R2, R72: the numbers of a core, as selectors 0 to 2 give them. -/
theorem State.identity_core {c : CoreId} (hc : s.core.agent = .core c) :
    s.identity 0 = c.core.setWidth 64 ∧ s.identity 1 = BitVec.ofNat 64 (c.core.toNat / 64 * 8 + c.core.toNat % 32 / 4)
      ∧ s.identity 2 = c.die.setWidth 64 := by
  refine ⟨?_, ?_, ?_⟩
  · show s.core.agent.coreNumber.setWidth 64 = _
    rw [hc]
    rfl
  · show (match s.core.agent with | .core c => BitVec.ofNat 64 c.cluster | .culvert c => c.cluster.setWidth 64 | _ => 0) = _
    rw [hc]
    rfl
  · show s.core.agent.die.setWidth 64 = _
    rw [hc]
    rfl

/-- R96: a selector up to 13 reads its field of the identity. -/
theorem writesInt_rdid {sel : BitVec 4} {v : Word} (hr : s.runs x) (hsel : sel.toNat < 14) (hv : s.identity sel = v) :
    writesInt (.rdid x a sel) s x [] a v := by
  have ill : decide (14 ≤ sel.toNat) = false := decide_eq_false (by omega)
  show Host.Outcome.next (s.scalarInstr (decide (14 ≤ sel.toNat)) false x _) = _
  rw [ill]
  refine scalarOp_ok hr ?_
  rw [State.tookPfx_identity, hv]
  rfl

end

end Sys2Proof.Machine

namespace Sys2Proof
open Sys2Proof.Machine

/-- Settles O5: each selector of RDID at the field that it reads. -/
theorem trapIdentityAndTime : Obligations.TrapIdentityAndTime := by
  unfold Obligations.TrapIdentityAndTime
  refine ⟨fun s x code hr => ?_, fun s x a hr => ?_, fun s x a hr => ?_, fun s x a sel h => ?_⟩
  · rw [← swtrap_detail]
    exact scalarOp_trap hr rfl
  · refine scalarOp_ok hr ?_
    rw [State.tookPfx_now]
    rfl
  · have reads (sel : BitVec 4) (hsel : sel.toNat < 14) : writesInt (.rdid x a sel) s x [] a (s.identity sel) :=
      writesInt_rdid hr hsel rfl
    refine ⟨fun c hc => ?_, reads 3 (by decide), reads 4 (by decide), reads 5 (by decide), reads 6 (by decide),
      reads 7 (by decide), reads 8 (by decide), reads 9 (by decide), reads 10 (by decide), reads 11 (by decide),
      reads 12 (by decide), reads 13 (by decide)⟩
    obtain ⟨core, cluster, die⟩ := State.identity_core hc
    exact ⟨core ▸ reads 0 (by decide), cluster ▸ reads 1 (by decide), die ▸ reads 2 (by decide)⟩
  · exact raises_ill (x := x) (decide_eq_true h) rfl

end Sys2Proof
end

section
/-! SUPPORT. O4: where a branch goes, and what CALL and the jumps through registers do (R82 to R84). -/

namespace Sys2Proof.Machine
open Sys2Proof

/-! ## What reading registers leaves of the PC -/

@[simp] theorem State.after_pc (s : State) (x : Pfx) (rs : List RegNum) : (s.after x rs).pc = s.pc := by
  simp [State.after]
@[simp] theorem State.after_next (s : State) (x y : Pfx) (rs : List RegNum) : (s.after x rs).next y = s.next y := by
  simp [State.next]

theorem State.after_pcc (s : State) (x : Pfx) (rs : List RegNum) : (s.after x rs).core.pcc = s.core.pcc := by
  simp [State.after]
/-- R83: the link value does not depend on what an instruction has read. -/
theorem State.after_link (s : State) (x : Pfx) (rs : List RegNum) :
    (s.after x rs).link x = (s.after x rs).setG 30 (s.core.pcc.setCursor (s.next x)) := by
  rw [State.link, State.after_pcc, State.after_next]

/-! ## Targets -/

/-- R82: twice a sign-extended offset, as the model and as the table computes it. -/
theorem addr_double (off : Word) : (off <<< 1).setWidth 48 = BitVec.ofInt 48 (2 * off.toInt) := by
  apply BitVec.eq_of_toNat_eq
  rw [BitVec.toNat_setWidth, BitVec.toNat_shiftLeft, BitVec.toNat_ofInt, Nat.shiftLeft_eq, BitVec.toInt_eq_toNat_cond]
  split_ifs <;> omega
theorem branchTarget_eq (s : State) (off : Word) : branchTarget s off = BitVec.ofInt 48 (s.pc.toNat + 2 * off.toInt) := by
  rw [branchTarget, addr_double, BitVec.ofInt_add, BitVec.ofInt_natCast, BitVec.ofNat_toNat, BitVec.setWidth_eq]
@[simp] theorem branchTarget_after (s : State) (x : Pfx) (rs : List RegNum) (off : Word) :
    branchTarget (s.after x rs) off = BitVec.ofInt 48 (s.pc.toNat + 2 * off.toInt) := by
  rw [branchTarget_eq, State.after_pc]

section
variable {i : Instr} {s : State} {x : Pfx} {a b : RegNum} {off : Word} (hr : s.runs x)
include hr

/-- R82: a compare branch whose test says what the condition of its row says. -/
theorem exec_branch {test : Word → Word → Bool} {c : Prop} [Decidable c] (hg : s.readable [a, b])
    (hi : exec i s = jumpOp x s (branchBody x test a b off)) (hc : test (s.gint a) (s.gint b) = true ↔ c) :
    exec i s = .next ((s.after x [a, b]).ends (if c then BitVec.ofInt 48 (s.pc.toNat + 2 * off.toInt) else s.next x)) := by
  refine hi.trans (jumpOp_ok hr (t := (s.after x [a, b]).setPc _) ?_)
  rw [branchBody, State.useG_after hg]
  show Except.ok ((s.after x [a, b]).setPc _) = _
  rw [State.after_gint, State.after_gint, branchTarget_after, State.after_next]
  exact congrArg (fun q => Except.ok ((s.after x [a, b]).setPc q)) (if_congr hc rfl rfl)

omit hr in
theorem jumpTarget_ok (hg : s.readable [a]) (ht : (s.g a).tag = true) (hs : (s.g a).isSealed = false) :
    jumpTarget a (s.tookPfx x) = .ok (s.g a, s.after x [a]) := by
  rw [jumpTarget, State.readG_eq (State.readable_tookPfx hg), State.tookPfx_g]
  show (if (!(s.g a).tag) = true then _ else if (s.g a).isSealed = true then _ else _) = _
  rw [ht, hs]
  rfl
omit hr in
/-- R83: KTAG or KSEAL on a target. That the ADDRESS of the two is 0 is the model's choice (log entry 9). -/
theorem jumpTarget_trap (hg : s.readable [a]) (h : (s.g a).tag = true → (s.g a).isSealed = true) :
    jumpTarget a (s.tookPfx x) = .error (.trap ⟨if (s.g a).tag then cKSEAL else cKTAG, 0, a.setWidth 64⟩) := by
  rw [jumpTarget, State.readG_eq (State.readable_tookPfx hg), State.tookPfx_g]
  show (if (!(s.g a).tag) = true then trap cKTAG (BitVec.ofNat 64 a.toNat)
    else if (s.g a).isSealed = true then trap cKSEAL (BitVec.ofNat 64 a.toNat) else _) = _
  rw [BitVec.ofNat_toNat]
  cases ht : (s.g a).tag
  · rfl
  · rw [h ht]
    rfl

theorem raises_jump {t : Trap} (h : jumpTarget a (s.tookPfx x) = .error (.trap t)) :
    raises (.callr x a) s t ∧ raises (.jmpr x a) s t := by
  constructor
  · refine jumpOp_trap hr ?_
    rw [h]
    rfl
  · refine jumpOp_trap hr ?_
    rw [h]
    rfl

end

end Sys2Proof.Machine

namespace Sys2Proof
open Sys2Proof.Machine

/-- Settles O4: the branches by their tests, then the link and the checked target. -/
theorem controlTransfersMoveThePc : Obligations.ControlTransfersMoveThePc := by
  unfold Obligations.ControlTransfersMoveThePc
  refine ⟨⟨fun s x off hr => ?_, fun s x a b off hr hg => ?_, fun s x a off hr hg => ?_⟩,
    fun s x off hr => ?_, fun s x a hr hg => ⟨fun ht hs => ⟨?callr, ?jmpr⟩, fun ht => ?_, fun ht hs => ?_⟩⟩
  · rw [← branchTarget_after s x []]
    exact jumpOp_ok hr rfl
  · exact ⟨exec_branch hr hg rfl beq_iff_eq, exec_branch hr hg rfl bne_iff_ne,
      exec_branch hr hg rfl decide_eq_true_iff,
      exec_branch hr hg rfl (by simp [Word.slt_eq]),
      exec_branch hr hg rfl decide_eq_true_iff,
      exec_branch hr hg rfl (by simp [Word.ult_eq])⟩
  · refine jumpOp_ok hr (t := ((s.after x [a]).setInt a _).setPc _) ?_
    rw [State.useG_after hg]
    show Except.ok (((s.after x [a]).setInt a _).setPc _) = _
    rw [State.after_gint, branchTarget_after, State.after_next]
  · rw [← branchTarget_after s x [], ← State.after_link]
    exact jumpOp_ok hr rfl
  case callr =>
    rw [← State.after_link]
    refine jumpOp_ok hr ?_
    rw [jumpTarget_ok hg ht hs]
    rfl
  case jmpr =>
    refine jumpOp_ok hr ?_
    rw [jumpTarget_ok hg ht hs]
    rfl
  · have h := jumpTarget_trap (x := x) hg (fun h => absurd h (by rw [ht]; decide))
    rw [ht] at h
    exact raises_jump hr h
  · have h := jumpTarget_trap (x := x) hg (fun _ => hs)
    rw [ht] at h
    exact raises_jump hr h

end Sys2Proof
end

section
/-! SUPPORT. O3: a cursor moved by LEA, KINC, KINCI and KCUR (R81, R104). -/

namespace Sys2Proof.Machine
open Sys2Proof

/-- R104: the cursor at an offset from the base, as the statement gives it. -/
def movedTo (src : GReg) (d : Int) : GReg :=
  let cur : Addr := BitVec.ofInt 48 (src.base.toNat + d)
  if src.isSealed = false ∧ 0 ≤ d ∧ d ≤ src.length then src.setCursor cur else intReg (cur.setWidth 64)

theorem moveCursor_eq (src : GReg) (d : Int) : moveCursor src d = movedTo src d := by
  have cur : src.base + BitVec.ofInt 48 d = BitVec.ofInt 48 (src.base.toNat + d) := by
    rw [BitVec.ofInt_add, BitVec.ofInt_natCast, BitVec.ofNat_toNat, BitVec.setWidth_eq]
  unfold moveCursor movedTo
  rw [cur]
  exact if_congr (by simp [and_assoc]) rfl rfl

/-- R104: an address of more than 48 bits. -/
theorem high_bits_iff (y : Word) : y.extractLsb' 48 16 ≠ 0 ↔ 2 ^ 48 ≤ y.toNat := by
  rw [ne_eq, ← BitVec.toNat_inj, BitVec.extractLsb'_toNat, Nat.shiftRight_eq_div_pow]
  have := y.isLt
  simp only [BitVec.ofNat_eq_ofNat, BitVec.toNat_ofNat]
  omega

section
variable {src : GReg} {y : Word}

/-- R81: LEA in its three cases. -/
theorem leaResult_untagged {off : Word} (h : src.tag = false) : leaResult src y off = intReg (y + off) := by
  rw [leaResult, h]
  rfl
theorem leaResult_tagged {off : Word} (h : src.tag = true) :
    leaResult src y off = (let cur : Addr := src.cursor + off.setWidth 48
      if src.isSealed = false ∧ (cur - src.base).toNat ≤ src.length then src.setCursor cur else intReg (cur.setWidth 64)) := by
  rw [leaResult, h, if_neg (by decide)]
  exact if_congr (by rw [Bool.and_eq_true, Bool.not_eq_true', decide_eq_true_eq]) rfl rfl

theorem kincResult_untagged (h : src.tag = false) : kincResult src y = intReg (src.bits.setWidth 64 + y) := by
  rw [kincResult, h]
  rfl
theorem kincResult_tagged (h : src.tag = true) :
    kincResult src y = movedTo src ((src.cursor - src.base).toNat + y.toInt) := by
  rw [kincResult, h, ← moveCursor_eq]
  rfl
theorem kcurResult_untagged (h : src.tag = false) : kcurResult src y = intReg y := by
  rw [kcurResult, h]
  rfl
theorem kcurResult_tagged (h : src.tag = true) : kcurResult src y
    = movedTo src (if 2 ^ 48 ≤ y.toNat then -1 else (((y.setWidth 48 : Addr) - src.base).toNat : Int)) := by
  rw [kcurResult, h, ← moveCursor_eq]
  exact congrArg (moveCursor src) (if_congr (high_bits_iff y) rfl rfl)

end

section
variable {i : Instr} {s : State} {x : Pfx} {a b : RegNum} {off : Word} {rs : List RegNum} {r : GReg}

/-- An instruction that reads registers and gives A a value computed from them. -/
theorem writesReg_of {f : State → GReg} (hr : s.runs x) (hg : s.readable rs)
    (hi : exec i s = scalarOp x s fun s => do let s ← s.useG rs; return s.setG a (f s)) (hf : f (s.after x rs) = r) :
    writesReg i s x rs a r := by
  refine hi.trans (scalarOp_ok hr ?_)
  rw [State.useG_after hg, ← hf]
  rfl

/-- R81: LEA through PCC where B is 0. -/
theorem writesReg_lea (hr : s.runs x) (hg : s.readable [b])
    (hf : leaResult (if b = 0 then s.core.pcc else s.g b) (s.gint b) off = r) : writesReg (.lea x a b off) s x [b] a r := by
  refine writesReg_of (f := fun s => leaResult (if b = 0 then s.core.pcc else s.g b) (s.gint b) off) hr hg rfl ?_
  have hp : (s.after x [b]).core.pcc = s.core.pcc := by simp [State.after]
  rw [hp, State.after_g, State.after_gint, hf]

end

end Sys2Proof.Machine

namespace Sys2Proof
open Sys2Proof.Machine

/-- Settles O3: LEA in its three cases, then the moved cursor of the others. -/
theorem pointersKeepTheirTagInBounds : Obligations.PointersKeepTheirTagInBounds := by
  unfold Obligations.PointersKeepTheirTagInBounds
  constructor
  · intro s x a b off hr hg
    refine ⟨fun ht => writesReg_lea hr hg (leaResult_untagged ht), fun ht hs hl => writesReg_lea hr hg ?_,
      fun ht h => writesReg_lea hr hg ?_⟩
    · exact (leaResult_tagged ht).trans (if_pos ⟨hs, hl⟩)
    · refine (leaResult_tagged ht).trans (if_neg ?_)
      rintro ⟨hs, hl⟩
      exact h.elim (fun h => Bool.false_ne_true (hs.symm.trans h)) fun h => absurd hl (not_le.mpr h)
  · intro s x a b c imm hr hg
    have hc : s.readable [c] := fun n hn => hg n (List.mem_append_left [b] hn)
    have kinc {r : GReg} (h : kincResult (s.g c) (s.gint b) = r) : writesReg (.kinc x a b c) s x [c, b] a r :=
      writesReg_of (f := fun s => kincResult (s.g c) (s.gint b)) hr hg rfl (by rw [State.after_g, State.after_gint, h])
    have kinci {r : GReg} (h : kincResult (s.g c) imm = r) : writesReg (.kinci x a c imm) s x [c] a r :=
      writesReg_of (f := fun s => kincResult (s.g c) imm) hr hc rfl (by rw [State.after_g, h])
    have kcur {r : GReg} (h : kcurResult (s.g c) (s.gint b) = r) : writesReg (.kcur x a b c) s x [c, b] a r :=
      writesReg_of (f := fun s => kcurResult (s.g c) (s.gint b)) hr hg rfl (by rw [State.after_g, State.after_gint, h])
    exact ⟨fun ht => ⟨kinc (kincResult_untagged ht), kinci (kincResult_untagged ht), kcur (kcurResult_untagged ht)⟩,
      fun ht => ⟨kinc (kincResult_tagged ht), kinci (kincResult_tagged ht), kcur (kcurResult_tagged ht)⟩⟩

end Sys2Proof
end

section
/-! SUPPORT. Bytes as numbers: how many a place has, and their sign- and zero-extension (R85). -/

namespace Sys2Proof.Machine
open Sys2Proof

theorem natOf_lt (bs : List Byte) : natOf bs < 2 ^ (8 * bs.length) := by
  induction bs with
  | nil => decide
  | cons b rest ih =>
    have hb := b.isLt
    rw [natOf, List.length_cons, Nat.mul_add, Nat.pow_add]
    omega

@[simp] theorem length_upFrom (a n : Nat) : (upFrom a n).length = n := by
  induction n generalizing a with
  | zero => rfl
  | succ n ih => rw [upFrom, List.length_cons, ih]
@[simp] theorem State.length_viewBytes (s : State) (key l n : Nat) : (s.viewBytes key l n).length = n := by
  induction n generalizing l with
  | zero => rfl
  | succ n ih => rw [State.viewBytes, List.length_cons, ih]
@[simp] theorem State.length_placeBytes (s : State) (p : Place) (n : Nat) : (s.placeBytes p n).length = n := by
  unfold State.placeBytes
  split
  · exact memRead_length ..
  · rw [Corpse.windowBytes, List.length_map, length_upFrom]
  · split
    · exact s.length_viewBytes ..
    · exact memRead_length ..

/-- The low `n` bytes in the high bytes of a word. -/
theorem shiftLeft_low_bytes {n : Nat} (h8 : n ≤ 8) (v : Nat) :
    (BitVec.ofNat 64 v <<< (64 - 8 * n)).toNat = v % 2 ^ (8 * n) * 2 ^ (64 - 8 * n) := by
  have e : 2 ^ 64 = 2 ^ (8 * n) * 2 ^ (64 - 8 * n) := by rw [← Nat.pow_add]; congr 1; omega
  rw [BitVec.toNat_shiftLeft, BitVec.toNat_ofNat, Nat.shiftLeft_eq, Nat.mod_mul_mod, e, Nat.mul_mod_mul_right]

theorem sextBytes_eq {n : Nat} (h0 : 0 < n) (h8 : n ≤ 8) (v : Nat) : sextBytes n v = BitVec.ofInt 64 (signedOf n v) := by
  have e : 2 ^ 64 = 2 * 2 ^ (8 * n - 1) * 2 ^ (64 - 8 * n) := by
    rw [← Nat.pow_succ', ← Nat.pow_add]; congr 1; omega
  have e' : 2 ^ (8 * n) = 2 * 2 ^ (8 * n - 1) := by rw [← Nat.pow_succ']; congr 1; omega
  have hpos : 0 < 2 ^ (64 - 8 * n) := by positivity
  have hz : ((2 ^ (64 - 8 * n) : Nat) : Int) ≠ 0 := by exact_mod_cast hpos.ne'
  rw [sextBytes, Word.sshiftRight_eq_ofInt, BitVec.toInt_eq_toNat_cond, shiftLeft_low_bytes h8, signedOf]
  congr 1
  have cond : 2 * (v % 2 ^ (8 * n) * 2 ^ (64 - 8 * n)) < 2 ^ 64 ↔ v % 2 ^ (8 * n) < 2 ^ (8 * n - 1) := by
    rw [e, Nat.mul_assoc, Nat.mul_lt_mul_left (by decide), Nat.mul_lt_mul_right hpos]
  have whole : ((2 ^ 64 : Nat) : Int) = ((2 ^ (8 * n) : Nat) : Int) * ((2 ^ (64 - 8 * n) : Nat) : Int) := by
    rw [e, e']; push_cast; ring
  have pw : (2 : Int) ^ (64 - 8 * n) = ((2 ^ (64 - 8 * n) : Nat) : Int) := by push_cast; rfl
  rw [pw]
  split_ifs with h1 h2 h2
  · rw [Nat.cast_mul, Int.mul_ediv_cancel _ hz]
  · exact absurd (cond.mp h1) h2
  · exact absurd (cond.mpr h2) h1
  · rw [whole, Nat.cast_mul, ← Int.sub_mul, Int.mul_ediv_cancel _ hz]

theorem zextBytes_natOf {n : Nat} {bs : List Byte} (h : bs.length = n) : zextBytes n (natOf bs) = BitVec.ofNat 64 (natOf bs) := by
  rw [zextBytes, Nat.mod_eq_of_lt (h ▸ natOf_lt bs)]

/-- R85: the sizes of the plain forms. -/
theorem sizeOf2_range (size : BitVec 2) : 0 < 2 ^ size.toNat ∧ 2 ^ size.toNat ≤ 8 := by
  have := size.isLt
  exact ⟨by positivity, (Nat.pow_le_pow_right (by decide) (by omega : size.toNat ≤ 3))⟩

end Sys2Proof.Machine
end

section
/-! SUPPORT. O6: the loads, as what the one load of each answers and what it does with it (R85 to R87, R346). -/

namespace Sys2Proof.Machine
open Sys2Proof

/-! ## What reading registers leaves of memory and of the host link -/

/-- Reading registers changes which of them are inherited, and nothing else. -/
theorem State.after_eq (s : State) (x : Pfx) (rs : List RegNum) :
    ∃ m k, s.after x rs = { s with core := { s.core with pInh := m, gInh := k } } := by
  obtain ⟨m, h1⟩ := s.tookPfx_eq x
  obtain ⟨k, h2⟩ := (s.tookPfx x).took_eq rs
  exact ⟨m, k, by rw [State.after, h2, h1]⟩

section
variable (s : State) (x : Pfx) (rs : List RegNum)

theorem State.after_placeBytes (p : Place) (n : Nat) : (s.after x rs).placeBytes p n = s.placeBytes p n := by
  apply State.placeBytes_congr <;> simp [State.after]
theorem State.after_placeTag (p : Place) : (s.after x rs).placeTag p = s.placeTag p := by
  obtain ⟨m, k, h⟩ := s.after_eq x rs
  rw [h]
  rfl
theorem State.after_owner : (s.after x rs).core.owner = s.core.owner := by
  obtain ⟨m, k, h⟩ := s.after_eq x rs
  rw [h]
theorem State.after_wait : (s.after x rs).core.wait = s.core.wait := by
  obtain ⟨m, k, h⟩ := s.after_eq x rs
  rw [h]
theorem State.after_awayRefused (n : BitVec 8) (l : Nat) : (s.after x rs).awayRefused n l = s.awayRefused n l := by
  obtain ⟨m, k, h⟩ := s.after_eq x rs
  rw [h]
  rfl
theorem State.after_peerHeld (l : Nat) : (s.after x rs).peerHeld l = s.peerHeld l := by
  obtain ⟨m, k, h⟩ := s.after_eq x rs
  rw [h]
  rfl

end

/-! ## The one load of an instruction -/

/-- A body that waits with what it has performed so far. -/
theorem scalarOp_hold {x : Pfx} {s t : State} {w : Wait} {body : State → R State} (h : s.runs x)
    (hb : body (s.tookPfx x) = .error (.hold t w)) : scalarOp x s body = .next (t.waits w) := by
  unfold scalarOp State.scalarInstr
  rw [State.jumpInstr_eq h, hb]
  rfl

theorem State.issueAway_ok {s : State} {p : Place} (hr : s.awayRefused s.core.owner p.loc = none) (hh : s.peerHeld p.loc = false) :
    s.issueAway p = .ok () := by
  simp [State.issueAway, hr, hh]

/-- R347, R350, R352: a load of the host or of a peer goes out. -/
def State.lets (s : State) (p : Place) : Prop := s.awayRefused s.core.owner p.loc = none ∧ s.peerHeld p.loc = false

theorem State.lets_after {s : State} {p : Place} (h : s.lets p) (x : Pfx) (rs : List RegNum) (q : Place) :
    ((s.after x rs).fillTlb q).issueAway p = .ok () := by
  refine State.issueAway_ok ?_ ?_
  · rw [State.fillTlb_awayRefused, State.fillTlb_core, State.after_awayRefused, State.after_owner, h.1]
  · rw [State.fillTlb_peerHeld, State.after_peerHeld, h.2]

section
variable {s : State} {o : Sys2Proof.Ordering} {a : Access} {p : Place}

/-- R346: with nothing on its way, a load of the host or of a peer waits for its completion. -/
theorem State.loads_away {t : State} {n : Nat} {check : State → R (State × List (Place × Nat))} (hb : s.core.begins = true)
    (h : check s = .ok (t, [(p, n)])) (hq : t.quiet) (hp : isAway p.loc = true) (hi : t.issueAway p = .ok ()) :
    s.loads o check = .error (.hold t (.host [t.request p n none])) := by
  have sent : t.issueLoads [(p, n)] = .ok (t, [t.request p n none]) := by
    unfold State.issueLoads
    simp only [State.beforeAccess_quiet hq, hp, if_true, hi]
    rfl
  unfold State.loads
  split
  · next rs hw => exact absurd hw (Core.begins_wait hb rs)
  · rw [h]
    show ((t.orderBefore o).issueLoads [(p, n)] >>= fun x => x.1.answers x.2) = _
    rw [State.orderBefore_quiet hq, sent]
    rfl

theorem State.loadMem_away (hb : s.core.begins = true) (hq : s.quiet) (hp : isAway p.loc = true) (h : s.access a = .ok p)
    (hi : (s.fillTlb p).issueAway p = .ok ()) :
    s.loadMem o a = .error (.hold (s.fillTlb p) (.host [(s.fillTlb p).request p a.n none])) := by
  unfold State.loadMem
  rw [State.loads_away (p := p) (n := a.n) hb (by rw [State.check_eq h]; rfl) (State.fillTlb_quiet hq p) hp hi]
  rfl

/-- R346: a load that has been answered goes on with what was returned, untagged. -/
theorem State.loadMem_answered {r : Request} {bytes : List Byte} (hw : s.core.wait = some (.host [r]))
    (hr : r.answer = some (.returned bytes)) : s.loadMem o a = .ok (s, bytes, false) := by
  unfold State.loadMem State.loads
  rw [hw]
  show (s.answers [r] >>= _) = _
  unfold State.answers
  simp only [List.any_cons, List.any_nil, hr, gather, Request.fault]
  rfl

end

/-- The instruction reads `rs`, loads through one access, and ends with `fin` of what the load answers. -/
def loadsVia (i : Instr) (s : State) (x : Pfx) (o : Sys2Proof.Ordering) (rs : List RegNum) (acc : Access)
    (fin : State → List Byte → Bool → State) : Prop :=
  ∃ body, exec i s = scalarOp x s body ∧
    body (s.tookPfx x) = ((s.after x rs).loadMem o acc).map fun r => fin r.1 r.2.1 r.2.2

section
variable {i : Instr} {s : State} {x : Pfx} {o : Sys2Proof.Ordering} {rs : List RegNum} {acc : Access}
  {fin : State → List Byte → Bool → State} {p : Place} (hi : loadsVia i s x o rs acc fin) (hr : s.runs x)
include hi hr

theorem loadsVia.here (hq : s.quiet) (hb : s.core.begins = true) (hp : isAway p.loc = false) (ha : s.access acc = .ok p) :
    exec i s = .next ((fin ((s.after x rs).fillTlb p) (s.placeBytes p acc.n) (s.placeTag p)).ends (s.next x)) := by
  obtain ⟨body, he, hbody⟩ := hi
  rw [State.loadMem_here (State.after_begins hb x rs) hp (State.after_quiet hq x rs) ((s.after_access x rs acc).trans ha),
    State.after_placeBytes, State.after_placeTag] at hbody
  exact he.trans (scalarOp_ok hr hbody)

theorem loadsVia.away (hq : s.quiet) (hb : s.core.begins = true) (hp : isAway p.loc = true) (hl : s.lets p)
    (ha : s.access acc = .ok p) :
    let u := (s.after x rs).fillTlb p
    exec i s = .next (u.waits (.host [u.request p acc.n none])) := by
  obtain ⟨body, he, hbody⟩ := hi
  rw [State.loadMem_away (State.after_begins hb x rs) (State.after_quiet hq x rs) hp ((s.after_access x rs acc).trans ha)
    (State.lets_after hl x rs p)] at hbody
  exact he.trans (scalarOp_hold hr hbody)

theorem loadsVia.answered {r : Request} {bytes : List Byte} (hw : s.core.wait = some (.host [r]))
    (ha : r.answer = some (.returned bytes)) : exec i s = .next ((fin (s.after x rs) bytes false).ends (s.next x)) := by
  obtain ⟨body, he, hbody⟩ := hi
  rw [State.loadMem_answered ((s.after_wait x rs).trans hw) ha] at hbody
  exact he.trans (scalarOp_ok hr hbody)

end

section
variable {s : State} {x : Pfx} {o : Sys2Proof.Ordering} {size : BitVec 2} {a b c : RegNum} {off : Word}

theorem loadBody_eq {ext : Nat → Nat → Word} {n : Nat} {acc : GReg → State → Access} {rs : List RegNum} (hg : s.readable [b]) :
    loadBody ext o n a acc b (s.after x rs) =
      ((s.after x (rs ++ [b])).loadMem o (acc (s.g b) (s.after x (rs ++ [b]))).load).map
        fun r => r.1.setInt a (ext n (natOf r.2.1)) := by
  unfold loadBody
  rw [State.readG_eq (State.readable_after hg), State.after_g, State.after_took]
  show (State.loadMem _ o _ >>= _) = _
  cases State.loadMem (s.after x (rs ++ [b])) o (acc (s.g b) (s.after x (rs ++ [b]))).load <;> rfl

theorem ld_loadsVia (hg : s.readable [b]) : loadsVia (.ld x o size a b off) s x o [b]
    (memAccess (s.g b) b (eaOf (s.g b) off) (2 ^ size.toNat)).load
    fun u bytes _ => u.setInt a (sextBytes (2 ^ size.toNat) (natOf bytes)) :=
  ⟨_, rfl, loadBody_eq (rs := []) hg⟩
theorem ldz_loadsVia (hg : s.readable [b]) : loadsVia (.ldz x o size a b off) s x o [b]
    (memAccess (s.g b) b (eaOf (s.g b) off) (2 ^ size.toNat)).load
    fun u bytes _ => u.setInt a (zextBytes (2 ^ size.toNat) (natOf bytes)) :=
  ⟨_, rfl, loadBody_eq (rs := []) hg⟩
theorem ldx_loadsVia (hg : s.readable [b, c]) : loadsVia (.ldx x o size a b c off) s x o [b, c, b]
    (indexAccess (s.g b) b (s.gint c) (2 ^ size.toNat) off).load
    fun u bytes _ => u.setInt a (sextBytes (2 ^ size.toNat) (natOf bytes)) := by
  have hg' : s.readable [b] := fun n hn => hg n (List.mem_append_left [c] hn)
  refine ⟨_, rfl, ?_⟩
  rw [State.useG_after hg]
  show loadBody sextBytes o (sizeOf2 size) a (fun cap s => indexAccess cap b (s.gint c) (sizeOf2 size) off) b (s.after x [b, c]) = _
  rw [loadBody_eq (rs := [b, c]) hg', State.after_gint]
  rfl
theorem ldk_loadsVia (hg : s.readable [b]) : loadsVia (.ldk x o a b off) s x o [b]
    (memAccess (s.g b) b (eaOf (s.g b) off) 16).load fun u bytes tag => u.setG a (loadCapValue (s.g b) bytes tag) := by
  refine ⟨_, rfl, ?_⟩
  rw [State.readG_eq (State.readable_tookPfx hg), State.tookPfx_g]
  show (State.loadMem (s.after x [b]) o _ >>= _) = _
  cases State.loadMem (s.after x [b]) o (memAccess (s.g b) b (eaOf (s.g b) off) 16).load <;> rfl

end

/-- R86: a value loaded with its tag, and one loaded without. -/
theorem loadCapValue_tagged {cap : GReg} {bytes : List Byte} (hk : cap.permK = true) :
    loadCapValue cap bytes true = ⟨BitVec.ofNat 128 (natOf bytes), true⟩ := by
  rw [loadCapValue, hk]
  rfl
theorem loadCapValue_untagged {cap : GReg} {bytes : List Byte} {tag : Bool} (h : tag = false ∨ cap.permK = false) :
    loadCapValue cap bytes tag = intReg (BitVec.ofNat 64 (natOf bytes)) := by
  have : (tag && cap.permK) = false := by rcases h with h | h <;> simp [h]
  rw [loadCapValue, this]
  rfl

end Sys2Proof.Machine

namespace Sys2Proof
open Sys2Proof.Machine

/-- Settles O6: each load at its access, performed here, sent away, or answered. -/
theorem loadsReadTheirBytes : Obligations.LoadsReadTheirBytes := by
  unfold Obligations.LoadsReadTheirBytes
  refine ⟨fun s x o size a b c off p hr hq hb hp => ?here, fun s x o size a b c off p hr hq hb hp href hheld => ?away,
    fun s x o size a b c off r bytes hr hw ha => ?answered⟩
  case here =>
    obtain ⟨h0, h8⟩ := sizeOf2_range size
    refine ⟨fun hg h => ⟨?_, ?_⟩, fun hg h => ?_, fun hg h => ⟨fun ht hk => ?_, fun hu => ?_⟩⟩
    · rw [← sextBytes_eq h0 h8]
      exact (ld_loadsVia hg).here hr hq hb hp h
    · rw [← zextBytes_natOf (s.length_placeBytes p _)]
      exact (ldz_loadsVia hg).here hr hq hb hp h
    · rw [← sextBytes_eq h0 h8]
      exact (ldx_loadsVia hg).here hr hq hb hp h
    · rw [← loadCapValue_tagged hk, ← ht]
      exact (ldk_loadsVia hg).here hr hq hb hp h
    · rw [← loadCapValue_untagged hu]
      exact (ldk_loadsVia hg).here hr hq hb hp h
  case away =>
    have hl : s.lets p := ⟨href, hheld⟩
    exact ⟨fun hg h => ⟨(ld_loadsVia hg).away hr hq hb hp hl h, (ldz_loadsVia hg).away hr hq hb hp hl h⟩,
      fun hg h => (ldx_loadsVia hg).away hr hq hb hp hl h, fun hg h => (ldk_loadsVia hg).away hr hq hb hp hl h⟩
  case answered =>
    obtain ⟨h0, h8⟩ := sizeOf2_range size
    refine ⟨fun hg => ⟨?_, ?_, ?_⟩, fun hg => ?_⟩
    · rw [← sextBytes_eq h0 h8]
      exact (ld_loadsVia hg).answered hr hw ha
    · exact (ldz_loadsVia hg).answered hr hw ha
    · have h := (ldk_loadsVia (x := x) (o := o) (a := a) (off := off) hg).answered hr hw ha
      rwa [loadCapValue_untagged (.inl rfl)] at h
    · rw [← sextBytes_eq h0 h8]
      exact (ldx_loadsVia hg).answered hr hw ha

end Sys2Proof
end

section
/-! SUPPORT. What an instruction that writes at most one register leaves of its agent (R49). -/

namespace Sys2Proof.Machine
open Sys2Proof

/-- Of an agent, everything that `Untouched` speaks of, and its PC. -/
structure Core.Kept (c d : Core) : Prop where
  regs    : d.g = c.g ∧ d.v = c.v ∧ d.p = c.p
  csr     : d.csr = c.csr
  handler : d.handler = c.handler
  pending : d.pending = c.pending
  pcc     : d.pcc = c.pcc
  dead    : d.dead = c.dead
  mx      : d.mx = c.mx
  mode    : d.run = c.run ∧ d.agent = c.agent ∧ d.owner = c.owner ∧ d.ident = c.ident

theorem Core.Kept.after (s : State) (x : Pfx) (rs : List RegNum) : Core.Kept s.core (s.after x rs).core := by
  obtain ⟨m, k, h⟩ := s.after_eq x rs
  rw [h]
  exact ⟨⟨rfl, rfl, rfl⟩, rfl, rfl, rfl, rfl, rfl, rfl, rfl, rfl, rfl, rfl⟩

theorem Core.Kept.trans {c d e : Core} (h : Core.Kept c d) (h' : Core.Kept d e) : Core.Kept c e := by
  obtain ⟨⟨hg, hv, hp⟩, csr, handler, pending, pcc, dead, mx, run, agent, owner, ident⟩ := h
  obtain ⟨⟨hg', hv', hp'⟩, csr', handler', pending', pcc', dead', mx', run', agent', owner', ident'⟩ := h'
  exact ⟨⟨hg'.trans hg, hv'.trans hv, hp'.trans hp⟩, csr'.trans csr, handler'.trans handler, pending'.trans pending, pcc'.trans pcc,
    dead'.trans dead, mx'.trans mx, run'.trans run, agent'.trans agent, owner'.trans owner, ident'.trans ident⟩

/-- A store, or an atomic, leaves of its agent all but the granules that it owns. -/
theorem Core.Kept.ownsOnly {s t : State} {x : Pfx} {rs : List RegNum} (h : (s.after x rs).ownsOnly t) :
    Core.Kept s.core t.core := by
  obtain ⟨own, hc⟩ := h
  refine (Core.Kept.after s x rs).trans ?_
  rw [hc]
  exact ⟨⟨rfl, rfl, rfl⟩, rfl, rfl, rfl, rfl, rfl, rfl, rfl, rfl, rfl, rfl⟩

section
variable {s t : State} {q : Addr}

theorem State.ends_core (t : State) (q : Addr) : (t.ends q).core = { t.core with pcc := t.core.pcc.setCursor q, wait := none } := rfl

@[simp] theorem GReg.cursor_setCursor (c : GReg) (q : Addr) : (c.setCursor q).cursor = q :=
  (extractLsb'_append_low (n := 80) (m := 48) (k := 0) (l := 48) _ _ (le_refl 48)).trans (by simp)
theorem GReg.rest_setCursor (c : GReg) (q : Addr) : (c.setCursor q).bits.extractLsb' 48 80 = c.bits.extractLsb' 48 80 :=
  (extractLsb'_append_high (n := 80) (m := 48) _ _ (le_refl 48)).trans (by simp)
@[simp] theorem State.ends_pc (t : State) (q : Addr) : (t.ends q).pc = q := by
  rw [State.pc, State.ends_core, GReg.cursor_setCursor]

/-- What an instruction that keeps its agent leaves, at its end. -/
theorem Core.Kept.untouched (h : Core.Kept s.core t.core) (q : Addr) : Untouched {} s (t.ends q) := by
  obtain ⟨⟨hg, hv, hp⟩, csr, handler, pending, pcc, dead, mx, mode⟩ := h
  constructor
  case pccRest =>
    rw [State.ends_core, pcc]
    exact ⟨GReg.rest_setCursor _ q, rfl⟩
  case mode => exact mode
  all_goals simp [State.g, State.v, State.p, State.ends_core, *]

theorem State.setG_core (t : State) (a : RegNum) (r : GReg) : ∃ g i k, (t.setG a r).core = { t.core with g := g, gInh := i, gPois := k } := by
  unfold State.setG
  split
  · exact ⟨t.core.g, t.core.gInh, t.core.gPois, rfl⟩
  · exact ⟨_, _, _, rfl⟩
theorem State.g_setG_other (t : State) {a n : RegNum} (r : GReg) (h : n ≠ a) : (t.setG a r).g n = t.g n := by
  have hne : a.toNat ≠ n.toNat := fun e => h (BitVec.eq_of_toNat_eq e.symm)
  by_cases ha : a = 0
  · rw [State.setG, if_pos ha]
  · rw [State.setG, if_neg ha]
    simp [State.g, hne]
theorem State.g_setG_self (t : State) {a : RegNum} (r : GReg) (h : a ≠ 0) : (t.setG a r).g a = r := by
  rw [State.setG, if_neg h, State.g, if_neg h]
  exact Vector.getElem_set_self _

/-- The same where it writes register A at its end. -/
theorem Core.Kept.untouched_setG (h : Core.Kept s.core t.core) (a : RegNum) (r : GReg) (q : Addr) :
    Untouched { g := [a] } s ((t.setG a r).ends q) := by
  obtain ⟨gs, i, k, hc⟩ := t.setG_core a r
  obtain ⟨⟨hg, hv, hp⟩, csr, handler, pending, pcc, dead, mx, mode⟩ := h
  constructor
  case g =>
    intro n hn
    have : n ≠ a := by simpa using hn
    refine (State.g_setG_other t r this).trans ?_
    simp only [State.g, hg]
  case pccRest =>
    rw [State.ends_core, hc]
    exact pcc ▸ ⟨GReg.rest_setCursor _ q, rfl⟩
  case mode =>
    rw [State.ends_core, hc]
    exact mode
  all_goals simp [State.v, State.p, State.ends_core, *]

end

end Sys2Proof.Machine
end

section
/-! SUPPORT. O8: the read and the write of an atomic at a checked place of the module's own memory (R90, R92). -/

namespace Sys2Proof.Machine
open Sys2Proof

/-! ## Values -/

theorem bytesOf_mod (n v : Nat) : bytesOf n (v % 2 ^ (8 * n)) = bytesOf n v := by
  induction n generalizing v with
  | zero => rfl
  | succ n ih =>
    have e : 2 ^ (8 * (n + 1)) = 256 * 2 ^ (8 * n) := by rw [Nat.mul_add, Nat.pow_add, Nat.mul_comm]
    have low : BitVec.ofNat 8 (v % (256 * 2 ^ (8 * n))) = BitVec.ofNat 8 v := by
      apply BitVec.eq_of_toNat_eq
      rw [BitVec.toNat_ofNat, BitVec.toNat_ofNat]
      exact Nat.mod_mul_right_mod v 256 _
    rw [bytesOf, bytesOf, e, low, Nat.mod_mul_right_div_self, ih]

theorem sextBytes_toInt {n : Nat} (h0 : 0 < n) (h8 : n ≤ 8) (v : Nat) : (sextBytes n v).toInt = signedOf n v := by
  have hle : 2 ^ (8 * n - 1) ≤ 2 ^ 63 := Nat.pow_le_pow_right (by decide) (by omega)
  have e : 2 ^ (8 * n) = 2 * 2 ^ (8 * n - 1) := by rw [← Nat.pow_succ']; congr 1; omega
  have hlt : v % 2 ^ (8 * n) < 2 ^ (8 * n) := Nat.mod_lt _ (by positivity)
  have bounds : -(2 ^ 63 : Int) ≤ signedOf n v ∧ signedOf n v < 2 ^ 63 := by
    unfold signedOf
    split_ifs <;> omega
  rw [sextBytes_eq h0 h8]
  exact BitVec.toInt_ofInt_eq_self (by decide) bounds.1 bounds.2

/-! ## The two accesses, adjacent at the home -/

section
variable {s : State} {p : Place} (h : s.plainMemory) (hp : p.inModule)
include h hp

theorem State.beforeWrite_plain (n : Nat) : (s.beforeWrite p n).plainMemory ∧ (s.beforeWrite p n).core = s.core := by
  obtain ⟨cs, ks, os, hu, -⟩ := s.beforeWrite_eq hp.2.1 n
  rw [hu]
  exact ⟨h, rfl⟩

/-- The write of an atomic at its home. -/
theorem State.atomicAt_stored {op : BitVec 3} {n old w cmp new : Nat} (hn : 0 < n) (hnew : atomicNew op n old w cmp = some new) :
    Stored s (s.atomicAt p op n old w cmp) p (bytesOf n new) false ∧ s.ownsOnly (s.atomicAt p op n old w cmp) := by
  obtain ⟨cs, ks, os, hu, hk⟩ := s.beforeWrite_eq hp.2.1 n
  obtain ⟨⟨-, -, hbad, -, hm, ht⟩, hcore⟩ := State.beforeWrite_plain h hp n
  have made : s.atomicAt p op n old w cmp
      = (s.beforeWrite p n).perform ((s.beforeWrite p n).flight p (bytesOf n new) false) := by
    unfold State.atomicAt
    rw [hnew]
  have stored := State.perform_stored (s := s.beforeWrite p n) p (bytes := bytesOf n new) (tag := false) hm ht hbad
    (by simpa using hn) nofun
  obtain ⟨own, ps, b, e⟩ := State.perform_eq (s := s.beforeWrite p n)
    (f := (s.beforeWrite p n).flight p (bytesOf n new) false) rfl hbad
  rw [made]
  refine ⟨stored.congr ?_ ?_ ?_ ?_ ?_ rfl rfl rfl, own, ?_⟩
  · rw [hu]
  · rw [hu]
  · rw [hu]
  · rw [hu]
  · rw [hu]; exact (State.keyOf_congr (s := s) hk p).symm
  · rw [e, ← hcore]

end

/-- R90, R130: an atomic that its home performs at once. -/
theorem State.atomic_here {s : State} {o : Sys2Proof.Ordering} {check : State → R (State × Place)} {p : Place} {op : BitVec 3}
    {n w cmp : Nat} (hb : s.core.begins = true) (h : s.plainMemory) (hp : p.inModule) (hc : check s = .ok (s.fillTlb p, p)) :
    s.atomic o check op n w cmp
      = .ok ((s.fillTlb p).atomicAt p op n (natOf (s.placeBytes p n)) w cmp, natOf (s.placeBytes p n)) := by
  have hq := State.fillTlb_quiet h.1 p
  obtain ⟨l, hl⟩ := s.fillTlb_eq p
  have hhold : (s.fillTlb p).hold = false := by rw [hl]; exact h.2.1
  have home : (s.fillTlb p).refusesAt (s.fillTlb p).core.owner (s.fillTlb p).core.ident.task p.loc p.va = false := by
    have past (c : BitVec 8) (t : BitVec 32) (d : BitVec 2) : (s.fillTlb p).pastFreeze c t d = false := by
      rw [hl]; exact h.2.2.2.1 c t d
    rw [State.refusesAt, past, Bool.and_false]
  have issue : (s.fillTlb p).issueAtomic o p op n w cmp
      = .ok ((s.fillTlb p).atomicAt p op n (natOf (s.placeBytes p n)) w cmp, natOf (s.placeBytes p n)) := by
    unfold State.issueAtomic
    simp only [hp.2.2.1, Place.notAway hp, State.orderBefore_quiet hq, State.beforeAccess_quiet hq, hhold, home,
      State.fillTlb_placeBytes, Bool.false_and, Bool.and_false, Bool.or_false, Bool.false_eq_true, if_false]
    rfl
  unfold State.atomic
  split
  · next rs hw => exact absurd hw (Core.begins_wait hb rs)
  · next hw => exact absurd hw (Core.begins_not_rmw hb _ _ _ _ _ _ _)
  · next hw => exact absurd hw (Core.begins_not_rmw hb _ _ _ _ _ _ _)
  · rw [hc]
    exact issue

section
variable {s : State} {x : Pfx} {o : Sys2Proof.Ordering} {wide : Bool} {a b c : RegNum} {off : Word} {p : Place}

/-- R90: the registers that an atomic reads; ACAS compares with A. -/
def atomicReads (op : BitVec 3) (a b c : RegNum) : List RegNum := if op = 7 then [b, c, a] else [b, c]

/-- R90: the operands of an atomic, once they are read. -/
def State.atomicOperands (s : State) (n : Nat) (a c : RegNum) : Nat × Nat :=
  ((s.gint c).toNat % 2 ^ (8 * n), (s.gint a).toNat % 2 ^ (8 * n))

/-- The body of an atomic that begins at a checked place. -/
theorem atomicBody_here {op : BitVec 3} {n : Nat} (hn : n = if wide then 8 else 4) (hb : s.core.begins = true)
    (hm : s.plainMemory) (hp : p.inModule) (hg : s.readable (atomicReads op a b c))
    (ha : s.access (memAccess (s.g b) b (eaOf (s.g b) off) n).atomic = .ok p) :
    let old := natOf (s.placeBytes p n)
    let u := (s.after x (atomicReads op a b c)).fillTlb p
    atomicBody op o wide a b c off (s.tookPfx x) = .ok
      ((u.atomicAt p op n old (s.atomicOperands n a c).1 (s.atomicOperands n a c).2).setInt a (sextBytes n old)) := by
  subst hn
  dsimp only
  have hm' := State.after_plainMemory hm x (atomicReads op a b c)
  unfold atomicBody
  show ((s.tookPfx x).useG (atomicReads op a b c) >>= _) = _
  rw [State.useG_after hg]
  show (State.atomic (s.after x (atomicReads op a b c)) o
    (fun s' => s'.check (memAccess ((s.after x (atomicReads op a b c)).g b) b _ _).atomic) op _ _ _ >>= _) = _
  rw [State.after_g, State.after_gint, State.after_gint,
    State.atomic_here (State.after_begins hb x _) hm' hp (State.check_eq ((s.after_access x (atomicReads op a b c) _).trans ha)),
    State.after_placeBytes]
  rfl

variable (hr : s.runs x) (hm : s.plainMemory) (hp : p.inModule) (hb : s.core.begins = true)

/-- What the walk of a checked place buffers is no part of memory. -/
theorem Stored.after_fillTlb {t : State} {bytes : List Byte} {tag : Bool} {rs : List RegNum} {q : Place}
    (h : Stored ((s.after x rs).fillTlb q) t p bytes tag) : Stored (s.after x rs) t p bytes tag := by
  obtain ⟨l, hl⟩ := (s.after x rs).fillTlb_eq q
  refine h.congr ?_ ?_ ?_ ?_ ?_ rfl rfl rfl <;> rw [hl]
  rfl

/-- The same of what registers inherit. -/
theorem Stored.after {t : State} {bytes : List Byte} {tag : Bool} {rs : List RegNum}
    (h : Stored (s.after x rs) t p bytes tag) : Stored s t p bytes tag := by
  obtain ⟨m, k, e⟩ := s.after_eq x rs
  refine h.congr ?_ ?_ ?_ ?_ ?_ rfl rfl rfl <;> rw [e]
  rfl

/-- Memory once an instruction has written a register and ended. -/
theorem State.setG_ends_memory (t : State) (a : RegNum) (r : GReg) (q : Addr) :
    ((t.setG a r).ends q).mem = t.mem ∧ ((t.setG a r).ends q).tags = t.tags ∧ ((t.setG a r).ends q).colours = t.colours
      ∧ ((t.setG a r).ends q).flights = t.flights ∧ ((t.setG a r).ends q).timed = t.timed := by
  simp [State.ends]

include hr hm hp hb

/-- R90: an atomic that writes: its place holds the new value, A the old one, and nothing else has changed. -/
theorem exec_atomic_writes {i : Instr} {op : BitVec 3} {n new : Nat} {bytes : List Byte} (hn : n = if wide then 8 else 4)
    (hg : s.readable (atomicReads op a b c)) (ha : s.access (memAccess (s.g b) b (eaOf (s.g b) off) n).atomic = .ok p)
    (hi : exec i s = scalarOp x s (atomicBody op o wide a b c off))
    (hnew : atomicNew op n (natOf (s.placeBytes p n)) (s.atomicOperands n a c).1 (s.atomicOperands n a c).2 = some new)
    (hbytes : bytesOf n new = bytes) :
    ∃ t, exec i s = .next t ∧ Stored s t p bytes false ∧ (a ≠ 0 → t.g a = intReg (sextBytes n (natOf (s.placeBytes p n))))
      ∧ Untouched { g := [a] } s t ∧ t.pc = s.next x := by
  have h0 : 0 < n := by rw [hn]; split <;> decide
  have hu : ((s.after x (atomicReads op a b c)).fillTlb p).plainMemory := by
    obtain ⟨l, hl⟩ := (s.after x (atomicReads op a b c)).fillTlb_eq p
    rw [hl]
    exact State.after_plainMemory hm x _
  obtain ⟨stored, owns⟩ := State.atomicAt_stored hu hp h0 hnew
  have kept : Core.Kept s.core (((s.after x (atomicReads op a b c)).fillTlb p).atomicAt p op n (natOf (s.placeBytes p n))
      (s.atomicOperands n a c).1 (s.atomicOperands n a c).2).core := by
    obtain ⟨own, hc⟩ := owns
    exact Core.Kept.ownsOnly (x := x) (rs := atomicReads op a b c) ⟨own, by rw [hc, State.fillTlb_core]⟩
  refine ⟨_, hi.trans (scalarOp_ok hr (atomicBody_here hn hb hm hp hg ha)), ?_, fun h => State.g_setG_self _ _ h,
    kept.untouched_setG a _ _, State.ends_pc _ _⟩
  subst hbytes
  obtain ⟨h1, h2, h3, -, -⟩ := State.setG_ends_memory (((s.after x (atomicReads op a b c)).fillTlb p).atomicAt p op n
    (natOf (s.placeBytes p n)) (s.atomicOperands n a c).1 (s.atomicOperands n a c).2) a (intReg (sextBytes n (natOf (s.placeBytes p n)))) (s.next x)
  exact (Stored.after (Stored.after_fillTlb stored)).congr rfl rfl rfl rfl rfl h1 h2 h3

/-- R90: a failed ACAS. -/
theorem exec_acas_fails {n : Nat} (hn : n = if wide then 8 else 4) (hg : s.readable [b, c, a])
    (ha : s.access (memAccess (s.g b) b (eaOf (s.g b) off) n).atomic = .ok p)
    (hold : natOf (s.placeBytes p n) ≠ (s.atomicOperands n a c).2) :
    ∃ t, exec (.acas x o wide a b c off) s = .next t ∧ SameMemory s t
      ∧ (a ≠ 0 → t.g a = intReg (sextBytes n (natOf (s.placeBytes p n)))) ∧ Untouched { g := [a] } s t ∧ t.pc = s.next x := by
  have keeps : ∀ u : State, u.atomicAt p 7 n (natOf (s.placeBytes p n)) (s.atomicOperands n a c).1 (s.atomicOperands n a c).2 = u := by
    intro u
    have none : atomicNew 7 n (natOf (s.placeBytes p n)) (s.atomicOperands n a c).1 (s.atomicOperands n a c).2 = none := if_neg hold
    unfold State.atomicAt
    rw [none]
  have body := atomicBody_here (o := o) (x := x) (op := 7) hn hb hm hp hg ha
  dsimp only at body
  rw [keeps] at body
  obtain ⟨l, hl⟩ := (s.after x (atomicReads 7 a b c)).fillTlb_eq p
  obtain ⟨m, k, e⟩ := s.after_eq x (atomicReads 7 a b c)
  have kept : Core.Kept s.core ((s.after x (atomicReads 7 a b c)).fillTlb p).core := by
    rw [State.fillTlb_core]
    exact Core.Kept.after s x _
  obtain ⟨h1, h2, h3, h4, h5⟩ := State.setG_ends_memory ((s.after x (atomicReads 7 a b c)).fillTlb p) a
    (intReg (sextBytes n (natOf (s.placeBytes p n)))) (s.next x)
  refine ⟨_, scalarOp_ok hr body, ?_, fun h => State.g_setG_self _ _ h, kept.untouched_setG a _ _, State.ends_pc _ _⟩
  rw [hl, e] at h1 h2 h3 h4 h5
  rw [hl, e]
  exact ⟨fun l => congrArg (memGet · l) h1, fun l => congrArg (setHas · (l / 16)) h2,
    fun l => congrArg (assocGetD · (l / 32) 0) h3, h4, h5⟩

end

end Sys2Proof.Machine

namespace Sys2Proof
open Sys2Proof.Machine

/-- Settles O8: every atomic runs one body, with the new value of its operation. -/
theorem atomicsReadModifyWrite : Obligations.AtomicsReadModifyWrite := by
  unfold Obligations.AtomicsReadModifyWrite
  intro s x o wide a b c off p hr hm hp hb hg n ha old w ends does
  have h0 : 0 < n := by show 0 < if wide then 8 else 4; split <;> decide
  have h8 : n ≤ 8 := by show (if wide then 8 else 4) ≤ 8; split <;> decide
  have value : intReg (sextBytes n old) = intReg (BitVec.ofInt 64 (signedOf n old)) := by rw [sextBytes_eq h0 h8]
  have writes {i : Instr} {op : BitVec 3} {new new' : Nat} (hg : s.readable (atomicReads op a b c))
      (hi : exec i s = scalarOp x s (atomicBody op o wide a b c off))
      (hnew : atomicNew op n old w ((s.gint a).toNat % 2 ^ (8 * n)) = some new) (hbytes : bytesOf n new = bytesOf n new') :
      does i new' := by
    have h := exec_atomic_writes hr hm hp hb rfl hg ha hi hnew hbytes
    rwa [value] at h
  have signed (v : Nat) : (sextBytes n v).toInt = signedOf n v := sextBytes_toInt h0 h8 v
  refine ⟨writes (op := 0) hg rfl rfl (bytesOf_mod n _), writes (op := 1) hg rfl rfl rfl, writes (op := 2) hg rfl rfl rfl,
    writes (op := 3) hg rfl rfl rfl, ?amin, ?amax, writes (op := 6) hg rfl rfl rfl, fun hga => ?acas⟩
  case amin =>
    refine writes (op := 4) hg rfl rfl ?_
    rw [signed, signed]
  case amax =>
    refine writes (op := 5) hg rfl rfl ?_
    rw [signed, signed]
  case acas =>
    have hgs : s.readable [b, c, a] := fun m hm => (List.mem_append.mp (show m ∈ [b, c] ++ [a] from hm)).elim (hg m) (hga m)
    refine ⟨fun heq => writes (op := 7) hgs rfl (if_pos heq) rfl, fun hne => ?_⟩
    have h := exec_acas_fails (o := o) hr hm hp hb rfl hgs ha hne
    rwa [value] at h

end Sys2Proof
end

section
/-! SUPPORT. O10: a state in which PUSHS stores its first slot and is refused its second. -/

namespace Sys2Proof.Machine
open Sys2Proof

/-! ## Two records of one agent

The security core's program pushes two registers to host memory, where its context may write. Beside it stands a second record of
the security core, of an item of a context that has no function. A write of that item, on its way to the first slot, meets a bad
check word. -/

/-- The page of host memory that holds the slots, as the security core's buffer holds it. -/
def sumpLeaf : Leaf :=
  { owner := 0, enc := 0, coloured := false, sc := false, x := false, w := true, r := true, host := true, peer := 0, pa := 0,
    size := 0x200000 }

/-- The program in focus: its stack pointer stands at 0x2000 of the page. -/
def sumpCore : Core := { Core.security with g := Core.security.g.set 29 (allSpace.setCursor 0x400000002000) }

/-- The second record: an item of context 1. -/
def twinCore : Core := { Core.idle .security with run := .item, owner := 1 }

/-- The write of that item, of one byte of the first slot's sector. -/
def twinFlight : Flight :=
  { loc := 0x200000001FE0, bytes := [1], cap := false, key := none, colour := none, agent := .security, ticket := 0,
    origin := ⟨.core ⟨0, 0⟩, 1, 0, 0, 0, 0, 0⟩, fn := 0, port := none, va := 0, pc := 0 }

/-- Context 0, whose function may master the bus. -/
def sumpCtx : Ctx :=
  { num := 0, serial := 0, fn := 0, root := 0, counters := [], quota := 0, charged := 0, nextTask := 1, accession := 0,
    internal := [], mounts := [], lastSlot := none, area := 0, areaPa := 0, trace := 0, tracePa := 0, traceLog := 0,
    written := 0, migrating := none }

def twinState : State :=
  { State.reset with
    core := sumpCore, parked := [twinCore], tlb := [⟨.micro .security, 0, 0x400000000000, sumpLeaf⟩], flights := [twinFlight],
    bad := [0x200000001FE0 / 32], contexts := [(0, sumpCtx)], fns := [(0, { Fn.reset with master := true })] }

/-- Without a PFX word. -/
def barePfx : Pfx := ⟨0, false, false, false, 0, false, false⟩

/-- The state once PUSHS of g1 and g2 has read its registers, and the places of its two slots, which pass their checks. -/
def twinRead : State := twinState.after barePfx [29, 1, 2]
def twinPlace (a : Addr) (loc : Nat) : Place := ⟨a, .host, loc, some sumpLeaf, .live, none, false⟩
def twinPlaces : List Place := [twinPlace 0x400000001FE0 0x200000001FE0, twinPlace 0x400000001FF0 0x200000001FF0]

theorem twinRead_checks : twinRead.checkEach (slotAccesses (twinState.g 29) 0x400000001FE0 (fun v a => a.storeCap v.tag) [.null, .null])
    = .ok (twinRead, twinPlaces) := by
  rfl

/-- The store of the first slot comes after the write on its way, which cannot be made; the report of that puts the second record
of the security core in focus, and its context has no function that may master the bus. So the second slot is refused, and
nothing in firmware takes the fault. -/
theorem exec_twinPushs : ∃ t, exec (.pushs barePfx 1 2) twinState = .next t ∧ t.core.run = .halted :=
  ⟨_, rfl, rfl⟩

end Sys2Proof.Machine

namespace Sys2Proof
open Sys2Proof.Machine

/-- Refutes O10, in its clause about a PUSHS whose slots all pass their checks. The clause asks once, before the first store,
whether the context in focus may master the bus; the model asks before each store, and where two records bear the number of the
agent in focus, a fault reported meanwhile puts the other one, of another context, in focus. -/
theorem not_sumpMovesAreAllOrNothing : ¬ Obligations.SumpMovesAreAllOrNothing := by
  unfold Obligations.SumpMovesAreAllOrNothing
  intro h
  obtain ⟨-, hmoves⟩ := h twinState barePfx 1 2 nofun
  obtain ⟨hpushes, -⟩ := hmoves (by decide) (.inr (by decide))
  obtain ⟨hstores, -⟩ := hpushes fun n _ => .inr (BitVec.getLsbD_zero)
  obtain ⟨hall, -⟩ := hstores twinRead twinPlaces twinRead_checks
  have hclaim := hall (.inl rfl) (by decide)
  obtain ⟨t, hexec, hhalted⟩ := exec_twinPushs
  cases hclaim.symm.trans hexec
  cases hhalted

end Sys2Proof
end

section
/-! SUPPORT. O57: an agent that waits for a request which neither the host nor a peer is asked for. -/

namespace Sys2Proof.Machine
open Sys2Proof

/-- A load of one byte of device memory that has not been answered. -/
def strayRequest : Request :=
  { loc := 0, va := 0, n := 1, fn := 0, key := none, home := none, atomic := none, answer := none }

/-- The security core waits for it, as an instruction waits for the host. -/
def strayState : State := { State.reset with core := { Core.security with wait := some (.host [strayRequest]) } }

/-- A completion is looked for among the requests that the host or a peer has (R346), and there is none. -/
theorem strayState_asker : strayState.asker .security = none := by
  rfl

end Sys2Proof.Machine

namespace Sys2Proof
open Sys2Proof.Machine

/-- Refutes O57, in its clause about the request that an agent's own wait answers first. The clause takes the first request
without an answer, wherever it leads; the model takes the first such request to the host or to a peer. -/
theorem not_fabricAndHostAnswer : ¬ Obligations.FabricAndHostAnswer := by
  unfold Obligations.FabricAndHostAnswer
  intro h
  obtain ⟨-, -, hself, -⟩ := h
  obtain ⟨hasker, -⟩ := hself strayState .security [] [] strayRequest rfl nofun rfl nofun
  cases strayState_asker.symm.trans hasker

end Sys2Proof
end

section
/-! SUPPORT. O9: a timed store accepted (R89, R216, R217). -/

namespace Sys2Proof.Machine
open Sys2Proof

/-- What reads registers and what buffers translations decide nothing about when a place can be reached. -/
theorem State.latency_read (s : State) (x : Pfx) (rs : List RegNum) (q p : Place) :
    ((s.after x rs).fillTlb q).latency p = s.latency p ∧ ((s.after x rs).fillTlb q).now = s.now := by
  obtain ⟨m, k, h⟩ := s.after_eq x rs
  obtain ⟨l, hl⟩ := (s.after x rs).fillTlb_eq q
  rw [hl, h]
  exact ⟨rfl, rfl⟩

section
variable {s : State} {p : Place} {t : Tick} {lat : Nat}

/-- R216: the test of one place, case by case. -/
theorem State.feasible_ok (h : s.latency p = some lat) (hl : s.now.toNat + lat ≤ t.toNat) : s.feasible p t = .ok lat := by
  rw [State.feasible, h]
  exact if_pos hl
theorem State.feasible_late (h : s.latency p = some lat) (hl : t.toNat < s.now.toNat + lat) :
    s.feasible p t = .error ⟨cDLINF, p.va.setWidth 64, dlinfDetail t s.now (some lat)⟩ := by
  rw [State.feasible, h]
  exact if_neg (by omega)
theorem State.feasible_nowhere (h : s.latency p = none) :
    s.feasible p t = .error ⟨cDLINF, p.va.setWidth 64, dlinfDetail t s.now none⟩ := by
  rw [State.feasible, h]

/-- What the acceptance of a timed store leaves: memory as it was, and the store last among the timed ones, with its value, its
time and its tag, on its way or held at its home. -/
structure TimedAccepted (s u : State) (p : Place) (bytes : List Byte) (tag : Bool) (t : Tick) : Prop where
  mem   : u.mem = s.mem
  kept  : Core.Kept s.core u.core
  joins : ∃ y, u.timed = s.timed ++ [y] ∧ y.loc = p.loc ∧ y.bytes = bytes ∧ y.t = t ∧ y.cap = (tag && holdsTags p.loc)
    ∧ (s.hold = false → y.arrival.isSome = true)

theorem State.acceptTimed_accepts (hp : p.copy = false) (bytes : List Byte) (tag : Bool) (t : Tick) (element lat : Nat) :
    TimedAccepted s ((s.acceptTimed p bytes tag t element lat).issuedOne) p bytes tag t := by
  obtain ⟨cs, ks, os, hu, -⟩ := s.beforeWrite_eq hp bytes.length
  unfold State.acceptTimed
  rw [hu]
  refine ⟨rfl, ⟨⟨rfl, rfl, rfl⟩, rfl, rfl, rfl, rfl, rfl, rfl, rfl, rfl, rfl, rfl⟩, _, rfl, rfl, rfl, rfl, rfl, fun h => ?_⟩
  dsimp only
  rw [h]
  rfl

/-- R126, R133: an ordered acceptance finds nothing on its way where every timed store has arrived. -/
theorem State.acceptedAfter_arrived {o : Sys2Proof.Ordering} (h : (o.ord.getLsbD 0 || p.sc) = true → ∀ y ∈ s.timed, y.arrival.isSome = true) :
    s.acceptedAfter o p = s := by
  unfold State.acceptedAfter
  split
  · next ho =>
    have all := h ho
    unfold State.arriveAll
    split
    · rfl
    · rw [s.arrivals_held _ s.timed all]
      simp
  · rfl

/-- What STAT does with an access that passes its checks. -/
def State.statAt (s : State) (o : Sys2Proof.Ordering) (p : Place) (bytes : List Byte) (tag : Bool) (t : Tick) (n : Nat) : R State :=
  match s.feasible p t with
  | .error e => .error (.trap e)
  | .ok lat => .ok ((((s.orderBefore o).beforeAccess p n).acceptTimed p bytes tag t 0 lat).issuedOne.acceptedAfter o p)

/-- R216, R217: a feasible store is accepted; an ordered one waits for no other, all having arrived. -/
theorem State.statAt_accepts {o : Sys2Proof.Ordering} {bytes : List Byte} {tag : Bool} {n : Nat} (hq : s.quiet) (hp : p.copy = false)
    (h : s.feasible p t = .ok lat) (ho : s.hold = false ∨ o.ord.getLsbD 0 = false ∧ p.sc = false) :
    ∃ u, s.statAt o p bytes tag t n = .ok u ∧ TimedAccepted s u p bytes tag t := by
  have accepts := State.acceptTimed_accepts (s := s) hp bytes tag t 0 lat
  obtain ⟨y, joins, -, -, -, -, arrives⟩ := accepts.joins
  have arrived : (o.ord.getLsbD 0 || p.sc) = true →
      ∀ z ∈ ((s.acceptTimed p bytes tag t 0 lat).issuedOne).timed, z.arrival.isSome = true := by
    intro hord z hz
    rw [joins, List.mem_append, List.mem_singleton] at hz
    rcases hz with hz | rfl
    · exact hq.2.2 z hz
    · refine arrives (ho.resolve_right ?_)
      rintro ⟨h1, h2⟩
      rw [h1, h2] at hord
      cases hord
  refine ⟨_, ?_, accepts⟩
  rw [State.statAt, h, State.orderBefore_quiet hq, State.beforeAccess_quiet hq]
  exact congrArg Except.ok (State.acceptedAfter_arrived arrived)

/-- What reads registers and what buffers translations counts for nothing in what was accepted. -/
theorem TimedAccepted.of_after {u : State} {x : Pfx} {rs : List RegNum} {q : Place} {bytes : List Byte} {tag : Bool}
    (h : TimedAccepted ((s.after x rs).fillTlb q) u p bytes tag t) : TimedAccepted s u p bytes tag t := by
  obtain ⟨m, k, hs⟩ := s.after_eq x rs
  obtain ⟨l, hl⟩ := (s.after x rs).fillTlb_eq q
  obtain ⟨mem, kept, joins⟩ := h
  rw [State.fillTlb_core] at kept
  refine ⟨mem.trans ?_, (Core.Kept.after s x rs).trans kept, ?_⟩
  · rw [hl, hs]
  · rw [hl, hs] at joins
    exact joins

end

section
variable {s : State} {x : Pfx} {o : Sys2Proof.Ordering} {sz : BitVec 3} {a b c : RegNum} {off : Word} {p : Place}
  (hg : s.readable [b, a, c])
  (ha : s.access ((memAccess (s.g b) b (eaOf (s.g b) off) (timedSize sz)).storeCap (sz = 4 && (s.g a).tag)) = .ok p)

/-- The bytes and the tag that STAT stores. -/
def State.timedBytes (s : State) (sz : BitVec 3) (a : RegNum) : List Byte := bytesOf (timedSize sz) (s.g a).bits.toNat

include hg ha

/-- STAT once its registers have been read and its access checked. -/
theorem exec_stat : ∃ body, exec (.stat x o sz a b c off) s = scalarOp x s body ∧ body (s.tookPfx x) =
    ((s.after x [b, a, c]).fillTlb p).statAt o p (s.timedBytes sz a) (sz = 4 && (s.g a).tag) (s.gint c) (timedSize sz) := by
  refine ⟨_, rfl, ?_⟩
  rw [State.useG_after hg]
  show (State.check (s.after x [b, a, c]) (Access.storeCap (memAccess ((s.after x [b, a, c]).g b) b _ _) _) >>= _) = _
  rw [State.after_g, State.after_g, State.check_eq ((s.after_access x _ _).trans ha)]
  have ht : ((s.after x [b, a, c]).fillTlb p).gint c = s.gint c := by
    rw [State.gint, State.g, State.fillTlb_core]
    exact s.after_gint x _ c
  rw [← ht]
  rfl

/-- R216: STAT raises the fault of the test. -/
theorem raises_stat_infeasible {e : Trap} (hr : s.runs x) (h : ((s.after x [b, a, c]).fillTlb p).feasible p (s.gint c) = .error e) :
    raises (.stat x o sz a b c off) s e := by
  obtain ⟨body, hi, hb⟩ := exec_stat (x := x) (o := o) hg ha
  refine hi.trans (scalarOp_trap hr (hb.trans ?_))
  rw [State.statAt, h]

/-- R216, R217: a feasible STAT. -/
theorem exec_stat_accepted {lat : Nat} (hr : s.runs x) (hq : s.quiet) (hp : p.copy = false)
    (h : ((s.after x [b, a, c]).fillTlb p).feasible p (s.gint c) = .ok lat)
    (ho : s.hold = false ∨ o.ord.getLsbD 0 = false ∧ p.sc = false) :
    ∃ u, exec (.stat x o sz a b c off) s = .next (u.ends (s.next x))
      ∧ TimedAccepted s u p (s.timedBytes sz a) (sz = 4 && (s.g a).tag) (s.gint c) := by
  obtain ⟨body, hi, hb⟩ := exec_stat (x := x) (o := o) hg ha
  obtain ⟨m, k, hs⟩ := s.after_eq x [b, a, c]
  obtain ⟨l, hl⟩ := (s.after x [b, a, c]).fillTlb_eq p
  have hold : ((s.after x [b, a, c]).fillTlb p).hold = s.hold := by rw [hl, hs]
  obtain ⟨u, hu, accepted⟩ := State.statAt_accepts (o := o) (State.fillTlb_quiet (State.after_quiet hq x _) p) hp h (hold.symm ▸ ho)
  exact ⟨u, hi.trans (scalarOp_ok hr (hb.trans hu)), accepted.of_after⟩

end

end Sys2Proof.Machine
end

section
/-! SUPPORT. A place that the checks of R59 answer is found there again (R62, R146, R220). -/

namespace Sys2Proof.Machine
open Sys2Proof

/-- A check that passes after another: both pass. -/
theorem bind_ok {ε α β : Type} {x : Except ε α} {f : α → Except ε β} {b : β} (h : x >>= f = .ok b) : ∃ a, x = .ok a ∧ f a = .ok b := by
  cases x with
  | error e => cases h
  | ok a => exact ⟨a, rfl, h⟩

/-- What holds after a join point holds after whatever comes before it. -/
theorem of_bind_ok {ε α β : Type} {x : Except ε α} {f : α → Except ε β} {b : β} {P : Prop} (hf : ∀ r, f r = .ok b → P)
    (h : x >>= f = .ok b) : P := by
  obtain ⟨r, -, hr⟩ := bind_ok h
  exact hf r hr

/-- R59: what the checks answer is the place that step 7 found; the steps after it, read from the last join point back, only
let it pass. -/
theorem State.access_resolves {s : State} {a : Access} {p : Place} (h : s.access a = .ok p) : ∃ rd va, s.resolve a.x rd va = .ok p := by
  unfold State.access at h
  obtain ⟨⟨va, rd⟩, -, h⟩ := bind_ok h
  dsimp -zeta -zetaHave only at h
  extract_lets colour checks at h
  have keeps (q : Place) (hq : checks q = .ok p) : q = p := by
    unfold checks at hq
    extract_lets coloured data colours leaf at hq
    have hdata (r) (hr : data r = .ok p) : q = p := by
      obtain ⟨-, -, hr⟩ := bind_ok hr
      exact Except.ok.inj hr
    have hcolours (r) (hr : colours r = .ok p) : q = p := by
      unfold colours at hr
      split at hr
      · split at hr <;> exact of_bind_ok hdata hr
      · exact of_bind_ok hdata hr
    have hleaf (r) (hr : leaf r = .ok p) : q = p := by
      unfold leaf at hr
      split at hr
      · obtain ⟨-, -, hr⟩ := bind_ok hr
        exact of_bind_ok hcolours hr
      · obtain ⟨-, -, hr⟩ := bind_ok hr
        obtain ⟨-, -, hr⟩ := bind_ok hr
        obtain ⟨-, -, hr⟩ := bind_ok hr
        split at hr
        · split at hr <;> exact of_bind_ok hcolours hr
        · exact of_bind_ok hcolours hr
      · exact of_bind_ok hcolours hr
    split at hq
    · split at hq <;> exact of_bind_ok hleaf hq
    · exact of_bind_ok hleaf hq
  split at h
  · next q hr =>
    exact ⟨rd, va, hr.trans (congrArg Except.ok (keeps q h))⟩
  · cases h

/-- What a zone of the address map says of its addresses. -/
def Zone.fits (va : Nat) : Zone → Prop
  | .direct region _ => region ≠ .mount
  | .sram _ | .dev | .window => inMount va = false
  | .mount _ _ => inMount va = true
  | .nowhere => True

theorem inMount_below {va : Nat} (h : va < 0x20000000000) : inMount va = false := by
  simp [inMount, Nat.not_le.2 h]

theorem State.regionZone_fits (s : State) (va : Nat) : (s.regionZone va).fits va := by
  unfold State.regionZone
  split
  · exact nofun
  split
  · split
    · exact nofun
    · trivial
  split
  · split
    · exact nofun
    · trivial
  split
  · next h =>
    split
    · simp only [inSram, Bool.and_eq_true, decide_eq_true_eq] at h
      exact inMount_below (by omega)
    · trivial
  split
  · next h =>
    simp only [inDev, Bool.and_eq_true, decide_eq_true_eq] at h
    exact inMount_below (by omega)
  split
  · next h => exact h
  · next h =>
    split
    · exact Bool.eq_false_iff.2 h
    · trivial

theorem State.zone_fits (s : State) (f : Bool) (va : Nat) : (s.zone f va).fits va := by
  unfold State.zone
  split
  · split
    · split
      · exact nofun
      · trivial
    · exact s.regionZone_fits va
  · exact s.regionZone_fits va

/-- The place is read where a mount or an overlay of the context puts it now, not at its home. -/
def State.moves (s : State) (va : Addr) : Bool :=
  inMount va.toNat || (s.overlay.bind fun o => layerLeaf s.fitted va.toNat o.space).isSome

theorem State.translate_va {s : State} {va : Addr} {p : Place} (h : s.translate va = .ok p) : p.va = va := by
  unfold State.translate at h
  extract_lets v finish own at h
  have hown (ho : own = .ok p) : p.va = va := by
    unfold own at ho
    cases hl : s.ownLeaf v with
    | error e => rw [hl] at ho; cases ho
    | ok l => rw [hl] at ho; cases ho; rfl
  split at h
  · exact hown h
  · split at h
    · exact hown h
    · split at h
      · cases h; rfl
      · split at h <;> cases h <;> rfl

theorem State.translate_live {s : State} {va : Addr} {p : Place} (h : s.translate va = .ok p)
    (hm : (s.overlay.bind fun o => layerLeaf s.fitted va.toNat o.space) = none) : p.store = .live ∧ p.region ≠ .mount := by
  unfold State.translate at h
  extract_lets v finish own at h
  have hown (ho : own = .ok p) : p.store = .live ∧ p.region ≠ .mount := by
    unfold own at ho
    cases hl : s.ownLeaf v with
    | error e => rw [hl] at ho; cases ho
    | ok l =>
      rw [hl] at ho
      cases ho
      refine ⟨rfl, ?_⟩
      dsimp only [finish]
      split
      · exact nofun
      · split
        · exact nofun
        · split <;> exact nofun
  split at h
  · exact hown h
  · next o ho =>
    rw [ho] at hm
    split at h
    · exact hown h
    · next hl => exact absurd (hl.symm.trans hm) nofun

/-- What an overlay maps is found through it, not through the buffers. -/
theorem State.translate_moved {s : State} {va : Addr} (l : List TlbEntry) {x}
    (hm : (s.overlay.bind fun o => layerLeaf s.fitted va.toNat o.space) = some x) :
    ({ s with tlb := l } : State).translate va = s.translate va := by
  unfold State.translate
  rw [show ({ s with tlb := l } : State).overlay = s.overlay from rfl, show ({ s with tlb := l } : State).fitted = s.fitted from rfl]
  obtain ⟨o, ho, hl⟩ := Option.bind_eq_some_iff.1 hm
  simp only [ho, hl]

/-- R371: a place stands where it was asked for. -/
theorem State.mountPlace_va {s : State} {va : Addr} {slot off : Nat} {p : Place} (h : s.mountPlace va slot off = .ok p) : p.va = va := by
  unfold State.mountPlace at h
  extract_lets c at h
  split at h
  · cases h
  · extract_lets place at h
    split at h
    · cases h; rfl
    · split at h
      · split at h
        · cases h; rfl
        · cases h
      · cases h

/-- R67: a redirected access finds the place that a plain one there finds. -/
theorem State.resolve_redirected {s : State} {f rd : Bool} {va : Addr} {p : Place} (h : s.resolve f rd va = .ok p) :
    s.resolve f false va = .ok p := by
  cases rd with
  | false => exact h
  | true =>
    unfold State.resolve at h ⊢
    cases hz : s.zone f va.toNat with rw [hz] at h
    | dev => exact h
    | direct _ _ | sram _ | mount _ _ | window | nowhere => cases h

section
variable {s : State} {f : Bool} {va : Addr} {p : Place} (h : s.resolve f false va = .ok p)
include h

theorem State.resolve_va : p.va = va := by
  unfold State.resolve at h
  cases hz : s.zone f va.toNat with rw [hz] at h
  | direct _ _ => cases h; rfl
  | sram _ | dev | window => exact State.translate_va h
  | mount _ _ => exact State.mountPlace_va h
  | nowhere => cases h

/-- A place that neither a mount nor an overlay moves is memory as it stands. -/
theorem State.resolve_live (hm : s.moves va = false) : p.store = .live ∧ p.region ≠ .mount := by
  have fits := s.zone_fits f va.toNat
  obtain ⟨unmounted, own⟩ := Bool.or_eq_false_iff.1 hm
  have own := Option.not_isSome_iff_eq_none.1 (Bool.eq_false_iff.1 own)
  unfold State.resolve at h
  cases hz : s.zone f va.toNat with rw [hz] at h fits
  | direct _ _ => cases h; exact ⟨rfl, fits⟩
  | sram _ | dev | window => exact State.translate_live h own
  | mount _ _ => cases unmounted.symm.trans fits
  | nowhere => cases h

/-- A place that a mount or an overlay moves is found there again, whatever the buffers hold by then. -/
theorem State.resolve_again (hm : s.moves va = true) (l : List TlbEntry) : ({ s with tlb := l } : State).resolve f false va = .ok p := by
  have fits := s.zone_fits f va.toNat
  have translated (hu : inMount va.toNat = false) : ({ s with tlb := l } : State).translate va = s.translate va := by
    rw [State.moves, hu, Bool.false_or] at hm
    obtain ⟨y, hy⟩ := Option.isSome_iff_exists.1 hm
    exact State.translate_moved l hy
  unfold State.resolve at h ⊢
  rw [show ({ s with tlb := l } : State).zone = s.zone from rfl]
  cases hz : s.zone f va.toNat with rw [hz] at h fits
  | direct _ _ | mount _ _ => exact h
  | sram _ | dev | window => exact (translated fits).trans h
  | nowhere => cases h

end

theorem State.placeTag_live {s : State} {p : Place} (hp : p.store = .live ∧ p.region ≠ .mount) : s.placeTag p =
    (holdsTags p.loc && s.tagAt p.loc && !(match s.keyOf p with | some k => s.foreignLine k p.loc | none => false)) := by
  obtain ⟨live, unmounted⟩ := hp
  unfold State.placeTag
  rw [live]
  cases hr : p.region with
  | mount => exact absurd hr unmounted
  | tcm | spad | sram | dev | window | host | peer _ => rfl

/-- R220: a not-before load that is read now, of a place that its checks have just answered, reads the place. -/
theorem State.readRequest_place {s : State} {va : Addr} {p : Place} (h : s.resolve false false va = .ok p) (l : List TlbEntry)
    {r : Request} (hr : r.va = va ∧ r.loc = p.loc ∧ r.key = s.keyOf p) :
    ({ s with tlb := l } : State).readRequest r = ({ s with tlb := l } : State).readLocal p r.n := by
  obtain ⟨hva, hloc, hkey⟩ := hr
  unfold State.readRequest
  extract_lets home moved
  have hmoved : moved = s.moves va := by subst hva; rfl
  rw [hmoved, hva]
  cases hm : s.moves va with
  | true => rw [State.resolve_again h hm l]
  | false =>
    have live := State.resolve_live h hm
    dsimp only [home]
    rw [hkey, hloc, State.readLocal, State.placeTag_live live, State.placeBytes, live.1]
    rw [show ({ s with tlb := l } : State).keyOf p = s.keyOf p from rfl]
    cases s.keyOf p with
    | some k => rfl
    | none => simp

end Sys2Proof.Machine
end

section
/-! SUPPORT. O9: a not-before load (R220). -/

namespace Sys2Proof.Machine
open Sys2Proof

/-- R220: the zone whose time a not-before load of the place waits for. -/
def State.zoneTime (s : State) (p : Place) : Tick :=
  match s.homeDie p with
  | some d => (s.dieAt d).atime
  | none => s.now

section
variable {s : State} {p : Place} {n : Nat}

theorem State.requestAfter_away (hp : isAway p.loc = true) (hd : s.homeDie p = none) : s.requestAfter (p, n) = s.request p n none := by
  unfold State.requestAfter State.request
  rw [hp, hd]
  rfl
theorem State.requestAfter_home {d : BitVec 2} (hp : isAway p.loc = false) (hd : s.homeDie p = some d) :
    s.requestAfter (p, n) = s.request p n none := by
  unfold State.requestAfter State.request
  rw [hp, hd]
  rfl
theorem State.requestAfter_zone (hp : isAway p.loc = false) :
    ∃ d, (s.requestAfter (p, n)).home = some d ∧ (s.dieAt d).atime = s.zoneTime p := by
  unfold State.requestAfter State.zoneTime
  rw [hp]
  refine ⟨_, rfl, ?_⟩
  cases s.homeDie p <;> rfl

variable {t : Tick} {r : Request} (hl : s.lateTrap t [r] = none) (hn : r.answer = none)
include hl hn

/-- R220: a load whose home's zone has not reached the time, or whose home is a peer's, waits. -/
theorem State.awaitDue_waits (hd : ∀ d, r.home = some d → ¬ t ≤ (s.dieAt d).atime) : s.awaitDue t [r] = .error (.hold s (.notBefore t [r])) := by
  have still : s.readDue t [r] = [r] := by
    simp only [State.readDue, List.map_cons, List.map_nil, hn]
    cases hr : r.home with
    | none => rfl
    | some d => simp only [if_neg (hd d hr)]
  simp only [State.awaitDue, hl, still, List.any_cons, List.any_nil, hn]
  rfl
/-- R220: a load whose home's zone has reached the time is performed. -/
theorem State.awaitDue_reads {d : BitVec 2} {bytes : List Byte} {tag : Bool} (hr : r.home = some d) (hd : t ≤ (s.dieAt d).atime)
    (hv : s.readRequest r = .local bytes tag) : s.awaitDue t [r] = .ok (s, [(bytes, tag)]) := by
  have read : s.readDue t [r] = [{ r with answer := some (.local bytes tag) }] := by
    simp only [State.readDue, List.map_cons, List.map_nil, hn, hr, if_pos hd, hv]
  simp only [State.awaitDue, hl, read, List.any_cons, List.any_nil]
  rfl

end

/-- R220: where no place lies at a home and the time is to come, LDNB waits at the core; otherwise its load goes on to its home. -/
theorem State.loadsAfter_one {s u : State} {o : Sys2Proof.Ordering} {t : Tick} {p : Place} {n : Nat}
    {check : State → R (State × List (Place × Nat))} (hb : s.core.begins = true) (h : check s = .ok (u, [(p, n)])) (hq : u.quiet)
    (hi : isPeerLoc p.loc = true → u.issueAway p = .ok ()) :
    s.loadsAfter o t check = if u.now < t && !u.timedHome p then .error (.wait (.notBefore t []))
      else u.awaitDue t [u.requestAfter (p, n)] := by
  have issued : u.issuePeers [(p, n)] = .ok () := by
    unfold State.issuePeers
    split
    · next hp => rw [hi hp]; rfl
    · rfl
  unfold State.loadsAfter
  split
  · next r rs hw => exact absurd hw (Core.begins_not_reading hb _ r rs)
  · rw [h]
    show (if _ then _ else _) = _
    simp only [List.isEmpty_cons, List.any_cons, List.any_nil, Bool.or_false, Bool.not_false, Bool.and_true]
    split
    · rfl
    · rw [issued]
      show ((u.orderBefore o).beforeAll [(p, n)]).awaitDue _ _ = _
      rw [State.orderBefore_quiet hq]
      show (u.beforeAccess p n).awaitDue t [(u.beforeAccess p n).requestAfter (p, n)] = _
      rw [State.beforeAccess_quiet hq]

/-- The place that the checks of a load answer is found where it stands. -/
theorem State.access_found {s : State} {a : Access} {p : Place} (ha : s.access a = .ok p) (hx : a.x = false) :
    s.resolve false false p.va = .ok p := by
  obtain ⟨rd, va, h⟩ := State.access_resolves ha
  rw [hx] at h
  rw [State.resolve_va (State.resolve_redirected h)]
  exact State.resolve_redirected h

section
variable {s : State} {p : Place} (hf : s.resolve false false p.va = .ok p)
include hf

/-- R220: a place that has passed its checks gives its load no fault when it is read, but a host's that may not be reached. -/
theorem State.lateTrap_found (hh : isHostLoc p.loc = true → s.awayRefused s.core.owner p.loc = none) (t : Tick) (n : Nat) :
    (s.fillTlb p).lateTrap t [(s.fillTlb p).requestAfter (p, n)] = none := by
  simp only [State.lateTrap, Option.or_none]
  split
  · rfl
  · split
    · next h =>
      rw [State.fillTlb_awayRefused, State.fillTlb_core]
      show Option.map _ (s.awayRefused s.core.owner p.loc) = none
      rw [hh h]
      rfl
    · split
      · next h =>
        obtain ⟨l, hl⟩ := s.fillTlb_eq p
        have hm : s.moves p.va = true := Bool.or_eq_true_iff.2 (.inl h)
        have again : (s.fillTlb p).resolve false false p.va = .ok p := hl ▸ State.resolve_again hf hm l
        show (match (s.fillTlb p).resolve false false p.va with | .error d => _ | .ok _ => none) = none
        rw [again]
      · rfl

theorem State.readRequest_found (n : Nat) :
    (s.fillTlb p).readRequest ((s.fillTlb p).requestAfter (p, n)) = .local (s.placeBytes p n) (s.placeTag p) := by
  rw [← State.fillTlb_placeBytes s p, ← State.fillTlb_placeTag s p]
  obtain ⟨l, hl⟩ := s.fillTlb_eq p
  rw [hl]
  exact State.readRequest_place hf l ⟨rfl, rfl, rfl⟩
end

/-- A not-before load whose checks have passed: it waits at the core, or it goes on to its home. -/
def State.notBefore (s : State) (p : Place) (n : Nat) (t : Tick) : R (State × List (List Byte × Bool)) :=
  if s.now < t && !s.timedHome p then .error (.wait (.notBefore t [])) else s.awaitDue t [s.requestAfter (p, n)]

/-- What LDNB writes of what it has read. -/
def State.timedEnd (s : State) (size : BitVec 3) (a : RegNum) (cap : GReg) (bytes : List Byte) (tag : Bool) : State :=
  if size = 4 then s.setG a (loadCapValue cap bytes tag) else s.setInt a (sextBytes (timedSize size) (natOf bytes))

section
variable {s : State} {x : Pfx} {o : Sys2Proof.Ordering} {size : BitVec 3} {a b c : RegNum} {off : Word} {p : Place}
  (hq : s.quiet) (hb : s.core.begins = true) (hg : s.readable [b, c])
  (ha : s.access (memAccess (s.g b) b (eaOf (s.g b) off) (timedSize size)).load = .ok p)
include hq hb hg ha

/-- LDNB once its registers have been read and its access checked. -/
theorem exec_ldnb (hi : isPeerLoc p.loc = true → s.lets p) : ∃ body, exec (.ldnb x o size a b c off) s = scalarOp x s body ∧
    body (s.tookPfx x) = (((s.after x [b, c]).fillTlb p).notBefore p (timedSize size) (s.gint c)).map fun r =>
      r.1.timedEnd size a (s.g b) (r.2.headD ([], false)).1 (r.2.headD ([], false)).2 := by
  refine ⟨_, rfl, ?_⟩
  have checked : (s.after x [b, c]).check (memAccess (s.g b) b (eaOf (s.g b) off) (timedSize size)).load =
      .ok ((s.after x [b, c]).fillTlb p, p) := State.check_eq ((s.after_access x _ _).trans ha)
  rw [State.useG_after hg]
  show (State.loadsAfter (s.after x [b, c]) o ((s.after x [b, c]).gint c) (fun v => (v.check (memAccess ((s.after x [b, c]).g b) b
    (eaOf ((s.after x [b, c]).g b) off) (timedSize size)).load).map fun r => (r.1, [(r.2, timedSize size)])) >>= _) = _
  rw [State.after_g, State.after_gint, State.loadsAfter_one (State.after_begins hb x _) (by rw [checked]; rfl)
    (State.fillTlb_quiet (State.after_quiet hq x _) p) fun hp => State.lets_after (hi hp) x _ p]
  show (State.notBefore _ p (timedSize size) (s.gint c) >>= _) = _
  cases State.notBefore ((s.after x [b, c]).fillTlb p) p (timedSize size) (s.gint c) <;> rfl

end

/-- What reads registers and what buffers translations changes no home and no time. -/
theorem State.zone_read (s : State) (x : Pfx) (rs : List RegNum) (q p : Place) :
    let u := (s.after x rs).fillTlb q
    u.homeDie p = s.homeDie p ∧ u.zoneTime p = s.zoneTime p ∧ u.now = s.now := by
  obtain ⟨m, k, h⟩ := s.after_eq x rs
  obtain ⟨l, hl⟩ := (s.after x rs).fillTlb_eq q
  dsimp only
  rw [hl, h]
  exact ⟨rfl, rfl, rfl⟩

section
variable {s : State} {p : Place} {n : Nat} {t : Tick}

theorem State.notBefore_core (hd : s.homeDie p = none) (hp : isPeerLoc p.loc = false) (hn : s.now < t) :
    s.notBefore p n t = .error (.wait (.notBefore t [])) := by
  rw [State.notBefore, State.timedHome, hd, hp, decide_eq_true hn]
  rfl
theorem State.notBefore_goes (h : s.timedHome p = true ∨ t ≤ s.now) : s.notBefore p n t = s.awaitDue t [s.requestAfter (p, n)] := by
  rw [State.notBefore, if_neg]
  rcases h with h | h
  · simp [h]
  · simp [BitVec.not_lt.2 h]

variable (hf : s.resolve false false p.va = .ok p)
include hf

/-- R220: before the time of its home, the load waits there. -/
theorem State.notBefore_home {u : State} (hu : u = s.fillTlb p) (hp : isAway p.loc = false) {d : BitVec 2} (hd : u.homeDie p = some d)
    (ht : u.zoneTime p < t) : u.notBefore p n t = .error (.hold u (.notBefore t [u.request p n none])) := by
  have host : isHostLoc p.loc = true → s.awayRefused s.core.owner p.loc = none := fun h => by simp [isAway, h] at hp
  have quiet := State.lateTrap_found hf host t n
  rw [State.notBefore_goes (.inl (by simp [State.timedHome, hd])), State.requestAfter_home hp hd]
  rw [← hu, State.requestAfter_home hp hd] at quiet
  refine State.awaitDue_waits quiet rfl fun e he => ?_
  rw [State.zoneTime, hd] at ht
  cases Option.some.inj (hd.symm.trans he)
  exact BitVec.not_le.2 ht

/-- R220: a load of the host whose time has come, and one of a peer at once, waits for its completion. -/
theorem State.notBefore_away {u : State} (hu : u = s.fillTlb p) (hp : isAway p.loc = true) (hd : u.homeDie p = none) (hl : s.lets p)
    (ht : isPeerLoc p.loc = true ∨ t ≤ u.now) : u.notBefore p n t = .error (.hold u (.notBefore t [u.request p n none])) := by
  have quiet := State.lateTrap_found hf (fun _ => hl.1) t n
  rw [State.notBefore_goes (ht.imp_left fun h => by simp [State.timedHome, h]), State.requestAfter_away hp hd]
  rw [← hu, State.requestAfter_away hp hd] at quiet
  exact State.awaitDue_waits quiet rfl fun e he => by cases hd.symm.trans he

/-- R220: once the time of its zone has come, the load reads its place. -/
theorem State.notBefore_reads {u : State} (hu : u = s.fillTlb p) (hp : isAway p.loc = false) (ht : t ≤ u.zoneTime p) :
    u.notBefore p n t = .ok (u, [(s.placeBytes p n, s.placeTag p)]) := by
  have host : isHostLoc p.loc = true → s.awayRefused s.core.owner p.loc = none := fun h => by simp [isAway, h] at hp
  have quiet := State.lateTrap_found hf host t n
  have read := State.readRequest_found hf n
  rw [← hu] at quiet read
  obtain ⟨d, home, zone⟩ := u.requestAfter_zone (n := n) hp
  have unanswered : (u.requestAfter (p, n)).answer = none := rfl
  rw [State.notBefore_goes ?_, State.awaitDue_reads quiet unanswered home (zone ▸ ht) read]
  cases hd : u.homeDie p with
  | some e => exact .inl (by simp [State.timedHome, hd])
  | none => exact .inr (by rwa [State.zoneTime, hd] at ht)

end

/-- R86, R220: what LDNB writes, in words. -/
theorem State.timedEnd_eq {s u : State} {size : BitVec 3} {a : RegNum} {cap : GReg} {p : Place} :
    let v := natOf (s.placeBytes p (timedSize size))
    u.timedEnd size a cap (s.placeBytes p (timedSize size)) (s.placeTag p) = u.setG a
      (if size = 4 then (if s.placeTag p && cap.permK then ⟨BitVec.ofNat 128 v, true⟩ else intReg (BitVec.ofNat 64 v))
        else intReg (BitVec.ofInt 64 (signedOf (timedSize size) v))) := by
  intro v
  unfold State.timedEnd
  split
  · rfl
  · next h =>
    have range : 0 < timedSize size ∧ timedSize size ≤ 8 := by
      unfold timedSize
      rw [if_neg h]
      have : size.toNat % 4 ≤ 3 := by omega
      exact ⟨by positivity, (Nat.pow_le_pow_right (by decide) this)⟩
    rw [sextBytes_eq range.1 range.2]
    rfl

section
variable {s : State} {x : Pfx} {o : Sys2Proof.Ordering} {size : BitVec 3} {a b c : RegNum} {off : Word} {p : Place}
  (hr : s.runs x) (hq : s.quiet) (hb : s.core.begins = true) (hg : s.readable [b, c])
  (ha : s.access (memAccess (s.g b) b (eaOf (s.g b) off) (timedSize size)).load = .ok p)
include hr hq hb hg ha

/-- R220: what LDNB does at a place of the module, by the time of the place's zone. -/
theorem exec_ldnb_here (hp : isAway p.loc = false) :
    let u := (s.after x [b, c]).fillTlb p
    (s.zoneTime p < s.gint c → exec (.ldnb x o size a b c off) s = .next (match s.homeDie p with
      | some _ => u.waits (.notBefore (s.gint c) [u.request p (timedSize size) none])
      | none => s.waits (.notBefore (s.gint c) [])))
    ∧ (s.gint c ≤ s.zoneTime p → exec (.ldnb x o size a b c off) s =
      .next ((u.timedEnd size a (s.g b) (s.placeBytes p (timedSize size)) (s.placeTag p)).ends (s.next x))) := by
  intro u
  obtain ⟨home, zone, now⟩ := s.zone_read x [b, c] p p
  have found := State.access_found ((s.after_access x [b, c] _).trans ha) rfl
  have near : isPeerLoc p.loc = false := (Bool.or_eq_false_iff.1 hp).2
  obtain ⟨body, hi, hbody⟩ := exec_ldnb (x := x) (o := o) (a := a) hq hb hg ha fun h => by cases near.symm.trans h
  refine ⟨fun early => ?_, fun due => ?_⟩
  · cases hd : s.homeDie p with
    | some d =>
      rw [State.notBefore_home found rfl hp (home.trans hd) (zone.symm ▸ early)] at hbody
      exact hi.trans (scalarOp_hold hr hbody)
    | none =>
      rw [State.zoneTime, hd] at early
      rw [State.notBefore_core (home.trans hd) near (now.symm ▸ early)] at hbody
      exact hi.trans (scalarOp_waits hr hbody)
  · rw [State.notBefore_reads found rfl hp (zone.symm ▸ due), State.after_placeBytes, State.after_placeTag] at hbody
    exact hi.trans (scalarOp_ok hr hbody)

/-- R220, R346: what LDNB does at a place of the host or of a peer. -/
theorem exec_ldnb_away (hp : isAway p.loc = true) (hd : s.homeDie p = none) (hl : s.lets p) :
    let u := (s.after x [b, c]).fillTlb p
    (isPeerLoc p.loc = true ∨ s.gint c ≤ s.now → exec (.ldnb x o size a b c off) s =
      .next (u.waits (.notBefore (s.gint c) [u.request p (timedSize size) none])))
    ∧ (isPeerLoc p.loc = false → s.now < s.gint c → exec (.ldnb x o size a b c off) s = .next (s.waits (.notBefore (s.gint c) []))) := by
  intro u
  obtain ⟨home, -, now⟩ := s.zone_read x [b, c] p p
  have found := State.access_found ((s.after_access x [b, c] _).trans ha) rfl
  have goes : (s.after x [b, c]).lets p := by
    rw [State.lets, State.after_awayRefused, State.after_owner, State.after_peerHeld]
    exact hl
  obtain ⟨body, hi, hbody⟩ := exec_ldnb (x := x) (o := o) (a := a) hq hb hg ha fun _ => hl
  refine ⟨fun due => ?_, fun near early => ?_⟩
  · rw [State.notBefore_away found rfl hp (home.trans hd) goes (now.symm ▸ due)] at hbody
    exact hi.trans (scalarOp_hold hr hbody)
  · rw [State.notBefore_core (home.trans hd) near (now.symm ▸ early)] at hbody
    exact hi.trans (scalarOp_waits hr hbody)

end

/-- No place is both the host's and a peer's. -/
theorem isPeerLoc_of_isHostLoc {l : Nat} (h : isHostLoc l = true) : isPeerLoc l = false := by
  simp only [isHostLoc, isPeerLoc, spaceSize, Bool.or_eq_true, Bool.and_eq_true, decide_eq_true_eq, Bool.and_eq_false_imp,
    decide_eq_false_iff_not] at h ⊢
  omega

end Sys2Proof.Machine

namespace Sys2Proof
open Sys2Proof.Machine

/-- Settles O9: the acceptance of a timed store, and a not-before load by the zone of its place. -/
theorem timedFormsWaitForTheirTime : Obligations.TimedFormsWaitForTheirTime := by
  unfold Obligations.TimedFormsWaitForTheirTime
  refine fun s x o size a b c off p hr hq hb => ⟨fun hg ha hp => ?stat, fun hg ha hp => ?here, fun hg ha hp hd href hheld => ?away⟩
  case stat =>
    obtain ⟨-, solid, -⟩ := hp
    obtain ⟨feasible, now⟩ := s.latency_read x [b, a, c] p p
    refine ⟨fun lat hl ht ho => ?_, fun lat hl ht => ?_, fun hl => ?_⟩
    · have ok := State.feasible_ok (feasible.trans hl) (now ▸ ht)
      obtain ⟨u, he, mem, kept, y, joins, loc, bytes, time, cap, -⟩ := exec_stat_accepted (o := o) hg ha hr hq solid ok ho
      exact ⟨u.ends (s.next x), y, he, joins, loc, bytes, time, cap, fun l => congrArg (memGet · l) mem,
        kept.untouched _, State.ends_pc _ _⟩
    · rw [← now] at ht ⊢
      exact raises_stat_infeasible hg ha hr (State.feasible_late (feasible.trans hl) ht)
    · rw [← now]
      exact raises_stat_infeasible hg ha hr (State.feasible_nowhere (feasible.trans hl))
  case here =>
    obtain ⟨waits, reads⟩ := exec_ldnb_here (o := o) (a := a) hr hq hb hg ha hp
    exact ⟨waits, fun due => (reads due).trans (by rw [State.timedEnd_eq]; rfl)⟩
  case away =>
    obtain ⟨goes, waits⟩ := exec_ldnb_away (o := o) (a := a) hr hq hb hg ha hp hd ⟨href, hheld⟩
    exact ⟨fun peer => goes (.inl peer), fun host => waits (isPeerLoc_of_isHostLoc host), fun _ due => goes (.inr due)⟩
end Sys2Proof
end

section
/-! SUPPORT. O13: multiply and divide, and the bit instructions, as numbers and bit by bit (R100 to R102). -/

namespace Sys2Proof.Machine
open Sys2Proof

/-! ## Multiply and divide (R100) -/

theorem Word.mul_eq_ofNat (u y : Word) : u * y = BitVec.ofNat 64 (u.toNat * y.toNat) := by
  rw [BitVec.ofNat_mul, BitVec.ofNat_toNat, BitVec.ofNat_toNat, BitVec.setWidth_eq, BitVec.setWidth_eq]
/-- The remainder belongs to the quotient truncated toward zero. -/
theorem remSigned_eq (u y : Word) :
    remSigned u y = if y = 0 then u else BitVec.ofInt 64 (u.toInt - y.toInt * u.toInt.tdiv y.toInt) := by
  rw [remSigned, Int.tmod_def]

/-! ## Fields of a word (R101) -/

theorem fieldPos_eq (y : Word) : fieldPos y = y.toNat % 64 := by
  rw [fieldPos, BitVec.extractLsb'_toNat, Nat.shiftRight_zero]
theorem fieldWidth_eq (y : Word) : fieldWidth y = min (y.toNat / 256 % 128) 64 := by
  rw [fieldWidth, BitVec.extractLsb'_toNat, Nat.shiftRight_eq_div_pow]
theorem bext_eq (u y : Word) :
    bext u y = BitVec.ofNat 64 (u.toNat / 2 ^ (y.toNat % 64) % 2 ^ min (y.toNat / 256 % 128) 64) := by
  rw [bext, bitsAt, fieldPos_eq, fieldWidth_eq, Nat.shiftRight_eq_div_pow]

/-- BINS changes the bits of its field alone. -/
theorem getLsbD_bins (z u y : Word) {i : Nat} (hi : i < 64) :
    (bins z u y).getLsbD i = if fieldPos y ≤ i ∧ i < fieldPos y + fieldWidth y then u.getLsbD (i - fieldPos y) else z.getLsbD i := by
  have mask : (BitVec.ofNat 64 ((2 ^ fieldWidth y - 1) * 2 ^ fieldPos y)).getLsbD i
      = decide (fieldPos y ≤ i ∧ i < fieldPos y + fieldWidth y) := by
    rw [BitVec.getLsbD_ofNat, Nat.testBit_mul_two_pow, Nat.testBit_two_pow_sub_one, decide_eq_true hi, Bool.true_and,
      ← Bool.decide_and]
    exact decide_eq_decide.mpr (by omega)
  unfold bins
  rw [BitVec.getLsbD_or, BitVec.getLsbD_and, BitVec.getLsbD_and, BitVec.getLsbD_not, BitVec.getLsbD_shiftLeft, mask, decide_eq_true hi]
  split_ifs with h
  · simp [h]
  · simp [h]

/-! ## Counts of bits -/

/-- The leading zeros of the low `n` bits say between which powers of two they stand. -/
theorem leadZeros_bounds (v : Word) (n : Nat) : leadZeros v n ≤ n ∧ v.toNat % 2 ^ n < 2 ^ (n - leadZeros v n)
    ∧ (leadZeros v n < n → 2 ^ (n - leadZeros v n - 1) ≤ v.toNat % 2 ^ n) := by
  induction n with
  | zero => exact ⟨le_refl 0, Nat.mod_lt _ (by decide), nofun⟩
  | succ n ih =>
    obtain ⟨le, lt, ge⟩ := ih
    have low : v.toNat % 2 ^ (n + 1) = v.toNat % 2 ^ n + 2 ^ n * (v.getLsbD n).toNat := by
      rw [Nat.mod_pow_succ, ← Nat.toNat_testBit]; rfl
    have half := Nat.mod_lt v.toNat (Nat.two_pow_pos n)
    unfold leadZeros
    cases hb : v.getLsbD n
    · have e : n + 1 - (1 + leadZeros v n) = n - leadZeros v n := by omega
      rw [if_neg Bool.false_ne_true, low, hb, e]
      exact ⟨by omega, by simpa using lt, fun h => by simpa using ge (by omega)⟩
    · rw [if_pos rfl, low, hb]
      exact ⟨by omega, by rw [Nat.sub_zero, Nat.pow_succ, Bool.toNat_true]; omega, fun _ => by simp⟩

theorem clz_zero : leadZeros 0 64 = 64 := by decide
theorem clz_of_ne_zero {u : Word} (h : u ≠ 0) : leadZeros u 64 = 63 - u.toNat.log2 := by
  obtain ⟨le, lt, ge⟩ := leadZeros_bounds u 64
  rw [Nat.mod_eq_of_lt u.isLt] at lt ge
  have pos : u.toNat ≠ 0 := fun e => h (BitVec.eq_of_toNat_eq e)
  have hlt : leadZeros u 64 < 64 := by
    refine lt_of_le_of_ne le fun e => pos ?_
    rw [e] at lt
    omega
  have e : u.toNat.log2 = 64 - leadZeros u 64 - 1 :=
    (Nat.log2_eq_iff pos).mpr ⟨ge hlt, by rwa [Nat.sub_add_cancel (by omega)]⟩
  omega

/-- The bits below the trailing zeros are zero, and the next one is not. -/
theorem trailZeros_bits (v : Word) (i n : Nat) : trailZeros v i n ≤ n ∧ (∀ j < trailZeros v i n, v.getLsbD (i + j) = false)
    ∧ (trailZeros v i n < n → v.getLsbD (i + trailZeros v i n) = true) := by
  induction n generalizing i with
  | zero => exact ⟨le_refl 0, nofun, nofun⟩
  | succ n ih =>
    obtain ⟨le, zeros, one⟩ := ih (i + 1)
    unfold trailZeros
    cases hb : v.getLsbD i
    · rw [if_neg Bool.false_ne_true]
      refine ⟨by omega, fun j hj => ?_, fun h => ?_⟩
      · cases j with
        | zero => exact hb
        | succ j => rw [show i + (j + 1) = i + 1 + j by omega]; exact zeros j (by omega)
      · rw [← Nat.add_assoc]
        exact one (by omega)
    · rw [if_pos rfl]
      exact ⟨by omega, nofun, fun _ => hb⟩

theorem ctz_zero : trailZeros 0 0 64 = 64 := by decide
theorem ctz_of_ne_zero {u : Word} (h : u ≠ 0) :
    trailZeros u 0 64 < 64 ∧ u.toNat % 2 ^ (trailZeros u 0 64 + 1) = 2 ^ trailZeros u 0 64 := by
  obtain ⟨le, zeros, one⟩ := trailZeros_bits u 0 64
  simp only [Nat.zero_add] at zeros one
  have hlt : trailZeros u 0 64 < 64 := by
    refine lt_of_le_of_ne le fun e => h (BitVec.eq_of_getLsbD_eq fun j hj => ?_)
    rw [zeros j (by omega), BitVec.ofNat_eq_ofNat, BitVec.getLsbD_zero]
  refine ⟨hlt, Nat.eq_of_testBit_eq fun j => ?_⟩
  rw [Nat.testBit_mod_two_pow, Nat.testBit_two_pow]
  rcases lt_trichotomy j (trailZeros u 0 64) with hj | hj | hj
  · rw [show u.toNat.testBit j = false from zeros j hj, Bool.and_false, decide_eq_false (by omega)]
  · rw [hj, show u.toNat.testBit _ = true from one hlt]
    simp
  · rw [decide_eq_false (by omega), decide_eq_false (by omega), Bool.false_and]

theorem countOnes_eq (v n : Nat) : countOnes v n = ((List.range n).filter v.testBit).length := by
  induction n generalizing v with
  | zero => rfl
  | succ n ih =>
    have rest : v.testBit ∘ Nat.succ = (v / 2).testBit := funext fun i => Nat.testBit_succ v i
    rw [countOnes, ih, List.range_succ_eq_map, List.filter_cons, List.filter_map, rest, Nat.testBit_zero]
    rcases Nat.mod_two_eq_zero_or_one v with h | h
    · simp [h]
    · simp [h, Nat.add_comm]
theorem countOnes_le (v n : Nat) : countOnes v n ≤ n := by
  rw [countOnes_eq]
  exact (List.length_filter_le ..).trans_eq List.length_range

/-! ## Bits and bytes in reverse order -/

theorem revBits_lt (v n : Nat) : revBits v n < 2 ^ n := by
  induction n generalizing v with
  | zero => exact Nat.one_pos
  | succ n ih =>
    have hv : v % 2 * 2 ^ n ≤ 1 * 2 ^ n := Nat.mul_le_mul_right _ (by omega)
    have := ih (v / 2)
    rw [revBits, Nat.pow_succ]
    omega
theorem testBit_revBits (v n : Nat) {i : Nat} (hi : i < n) : (revBits v n).testBit i = v.testBit (n - 1 - i) := by
  induction n generalizing v with
  | zero => omega
  | succ n ih =>
    rw [revBits, Nat.mul_comm, Nat.testBit_two_pow_mul_add _ (revBits_lt _ _)]
    split_ifs with h
    · rw [ih _ h, show n + 1 - 1 - i = n - 1 - i + 1 by omega, Nat.testBit_succ]
    · have e : i = n := by omega
      subst e
      rw [Nat.sub_self, Nat.add_sub_cancel, Nat.sub_self, Nat.testBit_zero, Nat.testBit_zero, Nat.mod_mod]

/-- Byte `j` of the number that bytes hold. -/
theorem natOf_byte (bs : List Byte) {j : Nat} (hj : j < bs.length) : natOf bs / 2 ^ (8 * j) % 2 ^ 8 = (bs[j]).toNat := by
  induction bs generalizing j with
  | nil => exact absurd hj (Nat.not_lt_zero j)
  | cons b rest ih =>
    have hb := b.isLt
    rw [natOf]
    cases j with
    | zero => simp; omega
    | succ j =>
      have e : (b.toNat + 256 * natOf rest) / 2 ^ (8 * (j + 1)) = natOf rest / 2 ^ (8 * j) := by
        rw [show 8 * (j + 1) = 8 + 8 * j by omega, Nat.pow_add, ← Nat.div_div_eq_div_mul]
        congr 1
        omega
      rw [e]
      exact ih (by simpa using hj)
theorem bytesOf_byte (n v : Nat) {j : Nat} (hj : j < (bytesOf n v).length) : (bytesOf n v)[j] = BitVec.ofNat 8 (v / 2 ^ (8 * j)) := by
  induction n generalizing v j with
  | zero => exact absurd hj (Nat.not_lt_zero j)
  | succ n ih =>
    cases j with
    | zero => simp [bytesOf]
    | succ j =>
      have e : v / 256 / 2 ^ (8 * j) = v / 2 ^ (8 * (j + 1)) := by
        rw [Nat.div_div_eq_div_mul, show 8 * (j + 1) = 8 + 8 * j by omega, Nat.pow_add]
      simp only [bytesOf, List.getElem_cons_succ]
      rw [ih (v / 256) (by simpa [bytesOf] using hj), e]
theorem revBytes_byte (u : Word) {j : Nat} (hj : j < 8) : (revBytes u).extractLsb' (8 * j) 8 = u.extractLsb' (8 * (7 - j)) 8 := by
  have hlen : j < (bytesOf 8 u.toNat).reverse.length := by simpa using hj
  have small : natOf (bytesOf 8 u.toNat).reverse < 2 ^ 64 := (natOf_lt _).trans_eq (by simp)
  apply BitVec.eq_of_toNat_eq
  rw [BitVec.extractLsb'_toNat, BitVec.extractLsb'_toNat, revBytes, BitVec.toNat_ofNat, Nat.mod_eq_of_lt small,
    Nat.shiftRight_eq_div_pow, Nat.shiftRight_eq_div_pow, natOf_byte _ hlen, List.getElem_reverse, bytesOf_byte, BitVec.toNat_ofNat,
    length_bytesOf, show 8 - 1 - j = 7 - j by omega]

/-! ## Random numbers (R119) -/

theorem setWidth_extractLsb'_high (z : Word) : (z.extractLsb' 32 32).setWidth 64 = z >>> 32 := by
  apply BitVec.eq_of_toNat_eq
  have := z.isLt
  rw [BitVec.toNat_setWidth, BitVec.extractLsb'_toNat, BitVec.toNat_ushiftRight, Nat.shiftRight_eq_div_pow]
  omega

/-- R101: the forms that read B alone. -/
theorem writesInt_un {i : Instr} {s : State} {x : Pfx} {a b : RegNum} {f : Word → Word} {r : Word} (hr : s.runs x) (hg : s.readable [b])
    (hi : exec i s = scalarOp x s (unBody f a b)) (hf : f (s.gint b) = r) : writesInt i s x [b] a r :=
  writesReg_of (f := fun s => intReg (f (s.gint b))) hr hg hi (by rw [State.after_gint, hf])

end Sys2Proof.Machine

namespace Sys2Proof
open Sys2Proof.Machine

/-- Settles O13: each form with the function of its instruction, then what the bits of its result are. -/
theorem multiplyDivideBitsAndDraws : Obligations.MultiplyDivideBitsAndDraws := by
  unfold Obligations.MultiplyDivideBitsAndDraws
  refine ⟨⟨fun s x a b c hr hg => ?pairs, fun s x a b hr hg => ?bits, fun s x a b c hr hg => ⟨?bins, ?sel⟩⟩,
    fun s x a b c hr hg => ?srnd, by decide, by decide, by decide⟩
  case pairs =>
    have count (y : Word) : (y &&& 63).toNat = y.toNat % 64 := shiftCount_eq y
    exact ⟨writesInt_rr hr hg rfl (Word.mul_eq_ofNat _ _), writesInt_rr hr hg rfl rfl, writesInt_rr hr hg rfl rfl,
      writesInt_rr hr hg rfl rfl, writesInt_rr hr hg rfl rfl, writesInt_rr hr hg rfl (remSigned_eq _ _),
      writesInt_rr hr hg rfl rfl, writesInt_rr hr hg rfl (bext_eq _ _), writesInt_rr hr hg rfl (by rw [count]),
      writesInt_rr hr hg rfl (by rw [count])⟩
  case bits =>
    have small {n : Nat} (h : n ≤ 64) : (BitVec.ofNat 64 n).toNat = n := by
      rw [BitVec.toNat_ofNat, Nat.mod_eq_of_lt (by omega)]
    refine ⟨⟨_, writesInt_un hr hg rfl rfl, fun h => ?_, fun h => ?_⟩, ⟨_, writesInt_un hr hg rfl rfl, fun h => ?_, fun h => ?_⟩,
      ⟨_, writesInt_un hr hg rfl rfl, ?_⟩, ⟨_, writesInt_un hr hg rfl rfl, fun i hi => ?_⟩,
      ⟨_, writesInt_un hr hg rfl rfl, fun j hj => revBytes_byte _ hj⟩⟩
    · rw [h, clz_zero]
      rfl
    · rw [clz_of_ne_zero h, small (by omega)]
    · rw [h, ctz_zero]
      rfl
    · obtain ⟨lt, low⟩ := ctz_of_ne_zero h
      rw [small lt.le, low]
    · exact (small (countOnes_le _ _)).trans (countOnes_eq _ _)
    · rw [BitVec.getLsbD_ofNat, decide_eq_true hi, Bool.true_and, testBit_revBits _ _ hi]
      rfl
  case bins =>
    refine ⟨_, writesReg_of (f := fun s => intReg (bins (s.gint a) (s.gint c) (s.gint b))) hr hg rfl rfl, fun i hi => ?_⟩
    rw [State.after_gint, State.after_gint, State.after_gint, getLsbD_bins _ _ _ hi, fieldPos_eq, fieldWidth_eq]
  case sel =>
    exact writesReg_of (f := fun s => if s.gint a ≠ 0 then s.g c else s.g b) hr hg rfl
      (by rw [State.after_gint, State.after_g, State.after_g])
  case srnd => exact writesInt_rr hr hg rfl (setWidth_extractLsb'_high _)

end Sys2Proof
end

section
/-! SUPPORT. Scalar instructions that read general registers and then answer a state or raise a fault (R49). -/

namespace Sys2Proof.Machine
open Sys2Proof

/-- Which registers are inherited is nothing that an instruction has to keep. -/
theorem Core.Kept.inherited (c : Core) (g v : BitVec 32) (p : BitVec 16) : Core.Kept c { c with gInh := g, vInh := v, pInh := p } :=
  ⟨⟨rfl, rfl, rfl⟩, rfl, rfl, rfl, rfl, rfl, rfl, rfl, rfl, rfl, rfl⟩

section
variable {i : Instr} {s : State} {x : Pfx} {rs : List RegNum} {f : State → R State}
  (hr : s.runs x) (hg : s.readable rs) (hi : exec i s = scalarOp x s fun s => s.useG rs >>= f)
include hr hg hi

theorem exec_reads_ok {t : State} (hf : f (s.after x rs) = .ok t) : exec i s = .next (t.ends (s.next x)) :=
  hi.trans (scalarOp_ok hr (by rw [State.useG_after hg]; exact hf))
theorem raises_reads {t : Trap} (hf : f (s.after x rs) = .error (.trap t)) : raises i s t :=
  hi.trans (scalarOp_trap hr (by rw [State.useG_after hg]; exact hf))
end

end Sys2Proof.Machine
end

section
/-! SUPPORT. O14: what the capability instructions answer, and the faults that they raise (R103 to R109). -/

namespace Sys2Proof.Machine
open Sys2Proof

/-- DETAIL of the faults of page 1 is the number of a register. -/
theorem trap_reg {α : Type} (code : BitVec 8) (n : RegNum) :
    (trap code n.toNat : R α) = .error (.trap ⟨code, 0, n.setWidth 64⟩) :=
  congrArg (fun d => Except.error (Stop.trap ⟨code, 0, d⟩)) (BitVec.ofNat_toNat 64 n)

/-! ## Instructions that need an unsealed capability in C (R105, R106) -/

section
variable {src : GReg} {n : RegNum}

theorem needOpen_untagged (h : src.tag = false) : needOpen src n = .error (.trap ⟨cKTAG, 0, n.setWidth 64⟩) := by
  rw [needOpen, h]
  exact trap_reg _ _
theorem needOpen_sealed (ht : src.tag = true) (hs : src.isSealed = true) :
    needOpen src n = .error (.trap ⟨cKSEAL, 0, n.setWidth 64⟩) := by
  rw [needOpen, ht, hs]
  exact trap_reg _ _
theorem needOpen_good (ht : src.tag = true) (hs : src.isSealed = false) : needOpen src n = .ok () := by
  rw [needOpen, ht, hs]
  rfl
end

section
variable {i : Instr} {s : State} {x : Pfx} {rs : List RegNum} {n : RegNum} {k : State → R State}
  (hr : s.runs x) (hg : s.readable rs)
  (hi : exec i s = scalarOp x s fun s => s.useG rs >>= fun s => needOpen (s.g n) n >>= fun _ => k s)
include hr hg hi

theorem raises_needOpen {t : Trap} (h : needOpen (s.g n) n = .error (.trap t)) : raises i s t := by
  refine raises_reads hr hg hi ?_
  rw [State.after_g, h]
  rfl
variable (ht : (s.g n).tag = true) (hs : (s.g n).isSealed = false)
include ht hs

theorem exec_needOpen_ok {t : State} (hk : k (s.after x rs) = .ok t) : exec i s = .next (t.ends (s.next x)) := by
  refine exec_reads_ok hr hg hi ?_
  rw [State.after_g, needOpen_good ht hs]
  exact hk
theorem raises_needOpen_after {t : Trap} (hk : k (s.after x rs) = .error (.trap t)) : raises i s t := by
  refine raises_reads hr hg hi ?_
  rw [State.after_g, needOpen_good ht hs]
  exact hk
end

/-! ## The results (R105 to R109) -/

section
variable {src : GReg} {len : Nat} {m : BitVec 16} {e : BitVec 6}

theorem kbndResult_fits (hc : lengthCode len = (m, e)) (hl : len ≤ 2 ^ 48)
    (ht : (src.cursor - src.base).toNat + (m.toNat <<< e.toNat) ≤ src.length) : kbndResult src len = some (src.narrow m e) := by
  unfold kbndResult
  rw [hc]
  exact (if_neg (not_lt.mpr hl)).trans (if_neg (not_lt.mpr ht))
theorem kbndResult_outside (hc : lengthCode len = (m, e))
    (h : 2 ^ 48 < len ∨ src.length < (src.cursor - src.base).toNat + (m.toNat <<< e.toNat)) : kbndResult src len = none := by
  unfold kbndResult
  rw [hc]
  rcases h with h | h
  · exact if_pos h
  · exact (ite_congr rfl (fun _ => rfl) fun _ => if_pos h).trans (ite_self none)
end

/-- R109: what KTST tests. -/
theorem derivable_iff (y z : GReg) : derivable y z = true ↔ z.tag = true ∧ y.tag = true ∧ z.isSealed = false ∧ y.isSealed = false
    ∧ (y.base - z.base).toNat + y.length ≤ z.length ∧ y.perms &&& z.perms = y.perms ∧ y.colour = z.colour := by
  simp only [derivable, GReg.within, Bool.and_eq_true, Bool.not_eq_true', decide_eq_true_eq, and_assoc]

/-- R107: what KUNS asks of C and its authority. -/
theorem liesWithin_iff (src auth : GReg) :
    (src.within auth && src.perms &&& auth.perms = src.perms && src.colour = auth.colour) = true
      ↔ (src.base - auth.base).toNat + src.length ≤ auth.length ∧ src.perms &&& auth.perms = src.perms ∧ src.colour = auth.colour := by
  simp only [GReg.within, Bool.and_eq_true, decide_eq_true_eq, and_assoc]

section
variable {s : State} {x : Pfx} {a b c : RegNum} (hr : s.runs x) (hg : s.readable [c, b])
include hr hg

/-- R107: KUNS checks C, then B, then that C lies within B. -/
theorem exec_kuns : let src := s.g c
    let auth := s.g b
    (src.tag = false → raises (.kuns x a b c) s ⟨cKTAG, 0, c.setWidth 64⟩)
    ∧ (src.tag = true → auth.tag = false → raises (.kuns x a b c) s ⟨cKTAG, 0, b.setWidth 64⟩)
    ∧ (src.tag = true → auth.tag = true → auth.isSealed = true → raises (.kuns x a b c) s ⟨cKSEAL, 0, b.setWidth 64⟩)
    ∧ (src.tag = true → auth.tag = true → auth.isSealed = false →
        let inside := (src.base - auth.base).toNat + src.length ≤ auth.length ∧ src.perms &&& auth.perms = src.perms
          ∧ src.colour = auth.colour
        (inside → writesReg (.kuns x a b c) s x [c, b] a (src.withSeal false))
        ∧ (¬inside → raises (.kuns x a b c) s ⟨cKPRM, 0, b.setWidth 64⟩)) := by
  have faults {t : Trap} := raises_reads (i := .kuns x a b c) (t := t) hr hg rfl
  have answers {t : State} := exec_reads_ok (i := .kuns x a b c) (t := t) hr hg rfl
  simp only [State.after_g, trap_reg] at faults answers
  refine ⟨fun hs => faults ?_, fun hs ht => faults ?_, fun hs ht he => faults ?_,
    fun hs ht he => ⟨fun hin => answers ?_, fun hout => faults ?_⟩⟩
  · rw [hs]; rfl
  · rw [hs, ht]; rfl
  · rw [hs, ht, he]; rfl
  · rw [hs, ht, he, (liesWithin_iff _ _).mpr hin]; rfl
  · rw [hs, ht, he, Bool.eq_false_iff.mpr (mt (liesWithin_iff _ _).mp hout)]; rfl

/-- R106: KCOL. -/
theorem exec_kcol (ht : (s.g c).tag = true) (hs : (s.g c).isSealed = false) : let col : BitVec 4 := (s.gint b).setWidth 4
    ((s.g c).permT = true ∨ col = (s.g c).colour → writesReg (.kcol x a b c) s x [c, b] a ((s.g c).withColour col))
    ∧ ((s.g c).permT = false → col ≠ (s.g c).colour → raises (.kcol x a b c) s ⟨cKPRM, 0, c.setWidth 64⟩) := by
  have faults {t : Trap} := raises_needOpen_after (i := .kcol x a b c) (t := t) hr hg rfl ht hs
  have answers {t : State} := exec_needOpen_ok (i := .kcol x a b c) (t := t) hr hg rfl ht hs
  simp only [State.after_g, State.after_gint, trap_reg] at faults answers
  refine ⟨fun h => answers (if_neg ?_), fun hp hn => faults (if_pos ?_)⟩
  · simpa [imp_iff_not_or, or_comm] using h
  · simp [hp, hn]

/-- R105: KBND. -/
theorem exec_kbnd (ht : (s.g c).tag = true) (hs : (s.g c).isSealed = false) :
    (∀ r, kbndResult (s.g c) (s.gint b).toNat = some r → writesReg (.kbnd x a b c) s x [c, b] a r)
    ∧ (kbndResult (s.g c) (s.gint b).toNat = none → raises (.kbnd x a b c) s ⟨cKBND, 0, c.setWidth 64⟩) := by
  have faults {t : Trap} := raises_needOpen_after (i := .kbnd x a b c) (t := t) hr hg rfl ht hs
  have answers {t : State} := exec_needOpen_ok (i := .kbnd x a b c) (t := t) hr hg rfl ht hs
  simp only [State.after_g, State.after_gint, trap_reg] at faults answers
  refine ⟨fun r h => answers ?_, fun h => faults ?_⟩
  · rw [h]; rfl
  · rw [h]
end

/-- R108: a selector up to 8 reads its field. -/
theorem writesInt_kget {s : State} {x : Pfx} {a c : RegNum} {sel : BitVec 4} {v : Word} (hr : s.runs x) (hg : s.readable [c])
    (hsel : sel.toNat < 9) (hv : kgetValue (s.g c) sel = v) : writesInt (.kget x a c sel) s x [c] a v := by
  have hi : exec (.kget x a c sel) s = .next (s.scalarInstr (9 ≤ sel.toNat) false x
    fun s => s.useG [c] >>= fun s => pure (s.setInt a (kgetValue (s.g c) sel))) := rfl
  rw [decide_eq_false (not_le.mpr hsel)] at hi
  exact writesReg_of (f := fun s => intReg (kgetValue (s.g c) sel)) hr hg hi (by rw [State.after_g, hv])

end Sys2Proof.Machine

namespace Sys2Proof
open Sys2Proof.Machine

/-- Settles O14: each instruction past the checks of C, with its result or its fault. -/
theorem capabilitiesOnlyNarrow : Obligations.CapabilitiesOnlyNarrow := by
  unfold Obligations.CapabilitiesOnlyNarrow
  intro s x a b c sel hr hg
  have hc : s.readable [c] := fun n hn => hg n (List.mem_append_left [b] hn)
  have hb : s.readable [b] := fun n hn => hg n (List.mem_cons_of_mem c hn)
  obtain ⟨kuns_c, kuns_b, kuns_sealed, kuns_within⟩ := exec_kuns (a := a) hr hg
  have opens {t : Trap} (h : needOpen (s.g c) c = .error (.trap t)) :
      raises (.kbnd x a b c) s t ∧ raises (.kprm x a b c) s t ∧ raises (.kcol x a b c) s t :=
    ⟨raises_needOpen hr hg rfl h, raises_needOpen hr hg rfl h, raises_needOpen hr hg rfl h⟩
  have ktst {v : Word} (h : boolWord (derivable (s.g b) (s.g c)) = v) : writesInt (.ktst x a b c) s x [c, b] a v :=
    writesReg_of (f := fun s => intReg (boolWord (derivable (s.g b) (s.g c)))) hr hg rfl (by rw [State.after_g, State.after_g, h])
  have kget (sel : BitVec 4) (h : sel.toNat < 9) : writesInt (.kget x a c sel) s x [c] a (kgetValue (s.g c) sel) :=
    writesInt_kget hr hc h rfl
  refine ⟨fun h => ?untagged, fun h hs => opens (needOpen_sealed h hs), fun ⟨ht, hs⟩ m e hl => ?kbnd,
    fun ⟨ht, hs⟩ => ?kprm, fun ⟨ht, hs⟩ h => ?recolours, fun ⟨ht, hs⟩ => (exec_kcol hr hg ht hs).2, fun h => ?seals, fun h => ?ktag,
    kuns_b, kuns_sealed, kuns_within, fun h => ktst ?derived, fun h => ktst ?underived, writesInt_un hr hb rfl rfl,
    fun h => raises_ill (x := x) (decide_eq_true h) rfl, kget 0 (by decide), kget 1 (by decide), ?length, ?offset, kget 4 (by decide),
    kget 5 (by decide), kget 6 (by decide), kget 7 (by decide), kget 8 (by decide)⟩
  case untagged =>
    obtain ⟨kbnd, kprm, kcol⟩ := opens (needOpen_untagged h)
    exact ⟨kbnd, kprm, kcol, kuns_c h⟩
  case kbnd =>
    obtain ⟨fits, outside⟩ := exec_kbnd (a := a) hr hg ht hs
    exact ⟨fun hle hin => fits _ (kbndResult_fits hl hle hin), fun h => outside (kbndResult_outside hl h)⟩
  case kprm =>
    refine exec_needOpen_ok hr hg rfl ht hs ?_
    rw [State.after_g, State.after_gint, GReg.withPerms, hs]
    rfl
  case recolours =>
    have := (exec_kcol (a := a) hr hg ht hs).1 h
    rwa [GReg.withColour, hs] at this
  case seals =>
    refine exec_reads_ok hr hb rfl ?_
    rw [State.after_g, h]
    rfl
  case ktag =>
    refine raises_reads hr hb rfl ?_
    rw [State.after_g, h]
    exact trap_reg _ _
  case derived => rw [(derivable_iff _ _).mpr h]; rfl
  case underived => rw [Bool.eq_false_iff.mpr (mt (derivable_iff _ _).mp h)]; rfl
  case length =>
    have := kget 2 (by decide)
    rwa [← Nat.shiftLeft_eq]
  case offset =>
    have := kget 3 (by decide)
    rwa [← BitVec.ofNat_toNat]

end Sys2Proof
end

section
/-! SUPPORT. Scalar floating point: what an operation reads, and how its exceptions stick or raise FPX (R112, R115). -/

namespace Sys2Proof.Machine
open Sys2Proof

/-! ## What reading registers leaves of FCSR -/

section
variable (s : State) (x : Pfx) (rs : List RegNum)

@[simp] theorem State.after_csr : (s.after x rs).core.csr = s.core.csr := by
  simp [State.after]
@[simp] theorem State.after_rm : (s.after x rs).rm = fcsrRm s.core.csr.fcsr := by
  rw [State.rm, State.after_csr]
@[simp] theorem State.after_ftz : (s.after x rs).ftz = fcsrFtz s.core.csr.fcsr := by
  rw [State.ftz, State.after_csr]
@[simp] theorem State.after_fval (f : Fmt) (n : RegNum) :
    (s.after x rs).fval f n = f.read (fcsrFtz s.core.csr.fcsr) (s.gint n).toNat := by
  rw [State.fval, State.after_ftz, State.after_gint]
end

/-! ## Exceptions (R115, R157) -/

section
variable {s : State} {e : Exc}

theorem State.raise_sticks (h : e &&& fcsrEnables s.core.csr.fcsr = 0) :
    s.raise e = .ok (s.setFcsr (fcsrRaise s.core.csr.fcsr e)) := if_neg (not_not_intro h)
theorem State.raise_traps (h : e &&& fcsrEnables s.core.csr.fcsr ≠ 0) :
    s.raise e = .error (.trap ⟨cFPX, 0, e.setWidth 64⟩) := if_pos h
end

/-- The instruction reads `rs`, writes the integer `r` to A and adds the exceptions `e` to the flags; where one of them is enabled
it raises FPX. -/
def writesFlagged (i : Instr) (s : State) (x : Pfx) (rs : List RegNum) (a : RegNum) (r : Word) (e : Exc) : Prop :=
  (e &&& fcsrEnables s.core.csr.fcsr = 0 → exec i s = .next
    ((((s.after x rs).setFcsr (fcsrRaise s.core.csr.fcsr e)).setInt a r).ends (s.next x)))
  ∧ (e &&& fcsrEnables s.core.csr.fcsr ≠ 0 → raises i s ⟨cFPX, 0, e.setWidth 64⟩)

section
variable {i : Instr} {s : State} {x : Pfx} {rs : List RegNum} {a : RegNum} (hr : s.runs x) (hg : s.readable rs)
include hr hg

/-- A body that raises its exceptions before it writes A. -/
theorem writesFlagged_of {f : State → R State} {r : Word} {e : Exc} (hi : exec i s = scalarOp x s fun s => s.useG rs >>= f)
    (hf : f (s.after x rs) = (s.after x rs).raise e >>= fun u => pure (u.setInt a r)) : writesFlagged i s x rs a r e := by
  refine ⟨fun h => exec_reads_ok hr hg hi ?_, fun h => raises_reads hr hg hi ?_⟩
  · rw [hf, State.raise_sticks (by rwa [State.after_csr]), State.after_csr]
    rfl
  · rw [hf, State.raise_traps (by rwa [State.after_csr])]
    rfl

/-- One whose value is an exact result, rounded once (R112, R153). -/
theorem writesFlagged_rounded {f : Fmt} {op : State → Exact} {r : Exact}
    (hi : exec i s = scalarOp x s fun s => s.useG rs >>= fun s => s.fput f a (op s)) (hop : op (s.after x rs) = r) :
    let v := f.finish (fcsrRm s.core.csr.fcsr) (fcsrFtz s.core.csr.fcsr) r
    writesFlagged i s x rs a (BitVec.ofNat 64 v.1) v.2 := by
  refine writesFlagged_of hr hg hi ?_
  rw [← hop, ← State.after_rm s x rs, ← State.after_ftz s x rs]
  rfl
end

theorem boolWord_eq_ofNat (b : Bool) : boolWord b = BitVec.ofNat 64 (if b then 1 else 0) := by
  cases b <;> rfl

end Sys2Proof.Machine

namespace Sys2Proof
open Sys2Proof.Machine

/-- Settles O16: the forms that round, then those that choose an operand or compare. -/
theorem floatingOpsRoundOnceAndStick : Obligations.FloatingOpsRoundOnceAndStick := by
  unfold Obligations.FloatingOpsRoundOnceAndStick
  intro s x t a b c hr hg
  have hcb : s.readable [c, b] := fun n hn => hg n (List.mem_append_left [a] hn)
  have hb : s.readable [b] := fun n hn => hcb n (List.mem_cons_of_mem c hn)
  have chooses {i : Instr} {op : Fp → Fp → Fp × Exc} (hi : exec i s = scalarOp x s (fselBody t op a b c)) :=
    writesFlagged_of (a := a) hr hcb hi (by simp only [State.after_fval]; rfl)
  have compares {i : Instr} {op : Fp → Fp → Bool × Exc} (hi : exec i s = scalarOp x s (fcmpBody t op a b c)) :=
    writesFlagged_of (a := a) hr hcb hi (by simp only [State.after_fval, boolWord_eq_ofNat]; rfl)
  refine ⟨writesFlagged_rounded hr hcb rfl ?_, writesFlagged_rounded hr hcb rfl ?_, writesFlagged_rounded hr hcb rfl ?_,
    writesFlagged_rounded hr hcb rfl ?_, writesFlagged_rounded hr hg rfl ?_, writesFlagged_rounded hr hb rfl ?_,
    chooses rfl, chooses rfl, compares rfl, compares rfl, compares rfl⟩
  all_goals simp only [State.after_rm, State.after_fval]

end Sys2Proof
end

section
/-! SUPPORT. O17: conversions to integers are clamped to their range (R116). -/

namespace Sys2Proof.Machine

theorem Fp.toInt_nan {v : Fp} (h : v.isNan = true) (rm : Rm) (lo hi : Int) : v.toInt rm lo hi = (0, eNV) := by
  cases v with
  | nan _ => rfl
  | inf _ => cases h
  | fin _ _ _ => cases h

theorem clamp_within {lo hi : Int} (hle : lo ≤ hi) (v : Int) (e : Exc) :
    let n : Int × Exc := if v < lo then (lo, eNV) else if hi < v then (hi, eNV) else (v, e)
    lo ≤ n.1 ∧ n.1 ≤ hi := by
  dsimp only
  split_ifs with h1 h2
  · exact ⟨le_refl lo, hle⟩
  · exact ⟨hle, le_refl hi⟩
  · exact ⟨not_lt.mp h1, not_lt.mp h2⟩

theorem Fp.toInt_clamped {lo hi : Int} (hle : lo ≤ hi) (v : Fp) (rm : Rm) :
    (lo ≤ (v.toInt rm lo hi).1 ∨ v.isNan = true) ∧ ((v.toInt rm lo hi).1 ≤ hi ∨ v.isNan = true) := by
  cases v with
  | nan _ => exact ⟨.inr rfl, .inr rfl⟩
  | inf neg =>
    cases neg
    · exact ⟨.inl hle, .inl (le_refl hi)⟩
    · exact ⟨.inl (le_refl lo), .inl hle⟩
  | fin neg m e =>
    obtain ⟨low, high⟩ := clamp_within hle (if neg then -((roundShift rm neg m (-e) false).1 : Int) else (roundShift rm neg m (-e) false).1)
      (if (roundShift rm neg m (-e) false).2 then eNX else 0)
    exact ⟨.inl low, .inl high⟩

theorem ITy.minVal_le_maxVal (t : ITy) : ITy.minVal t ≤ ITy.maxVal t := by
  cases t <;> decide

end Sys2Proof.Machine

namespace Sys2Proof
open Sys2Proof.Machine

/-- Settles O17: the three conversions, and the range of the first. -/
theorem scalarConversions : Obligations.ScalarConversions := by
  unfold Obligations.ScalarConversions
  intro s x src dst it rtz a b hr hg
  obtain ⟨low, high⟩ := Fp.toInt_clamped (ITy.minVal_le_maxVal it) ((fmtOf src).read (fcsrFtz s.core.csr.fcsr) (s.gint b).toNat)
    (if rtz then .rtz else fcsrRm s.core.csr.fcsr)
  refine ⟨writesFlagged_of hr hg rfl ?fcvti, fun h => Fp.toInt_nan h _ _ _, low, high, writesFlagged_rounded hr hg rfl ?fcvtf,
    fun h => writesFlagged_of hr hg rfl ?widens, fun h => writesFlagged_of hr hg rfl ?same⟩
  case fcvti => simp only [State.after_rm, State.after_fval]
  case fcvtf => rw [State.after_gint]
  case widens =>
    simp only [State.after_rm, State.after_ftz, State.after_fval, convertFp, decide_eq_false h]
    rfl
  case same =>
    simp only [State.after_rm, State.after_ftz, State.after_fval, convertFp, decide_eq_true h]
    rfl

end Sys2Proof
end

section
/-! SUPPORT. O15: the granules of a run, checked together (R110). -/

namespace Sys2Proof.Machine
open Sys2Proof

/-- The accesses of a run of granules from the cursor, each with the bounds of the whole run. -/
def granules (cap : GReg) (b : RegNum) (mk : Access → Access) (n : Nat) : List Access :=
  (List.range n).map fun j =>
    { mk (memAccess cap b (cap.cursor + BitVec.ofNat 48 (32 * j)) 32) with colour := false, inB := cap.inBounds cap.cursor (32 * n) }

theorem runAccesses_eq (cap : GReg) (b : RegNum) (ea : Addr) (inB : Bool) (mk : Access → Access) (n : Nat) :
    runAccesses cap b ea inB mk n = (List.range n).map fun j =>
      { mk (memAccess cap b (ea + BitVec.ofNat 48 (32 * j)) 32) with colour := false, inB := inB } := by
  induction n generalizing ea with
  | zero => rfl
  | succ n ih =>
    have step (j : Nat) : ea + 32 + BitVec.ofNat 48 (32 * j) = ea + BitVec.ofNat 48 (32 * (j + 1)) := by
      rw [Nat.mul_succ, Nat.add_comm, BitVec.ofNat_add, ← BitVec.add_assoc]
      rfl
    rw [runAccesses, ih, List.range_succ_eq_map, List.map_cons, List.map_map, Nat.mul_zero, BitVec.add_zero]
    simp only [step]
    rfl
theorem runOf_eq (cap : GReg) (b : RegNum) (mk : Access → Access) (n : Nat) : runOf cap b mk n = granules cap b mk n :=
  runAccesses_eq _ _ _ _ _ _

/-- Checks of several accesses fill translation buffers, and change nothing else. -/
theorem State.accessAll_eq (s : State) (as : List Access) : ∃ l, (s.accessAll as).1 = { s with tlb := l } := by
  induction as generalizing s with
  | nil => exact ⟨s.tlb, rfl⟩
  | cons a rest ih =>
    unfold State.accessAll
    split
    · next p _ =>
      obtain ⟨l, hl⟩ := s.fillTlb_eq p
      obtain ⟨l', hl'⟩ := ih (s.fillTlb p)
      exact ⟨l', hl'.trans (by rw [hl])⟩
    · exact ih s
theorem State.checkAll_eq {s t : State} {as : List Access} {ps : List Place} (h : s.checkAll as = .ok (t, ps)) :
    ∃ l, t = { s with tlb := l } := by
  obtain ⟨l, hl⟩ := s.accessAll_eq as
  unfold State.checkAll at h
  split at h
  · next he =>
    cases h
    exact ⟨l, by rw [← hl, he]⟩
  · cases h

theorem firstUncoloured_eq (ps : List Place) : firstUncoloured ps = ps.find? uncoloured := by
  induction ps with
  | nil => rfl
  | cons p rest ih =>
    rw [firstUncoloured, ih, List.find?_cons]
    cases uncoloured p <;> rfl

/-- Device memory, die SRAM and scratchpad hold colours (R61). -/
theorem find_uncoloured_none {ps : List Place} (h : ∀ p ∈ ps, p.inModule ∧ (p.region = .dev ∨ p.region = .sram ∨ p.region = .spad)) :
    ps.find? uncoloured = none := by
  refine List.find?_eq_none.mpr fun p hp => ?_
  obtain ⟨-, hr⟩ := h p hp
  have coloured : uncoloured p = false := by
    unfold uncoloured
    rcases hr with hr | hr | hr <;> rw [hr]
  rw [coloured]
  exact Bool.false_ne_true

section
variable {s t : State} {as : List Access} {ps : List Place}

theorem State.checkRun_ok (h : s.checkAll as = .ok (t, ps)) (hu : ps.find? uncoloured = none) : s.checkRun as = .ok (t, ps) := by
  rw [State.checkRun, h]
  show (match firstUncoloured ps with | some p => _ | none => _) = _
  rw [firstUncoloured_eq, hu]
theorem State.checkRun_uncoloured {p : Place} (h : s.checkAll as = .ok (t, ps)) (hu : ps.find? uncoloured = some p) :
    s.checkRun as = .error (.trap ⟨cTRANS, p.va.setWidth 64, 12⟩) := by
  rw [State.checkRun, h]
  show (match firstUncoloured ps with | some p => _ | none => _) = _
  rw [firstUncoloured_eq, hu]
  rfl
theorem State.checkRun_trap {e : Trap} (h : s.checkAll as = .error (.trap e)) : s.checkRun as = .error (.trap e) := by
  rw [State.checkRun, h]
  rfl
end

end Sys2Proof.Machine
end

section
/-! SUPPORT. O15: a colour is written, with nothing held back (R110). -/

namespace Sys2Proof.Machine
open Sys2Proof

/-! ## The list of colours -/

/-- The colours after one granule has taken a colour; colour 0 is not listed. -/
def colourPut (m : Assoc (BitVec 4)) (g : Nat) (c : BitVec 4) : Assoc (BitVec 4) := if c = 0 then assocDel m g else assocPut m g c

theorem State.setColourAt_eq (s : State) {l : Nat} (h : holdsColours l = true) (c : BitVec 4) :
    s.setColourAt l c = { s with colours := colourPut s.colours (l / 32) c } := if_pos h

section
variable {m : Assoc (BitVec 4)} (h : assocSorted m = true) (g : Nat) (c : BitVec 4)
include h

theorem colourPut_sorted : assocSorted (colourPut m g c) = true := by
  unfold colourPut
  split
  · exact assocSorted_del g h
  · exact assocSorted_put g c h
theorem colourPut_same : assocGetD (colourPut m g c) g 0 = c := by
  unfold colourPut assocGetD
  split
  · next hc => rw [assocGet_del_same g h, hc]; rfl
  · rw [assocGet_put_same]; rfl
theorem colourPut_other {j : Nat} (hj : j ≠ g) : assocGetD (colourPut m g c) j 0 = assocGetD m j 0 := by
  unfold colourPut assocGetD
  split
  · rw [assocGet_del_other g j h hj]
  · rw [assocGet_put_other _ _ _ _ hj]
end

/-! ## The writes of a run -/

/-- The granule of a location lies in the same memory. -/
theorem isHostLoc_granule (l : Nat) : isHostLoc (l / 32 * 32) = isHostLoc l := by
  rw [isHostLoc, isHostLoc, Bool.eq_iff_iff]
  simp only [Bool.or_eq_true, Bool.and_eq_true, decide_eq_true_eq, spaceSize]
  omega
theorem isPeerLoc_granule (l : Nat) : isPeerLoc (l / 32 * 32) = isPeerLoc l := by
  rw [isPeerLoc, isPeerLoc, Bool.eq_iff_iff]
  simp only [Bool.and_eq_true, decide_eq_true_eq, spaceSize]
  omega
theorem holdsColours_granule (l : Nat) : holdsColours (l / 32 * 32) = holdsColours l := by
  rw [holdsColours, holdsColours, Bool.eq_iff_iff]
  simp only [isDevLoc, isSramLoc, isSpadLoc, Bool.or_eq_true, Bool.and_eq_true, decide_eq_true_eq, spaceSize]
  omega

/-- R123: a write to a home of the device goes out at once, where none is held back and no freeze is past. -/
theorem State.send_here {s : State} {f : Flight} (hold : s.hold = false) (hhost : isHostLoc f.loc = false) (hpeer : isPeerLoc f.loc = false)
    (past : ∀ c t d, s.pastFreeze c t d = false) : s.send f = s.perform f := by
  rw [State.send, State.peerLost, State.queues, State.refuses, State.refusesAt, hold, hhost, hpeer, past]
  rfl

/-- With nothing held back, a colour reaches its granule at once, and beside it only charges and taint change. -/
theorem State.storeColour_eq {s : State} {p : Place} (h : s.plainMemory) (hp : p.inModule) (hc : holdsColours p.loc = true) (c : BitVec 4) :
    ∃ cs ks os, s.storeColour p c
      = { s with corpses := cs, contexts := ks, overlays := os, colours := colourPut s.colours (p.loc / 32) c } := by
  obtain ⟨hq, hold, -, hpast, -, -⟩ := h
  obtain ⟨-, hcopy, hhost, hpeer, -⟩ := hp
  obtain ⟨cs, ks, os, hu, -⟩ := s.beforeWrite_eq hcopy 1
  refine ⟨cs, ks, os, ?_⟩
  have hh : isHostLoc (p.loc / 32 * 32) = false := (isHostLoc_granule _).trans hhost
  have hr : isPeerLoc (p.loc / 32 * 32) = false := (isPeerLoc_granule _).trans hpeer
  have hl : p.loc / 32 * 32 / 32 = p.loc / 32 := Nat.mul_div_cancel _ (by decide)
  have sent : (s.beforeWrite p 1).send { (s.beforeWrite p 1).flight p [] false with loc := p.loc / 32 * 32, colour := some c }
      = { s with corpses := cs, contexts := ks, overlays := os, colours := colourPut s.colours (p.loc / 32) c } := by
    rw [State.send_here (by rw [hu]; exact hold) hh hr fun c t d => by rw [hu]; exact hpast c t d]
    show (s.beforeWrite p 1).setColourAt (p.loc / 32 * 32) c = _
    rw [State.setColourAt_eq _ ((holdsColours_granule _).trans hc), hu, hl]
  unfold State.storeColour State.afterWrite
  rw [State.beforeAccess_quiet hq]
  dsimp only
  rw [sent, State.release_quiet (by exact hq), ite_self]

/-- A run of granules takes its colour one after another. -/
theorem storeColours_eq {s : State} (h : s.plainMemory) (hm : assocSorted s.colours = true) (c : BitVec 4) (ps : List Place)
    (hp : ∀ p ∈ ps, p.inModule) (hc : ∀ p ∈ ps, holdsColours p.loc = true) :
    ∃ cs ks os m, storeColours s c ps = { s with corpses := cs, contexts := ks, overlays := os, colours := m }
      ∧ (∀ p ∈ ps, assocGetD m (p.loc / 32) 0 = c)
      ∧ ∀ g, (∀ p ∈ ps, p.loc / 32 ≠ g) → assocGetD m g 0 = assocGetD s.colours g 0 := by
  induction ps generalizing s with
  | nil => exact ⟨s.corpses, s.contexts, s.overlays, s.colours, rfl, fun _ h => absurd h List.not_mem_nil, fun _ _ => rfl⟩
  | cons p rest ih =>
    obtain ⟨hp1, hp2⟩ := List.forall_mem_cons.mp hp
    obtain ⟨hc1, hc2⟩ := List.forall_mem_cons.mp hc
    obtain ⟨cs, ks, os, e⟩ := State.storeColour_eq h hp1 hc1 c
    have hm' : assocSorted (s.storeColour p c).colours = true := by rw [e]; exact colourPut_sorted hm _ _
    obtain ⟨cs', ks', os', m, e', coloured, others⟩ := ih (s := s.storeColour p c) (by rw [e]; exact h) hm' hp2 hc2
    refine ⟨cs', ks', os', m, ?_, fun q hq => ?_, fun g hg => ?_⟩
    · rw [storeColours, e', e]
    · by_cases again : ∀ r ∈ rest, r.loc / 32 ≠ q.loc / 32
      · rcases List.mem_cons.mp hq with rfl | hq
        · rw [others _ again, e]
          exact colourPut_same hm _ _
        · exact coloured q hq
      · push Not at again
        obtain ⟨r, hr, hrq⟩ := again
        rw [← hrq]
        exact coloured r hr
    · obtain ⟨hne, hrest⟩ := List.forall_mem_cons.mp hg
      rw [others g hrest, e]
      exact colourPut_other hm _ _ (Ne.symm hne)

/-! ## The colours read -/

theorem State.settleAll_quiet {s : State} (h : s.quiet) (ps : List Place) : s.settleAll ps = s := by
  induction ps with
  | nil => rfl
  | cons p rest ih => rw [State.settleAll, State.beforeAccess_quiet h, ih]

/-- R111: with no write on its way, a granule of the module has the colour that memory holds of it. -/
theorem State.colourOf_here {s : State} {p : Place} (h : s.flights = []) (hp : p.inModule) : s.colourOf p 0 = s.colourAt p.loc := by
  obtain ⟨live, -⟩ := hp
  rw [State.colourOf, live]
  show s.granuleColour (p.loc / 32 + 0) = _
  rw [State.granuleColour, h]
  rfl
theorem State.colours4_here {s : State} (h : s.flights = []) (ps : List Place) (hp : ∀ p ∈ ps, p.inModule) :
    s.colours4 ps = ps.foldr (fun p v => (s.colourAt p.loc).toNat + 16 * v) 0 := by
  induction ps with
  | nil => rfl
  | cons p rest ih =>
    obtain ⟨hp1, hp2⟩ := List.forall_mem_cons.mp hp
    rw [State.colours4, ih hp2, State.colourOf_here h hp1]
    rfl

/-! ## STG and LDG -/

section
variable {s : State} {x : Pfx} {a b : RegNum} (hr : s.runs x) (hg : s.readable [b, a])

/-- The accesses of STG and of LDG. -/
def stgRun (s : State) (a b : RegNum) : List Access :=
  granules (s.g b) b (fun k => { k with w := true, t := true }) (1 + (s.gint a).toNat / 16 % 16)
def ldgRun (s : State) (a b : RegNum) : List Access := granules (s.g b) b Access.load (1 + (s.gint a).toNat % 16)

theorem stg_count (y : Word) : (y.extractLsb' 4 4).toNat = y.toNat / 16 % 16 := by
  rw [BitVec.extractLsb'_toNat, Nat.shiftRight_eq_div_pow]
theorem ldg_count (y : Word) : (y.extractLsb' 0 4).toNat = y.toNat % 16 := by
  rw [BitVec.extractLsb'_toNat, Nat.shiftRight_zero]

include hr hg

theorem exec_stg {t : State} {ps : List Place} (h : (s.after x [b, a]).checkRun (stgRun s a b) = .ok (t, ps)) :
    exec (.stg x a b) s = .next ((storeColours t ((t.gint a).setWidth 4) ps).ends (s.next x)) := by
  refine exec_reads_ok hr hg rfl ?_
  simp only [State.after_g, State.after_gint, stg_count, runOf_eq]
  rw [← stgRun, h]
  rfl
theorem exec_ldg {t : State} {ps : List Place} (h : (s.after x [b, a]).checkRun (ldgRun s a b) = .ok (t, ps)) :
    exec (.ldg x a b) s
      = .next (((t.settleAll ps).setInt a (BitVec.ofNat 64 ((t.settleAll ps).colours4 ps))).ends (s.next x)) := by
  refine exec_reads_ok hr hg rfl ?_
  simp only [State.after_g, State.after_gint, ldg_count, runOf_eq]
  rw [← ldgRun, h]
  rfl
theorem raises_stg {t : Trap} (h : (s.after x [b, a]).checkRun (stgRun s a b) = .error (.trap t)) : raises (.stg x a b) s t := by
  refine raises_reads hr hg rfl ?_
  simp only [State.after_g, State.after_gint, stg_count, runOf_eq]
  rw [← stgRun, h]
  rfl
theorem raises_ldg {t : Trap} (h : (s.after x [b, a]).checkRun (ldgRun s a b) = .error (.trap t)) : raises (.ldg x a b) s t := by
  refine raises_reads hr hg rfl ?_
  simp only [State.after_g, State.after_gint, ldg_count, runOf_eq]
  rw [← ldgRun, h]
  rfl
end

end Sys2Proof.Machine

namespace Sys2Proof
open Sys2Proof.Machine

/-- Settles O15: the checks of the run, then the colours written or read, or the fault. -/
theorem coloursOfARun : Obligations.ColoursOfARun := by
  unfold Obligations.ColoursOfARun
  intro s x a b hr hg
  obtain ⟨i, k, after⟩ := s.after_eq x [b, a]
  refine ⟨fun s2 ps h hm hs hp hc => ?stg, fun s2 ps h hq hp => ?ldg,
    fun s2 ps p h hu => raises_stg hr hg (State.checkRun_uncoloured h hu), fun s2 ps p h hu => raises_ldg hr hg (State.checkRun_uncoloured h hu),
    fun t h => raises_stg hr hg (State.checkRun_trap h), fun t h => raises_ldg hr hg (State.checkRun_trap h)⟩
  case stg =>
    have ran := exec_stg hr hg (State.checkRun_ok h (find_uncoloured_none hp))
    obtain ⟨l, checked⟩ := State.checkAll_eq h
    rw [after] at checked
    have gint : s2.gint a = s.gint a := by rw [checked]; rfl
    obtain ⟨cs, ks, os, m, stored, coloured, others⟩ := storeColours_eq (s := s2) (by rw [checked]; exact hm)
      (by rw [checked]; exact hs) ((s2.gint a).setWidth 4) ps (fun p h => (hp p h).1) hc
    have kept : Core.Kept s.core (storeColours s2 ((s2.gint a).setWidth 4) ps).core := by
      rw [stored, checked]
      exact Core.Kept.inherited s.core _ _ _
    refine ⟨_, ran, State.ends_pc _ _, kept.untouched _, fun p h => ?_, fun g hg => ?_, fun l => ?_, fun l => ?_⟩
    · show assocGetD (storeColours s2 _ ps).colours (p.loc / 32) 0 = _
      rw [stored, ← gint]
      exact coloured p h
    · show assocGetD (storeColours s2 _ ps).colours (g / 32) 0 = _
      rw [stored]
      exact (others _ hg).trans (by rw [checked]; rfl)
    · show memGet (storeColours s2 _ ps).mem l = _
      rw [stored, checked]
      rfl
    · show setHas (storeColours s2 _ ps).tags (l / 16) = _
      rw [stored, checked]
      rfl
  case ldg =>
    have ran := exec_ldg hr hg (State.checkRun_ok h (find_uncoloured_none hp))
    obtain ⟨l, checked⟩ := State.checkAll_eq h
    rw [after] at checked
    have quiet : s2.quiet := by rw [checked]; exact hq
    rw [State.settleAll_quiet quiet, State.colours4_here quiet.1 _ fun p h => (hp p h).1] at ran
    have colour (l : Nat) : s2.colourAt l = s.colourAt l := by rw [checked]; rfl
    simpa only [colour] using ran

end Sys2Proof
end

section
/-! SUPPORT. The elements of vector registers, read and written (R36, R170). -/

namespace Sys2Proof.Machine
open Sys2Proof

/-! ## Numbers split into fields, and joined -/

theorem splitN_eq (w n v : Nat) : splitN w n v = (List.range n).map fun i => v / 2 ^ (w * i) % 2 ^ w := by
  induction n generalizing v with
  | zero => rfl
  | succ n ih =>
    have step (i : Nat) : v / 2 ^ w / 2 ^ (w * i) = v / 2 ^ (w * (i + 1)) := by
      rw [Nat.div_div_eq_div_mul, ← Nat.pow_add, Nat.mul_succ, Nat.add_comm]
    rw [splitN, ih, Nat.shiftRight_eq_div_pow, List.range_succ_eq_map, List.map_cons, List.map_map, Nat.mul_zero, Nat.pow_zero, Nat.div_one]
    simp only [step]
    rfl
theorem joinN_lt (w : Nat) (l : List Nat) : joinN w l < 2 ^ (w * l.length) := by
  induction l with
  | nil => exact Nat.two_pow_pos _
  | cons e rest ih =>
    have he := Nat.mod_lt e (Nat.two_pow_pos w)
    have hr : (joinN w rest + 1) * 2 ^ w ≤ 2 ^ (w * rest.length) * 2 ^ w := Nat.mul_le_mul_right _ ih
    rw [joinN, Nat.shiftLeft_eq, List.length_cons, Nat.mul_succ, Nat.pow_add]
    rw [Nat.add_mul] at hr
    omega
/-- Fields that fit in a register stand in it as they are joined. -/
theorem toNat_ofNat_joinN {w n : Nat} {l : List Nat} (h : w * l.length ≤ n) : (BitVec.ofNat n (joinN w l)).toNat = joinN w l := by
  rw [BitVec.toNat_ofNat, Nat.mod_eq_of_lt ((joinN_lt w l).trans_le (Nat.pow_le_pow_right Nat.two_pos h))]
theorem joinN_field (w : Nat) (l : List Nat) {i : Nat} (hi : i < l.length) : joinN w l / 2 ^ (w * i) % 2 ^ w = l[i] % 2 ^ w := by
  induction l generalizing i with
  | nil => exact absurd hi (Nat.not_lt_zero i)
  | cons e rest ih =>
    rw [joinN, Nat.shiftLeft_eq]
    cases i with
    | zero => rw [Nat.mul_zero, Nat.pow_zero, Nat.div_one, Nat.add_mul_mod_self_right, Nat.mod_mod, List.getElem_cons_zero]
    | succ i =>
      rw [Nat.mul_succ, Nat.add_comm (w * i), Nat.pow_add, ← Nat.div_div_eq_div_mul, Nat.add_mul_div_right _ _ (Nat.two_pow_pos w),
        Nat.div_eq_of_lt (Nat.mod_lt _ (Nat.two_pow_pos w)), Nat.zero_add]
      exact ih (Nat.lt_of_succ_lt_succ hi)

/-! ## Elements -/

theorem elems_eq (w : Nat) (v : VReg) : elems w v = (List.range (2048 / w)).map (elemAt w v) := splitN_eq w _ _
theorem elemAt_lt (w : Nat) (v : VReg) (i : Nat) : elemAt w v i < 2 ^ w := Nat.mod_lt _ (Nat.two_pow_pos w)

theorem elemAt_ofElems {w : Nat} {l : List Nat} (hl : l.length = 2048 / w) {i : Nat} (hi : i < l.length) :
    elemAt w (ofElems w l) i = l[i] % 2 ^ w := by
  rw [elemAt, ofElems, toNat_ofNat_joinN (hl ▸ Nat.mul_div_le 2048 w), joinN_field w l hi]
theorem elemAt_ofElems_map {w k : Nat} (f : Nat → Nat) (hk : k < 2048 / w) :
    elemAt w (ofElems w ((List.range (2048 / w)).map f)) k = f k % 2 ^ w := by
  have len : ((List.range (2048 / w)).map f).length = 2048 / w := by rw [List.length_map, List.length_range]
  rw [elemAt_ofElems len (by rwa [len]), List.getElem_map, List.getElem_range]

/-- R170: where a result is given and the element is active, the result; elsewhere zero or what stood there. -/
theorem getElem?_mergeElems (act : Nat → Bool) (zero : Bool) (i : Nat) (rs : List (Option Nat)) (olds : List Nat) (j : Nat) :
    (mergeElems act zero i rs olds)[j]?
      = olds[j]?.map fun old => (rs[j]?.join.filter fun _ => act (i + j)).getD (if zero then 0 else old) := by
  induction olds generalizing i rs j with
  | nil => rfl
  | cons old rest ih =>
    cases j with
    | zero =>
      match rs with
      | [] => rfl
      | none :: _ => rfl
      | some v :: _ => cases h : act i <;> simp [mergeElems, Option.filter, h]
    | succ j =>
      show (_ :: mergeElems act zero (i + 1) rs.tail rest)[j + 1]? = _
      rw [List.getElem?_cons_succ, ih, List.getElem?_cons_succ, List.getElem?_tail, Nat.add_right_comm, Nat.add_assoc]
theorem length_mergeElems (act : Nat → Bool) (zero : Bool) (i : Nat) (rs : List (Option Nat)) (olds : List Nat) :
    (mergeElems act zero i rs olds).length = olds.length := by
  induction olds generalizing i rs with
  | nil => rfl
  | cons old rest ih => exact congrArg Nat.succ (ih (i + 1) rs.tail)

/-! ## Writing a vector register -/

theorem State.v_setV_self (t : State) (a : RegNum) (r : VReg) : (t.setV a r).v a = r := Vector.getElem_set_self _
theorem State.v_setV_other (t : State) {a n : RegNum} (r : VReg) (h : n ≠ a) : (t.setV a r).v n = t.v n :=
  Vector.getElem_set_ne a.isLt n.isLt fun e => h (BitVec.eq_of_toNat_eq e.symm)

theorem State.elemAt_putElems (s : State) (x : Pfx) (w : Nat) (a : RegNum) (rs : List (Option Nat)) {k : Nat} (hk : k < 2048 / w) :
    elemAt w ((s.putElems x w a rs).v a) k
      = (rs[k]?.join.filter fun _ => s.active x k).getD (if x.zero then 0 else elemAt w (s.v a) k) % 2 ^ w := by
  have len : (mergeElems (s.active x) x.zero 0 rs (elems w (s.v a))).length = 2048 / w := by
    rw [length_mergeElems, elems_eq, List.length_map, List.length_range]
  rw [State.putElems, State.v_setV_self, elemAt_ofElems len (by rwa [len])]
  congr 1
  apply Option.some_inj.mp
  rw [← List.getElem?_eq_getElem, getElem?_mergeElems, elems_eq, List.getElem?_map, List.getElem?_range hk, Nat.zero_add]
  rfl

/-- What an instruction that keeps its agent leaves when it writes a vector register at its end. -/
theorem Core.Kept.untouched_setV {s t : State} (h : Core.Kept s.core t.core) (a : RegNum) (r : VReg) (q : Addr) :
    Untouched { v := [a] } s ((t.setV a r).ends q) := by
  obtain ⟨⟨hg, hv, hp⟩, csr, handler, pending, pcc, dead, mx, mode⟩ := h
  constructor
  case v =>
    intro n hn
    refine (State.v_setV_other t r (by simpa using hn)).trans ?_
    simp only [State.v, hv]
  case pccRest => exact pcc ▸ ⟨GReg.rest_setCursor _ q, rfl⟩
  case mode => exact mode
  all_goals simp [State.g, State.p, State.ends_core, State.setV, *]

theorem Core.Kept.v_eq {s t : State} (h : Core.Kept s.core t.core) (n : RegNum) : t.v n = s.v n := by
  obtain ⟨⟨-, hv, -⟩, -⟩ := h
  rw [State.v, State.v, hv]
theorem Core.Kept.gint_eq {s t : State} (h : Core.Kept s.core t.core) (n : RegNum) : t.gint n = s.gint n := by
  obtain ⟨⟨hg, -, -⟩, -⟩ := h
  rw [State.gint, State.g, State.gint, State.g, hg]
theorem Core.Kept.active_eq {s t : State} (h : Core.Kept s.core t.core) (x : Pfx) (k : Nat) : t.active x k = s.active x k := by
  obtain ⟨⟨-, -, hp⟩, -⟩ := h
  rw [State.active, State.activeBits, State.p, State.active, State.activeBits, State.p, hp]

/-! ## Reading what a vector instruction reads (R171) -/

theorem Core.Kept.useG {s : State} {rs : List RegNum} (h : s.readable rs) :
    ∃ u, s.useG rs = .ok u ∧ Core.Kept s.core u.core ∧ u.core.vPois = s.core.vPois ∧ u.core.pPois = s.core.pPois := by
  obtain ⟨m, e⟩ := s.took_eq rs
  refine ⟨s.took rs, State.useG_eq h, ?_⟩
  rw [e]
  exact ⟨Core.Kept.inherited s.core _ _ _, rfl, rfl⟩

theorem Core.Kept.useVec {s : State} {x : Pfx} {srcs : List RegNum} {a : RegNum} {keep : Bool} (hv : s.readableV srcs)
    (hp : s.readableP [x.pred]) (ha : keep = true → s.readableV [a]) :
    ∃ u, s.useVec x srcs a keep = .ok u ∧ Core.Kept s.core u.core := by
  obtain ⟨m, e⟩ := s.tookV_eq srcs
  obtain ⟨m', e'⟩ := (s.tookV srcs).tookP_eq [x.pred]
  have hp' : (s.tookV srcs).readableP [x.pred] := by rw [e]; exact hp
  unfold State.useVec
  rw [State.useV_eq hv]
  show ∃ u, ((s.tookV srcs).useP [x.pred] >>= fun s => _) = _ ∧ _
  rw [State.useP_eq hp']
  cases keep with
  | false =>
    refine ⟨_, rfl, ?_⟩
    rw [e', e]
    exact Core.Kept.inherited s.core _ _ _
  | true =>
    obtain ⟨m'', e''⟩ := ((s.tookV srcs).tookP [x.pred]).tookV_eq [a]
    refine ⟨_, State.useV_eq (by rw [e', e]; exact ha rfl), ?_⟩
    rw [e'', e', e]
    exact Core.Kept.inherited s.core _ _ _

end Sys2Proof.Machine
end

section
/-! SUPPORT. O20: vector instructions that write a value to each active element, without flags (R177, R178, R180, R181, R184). -/

namespace Sys2Proof.Machine
open Sys2Proof

theorem fcsrRaise_zero (f : Word) : fcsrRaise f 0 = f := by
  simp [fcsrRaise]

/-- A result for each element, written once what the instruction reads has been read. -/
theorem vecWritten_of {s u : State} {x : Pfx} {w : Nat} {a : RegNum} {m r : Nat → Nat} (h : Core.Kept s.core u.core)
    (hm : ∀ k, k < 2048 / w → m k % 2 ^ w = r k % 2 ^ w) :
    VecWritten s ((u.putElems x w a ((List.range (2048 / w)).map fun k => some (m k))).ends (s.next x)) x w a r 0 := by
  obtain ⟨g, v, p, csr, handler, pending, pccRest, dead, mx, mode⟩ := h.untouched_setV a
    (ofElems w (mergeElems (u.active x) x.zero 0 ((List.range (2048 / w)).map fun k => some (m k)) (elems w (u.v a)))) (s.next x)
  refine ⟨fun k hk => ?_, ?_, ⟨g, v, p, nofun, handler, pending, pccRest, dead, mx, mode⟩, State.ends_pc _ _⟩
  · refine (State.elemAt_putElems u x w a _ hk).trans ?_
    rw [List.getElem?_map, List.getElem?_range hk, h.active_eq, h.v_eq]
    show ((some (m k)).filter fun _ => s.active x k).getD _ % 2 ^ w = _
    cases s.active x k
    · show (if x.zero = true then 0 else elemAt w (s.v a) k) % 2 ^ w = if x.zero = true then 0 else elemAt w (s.v a) k
      refine Nat.mod_eq_of_lt ?_
      split
      · exact Nat.two_pow_pos w
      · exact elemAt_lt w _ k
    · exact hm k hk
  · rw [fcsrRaise_zero]
    exact csr rfl

section
variable {i : Instr} {s : State} {x : Pfx} {w : Nat} {a b c : RegNum} {r : Nat → Nat} (hc : s.onCulvert = false)
include hc

theorem vecWrites_of {body : State → R State} {u : State} {m : Nat → Nat} (hi : exec i s = vectorOp x s body)
    (hb : body s = .ok (u.putElems x w a ((List.range (2048 / w)).map fun k => some (m k)))) (h : Core.Kept s.core u.core)
    (hm : ∀ k, k < 2048 / w → m k % 2 ^ w = r k % 2 ^ w) : vecWrites i s x w a r :=
  ⟨_, hi.trans (vectorOp_ok hc hb), vecWritten_of h hm⟩

/-- Form VV. -/
theorem vecWrites_vv {op : Nat → Nat → Nat} (h : s.vecReadable x [c, b] a)
    (hi : exec i s = vectorOp x s (vvBody x w false (fun _ u y => (op u y, 0)) a b c))
    (hm : ∀ k, k < 2048 / w → op (elemAt w (s.v c) k) (elemAt w (s.v b) k) % 2 ^ w = r k % 2 ^ w) : vecWrites i s x w a r := by
  obtain ⟨hv, hp, ha⟩ := h
  obtain ⟨u, hu, kept⟩ := Core.Kept.useVec hv hp ha
  refine vecWrites_of hc hi (u := u) ?_ kept hm
  rw [vvBody, hu]
  show Except.ok (u.putElems x w a ((List.zipWith (fun u y => (op u y, (0 : Exc))) (elems w (u.v c)) (elems w (u.v b))).map
    fun r => some r.1)) = _
  rw [elems_eq, elems_eq, List.zipWith_map, List.zipWith_self, List.map_map, kept.v_eq, kept.v_eq]
  rfl

/-- Form VU. -/
theorem vecWrites_vu {op : Nat → Nat} (h : s.vecReadable x [b] a)
    (hi : exec i s = vectorOp x s (vuBody x w false (fun _ y => (op y, 0)) a b))
    (hm : ∀ k, k < 2048 / w → op (elemAt w (s.v b) k) % 2 ^ w = r k % 2 ^ w) : vecWrites i s x w a r := by
  obtain ⟨hv, hp, ha⟩ := h
  obtain ⟨u, hu, kept⟩ := Core.Kept.useVec hv hp ha
  refine vecWrites_of hc hi (u := u) ?_ kept hm
  rw [vuBody, hu]
  show Except.ok (u.putElems x w a (((elems w (u.v b)).map fun y => (op y, (0 : Exc))).map fun r => some r.1)) = _
  rw [elems_eq, List.map_map, List.map_map, kept.v_eq]
  rfl

/-- General registers are read, and what inactive elements keep (R181, R184). -/
theorem vecWrites_general {rs : List RegNum} {ms : State → List (Option Nat)} {m : Nat → Nat} (h : s.vecReadable x [] a) (hg : s.readable rs)
    (hi : exec i s = vectorOp x s fun s => do
      let s ← s.useG rs
      let s ← s.useVec x [] a (Pfx.keeps x)
      return s.putElems x w a (ms s))
    (hms : ∀ u : State, Core.Kept s.core u.core → ms u = (List.range (2048 / w)).map fun k => some (m k))
    (hm : ∀ k, k < 2048 / w → m k % 2 ^ w = r k % 2 ^ w) : vecWrites i s x w a r := by
  obtain ⟨-, hp, ha⟩ := h
  obtain ⟨t, ht, kept, vPois, pPois⟩ := Core.Kept.useG hg
  obtain ⟨u, hu, kept'⟩ := Core.Kept.useVec (s := t) (x := x) (srcs := []) (a := a) (keep := Pfx.keeps x) nofun
    (by rw [State.readableP, pPois]; exact hp) (fun hk => by rw [State.readableV, vPois]; exact ha hk)
  have both := kept.trans kept'
  refine vecWrites_of hc hi (u := u) ?_ both hm
  rw [ht]
  show (t.useVec x [] a (Pfx.keeps x) >>= fun s => _) = _
  rw [hu, ← hms u both]
  rfl
end

/-- R180: element by element the one or the other register. -/
theorem getElem?_selElems (act : Nat → Bool) (i : Nat) (us vs : List Nat) (j : Nat) :
    (selElems act i us vs)[j]? = us[j]?.bind fun u => vs[j]?.map fun v => if act (i + j) then u else v := by
  induction us generalizing i vs j with
  | nil => simp [selElems]
  | cons u us ih =>
    cases vs with
    | nil => simp [selElems]
    | cons v vs =>
      cases j with
      | zero => rfl
      | succ j => rw [selElems, List.getElem?_cons_succ, ih, List.getElem?_cons_succ, List.getElem?_cons_succ, Nat.add_right_comm, Nat.add_assoc]
theorem selElems_eq (act : Nat → Bool) (n : Nat) (f g : Nat → Nat) :
    selElems act 0 ((List.range n).map f) ((List.range n).map g) = (List.range n).map fun k => if act k then f k else g k := by
  refine List.ext_getElem? fun j => ?_
  rw [getElem?_selElems, Nat.zero_add, List.getElem?_map, List.getElem?_map, List.getElem?_map]
  by_cases hj : j < n
  · rw [List.getElem?_range hj]
    rfl
  · rw [List.getElem?_eq_none (by simpa using hj)]
    rfl

/-- Element `k` of what VSEL writes (R180). -/
def State.selected (s : State) (x : Pfx) (w : Nat) (b c : RegNum) (k : Nat) : Nat :=
  if s.active x k then elemAt w (s.v c) k else elemAt w (s.v b) k
theorem State.selected_lt (s : State) (x : Pfx) (w : Nat) (b c : RegNum) (k : Nat) : s.selected x w b c k < 2 ^ w := by
  unfold State.selected
  split
  · exact elemAt_lt w _ k
  · exact elemAt_lt w _ k
theorem Core.Kept.selElems_eq {s u : State} (h : Core.Kept s.core u.core) (x : Pfx) (w : Nat) (b c : RegNum) :
    selElems (u.active x) 0 (elems w (u.v c)) (elems w (u.v b)) = (List.range (2048 / w)).map (s.selected x w b c) := by
  rw [elems_eq, elems_eq, Machine.selElems_eq, h.v_eq, h.v_eq, funext (h.active_eq x)]
  rfl

theorem exec_vsel {s : State} {x : Pfx} {t : ETy} {a b c : RegNum} (hc : s.onCulvert = false) (hv : s.readableV [c, b]) (hp : s.readableP [x.pred]) :
    ∃ z, exec (.vsel x t a b c) s = .next z ∧ Untouched { v := [a] } s z ∧ z.pc = s.next x
      ∧ ∀ j, j < 2048 / Machine.ETy.width t → elemAt (Machine.ETy.width t) (z.v a) j = s.selected x (Machine.ETy.width t) b c j := by
  obtain ⟨u, hu, kept⟩ := Core.Kept.useVec (s := s) (x := x) (a := a) (keep := false) hv hp nofun
  have ran : exec (.vsel x t a b c) s = .next ((u.setV a (ofElems (Machine.ETy.width t)
      ((List.range (2048 / Machine.ETy.width t)).map (s.selected x (Machine.ETy.width t) b c)))).ends (s.next x)) := by
    refine vectorOp_ok hc ?_
    rw [hu]
    exact congrArg (fun l => Except.ok (u.setV a (ofElems (Machine.ETy.width t) l))) (kept.selElems_eq x _ b c)
  refine ⟨_, ran, kept.untouched_setV _ _ _, State.ends_pc _ _, fun j hj => ?_⟩
  refine (congrArg (elemAt _ · j) (State.v_setV_self u a _)).trans ((elemAt_ofElems_map _ hj).trans ?_)
  exact Nat.mod_eq_of_lt (s.selected_lt x _ b c j)

theorem upFrom_eq (a n : Nat) : upFrom a n = (List.range n).map (a + ·) := by
  induction n generalizing a with
  | zero => rfl
  | succ n ih =>
    rw [upFrom, ih, List.range_succ_eq_map, List.map_cons, List.map_map]
    exact congrArg _ (List.map_congr_left fun k _ => by simp [Nat.add_assoc, Nat.add_comm 1])

theorem ITy.write_shiftRight (t : ITy) (v : Int) (k : Nat) : ITy.write t (v >>> k) = (v / 2 ^ k % 2 ^ ITy.width t).toNat := by
  rw [ITy.write, Int.shiftRight_eq_div_pow]
  push_cast
  rfl

end Sys2Proof.Machine

namespace Sys2Proof
open Sys2Proof.Machine

/-- Settles O20: the forms VV and VU with the function of each instruction, then those that read general registers, and VSEL. -/
theorem vectorBitsAndMovesByElement : Obligations.VectorBitsAndMovesByElement := by
  unfold Obligations.VectorBitsAndMovesByElement
  intro s x t i a b c imm hc hv hg
  obtain ⟨hsrc, hp, ha⟩ := hv
  have hvc : s.vecReadable x [c] a := ⟨fun n hn => hsrc n (List.mem_append_left [b] hn), hp, ha⟩
  have hvb : s.vecReadable x [b] a := ⟨fun n hn => hsrc n (List.mem_cons_of_mem c hn), hp, ha⟩
  have hv0 : s.vecReadable x [] a := ⟨nofun, hp, ha⟩
  have hgb : s.readable [b] := fun n hn => hg n (List.mem_cons_of_mem c hn)
  have hv : s.vecReadable x [c, b] a := ⟨hsrc, hp, ha⟩
  refine ⟨vecWrites_vv hc hv rfl fun k _ => rfl, vecWrites_vv hc hv rfl fun k _ => rfl, vecWrites_vv hc hv rfl fun k _ => rfl,
    vecWrites_vu hc hvb rfl fun k _ => rfl, vecWrites_vv hc hv rfl fun k _ => ?shl, vecWrites_vv hc hv rfl fun k _ => ?shr,
    vecWrites_vv hc hv rfl fun k _ => ?sar, vecWrites_vu hc hvc rfl fun k _ => Nat.mod_mod _ _,
    vecWrites_vu hc hvc rfl fun k _ => Nat.mod_mod _ _, vecWrites_vu hc hvb rfl fun k _ => rfl,
    vecWrites_general hc hv0 hgb rfl (fun u kept => ?vbc) fun k _ => rfl,
    vecWrites_general hc hv0 hg rfl (fun u kept => ?vrand) fun k _ => rfl, exec_vsel hc hsrc hp⟩
  case shl => rw [Nat.mod_mod, Nat.shiftLeft_eq]
  case shr => rw [Nat.shiftRight_eq_div_pow]
  case sar => rw [ITy.write_shiftRight]
  case vbc => rw [kept.gint_eq, List.map_const', List.length_range]
  case vrand =>
    rw [kept.gint_eq, kept.gint_eq, upFrom_eq, List.map_map]
    simp only [Function.comp_def, Nat.zero_add]

end Sys2Proof
end

section
/-! SUPPORT. O11: a memory whose list of bytes is out of order, and a write of the agent in focus on its way (R58, R128). -/

namespace Sys2Proof.Machine
open Sys2Proof

/-! ## A list of bytes that is not canonical

A list that names byte 640 before byte 0 answers zero for byte 0, which a search in rising order passes by. A write of zero at 640
takes its entry out, and byte 0 is found. -/

/-- The write of a zero at 640, by the security core. -/
def zeroFlight : Flight :=
  { loc := 640, bytes := [0], cap := false, key := none, colour := none, agent := .security, ticket := 0,
    origin := Core.security.origin, fn := 0, port := none, va := 0, pc := 0 }

def disorderedState : State := { State.reset with mem := [(640, 1), (0, 7)], flights := [zeroFlight] }

/-- FENCE.rel at device scope performs the write, and byte 0 then reads as its own entry. -/
theorem exec_disorderedFence : ∃ t, exec (.fence barePfx ⟨2, 0, false, 0⟩) disorderedState = .next t ∧ t.byteAt 0 = 7 :=
  ⟨_, rfl, rfl⟩

end Sys2Proof.Machine

namespace Sys2Proof
open Sys2Proof.Machine

/-- Refutes O11, in its clause about the bytes of a line that no performed access writes. The clause asks for no canonical memory
(O39), and in a list of bytes that is out of order the removal of one entry can bring another one to light. -/
theorem not_fencesDrainTheirScope : ¬ Obligations.FencesDrainTheirScope := by
  unfold Obligations.FencesDrainTheirScope
  intro h
  obtain ⟨hfence, -⟩ := h
  obtain ⟨-, -, hrelease⟩ := hfence disorderedState barePfx ⟨2, 0, false, 0⟩ nofun
  obtain ⟨t, hexec, -, done, hsub, -, -, -, hgood⟩ := hrelease (.inl rfl)
  obtain ⟨-, -, hsame⟩ := hgood rfl
  have hother : ∀ f ∈ done, f.colour = none → 0 / 64 < f.loc / 64 ∨ (f.loc + f.bytes.length - 1) / 64 < 0 / 64 := by
    intro f hf _
    obtain rfl := List.mem_singleton.mp (hsub.subset hf)
    exact .inl (by decide)
  obtain ⟨u, hexec', hseven⟩ := exec_disorderedFence
  cases hexec.symm.trans hexec'
  cases (hsame 0 hother).symm.trans hseven

end Sys2Proof
end

section
/-! SUPPORT. O48: what a page walk puts into the buffers of its core, and what is found there then (R147, R148). -/

namespace Sys2Proof.Machine
open Sys2Proof

/-! ## Reading a buffer after an entry has been put into one -/

section
variable {b d : Buffer} {n : BitVec 8} {va : Nat} {l : Leaf}

theorem tlbFind_append (es fs : List TlbEntry) :
    tlbFind b n va (es ++ fs) = (tlbFind b n va es).or (tlbFind b n va fs) := by
  induction es with
  | nil => rfl
  | cons e rest ih =>
    simp only [List.cons_append, tlbFind]
    split
    · rfl
    · exact ih

theorem tlbFind_tlbDrop_other (h : d ≠ b) (es : List TlbEntry) : tlbFind b n va (tlbDrop d es) = tlbFind b n va es := by
  induction es with
  | nil => rfl
  | cons e rest ih =>
    by_cases hd : e.buffer = d
    · have hb : e.buffer ≠ b := fun e' => h (hd.symm.trans e')
      simp [tlbDrop, TlbEntry.inBuffer, tlbFind, hd, h]
    · simp [tlbDrop, TlbEntry.inBuffer, tlbFind, hd, ih]

/-- A buffer that has no translation of an address has none either once it has lost an entry. -/
theorem tlbFind_tlbDrop_none {es : List TlbEntry} (h : tlbFind b n va es = none) : tlbFind b n va (tlbDrop d es) = none := by
  induction es with
  | nil => rfl
  | cons e rest ih =>
    simp only [tlbFind] at h
    split at h
    · cases h
    · next hne =>
      by_cases hd : e.inBuffer d = true
      · simpa [tlbDrop, hd] using h
      · rw [tlbDrop, if_neg hd, tlbFind, if_neg hne]
        exact ih h

theorem mem_tlbDrop {e : TlbEntry} {es : List TlbEntry} (h : e ∈ tlbDrop d es) : e ∈ es := by
  induction es with
  | nil => exact h
  | cons f rest ih =>
    simp only [tlbDrop] at h
    split at h
    · exact List.mem_cons_of_mem f h
    · rcases List.mem_cons.mp h with rfl | h
      · exact List.mem_cons_self ..
      · exact List.mem_cons_of_mem f (ih h)

theorem tlbFind_tlbPut_other (h : d ≠ b) (page : Nat) (es : List TlbEntry) :
    tlbFind b n va (tlbPut n page l es d) = tlbFind b n va es := by
  have new : tlbFind b n va [⟨d, n, page, l⟩] = none := by simp [tlbFind, h]
  unfold tlbPut
  rw [tlbFind_append, new, Option.or_none]
  split
  · exact tlbFind_tlbDrop_other h es
  · rfl

theorem tlbFind_tlbPut_same {es : List TlbEntry} (h : tlbFind b n va es = none) :
    tlbFind b n va (tlbPut n (l.pageOf va) l es b) = some l := by
  have new : tlbFind b n va [⟨b, n, l.pageOf va, l⟩] = some l := by simp [tlbFind]
  unfold tlbPut
  rw [tlbFind_append, new]
  split
  · rw [tlbFind_tlbDrop_none h]; rfl
  · rw [h]; rfl

theorem mem_tlbPut {e : TlbEntry} {page : Nat} {es : List TlbEntry} (h : e ∈ tlbPut n page l es d) : e ∈ es ∨ e = ⟨d, n, page, l⟩ := by
  unfold tlbPut at h
  rcases List.mem_append.mp h with h | h
  · split at h
    · exact .inl (mem_tlbDrop h)
    · exact .inl h
  · exact .inr (List.mem_singleton.mp h)

/-! ## Several buffers filled together -/

theorem tlbFind_fill_others {bs : List Buffer} (h : b ∉ bs) (page : Nat) (es : List TlbEntry) :
    tlbFind b n va (bs.foldl (tlbPut n page l) es) = tlbFind b n va es := by
  induction bs generalizing es with
  | nil => rfl
  | cons d rest ih =>
    obtain ⟨hd, hrest⟩ := not_or.mp (mt List.mem_cons.mpr h)
    exact (ih hrest _).trans (tlbFind_tlbPut_other (Ne.symm hd) page es)

theorem mem_fill {e : TlbEntry} {page : Nat} {bs : List Buffer} {es : List TlbEntry} (h : e ∈ bs.foldl (tlbPut n page l) es) :
    e ∈ es ∨ ∃ d ∈ bs, e = ⟨d, n, page, l⟩ := by
  induction bs generalizing es with
  | nil => exact .inl h
  | cons d rest ih =>
    rcases ih h with h | ⟨d', hd', he⟩
    · exact (mem_tlbPut h).imp_right fun he => ⟨d, List.mem_cons_self .., he⟩
    · exact .inr ⟨d', List.mem_cons_of_mem d hd', he⟩
end

/-- The micro-TLB of an agent comes first of its buffers, and once. -/
theorem buffersOf_cons (a : AgentId) : ∃ rest, buffersOf a = .micro a :: rest ∧ .micro a ∉ rest := by
  refine ⟨_, rfl, ?_⟩
  cases a.cluster <;> simp

/-- R147: what a walk has filled is found, where no buffer of the agent held a translation before. -/
theorem State.tlbLookup_tlbFill {s : State} {a : AgentId} {n : BitVec 8} {va : Nat} (l : Leaf)
    (h : s.tlbLookup n va (buffersOf a) = none) : (s.tlbFill a n (l.pageOf va) l).tlbLookup n va (buffersOf a) = some l := by
  obtain ⟨rest, hbs, hmicro⟩ := buffersOf_cons a
  rw [hbs, State.tlbLookup] at h
  have none : tlbFind (.micro a) n va s.tlb = none := by
    split at h
    · cases h
    · assumption
  have found : tlbFind (.micro a) n va (s.tlbFill a n (l.pageOf va) l).tlb = some l := by
    rw [State.tlbFill, hbs, List.foldl_cons]
    exact (tlbFind_fill_others hmicro _ _).trans (tlbFind_tlbPut_same none)
  rw [hbs, State.tlbLookup, found]

/-! ## The walk, case by case -/

section
variable {s : State} {c : CoreId} {n : BitVec 8} {va : Nat} {k : Ctx}

theorem State.walkFill_held (h : s.tlbLookup n va (buffersOf (.core c)) ≠ none) : s.walkFill c n va = s := by
  unfold State.walkFill
  split
  · next hnone => exact absurd hnone h
  · rfl

variable (hk : assocGet s.contexts n.toNat = some k)
include hk

theorem State.walkFill_error {e : Word} (h : s.mapOf k va = .error e) : s.walkFill c n va = s := by
  unfold State.walkFill
  rw [hk]
  split
  · next hk' _ => cases hk'; rw [h]
  · rfl

theorem State.walkFill_alias {l : Leaf} (h : s.mapOf k va = .ok l) (hw : inWindow va = false) (ha : aliasFind l va s.tlb ≠ none) :
    s.walkFill c n va = s := by
  unfold State.walkFill
  rw [hk]
  split
  · next hk' _ => cases hk'; simp [h, hw, Option.isSome_iff_ne_none.mpr ha]
  · rfl

theorem State.walkFill_fills {l : Leaf} (hnone : s.tlbLookup n va (buffersOf (.core c)) = none) (h : s.mapOf k va = .ok l)
    (ha : inWindow va = true ∨ aliasFind l va s.tlb = none) : s.walkFill c n va = s.tlbFill (.core c) n (l.pageOf va) l := by
  have alone : (!inWindow va && (aliasFind l va s.tlb).isSome) = false := by
    rcases ha with h | h <;> simp [h]
  unfold State.walkFill
  rw [hk, hnone]
  simp only [h, alone]
  rfl
end

end Sys2Proof.Machine
end

section
/-! SUPPORT. O48: writes on their way that a write at its home takes along, and what it leaves in memory (R122 to R125, R361). -/

namespace Sys2Proof.Machine
open Sys2Proof

/-! ## Which writes are performed -/

theorem splitDue_perm (sel : Flight → Bool) (due fs : List Flight) :
    ((splitDue sel due fs).1 ++ (splitDue sel due fs).2).Perm (fs ++ due) := by
  induction fs with
  | nil => simp [splitDue]
  | cons f rest ih =>
    simp only [splitDue]
    split
    · exact ih.cons f
    · exact List.perm_middle.trans (ih.cons f)

theorem mem_splitDue_of_due {sel : Flight → Bool} {due : List Flight} {f : Flight} (hf : f ∈ due) (fs : List Flight) :
    f ∈ (splitDue sel due fs).1 := by
  induction fs with
  | nil => exact hf
  | cons g rest ih =>
    simp only [splitDue]
    split
    · exact List.mem_cons_of_mem g ih
    · exact ih

/-- A write that stays on its way is not selected, and comes before none of those that go. -/
theorem not_ordered_of_kept {sel : Flight → Bool} {due fs : List Flight} {g : Flight} (hg : g ∈ (splitDue sel due fs).2) :
    sel g = false ∧ ∀ f ∈ due, Flight.ordered g f = false := by
  induction fs with
  | nil => cases hg
  | cons h rest ih =>
    simp only [splitDue] at hg
    split at hg
    · exact ih hg
    · next hstays =>
      rcases List.mem_cons.mp hg with rfl | hg
      · obtain ⟨hsel, hany⟩ := not_or.mp (mt (Bool.or_eq_true _ _).mpr hstays)
        refine ⟨Bool.eq_false_of_not_eq_true hsel, fun f hf => Bool.eq_false_of_not_eq_true fun ho => hany ?_⟩
        exact List.any_eq_true.mpr ⟨f, mem_splitDue_of_due hf rest, ho⟩
      · exact ih hg

/-! ## What homes refuse -/

theorem State.refuses_iff (s : State) (g : Flight) :
    s.refuses g = true ↔ isHostLoc g.loc = false ∧ s.pastFreeze g.context g.task (s.zoneAt g.loc g.va) = true := by
  simp [State.refuses, State.refusesAt]

/-- R361: of the writes given, those that no home refuses are performed, and the others stay before the rest. -/
theorem State.performDue_eq (s : State) (due rest : List Flight) :
    s.performDue due rest = { s.performAll (due.filter fun f => !s.refuses f) with flights := due.filter s.refuses ++ rest } := by
  unfold State.performDue
  split
  · next h =>
    have none (f : Flight) : s.refuses f = false := State.refuses_nil (List.isEmpty_iff.mp h) f
    simp [none]
  · rfl

/-! ## What a write leaves in memory -/

theorem State.performPosted_mem (s : State) (f : Flight) : (s.performPosted f).mem = (s.perform f).mem := by
  unfold State.performPosted
  dsimp only
  split <;> rfl

theorem State.perform_mem {s : State} {f : Flight} (hc : f.colour = none) (hb : s.bad = []) :
    (s.perform f).mem = memWrite (s.taken f.key f.loc f.bytes.length).mem f.loc f.bytes := by
  obtain ⟨o, ps, b, h⟩ := State.perform_eq hc hb
  rw [h]

theorem State.readBytes_perform {s : State} {f : Flight} (hc : f.colour = none) (hb : s.bad = []) (hm : Memory.wf s.mem = true) :
    (s.perform f).readBytes f.loc f.bytes.length = f.bytes := by
  rw [State.readBytes, State.perform_mem hc hb]
  exact memRead_write_same _ _ (State.taken_wf f.key f.loc f.bytes.length hm)

end Sys2Proof.Machine
end

section
/-! SUPPORT. O48: the slots of a cluster's frame, one after another, and the atomic in one of them (R130, R361). -/

namespace Sys2Proof.Machine
open Sys2Proof

theorem natOf_bytesOf (n v : Nat) : natOf (bytesOf n v) = v % 2 ^ (8 * n) := by
  induction n generalizing v with
  | zero => simp [bytesOf, natOf, Nat.mod_one]
  | succ n ih =>
    have e : 2 ^ (8 * (n + 1)) = 256 * 2 ^ (8 * n) := by rw [Nat.mul_add, Nat.pow_add, Nat.mul_comm]
    rw [bytesOf, natOf, ih, e, Nat.mod_mul, BitVec.toNat_ofNat]

/-- The last slot of a run of the frame is taken last. -/
theorem State.rmwFrame_succ (s : State) (k : Nat) {slot : Nat} (hs : slot < 10) (n : Nat) :
    s.rmwFrame k slot (n + 1) = (s.rmwFrame k slot n).rmwSlot (slotAgent k ((slot + n) % 10)) := by
  induction n generalizing s slot with
  | zero => exact congrArg (fun k' => s.rmwSlot (slotAgent k k')) (Nat.mod_eq_of_lt hs).symm
  | succ n ih =>
    rw [State.rmwFrame, ih (s.rmwSlot (slotAgent k slot)) (Nat.mod_lt _ (by decide)), State.rmwFrame, Nat.mod_add_mod]
    congr 3
    omega

section
variable {s : State} {die : BitVec 2} {cluster : BitVec 7} {slot : BitVec 4}

theorem exec_scratchpadRmwSlot_beyond (h : 10 ≤ slot.toNat) : exec (.scratchpadRmwSlot die cluster slot) s = .next s := by
  show execScratchpadRmwSlot die cluster slot s = _
  rw [execScratchpadRmwSlot, if_neg (by omega)]

/-- R130: the frame goes on up to the slot, whose agent's atomic comes last. -/
theorem exec_scratchpadRmwSlot {k : Nat} (hk : k = die.toNat * 128 + cluster.toNat) (h : slot.toNat < 10) (hf : (s.cluster k).frame < 10) :
    let u := s.rmwFrame k (s.cluster k).frame ((slot.toNat + 10 - (s.cluster k).frame) % 10)
    let t := u.rmwSlot (slotAgent k slot.toNat)
    exec (.scratchpadRmwSlot die cluster slot) s = .next (t.setCluster k { t.cluster k with frame := (slot.toNat + 1) % 10 }) := by
  subst hk
  intro u t
  have last : ((s.cluster (die.toNat * 128 + cluster.toNat)).frame
      + (slot.toNat + 10 - (s.cluster (die.toNat * 128 + cluster.toNat)).frame) % 10) % 10 = slot.toNat := by omega
  have run := s.rmwFrame_succ (die.toNat * 128 + cluster.toNat) hf
    ((slot.toNat + 10 - (s.cluster (die.toNat * 128 + cluster.toNat)).frame) % 10)
  rw [last] at run
  show execScratchpadRmwSlot die cluster slot s = _
  rw [execScratchpadRmwSlot, if_pos h]
  exact congrArg (fun t => Host.Outcome.next (State.setCluster t _ { State.cluster t _ with frame := _ })) run

@[simp] theorem State.cluster_setCluster_same (s : State) (k : Nat) (c : Cluster) : (s.setCluster k c).cluster k = c := by
  simp [State.cluster, State.setCluster, assocGetD, assocGet_put_same]
end

/-! ## The atomic in its slot -/

theorem State.readNat_perform {s : State} {f : Flight} {n v : Nat} (hc : f.colour = none) (hb : s.bad = []) (hm : Memory.wf s.mem = true)
    (hv : f.bytes = bytesOf n v) : (s.perform f).readNat f.loc n = v % 2 ^ (8 * n) := by
  have wrote := State.readBytes_perform hc hb hm
  rw [hv, length_bytesOf] at wrote
  rw [State.readNat, wrote, natOf_bytesOf]

/-- R92, R130: the state once the atomic of an agent in its slot has written, where its operation writes. -/
def State.rmwWrites (s : State) (a : AgentId) (loc : Nat) (va : Addr) (n : Nat) (op : BitVec 3) (arg cmp : Word) : State :=
  match atomicNew op n (s.readNat loc n) arg.toNat cmp.toNat with
  | some v =>
    s.perform { loc := loc, bytes := bytesOf n v, cap := false, key := none, colour := none, agent := a, ticket := 0,
                origin := (s.agent a).origin, fn := 0, port := none, va := va, pc := (s.agent a).pcc.cursor }
  | none => s

theorem State.readNat_rmwWrites {s : State} (hb : s.bad = []) (hm : Memory.wf s.mem = true) (a : AgentId) (loc : Nat) (va : Addr) (n : Nat)
    (op : BitVec 3) (arg cmp : Word) : (s.rmwWrites a loc va n op arg cmp).readNat loc n
      = (match atomicNew op n (s.readNat loc n) arg.toNat cmp.toNat with | some v => v % 2 ^ (8 * n) | none => s.readNat loc n) := by
  unfold State.rmwWrites
  cases atomicNew op n (s.readNat loc n) arg.toNat cmp.toNat with
  | none => rfl
  | some v =>
    exact State.readNat_perform rfl hb hm rfl

section
variable {s : State} {a : AgentId} {loc : Nat} {va : Addr} {wide : Bool} {op : BitVec 3} {arg cmp : Word}
  (hw : (s.agent a).wait = some (.rmw loc va wide op arg cmp none))
include hw

theorem State.rmwSlot_refused (h : s.refusesAt (s.agent a).owner (s.agent a).ident.task loc va = true) : s.rmwSlot a = s := by
  unfold State.rmwSlot
  dsimp only
  rw [hw]
  exact if_pos h

/-- R130: an atomic in its slot reads and writes in one step, and its agent receives the old value. -/
theorem State.rmwSlot_performs (h : s.refusesAt (s.agent a).owner (s.agent a).ident.task loc va = false) :
    let n := if wide then 8 else 4
    ((s.rmwSlot a).agent a).wait = some (.rmw loc va wide op arg cmp (some (BitVec.ofNat 64 (s.readNat loc n))))
      ∧ (s.rmwSlot a).mem = (s.rmwWrites a loc va n op arg cmp).mem := by
  intro n
  have made : s.rmwSlot a = (s.rmwWrites a loc va n op arg cmp).setAgent { (s.rmwWrites a loc va n op arg cmp).agent a with
      wait := some (.rmw loc va wide op arg cmp (some (BitVec.ofNat 64 (s.readNat loc n)))) } := by
    unfold State.rmwSlot
    dsimp only
    rw [hw]
    exact if_neg (Bool.eq_false_iff.mp h)
  rw [made]
  refine ⟨?_, State.setAgent_mem ..⟩
  rw [State.agent_setAgent_same]
  exact State.agent_agent (s.rmwWrites a loc va n op arg cmp) a
end

/-! ## Faults taken at the boundary -/

/-- R138: a pending fault can be taken where there is one, no handler is active and no access has been issued. -/
theorem Core.takesPending_iff (c : Core) :
    c.takesPending = true ↔ c.pending ≠ [] ∧ c.handler = false ∧ c.issuedWait = false := by
  simp [Core.takesPending, and_assoc]

section
variable {s : State} {a : AgentId}

theorem exec_impreciseFaultTake_none
    (h : (s.focus a).core.pending = [] ∨ (s.focus a).core.handler = true ∨ (s.focus a).core.issuedWait = true) :
    exec (.impreciseFaultTake a) s = .next (s.focus a) := by
  refine if_neg fun ht => ?_
  obtain ⟨hpending, hhandler, hissued⟩ := (Core.takesPending_iff _).mp ht
  rcases h with h | h | h
  · exact hpending h
  · exact absurd h (by simp [hhandler])
  · exact absurd h (by simp [hissued])

theorem exec_impreciseFaultTake {r : FaultRec} {rest : List FaultRec} (hp : (s.focus a).core.pending = r :: rest)
    (hh : (s.focus a).core.handler = false) (hi : (s.focus a).core.issuedWait = false) : exec (.impreciseFaultTake a) s =
      .next ((({ (s.focus a).abandonMark with core := { (s.focus a).abandonMark.core with pending := rest } } : State).takeFault r 1).done) := by
  have takes : (s.focus a).core.takesPending = true := (Core.takesPending_iff _).mpr ⟨by simp [hp], hh, hi⟩
  have oldest : (s.focus a).abandonMark.core.pending = r :: rest := hp
  refine (if_pos takes).trans ?_
  rw [State.takePending, oldest]
end

end Sys2Proof.Machine

namespace Sys2Proof
open Sys2Proof.Machine

/-- Settles O48: the walk by what its buffers and the tables hold, a write at its home, the slots of the frame, the fault at the
boundary. -/
theorem accessesArePerformedAtTheirHomes : Obligations.AccessesArePerformedAtTheirHomes := by
  unfold Obligations.AccessesArePerformedAtTheirHomes
  refine ⟨fun s c n va k hk => ⟨fun l hnone hl ha => ?walk, fun l hl hw ha => ?aliased, fun e he => ?failed, fun hheld => ?held⟩,
    fun s k f go keep hf hsplit => ?performs, fun s k hnone => ?nothing,
    fun s die cluster slot ag loc va wide op arg cmp => ?rmw, fun s die cluster slot => exec_scratchpadRmwSlot_beyond,
    fun s ag => ⟨fun r rest => exec_impreciseFaultTake, exec_impreciseFaultTake_none⟩⟩
  case walk =>
    refine ⟨s.tlbFill (.core c) n (l.pageOf va.toNat) l, congrArg _ (State.walkFill_fills hk hnone hl ha), rfl,
      State.tlbLookup_tlbFill l hnone, fun e he => ?_⟩
    refine (mem_fill he).imp_right ?_
    rintro ⟨b, hb, rfl⟩
    exact ⟨hb, rfl, rfl, rfl⟩
  case aliased => exact congrArg _ (State.walkFill_alias hk hl hw ha)
  case failed => exact congrArg _ (State.walkFill_error hk he)
  case held => exact congrArg _ (State.walkFill_held hheld)
  case performs =>
    obtain ⟨rfl, rfl⟩ := Prod.mk.inj hsplit
    have taken : s.flights.take (k + 1) = s.flights.take k ++ [f] := by rw [List.take_add_one]; exact congrArg _ (congrArg Option.toList hf)
    refine ⟨?_, s.refuses_iff, taken ▸ splitDue_perm _ _ _, fun g hg => (not_ordered_of_kept hg).2 f (List.mem_singleton.mpr rfl),
      fun hgo hc hb hm => ?_⟩
    · show execHomeAccessPerform k s = _
      rw [execHomeAccessPerform, hf]
      exact congrArg _ (s.performDue_eq _ _)
    · rw [hgo, State.readBytes]
      exact (congrArg (memRead · f.loc f.bytes.length) (s.performPosted_mem f)).trans (State.readBytes_perform hc hb hm)
  case nothing =>
    show execHomeAccessPerform k s = _
    rw [execHomeAccessPerform, hnone]
  case rmw =>
    intro k first u hslot hfirst hag hw refused
    subst hag
    have run := exec_scratchpadRmwSlot (s := s) (die := die) (cluster := cluster) rfl hslot hfirst
    have frame (t : State) : ((t.setCluster k { t.cluster k with frame := (slot.toNat + 1) % 10 }).cluster k).frame = (slot.toNat + 1) % 10 :=
      congrArg Cluster.frame (State.cluster_setCluster_same t k _)
    refine ⟨fun hr hb hm => ⟨_, run, ?_, ?_, frame _⟩, fun hr => ⟨_, run, ?_, ?_, frame _⟩⟩
    · exact (State.rmwSlot_performs hw hr).1
    · refine (congrArg (fun m => natOf (memRead m loc _)) (State.rmwSlot_performs hw hr).2).trans ?_
      exact State.readNat_rmwWrites hb hm ..
    · rw [State.rmwSlot_refused hw hr]; rfl
    · rw [State.rmwSlot_refused hw hr]; exact hw

end Sys2Proof
end

section
/-! SUPPORT. O43: what the engines hold, which no access, report or trace entry changes (R294, R304, R308). -/

namespace Sys2Proof.Machine
open Sys2Proof

/-- The engines: the culverts of the clusters, and the cisterns. -/
def State.engines (s : State) : Assoc Cluster × Vector Engine 16 := (s.clusters, s.cisterns)

theorem State.engine_congr {s t : State} (h : t.engines = s.engines) (i : EngineId) : t.engine i = s.engine i := by
  obtain ⟨hclusters, hcisterns⟩ := Prod.mk.inj h
  unfold State.engine State.cluster
  rw [hclusters, hcisterns]

/-! ## Agents and reports -/

section
variable (s : State)

@[simp] theorem State.setAgent_engines (c : Core) : (s.setAgent c).engines = s.engines := by
  unfold State.setAgent
  split <;> rfl
@[simp] theorem State.focus_engines (a : AgentId) : (s.focus a).engines = s.engines := by
  unfold State.focus
  split <;> rfl
@[simp] theorem State.loadOwner_engines (i : EngineId) : (s.loadOwner i).engines = s.engines := by
  cases i with
  | culvert u => exact State.setAgent_engines s _
  | cistern k => rfl

@[simp] theorem State.flushRings_engines (f : Nat) : (s.flushRings f).engines = s.engines := by
  unfold State.flushRings
  dsimp only
  split <;> rfl
@[simp] theorem State.dropImprecise_engines (r : FaultRec) : (s.dropImprecise r).engines = s.engines := by
  unfold State.dropImprecise State.streamRecord
  split
  · exact State.flushRings_engines _ _
  · rfl
@[simp] theorem State.updateItem_engines (o : Origin) (f : Core → Core) : (s.updateItem o f).engines = s.engines := by
  unfold State.updateItem
  split
  · exact State.setAgent_engines s _
  · split <;> rfl
@[simp] theorem State.reportImprecise_engines (o : Origin) (r : FaultRec) : (s.reportImprecise o r).engines = s.engines := by
  unfold State.reportImprecise
  split
  · split
    · exact State.updateItem_engines s o _
    · exact State.dropImprecise_engines s r
  · exact State.dropImprecise_engines s r

theorem State.traceEnd_eq (c : Cmd) (die : BitVec 2) :
    ∃ m t b l k, s.traceEnd c die = { s with mem := m, tags := t, bad := b, lines := l, contexts := k } := by
  unfold State.traceEnd State.traceCopy
  split
  · exact ⟨s.mem, s.tags, s.bad, s.lines, s.contexts, rfl⟩
  · split
    · exact ⟨s.mem, s.tags, s.bad, s.lines, s.contexts, rfl⟩
    · obtain ⟨m, t, b, l, h⟩ := s.trace_eq _ _ _ _ _ _ _ _
      exact ⟨m, t, b, l, _, h⟩
@[simp] theorem State.traceEnd_engines (c : Cmd) (die : BitVec 2) : (s.traceEnd c die).engines = s.engines := by
  obtain ⟨m, t, b, l, k, h⟩ := s.traceEnd_eq c die
  rw [h]
  rfl

/-! ## Accesses -/

@[simp] theorem State.setColourAt_engines (l : Nat) (c : BitVec 4) : (s.setColourAt l c).engines = s.engines := by
  unfold State.setColourAt
  split <;> rfl
@[simp] theorem State.writeCap_engines (l : Nat) (bytes : List Byte) (tag : Bool) : (s.writeCap l bytes tag).engines = s.engines := by
  unfold State.writeCap
  dsimp only
  split <;> rfl
@[simp] theorem State.markOwn_engines (l n : Nat) : (s.markOwn l n).engines = s.engines := by
  obtain ⟨o, ps, h⟩ := s.markOwn_eq l n
  rw [h]
  rfl
@[simp] theorem State.mend_engines (whole : List Nat) : (s.mend whole).engines = s.engines := by
  obtain ⟨b, h⟩ := s.mend_eq whole
  rw [h]
  rfl

@[simp] theorem State.perform_engines (f : Flight) : (s.perform f).engines = s.engines := by
  obtain ⟨m, t, ls, taken⟩ := s.taken_eq f.key f.loc f.bytes.length
  unfold State.perform
  split
  · exact State.setColourAt_engines s _ _
  · split
    · exact State.reportImprecise_engines s _ _
    · change ((if f.cap then (s.taken f.key f.loc f.bytes.length).writeCap f.loc f.bytes true
          else (s.taken f.key f.loc f.bytes.length).writeBytes f.loc f.bytes).mend f.whole |>.markOwn f.loc f.bytes.length).engines = _
      rw [taken, State.markOwn_engines, State.mend_engines]
      split
      · exact State.writeCap_engines ..
      · rfl
@[simp] theorem State.performAll_engines (fs : List Flight) : (s.performAll fs).engines = s.engines := by
  have posted (s : State) (f : Flight) : (s.performPosted f).engines = s.engines := by
    unfold State.performPosted
    dsimp only
    split <;> exact State.perform_engines s f
  induction fs generalizing s with
  | nil => rfl
  | cons f rest ih => exact (ih (s.performPosted f)).trans (posted s f)
@[simp] theorem State.drain_engines (sel : Flight → Bool) : (s.drain sel).engines = s.engines := by
  unfold State.drain
  split
  · rfl
  · dsimp only
    rw [State.performDue_eq]
    exact State.performAll_engines s _

@[simp] theorem State.resolvePosted_engines (sel : Flight → Bool) : (s.resolvePosted sel).engines = s.engines := by
  unfold State.resolvePosted
  split <;> rfl
@[simp] theorem State.arriveAll_engines (sel : Timed → Bool) : (s.arriveAll sel).engines = s.engines := by
  unfold State.arriveAll
  split <;> rfl
@[simp] theorem State.release_engines (scope : BitVec 3) : (s.release scope).engines = s.engines := by
  rw [State.release, State.releaseBy, State.resolvePosted_engines, State.arriveOwn, State.arriveAll_engines, State.drain_engines]
@[simp] theorem State.beforeAccess_engines (p : Place) (n : Nat) : (s.beforeAccess p n).engines = s.engines := by
  unfold State.beforeAccess
  split
  · exact State.release_engines s 5
  · exact State.drain_engines s _
@[simp] theorem State.afterWrite_engines (p : Place) : (s.afterWrite p).engines = s.engines := by
  unfold State.afterWrite
  split
  · exact State.release_engines s 5
  · rfl

@[simp] theorem State.beforeWrite_engines (p : Place) (n : Nat) : (s.beforeWrite p n).engines = s.engines := by
  have copies (s : State) : (s.copyPage p).engines = s.engines := by
    unfold State.copyPage
    split
    · dsimp only
      split <;> rfl
    · rfl
  have charges (s : State) : (s.chargeCopy p).engines = s.engines := by
    unfold State.chargeCopy
    dsimp only
    split
    · rfl
    · split <;> rfl
  have clears (s : State) : (s.clearTaint p.va.toNat n).engines = s.engines := by
    unfold State.clearTaint
    split <;> rfl
  rw [State.beforeWrite, clears, charges, copies]
@[simp] theorem State.send_engines (f : Flight) : (s.send f).engines = s.engines := by
  unfold State.send
  split
  · rfl
  · split
    · rfl
    · exact State.perform_engines s f

/-! ## What the accesses of a command leave -/

@[simp] theorem State.cmdWrite_engines (c : Cmd) (ea : Addr) (bytes : List Byte) : (s.cmdWrite c ea bytes).engines = s.engines := by
  unfold State.cmdWrite
  split
  · simp [State.storeFor]
  · rfl
@[simp] theorem State.cmdSettled_engines (i : EngineId) (c : Cmd) : (s.cmdSettled i c).engines = s.engines := by
  simp [State.cmdSettled]
end

end Sys2Proof.Machine
end

section
/-! SUPPORT. O43: a command leaves its engine's queue, and the engine that gave it its ticket remembers it (R299, R304, R308). -/

namespace Sys2Proof.Machine
open Sys2Proof

theorem culvertKey_injective {u v : CulvertId} (hk : culvertKey u = culvertKey v) (hi : u.index = v.index) : u = v := by
  obtain ⟨die, cluster, index⟩ := u
  obtain ⟨die', cluster', index'⟩ := v
  unfold culvertKey at hk
  obtain rfl : die = die' := BitVec.eq_of_toNat_eq (by dsimp only at hk; omega)
  obtain rfl : cluster = cluster' := BitVec.eq_of_toNat_eq (by dsimp only at hk; omega)
  exact congrArg _ hi

section
variable (s : State) (i : EngineId) (e : Engine)

theorem State.engine_setEngine_same : (s.setEngine i e).engine i = e := by
  cases i with
  | culvert u =>
    have hi : u.index.toNat < 2 := u.index.isLt
    simp [State.setEngine, State.engine, vecAt, vecSet, hi]
  | cistern k => simp [State.setEngine, State.engine]

theorem State.engine_setEngine_other {j : EngineId} (h : j ≠ i) : (s.setEngine i e).engine j = s.engine j := by
  cases i with
  | culvert u =>
    cases j with
    | culvert v =>
      by_cases hk : culvertKey v = culvertKey u
      · have hindex : u.index.toNat ≠ v.index.toNat := fun hi =>
          h (congrArg _ (culvertKey_injective hk (BitVec.eq_of_toNat_eq hi.symm)))
        have hu : u.index.toNat < 2 := u.index.isLt
        have hv : v.index.toNat < 2 := v.index.isLt
        simp [State.setEngine, State.engine, hk, vecAt, vecSet, hu, hv, hindex]
      · simp [State.setEngine, State.engine, State.cluster, State.setCluster, assocGetD, assocGet_put_other _ _ _ _ hk]
    | cistern k => rfl
  | cistern k =>
    cases j with
    | culvert v => rfl
    | cistern m =>
      have hne : k.toNat ≠ m.toNat := fun hk => h (congrArg _ (BitVec.eq_of_toNat_eq hk.symm))
      simp [State.setEngine, State.engine, hne]

/-- A write of an engine leaves memory and its protections. -/
theorem State.setEngine_eq : ∃ ks cs, s.setEngine i e = { s with clusters := ks, cisterns := cs } := by
  cases i with
  | culvert u => exact ⟨_, s.cisterns, rfl⟩
  | cistern k => exact ⟨s.clusters, _, rfl⟩
end

/-- R299, R304: a command `c` that ends as `d` in a state in which the engines stand as in `s`. -/
theorem State.cmdEnd_ended {s t : State} (i : EngineId) {c d : Cmd} (ht : t.engines = s.engines) (hd : d.ticket = c.ticket) :
    Ended s (t.cmdEnd i d) i c d := by
  have same := State.engine_congr ht i
  have left : ((t.setEngine i { t.engine i with queue := (t.engine i).queue.filter fun q => q.ticket ≠ d.ticket }).engine i).queue
      = (s.engine i).queue.filter fun q => q.ticket ≠ c.ticket := by
    rw [State.engine_setEngine_same, same, hd]
  have loaded (u : State) : (u.loadOwner i).engine i = u.engine i := State.engine_congr (u.loadOwner_engines i) i
  refine ⟨?_, fun hhome => ?_⟩
  · unfold State.cmdEnd
    dsimp only
    rw [loaded]
    by_cases hi : i = (ticketEngine d.ticket).getD i
    · rw [← hi, State.engine_setEngine_same]
      exact left
    · rw [State.engine_setEngine_other _ _ _ hi]
      exact left
  · have hi : (ticketEngine d.ticket).getD i = i := by rw [hd, hhome]; rfl
    unfold State.cmdEnd
    dsimp only
    rw [loaded, hi, State.engine_setEngine_same, State.engine_setEngine_same, same]

theorem Ended.congr {s t u : State} {i : EngineId} {c d : Cmd} (h : Ended s t i c d) (hu : u.engines = t.engines) : Ended s u i c d := by
  obtain ⟨queue, done⟩ := h
  rw [← State.engine_congr hu i] at queue done
  exact ⟨queue, done⟩

/-! ## A culvert's program faults (R293) -/

/-- The agent in focus as it stands. -/
theorem State.agent_focused {s : State} {a : AgentId} (h : s.core.agent = a) : s.agent a = s.core := if_pos h

theorem State.agent_of_parked {s : State} {a : AgentId} {c : Core} (h : s.core.agent ≠ a) (hp : parkedGet s.parked a = some c) :
    s.agent a = c :=
  (if_neg h).trans (congrArg (Option.getD · _) hp)

@[simp] theorem State.focus_core (s : State) (a : AgentId) : (s.focus a).core = s.agent a := by
  by_cases h : s.core.agent = a
  · rw [State.focus, if_pos h, State.agent_focused h]
  · rw [State.focus, if_neg h]

/-- An agent in focus is found where it was left once another one comes into focus. -/
theorem State.agent_focus_back (s : State) {a : AgentId} (h : s.core.agent = a) (b : AgentId) : (s.focus b).agent a = s.core := by
  by_cases hb : s.core.agent = b
  · rw [State.focus, if_pos hb, State.agent_focused h]
  · refine State.agent_of_parked ?_ ?_
    · rw [State.focus_core, State.agent_agent]
      exact fun e => hb (h.trans e.symm)
    · rw [State.focus, if_neg hb, ← h]
      exact parkedGet_put_same (parkedDel s.parked b) s.core

theorem State.culvertProgramFault_ended (s : State) (u : CulvertId) {c : Cmd} (h : s.headCmd (.culvert u) = some c) :
    Ended s (s.culvertProgramFault u) (.culvert u) c { c with state := .faulted, code := cINTEG } := by
  have ended := State.cmdEnd_ended (s := s) (t := s.traceEnd { c with state := .faulted, code := cINTEG } u.die) (.culvert u) (c := c)
    (d := { c with state := .faulted, code := cINTEG }) (State.traceEnd_engines ..) rfl
  unfold State.culvertProgramFault
  dsimp only
  rw [show (s.engine (.culvert u)).head = some c from h]
  exact ended.congr (State.loadOwner_engines _ _)

/-- The culvert starts again without a program, under the owner of the next command. -/
theorem State.culvertProgramFault_core (s : State) (u : CulvertId) :
    (s.culvertProgramFault u).core.agent = .culvert u ∧ (s.culvertProgramFault u).core.run = .idle
      ∧ .culvert u ∈ (s.culvertProgramFault u).deviceErrors := by
  have loaded (t : State) (ht : t.core = Core.idle (.culvert u)) (he : .culvert u ∈ t.deviceErrors) :
      (t.loadOwner (.culvert u)).core.agent = .culvert u ∧ (t.loadOwner (.culvert u)).core.run = .idle
        ∧ .culvert u ∈ (t.loadOwner (.culvert u)).deviceErrors := by
    have own : t.agent (.culvert u) = Core.idle (.culvert u) := (State.agent_focused (by rw [ht]; rfl)).trans ht
    unfold State.loadOwner State.setAgent
    simp [own, ht, Core.idle, he]
  unfold State.culvertProgramFault
  exact loaded _ rfl (List.mem_append_right _ (List.mem_singleton.mpr rfl))

theorem exec_culvertFault (s : State) (u : CulvertId) :
    ∃ t, exec (.culvertFault u) s = .next t ∧ .culvert u ∈ t.deviceErrors ∧ (t.agent (.culvert u)).run = .idle
      ∧ ∀ c, s.headCmd (.culvert u) = some c → Ended s t (.culvert u) c { c with state := .faulted, code := cINTEG } := by
  obtain ⟨hagent, hrun, herrors⟩ := (s.focus (.culvert u)).culvertProgramFault_core u
  have errors (t : State) (a : AgentId) : (t.focus a).deviceErrors = t.deviceErrors := by unfold State.focus; split <;> rfl
  refine ⟨_, rfl, ?_, ?_, fun c hc => ?_⟩
  · exact (errors _ _).symm ▸ herrors
  · exact (congrArg Core.run (State.agent_focus_back _ hagent _)).trans hrun
  · have same := (s.focus_engines (.culvert u))
    have head : (s.focus (.culvert u)).headCmd (.culvert u) = some c := (congrArg Engine.head (State.engine_congr same _)).trans hc
    obtain ⟨queue, done⟩ := ((s.focus (.culvert u)).culvertProgramFault_ended u head).congr (State.focus_engines _ s.core.agent)
    rw [State.engine_congr same] at queue done
    exact ⟨queue, done⟩

end Sys2Proof.Machine
end

section
/-! SUPPORT. O43: the state in which a command makes its accesses, and what those find and leave within the module (R120, R131). -/

namespace Sys2Proof.Machine
open Sys2Proof

/-! ## States that differ in their agents alone -/

/-- `t` is `s` but for the agents: which one is in focus, what each holds, and whether the focus stalls. -/
def State.agentsOnly (s t : State) : Prop := ∃ k ps st, t = { s with core := k, parked := ps, stalled := st }

section
variable {s t u : State}

theorem State.agentsOnly_refl (s : State) : s.agentsOnly s := ⟨s.core, s.parked, s.stalled, rfl⟩
theorem State.agentsOnly_focus (s : State) (a : AgentId) : s.agentsOnly (s.focus a) := by
  unfold State.focus
  split
  · exact s.agentsOnly_refl
  · exact ⟨_, _, _, rfl⟩
theorem State.agentsOnly_setAgent (s : State) (c : Core) : s.agentsOnly (s.setAgent c) := by
  unfold State.setAgent
  split <;> exact ⟨_, _, s.stalled, rfl⟩

theorem State.agentsOnly.trans (h : s.agentsOnly t) (h' : t.agentsOnly u) : s.agentsOnly u := by
  obtain ⟨k, ps, st, rfl⟩ := h
  obtain ⟨k', ps', st', rfl⟩ := h'
  exact ⟨k', ps', st', rfl⟩

theorem State.agentsOnly.plainMemory (h : s.agentsOnly t) (hm : s.plainMemory) : t.plainMemory := by
  obtain ⟨k, ps, st, rfl⟩ := h
  exact hm
theorem State.agentsOnly.dataBad (h : s.agentsOnly t) (p : Place) (n : Nat) : t.dataBad p n = s.dataBad p n := by
  obtain ⟨k, ps, st, rfl⟩ := h
  rfl
theorem State.agentsOnly.placeBytes (h : s.agentsOnly t) (p : Place) (n : Nat) : t.placeBytes p n = s.placeBytes p n := by
  obtain ⟨k, ps, st, rfl⟩ := h
  refine State.placeBytes_congr ?_ ?_ ?_ ?_ p n <;> rfl
theorem State.agentsOnly.sameView (h : s.agentsOnly t) (hc : t.core = s.core) : SameView s t := by
  obtain ⟨k, ps, st, rfl⟩ := h
  obtain rfl : k = s.core := hc
  exact ⟨⟨rfl, rfl, rfl, rfl, rfl, rfl⟩, rfl, rfl, rfl, rfl, rfl, rfl, rfl, rfl, rfl, rfl, rfl, rfl, rfl⟩

/-- What is stored is stored for every such state. -/
theorem Stored.agentsOnly {v : State} {p : Place} {bytes : List Byte} {tag : Bool} (h : Stored t u p bytes tag) (hs : s.agentsOnly t)
    (hu : u.agentsOnly v) : Stored s v p bytes tag := by
  obtain ⟨k, ps, st, rfl⟩ := hs
  obtain ⟨k', ps', st', rfl⟩ := hu
  exact h.congr rfl rfl rfl rfl rfl rfl rfl rfl
end

/-! ## The command acts -/

section
variable (s : State) (i : EngineId) (c : Cmd)

/-- The state in which a command makes its accesses: its engine in focus, under the command's owner. -/
def State.actsFor : State := { s.focus (EngineId.agent i) with core := c.view (s.agent (EngineId.agent i)) }

/-- What its accesses leave: the engine's own registers stay, and the focus goes back. -/
def State.actedFor (u : State) : State :=
  { { u with core := s.agent (EngineId.agent i) }.focus s.core.agent with stalled := s.stalled }

theorem State.asCmd_eq {α : Type} (f : State → State × α) :
    s.asCmd i c f = (s.actedFor i (f (s.actsFor i c)).1, (f (s.actsFor i c)).2) := by
  have engine := s.focus_core (EngineId.agent i)
  unfold State.asCmd State.actedFor State.actsFor
  dsimp only
  rw [engine]

theorem State.agentsOnly_actsFor : s.agentsOnly (s.actsFor i c) :=
  (s.agentsOnly_focus (EngineId.agent i)).trans ⟨_, _, _, rfl⟩
theorem State.agentsOnly_actedFor (u : State) : u.agentsOnly (s.actedFor i u) := by
  have changed : u.agentsOnly { u with core := s.agent (EngineId.agent i) } := ⟨_, _, _, rfl⟩
  exact (changed.trans (State.agentsOnly_focus _ s.core.agent)).trans ⟨_, _, _, rfl⟩

theorem State.cmdSees_eq (ea : Addr) : s.cmdSees i c ea = (s.actsFor i c).cmdPlace c ea := by
  rw [State.cmdSees, State.asCmd_eq]

theorem SameView.cmdPlace {s t : State} (h : SameView s t) (c : Cmd) (ea : Addr) : t.cmdPlace c ea = s.cmdPlace c ea := by
  obtain ⟨-, -, -, hcsr, hident, -⟩ := h.core
  simp only [State.cmdPlace, State.redirect, h.resolve, hcsr, hident]

/-- What a command sees does not change with accesses that change nothing. -/
theorem State.cmdSees_actedFor (d : Cmd) (ea : Addr) : (s.actedFor i (s.actsFor i d)).cmdSees i c ea = s.cmdSees i c ea := by
  have only : s.agentsOnly (s.actedFor i (s.actsFor i d)) := (s.agentsOnly_actsFor i d).trans (s.agentsOnly_actedFor i _)
  have engine : (s.actedFor i (s.actsFor i d)).agent (EngineId.agent i) = s.agent (EngineId.agent i) :=
    State.agent_focus_back { s.actsFor i d with core := s.agent (EngineId.agent i) } (State.agent_agent ..) s.core.agent
  have core : ((s.actedFor i (s.actsFor i d)).actsFor i c).core = (s.actsFor i c).core := congrArg c.view engine
  have acts : (s.actsFor i c).agentsOnly ((s.actedFor i (s.actsFor i d)).actsFor i c) := by
    obtain ⟨k, ps, st, h⟩ := only.trans (State.agentsOnly_actsFor _ i c)
    obtain ⟨k', ps', st', h'⟩ := s.agentsOnly_actsFor i c
    exact ⟨k, ps, st, by rw [h, h']⟩
  rw [State.cmdSees_eq, State.cmdSees_eq]
  exact (acts.sameView core).cmdPlace c ea
end

/-! ## Places of the module's own memory: nothing bars them, and nothing is waited for -/

section
variable {s : State} {i : EngineId} {c : Cmd}

theorem State.cmdBarred_here {ea : Addr} {d : Place} (h : s.cmdSees i c ea = some d) (hd : d.inModule) : s.cmdBarred i c ea = false := by
  obtain ⟨-, -, hhost, hpeer, -⟩ := hd
  rw [State.cmdSees_eq] at h
  rw [State.cmdBarred, State.asCmd_eq, State.cmdLoc, h]
  simp [State.awayRefused, State.peerLost, hhost, hpeer]

theorem State.cmdHeld_here {eas : List Addr} (h : ∀ ea ∈ eas, ∃ d, s.cmdSees i c ea = some d ∧ d.inModule) : s.cmdHeld i c eas = false := by
  rw [State.cmdHeld, State.asCmd_eq]
  refine List.any_eq_false.mpr fun ea hea => ?_
  obtain ⟨d, hd, -, -, -, hpeer, -⟩ := h ea hea
  rw [State.cmdSees_eq] at hd
  rw [State.cmdLoc, hd]
  simp [State.peerHeld, hpeer]

theorem State.cmdStopped_plain (h : s.plainMemory) : s.cmdStopped i c = false := by
  obtain ⟨-, -, -, hpast, -, -⟩ := h
  exact hpast c.context c.task i.die

theorem State.cmdSettled_quiet (h : s.quiet) : s.cmdSettled i c = s := by
  obtain ⟨hflights, hposted, -⟩ := h
  simp [State.cmdSettled, State.drain_quiet hflights, State.resolvePosted, hposted]
end

/-! ## Reads and writes of the acting command -/

section
variable {u : State} {c : Cmd} (h : u.plainMemory)

theorem State.cmdNeeds_here {part : Addr × Nat} {p : Place} (hp : u.cmdPlace c part.1 = some p) (hin : p.inModule) :
    u.cmdNeeds c part = .here := by
  rw [State.cmdNeeds, hp]
  simp [Place.notAway hin]

include h in
theorem State.cmdRead_here {ea : Addr} {p : Place} {n : Nat} (hp : u.cmdPlace c ea = some p) (hbad : u.dataBad p n = false) :
    u.cmdRead c ea n = (u, some (u.placeBytes p n)) := by
  rw [State.cmdRead, hp]
  simp [hbad, State.beforeAccess_quiet h.1]

/-- Parts of a read that all lie within the module, with their places. -/
def State.partsHere (u : State) (c : Cmd) (xs : List ((Addr × Nat) × Place)) : Prop :=
  ∀ x ∈ xs, u.cmdPlace c x.1.1 = some x.2 ∧ x.2.inModule ∧ u.dataBad x.2 x.1.2 = false

theorem State.sendReads_here {xs : List ((Addr × Nat) × Place)} (hx : u.partsHere c xs) :
    u.sendReads c (xs.map (·.1)) = (u, []) := by
  induction xs with
  | nil => rfl
  | cons x rest ih =>
    obtain ⟨hp, hin, -⟩ := hx x (List.mem_cons_self ..)
    rw [List.map_cons, State.sendReads, State.cmdNeeds_here hp hin]
    exact ih fun y hy => hx y (List.mem_cons_of_mem x hy)

include h in
theorem State.fetchParts_here {xs : List ((Addr × Nat) × Place)} (hx : u.partsHere c xs) :
    u.fetchParts c (xs.map (·.1)) [] = (u, .got (xs.map fun x => some (u.placeBytes x.2 x.1.2))) := by
  induction xs with
  | nil => rfl
  | cons x rest ih =>
    obtain ⟨hp, hin, hbad⟩ := hx x (List.mem_cons_self ..)
    rw [List.map_cons, State.fetchParts, State.cmdNeeds_here hp hin, State.cmdRead_here h hp hbad]
    dsimp only
    rw [ih fun y hy => hx y (List.mem_cons_of_mem x hy)]
    rfl

include h in
/-- A write of a command there is as a store of an agent would be: its ticket does not show. -/
theorem State.storeFor_eq_store {p : Place} (hin : p.inModule) (bytes : List Byte) : u.storeFor c p bytes = u.store p bytes false := by
  obtain ⟨⟨-, hold, -, hpast, -, -⟩, -⟩ := State.beforeWrite_plain h hin bytes.length
  obtain ⟨-, -, hhost, hpeer, -⟩ := hin
  unfold State.storeFor State.store
  dsimp only
  rw [State.beforeAccess_quiet h.1, State.send_here hold (by exact hhost) (by exact hpeer) hpast, State.send_here hold (by exact hhost) (by exact hpeer) hpast]
  rfl

include h in
theorem State.cmdWrite_stored {ea : Addr} {d : Place} {bytes : List Byte} (hd : u.cmdPlace c ea = some d) (hin : d.inModule)
    (hn : 0 < bytes.length) : Stored u (u.cmdWrite c ea bytes) d bytes false := by
  obtain ⟨stored, -, -⟩ := State.store_stored h hin (tag := false) hn nofun
  rw [State.cmdWrite, hd]
  dsimp only
  rw [State.storeFor_eq_store h hin]
  exact stored
end

section
variable {s : State} {i : EngineId} {c : Cmd} (h : s.plainMemory)
include h

/-- A read of a command that waits for nothing. -/
theorem State.cmdFetch_here (hr : c.requests = []) {xs : List ((Addr × Nat) × Place)}
    (hx : ∀ x ∈ xs, s.cmdSees i c x.1.1 = some x.2 ∧ x.2.inModule ∧ s.dataBad x.2 x.1.2 = false) :
    s.cmdFetch i c (xs.map (·.1)) = (s.actedFor i (s.actsFor i c), .got (xs.map fun x => some (s.placeBytes x.2 x.1.2))) := by
  have only := s.agentsOnly_actsFor i c
  have here : (s.actsFor i c).partsHere c xs := fun x hxs => by
    obtain ⟨hp, hin, hbad⟩ := hx x hxs
    exact ⟨(s.cmdSees_eq i c _).symm.trans hp, hin, (only.dataBad _ _).trans hbad⟩
  have served : ((xs.map (·.1)).any fun part => (s.actsFor i c).cmdNeeds c part = .refused) = false := by
    refine List.any_eq_false.mpr fun part hpart => ?_
    obtain ⟨x, hxs, rfl⟩ := List.mem_map.mp hpart
    obtain ⟨hp, hin, -⟩ := here x hxs
    simp [State.cmdNeeds_here hp hin]
  rw [State.cmdFetch, State.asCmd_eq]
  simp only [hr, served, State.sendReads_here here, State.fetchParts_here (only.plainMemory h) here, only.placeBytes]
  rfl

/-- R58, R131: what a command writes within the module stands there. -/
theorem State.asCmd_write_stored {ea : Addr} {d : Place} {bytes : List Byte} (hd : s.cmdSees i c ea = some d) (hin : d.inModule)
    (hn : 0 < bytes.length) : Stored s (s.asCmd i c fun w => (w.cmdWrite c ea bytes, ())).1 d bytes false := by
  have only := s.agentsOnly_actsFor i c
  rw [State.cmdSees_eq] at hd
  rw [State.asCmd_eq]
  exact (State.cmdWrite_stored (only.plainMemory h) hd hin hn).agentsOnly only (s.agentsOnly_actedFor i _)
end

/-! ## What the engine's own tables leave of memory -/

section
variable {s t : State} {i : EngineId} {c : Cmd} {p : Place} {bytes : List Byte} {tag : Bool} (h : Stored s t p bytes tag)
include h

theorem Stored.setEngine (j : EngineId) (e : Engine) : Stored s (t.setEngine j e) p bytes tag := by
  obtain ⟨ks, cs, ht⟩ := t.setEngine_eq j e
  rw [ht]
  exact h.congr rfl rfl rfl rfl rfl rfl rfl rfl
theorem Stored.cmdUpdate (d : Cmd) : Stored s (t.cmdUpdate i d) p bytes tag := h.setEngine i _
theorem Stored.cmdEnd (d : Cmd) : Stored s (t.cmdEnd i d) p bytes tag := by
  have loaded (u : State) : u.agentsOnly (u.loadOwner i) := by
    cases i with
    | culvert v => exact State.agentsOnly_setAgent u _
    | cistern k => exact State.agentsOnly_refl u
  exact ((h.setEngine i _).setEngine _ _).agentsOnly (State.agentsOnly_refl s) (loaded _)
end

end Sys2Proof.Machine
end

section
/-! SUPPORT. O43: a culvert's beats and its completion, branch by branch (R297 to R302, R346, R351, R352). -/

namespace Sys2Proof.Machine
open Sys2Proof

/-! ## A beat -/

section
variable {s s1 : State} {i : EngineId} {c : Cmd}

/-- A beat may not be made: its destination is refused at issue, or its mailbox lies with a peer that is unreachable. -/
def State.beatBarred (s : State) (i : EngineId) (c : Cmd) : Prop :=
  s.cmdBarred i c c.beatDst = true ∨ (c.mbx.isNone = false ∧ s.cmdLost i c c.mbx.cursor = true)

theorem State.beatBarred_iff :
    (s.cmdBarred i c c.beatDst || !c.mbx.isNone && s.cmdLost i c c.mbx.cursor) = true ↔ s.beatBarred i c := by
  simp [State.beatBarred]

theorem State.copyBeat_barred (h : s.beatBarred i c) : s.copyBeat i c = s.cmdRefused i c :=
  if_pos (State.beatBarred_iff.mpr h)

variable (hb : ¬s.beatBarred i c)
include hb

theorem State.copyBeat_held (hh : s.cmdHeld i c c.beatReach = true) : s.copyBeat i c = s :=
  (if_neg (mt State.beatBarred_iff.mp hb)).trans (if_pos hh)

variable (hh : s.cmdHeld i c c.beatReach = false)
include hh

theorem State.copyBeat_waits {rs : List Request} (hf : s.cmdFetch i c (beatParts c.beatSrc) = (s1, .waits rs)) :
    s.copyBeat i c = s1.cmdUpdate i { c with state := .running, requests := rs } := by
  unfold State.copyBeat
  dsimp only
  rw [if_neg (mt State.beatBarred_iff.mp hb), hh, hf]
  rfl

theorem State.copyBeat_refused (hf : s.cmdFetch i c (beatParts c.beatSrc) = (s1, .refused)) : s.copyBeat i c = s1.cmdRefused i c := by
  unfold State.copyBeat
  dsimp only
  rw [if_neg (mt State.beatBarred_iff.mp hb), hh, hf]
  rfl

theorem State.copyBeat_moves {a b : List Byte} (hf : s.cmdFetch i c (beatParts c.beatSrc) = (s1, .got [some a, some b])) :
    let w := if c.decrypts then s1.openBeat c (a ++ b) else (a ++ b, c.ghash)
    s.copyBeat i c = (s1.putBeat i c c.beatDst w.1).cmdUpdate i
      { c with state := .running, beats := c.beats + 1, ghash := w.2, requests := [],
               wrote := if c.flags.getLsbD flagVerify then c.wrote ++ w.1 else c.wrote } := by
  unfold State.copyBeat
  dsimp only
  rw [if_neg (mt State.beatBarred_iff.mp hb), hh, hf]
  rfl

/-- R300: data whose check fails faults the command. -/
theorem State.copyBeat_bad {xs : List (Option (List Byte))} (hx : none ∈ xs)
    (hf : s.cmdFetch i c (beatParts c.beatSrc) = (s1, .got xs)) : s.copyBeat i c = s1.cmdFault i c c.beatSrc 0 := by
  have notBoth (a b : List Byte) : xs ≠ [some a, some b] := by rintro rfl; simp at hx
  unfold State.copyBeat
  dsimp only
  rw [if_neg (mt State.beatBarred_iff.mp hb), hh, hf, if_neg Bool.false_ne_true]
  split
  · next he => cases he
  · next he => cases he
  · next he => cases he; exact absurd rfl (notBoth _ _)
  · next he => cases he; rfl
end

section
variable {s : State} {u : CulvertId} {c : Cmd} (h : s.headCmd (.culvert u) = some c)
include h

theorem exec_culvertBeat_idle (hc : c.total ≤ c.beats ∨ s.cmdStopped (.culvert u) c = true) : exec (.culvertBeat u) s = .next s := by
  have stays : ¬(c.beats < c.total && !s.cmdStopped (.culvert u) c) = true := by
    rcases hc with hc | hc <;> simp [hc]
  show execCulvertBeat u s = _
  rw [execCulvertBeat, h]
  exact if_neg stays

theorem exec_culvertBeat (hc : c.beats < c.total) (hs : s.cmdStopped (.culvert u) c = false) {t : State} (ht : s.copyBeat (.culvert u) c = t) :
    exec (.culvertBeat u) s = .next t := by
  have moves : (c.beats < c.total && !s.cmdStopped (.culvert u) c) = true := by simp [hc, hs]
  show execCulvertBeat u s = _
  rw [execCulvertBeat, h, ← ht]
  exact if_pos moves

theorem exec_culvertCompletion_idle (hc : c.beats < c.total ∨ s.cmdStopped (.culvert u) c = true) :
    exec (.culvertCompletion u) s = .next s := by
  have stays : (c.beats < c.total || s.cmdStopped (.culvert u) c) = true := by
    rcases hc with hc | hc <;> simp [hc]
  show execCulvertCompletion u s = _
  rw [execCulvertCompletion, h]
  exact if_pos stays

theorem exec_culvertCompletion (hc : c.total ≤ c.beats) (hs : s.cmdStopped (.culvert u) c = false) {t : State}
    (ht : s.copyEnd (.culvert u) c = t) : exec (.culvertCompletion u) s = .next t := by
  have goes : ¬(c.beats < c.total || s.cmdStopped (.culvert u) c) = true := by simp [hs, Nat.not_lt.mpr hc]
  show execCulvertCompletion u s = _
  rw [execCulvertCompletion, h, ← ht]
  exact if_neg goes
end

/-- R297, R300: a later beat within the module stands at its destination. -/
theorem State.copyBeat_stored {s : State} {i : EngineId} {c : Cmd} (h : s.plainMemory) (hlost : s.fabric.lost = []) (hbeats : c.beats ≠ 0)
    (hdec : c.decrypts = false) (hr : c.requests = []) {p q d : Place} (hp : s.cmdSees i c c.beatSrc = some p)
    (hq : s.cmdSees i c (c.beatSrc + 16) = some q) (hd : s.cmdSees i c c.beatDst = some d) (hpin : p.inModule) (hqin : q.inModule)
    (hdin : d.inModule) (hpbad : s.dataBad p 16 = false) (hqbad : s.dataBad q 16 = false) :
    Stored s (s.copyBeat i c) d (s.placeBytes p 16 ++ s.placeBytes q 16) false := by
  have free : ¬s.beatBarred i c := by
    simp [State.beatBarred, State.cmdBarred_here hd hdin, State.cmdLost, hlost]
  have reach : s.cmdHeld i c c.beatReach = false := State.cmdHeld_here fun ea hea => by
    simp only [Cmd.beatReach, List.mem_cons, List.not_mem_nil, or_false] at hea
    rcases hea with rfl | rfl | rfl
    · exact ⟨p, hp, hpin⟩
    · exact ⟨q, hq, hqin⟩
    · exact ⟨d, hd, hdin⟩
  have read := State.cmdFetch_here h hr (i := i) (xs := [((c.beatSrc, 16), p), ((c.beatSrc + 16, 16), q)]) fun x hx => by
    simp only [List.mem_cons, List.not_mem_nil, or_false] at hx
    rcases hx with rfl | rfl
    · exact ⟨hp, hpin, hpbad⟩
    · exact ⟨hq, hqin, hqbad⟩
  have only := (s.agentsOnly_actsFor i c).trans (s.agentsOnly_actedFor i _)
  have seen := (s.cmdSees_actedFor i c c c.beatDst).trans hd
  have wrote := State.asCmd_write_stored (only.plainMemory h) seen hdin (bytes := s.placeBytes p 16 ++ s.placeBytes q 16) (by simp)
  rw [State.copyBeat_moves free reach read]
  simp only [hdec, Bool.false_eq_true, if_false]
  refine Stored.cmdUpdate ?_ _
  rw [State.putBeat]
  simp only [hbeats, if_false]
  exact wrote.agentsOnly only (State.agentsOnly_refl _)

/-! ## The completion -/

section
variable {s s1 : State} {i : EngineId} {c : Cmd}

/-- The mailbox may not be written: it is refused at issue. -/
def State.noWay (s : State) (i : EngineId) (c : Cmd) : Prop := c.mbx.isNone = false ∧ s.cmdBarred i c c.mbx.cursor = true

theorem State.noWay_iff : (!c.mbx.isNone && s.cmdBarred i c c.mbx.cursor) = true ↔ s.noWay i c := by
  simp [State.noWay]

theorem State.copyEnd_noWay (h : s.noWay i c) : s.copyEnd i c = s.cmdRefused i c := if_pos (State.noWay_iff.mpr h)

variable (hw : ¬s.noWay i c)
include hw

theorem State.copyEnd_held (hh : s.cmdHeld i c c.endReach = true) : s.copyEnd i c = s :=
  (if_neg (mt State.noWay_iff.mp hw)).trans (if_pos hh)

variable (hh : s.cmdHeld i c c.endReach = false)
include hh

theorem State.copyEnd_produces (he : c.ended = true) : s.copyEnd i c = s.copyProduce i c :=
  (if_neg (mt State.noWay_iff.mp hw)).trans ((if_neg (Bool.eq_false_iff.mp hh)).trans (if_pos he))

variable (he : c.ended = false)
include he

theorem State.copyEnd_waits {rs : List Request} (hf : (s.cmdSettled i c).cmdFetch i c c.endParts = (s1, .waits rs)) :
    s.copyEnd i c = s1.cmdUpdate i { c with requests := rs } := by
  refine (if_neg (mt State.noWay_iff.mp hw)).trans ((if_neg (Bool.eq_false_iff.mp hh)).trans ((if_neg (Bool.eq_false_iff.mp he)).trans ?_))
  rw [hf]

theorem State.copyEnd_refused (hf : (s.cmdSettled i c).cmdFetch i c c.endParts = (s1, .refused)) : s.copyEnd i c = s1.cmdRefused i c := by
  refine (if_neg (mt State.noWay_iff.mp hw)).trans ((if_neg (Bool.eq_false_iff.mp hh)).trans ((if_neg (Bool.eq_false_iff.mp he)).trans ?_))
  rw [hf]

theorem State.copyEnd_got {parts : List (Option (List Byte))} (hf : (s.cmdSettled i c).cmdFetch i c c.endParts = (s1, .got parts)) :
    s.copyEnd i c = if c.decrypts then
        if s1.tagFails c (parts.headD none) then s1.tagFault i c else s1.copyVerified i c (parts.drop 1)
      else s1.copyVerified i c parts := by
  refine (if_neg (mt State.noWay_iff.mp hw)).trans ((if_neg (Bool.eq_false_iff.mp hh)).trans ((if_neg (Bool.eq_false_iff.mp he)).trans ?_))
  rw [hf]
end

/-- R299 step 3: the command has released its mailbox, if it has one, and has ended. -/
theorem State.cmdMailbox_ended (s : State) (i : EngineId) (c : Cmd) :
    Ended s ((s.cmdMailbox i c).cmdEnd i { c with state := .complete }) i c { c with state := .complete }
    ∧ ∀ m : Place, c.mbx.isNone = false → s.plainMemory → s.cmdSees i c c.mbx.cursor = some m → m.inModule →
        Stored s ((s.cmdMailbox i c).cmdEnd i { c with state := .complete }) m (bytesOf 8 c.mbxval.toNat) false := by
  have engines : (s.cmdMailbox i c).engines = s.engines := by
    unfold State.cmdMailbox
    dsimp only
    split
    · exact State.cmdSettled_engines s i c
    · rw [State.asCmd_eq]
      exact (State.focus_engines _ _).trans ((State.cmdWrite_engines _ c _ _).trans ((State.focus_engines _ _).trans (s.cmdSettled_engines i c)))
  refine ⟨State.cmdEnd_ended i engines rfl, fun m hmbx hm hsees hin => Stored.cmdEnd ?_ _⟩
  unfold State.cmdMailbox
  rw [State.cmdSettled_quiet hm.1, hmbx]
  exact State.asCmd_write_stored hm hsees hin (by simp)

section
variable {s : State} {i : EngineId} {c : Cmd}

theorem State.copyProduce_mailbox (hring : c.flags.getLsbD flagRing = false) :
    s.copyProduce i c = (s.cmdMailbox i c).cmdEnd i { c with state := .complete } := by
  simp [State.copyProduce, hring]

variable (hring : c.flags.getLsbD flagRing = true)
include hring

/-- R322: a ring that is undefined, or an issuer that no longer runs an item of the command's context. -/
theorem State.copyProduce_faults (h : (s.agent c.issuer).mx.ring c.ring = none
    ∨ ¬((s.agent c.issuer).run = .item ∧ (s.agent c.issuer).owner = c.context)) : s.copyProduce i c = s.engineFault i := by
  unfold State.copyProduce
  dsimp only
  rw [hring, if_pos rfl]
  split
  · next r hr =>
    have unsuited : ((s.agent c.issuer).run ≠ .item || (s.agent c.issuer).owner ≠ c.context) = true := by
      rcases h with h | h
      · cases hr.symm.trans h
      · simpa [imp_iff_not_or] using h
    exact if_pos unsuited
  · rfl

variable {r : Ring} (hr : (s.agent c.issuer).mx.ring c.ring = some r) (hrun : (s.agent c.issuer).run = .item)
  (hown : (s.agent c.issuer).owner = c.context)
include hr hrun hown

theorem State.copyProduce_full (hfull : r.full = true) : s.copyProduce i c = s := by
  unfold State.copyProduce
  simp [hring, hr, hrun, hown, hfull]

theorem State.copyProduce_produces (hfull : r.full = false) : s.copyProduce i c
    = ((((s.cmdSettled i c).releaseBy (s.agent (EngineId.agent i)) 1).produceRing c.issuer c.ring).cmdMailbox i c).cmdEnd i
        { c with state := .complete } := by
  unfold State.copyProduce
  simp [hring, hr, hrun, hown, hfull, State.culvertProduce]
end

end Sys2Proof.Machine
end

section
/-! SUPPORT. O43: a cistern's pieces and its completion, branch by branch (R308, R310 to R312, R352). -/

namespace Sys2Proof.Machine
open Sys2Proof

/-! ## A piece -/

section
variable {s : State} {i : EngineId} {c : Cmd}

/-- The piece that a command does next, by its kind (R310 to R312). -/
def State.nextPiece (s : State) (i : EngineId) (c : Cmd) : State × Except PieceStop Bool :=
  match c.kind with
  | .reduce => let r := s.asCmd i c fun w => w.reducePiece c c.beats; (r.1.cmdDrain i c, r.2)
  | .convert => s.asCmd i c fun w => w.convertPiece c c.beats
  | _ => s.asCmd i c fun w => w.gatherPiece c c.beats

theorem State.cisternStep_ok {fl : Bool} (h : (s.nextPiece i c).2 = .ok fl) :
    s.cisternStep i c = ((s.nextPiece i c).1.convertCovered i c).cmdUpdate i
      { c with state := .running, beats := c.beats + 1, cflag := c.cflag || fl } := by
  have pair : s.nextPiece i c = ((s.nextPiece i c).1, .ok fl) := Prod.ext rfl h
  show (match s.nextPiece i c with | (s, .error a) => _ | (s, .ok fl) => _) = _
  rw [pair]

theorem State.cisternStep_error {e : PieceStop} (h : (s.nextPiece i c).2 = .error e) :
    s.cisternStep i c = (s.nextPiece i c).1.cmdFault i { c with beats := c.beats + e.beats, cflag := c.cflag || e.flagged } e.addr 0 := by
  have pair : s.nextPiece i c = ((s.nextPiece i c).1, .error e) := Prod.ext rfl h
  show (match s.nextPiece i c with | (s, .error a) => _ | (s, .ok fl) => _) = _
  rw [pair]
end

section
variable {s : State} {k : BitVec 4} {c : Cmd} (h : s.headCmd (.cistern k) = some c)
include h

theorem exec_cisternPiece_idle (hc : c.pieces ≤ c.beats ∨ s.cmdStopped (.cistern k) c = true) : exec (.cisternPiece k) s = .next s := by
  have stays : ¬(c.beats < c.pieces && !s.cmdStopped (.cistern k) c) = true := by
    rcases hc with hc | hc <;> simp [hc]
  show execCisternPiece k s = _
  rw [execCisternPiece, h]
  exact if_neg stays

theorem exec_cisternPiece (hc : c.beats < c.pieces) (hs : s.cmdStopped (.cistern k) c = false) {t : State} (ht : s.cisternStep (.cistern k) c = t) :
    exec (.cisternPiece k) s = .next t := by
  have moves : (c.beats < c.pieces && !s.cmdStopped (.cistern k) c) = true := by simp [hc, hs]
  show execCisternPiece k s = _
  rw [execCisternPiece, h, ← ht]
  exact if_pos moves

theorem exec_cisternCompletion_idle (hc : c.beats < c.pieces ∨ s.mailboxAway c = true ∨ s.cmdStopped (.cistern k) c = true) :
    exec (.cisternCompletion k) s = .next s := by
  have stays : (c.beats < c.pieces || s.mailboxAway c || s.cmdStopped (.cistern k) c) = true := by
    rcases hc with hc | hc | hc <;> simp [hc]
  show execCisternCompletion k s = _
  rw [execCisternCompletion, h]
  exact if_pos stays

theorem exec_cisternCompletion (hc : c.pieces ≤ c.beats) (ha : s.mailboxAway c = false) (hs : s.cmdStopped (.cistern k) c = false) {t : State}
    (ht : s.cisternEnd (.cistern k) c = t) : exec (.cisternCompletion k) s = .next t := by
  have goes : ¬(c.beats < c.pieces || s.mailboxAway c || s.cmdStopped (.cistern k) c) = true := by simp [ha, hs, Nat.not_lt.mpr hc]
  show execCisternCompletion k s = _
  rw [execCisternCompletion, h, ← ht]
  exact if_neg goes
end

/-- R310: the source and the destination of the next beat of a gather. -/
def Cmd.gatherSrc (c : Cmd) : Addr :=
  c.src.cursor + BitVec.ofNat 48 (c.idx.getD (c.beats / (c.length / 32)) 0 * c.length + c.beats % (c.length / 32) * 32)
def Cmd.gatherDst (c : Cmd) : Addr :=
  c.dst.cursor + BitVec.ofNat 48 (c.beats / (c.length / 32) * c.length + c.beats % (c.length / 32) * 32)

theorem State.gatherPiece_reads {u v : State} {c : Cmd} {bytes : List Byte} (h : u.cmdRead32 c c.gatherSrc = (v, some bytes)) :
    u.gatherPiece c c.beats = (v.cmdWrite c c.gatherDst bytes, .ok false) := by
  unfold Cmd.gatherSrc at h
  rw [State.gatherPiece, h]
  rfl

/-- R310: a piece of a gather within the module stands at its destination. -/
theorem State.gatherPiece_stored {s : State} {i : EngineId} {c : Cmd} (h : s.plainMemory) (hk : c.kind = .gather) {p q d : Place}
    (hp : s.cmdSees i c c.gatherSrc = some p) (hq : s.cmdSees i c (c.gatherSrc + 16) = some q) (hd : s.cmdSees i c c.gatherDst = some d)
    (hdin : d.inModule) (hpbad : s.dataBad p 16 = false) (hqbad : s.dataBad q 16 = false) :
    Stored s (s.cisternStep i c) d (s.placeBytes p 16 ++ s.placeBytes q 16) false := by
  have only := s.agentsOnly_actsFor i c
  have plain := only.plainMemory h
  rw [State.cmdSees_eq] at hp hq hd
  have read : (s.actsFor i c).cmdRead32 c c.gatherSrc = (s.actsFor i c, some (s.placeBytes p 16 ++ s.placeBytes q 16)) := by
    rw [State.cmdRead32, State.cmdRead_here plain hp ((only.dataBad p 16).trans hpbad)]
    dsimp only
    rw [State.cmdRead_here plain hq ((only.dataBad q 16).trans hqbad), only.placeBytes, only.placeBytes]
  have wrote := State.cmdWrite_stored plain hd hdin (bytes := s.placeBytes p 16 ++ s.placeBytes q 16) (by simp)
  have piece : s.nextPiece i c
      = (s.actedFor i ((s.actsFor i c).cmdWrite c c.gatherDst (s.placeBytes p 16 ++ s.placeBytes q 16)), .ok false) := by
    rw [State.nextPiece, hk]
    dsimp only
    rw [State.asCmd_eq, State.gatherPiece_reads read]
  rw [State.cisternStep_ok (congrArg Prod.snd piece), piece]
  refine Stored.cmdUpdate ?_ _
  rw [State.convertCovered, hk]
  exact wrote.agentsOnly only (s.agentsOnly_actedFor i _)

/-! ## The completion -/

section
variable {s : State} {i : EngineId} {c : Cmd}

theorem State.cisternEnd_noWay (h : s.noWay i c) : s.cisternEnd i c = s.cmdRefused i c := if_pos (State.noWay_iff.mpr h)

variable (hw : ¬s.noWay i c)
include hw

theorem State.cisternEnd_held (hm : c.mbx.isNone = false) (hh : s.cmdHeld i c [c.mbx.cursor] = true) : s.cisternEnd i c = s := by
  refine (if_neg (mt State.noWay_iff.mp hw)).trans (if_pos ?_)
  rw [hm, hh]
  rfl

theorem State.cisternEnd_completes (h : c.mbx.isNone = true ∨ s.cmdHeld i c [c.mbx.cursor] = false) :
    s.cisternEnd i c = (s.cmdMailbox i c).cmdEnd i { c with state := .complete } := by
  refine (if_neg (mt State.noWay_iff.mp hw)).trans (if_neg ?_)
  rcases h with h | h <;> simp [h]
end

end Sys2Proof.Machine

namespace Sys2Proof
open Sys2Proof.Machine

/-- Settles O43: a culvert's beat and completion by what stands in their way, the fault of its program, a cistern's piece and
completion, and engines with no command in hand. -/
theorem enginesCarryOutTheirCommands : Obligations.EnginesCarryOutTheirCommands := by
  unfold Obligations.EnginesCarryOutTheirCommands
  refine ⟨fun s u c hc => ⟨fun hbeats => ?beat, fun hbeats => ?culvertEnd⟩, exec_culvertFault,
    fun s k c hc => ⟨fun hstop => ?stopped, fun hbeats => ?piece, fun hbeats => ?cisternEnd⟩,
    fun s => ⟨fun u hu => ?noCopy, fun k hk => ?noPiece⟩⟩
  case beat =>
    have beat {t : State} (hs : s.cmdStopped (.culvert u) c = false) (ht : s.copyBeat (.culvert u) c = t) := exec_culvertBeat hc hbeats hs ht
    refine ⟨exec_culvertCompletion_idle hc (.inl hbeats), fun hs => exec_culvertBeat_idle hc (.inr hs),
      fun hs hb => beat hs (State.copyBeat_barred hb), fun hs hb hh => beat hs (State.copyBeat_held hb hh),
      fun hs hb hh s1 r hf => ⟨?_, ?_, ?_, ?_⟩, ?_⟩
    · rintro a b rfl
      exact beat hs (State.copyBeat_moves hb hh hf)
    · rintro xs rfl hx
      exact beat hs (State.copyBeat_bad hb hh hx hf)
    · rintro rs rfl
      exact beat hs (State.copyBeat_waits hb hh hf)
    · rintro rfl
      exact beat hs (State.copyBeat_refused hb hh hf)
    · intro hfirst hdec hr hm hlost p q d hp hq hd hpin hqin hdin hpbad hqbad
      exact ⟨_, beat (State.cmdStopped_plain hm) rfl,
        State.copyBeat_stored hm hlost hfirst hdec hr hp hq hd hpin hqin hdin hpbad hqbad⟩
  case culvertEnd =>
    have done {t : State} (hs : s.cmdStopped (.culvert u) c = false) (ht : s.copyEnd (.culvert u) c = t) := exec_culvertCompletion hc hbeats hs ht
    refine ⟨exec_culvertBeat_idle hc (.inl hbeats), fun hs => exec_culvertCompletion_idle hc (.inr hs),
      fun hs hw => done hs (State.copyEnd_noWay hw), fun hs hw hh => done hs (State.copyEnd_held hw hh), ?_, ?_⟩
    · rintro ⟨hs, hw, hh⟩ he s1 r hf
      refine ⟨?_, ?_, ?_⟩
      · rintro parts rfl
        have got := State.copyEnd_got hw hh he hf
        refine ⟨fun hdec hbad => done hs ?_, fun hdec hgood => done hs ?_, fun hdec => done hs ?_⟩
        · rw [got, if_pos hdec, if_pos hbad]
        · rw [got, if_pos hdec, hgood]; rfl
        · rw [got, hdec]; rfl
      · rintro rs rfl
        exact done hs (State.copyEnd_waits hw hh he hf)
      · rintro rfl
        exact done hs (State.copyEnd_refused hw hh he hf)
    · rintro ⟨hs, hw, hh⟩ he
      have produces := State.copyEnd_produces hw hh he
      refine ⟨fun hring => ⟨_, done hs (produces.trans (State.copyProduce_mailbox hring)), s.cmdMailbox_ended _ c⟩,
        fun hring hno => done hs (produces.trans (State.copyProduce_faults hring hno)), fun r hring hr hsuits => ?_⟩
      obtain ⟨hrun, hown⟩ := hsuits
      exact ⟨fun hfull => done hs (produces.trans (State.copyProduce_full hring hr hrun hown hfull)),
        fun hfull => done hs (produces.trans (State.copyProduce_produces hring hr hrun hown hfull))⟩
  case stopped => exact ⟨exec_cisternPiece_idle hc (.inr hstop), exec_cisternCompletion_idle hc (.inr (.inr hstop))⟩
  case piece =>
    have piece (r : State × Except PieceStop Bool) (hr : s.nextPiece (.cistern k) c = r) (hs : s.cmdStopped (.cistern k) c = false) :
        (∀ fl, r.2 = .ok fl → exec (.cisternPiece k) s = .next ((r.1.convertCovered (.cistern k) c).cmdUpdate (.cistern k)
          { c with state := .running, beats := c.beats + 1, cflag := c.cflag || fl }))
        ∧ ∀ e, r.2 = .error e → exec (.cisternPiece k) s
          = .next (r.1.cmdFault (.cistern k) { c with beats := c.beats + e.beats, cflag := c.cflag || e.flagged } e.addr 0) := by
      subst hr
      exact ⟨fun fl h => exec_cisternPiece hc hbeats hs (State.cisternStep_ok h),
        fun e h => exec_cisternPiece hc hbeats hs (State.cisternStep_error h)⟩
    refine ⟨exec_cisternCompletion_idle hc (.inl hbeats), fun hk => piece _ ?_, fun hk => piece _ ?_, fun hk => piece _ ?_, ?_⟩
    · rw [State.nextPiece, hk]
    · rw [State.nextPiece, hk]
    · rw [State.nextPiece, hk]
    · intro hk hm p q d per src dst hp hq hd hpin hqin hdin hpbad hqbad
      exact ⟨_, exec_cisternPiece hc hbeats (State.cmdStopped_plain hm) rfl,
        State.gatherPiece_stored hm hk hp hq hd hdin hpbad hqbad⟩
  case cisternEnd =>
    refine ⟨exec_cisternPiece_idle hc (.inl hbeats), fun ha => exec_cisternCompletion_idle hc (.inr (.inl ha)),
      fun hs ha hw => exec_cisternCompletion hc hbeats ha hs (State.cisternEnd_noWay hw), fun ha hw hmbx hh => ?_, fun hs ha hw hm =>
      ⟨_, exec_cisternCompletion hc hbeats ha hs (State.cisternEnd_completes hw hm), s.cmdMailbox_ended _ c⟩⟩
    cases hs : s.cmdStopped (.cistern k) c with
    | true => exact exec_cisternCompletion_idle hc (.inr (.inr hs))
    | false => exact exec_cisternCompletion hc hbeats ha hs (State.cisternEnd_held hw hmbx hh)
  case noCopy =>
    refine ⟨?_, ?_⟩
    · show execCulvertBeat u s = _
      rw [execCulvertBeat, hu]
    · show execCulvertCompletion u s = _
      rw [execCulvertCompletion, hu]
  case noPiece =>
    refine ⟨?_, ?_⟩
    · show execCisternPiece k s = _
      rw [execCisternPiece, hk]
    · show execCisternCompletion k s = _
      rw [execCisternCompletion, hk]

end Sys2Proof
end
